-- ==== Sys2Proof/Word.lean ====
section
/-! DEFINITION. The words of the links and the plainest arithmetic: bytes, keyed tables, saturation and clamping. -/

namespace Sys2Proof

/-- One byte of a frame. -/
abbrev Byte := BitVec 8

/-- A server number, 0 to 7, equal to the number of its link (00_scope, Subjects and identifiers). -/
abbrev ServerId := Fin 8

/-- A table: index and record, kept with the indices strictly rising. -/
abbrev Tab (α : Type) := List (Nat × α)

/-- A value that saturates stops at the end of its range (00_scope, Numbers and ranges). -/
def satAdd (top a b : Nat) : Nat := min top (a + b)

/-- A value that is clamped is brought to the nearest end of its range (00_scope). -/
def clampTo (lo hi v : Nat) : Nat := max lo (min hi v)

end Sys2Proof
end

