-- ==== Sys2Proof/Syntax.lean ====
section
/-! DEFINITION. The commands of the block, one constructor per row of spec/opcode_table.json, with the operands the
frames and events carry. Fields of frames have the widths of R11 and R51. -/

namespace Sys2Proof

/-- A subject of the quota books: a principal or a group (00_scope, "A subject is either a principal or a group"). -/
inductive Subject where
  | principal (i : Nat)
  | group (i : Nat)
  deriving DecidableEq, Repr

/-- What a good management frame carries beside its kind and fields: its tag and its payload byte count (R2). -/
structure ReqHead where
  tag : BitVec 16
  len : BitVec 16
  deriving DecidableEq, Repr

/-- A subject as a request carries it: a subject-kind byte coded as in R202 and a 2-byte index (R11). -/
structure WireSubject where
  kind : BitVec 8
  index : BitVec 16
  deriving DecidableEq, Repr

/-- A change record, 24 bytes (R51). -/
structure ChangeRecord where
  op : BitVec 8
  restoreTag : BitVec 8
  volume : BitVec 16
  principal : BitVec 16
  toPrincipal : BitVec 16
  count : BitVec 32
  birthEpoch : BitVec 32
  block : BitVec 64
  deriving DecidableEq, Repr

/-- An extent of a START_RESTORE request, 20 bytes (R150). -/
structure ExtentField where
  source : BitVec 64
  count : BitVec 32
  dest : BitVec 64
  deriving DecidableEq, Repr

/-- A setting of SET_VOLUME: a presence byte and a value, counted as one field (R11). -/
structure Setting (w : Nat) where
  present : BitVec 8
  value : BitVec w
  deriving DecidableEq, Repr

/-- A character arriving on a port: a byte, or a character with a missing stop bit (R4, framing error). -/
inductive RxChar where
  | byte (b : Byte)
  | missingStop
  deriving DecidableEq, Repr

/-- The receive side of a port: hunting for a mark, or assembling with the bytes got after the mark (R4). -/
inductive Rx where
  | hunting
  | assembling (got : List Byte)
  deriving DecidableEq, Repr

/-- A frame as the envelope of R2 carries it. -/
structure RawFrame where
  kind : Byte
  tag : BitVec 16
  payload : List Byte
  deriving DecidableEq, Repr

/-- What the receive side reports: a good frame or a bad one (R4). -/
inductive RxEvent where
  | good (f : RawFrame)
  | bad
  deriving DecidableEq, Repr

/-- The commands of the 4800, one constructor per row of spec/opcode_table.json. -/
inductive Instr where
  -- Reset and carrier
  | coldReset
  | resetRelease
  | carrierGained (srv : ServerId)
  | carrierLost (srv : ServerId)
  | mgmtCarrierGained
  | mgmtCarrierLost
  -- Management link frames
  | mgmtBadFrame (chars : List RxChar)
  | mgmtFrameBusy (tag : BitVec 16)
  | unknownKind (h : ReqHead) (kind : BitVec 8)
  | mgmtFrameSent
  -- Server link
  | serverFrameSent (srv : ServerId)
  | serverBadFrame (srv : ServerId) (chars : List RxChar)
  | serverUnusableFrame (srv : ServerId) (kind : BitVec 8) (tag : BitVec 16) (len : BitVec 16)
  | hello (srv : ServerId)
  | resync (srv : ServerId)
  | reEnterUp (srv : ServerId)
  | idleReceived (srv : ServerId)
  -- Time
  | secondEvent
  | silenceLimitReached (srv : ServerId)
  | minuteEvent
  | graceExpired (sub : Subject)
  -- Internal steps
  | nightlyTakes
  | dupNightlyList
  | sampleEvent
  | trendVisit
  | graceSweepVisit
  -- Server traffic
  | changes (srv : ServerId) (tag : BitVec 16) (recs : List ChangeRecord)
  | intakeRecord (srv : ServerId)
  | denyAck (srv : ServerId) (num : BitVec 16)
  | allowAck (srv : ServerId) (num : BitVec 16)
  | snapDone (srv : ServerId) (num : BitVec 16)
  | snapFail (srv : ServerId) (num : BitVec 16) (code : BitVec 8)
  | dropSnapAck (srv : ServerId) (num : BitVec 16)
  | copyDone (srv : ServerId) (num : BitVec 16)
  | copyFail (srv : ServerId) (num : BitVec 16) (reason : BitVec 8)
  | shipDone (srv : ServerId) (num : BitVec 16)
  | shipFail (srv : ServerId) (num : BitVec 16) (code : BitVec 8)
  -- Warm restart
  | warmRestart
  | warmRestartEnd
  -- Requests (R11)
  | attachVolume (h : ReqHead) (volume server : BitVec 8) (size : BitVec 64) (weight : BitVec 8)
  | setVolume (h : ReqHead) (volume : BitVec 8) (weight : Setting 8) (reserveLimit : Setting 64) (dupGroup : Setting 8) (nightly : Setting 8)
  | detachVolume (h : ReqHead) (volume : BitVec 8)
  | readVolume (h : ReqHead) (volume : BitVec 8) (first : BitVec 16) (count : BitVec 8)
  | setSilence (h : ReqHead) (limit : BitVec 16)
  | restart (h : ReqHead)
  | setWindow (h : ReqHead) (start length : BitVec 16) (capacity : BitVec 32)
  | setSlotmask (h : ReqHead) (group : BitVec 8) (mask : BitVec 32)
  | setClock (h : ReqHead) (partTime : BitVec 32) (minute : BitVec 16)
  | readWindow (h : ReqHead)
  | setTrend (h : ReqHead) (t : BitVec 32) (k w : BitVec 16)
  | loadUsage (h : ReqHead) (principal : BitVec 16) (usage : BitVec 64)
  | definePrincipal (h : ReqHead) (principal : BitVec 16) (userNumber : BitVec 32) (group : BitVec 16)
  | defineGroup (h : ReqHead) (group : BitVec 16)
  | setGroup (h : ReqHead) (principal group : BitVec 16)
  | dropPrincipal (h : ReqHead) (principal : BitVec 16)
  | dropGroup (h : ReqHead) (group : BitVec 16)
  | setLimits (h : ReqHead) (subject : WireSubject) (soft hard : BitVec 64) (band : BitVec 32)
  | grantGrace (h : ReqHead) (target : WireSubject) (minutes : BitVec 32)
  | grantGraceAll (h : ReqHead) (minutes : BitVec 32)
  | readPrincipal (h : ReqHead) (principal : BitVec 16)
  | readGroup (h : ReqHead) (group : BitVec 16)
  | takeSnapshot (h : ReqHead) (volume kind keep : BitVec 8)
  | releaseSnapshot (h : ReqHead) (id : BitVec 16)
  | setKeep (h : ReqHead) (id : BitVec 16) (keep : BitVec 8)
  | setRetention (h : ReqHead) (rule valid value mask kind : BitVec 8) (keepCount : BitVec 16) (maxAge : BitVec 32)
  | readSnapshot (h : ReqHead) (id : BitVec 16)
  | listSnapshots (h : ReqHead) (volume : BitVec 8) (start : BitVec 16)
  | readRetention (h : ReqHead)
  | startRestore (h : ReqHead) (snapshot principal : BitVec 16) (mode priority count : BitVec 8) (extents : List ExtentField)
  | cancelRestore (h : ReqHead) (job : BitVec 8)
  | readRestore (h : ReqHead) (job : BitVec 8)
  | startDup (h : ReqHead) (volume : BitVec 8)
  | haltDup (h : ReqHead) (volume : BitVec 8)
  | setBase (h : ReqHead) (volume : BitVec 8) (snapshot : BitVec 16)
  | readDup (h : ReqHead) (volume : BitVec 8)
  | setNotice (h : ReqHead) (kind : BitVec 8) (priority : BitVec 16) (express : BitVec 8)
  | fetchNotices (h : ReqHead) (maximum : BitVec 16)
  | clearNotice (h : ReqHead) (kind : BitVec 8) (subject : WireSubject)
  | readNotices (h : ReqHead)
  | readLinks (h : ReqHead)
  deriving DecidableEq, Repr

end Sys2Proof
end

