-- ==== Sys2Proof/Decode.lean ====
section
/-! DEFINITION. From bytes to commands: the check of R3, the receive side of R4, the request kinds and fields of R11 and
the server frames of R6, and the envelope written out (R2). The rows of spec/opcode_table.json give no bits, so
`decodeTableWord` answers none. -/

namespace Sys2Proof

/-- The unsigned little-endian number of some bytes (R2). -/
def leNat : List Byte → Nat
  | [] => 0
  | b :: bs => b.toNat + 256 * leNat bs

/-- The `n` low bytes of a number, low byte first (R2). -/
def leBytes : (n : Nat) → Nat → List Byte
  | 0, _ => []
  | n + 1, v => BitVec.ofNat 8 v :: leBytes n (v / 256)

/-- One bit into the check register: generator 0x1021 (R3). -/
def crcBit (r : BitVec 16) (bit : Bool) : BitVec 16 :=
  if r.msb ^^ bit then (r <<< 1) ^^^ 0x1021#16 else r <<< 1

/-- One byte into the check register, most significant bit first (R3). -/
def crcByte (r : BitVec 16) (b : Byte) : BitVec 16 :=
  [7, 6, 5, 4, 3, 2, 1, 0].foldl (fun a i => crcBit a (b.getLsbD i)) r

/-- The check over some bytes: the register starts at 0xFFFF and there is no final inversion (R3). -/
def crc16 (bytes : List Byte) : BitVec 16 :=
  bytes.foldl crcByte 0xFFFF#16

/-- The bytes that the check covers: kind, tag, length and payload (R3). -/
def RawFrame.checked (f : RawFrame) : List Byte :=
  f.kind :: leBytes 2 f.tag.toNat ++ leBytes 2 f.payload.length ++ f.payload

/-- A frame as it stands on a link: mark, kind, tag, length, payload, check (R2). -/
def RawFrame.bytes (f : RawFrame) : List Byte :=
  0xC3#8 :: f.checked ++ leBytes 2 (crc16 f.checked).toNat

/-- What the bytes got so far amount to when another byte has been taken (R4). -/
def rxGot (got : List Byte) : Rx × Option RxEvent :=
  if got.length < 5 then (.assembling got, none)
  else
    let len := leNat ((got.drop 3).take 2)
    if 1024 < len then (.hunting, some .bad)
    else if got.length < 5 + len + 2 then (.assembling got, none)
    else if (crc16 (got.take (5 + len))).toNat = leNat ((got.drop (5 + len)).take 2) then
      (.hunting, some (.good ⟨got.getD 0 0, BitVec.ofNat 16 (leNat ((got.drop 1).take 2)), (got.drop 5).take len⟩))
    else (.hunting, some .bad)

/-- One character into the receive side (R4). -/
def rxStep : Rx → RxChar → Rx × Option RxEvent
  | .hunting, .byte b => if b = 0xC3#8 then (.assembling [], none) else (.hunting, none)
  | .hunting, .missingStop => (.hunting, none)
  | .assembling got, .byte b => rxGot (got ++ [b])
  | .assembling _, .missingStop => (.hunting, some .bad)

/-- A run of characters into the receive side: where it stands after them, and what it reported (R4). -/
def rxRun : Rx → List RxChar → Rx × List RxEvent
  | rx, [] => (rx, [])
  | rx, c :: cs =>
    let (rx', ev) := rxStep rx c
    let (rx'', evs) := rxRun rx' cs
    (rx'', ev.toList ++ evs)

/-- The receive side reported a good frame among these events. -/
def RxEvent.isGood : RxEvent → Bool
  | .good _ => true
  | .bad => false

/-- The field of `n` bytes at an offset of a payload, little-endian (R11). -/
def fieldAt (p : List Byte) (off n : Nat) : BitVec (8 * n) :=
  BitVec.ofNat _ (leNat ((p.drop off).take n))

/-- A subject field: kind byte and 2-byte index (R11). -/
def subjectAt (p : List Byte) (off : Nat) : WireSubject :=
  ⟨fieldAt p off 1, fieldAt p (off + 1) 2⟩

/-- `n` extents of 20 bytes (R150). -/
def extentFields : Nat → List Byte → List ExtentField
  | 0, _ => []
  | n + 1, p => ⟨fieldAt p 0 8, fieldAt p 8 4, fieldAt p 12 8⟩ :: extentFields n (p.drop 20)

/-- `n` change records of 24 bytes (R51, R52). -/
def changeRecords : Nat → List Byte → List ChangeRecord
  | 0, _ => []
  | n + 1, p =>
    ⟨fieldAt p 0 1, fieldAt p 1 1, fieldAt p 2 2, fieldAt p 4 2, fieldAt p 6 2, fieldAt p 8 4, fieldAt p 12 4,
      fieldAt p 16 8⟩ :: changeRecords n (p.drop 24)

/-- The command that a good management frame is (R5, R11): by its kind, with the fields its payload holds. A kind that is
no request kind is UNKNOWN_KIND. GRANT_GRACE whose target is the device subject with index 0 is GRANT_GRACE ALL. -/
def decodeRequest (f : RawFrame) : Instr :=
  let p := f.payload
  let h : ReqHead := ⟨f.tag, BitVec.ofNat 16 p.length⟩
  match f.kind.toNat with
  | 64 => .attachVolume h (fieldAt p 0 1) (fieldAt p 1 1) (fieldAt p 2 8) (fieldAt p 10 1)
  | 65 => .setVolume h (fieldAt p 0 1) ⟨fieldAt p 1 1, fieldAt p 2 1⟩ ⟨fieldAt p 3 1, fieldAt p 4 8⟩
      ⟨fieldAt p 12 1, fieldAt p 13 1⟩ ⟨fieldAt p 14 1, fieldAt p 15 1⟩
  | 66 => .detachVolume h (fieldAt p 0 1)
  | 67 => .readVolume h (fieldAt p 0 1) (fieldAt p 1 2) (fieldAt p 3 1)
  | 68 => .setSilence h (fieldAt p 0 2)
  | 69 => .restart h
  | 70 => .setWindow h (fieldAt p 0 2) (fieldAt p 2 2) (fieldAt p 4 4)
  | 71 => .setSlotmask h (fieldAt p 0 1) (fieldAt p 1 4)
  | 72 => .setClock h (fieldAt p 0 4) (fieldAt p 4 2)
  | 73 => .readWindow h
  | 74 => .setTrend h (fieldAt p 0 4) (fieldAt p 4 2) (fieldAt p 6 2)
  | 75 => .loadUsage h (fieldAt p 0 2) (fieldAt p 2 8)
  | 76 => .definePrincipal h (fieldAt p 0 2) (fieldAt p 2 4) (fieldAt p 6 2)
  | 77 => .defineGroup h (fieldAt p 0 2)
  | 78 => .setGroup h (fieldAt p 0 2) (fieldAt p 2 2)
  | 79 => .dropPrincipal h (fieldAt p 0 2)
  | 80 => .dropGroup h (fieldAt p 0 2)
  | 81 => .setLimits h (subjectAt p 0) (fieldAt p 3 8) (fieldAt p 11 8) (fieldAt p 19 4)
  | 82 =>
    if subjectAt p 0 = ⟨0, 0⟩ then .grantGraceAll h (fieldAt p 3 4)
    else .grantGrace h (subjectAt p 0) (fieldAt p 3 4)
  | 83 => .readPrincipal h (fieldAt p 0 2)
  | 84 => .readGroup h (fieldAt p 0 2)
  | 85 => .takeSnapshot h (fieldAt p 0 1) (fieldAt p 1 1) (fieldAt p 2 1)
  | 86 => .releaseSnapshot h (fieldAt p 0 2)
  | 87 => .setKeep h (fieldAt p 0 2) (fieldAt p 2 1)
  | 88 => .setRetention h (fieldAt p 0 1) (fieldAt p 1 1) (fieldAt p 2 1) (fieldAt p 3 1) (fieldAt p 4 1)
      (fieldAt p 5 2) (fieldAt p 7 4)
  | 89 => .readSnapshot h (fieldAt p 0 2)
  | 90 => .listSnapshots h (fieldAt p 0 1) (fieldAt p 1 2)
  | 91 => .readRetention h
  | 92 => .startRestore h (fieldAt p 0 2) (fieldAt p 2 2) (fieldAt p 4 1) (fieldAt p 5 1) (fieldAt p 6 1)
      (extentFields (fieldAt p 6 1).toNat (p.drop 7))
  | 93 => .cancelRestore h (fieldAt p 0 1)
  | 94 => .readRestore h (fieldAt p 0 1)
  | 95 => .startDup h (fieldAt p 0 1)
  | 96 => .haltDup h (fieldAt p 0 1)
  | 97 => .setBase h (fieldAt p 0 1) (fieldAt p 1 2)
  | 98 => .readDup h (fieldAt p 0 1)
  | 99 => .setNotice h (fieldAt p 0 1) (fieldAt p 1 2) (fieldAt p 3 1)
  | 100 => .fetchNotices h (fieldAt p 0 2)
  | 101 => .clearNotice h (fieldAt p 0 1) (subjectAt p 1)
  | 102 => .readNotices h
  | 103 => .readLinks h
  | _ => .unknownKind h f.kind

/-- A payload length that a server-to-part kind allows (R6, R52, R105, R120, R153, R177); no other kind has one. -/
def serverLengthAllowed (kind len : Nat) : Bool :=
  match kind with
  | 1 | 2 | 3 => len = 0
  | 5 => 24 ≤ len && len ≤ 384 && len % 24 = 0
  | 9 | 11 | 13 | 16 | 20 | 21 => len = 0
  | 10 | 14 | 17 => len = 1
  | _ => false

/-- The command that a good frame on server link `srv` is (R6): by its kind, when its length is one the kind allows. -/
def decodeServerFrame (srv : ServerId) (f : RawFrame) : Instr :=
  let p := f.payload
  let byte0 : BitVec 8 := fieldAt p 0 1
  if serverLengthAllowed f.kind.toNat p.length then
    match f.kind.toNat with
    | 1 => .hello srv
    | 2 => .resync srv
    | 3 => .idleReceived srv
    | 5 => .changes srv f.tag (changeRecords (p.length / 24) p)
    | 9 => .snapDone srv f.tag
    | 10 => .snapFail srv f.tag byte0
    | 11 => .dropSnapAck srv f.tag
    | 13 => .copyDone srv f.tag
    | 14 => .copyFail srv f.tag byte0
    | 16 => .shipDone srv f.tag
    | 17 => .shipFail srv f.tag byte0
    | 20 => .denyAck srv f.tag
    | 21 => .allowAck srv f.tag
    | _ => .serverUnusableFrame srv f.kind f.tag (BitVec.ofNat 16 p.length)
  else .serverUnusableFrame srv f.kind f.tag (BitVec.ofNat 16 p.length)

/-- The command that a word spells by the table's bits: the rows of spec/opcode_table.json give no bits, so none. -/
def decodeTableWord (_nbits _w : Nat) : Option Instr := none

end Sys2Proof
end

