-- ==== Sys2Proof/Machine/State.lean ====
section
/-! DEFINITION. The state of the 4800: every register, list, table, counter, flag and pin the spec gives the part, in the
order of its blocks, as plain data; the reasons a step could stop; and the state after reset. Tables whose every index
exists list no record equal to the one an unlisted index reads as. -/

namespace Sys2Proof.Machine

/-! ### Names of states, reasons and kinds -/

/-- States of a server link (R13). -/
inductive LinkState where
  | down | syncing | up | faulted
  deriving DecidableEq, Repr

/-- Reasons of a link's last state change (R13). -/
inductive LinkReason where
  | carrierGained | carrierLost | hello | resync | badFrame | overrun | silence | restart
  deriving DecidableEq, Repr

/-- The frame whose re-entry into UP is held until the leaving parts are complete (R14). -/
inductive Reentry where
  | hello | resync
  deriving DecidableEq, Repr

/-- The six orders of R16. -/
inductive OrderKind where
  | snap | dropSnap | copy | ship | deny | allow
  deriving DecidableEq, Repr

/-- The blocks that issue orders (R16). -/
inductive Issuer where
  | sc | rsc | dc | et
  deriving DecidableEq, Repr

/-- Status codes of replies, codes 0 to 9 in this order (R10). -/
inductive Status where
  | ok | clamped | busy | unknownKind | malformed | noSuch | inUse | full | quota | state
  deriving DecidableEq, Repr

/-- Phases of a warm restart: none; RESTART taken and its reply not yet gone; due to begin; in progress (R20). -/
inductive RestartPhase where
  | none | taken | due | inProgress
  deriving DecidableEq, Repr

/-- Volume states (R34). -/
inductive VolState where
  | unattached | attached | stale
  deriving DecidableEq, Repr

/-- Verdicts of records (R59): codes 1, 2 and 16 to 21. -/
inductive Verdict where
  | reassigned | duplicate | format | count | noVolume | range | crosses | birth
  deriving DecidableEq, Repr

/-- Quota states (R90). -/
inductive QuotaState where
  | under | soft | spent | hard
  deriving DecidableEq, Repr

/-- Causes of an evaluation (R101). -/
inductive QuotaCause where
  | charge | reservation | transfer | load | limits | grace | graceExpired
  deriving DecidableEq, Repr

/-- What the part wants of the servers for a subject (R104). -/
inductive Want where
  | deny | allow
  deriving DecidableEq, Repr

/-- A server's status for a deny entry (R104). -/
inductive PartStatus where
  | notSent | sent | confirmed
  deriving DecidableEq, Repr

/-- A subject's enforcement (R90). -/
inductive Enforcement where
  | none | entered | backlogged
  deriving DecidableEq, Repr

/-- Snapshot kinds, coded 1 to 3 in this order (R120). -/
inductive SnapKind where
  | hourly | nightly | manual
  deriving DecidableEq, Repr

/-- Snapshot states (R118). -/
inductive SnapState where
  | taking | live | dropping
  deriving DecidableEq, Repr

/-- Reasons of SNAP_FAILED (R139); SERVER carries the server's code. -/
inductive SnapFailReason where
  | server (code : Nat) | link | stale | full | epoch
  deriving DecidableEq, Repr

/-- Reasons of SNAP_RELEASED (R139). -/
inductive ReleaseReason where
  | host | retention | pressure
  deriving DecidableEq, Repr

/-- Restore job states; a free slot holds no job (R149). -/
inductive JobState where
  | active | draining
  deriving DecidableEq, Repr

/-- Restore modes, coded 1 and 2 (R153). -/
inductive RestoreMode where
  | charge | staff
  deriving DecidableEq, Repr

/-- Extent statuses (R149). -/
inductive ExtStatus where
  | pending | ordered | done | failed
  deriving DecidableEq, Repr

/-- Extent failure reasons (R149). -/
inductive ExtReason where
  | none | io | sourceGone | noSpace | link | cancelled
  deriving DecidableEq, Repr

/-- Outcomes of a restore job (R158, R164). -/
inductive RestoreOutcome where
  | done | partly | failed | cancelled | aborted
  deriving DecidableEq, Repr

/-- Duplication job states (R167). -/
inductive DupState where
  | waitingSnapshot | shipping | suspended | draining
  deriving DecidableEq, Repr

/-- The reason of a duplication job's last failure (R167). -/
inductive DupFailure where
  | none | server (code : Nat) | link
  deriving DecidableEq, Repr

/-- Origins of a duplication job (R167). -/
inductive DupOrigin where
  | window | host
  deriving DecidableEq, Repr

/-- Reasons of DUP_STATE and of a volume's last end (R167, R189). -/
inductive DupReason where
  | created | complete | halted | failed | noTarget
  deriving DecidableEq, Repr

/-- Causes of DUP_STATE (R189). -/
inductive DupCause where
  | none | stale | full | epoch | pinRefused | takeFailed | host | restart
  deriving DecidableEq, Repr

/-- Reasons of VOLUME_STALE (R47). -/
inductive StaleReason where
  | link | detached | restart
  deriving DecidableEq, Repr

/-- Causes of a WINDOW notice (R26). -/
inductive WindowCause where
  | minute | setClock
  deriving DecidableEq, Repr

/-- Whose confirmed denial made a record a breach (R115). -/
inductive BreachOf where
  | own | group | both
  deriving DecidableEq, Repr

/-- Notice kinds, codes 1 to 13 in this order (R193). -/
inductive NoticeKind where
  | quotaState | approach | breach | enforceBacklog | snapTaken | snapFailed | snapReleased | reserveOver
  | restoreDone | dupState | window | linkState | volumeStale
  deriving DecidableEq, Repr

/-- Notice subjects (R193). -/
inductive NoticeSubject where
  | device
  | server (i : Nat)
  | volume (i : Nat)
  | snapshot (i : Nat)
  | job (i : Nat)
  | principal (i : Nat)
  | group (i : Nat)
  deriving DecidableEq, Repr

/-! ### Notices -/

/-- How many failed extents failed with each reason (R163). -/
structure FailCounts where
  io : Nat
  sourceGone : Nat
  noSpace : Nat
  link : Nat
  cancelled : Nat
  deriving DecidableEq, Repr

/-- The content fields of a notice, in the order of its owning rule. -/
inductive Content where
  /-- QUOTA_STATE (R101). -/
  | quotaState (sub : Subject) (old new : QuotaState) (load s16 h16 grace : Nat) (cause : QuotaCause) (time : Nat)
  /-- APPROACH (R87). -/
  | approach (p : Nat) (q : Int) (load h16 : Nat) (state : QuotaState) (time : Nat)
  /-- BREACH (R115); the op is MOVE or ALLOC. -/
  | breach (server volume : Nat) (isMove : Bool) (blocks : Nat) (held : BreachOf) (count time : Nat)
  /-- ENFORCE_BACKLOG (R111). -/
  | enforceBacklog (standing : Bool) (length entries time : Nat)
  /-- SNAP_TAKEN (R139). -/
  | snapTaken (id volume epoch : Nat) (kind : SnapKind) (keep : Bool) (time : Nat)
  /-- SNAP_FAILED (R139). -/
  | snapFailed (id : Nat) (kind : SnapKind) (reason : SnapFailReason) (time : Nat)
  /-- SNAP_RELEASED (R139). -/
  | snapReleased (id volume epoch : Nat) (kind : SnapKind) (reason : ReleaseReason) (passed freed held time : Nat)
  /-- RESERVE_OVER (R138). -/
  | reserveOver (standing : Bool) (held limit pinnedOrKept time : Nat)
  /-- RESTORE_DONE (R163). -/
  | restoreDone (job principal volume snapshot : Nat) (outcome : RestoreOutcome) (copied done failed : Nat)
      (byReason : FailCounts) (released time : Nat)
  /-- DUP_STATE (R189). -/
  | dupState (reason : DupReason) (cause : DupCause) (target targetEpoch baseBefore baseAfter regions mib batches failures : Nat)
      (last : DupFailure) (time : Nat)
  /-- WINDOW (R26, R28); the transition is OPEN or CLOSE. -/
  | window (opening : Bool) (slot minute time : Nat) (cause : WindowCause)
  /-- LINK_STATE (R19). -/
  | linkState (old new : LinkState) (reason : LinkReason) (time : Nat)
  /-- VOLUME_STALE (R47). -/
  | volumeStale (standing : Bool) (server : Nat) (state : VolState) (reason : StaleReason) (time : Nat)
  deriving DecidableEq, Repr

/-- A notice as a block raises it. -/
structure Notice where
  subject : NoticeSubject
  content : Content
  deriving DecidableEq, Repr

/-- An entry of the queue (R195). Its kind and its standing are its content's. `age` is the order in which it was given
its sequence number, which the NQ keeps itself. -/
structure Entry where
  subject : NoticeSubject
  content : Content
  priority : Nat
  seq : Nat
  age : Nat
  seen : Bool
  deriving DecidableEq, Repr

/-- The notice held in the express slot (R200). -/
structure SlotNotice where
  subject : NoticeSubject
  content : Content
  seq : Nat
  age : Nat
  deriving DecidableEq, Repr

/-- The Notice Queue (R193, R195, R200). -/
structure Nq where
  priorities : Tab Nat
  express : Option NoticeKind
  queue : List Entry
  seq : Nat
  age : Nat
  overflow : Bool
  lost : Nat
  slot : Option SlotNotice
  deriving DecidableEq, Repr

/-! ### Clock and Window Unit -/

/-- The window's settings (R24). -/
structure WindowSet where
  start : Nat
  len : Nat
  capacity : Nat
  deriving DecidableEq, Repr

/-- A duplication group's slot masks (R30). -/
structure SlotMask where
  current : BitVec 32
  pending : Option (BitVec 32)
  deriving DecidableEq, Repr

/-- The Clock and Window Unit (R22 to R32). `slot` is the slot index while the window is OPEN and none while CLOSED. -/
structure Cwu where
  second : Nat
  partTime : Nat
  minute : Nat
  settings : WindowSet
  pendingSet : Option WindowSet
  slot : Option Nat
  visited : List Nat
  masks : Tab SlotMask
  openGroups : List Nat
  trendT : Nat
  trendCount : Nat
  deriving DecidableEq, Repr

/-! ### Volume Table -/

/-- A volume record (section 3.1). -/
structure Volume where
  state : VolState
  server : Nat
  size : Nat
  weight : Nat
  regionBlocks : Nat
  regionCount : Nat
  epoch : Nat
  reserveLimit : Nat
  heldTotal : Nat
  dupGroup : Nat
  nightly : Bool
  offsiteBase : Option Nat
  marks : Tab Nat
  deriving DecidableEq, Repr

/-- The values of an UNATTACHED record (R34). -/
def Volume.none : Volume :=
  { state := .unattached, server := 0, size := 0, weight := 16, regionBlocks := 0, regionCount := 0, epoch := 0,
    reserveLimit := 0, heldTotal := 0, dupGroup := 0, nightly := false, offsiteBase := Option.none, marks := [] }

/-! ### Change Intake Unit -/

/-- An accepted record in an intake queue (section 4.2). `frameLen` is its frame's record count (log 29). -/
structure QueuedRecord where
  record : ChangeRecord
  num : Nat
  tag : Nat
  idx : Nat
  frameLen : Nat
  dup : Bool
  deriving DecidableEq, Repr

/-- A server's intake state (R54). `verdicts` are those of the frame at the head, gathered for its CHG_ACK (R58, log 29). -/
structure Intake where
  next : Nat
  unack : Nat
  queue : List QueuedRecord
  draining : Bool
  taken : Nat
  rejected : Nat
  duplicates : Nat
  verdicts : List (Nat × Verdict)
  deriving DecidableEq, Repr

/-- A server's intake state after cold reset (R54). -/
def Intake.cold : Intake :=
  { next := 0, unack := 0, queue := [], draining := false, taken := 0, rejected := 0, duplicates := 0, verdicts := [] }

/-! ### Principals and groups -/

/-- A subject's trend state (section 5.5). -/
structure Trend where
  uPrev : Nat
  q : Int
  p : Nat
  armed : Bool
  deriving DecidableEq, Repr

/-- Trend state of a subject when defined (R83). -/
def Trend.fresh : Trend := { uPrev := 0, q := 0, p := 65535, armed := true }

/-- The fields that principals and groups share (R90, R91). -/
structure Account where
  usage : Nat
  reservation : Nat
  soft : Nat
  hard : Nat
  band : Nat
  grace : Nat
  state : QuotaState
  trend : Trend
  deriving DecidableEq, Repr

/-- A newly defined subject's account (R90, R83). -/
def Account.fresh : Account :=
  { usage := 0, reservation := 0, soft := 0, hard := 0, band := 0, grace := 0, state := .under, trend := Trend.fresh }

/-- The last charge outcome: a set of three flags (R76). -/
structure ChargeOutcome where
  saturated : Bool
  borrow : Bool
  zero : Bool
  deriving DecidableEq, Repr

/-- The empty set of flags. -/
def ChargeOutcome.empty : ChargeOutcome := { saturated := false, borrow := false, zero := false }

/-- A principal record (R90). -/
structure Principal where
  defined : Bool
  userNumber : Nat
  group : Option Nat
  acct : Account
  outcome : ChargeOutcome
  breachCount : Nat
  deriving DecidableEq, Repr

/-- An undefined principal: every field cleared (R95). -/
def Principal.undefined : Principal :=
  { defined := false, userNumber := 0, group := none, acct := Account.fresh, outcome := ChargeOutcome.empty, breachCount := 0 }

/-- A group record (R91). -/
structure Group where
  defined : Bool
  acct : Account
  members : Nat
  deriving DecidableEq, Repr

/-- An undefined group. -/
def Group.undefined : Group := { defined := false, acct := Account.fresh, members := 0 }

/-- The subject records (R90, R91) and principal 0's reassignedCount (R61). -/
structure Book where
  principals : Tab Principal
  groups : Tab Group
  reassigned : Nat
  deriving DecidableEq, Repr

/-! ### Charge Engine, Quota Monitor, Enforcement Table -/

/-- A running sample sweep: the key of the next subject to look at, and the k and W fixed for it (R84). -/
structure Sweep where
  pos : Nat
  k : Nat
  w : Nat
  deriving DecidableEq, Repr

/-- The Charge Engine's own state (section 5.5). `due` counts the sample events handed over and not yet taken (log 6). -/
structure Ce where
  k : Nat
  w : Nat
  sweep : Option Sweep
  skipped : Nat
  due : Nat
  deriving DecidableEq, Repr

/-- A running grace sweep: the key of the next subject to look at, and its minutes (R99). -/
structure GraceSweep where
  pos : Nat
  minutes : Nat
  deriving DecidableEq, Repr

/-- The Quota Monitor's own state: the soft list (R102) and the grace sweep (R99). -/
structure Qm where
  softList : List Subject
  sweep : Option GraceSweep
  deriving DecidableEq, Repr

/-- An entry's one outstanding order on a server's link (R104). -/
structure InFlight where
  num : Nat
  kind : Want
  deriving DecidableEq, Repr

/-- An entry's server part (R104). -/
structure ServerPart where
  status : PartStatus
  inFlight : Option InFlight
  mark : Option Nat
  deriving DecidableEq, Repr

/-- A server part of a new entry: NOT_SENT with nothing in flight (R106). -/
def ServerPart.fresh : ServerPart := { status := .notSent, inFlight := none, mark := none }

/-- A deny table entry (R104); the table is indexed by the subject's key. -/
structure DenyEntry where
  want : Want
  parts : Tab ServerPart
  deriving DecidableEq, Repr

/-- The Enforcement Table (R104, R115). -/
structure Et where
  table : Tab DenyEntry
  backlog : List Subject
  breachTotal : Nat
  deriving DecidableEq, Repr

/-! ### Snapshot Catalog -/

/-- A hold: birth epoch and blocks (R125). -/
structure Hold where
  birth : Nat
  blocks : Nat
  deriving DecidableEq, Repr

/-- A snapshot record; the catalog is indexed by its id (R118). -/
structure Snap where
  volume : Nat
  epoch : Nat
  kind : SnapKind
  created : Nat
  state : SnapState
  keep : Bool
  pinCount : Nat
  inFlight : Option Nat
  holds : List Hold
  deriving DecidableEq, Repr

/-- A retention rule (R133). -/
structure Rule where
  valid : Bool
  value : Nat
  mask : Nat
  kind : SnapKind
  keepCount : Nat
  maxAge : Nat
  deriving DecidableEq, Repr

/-- A rule after cold reset (R133). -/
def Rule.cold : Rule := { valid := false, value := 0, mask := 0, kind := .hourly, keepCount := 0, maxAge := 0 }

/-- One volume of the nightly list: the id of the record made, or why none was (R124). -/
structure NightlyItem where
  volume : Nat
  result : Except SnapFailReason Nat
  deriving DecidableEq, Repr

/-- What the Snapshot Catalog hands the Duplication Controller, in order (R169, R170). -/
inductive ScMessage where
  | list (items : List NightlyItem)
  | done (volume id : Nat)
  | failed (volume id : Nat)
  deriving DecidableEq, Repr

/-- The Snapshot Catalog (R118, R119, R133, R138). `reserveOver` is the set of volumes whose reserveOver flag is set.
`opensDue` counts window opens handed over and not yet taken, `toDc` the messages not yet dealt with (log 6). -/
structure Sc where
  records : Tab Snap
  nextId : Nat
  rules : Tab Rule
  reserveOver : List Nat
  opensDue : Nat
  toDc : List ScMessage
  deriving DecidableEq, Repr

/-! ### Copy Credit Arbiter, Restore Controller -/

/-- A server's copy-engine credits (R143) and whether a duplication candidate is presented for it (R145). -/
structure Credit where
  free : Nat
  restore : Nat
  ship : Nat
  groups : List Nat
  dupCandidate : Bool
  deriving DecidableEq, Repr

/-- A server's credits after cold reset (R143). -/
def Credit.cold : Credit := { free := 4, restore := 0, ship := 0, groups := [], dupCandidate := false }

/-- The Copy Credit Arbiter (R143, R149). -/
structure Cca where
  servers : Tab Credit
  openGroups : List Nat
  acceptance : List Nat
  deriving DecidableEq, Repr

/-- An extent of a restore job (R149). -/
structure Extent where
  source : Nat
  count : Nat
  dest : Nat
  status : ExtStatus
  retry : Bool
  reason : ExtReason
  order : Option Nat
  deriving DecidableEq, Repr

/-- A restore job (R149). -/
structure RestoreJob where
  state : JobState
  snapshot : Nat
  volume : Nat
  principal : Nat
  mode : RestoreMode
  priority : Nat
  accepted : Nat
  extents : List Extent
  total : Nat
  remaining : Nat
  deriving DecidableEq, Repr

/-- A slot's last end record (R149). -/
structure RestoreEnd where
  outcome : RestoreOutcome
  copied : Nat
  done : Nat
  failed : Nat
  released : Nat
  principal : Nat
  snapshot : Nat
  time : Nat
  deriving DecidableEq, Repr

/-- The Restore Controller: 16 slots, an unlisted slot being free, and the last end records (R149). -/
structure Rsc where
  jobs : Tab RestoreJob
  lastEnd : Tab RestoreEnd
  deriving DecidableEq, Repr

/-! ### Duplication Controller -/

/-- A batch in flight (R167). -/
structure Batch where
  regions : List Nat
  order : Nat
  mib : Nat
  deriving DecidableEq, Repr

/-- A duplication job (R167). -/
structure DupJob where
  state : DupState
  target : Nat
  targetEpoch : Nat
  baseEpoch : Nat
  cursor : Nat
  batch : Option Batch
  retry : Nat
  regions : Nat
  mib : Nat
  batches : Nat
  failures : Nat
  lastFailure : DupFailure
  origin : DupOrigin
  created : Nat
  deriving DecidableEq, Repr

/-- A volume's last end record (R167). `failures` is the count alone (log 57). -/
structure DupEnd where
  reason : DupReason
  target : Nat
  targetEpoch : Nat
  baseBefore : Nat
  baseAfter : Nat
  regions : Nat
  mib : Nat
  batches : Nat
  failures : Nat
  time : Nat
  deriving DecidableEq, Repr

/-- The Duplication Controller (R167, R173, R175, R176). -/
structure Dc where
  jobs : Tab DupJob
  lastEnd : Tab DupEnd
  remaining : Nat
  full : Nat
  turn : Option Nat
  openGroups : List Nat
  deriving DecidableEq, Repr

/-! ### Results of requests -/

/-- A deny entry as READ_PRINCIPAL and READ_GROUP give it: the want, and for each server its status and whether an order is
in flight (R116). -/
structure DenyView where
  want : Want
  servers : List (PartStatus × Bool)
  deriving DecidableEq, Repr

/-- The Quota Monitor summary (R117). -/
structure QmSummary where
  softLength : Nat
  sweep : Option GraceSweep
  entries : Nat
  wantDeny : Nat
  backlogLength : Nat
  breachTotal : Nat
  deriving DecidableEq, Repr

/-- What READ_PRINCIPAL and READ_GROUP give of a defined subject beside its record (R89, R116). -/
structure SubjectView where
  load : Nat
  s16 : Nat
  h16 : Nat
  rs : Nat
  rh : Nat
  softPos : Option Nat
  enforcement : Enforcement
  backlogPos : Option Nat
  deriving DecidableEq, Repr

/-- An entry of LIST_SNAPSHOTS (R142). -/
structure SnapLine where
  id : Nat
  epoch : Nat
  kind : SnapKind
  state : SnapState
  keep : Bool
  pinCount : Nat
  entries : Nat
  blocks : Nat
  deriving DecidableEq, Repr

/-- One volume of READ_RETENTION: the governing rule of each kind, HOURLY, NIGHTLY, MANUAL, and its reserveOver flag (R142). -/
structure RetentionLine where
  volume : Nat
  governing : List (Option Nat)
  reserveOver : Bool
  deriving DecidableEq, Repr

/-- One server of READ_RESTORE (R166). -/
structure CreditView where
  free : Nat
  restore : Nat
  ship : Nat
  groups : List Nat
  shared : Bool
  dupCandidate : Bool
  restoreCandidates : Nat
  deriving DecidableEq, Repr

/-- READ_DUP (R190). `notEligible` is the first condition of R175 that fails, counted from 1, or none when eligible. -/
structure DupView where
  job : Option DupJob
  ahead : Nat
  notEligible : Option Nat
  last : Option DupEnd
  base : Option Nat
  baseEpoch : Nat
  remaining : Nat
  full : Nat
  turn : Option Nat
  servers : List (Bool × List Nat)
  deriving DecidableEq, Repr

/-- A notice in a FETCH_NOTICES reply (R198, R202). -/
structure Fetched where
  subject : NoticeSubject
  content : Content
  priority : Nat
  seq : Nat
  seenBefore : Bool
  express : Bool
  deriving DecidableEq, Repr

/-- READ_NOTICES (R205). -/
structure NoticeSummary where
  kinds : List (Nat × Bool × Nat)
  priorities : List (Nat × Nat)
  seenConditions : Nat
  seenStanding : Nat
  slot : Option (NoticeKind × NoticeSubject × Nat)
  overflow : Bool
  lost : Nat
  seq : Nat
  deriving DecidableEq, Repr

/-- One server of READ_LINKS (R206, R69). -/
structure LinkView where
  state : LinkState
  reason : LinkReason
  changed : Nat
  silence : Nat
  orders : Nat
  next : Nat
  unack : Nat
  queueLength : Nat
  draining : Bool
  taken : Nat
  rejected : Nat
  duplicates : Nat
  deriving DecidableEq, Repr

/-- The results of a reply whose status is OK or CLAMPED (R8), request by request. -/
inductive Results where
  | none
  /-- ATTACH_VOLUME (R38). -/
  | attached (state : VolState) (regionBlocks regionCount epoch : Nat)
  /-- SET_VOLUME (R39). -/
  | settings (weight reserveLimit dupGroup : Nat) (nightly : Bool)
  /-- DETACH_VOLUME, with CHARGES_KEPT (R42). -/
  | detachedChargesKept (removed : Nat)
  /-- READ_VOLUME (R50). -/
  | volume (v : Volume) (regionMib baseEpoch dirtyCount shipCount : Nat) (marks : List Nat)
  /-- SET_WINDOW: "deferred" or "applied" (R29). -/
  | windowSet (deferred : Bool)
  /-- READ_WINDOW (R33). -/
  | window (c : Cwu) (nextChange : Nat) (samplesSkipped : Nat)
  /-- SET_TREND (R88). -/
  | trend (t k w : Nat)
  /-- LOAD_USAGE: usage before and after, in sixteenths (R82). -/
  | loaded (before after : Nat)
  /-- DROP_PRINCIPAL: the usage moved (R95). -/
  | moved (usage : Nat)
  /-- READ_PRINCIPAL (R89, R116, R117). -/
  | principal (record : Option (Principal × SubjectView × Bool)) (entry : Option DenyView) (summary : Option (Nat × QmSummary))
  /-- READ_GROUP (R89, R116). -/
  | group (record : Option (Group × SubjectView)) (entry : Option DenyView)
  /-- TAKE_SNAPSHOT (R121). -/
  | taken (id epoch : Nat)
  /-- RELEASE_SNAPSHOT: blocks passed on and freed (R129). -/
  | released (passed freed : Nat)
  /-- READ_SNAPSHOT (R142); the record's order in flight is given as present or absent. -/
  | snapshot (id : Nat) (record : Snap) (inFlight : Bool) (total age : Nat)
  /-- LIST_SNAPSHOTS (R142). -/
  | snapshots (lines : List SnapLine) (more : Bool)
  /-- READ_RETENTION (R142). -/
  | retention (rules : List Rule) (volumes : List RetentionLine)
  /-- START_RESTORE: job id and R (R152). -/
  | restoreStarted (job reservation : Nat)
  /-- CANCEL_RESTORE: extents still ORDERED (R160). -/
  | stillOrdered (n : Nat)
  /-- READ_RESTORE (R166). -/
  | restore (job : Option RestoreJob) (position : Option Nat) (last : Option RestoreEnd) (credits : List CreditView)
  /-- START_DUP (R171). -/
  | dupStarted (target targetEpoch baseEpoch shipSet : Nat)
  /-- HALT_DUP: DRAINING, or already ended (R184). -/
  | halted (draining : Bool)
  /-- SET_BASE (R188). -/
  | base (old new : Option Nat) (epoch : Nat)
  /-- READ_DUP (R190). -/
  | dup (v : DupView)
  /-- SET_NOTICE (R194). -/
  | noticeSet (priority : Nat) (express : Bool) (expressKind : Option NoticeKind)
  /-- FETCH_NOTICES (R198, R202). -/
  | fetched (overflow : Bool) (lost : Nat) (notices : List Fetched) (remaining : Nat)
  /-- READ_NOTICES (R205). -/
  | notices (v : NoticeSummary)
  /-- READ_LINKS (R206). -/
  | links (limit : Nat) (servers : List LinkView) (carrier : Bool) (outstanding busy : Nat)
  deriving DecidableEq, Repr

/-! ### Link Unit -/

/-- A reply: status, clamp list (field numbers) and results (R8). -/
structure Reply where
  status : Status
  clamps : List Nat
  results : Results
  deriving DecidableEq, Repr

/-- An entry of the reply list: the request's tag and its reply (R7, log 4). -/
structure ReplyEntry where
  tag : BitVec 16
  reply : Reply
  deriving DecidableEq, Repr

/-- A frame of the management link's transmit side (R9). -/
inductive MgmtFrame where
  | reply (e : ReplyEntry)
  | busy (tag : BitVec 16)
  | express (n : SlotNotice)
  deriving DecidableEq, Repr

/-- An outstanding order in a link's order table (R16). -/
structure Order where
  num : Nat
  kind : OrderKind
  deriving DecidableEq, Repr

/-- The payload fields of an order (R105, R120, R153, R177). -/
inductive OrderBody where
  | snap (volume id epoch : Nat) (kind : SnapKind)
  | dropSnap (volume id epoch : Nat)
  | copy (job : Nat) (mode : RestoreMode) (volume snapshot principal userNumber epoch count source dest : Nat)
  | ship (volume target targetEpoch baseEpoch regionBlocks : Nat) (regions : List Nat)
  | deny (sub : Subject) (userNumber : Nat)
  | allow (sub : Subject) (userNumber : Nat)
  deriving DecidableEq, Repr

/-- A frame of a server link's transmit queue (R14, R15, R17, R53). -/
inductive TxFrame where
  | resyncAck (credit : Nat)
  | idle
  | chgAck (tag credit : Nat) (verdicts : List (Nat × Verdict))
  | order (num : Nat) (body : OrderBody)
  deriving DecidableEq, Repr

/-- A server link (section 1.3). `sentSince`: the port has transmitted a frame since the previous second event (R15).
`held`: the entry into UP waits for the leaving parts (R14). -/
structure Link where
  state : LinkState
  reason : LinkReason
  changed : Nat
  silence : Nat
  orders : List Order
  txQueue : List TxFrame
  counter : Nat
  sentSince : Bool
  rx : Rx
  held : Option Reentry
  deriving DecidableEq, Repr

/-- A server link after cold reset (R13, R16, R21). -/
def Link.cold : Link :=
  { state := .down, reason := .carrierLost, changed := 0, silence := 0, orders := [], txQueue := [], counter := 1,
    sentSince := false, rx := .hunting, held := none }

/-- The Link Unit (R7, R9, R15, R20). -/
structure Lu where
  mgmtRx : Rx
  mgmtTx : Option MgmtFrame
  replies : List ReplyEntry
  busy : List (BitVec 16)
  restart : RestartPhase
  silenceLimit : Nat
  links : Tab Link
  deriving DecidableEq, Repr

/-- The pins: reset line held, carrier sense of the management port and of the server ports (R1, R21). -/
structure Pins where
  resetHeld : Bool
  mgmtCarrier : Bool
  serverCarrier : List Nat
  deriving DecidableEq, Repr

/-- The state of the 4800, block by block, with the queue of commands that are waiting, first in, first out. -/
structure State where
  pending : List Instr
  pins : Pins
  lu : Lu
  cwu : Cwu
  vt : Tab Volume
  ciu : Tab Intake
  book : Book
  ce : Ce
  qm : Qm
  et : Et
  sc : Sc
  cca : Cca
  rsc : Rsc
  dc : Dc
  nq : Nq
  deriving DecidableEq, Repr

/-- The faults of a step. No command stops the 4800: a protocol fault, an overrun or silence takes a server link to
FAULTED (R13), which is a next state. So there is none, and nobody raises one. -/
inductive Fault where
  deriving DecidableEq, Repr

/-- The refusals of a step. -/
inductive Refusal where
  /-- A command that has no meaning in this model; raised by `exec` alone, by the row's mnemonic. Safe: the run stops.
  No arm raises it now. -/
  | notModelled (mnemonic : String)
  deriving DecidableEq, Repr

/-- Principal 0 after cold reset: the unowned account, always defined (R90, R83). -/
def Principal.zeroCold : Principal := { Principal.undefined with defined := true }

/-- The part after cold reset with the reset line released (R21, R22, R24, R30, R32, R34, R54, R83, R90, R102, R104, R141,
R143, R149, R165, R192, R193, R203). The pin levels are a DESIGN CHOICE (log 3): the management carrier is present and
no server carrier is, which agrees with every server link being DOWN. -/
def State.reset : State :=
  { pending := []
    pins := { resetHeld := false, mgmtCarrier := true, serverCarrier := [] }
    lu := { mgmtRx := .hunting, mgmtTx := none, replies := [], busy := [], restart := .none, silenceLimit := 10, links := [] }
    cwu := { second := 0, partTime := 0, minute := 0, settings := { start := 1320, len := 15, capacity := 100 },
             pendingSet := none, slot := none, visited := [], masks := [], openGroups := [], trendT := 60, trendCount := 0 }
    vt := []
    ciu := []
    book := { principals := [(0, Principal.zeroCold)], groups := [], reassigned := 0 }
    ce := { k := 3, w := 24, sweep := none, skipped := 0, due := 0 }
    qm := { softList := [], sweep := none }
    et := { table := [], backlog := [], breachTotal := 0 }
    sc := { records := [], nextId := 1, rules := [], reserveOver := [], opensDue := 0, toDc := [] }
    cca := { servers := [], openGroups := [], acceptance := [] }
    rsc := { jobs := [], lastEnd := [] }
    dc := { jobs := [], lastEnd := [], remaining := 0, full := 0, turn := none, openGroups := [] }
    nq := { priorities := [], express := none, queue := [], seq := 0, age := 0, overflow := false, lost := 0, slot := none } }

end Sys2Proof.Machine
end

