-- ==== Sys2Proof/Machine/Table.lean ====
section
/-! DEFINITION. Tables in canonical form (indices strictly rising), ordered sets of numbers, and the tops of the ranges. -/

namespace Sys2Proof.Machine

/-! ### Tops of ranges -/

/-- 2^16 − 1. -/
def top16 : Nat := 65535
/-- 2^32 − 1, the top of part time, epochs and 32-bit counts. -/
def top32 : Nat := 4294967295
/-- 2^40 − 1, the top of limits in blocks (R90). -/
def top40 : Nat := 1099511627775
/-- 2^44 − 1, the top of usage, reservation and load in sixteenths (R73, R80). -/
def top44 : Nat := 17592186044415
/-- 2^31 − 1, the bound of d and q (R85). -/
def top31 : Int := 2147483647

/-! ### Tables -/

/-- The record at an index, if the table lists one. -/
def tget {α : Type} : Tab α → Nat → Option α
  | [], _ => none
  | (j, v) :: r, k => if j = k then some v else tget r k

/-- The table with a record at an index. -/
def tput {α : Type} : Tab α → Nat → α → Tab α
  | [], k, v => [(k, v)]
  | (j, w) :: r, k, v =>
    if k < j then (k, v) :: (j, w) :: r
    else if k = j then (k, v) :: r
    else (j, w) :: tput r k v

/-- The table without the index. -/
def tdel {α : Type} : Tab α → Nat → Tab α
  | [], _ => []
  | (j, w) :: r, k => if j = k then tdel r k else (j, w) :: tdel r k

/-- The record at an index of a table whose unlisted indices read as `d`. -/
def tgetD {α : Type} (d : α) (t : Tab α) (k : Nat) : α := (tget t k).getD d

/-- A write to a table whose unlisted indices read as `d`: writing `d` removes the entry. -/
def tsetD {α : Type} [DecidableEq α] (d : α) (t : Tab α) (k : Nat) (v : α) : Tab α :=
  if v = d then tdel t k else tput t k v

/-- The indices a table lists, in rising order. -/
def tkeys {α : Type} (t : Tab α) : List Nat := t.map Prod.fst

/-- The indices strictly rise. -/
def tsorted {α : Type} : Tab α → Bool
  | [] => true
  | [_] => true
  | (i, _) :: (j, w) :: r => decide (i < j) && tsorted ((j, w) :: r)

/-- No listed record equals the one an unlisted index reads as. -/
def tnoDefault {α : Type} [DecidableEq α] (d : α) (t : Tab α) : Bool := t.all fun e => decide (e.2 ≠ d)

/-! ### Ordered sets and lists -/

/-- A number joins an ordered set. -/
def setAdd (n : Nat) : List Nat → List Nat
  | [] => [n]
  | m :: r => if n < m then n :: m :: r else if n = m then m :: r else m :: setAdd n r

/-- A number leaves an ordered set. -/
def setDel (n : Nat) (l : List Nat) : List Nat := l.filter (· ≠ n)

/-- The 1-based place of an item in a list, if it stands there. -/
def placeOf {α : Type} [DecidableEq α] (x : α) : List α → Option Nat
  | [] => none
  | y :: r => if x = y then some 1 else (placeOf x r).map (· + 1)

/-- An item into a list kept in rising order of `f`. -/
def insertBy {α : Type} (f : α → Nat) (x : α) : List α → List α
  | [] => [x]
  | y :: r => if f x < f y then x :: y :: r else y :: insertBy f x r

/-- A list put in rising order of `f`. -/
def sortBy {α : Type} (f : α → Nat) : List α → List α
  | [] => []
  | x :: r => insertBy f x (sortBy f r)

/-- The servers 0 to 7. -/
def serverList : List Nat := [0, 1, 2, 3, 4, 5, 6, 7]

/-! ### Subjects as keys: principals before groups, ascending (R84, R99, R108) -/

/-- The place of a subject in the order of the sweeps and of the deny table. -/
def subjectKey : Subject → Nat
  | .principal i => i
  | .group i => 32768 + i

/-- The subject at a place of that order. -/
def subjectOfKey (k : Nat) : Subject := if k < 32768 then .principal k else .group (k - 32768)

end Sys2Proof.Machine
end

