-- ==== Sys2Proof/Machine/Ops.lean ====
section
/-! DEFINITION. The named operations over the tables of State that every block uses: one reader and one writer for each
table, the link states and carriers as other blocks see them, and the handing over of orders (R16). -/

namespace Sys2Proof.Machine

/-! ### Readers and writers -/

/-- Server link `srv` (section 1.3). -/
def link (s : State) (srv : Nat) : Link := tgetD Link.cold s.lu.links srv

/-- Server link `srv` becomes `l`. -/
def setLink (srv : Nat) (l : Link) (s : State) : State :=
  { s with lu := { s.lu with links := tsetD Link.cold s.lu.links srv l } }

/-- The link of server `srv` is UP (R13). -/
def linkUp (s : State) (srv : Nat) : Bool := (link s srv).state = .up

/-- The carrier of server port `srv` is present (R1). -/
def carrier (s : State) (srv : Nat) : Bool := s.pins.serverCarrier.contains srv

/-- Volume record `v`; an unlisted one is UNATTACHED (R34). -/
def volume (s : State) (v : Nat) : Volume := tgetD Volume.none s.vt v

/-- Volume record `v` becomes `r`. -/
def setVolume (v : Nat) (r : Volume) (s : State) : State := { s with vt := tsetD Volume.none s.vt v r }

/-- Server `srv`'s intake state (R54). -/
def intake (s : State) (srv : Nat) : Intake := tgetD Intake.cold s.ciu srv

/-- Server `srv`'s intake state becomes `i`. -/
def setIntake (srv : Nat) (i : Intake) (s : State) : State := { s with ciu := tsetD Intake.cold s.ciu srv i }

/-- Principal record `p` (R90). -/
def principal (s : State) (p : Nat) : Principal := tgetD Principal.undefined s.book.principals p

/-- Principal record `p` becomes `r`. -/
def setPrincipal (p : Nat) (r : Principal) (s : State) : State :=
  { s with book := { s.book with principals := tsetD Principal.undefined s.book.principals p r } }

/-- Group record `g` (R91). -/
def group (s : State) (g : Nat) : Group := tgetD Group.undefined s.book.groups g

/-- Group record `g` becomes `r`. -/
def setGroupRec (g : Nat) (r : Group) (s : State) : State :=
  { s with book := { s.book with groups := tsetD Group.undefined s.book.groups g r } }

/-- A subject is defined (R90, R91). -/
def subjectDefined (s : State) : Subject → Bool
  | .principal i => (principal s i).defined
  | .group i => (group s i).defined

/-- A subject's account. -/
def acct (s : State) : Subject → Account
  | .principal i => (principal s i).acct
  | .group i => (group s i).acct

/-- A subject's account becomes `a`. -/
def setAcct (sub : Subject) (a : Account) (s : State) : State :=
  match sub with
  | .principal i => setPrincipal i { principal s i with acct := a } s
  | .group i => setGroupRec i { group s i with acct := a } s

/-- Snapshot record `id`, if the catalog holds it (R118). -/
def snap (s : State) (id : Nat) : Option Snap := tget s.sc.records id

/-- Snapshot record `id` becomes `r`. -/
def setSnap (id : Nat) (r : Snap) (s : State) : State := { s with sc := { s.sc with records := tput s.sc.records id r } }

/-- Snapshot record `id` leaves the catalog. -/
def delSnap (id : Nat) (s : State) : State := { s with sc := { s.sc with records := tdel s.sc.records id } }

/-- Server `srv`'s copy-engine credits (R143). -/
def credit (s : State) (srv : Nat) : Credit := tgetD Credit.cold s.cca.servers srv

/-- Server `srv`'s copy-engine credits become `c`. -/
def setCredit (srv : Nat) (c : Credit) (s : State) : State :=
  { s with cca := { s.cca with servers := tsetD Credit.cold s.cca.servers srv c } }

/-- The job in restore slot `j`, none when the slot is free (R149). -/
def restoreJob (s : State) (j : Nat) : Option RestoreJob := tget s.rsc.jobs j

/-- Restore slot `j` holds `r`. -/
def setRestoreJob (j : Nat) (r : RestoreJob) (s : State) : State := { s with rsc := { s.rsc with jobs := tput s.rsc.jobs j r } }

/-- The duplication job of volume `v`, none when its place is empty (R167). -/
def dupJob (s : State) (v : Nat) : Option DupJob := tget s.dc.jobs v

/-- Volume `v`'s job place holds `j`. -/
def setDupJob (v : Nat) (j : DupJob) (s : State) : State := { s with dc := { s.dc with jobs := tput s.dc.jobs v j } }

/-- Retention rule `r` (R133). -/
def rule (s : State) (r : Nat) : Rule := tgetD Rule.cold s.sc.rules r

/-- Part time, as every block reads it. -/
def now (s : State) : Nat := s.cwu.partTime

/-- The base epoch of volume `v`: the epoch of its offsiteBase snapshot, or 0 (R35). -/
def baseEpoch (s : State) (v : Nat) : Nat :=
  match (volume s v).offsiteBase with
  | none => 0
  | some id => match snap s id with
    | none => 0
    | some r => r.epoch

/-! ### Order numbers and the order table (R16) -/

/-- The block that issues an order kind (R6, R16). -/
def OrderKind.issuer : OrderKind → Issuer
  | .snap | .dropSnap => .sc
  | .copy => .rsc
  | .ship => .dc
  | .deny | .allow => .et

/-- The kind of an order from its payload. -/
def OrderBody.kind : OrderBody → OrderKind
  | .snap .. => .snap
  | .dropSnap .. => .dropSnap
  | .copy .. => .copy
  | .ship .. => .ship
  | .deny .. => .deny
  | .allow .. => .allow

/-- The order number after `n`: after 65,535 it continues at 1, so it skips 0 (R16). -/
def nextNumber (n : Nat) : Nat := if 65535 ≤ n then 1 else n + 1

/-- The first number from `n` on that no outstanding order carries (R16). -/
def skipUsed (used : List Nat) : (fuel n : Nat) → Nat
  | 0, n => n
  | fuel + 1, n => if used.contains n then skipUsed used fuel (nextNumber n) else n

/-- An order is handed to the LU for the UP link of server `srv`: it takes the counter's number, enters the order table and
joins the transmit queue, and the counter advances (R16, R17). The result names the order's number. -/
def issue (srv : Nat) (body : OrderBody) (s : State) : State × Nat :=
  let l := link s srv
  let orders := l.orders ++ [⟨l.counter, body.kind⟩]
  let counter := skipUsed (orders.map Order.num) (orders.length + 1) (nextNumber l.counter)
  (setLink srv { l with orders := orders, txQueue := l.txQueue ++ [.order l.counter body], counter := counter } s, l.counter)

/-- A frame joins the transmit queue of server link `srv` (R17). -/
def handFrame (srv : Nat) (f : TxFrame) (s : State) : State :=
  setLink srv { link s srv with txQueue := (link s srv).txQueue ++ [f] } s

end Sys2Proof.Machine
end

