-- ==== Sys2Proof/Machine/Notices.lean ====
section
/-! DEFINITION. The Notice Queue (R193 to R201) and the transmit side of the management link (R9, R12): the order of the
queue, coalescing, displacement, the express slot, and which waiting frame starts. -/

namespace Sys2Proof.Machine

/-! ### Kinds -/

/-- The code of a notice kind (R193). -/
def NoticeKind.code : NoticeKind → Nat
  | .quotaState => 1
  | .approach => 2
  | .breach => 3
  | .enforceBacklog => 4
  | .snapTaken => 5
  | .snapFailed => 6
  | .snapReleased => 7
  | .reserveOver => 8
  | .restoreDone => 9
  | .dupState => 10
  | .window => 11
  | .linkState => 12
  | .volumeStale => 13

/-- The kind of a code from 1 to 13 (R193). -/
def NoticeKind.ofCode : Nat → Option NoticeKind
  | 1 => some .quotaState
  | 2 => some .approach
  | 3 => some .breach
  | 4 => some .enforceBacklog
  | 5 => some .snapTaken
  | 6 => some .snapFailed
  | 7 => some .snapReleased
  | 8 => some .reserveOver
  | 9 => some .restoreDone
  | 10 => some .dupState
  | 11 => some .window
  | 12 => some .linkState
  | 13 => some .volumeStale
  | _ => none

/-- The kinds in code order. -/
def noticeKinds : List NoticeKind :=
  [.quotaState, .approach, .breach, .enforceBacklog, .snapTaken, .snapFailed, .snapReleased, .reserveOver, .restoreDone,
    .dupState, .window, .linkState, .volumeStale]

/-- Conditions stand while their cause persists; the other kinds are events (R193). -/
def NoticeKind.isCondition : NoticeKind → Bool
  | .enforceBacklog | .reserveOver | .volumeStale => true
  | _ => false

/-- The kind of a notice from its content. -/
def Content.kind : Content → NoticeKind
  | .quotaState .. => .quotaState
  | .approach .. => .approach
  | .breach .. => .breach
  | .enforceBacklog .. => .enforceBacklog
  | .snapTaken .. => .snapTaken
  | .snapFailed .. => .snapFailed
  | .snapReleased .. => .snapReleased
  | .reserveOver .. => .reserveOver
  | .restoreDone .. => .restoreDone
  | .dupState .. => .dupState
  | .window .. => .window
  | .linkState .. => .linkState
  | .volumeStale .. => .volumeStale

/-- The standing value a condition's content carries; an event has none and reads no (R193). -/
def Content.standing : Content → Bool
  | .enforceBacklog st .. => st
  | .reserveOver st .. => st
  | .volumeStale st .. => st
  | _ => false

/-- A subject as a notice names it (R193). -/
def subjectNotice : Subject → NoticeSubject
  | .principal i => .principal i
  | .group i => .group i

/-! ### The queue -/

/-- The priority of a kind, 1 unless SET_NOTICE set another (R193). -/
def Nq.priority (q : Nq) (k : NoticeKind) : Nat := tgetD 1 q.priorities k.code

/-- The entry is the one for this kind and subject (R195). -/
def Entry.isFor (kind : NoticeKind) (sub : NoticeSubject) (e : Entry) : Bool := e.content.kind = kind && e.subject = sub

/-- The queue holds an entry for this kind and subject. -/
def Nq.holds (q : Nq) (kind : NoticeKind) (sub : NoticeSubject) : Bool := q.queue.any (Entry.isFor kind sub)

/-- The notice's content replaces that of the entry for its pair; the entry keeps its sequence, priority and place, and
its seen value becomes no (R196). -/
def Nq.coalesce (n : Notice) (q : Nq) : Nq :=
  { q with queue := q.queue.map fun e =>
      if e.isFor n.content.kind n.subject then { e with content := n.content, seen := false } else e }

/-- The lowest priority of any entry (R197). -/
def Nq.lowest (q : Nq) : Nat := q.queue.foldl (fun a e => min a e.priority) 3

/-- The entries without the oldest one of priority `p`; the list is in order of age (R197). -/
def removeOldest (p : Nat) : List Entry → List Entry
  | [] => []
  | e :: r => if e.priority = p then r else e :: removeOldest p r

/-- A notice of priority `p` would get an entry: there is room, or an entry of lower priority gives way (R197). -/
def Nq.hasPlace (p : Nat) (q : Nq) : Bool := decide (q.queue.length < 128) || decide (q.lowest < p)

/-- A new entry arrives at the queue, which is kept in order of age: into a free place, in place of the oldest entry of the
lowest priority, or dropped (R196, R197). -/
def Nq.lodge (e : Entry) (q : Nq) : Nq :=
  if q.queue.length < 128 then { q with queue := insertBy Entry.age e q.queue }
  else if q.lowest < e.priority then
    { q with queue := insertBy Entry.age e (removeOldest q.lowest q.queue), overflow := true, lost := satAdd top16 q.lost 1 }
  else { q with overflow := true, lost := satAdd top16 q.lost 1 }

/-- The sequence counter and the age order advance by one; the counter wraps from 2^32 − 1 to 0 (R195). -/
def Nq.bump (q : Nq) : Nq := { q with seq := (q.seq + 1) % 4294967296, age := q.age + 1 }

/-- A notice arrives at the queue as an ordinary notice (R196, R197). -/
def Nq.arriveQueue (n : Notice) (q : Nq) : Nq :=
  if q.holds n.content.kind n.subject then q.coalesce n
  else
    let p := q.priority n.content.kind
    let q' := q.lodge { subject := n.subject, content := n.content, priority := p, seq := q.seq, age := q.age, seen := false }
    if q.hasPlace p then q'.bump else q'

/-- The slot's notice arrives at the queue, keeping its sequence number and its age (R200). -/
def Nq.demote (m : SlotNotice) (q : Nq) : Nq :=
  if q.holds m.content.kind m.subject then q.coalesce ⟨m.subject, m.content⟩
  else q.lodge { subject := m.subject, content := m.content, priority := q.priority m.content.kind, seq := m.seq,
                 age := m.age, seen := false }

/-- A notice takes the express slot with the next sequence number (R200). -/
def Nq.takeSlot (n : Notice) (q : Nq) : Nq :=
  Nq.bump { q with slot := some { subject := n.subject, content := n.content, seq := q.seq, age := q.age } }

/-- A notice of the express kind arrives (R200). -/
def Nq.arriveExpress (n : Notice) (q : Nq) : Nq :=
  if q.holds n.content.kind n.subject then q.coalesce n
  else match q.slot with
    | none => q.takeSlot n
    | some m =>
      if m.content.kind = n.content.kind ∧ m.subject = n.subject then { q with slot := some { m with content := n.content } }
      else (q.demote m).takeSlot n

/-- A notice arrives (R196, R200). -/
def Nq.arrive (n : Notice) (q : Nq) : Nq :=
  if q.express = some n.content.kind then q.arriveExpress n else q.arriveQueue n

/-- The queue in its order: highest priority first, oldest first within one priority (R195). -/
def Nq.inOrder (q : Nq) : List Entry := [3, 2, 1, 0].flatMap fun p => q.queue.filter fun e => e.priority = p

/-- An entry that FETCH_NOTICES may take: an event, or a condition not seen (R198). -/
def Entry.eligible (e : Entry) : Bool := !e.content.kind.isCondition || !e.seen

/-! ### The transmit side of the management link -/

/-- The reply at the head of the reply list has been transmitted or discarded: its entry leaves, and when it was the reply
to RESTART the warm restart is due to begin (R7, R20): it begins with WARM_RESTART (log 56). -/
def Lu.replyGone (lu : Lu) : Lu :=
  { lu with
    replies := lu.replies.tail
    restart := if lu.restart = .taken ∧ lu.replies.tail = [] then .due else lu.restart }

/-- With the carrier present and the transmit side free, the first frame that waits starts: the EXPRESS frame, then a BUSY
answer, then the reply at the head of the reply list (R9, R201). -/
def startNext (s : State) : State :=
  match s.nq.slot with
  | some n => { s with lu := { s.lu with mgmtTx := some (.express n) }, nq := { s.nq with slot := none } }
  | none => match s.lu.busy with
    | t :: ts => { s with lu := { s.lu with mgmtTx := some (.busy t), busy := ts } }
    | [] => match s.lu.replies with
      | e :: _ => { s with lu := { s.lu with mgmtTx := some (.reply e) } }
      | [] => s

/-- With the carrier absent, each frame whose turn comes is discarded, so every frame that waits goes (R12). -/
def discardWaiting (s : State) : State :=
  { s with
    lu := { s.lu with
      replies := []
      busy := []
      restart := if s.lu.restart = .taken then .due else s.lu.restart }
    nq := { s.nq with slot := none } }

/-- The LU gives the transmit side its next frame when it is free (R9, R12, log 12). -/
def pump (s : State) : State :=
  if s.lu.mgmtTx.isSome then s else if s.pins.mgmtCarrier then startNext s else discardWaiting s

/-- A block raises a notice (R195, R201). -/
def raise (n : Notice) (s : State) : State := pump { s with nq := s.nq.arrive n }

/-- A block raises a notice for a subject. -/
def notify (sub : NoticeSubject) (c : Content) (s : State) : State := raise ⟨sub, c⟩ s

end Sys2Proof.Machine
end

