-- ==== Sys2Proof/Machine/Operands.lean ====
section
/-! DEFINITION. The operands of requests as R10 and R11 read them: codes, ranges, clamped fields and subjects; and the
replies (R8). -/

namespace Sys2Proof.Machine

/-- An on/off or yes/no field: 1 or 0, any other code being out of range (R11). -/
def yesNo (b : BitVec 8) : Option Bool := if b = 1 then some true else if b = 0 then some false else none

/-- A snapshot kind, coded as in R120. -/
def snapKindOf (b : BitVec 8) : Option SnapKind :=
  match b.toNat with
  | 1 => some .hourly
  | 2 => some .nightly
  | 3 => some .manual
  | _ => none

/-- The code of a snapshot kind (R120). -/
def snapKindCode : SnapKind → Nat
  | .hourly => 1
  | .nightly => 2
  | .manual => 3

/-- A restore mode, coded as in R153. -/
def restoreModeOf (b : BitVec 8) : Option RestoreMode :=
  match b.toNat with
  | 1 => some .charge
  | 2 => some .staff
  | _ => none

/-- The code of a restore mode (R153). -/
def restoreModeCode : RestoreMode → Nat
  | .charge => 1
  | .staff => 2

/-- A group or none: an index, with 65,535 for none; the outer none is an index out of range (R11). -/
def groupOrNone (g : BitVec 16) : Option (Option Nat) :=
  if g.toNat = 65535 then some none else if g.toNat ≤ 1023 then some (some g.toNat) else none

/-- A principal or group that a subject field names: kinds 5 and 6 of R202, the index in its kind's range. -/
def quotaSubject (w : WireSubject) : Option Subject :=
  match w.kind.toNat with
  | 5 => if w.index.toNat ≤ 32767 then some (.principal w.index.toNat) else none
  | 6 => if w.index.toNat ≤ 1023 then some (.group w.index.toNat) else none
  | _ => none

/-- A notice subject that a subject field names (R193, R202). -/
def noticeSubject (w : WireSubject) : Option NoticeSubject :=
  let i := w.index.toNat
  match w.kind.toNat with
  | 0 => if i = 0 then some .device else none
  | 1 => if i ≤ 7 then some (.server i) else none
  | 2 => if i ≤ 63 then some (.volume i) else none
  | 3 => if 1 ≤ i then some (.snapshot i) else none
  | 4 => if i ≤ 15 then some (.job i) else none
  | 5 => if i ≤ 32767 then some (.principal i) else none
  | 6 => if i ≤ 1023 then some (.group i) else none
  | _ => none

/-- A setting of SET_VOLUME: absent, or present with a value; the outer none is a presence byte out of range (R11). The value
of an absent setting is not read (log 55). -/
def settingOf {w : Nat} (x : Setting w) : Option (Option Nat) :=
  match yesNo x.present with
  | none => none
  | some false => some none
  | some true => some (some x.value.toNat)

/-- The field numbers of the fields that were clamped, in request order (R8). -/
def clampedFields (fields : List (Nat × Bool)) : List Nat := (fields.filter Prod.snd).map Prod.fst

/-- A refusal carries its status and no results (R8). -/
def refusal (st : Status) : Reply := { status := st, clamps := [], results := .none }

/-- The reply to a request that was applied: OK, or CLAMPED with the clamp list (R8, R10). -/
def accept (clamps : List Nat) (r : Results) : Reply :=
  { status := if clamps = [] then .ok else .clamped, clamps := clamps, results := r }

end Sys2Proof.Machine
end

