-- ==== Sys2Proof/Machine/Flags.lean ====
section
/-! DEFINITION. The arithmetic of charges with its outcome flags (R72 to R76), load and release points (R80), the quota
comparator (R100) and the trend computation (R85 to R87), each over one account. -/

namespace Sys2Proof.Machine

/-! ### Charges -/

/-- The charge of `n` blocks at weight `w`, in sixteenths (R72). -/
def chargeOf (n w : Nat) : Nat := n * w

/-- Usage after an addition of `c` (R73). -/
def addUsage (u c : Nat) : Nat := satAdd top44 u c

/-- The amount an addition adds (R73). -/
def addedAmount (u c : Nat) : Nat := addUsage u c - u

/-- The outcome of an addition: SATURATED when less than the charge was added, and for any addition at a usage already at
2^44 − 1, one of 0 too (R73, R76). -/
def addOutcome (u c : Nat) : ChargeOutcome :=
  { saturated := decide (addedAmount u c < c) || decide (u = top44), borrow := false, zero := false }

/-- The amount a subtraction of `c` takes (R74). -/
def takenAmount (u c : Nat) : Nat := min c u

/-- The outcome of a subtraction: BORROW when less than the charge was taken, ZERO when the new usage is 0 (R74, R76). -/
def subOutcome (u c : Nat) : ChargeOutcome :=
  { saturated := false, borrow := decide (takenAmount u c < c), zero := decide (u - takenAmount u c = 0) }

/-! ### Load, limits, release points (R80) -/

/-- Load in sixteenths. -/
def loadOf (a : Account) : Nat := min (a.usage + a.reservation) top44

/-- S16. -/
def s16Of (a : Account) : Nat := a.soft * 16

/-- H16. -/
def h16Of (a : Account) : Nat := a.hard * 16

/-- RS, the soft release point. -/
def rsOf (a : Account) : Nat := (a.soft - a.band) * 16

/-- RH, the hard release point. -/
def rhOf (a : Account) : Nat := (a.hard - a.band) * 16

/-! ### The comparator (R100) -/

/-- SOFT while grace remains, SPENT when it is 0. -/
def softOrSpent (a : Account) : QuotaState := if 0 < a.grace then .soft else .spent

/-- The load lies below the soft release point, or is 0, or there is no soft limit. -/
def softReleased (a : Account) : Bool := decide (a.soft = 0) || decide (loadOf a < rsOf a) || decide (loadOf a = 0)

/-- The load lies below the hard release point, or is 0, or there is no hard limit. -/
def hardReleased (a : Account) : Bool := decide (a.hard = 0) || decide (loadOf a < rhOf a) || decide (loadOf a = 0)

/-- The new quota state of a subject: the first of the four rules that applies (R100). -/
def nextState (a : Account) : QuotaState :=
  if a.hard ≠ 0 ∧ h16Of a ≤ loadOf a then .hard
  else match a.state with
    | .hard => if hardReleased a then (if softReleased a then .under else softOrSpent a) else .hard
    | .under => if a.soft ≠ 0 ∧ s16Of a ≤ loadOf a then softOrSpent a else .under
    | .soft => if softReleased a then .under else softOrSpent a
    | .spent => if softReleased a then .under else softOrSpent a

/-- A subject is blocked while its state is HARD or SPENT (R100). -/
def QuotaState.blocked : QuotaState → Bool
  | .hard | .spent => true
  | .under | .soft => false

/-! ### Trend (R85 to R87) -/

/-- A signed value into ±(2^31 − 1) (R85). -/
def clampTrend (x : Int) : Int := max (-top31) (min top31 x)

/-- The smoothed change after a visit: division truncates toward zero (R85). -/
def smooth (k : Nat) (d q : Int) : Int := clampTrend (q + (d - q).tdiv (2 ^ k))

/-- The projection P (R86). -/
def projection (a : Account) (q : Int) : Nat :=
  if a.hard = 0 ∨ q ≤ 0 then 65535
  else if h16Of a ≤ loadOf a then 0
  else min ((h16Of a - loadOf a) / q.toNat) 65534

/-- The change since the last visit (R85). -/
def trendDelta (a : Account) : Int := clampTrend ((a.usage : Int) - (a.trend.uPrev : Int))

/-- The approach test raises APPROACH (R87). A horizon of 0 turns the notice off (log 45). -/
def raisesApproach (w p : Nat) (a : Account) : Bool :=
  decide (0 < w) && decide (p ≤ w) && a.trend.armed && (decide (a.state = .under) || decide (a.state = .soft))

/-- The approach flag after the test (R87). -/
def armedAfter (w p : Nat) (a : Account) : Bool :=
  if raisesApproach w p a then false
  else if !a.trend.armed && (decide (2 * w < p) || decide (p = 65535)) then true
  else a.trend.armed

/-- A visited subject's account (R85, R86, R87). -/
def visitAccount (k w : Nat) (a : Account) : Account :=
  let q := smooth k (trendDelta a) a.trend.q
  let p := projection a q
  { a with trend := { uPrev := a.usage, q := q, p := p, armed := armedAfter w p a } }

end Sys2Proof.Machine
end

