-- ==== Sys2Proof/Machine/Mgmt.lean ====
section
/-! DEFINITION. The management link's requests (R5, R7 to R12): taking a good frame, answering it, and answering BUSY. -/

namespace Sys2Proof.Machine

/-- Bytes reach the management port: the reset line is not held (R21) and its carrier is present (R1). -/
def mgmtReceives (s : State) : Bool := !s.pins.resetHeld && s.pins.mgmtCarrier

/-- A good management frame is not taken: 8 requests are outstanding, or RESTART has been taken and the warm restart has
not ended (R7, R20). -/
def mgmtBusy (s : State) : Bool := decide (8 ≤ s.lu.replies.length) || decide (s.lu.restart ≠ .none)

/-- The management receive side returns to hunting when a frame is complete (R4). -/
def mgmtHunt (s : State) : State := { s with lu := { s.lu with mgmtRx := .hunting } }

/-- The frame with this tag is answered BUSY, or discarded when 8 BUSY answers wait (R9). -/
def answerBusy (tag : BitVec 16) (s : State) : State :=
  if s.lu.busy.length < 8 then pump { s with lu := { s.lu with busy := s.lu.busy ++ [tag] } } else s

/-- A reply joins the reply list (R7, R8). -/
def answer (tag : BitVec 16) (r : Reply) (s : State) : State :=
  pump { s with lu := { s.lu with replies := s.lu.replies ++ [⟨tag, r⟩] } }

/-- A good management frame arrives (R5, R7, R10): nothing while no bytes reach the port; BUSY when it is not taken;
MALFORMED when its payload length does not suit its kind; else the owning block's effect and reply. The notices of the effect
are raised before the reply joins the reply list (log 65). -/
def request (h : ReqHead) (lengthOk : Bool) (apply : State → State × Reply) (s : State) : State :=
  if !mgmtReceives s then s
  else if mgmtBusy s then answerBusy h.tag (mgmtHunt s)
  else if !lengthOk then answer h.tag (refusal .malformed) (mgmtHunt s)
  else
    let r := apply (mgmtHunt s)
    answer h.tag r.2 r.1

/-- A request whose kind has one payload length (R11). -/
def fixedRequest (h : ReqHead) (len : Nat) (apply : State → State × Reply) (s : State) : State :=
  request h (decide (h.len.toNat = len)) apply s

end Sys2Proof.Machine
end

