-- ==== Sys2Proof/Machine/Enforcement.lean ====
section
/-! DEFINITION. The Enforcement Table (R104 to R115): entries and backlog, orders of the current want, acknowledgements,
removal, links' comings and goings, and breaches. -/

namespace Sys2Proof.Machine

/-- The deny table entry of a subject, if there is one (R104). -/
def denyEntry (s : State) (sub : Subject) : Option DenyEntry := tget s.et.table (subjectKey sub)

/-- The deny table entry at a key becomes `e`. -/
def setDeny (key : Nat) (e : DenyEntry) (s : State) : State := { s with et := { s.et with table := tput s.et.table key e } }

/-- An entry's part for server `srv` (R104). -/
def denyPart (e : DenyEntry) (srv : Nat) : ServerPart := tgetD ServerPart.fresh e.parts srv

/-- An entry with its part for server `srv` replaced. -/
def withPart (srv : Nat) (p : ServerPart) (e : DenyEntry) : DenyEntry := { e with parts := tsetD ServerPart.fresh e.parts srv p }

/-- Every server's status NOT_SENT and every mark cleared, the orders in flight staying (R106, R107). -/
def resetParts (parts : Tab ServerPart) : Tab ServerPart :=
  (parts.map fun e => (e.1, { e.2 with status := PartStatus.notSent, mark := none })).filter fun e => e.2 ≠ ServerPart.fresh

/-- ENFORCE_BACKLOG (R111). -/
def notifyBacklog (standing : Bool) (s : State) : State :=
  notify .device (.enforceBacklog standing s.et.backlog.length s.et.table.length (now s)) s

/-- A new entry wanting DENY (R106). -/
def newDeny : DenyEntry := { want := .deny, parts := [] }

/-- The order that carries an entry's want, for a subject (R105). -/
def wantOrder (s : State) (sub : Subject) : Want → OrderBody
  | .deny => .deny sub (match sub with | .principal i => (principal s i).userNumber | .group _ => 0)
  | .allow => .allow sub (match sub with | .principal i => (principal s i).userNumber | .group _ => 0)

/-- The ET hands the entry's order to a server when the link is UP, the status is NOT_SENT and nothing is in flight (R108). -/
def handWant (key srv : Nat) (s : State) : State :=
  match tget s.et.table key with
  | none => s
  | some e =>
    let p := denyPart e srv
    if linkUp s srv ∧ p.status = .notSent ∧ p.inFlight = none then
      let r := issue srv (wantOrder s (subjectOfKey key) e.want) s
      setDeny key (withPart srv { p with status := .sent, inFlight := some ⟨r.2, e.want⟩ } e) r.1
    else s

/-- The test of R108 for every entry in ascending order, principals before groups, and every server. -/
def handWants (s : State) : State :=
  (tkeys s.et.table).foldl (fun s key => serverList.foldl (fun s srv => handWant key srv s) s) s

/-- The entry is one wanting ALLOW that every server whose link is UP has confirmed (R110). -/
def removable (s : State) (e : DenyEntry) : Bool :=
  decide (e.want = .allow) && serverList.all fun srv => !linkUp s srv || decide ((denyPart e srv).status = .confirmed)

/-- The oldest backlogged subject is given an entry (R110). -/
def admitBacklog (s : State) : State :=
  match s.et.backlog with
  | [] => s
  | sub :: rest =>
    let s1 := setDeny (subjectKey sub) newDeny { s with et := { s.et with backlog := rest } }
    if rest = [] then notifyBacklog false s1 else s1

/-- An entry wanting ALLOW is tested for removal; a removal admits one subject from the backlog (R110). -/
def testRemoval (key : Nat) (s : State) : State :=
  match tget s.et.table key with
  | none => s
  | some e =>
    if removable s e then admitBacklog { s with et := { s.et with table := tdel s.et.table key } } else s

/-- Every entry wanting ALLOW is tested for removal (R110, R112). -/
def testRemovals (s : State) : State := (tkeys s.et.table).foldl (fun s key => testRemoval key s) s

/-- A subject has become blocked (R106). -/
def enforceBlock (sub : Subject) (s : State) : State :=
  let key := subjectKey sub
  match tget s.et.table key with
  | some e => handWants (setDeny key { want := .deny, parts := resetParts e.parts } s)
  | none =>
    if s.et.table.length < 4096 then handWants (setDeny key newDeny s)
    else
      let s1 := { s with et := { s.et with backlog := s.et.backlog ++ [sub] } }
      if s.et.backlog = [] then notifyBacklog true s1 else s1

/-- A subject has become unblocked, or is dropped (R107). The entry of a dropped subject that wants ALLOW already is reset
like any other (log 15). -/
def enforceUnblock (sub : Subject) (s : State) : State :=
  let key := subjectKey sub
  if s.et.backlog.contains sub then
    let rest := s.et.backlog.filter (· ≠ sub)
    let s1 := { s with et := { s.et with backlog := rest } }
    if rest = [] then notifyBacklog false s1 else s1
  else match tget s.et.table key with
    | none => s
    | some e => handWants (testRemoval key (setDeny key { want := .allow, parts := resetParts e.parts } s))

/-- The key of the entry whose order in flight on server `srv` carries the number (R109). -/
def denyInFlight (s : State) (srv num : Nat) : Option Nat :=
  (s.et.table.find? fun e => match (denyPart e.2 srv).inFlight with
    | some f => decide (f.num = num)
    | none => false).map Prod.fst

/-- An acknowledgement is handed to the ET (R109). The mark is the server's intake next number as it stands. -/
def takeAck (srv num : Nat) (kind : Want) (s : State) : State :=
  match denyInFlight s srv num with
  | none => s
  | some key => match tget s.et.table key with
    | none => s
    | some e =>
      let p := denyPart e srv
      if kind = e.want then
        let mark := if kind = .deny then some (intake s srv).next else none
        handWants (testRemoval key (setDeny key (withPart srv { status := .confirmed, inFlight := none, mark := mark } e) s))
      else handWants (setDeny key (withPart srv { p with inFlight := none } e) s)

/-- The ET's part of a link leaving UP (R112). A subject admitted here has its DENY handed to every link still UP, also to
one that the same event takes out of UP next (log 67). -/
def enforceLeave (srv : Nat) (s : State) : State :=
  let table := s.et.table.map fun e => (e.1, withPart srv ServerPart.fresh e.2)
  handWants (testRemovals { s with et := { s.et with table := table } })

/-- The ET's part of a link entering UP: its denied set is resent (R112). -/
def enforceEnter (srv : Nat) (s : State) : State :=
  let table := s.et.table.map fun e =>
    if e.2.want = .allow then (e.1, withPart srv { status := .confirmed, inFlight := none, mark := none } e.2) else e
  handWants (testRemovals { s with et := { s.et with table := table } })

/-- A record's number lies after a mark unless it lies 1 to 64 behind it (R114). -/
def afterMark (mark : Option Nat) (num : Nat) : Bool :=
  match mark with
  | none => true
  | some m => let d := (m + 65536 - num) % 65536; !(decide (1 ≤ d) && decide (d ≤ 64))

/-- The subject's entry wants DENY, the server has confirmed it, and the record's number lies after its mark (R114). -/
def confirmedDenial (s : State) (sub : Subject) (srv num : Nat) : Bool :=
  match denyEntry s sub with
  | none => false
  | some e => decide (e.want = .deny) && decide ((denyPart e srv).status = .confirmed) && afterMark (denyPart e srv).mark num

/-- Whose confirmed denial the record breaches, if any (R114, R115). -/
def breachHeld (s : State) (p srv num : Nat) : Option BreachOf :=
  let own := confirmedDenial s (.principal p) srv num
  let grp := match (principal s p).group with
    | none => false
    | some g => confirmedDenial s (.group g) srv num
  if own && grp then some .both else if own then some .own else if grp then some .group else none

/-- A taken ALLOC or MOVE is seen by the ET (R114, R115). -/
def detectBreach (p srv num vol blocks : Nat) (isMove : Bool) (s : State) : State :=
  match breachHeld s p srv num with
  | none => s
  | some held =>
    let r := principal s p
    let count := satAdd 255 r.breachCount 1
    let s1 := setPrincipal p { r with breachCount := count } s
    let s2 := { s1 with et := { s1.et with breachTotal := satAdd top32 s1.et.breachTotal 1 } }
    notify (.principal p) (.breach srv vol isMove blocks held count (now s)) s2

/-- A subject's enforcement field: it follows the deny table and the backlog (R90). -/
def enforcement (s : State) (sub : Subject) : Enforcement :=
  if (denyEntry s sub).isSome then .entered
  else if s.et.backlog.contains sub then .backlogged else .none

end Sys2Proof.Machine
end

