-- ==== Sys2Proof/Machine/Quota.lean ====
section
/-! DEFINITION. The Quota Monitor's evaluation (R100, R101), the soft list (R102), the grace walk (R103), and the Charge
Engine's changes of usage and reservation (R72 to R82) with what they hand to the Quota Monitor (R77). -/

namespace Sys2Proof.Machine

/-! ### Evaluation -/

/-- The soft list after a subject's state went from `old` to `new` (R101, R102). -/
def softListAfter (sub : Subject) (old new : QuotaState) (l : List Subject) : List Subject :=
  if old = .soft then l.filter (· ≠ sub) else if new = .soft then l ++ [sub] else l

/-- A change of a subject's quota state is reported to the ET when the subject passes between blocked and unblocked (R101). -/
def reportBlocking (sub : Subject) (old new : QuotaState) (s : State) : State :=
  if old.blocked = new.blocked then s else if new.blocked then enforceBlock sub s else enforceUnblock sub s

/-- The comparator is run for a subject (R100, R101). Of the three things that follow a change, the soft list comes first,
then enforcement, then the notice (log 7). -/
def evaluate (cause : QuotaCause) (sub : Subject) (s : State) : State :=
  let a := acct s sub
  let new := nextState a
  if new = a.state then s
  else
    let s1 := setAcct sub { a with state := new } s
    let s2 := { s1 with qm := { s1.qm with softList := softListAfter sub a.state new s1.qm.softList } }
    notify (subjectNotice sub) (.quotaState sub a.state new (loadOf a) (s16Of a) (h16Of a) a.grace cause (now s))
      (reportBlocking sub a.state new s2)

/-- A group, if there is one, is evaluated. -/
def evaluateGroup (cause : QuotaCause) (g : Option Nat) (s : State) : State :=
  match g with
  | none => s
  | some i => evaluate cause (.group i) s

/-- A principal and its group are handed to the Quota Monitor (R77), the principal first (log 49). -/
def evaluateBoth (cause : QuotaCause) (p : Nat) (s : State) : State :=
  evaluateGroup cause (principal s p).group (evaluate cause (.principal p) s)

/-- One subject of the grace walk: its grace falls by one, and at 0 it is evaluated (R103). -/
def graceTick (s : State) (sub : Subject) : State :=
  let a := acct s sub
  let s1 := setAcct sub { a with grace := a.grace - 1 } s
  if a.grace - 1 = 0 then evaluate .graceExpired sub s1 else s1

/-- The grace walk over the soft list as it stands (R103). -/
def graceWalk (s : State) : State := s.qm.softList.foldl graceTick s

/-! ### Amounts -/

/-- A group's account is changed, if there is a group. -/
def onGroup (g : Option Nat) (f : Account → Account) (s : State) : State :=
  match g with
  | none => s
  | some i => setGroupRec i { group s i with acct := f (group s i).acct } s

/-- A principal's account is changed. -/
def onPrincipal (p : Nat) (f : Account → Account) (s : State) : State :=
  setPrincipal p { principal s p with acct := f (principal s p).acct } s

/-- A principal's last charge outcome is replaced (R76). -/
def setOutcome (p : Nat) (o : ChargeOutcome) (s : State) : State := setPrincipal p { principal s p with outcome := o } s

/-- Usage rises by `a`. -/
def usageUp (a : Nat) (x : Account) : Account := { x with usage := x.usage + a }
/-- Usage falls by `a`. -/
def usageDown (a : Nat) (x : Account) : Account := { x with usage := x.usage - a }
/-- Reservation rises by `r`. -/
def reserveUp (r : Nat) (x : Account) : Account := { x with reservation := x.reservation + r }
/-- Reservation falls by `r`. -/
def reserveDown (r : Nat) (x : Account) : Account := { x with reservation := x.reservation - r }

/-- An addition of charge `c` to a principal; its group receives the amount added (R73, R76). -/
def addCharge (p c : Nat) (s : State) : State :=
  let r := principal s p
  let u := r.acct.usage
  onGroup r.group (usageUp (addedAmount u c))
    (setPrincipal p { r with acct := { r.acct with usage := addUsage u c }, outcome := addOutcome u c } s)

/-- A subtraction of charge `c` from a principal; its group receives the amount subtracted (R74, R76). -/
def subCharge (p c : Nat) (s : State) : State :=
  let r := principal s p
  let u := r.acct.usage
  onGroup r.group (usageDown (takenAmount u c))
    (setPrincipal p { r with acct := { r.acct with usage := u - takenAmount u c }, outcome := subOutcome u c } s)

/-! ### Reservation -/

/-- A change of reservation of a principal and its group (R78, R79). -/
def changeReservation (f : Account → Account) (p : Nat) (s : State) : State :=
  onGroup (principal s p).group f (onPrincipal p f s)

/-- Reserve `r` for a principal (R78). -/
def reserve (p r : Nat) (s : State) : State := evaluateBoth .reservation p (changeReservation (reserveUp r) p s)

/-- Release `r` of a principal's reservation; a release of 0 releases nothing (R78, R159). -/
def release (p r : Nat) (s : State) : State :=
  if r = 0 then s else evaluateBoth .reservation p (changeReservation (reserveDown r) p s)

/-- A tagged ALLOC of charge `c` converts reservation when its job charges the principal (R79). -/
def convert (tag p c : Nat) (s : State) : State :=
  match restoreJob s tag with
  | none => s
  | some j =>
    if j.principal = p then
      let v := min c j.remaining
      changeReservation (reserveDown v) p (setRestoreJob tag { j with remaining := j.remaining - v } s)
    else s

/-! ### Charges of records -/

/-- ALLOC of charge `c` with restoreTag `tag` (R72, R79). -/
def chargeAlloc (tag p c : Nat) (s : State) : State := evaluateBoth .charge p (addCharge p c (convert tag p c s))

/-- FREE of charge `c` (R72, R74). -/
def chargeFree (p c : Nat) (s : State) : State := evaluateBoth .charge p (subCharge p c s)

/-- MOVE of charge `c`: one charge with two sides (R75). Between one principal and itself nothing moves, and its outcome
becomes the empty set. Two sides of one group are one subject to evaluate (log 43); the from side and its group are
evaluated before the to side and its group (log 49). -/
def chargeMove (p q c : Nat) (s : State) : State :=
  if p = q then evaluate .charge (.principal p) (setOutcome p ChargeOutcome.empty s)
  else
    let s1 := addCharge q c (subCharge p c s)
    let g := (principal s p).group
    let h := (principal s q).group
    let s2 := evaluate .charge (.principal q) (evaluateGroup .charge g (evaluate .charge (.principal p) s1))
    if h = g then s2 else evaluateGroup .charge h s2

/-! ### Transfers and loaded usage -/

/-- A group's uPrev follows a move of usage, floored at 0 (R81, R82). -/
def uPrevBy (d : Int) (x : Account) : Account := { x with trend := { x.trend with uPrev := ((x.trend.uPrev : Int) + d).toNat } }

/-- A group's usage changes by a signed amount (R82). -/
def usageBy (d : Int) (x : Account) : Account := { x with usage := ((x.usage : Int) + d).toNat }

/-- A group's member count changes (R91). -/
def onMembers (g : Option Nat) (f : Nat → Nat) (s : State) : State :=
  match g with
  | none => s
  | some i => setGroupRec i { group s i with members := f (group s i).members } s

/-- SET_GROUP moves a principal's usage and reservation between groups, with the uPrev values, and the member counts
(R81, R94). -/
def moveGroup (p : Nat) (new : Option Nat) (s : State) : State :=
  let r := principal s p
  let u := r.acct.usage
  let v := r.acct.reservation
  let leave (x : Account) : Account := uPrevBy (-(u : Int)) (reserveDown v (usageDown u x))
  let join (x : Account) : Account := uPrevBy (u : Int) (reserveUp v (usageUp u x))
  let s1 := setPrincipal p { r with group := new } s
  let s2 := onMembers r.group (· - 1) (onGroup r.group leave s1)
  onMembers new (· + 1) (onGroup new join s2)

/-- LOAD_USAGE's arithmetic (R82): principal 0 keeps its trend fields. -/
def loadUsage (p blocks : Nat) (s : State) : State :=
  let r := principal s p
  let new := blocks * 16
  let d : Int := (new : Int) - (r.acct.usage : Int)
  let trend := if p = 0 then r.acct.trend else { r.acct.trend with uPrev := new }
  onGroup r.group (fun x => uPrevBy d (usageBy d x))
    (setPrincipal p { r with acct := { r.acct with usage := new, trend := trend } } s)

end Sys2Proof.Machine
end

