-- ==== Sys2Proof/Machine/Catalog.lean ====
section
/-! DEFINITION. The Snapshot Catalog (R118 to R142): ids, takes, holds, the release cascade, drops, pins, retention and
reserve pressure. -/

namespace Sys2Proof.Machine

/-! ### Records of a volume -/

/-- The records of a volume, oldest first: in rising order of epoch (R118). -/
def volumeSnaps (s : State) (v : Nat) : List (Nat × Snap) :=
  sortBy (fun e => e.2.epoch) (s.sc.records.filter fun e => e.2.volume = v)

/-- A record that can hold freed blocks: TAKING or LIVE (R125). -/
def Snap.holder (r : Snap) : Bool := decide (r.state = .taking) || decide (r.state = .live)

/-- The newest record of a volume in TAKING or LIVE (R125). -/
def newestHolder (s : State) (v : Nat) : Option (Nat × Snap) := ((volumeSnaps s v).filter fun e => e.2.holder).getLast?

/-- The newest holder of X's volume, other than X, whose epoch is below X's (R128). -/
def olderHolder (s : State) (id : Nat) (x : Snap) : Option (Nat × Snap) :=
  ((volumeSnaps s x.volume).filter fun e => e.2.holder && decide (e.1 ≠ id) && decide (e.2.epoch < x.epoch)).getLast?

/-- A record that retention and pressure may release: LIVE, unpinned, not kept (R134, R137). -/
def Snap.releasable (r : Snap) : Bool := decide (r.state = .live) && decide (r.pinCount = 0) && !r.keep

/-- The age of a record in minutes (R135). -/
def snapAge (s : State) (r : Snap) : Nat := now s - r.created

/-! ### Hold lists (R126) -/

/-- The blocks of a hold list. -/
def holdTotal (l : List Hold) : Nat := (l.map Hold.blocks).sum

/-- The two entries with the oldest births become one, with the older birth and the sum of their blocks. -/
def mergeOldest : List Hold → List Hold
  | a :: b :: r => { birth := a.birth, blocks := a.blocks + b.blocks } :: r
  | l => l

/-- An entry is added to a hold list (R126). -/
def addHold (l : List Hold) (h : Hold) : List Hold :=
  if l.any (fun e => e.birth = h.birth) then
    l.map fun e => if e.birth = h.birth then { e with blocks := e.blocks + h.blocks } else e
  else if l.length < 12 then insertBy Hold.birth h l
  else insertBy Hold.birth h (mergeOldest l)

/-! ### Reserve flag (R138) -/

/-- RESERVE_OVER (R138). -/
def notifyReserve (v : Nat) (standing : Bool) (s : State) : State :=
  let r := volume s v
  let n := (s.sc.records.filter fun e => decide (e.2.volume = v) && (decide (0 < e.2.pinCount) || e.2.keep)).length
  notify (.volume v) (.reserveOver standing r.heldTotal r.reserveLimit n (now s)) s

/-- The reserveOver flag of a volume is set (R138). -/
def reserveFlag (s : State) (v : Nat) : Bool := s.sc.reserveOver.contains v

/-- The flag of a volume is cleared and RESERVE_OVER raised with standing no. -/
def clearReserve (v : Nat) (s : State) : State :=
  notifyReserve v false { s with sc := { s.sc with reserveOver := setDel v s.sc.reserveOver } }

/-- The flag of a volume is set and RESERVE_OVER raised with standing yes. -/
def setReserve (v : Nat) (s : State) : State :=
  notifyReserve v true { s with sc := { s.sc with reserveOver := setAdd v s.sc.reserveOver } }

/-- The volume's holds are within its limit, or it has none. -/
def withinReserve (s : State) (v : Nat) : Bool :=
  decide ((volume s v).reserveLimit = 0) || decide ((volume s v).heldTotal ≤ (volume s v).reserveLimit)

/-- The flag falls when the holds are within the limit again (R138). -/
def testReserveFall (v : Nat) (s : State) : State := if reserveFlag s v && withinReserve s v then clearReserve v s else s

/-! ### Orders -/

/-- The DROP_SNAP of a DROPPING record with no order in flight is handed over when its volume's link is UP (R130). -/
def handDrop (id : Nat) (s : State) : State :=
  match snap s id with
  | none => s
  | some r =>
    let srv := (volume s r.volume).server
    if r.state = .dropping ∧ r.inFlight = none ∧ linkUp s srv then
      let o := issue srv (.dropSnap r.volume id r.epoch) s
      setSnap id { r with inFlight := some o.2 } o.1
    else s

/-! ### The release cascade (R128) -/

/-- Blocks that a release passed on and blocks that it freed. -/
structure Released where
  passed : Nat
  freed : Nat
  deriving DecidableEq, Repr

/-- What a cascade of a hold list into an older holder of epoch `e` passes on and frees (R128). -/
def cascadeAmounts (older : Option (Nat × Snap)) (holds : List Hold) : Released :=
  match older with
  | none => { passed := 0, freed := holdTotal holds }
  | some p =>
    { passed := holdTotal (holds.filter fun h => h.birth ≤ p.2.epoch),
      freed := holdTotal (holds.filter fun h => !decide (h.birth ≤ p.2.epoch)) }

/-- The entries that the older holder contains pass to it (R128), added in ascending order of birth (log 50). -/
def passHolds (older : Option (Nat × Snap)) (holds : List Hold) (s : State) : State :=
  match older with
  | none => s
  | some p => setSnap p.1 { p.2 with holds := (holds.filter fun h => h.birth ≤ p.2.epoch).foldl addHold p.2.holds } s

/-- The volume's heldTotal falls by the blocks freed (R127, R128). -/
def lowerHeld (v n : Nat) (s : State) : State := setVolume v { volume s v with heldTotal := (volume s v).heldTotal - n } s

/-- A record X is released: its holds pass to the next older holder or are freed, and X becomes DROPPING with its DROP_SNAP
handed over, or leaves the catalog when its take failed (R128, R130, R138). -/
def cascade (id : Nat) (x : Snap) (failed : Bool) (s : State) : State × Released :=
  let older := olderHolder s id x
  let amounts := cascadeAmounts older x.holds
  let s1 := lowerHeld x.volume amounts.freed (passHolds older x.holds s)
  let s2 := if failed then delSnap id s1
    else handDrop id (setSnap id { x with holds := [], state := .dropping, inFlight := none } s1)
  (if 0 < amounts.freed then testReserveFall x.volume s2 else s2, amounts)

/-- A release by host, retention or pressure, with SNAP_RELEASED (R129, R135, R137, R139). A RESERVE_OVER that falls by the
cascade is raised before it (log 52). -/
def releaseSnap (reason : ReleaseReason) (id : Nat) (s : State) : State × Released :=
  match snap s id with
  | none => (s, { passed := 0, freed := 0 })
  | some x =>
    let r := cascade id x false s
    (notify (.snapshot id)
      (.snapReleased id x.volume x.epoch x.kind reason r.2.passed r.2.freed (volume r.1 x.volume).heldTotal (now s)) r.1, r.2)

/-! ### Reserve pressure (R137) -/

/-- Pressure releases the oldest releasable record until the holds are within the limit or none is left (R137). -/
def pressureLoop (v : Nat) : (fuel : Nat) → State → State
  | 0, s => s
  | fuel + 1, s =>
    if withinReserve s v then s
    else match (volumeSnaps s v).filter fun e => e.2.releasable with
      | [] => s
      | e :: _ => pressureLoop v fuel (releaseSnap .pressure e.1 s).1

/-- RESERVE_OVER is decided at the end of a pressure test (R138). -/
def decideReserve (v : Nat) (s : State) : State :=
  if withinReserve s v then testReserveFall v s else if reserveFlag s v then s else setReserve v s

/-- The pressure test of a volume (R137). Each release makes one record DROPPING, so the records of the volume bound them. -/
def pressureTest (v : Nat) (s : State) : State := decideReserve v (pressureLoop v (volumeSnaps s v).length s)

/-! ### Holds of FREE records (R125) -/

/-- A FREE's blocks become a hold of the newest holder that contains them, or are freed (R125). -/
def attributeHold (v birth n : Nat) (s : State) : State :=
  match newestHolder s v with
  | none => s
  | some h =>
    if birth ≤ h.2.epoch then
      let s1 := setSnap h.1 { h.2 with holds := addHold h.2.holds { birth := birth, blocks := n } } s
      pressureTest v (setVolume v { volume s1 v with heldTotal := (volume s1 v).heldTotal + n } s1)
    else s

/-! ### Taking (R119, R121) -/

/-- The id after `n`: 0 is passed over and 65,535 wraps to 1 (R119). -/
def nextIdAfter (n : Nat) : Nat := if 65535 ≤ n then 1 else n + 1

/-- The first id from `n` on that no record holds (R119). -/
def firstFreeId (s : State) : (fuel n : Nat) → Nat
  | 0, n => n
  | fuel + 1, n => if n = 0 ∨ (snap s n).isSome then firstFreeId s fuel (nextIdAfter n) else n

/-- The id that a take assigns (R119). -/
def takeId (s : State) : Nat := firstFreeId s (s.sc.records.length + 2) s.sc.nextId

/-- The catalog or the volume has no room for another record (R118, R121). -/
def catalogFull (s : State) (v : Nat) : Bool :=
  decide (1024 ≤ s.sc.records.length) || decide (64 ≤ (s.sc.records.filter fun e => e.2.volume = v).length)

/-- The Volume Table answers EXHAUSTED (R43). -/
def epochExhausted (s : State) (v : Nat) : Bool := decide (top32 ≤ (volume s v).epoch)

/-- A take of a volume: the epoch advances, a TAKING record is made and its SNAP is handed over (R43, R121). -/
def takeSnap (v : Nat) (kind : SnapKind) (keep : Bool) (s : State) : State × Nat × Nat :=
  let r := volume s v
  let id := takeId s
  let s1 := setVolume v { r with epoch := r.epoch + 1 } s
  let s2 := { s1 with sc := { s1.sc with nextId := nextIdAfter id } }
  let o := issue r.server (.snap v id r.epoch kind) s2
  (setSnap id { volume := v, epoch := r.epoch, kind := kind, created := now s, state := .taking, keep := keep, pinCount := 0,
                inFlight := some o.2, holds := [] } o.1, id, r.epoch)

/-- SNAP_FAILED (R139). -/
def notifySnapFailed (v id : Nat) (kind : SnapKind) (reason : SnapFailReason) (s : State) : State :=
  notify (.volume v) (.snapFailed id kind reason (now s)) s

/-- A take fails: its record is released and leaves the catalog; unless a warm restart does it, SNAP_FAILED is raised and
the DC is to be told (R123, R140). -/
def failTake (id : Nat) (x : Snap) (reason : SnapFailReason) (quiet : Bool) (s : State) : State :=
  let s1 := (cascade id x true s).1
  if quiet then s1
  else
    let s2 := notifySnapFailed x.volume id x.kind reason s1
    { s2 with sc := { s2.sc with toDc := s2.sc.toDc ++ [.failed x.volume id] } }

/-! ### Pins (R132) -/

/-- A pin of a snapshot would be granted: a record holds the id in TAKING or LIVE. -/
def canPin (s : State) (id : Nat) : Bool :=
  match snap s id with
  | none => false
  | some r => r.holder

/-- A granted pin raises the pin count. -/
def pin (id : Nat) (s : State) : State :=
  match snap s id with
  | none => s
  | some r => setSnap id { r with pinCount := r.pinCount + 1 } s

/-- An unpin lowers the pin count; a LIVE record left at 0 has its volume's pressure test made. -/
def unpin (id : Nat) (s : State) : State :=
  match snap s id with
  | none => s
  | some r =>
    let s1 := setSnap id { r with pinCount := r.pinCount - 1 } s
    if r.state = .live ∧ r.pinCount - 1 = 0 then pressureTest r.volume s1 else s1

/-! ### Retention (R134 to R136) -/

/-- A volume matches a rule over the six bits of its index (R134). -/
def ruleMatches (r : Rule) (v : Nat) : Bool := decide (v &&& r.mask = r.value &&& r.mask)

/-- The rule numbers 0 to 7 (R133). -/
def ruleNumbers : List Nat := [0, 1, 2, 3, 4, 5, 6, 7]

/-- The number of the governing rule of a kind on a volume (R134). -/
def governingRule (s : State) (v : Nat) (k : SnapKind) : Option Nat :=
  ruleNumbers.find? fun n => (rule s n).valid && ruleMatches (rule s n) v && decide ((rule s n).kind = k)

/-- The candidates of a volume and kind, oldest first (R134). -/
def candidates (s : State) (v : Nat) (k : SnapKind) : List (Nat × Snap) :=
  (volumeSnaps s v).filter fun e => e.2.releasable && decide (e.2.kind = k)

/-- Releases in turn with the reason RETENTION. -/
def retire (l : List (Nat × Snap)) (s : State) : State := l.foldl (fun s e => (releaseSnap .retention e.1 s).1) s

/-- The candidates older than a maximum age; none when it is 0 (R135). -/
def overAge (s : State) (maxAge : Nat) (l : List (Nat × Snap)) : List (Nat × Snap) :=
  if maxAge = 0 then [] else l.filter fun e => maxAge < snapAge s e.2

/-- Retention at a SNAP_DONE: all candidates but the newest keepCount, then those over age (R135). -/
def takeRetention (v : Nat) (k : SnapKind) (s : State) : State :=
  match governingRule s v k with
  | none => s
  | some n =>
    let c := candidates s v k
    let out := c.length - (rule s n).keepCount
    retire (overAge s (rule s n).maxAge (c.drop out)) (retire (c.take out) s)

/-- Age retention of one kind on one volume (R136). -/
def ageRetentionOf (v : Nat) (k : SnapKind) (s : State) : State :=
  match governingRule s v k with
  | none => s
  | some n => retire (overAge s (rule s n).maxAge (candidates s v k)) s

/-- The volumes that are not UNATTACHED, in rising order. -/
def attachedVolumes (s : State) : List Nat := (s.vt.filter fun e => e.2.state ≠ .unattached).map Prod.fst

/-- Age retention at a minute event, over every attached volume and kind (R136): the volumes in rising order, and within one
HOURLY, NIGHTLY, MANUAL (log 51). -/
def ageRetention (s : State) : State :=
  (attachedVolumes s).foldl
    (fun s v => ageRetentionOf v .manual (ageRetentionOf v .nightly (ageRetentionOf v .hourly s))) s

/-- The id of the record whose order in flight on server `srv` carries the number (R122). -/
def snapInFlight (s : State) (srv num : Nat) (taking : Bool) : Option (Nat × Snap) :=
  s.sc.records.find? fun e => decide (e.2.inFlight = some num) && decide ((volume s e.2.volume).server = srv)
    && (if taking then decide (e.2.state = .taking) else decide (e.2.state = .dropping))

end Sys2Proof.Machine
end

