-- ==== Sys2Proof/Machine/Copy.lean ====
section
/-! DEFINITION. The Copy Credit Arbiter (R143 to R148), the Restore Controller's jobs (R149 to R164) and the Duplication
Controller's jobs, budget and batches (R167 to R191). -/

namespace Sys2Proof.Machine

/-! ### Restore jobs -/

/-- A job has an extent in a status. -/
def RestoreJob.hasStatus (j : RestoreJob) (st : ExtStatus) : Bool := j.extents.any fun e => e.status = st

/-- How many extents stand in a status. -/
def RestoreJob.countStatus (j : RestoreJob) (st : ExtStatus) : Nat := (j.extents.filter fun e => e.status = st).length

/-- Blocks copied: the sum of the counts of the extents in DONE (R158). -/
def RestoreJob.copied (j : RestoreJob) : Nat := ((j.extents.filter fun e => e.status = .done).map Extent.count).sum

/-- How many failed extents failed with a reason (R163). -/
def RestoreJob.failedWith (j : RestoreJob) (r : ExtReason) : Nat :=
  (j.extents.filter fun e => decide (e.status = .failed) && decide (e.reason = r)).length

/-- How many failed with each reason (R163). -/
def RestoreJob.failCounts (j : RestoreJob) : FailCounts :=
  { io := j.failedWith .io, sourceGone := j.failedWith .sourceGone, noSpace := j.failedWith .noSpace,
    link := j.failedWith .link, cancelled := j.failedWith .cancelled }

/-- None of the job's extents is PENDING or ORDERED (R158). -/
def RestoreJob.settled (j : RestoreJob) : Bool := !j.hasStatus .pending && !j.hasStatus .ordered

/-- The outcome of a job that ends by its extents (R158). -/
def RestoreJob.outcome (j : RestoreJob) : RestoreOutcome :=
  if j.state = .draining then .cancelled
  else if !j.hasStatus .failed then .done
  else if j.hasStatus .done then .partly else .failed

/-- The server that serves a job's volume. -/
def jobServer (s : State) (j : RestoreJob) : Nat := (volume s j.volume).server

/-- The job is a restore candidate on a server (R145). -/
def isCandidate (s : State) (srv : Nat) (j : RestoreJob) : Bool :=
  decide (j.state = .active) && j.hasStatus .pending && decide (jobServer s j = srv) && linkUp s srv

/-- The restore candidates of a server, in the order of the acceptance list (R145, R146). -/
def restoreCandidates (s : State) (srv : Nat) : List (Nat × RestoreJob) :=
  s.cca.acceptance.filterMap fun id => match restoreJob s id with
    | none => none
    | some j => if isCandidate s srv j then some (id, j) else none

/-- The last end record of a job that ends with an outcome (R149, R159). -/
def endRecord (s : State) (j : RestoreJob) (o : RestoreOutcome) : RestoreEnd :=
  { outcome := o, copied := j.copied, done := j.countStatus .done, failed := j.countStatus .failed, released := j.remaining,
    principal := j.principal, snapshot := j.snapshot, time := now s }

/-- RESTORE_DONE (R163). -/
def restoreDone (id : Nat) (j : RestoreJob) (o : RestoreOutcome) (time : Nat) (s : State) : State :=
  notify (.job id)
    (.restoreDone id j.principal j.volume j.snapshot o j.copied (j.countStatus .done) (j.countStatus .failed) j.failCounts
      j.remaining time) s

/-- The slot is freed: its last end is written and the job leaves the acceptance list (R159). -/
def freeSlot (id : Nat) (j : RestoreJob) (o : RestoreOutcome) (s : State) : State :=
  { s with
    rsc := { jobs := tdel s.rsc.jobs id, lastEnd := tput s.rsc.lastEnd id (endRecord s j o) }
    cca := { s.cca with acceptance := s.cca.acceptance.filter (· ≠ id) } }

/-- A job ends: the slot is freed, the reservation released, the source unpinned and RESTORE_DONE raised (R159). -/
def endRestore (id : Nat) (j : RestoreJob) (s : State) : State :=
  restoreDone id j j.outcome (now s) (unpin j.snapshot (release j.principal j.remaining (freeSlot id j j.outcome s)))

/-- The job end test (R158). -/
def testRestoreEnd (id : Nat) (s : State) : State :=
  match restoreJob s id with
  | none => s
  | some j => if j.settled then endRestore id j s else s

/-- The job and extent whose COPY on server `srv` carries the number (R155). -/
def findExtent (s : State) (srv num : Nat) : Option (Nat × RestoreJob) :=
  s.rsc.jobs.find? fun e => decide (jobServer s e.2 = srv) && e.2.extents.any fun x => x.order = some num

/-- The extent whose COPY carries the number is changed. -/
def RestoreJob.onOrder (j : RestoreJob) (num : Nat) (f : Extent → Extent) : RestoreJob :=
  { j with extents := j.extents.map fun x => if x.order = some num then f x else x }

/-- An extent becomes DONE and loses its order number (R155). -/
def Extent.finish (x : Extent) : Extent := { x with status := .done, order := none }

/-- An extent becomes FAILED with a reason and loses its order number (R156). -/
def Extent.fail (r : ExtReason) (x : Extent) : Extent := { x with status := .failed, reason := r, order := none }

/-- An extent returns to PENDING with its retry flag set (R156, R157). -/
def Extent.again (x : Extent) : Extent := { x with status := .pending, retry := true, order := none }

/-- What a passing failure (IO, or a link that left UP) does to an extent (R156, R157). -/
def Extent.retryOrFail (st : JobState) (r : ExtReason) (x : Extent) : Extent :=
  match st, x.retry with
  | .active, false => x.again
  | .active, true => x.fail r
  | .draining, false => x.fail .cancelled
  | .draining, true => x.fail r

/-- A COPY_FAIL's reason byte: 1 IO, 2 SOURCE_GONE, 3 NO_SPACE, any other value IO (R153). -/
def copyFailReason (b : BitVec 8) : ExtReason :=
  match b.toNat with
  | 2 => .sourceGone
  | 3 => .noSpace
  | _ => .io

/-- What a COPY_FAIL does to its extent (R156). -/
def Extent.copyFailed (st : JobState) (r : ExtReason) (x : Extent) : Extent :=
  if r = .io then x.retryOrFail st .io else x.fail r

/-! ### Credits -/

/-- A return is handed to the CCA for a restore (R148). -/
def returnRestore (srv : Nat) (s : State) : State :=
  let c := credit s srv
  if c.restore = 0 then s else setCredit srv { c with restore := c.restore - 1, free := c.free + 1 } s

/-- A return is handed to the CCA for a ship (R148). -/
def returnShip (srv : Nat) (s : State) : State :=
  let c := credit s srv
  if c.ship = 0 then s else setCredit srv { c with ship := c.ship - 1, free := c.free + 1 } s

/-- The credits of a server whose link leaves UP (R148). -/
def resetCredits (srv : Nat) (s : State) : State :=
  setCredit srv { credit s srv with free := 4, restore := 0, ship := 0 } s

/-- The server is shared: a SHIPPING job's group is open (R144). -/
def shared (s : State) (srv : Nat) : Bool := (credit s srv).groups.any fun g => s.cca.openGroups.contains g

/-- The restore limit (R146). -/
def restoreLimit (s : State) (srv : Nat) : Nat := if shared s srv then 3 else 4

/-! ### Duplication jobs -/

/-- The region MiB of a volume (R36). -/
def regionMib (r : Volume) : Nat := r.regionBlocks / 256

/-- The ship-set regions of a volume from a cursor on, for a base epoch, in rising order (R172). -/
def shipSet (r : Volume) (base cursor : Nat) : List Nat :=
  (r.marks.filter fun e => decide (cursor ≤ e.1) && decide (e.1 < r.regionCount) && decide (base < e.2)).map Prod.fst

/-- The server that serves a volume. -/
def serverOf (s : State) (v : Nat) : Nat := (volume s v).server

/-- The ordinary case of R174. -/
def fitsOrdinary (s : State) (v : Nat) : Bool := decide (regionMib (volume s v) ≤ s.dc.remaining)

/-- The oversize case of R174. -/
def fitsOversize (s : State) (v : Nat) : Bool :=
  decide (s.dc.full < regionMib (volume s v)) && decide (s.dc.full ≠ 0) && decide (s.dc.remaining = s.dc.full)

/-- The six conditions of R175, in its order. -/
def eligibility (s : State) (v : Nat) (j : DupJob) : List Bool :=
  [decide (j.state = .shipping), s.dc.openGroups.contains (volume s v).dupGroup, j.batch.isNone,
    decide (j.cursor < (volume s v).regionCount), decide ((volume s v).state = .attached), fitsOrdinary s v || fitsOversize s v]

/-- A job is eligible (R175). -/
def dupEligible (s : State) (v : Nat) (j : DupJob) : Bool := (eligibility s v j).all id

/-- The volumes of a server with an eligible job, in rising order (R175). -/
def eligibleOn (s : State) (srv : Nat) : List Nat :=
  (s.dc.jobs.filter fun e => decide (serverOf s e.1 = srv) && dupEligible s e.1 e.2).map Prod.fst

/-- The dupGroups of a server's volumes whose jobs are SHIPPING (R168). -/
def shipGroups (s : State) (srv : Nat) : List Nat :=
  ((s.dc.jobs.filter fun e => decide (serverOf s e.1 = srv) && decide (e.2.state = .shipping)).map
    fun e => (volume s e.1).dupGroup).foldl (fun l g => setAdd g l) []

/-- The DC hands the CCA a server's shipping-group set and presents or withdraws its duplication candidate (R168, R175). -/
def present (srv : Nat) (s : State) : State :=
  setCredit srv { credit s srv with groups := shipGroups s srv, dupCandidate := decide (eligibleOn s srv ≠ []) } s

/-- The test of R175 for every server. -/
def presentAll (s : State) : State := serverList.foldl (fun s srv => present srv s) s

/-! ### Grants (R146) -/

/-- The candidate of highest priority, the earliest of equals (R146). -/
def bestCandidate : List (Nat × RestoreJob) → Option (Nat × RestoreJob)
  | [] => none
  | c :: r => match bestCandidate r with
    | none => some c
    | some d => if d.2.priority ≤ c.2.priority then some c else some d

/-- The first PENDING extent of a list is ORDERED with a number (R154). -/
def orderFirst (num : Nat) : List Extent → List Extent
  | [] => []
  | x :: r => if x.status = .pending then { x with status := .ordered, order := some num } :: r else x :: orderFirst num r

/-- The COPY order of an extent (R153). -/
def copyOrder (s : State) (id : Nat) (j : RestoreJob) (x : Extent) : OrderBody :=
  .copy id j.mode j.volume j.snapshot j.principal (principal s j.principal).userNumber
    (match snap s j.snapshot with | none => 0 | some r => r.epoch) x.count x.source x.dest

/-- A credit is granted to a restore job, whose first PENDING extent is ordered (R146, R154). -/
def grantRestore (srv id : Nat) (j : RestoreJob) (s : State) : State :=
  match j.extents.find? fun x => x.status = .pending with
  | none => s
  | some x =>
    let c := credit s srv
    let s1 := setCredit srv { c with restore := c.restore + 1, free := c.free - 1 } s
    let o := issue srv (copyOrder s1 id j x) s1
    setRestoreJob id { j with extents := orderFirst o.2 j.extents } o.1

/-- The volume to serve: the first after the turn value, wrapping from 63 to 0 (R176). -/
def pickVolume (turn : Option Nat) (l : List Nat) : Option Nat :=
  match turn with
  | none => l.head?
  | some t => match l.find? fun v => t < v with
    | some v => some v
    | none => l.head?

/-- The regions of the next batch of a volume (R178). -/
def batchRegions (s : State) (v : Nat) (j : DupJob) : List Nat :=
  let limit := if fitsOrdinary s v then min 8 (s.dc.remaining / regionMib (volume s v)) else 1
  (shipSet (volume s v) j.baseEpoch j.cursor).take limit

/-- A batch of volume `v` is formed and its SHIP handed over (R178). -/
def formBatch (srv v : Nat) (j : DupJob) (s : State) : State :=
  let r := volume s v
  let regions := batchRegions s v j
  let mib := if fitsOrdinary s v then regions.length * regionMib r else regionMib r
  let remaining := if fitsOrdinary s v then s.dc.remaining - mib else 0
  let cursor := match regions.getLast? with
    | none => j.cursor
    | some x => x + 1
  let o := issue srv (.ship v j.target j.targetEpoch j.baseEpoch r.regionBlocks regions) s
  let s1 := setDupJob v { j with cursor := cursor, batch := some { regions := regions, order := o.2, mib := mib } } o.1
  { s1 with dc := { s1.dc with remaining := remaining, turn := some v } }

/-- A credit is granted to the duplication candidate of a server; with no eligible job the credit is returned and the
candidate withdrawn (R146, R176, R178). -/
def grantDup (srv : Nat) (s : State) : State :=
  let c := credit s srv
  let s1 := setCredit srv { c with ship := c.ship + 1, free := c.free - 1 } s
  match pickVolume s1.dc.turn (eligibleOn s1 srv) with
  | none => presentAll (returnShip srv s1)
  | some v => match dupJob s1 v with
    | none => presentAll (returnShip srv s1)
    | some j => presentAll (formBatch srv v j s1)

/-- The grant test of a server, one grant after another (R146). At most four credits are free. -/
def grantLoop (srv : Nat) : (fuel : Nat) → State → State
  | 0, s => s
  | fuel + 1, s =>
    if (credit s srv).free = 0 then s
    else match (if (credit s srv).restore < restoreLimit s srv then bestCandidate (restoreCandidates s srv) else none) with
      | some c => grantLoop srv fuel (grantRestore srv c.1 c.2 s)
      | none => if (credit s srv).dupCandidate then grantLoop srv fuel (grantDup srv s) else s

/-- The tests of R175 and R147 after an event: the candidates are presented or withdrawn, and credits are granted, server
by server (log 13). -/
def grantAll (s : State) : State := serverList.foldl (fun s srv => grantLoop srv 4 s) (presentAll s)

/-! ### Ends of duplication jobs -/

/-- A job's last end record (R167). -/
def dupEndOf (s : State) (reason : DupReason) (baseBefore baseAfter : Nat) (j : DupJob) : DupEnd :=
  { reason := reason, target := j.target, targetEpoch := j.targetEpoch, baseBefore := baseBefore, baseAfter := baseAfter,
    regions := j.regions, mib := j.mib, batches := j.batches, failures := j.failures, time := now s }

/-- DUP_STATE from an end record's figures (R189). -/
def dupNotice (v : Nat) (e : DupEnd) (cause : DupCause) (last : DupFailure) (s : State) : State :=
  notify (.volume v)
    (.dupState e.reason cause e.target e.targetEpoch e.baseBefore e.baseAfter e.regions e.mib e.batches e.failures last e.time) s

/-- The job place is emptied and the last end record written (R183, R185). -/
def emptyPlace (v : Nat) (e : DupEnd) (s : State) : State :=
  { s with dc := { s.dc with jobs := tdel s.dc.jobs v, lastEnd := tput s.dc.lastEnd v e } }

/-- A job completes: the old base is unpinned and the target becomes the base (R183). -/
def completeDup (v : Nat) (j : DupJob) (s : State) : State :=
  let r := volume s v
  let e := dupEndOf s .complete (baseEpoch s v) j.targetEpoch j
  let s1 := match r.offsiteBase with
    | none => s
    | some old => unpin old s
  let s2 := setVolume v { volume s1 v with offsiteBase := some j.target } s1
  dupNotice v e .none j.lastFailure (emptyPlace v e s2)

/-- A job ends HALTED, FAILED or NO_TARGET, its base unchanged; the target is unpinned except for NO_TARGET (R185). -/
def endDup (v : Nat) (reason : DupReason) (cause : DupCause) (j : DupJob) (s : State) : State :=
  let e := dupEndOf s reason (baseEpoch s v) (baseEpoch s v) j
  let s1 := if reason = .noTarget then s else unpin j.target s
  dupNotice v e cause j.lastFailure (emptyPlace v e s1)

/-- A job is settled: its cursor passes over regions that are not in its ship set, and it completes when nothing remains
(R172). -/
def settleDup (v : Nat) (s : State) : State :=
  match dupJob s v with
  | none => s
  | some j =>
    let r := volume s v
    let j' := { j with cursor := ((shipSet r j.baseEpoch j.cursor).head?).getD r.regionCount }
    let s1 := setDupJob v j' s
    if j'.cursor = r.regionCount ∧ j'.batch = none then completeDup v j' s1 else s1

/-- The job whose batch in flight on server `srv` carries the number (R179). -/
def findBatch (s : State) (srv num : Nat) : Option (Nat × DupJob) :=
  s.dc.jobs.find? fun e => decide (serverOf s e.1 = srv) && match e.2.batch with
    | none => false
    | some b => decide (b.order = num)

/-- A SHIP_DONE's job: its batch counts, and it is settled or ends HALTED (R179). -/
def shipDone (v : Nat) (j : DupJob) (s : State) : State :=
  match j.batch with
  | none => s
  | some b =>
    let j' := { j with regions := satAdd top32 j.regions b.regions.length, mib := satAdd top32 j.mib b.mib,
                       batches := satAdd top32 j.batches 1, retry := 0, batch := none }
    if j.state = .draining then endDup v .halted .host j' s else settleDup v (setDupJob v j' s)

/-- A failed batch is dealt with (R180, R181). -/
def batchFailed (v : Nat) (why : DupFailure) (j : DupJob) (s : State) : State :=
  match j.batch with
  | none => s
  | some b =>
    let j' := { j with failures := satAdd top16 j.failures 1, lastFailure := why, batch := none }
    if j.state = .draining then endDup v .halted .host j' s
    else
      let k := { j' with cursor := (b.regions.head?).getD j.cursor, retry := j.retry + 1 }
      if 3 ≤ k.retry then endDup v .failed .none k s else setDupJob v k s

/-! ### Creating duplication jobs -/

/-- A new job's fields (R169, R171). -/
def newDupJob (s : State) (v target targetEpoch : Nat) (state : DupState) (origin : DupOrigin) : DupJob :=
  { state := state, target := target, targetEpoch := targetEpoch, baseEpoch := baseEpoch s v, cursor := 0, batch := none,
    retry := 0, regions := 0, mib := 0, batches := 0, failures := 0, lastFailure := .none, origin := origin, created := now s }

/-- A job is made: its target is pinned and DUP_STATE raised with reason CREATED (R169, R171). -/
def createDup (v target targetEpoch : Nat) (state : DupState) (origin : DupOrigin) (s : State) : State :=
  let j := newDupJob s v target targetEpoch state origin
  dupNotice v (dupEndOf s .created j.baseEpoch j.baseEpoch j) .none .none (setDupJob v j (pin target s))

/-- No job is made: DUP_STATE and the last end record with reason NO_TARGET (R169, R189), target and counts 0 and the volume's
base epoch before and after (log 58). -/
def noTargetDup (v : Nat) (cause : DupCause) (s : State) : State :=
  let b := baseEpoch s v
  let e : DupEnd := { reason := .noTarget, target := 0, targetEpoch := 0, baseBefore := b, baseAfter := b, regions := 0, mib := 0,
                      batches := 0, failures := 0, time := now s }
  dupNotice v e cause .none { s with dc := { s.dc with lastEnd := tput s.dc.lastEnd v e } }

/-- The cause a failed nightly take gives DUP_STATE (R124, R189). -/
def nightlyCause : SnapFailReason → DupCause
  | .stale => .stale
  | .full => .full
  | .epoch => .epoch
  | .server _ | .link => .takeFailed

/-- One volume of the catalog's nightly list (R169). -/
def nightlyItem (s : State) (i : NightlyItem) : State :=
  if (dupJob s i.volume).isSome then s
  else match i.result with
    | .error why => noTargetDup i.volume (nightlyCause why) s
    | .ok id => match snap s id with
      | none => noTargetDup i.volume .pinRefused s
      | some r => if r.holder then createDup i.volume id r.epoch .waitingSnapshot .window s else noTargetDup i.volume .pinRefused s

/-- A take's completion reaches the DC (R170). -/
def targetDone (v id : Nat) (s : State) : State :=
  match dupJob s v with
  | none => s
  | some j =>
    if j.state = .waitingSnapshot ∧ j.target = id then
      if s.cwu.slot.isSome then settleDup v (setDupJob v { j with state := .shipping } s)
      else setDupJob v { j with state := .suspended } s
    else s

/-- A take's failure reaches the DC (R170). -/
def targetFailed (v id : Nat) (s : State) : State :=
  match dupJob s v with
  | none => s
  | some j => if j.state = .waitingSnapshot ∧ j.target = id then endDup v .noTarget .takeFailed j s else s

/-- The DC takes the catalog's messages in order up to the next nightly list, which waits for its own step (R169, R170). -/
def drainMessages : (fuel : Nat) → State → State
  | 0, s => s
  | fuel + 1, s => match s.sc.toDc with
    | .done v id :: r => drainMessages fuel (targetDone v id { s with sc := { s.sc with toDc := r } })
    | .failed v id :: r => drainMessages fuel (targetFailed v id { s with sc := { s.sc with toDc := r } })
    | _ => s

/-- The DC takes the messages that wait before the next nightly list. -/
def dcListen (s : State) : State := drainMessages s.sc.toDc.length s

/-! ### The window's events in the DC (R173, R186) -/

/-- A slot start refills the budget (R173). -/
def refillBudget (s : State) : State :=
  let full := s.cwu.settings.capacity * s.cwu.settings.len
  { s with dc := { s.dc with remaining := full, full := full } }

/-- Every job in one state goes to another. -/
def dupStates (a b : DupState) (s : State) : State :=
  { s with dc := { s.dc with jobs := s.dc.jobs.map fun e => if e.2.state = a then (e.1, { e.2 with state := b }) else e } }

/-- The volumes whose jobs stand in a state, in rising order. -/
def dupIn (s : State) (a : DupState) : List Nat := (s.dc.jobs.filter fun e => e.2.state = a).map Prod.fst

/-- The SUSPENDED jobs become SHIPPING and are settled (R186), in rising order of volume (log 47). -/
def resumeJobs (s : State) : State := (dupIn s .suspended).foldl (fun s v => settleDup v s) (dupStates .suspended .shipping s)

end Sys2Proof.Machine
end

