-- ==== Sys2Proof/Machine/Window.lean ====
section
/-! DEFINITION. The clock and the night window (R22 to R32): the window's geometry, its evaluation, opening, slot boundary
and close, and the minute event. -/

namespace Sys2Proof.Machine

/-! ### Geometry (R24) -/

/-- The window length L. -/
def windowLength (w : WindowSet) : Nat := 32 * w.len

/-- The offset of a minute-of-day. -/
def windowOffset (w : WindowSet) (t : Nat) : Nat := (t + 1440 - w.start) % 1440

/-- The slot of a minute-of-day, none when it lies outside the window. -/
def slotOf (w : WindowSet) (t : Nat) : Option Nat :=
  if windowOffset w t < windowLength w then some (windowOffset w t / w.len) else none

/-- The minute-of-day of the next change: the end of slot `j` when OPEN, else the next minute that lies inside (R33). -/
def nextChange (c : Cwu) : Nat :=
  match c.slot with
  | some j => (c.settings.start + (j + 1) * c.settings.len) % 1440
  | none =>
    let t := (c.minute + 1) % 1440
    if (slotOf c.settings t).isSome then t else c.settings.start

/-! ### Slot masks (R30) -/

/-- A duplication group's masks. -/
def slotMask (c : Cwu) (g : Nat) : SlotMask := tgetD { current := 0, pending := none } c.masks g

/-- A pending mask is installed, and becomes absent. -/
def installMask (m : SlotMask) : SlotMask :=
  match m.pending with
  | none => m
  | some p => { current := p, pending := none }

/-- Every present pending mask is installed. -/
def installMasks (c : Cwu) : Cwu :=
  { c with masks := serverList.foldl (fun t g => tsetD { current := 0, pending := none } t g (installMask (slotMask c g))) c.masks }

/-- The groups whose current mask has slot `j` set (R30); the duplication groups are 0 to 7. -/
def groupsOpenIn (c : Cwu) (j : Nat) : List Nat := serverList.filter fun g => (slotMask c g).current.getLsbD j

/-- The open-group set, once formed, is handed to the DC and the CCA (R30). -/
def handOpenGroups (s : State) : State :=
  { s with dc := { s.dc with openGroups := s.cwu.openGroups }, cca := { s.cca with openGroups := s.cwu.openGroups } }

/-! ### Opening, boundary, close -/

/-- The CWU's part of a window open into slot `j` (R26). -/
def cwuOpen (j : Nat) (c : Cwu) : Cwu :=
  let c1 := installMasks { c with slot := some j, visited := [j] }
  { c1 with openGroups := groupsOpenIn c1 j }

/-- A window open into slot `j`: the SC is due its nightly takes, the DC refills its budget, takes the open groups and
resumes its jobs, and WINDOW is raised (R26, R186). WINDOW is raised last, behind the DUP_STATE notices of jobs that complete
at their resumption (log 48). The DC takes the open in this step, before the catalog's list of R169 (log 66). -/
def windowOpen (j : Nat) (cause : WindowCause) (s : State) : State :=
  let s1 := { s with cwu := cwuOpen j s.cwu, sc := { s.sc with opensDue := s.sc.opensDue + 1 } }
  let s2 := resumeJobs (handOpenGroups (refillBudget s1))
  notify .device (.window true j s.cwu.minute (now s) cause) s2

/-- The CWU's part of a slot boundary into slot `j` (R27). -/
def cwuBoundary (j : Nat) (c : Cwu) : Cwu :=
  let c1 := installMasks { c with slot := some j, visited := setAdd j c.visited }
  { c1 with openGroups := groupsOpenIn c1 j }

/-- A slot boundary into slot `j`: a slot start is handed on only when the slot was not yet visited (R27, R186). -/
def slotBoundary (j : Nat) (s : State) : State :=
  let s1 := { s with cwu := cwuBoundary j s.cwu }
  handOpenGroups (if s.cwu.visited.contains j then s1 else refillBudget s1)

/-- The CWU's part of a window close (R28). -/
def cwuClose (c : Cwu) : Cwu :=
  { c with slot := none, visited := [], openGroups := [], settings := c.pendingSet.getD c.settings, pendingSet := none }

/-- A window close out of slot `j` (R28, R186). -/
def windowClose (j : Nat) (cause : WindowCause) (s : State) : State :=
  let s1 := handOpenGroups { s with cwu := cwuClose s.cwu }
  notify .device (.window false j s.cwu.minute (now s) cause) (dupStates .shipping .suspended s1)

/-- The evaluation of the window at a minute event or by SET_CLOCK (R25, R31). At a minute event of a window of the whole
day, slot 0 after slot 31 is a close and an open, with the grant test of the close between them (R147), and the open is not
made when the close installs a pending set. -/
def evaluateWindow (cause : WindowCause) (s : State) : State :=
  match s.cwu.slot, slotOf s.cwu.settings s.cwu.minute with
  | none, none => s
  | none, some j => windowOpen j cause s
  | some i, none => windowClose i cause s
  | some i, some j =>
    if i = j then s
    else if cause = .minute ∧ windowLength s.cwu.settings = 1440 ∧ i = 31 ∧ j = 0 then
      let s1 := windowClose i cause s
      if s.cwu.pendingSet.isSome then s1 else windowOpen j cause (grantAll s1)
    else slotBoundary j s

/-! ### The minute event (R23) -/

/-- Part time and minute-of-day advance (R23). -/
def cwuMinute (c : Cwu) : Cwu := { c with partTime := satAdd top32 c.partTime 1, minute := (c.minute + 1) % 1440 }

/-- The interval count advances; at T it is set to 0 and a sample event is handed to the CE (R32). -/
def trendTick (s : State) : State :=
  if s.cwu.trendCount + 1 = s.cwu.trendT then
    { s with cwu := { s.cwu with trendCount := 0 }, ce := { s.ce with due := s.ce.due + 1 } }
  else { s with cwu := { s.cwu with trendCount := s.cwu.trendCount + 1 } }

/-- A minute event: the clock, then the grace walk, age retention, the trend count and the window (R23, log 7). -/
def minuteTick (s : State) : State :=
  evaluateWindow .minute (trendTick (ageRetention (graceWalk { s with cwu := cwuMinute s.cwu })))

end Sys2Proof.Machine
end

