-- ==== Sys2Proof/Machine/Links.lean ====
section
/-! DEFINITION. Server links (R13 to R19): leaving UP and entering it, with every block's part, the frames that arrive, and
silence supervision. -/

namespace Sys2Proof.Machine

/-! ### State changes -/

/-- A link's state change sets its reason and change time (R13). -/
def changeLink (srv : Nat) (to_ : LinkState) (why : LinkReason) (s : State) : State :=
  setLink srv { link s srv with state := to_, reason := why, changed := now s } s

/-- LINK_STATE (R19). -/
def notifyLink (srv : Nat) (old new : LinkState) (why : LinkReason) (s : State) : State :=
  notify (.server srv) (.linkState old new why (now s)) s

/-- A state change with its LINK_STATE notice, for a link that is not entering or leaving UP (R13, R19). -/
def moveLink (srv : Nat) (to_ : LinkState) (why : LinkReason) (s : State) : State :=
  notifyLink srv (link s srv).state to_ why (changeLink srv to_ why s)

/-! ### Volumes (R45 to R47) -/

/-- VOLUME_STALE (R47). -/
def notifyStale (v : Nat) (standing : Bool) (state : VolState) (why : StaleReason) (s : State) : State :=
  notify (.volume v) (.volumeStale standing (volume s v).server state why (now s)) s

/-- The volumes of a server in a state, in rising order. -/
def volumesOf (s : State) (srv : Nat) (st : VolState) : List Nat :=
  (s.vt.filter fun e => decide (e.2.server = srv) && decide (e.2.state = st)).map Prod.fst

/-- A volume goes to a state. -/
def volumeTo (v : Nat) (st : VolState) (s : State) : State := setVolume v { volume s v with state := st } s

/-- One ATTACHED volume of a link that leaves UP goes STALE (R45); a warm restart raises no notice here (R48). -/
def volumeStale (quiet : Bool) (s : State) (v : Nat) : State :=
  let s1 := volumeTo v .stale s
  if quiet then s1 else notifyStale v true .stale .link s1

/-- The VT's part of a link leaving UP (R45, R48), in rising order of volume (log 47). -/
def volumesLeave (srv : Nat) (quiet : Bool) (s : State) : State := (volumesOf s srv .attached).foldl (volumeStale quiet) s

/-- One STALE volume of a link that enters UP goes ATTACHED (R46). -/
def volumeBack (s : State) (v : Nat) : State := notifyStale v false .attached .link (volumeTo v .attached s)

/-- The VT's part of a link entering UP (R46), in rising order of volume (log 47). -/
def volumesEnter (srv : Nat) (s : State) : State := (volumesOf s srv .stale).foldl volumeBack s

/-! ### Orders failed back (R18) -/

/-- A SNAP or DROP_SNAP is failed back to the SC (R123, R130). -/
def snapFailedBack (srv num : Nat) (quiet : Bool) (s : State) : State :=
  match snapInFlight s srv num true with
  | some e => failTake e.1 e.2 .link quiet s
  | none => match snapInFlight s srv num false with
    | some e => setSnap e.1 { e.2 with inFlight := none } s
    | none => s

/-- A COPY is failed back to the RSC (R157). -/
def copyFailedBack (srv num : Nat) (s : State) : State :=
  match findExtent s srv num with
  | none => s
  | some e => testRestoreEnd e.1 (setRestoreJob e.1 (e.2.onOrder num (Extent.retryOrFail e.2.state .link)) s)

/-- A SHIP is failed back to the DC (R181). -/
def shipFailedBack (srv num : Nat) (s : State) : State :=
  match findBatch s srv num with
  | none => s
  | some e => batchFailed e.1 .link e.2 s

/-- One outstanding order is failed back to the block that issued it (R18). The ET records nothing for its orders. -/
def failBack (srv : Nat) (quiet : Bool) (s : State) (o : Order) : State :=
  match o.kind.issuer with
  | .sc => snapFailedBack srv o.num quiet s
  | .rsc => copyFailedBack srv o.num s
  | .dc => shipFailedBack srv o.num s
  | .et => s

/-! ### Change intake at a link's comings and goings -/

/-- The CIU's part of a link leaving UP: the queue drains; an empty one is drained at once (R66). -/
def intakeLeave (srv : Nat) (s : State) : State :=
  let i := intake s srv
  if i.queue = [] then setIntake srv { i with draining := false, unack := 0, verdicts := [] } s
  else setIntake srv { i with draining := true, verdicts := [] } s

/-- The CIU's part of a link entering UP (R67). -/
def intakeEnter (srv : Nat) (how : Reentry) (s : State) : State :=
  let i := intake s srv
  setIntake srv { i with unack := 0, verdicts := [], next := if how = .hello then 0 else i.next } s

/-- The record number that the next number moves back to when a warm restart empties a queue (R68). -/
def oldestNew : List QueuedRecord → Option Nat
  | [] => none
  | r :: rest => if r.dup then oldestNew rest else some r.num

/-- The CIU's part of a warm restart for one server (R68). -/
def intakeRestart (srv : Nat) (s : State) : State :=
  let i := intake s srv
  setIntake srv { i with queue := [], draining := false, unack := 0, verdicts := [], next := (oldestNew i.queue).getD i.next } s

/-! ### Leaving UP (R18) -/

/-- The LU's part of a link leaving UP: the transmit queue and the order table are emptied (R18). -/
def emptyLink (srv : Nat) (s : State) : State := setLink srv { link s srv with txQueue := [], orders := [] } s

/-- A link in UP leaves it for a state: every block's part (R18). `quiet`: through a warm restart. The parts are applied in
the order VT, CCA, CIU, then the orders failed back in order-table order, then ET (log 7, log 8). -/
def leaveUp (srv : Nat) (to_ : LinkState) (why : LinkReason) (quiet : Bool) (s : State) : State :=
  let orders := (link s srv).orders
  let s1 := changeLink srv to_ why (emptyLink srv s)
  let s2 := resetCredits srv (volumesLeave srv quiet s1)
  let s3 := if quiet then intakeRestart srv s2 else intakeLeave srv s2
  enforceLeave srv (orders.foldl (failBack srv quiet) s3)

/-- After a link has left UP the DC hears the catalog's messages and the candidates are presented afresh (R170, R175). -/
def afterLeave (s : State) : State := grantAll (dcListen s)

/-- A link in UP goes to FAULTED or DOWN, with its notice (R13, R18, R19). The DC hears of the takes that failed behind that notice,
so a DUP_STATE NO_TARGET follows LINK_STATE (R170, log 7). -/
def dropLink (srv : Nat) (to_ : LinkState) (why : LinkReason) (s : State) : State :=
  afterLeave (notifyLink srv .up to_ why (leaveUp srv to_ why false s))

/-- A protocol fault on an UP link (R6, R13). -/
def protocolFault (srv : Nat) (s : State) : State := dropLink srv .faulted .badFrame s

/-! ### Entering UP (R14) -/

/-- The reason of an entry into UP (R13). -/
def reentryReason : Reentry → LinkReason
  | .hello => .hello
  | .resync => .resync

/-- The LU's part of entering UP: silence count 0 and RESYNC_ACK with 64 credits first in the queue (R14). -/
def luEnter (srv : Nat) (how : Reentry) (s : State) : State :=
  setLink srv { link s srv with state := .up, reason := reentryReason how, changed := now s, silence := 0,
                                txQueue := [.resyncAck 64], held := none } s

/-- The SC's part of entering UP: DROP_SNAP is resent in ascending id order (R130). -/
def resendDrops (srv : Nat) (s : State) : State :=
  (((s.sc.records.filter fun e => decide (e.2.state = .dropping) && decide (e.2.inFlight = none)
      && decide ((volume s e.2.volume).server = srv)).map Prod.fst)).foldl (fun s id => handDrop id s) s

/-- A link enters UP from a state, as LINK_STATE gives it: every block's part (R14, R19). The time of the one notice of a
re-entry that was held is that of the entry (log 10). -/
def enterUp (srv : Nat) (how : Reentry) (old : LinkState) (s : State) : State :=
  let s1 := notifyLink srv old .up (reentryReason how) (luEnter srv how s)
  let s2 := volumesEnter srv (intakeEnter srv how s1)
  grantAll (resendDrops srv (enforceEnter srv s2))

/-- HELLO or RESYNC taken in UP: the link leaves UP, stands in SYNCING while the queue drains, and enters UP when every block
has completed its part (R14). -/
def reenterFromUp (srv : Nat) (how : Reentry) (s : State) : State :=
  let s1 := afterLeave (leaveUp srv .syncing (reentryReason how) false s)
  if (intake s1 srv).draining then setLink srv { link s1 srv with held := some how } s1
  else enterUp srv how .up s1

/-! ### Arriving frames (R4, R6, R15, R20) -/

/-- Frames on server link `srv` reach the LU: the reset line is not held and the carrier is present (R1, R21). -/
def serverReceives (s : State) (srv : Nat) : Bool := !s.pins.resetHeld && carrier s srv

/-- A good frame has been assembled: the receive side hunts, and on an UP link the silence count is 0 (R4, R15). -/
def frameArrived (srv : Nat) (s : State) : State :=
  let l := link s srv
  setLink srv { l with rx := .hunting, silence := if l.state = .up then 0 else l.silence } s

/-- A good frame arrives on a server link (R6, R20): what `up` does on an UP link; discarded in other states and during a
warm restart, from WARM_RESTART on (log 56). -/
def serverFrame (srv : Nat) (up : State → State) (s : State) : State :=
  if !serverReceives s srv then s
  else
    let s1 := frameArrived srv s
    if s.lu.restart = .inProgress then s1 else if linkUp s srv then up s1 else s1

/-- A completion of kind `kind` for an order number (R6, R16): a protocol fault when it answers a different kind, discarded
when the table does not hold the number, else the entry leaves the table and `take` is handed the completion. -/
def completion (srv num : Nat) (kind : OrderKind) (take : State → State) (s : State) : State :=
  match (link s srv).orders.find? fun o => o.num = num with
  | none => s
  | some o =>
    if o.kind = kind then
      take (setLink srv { link s srv with orders := (link s srv).orders.filter fun x => x.num ≠ num } s)
    else protocolFault srv s

/-- A HELLO or RESYNC is taken in SYNCING or FAULTED, unless a block has still to complete its part of the link's last
leaving of UP, or the entry is held (R13, R14). -/
def enterFrom (srv : Nat) (how : Reentry) (s : State) : State :=
  let l := link s srv
  if (intake s srv).draining ∨ l.held.isSome then s else enterUp srv how l.state s

/-! ### Seconds (R15, R22) -/

/-- One link's part of a second event: the silence count rises, and at the limit the link is FAULTED (R15). Its leaving is
whole before the next link's, and may hand orders to a link that faults next (log 67). -/
def silenceTick (s : State) (srv : Nat) : State :=
  if linkUp s srv then
    let l := link s srv
    let s1 := setLink srv { l with silence := l.silence + 1 } s
    if s.lu.silenceLimit ≤ l.silence + 1 then dropLink srv .faulted .silence s1 else s1
  else s

/-- An IDLE frame is handed to an UP link that has transmitted nothing since the previous second event (R15). -/
def idleTick (s : State) (srv : Nat) : State :=
  let s1 := if linkUp s srv && !(link s srv).sentSince then handFrame srv .idle s else s
  setLink srv { link s1 srv with sentSince := false } s1

/-- A second event: the second count, at 60 a minute event too, then silence supervision and IDLE frames (R15, R22), each
from server 0 to 7 (log 46). -/
def secondTick (s : State) : State :=
  let s1 := if s.cwu.second + 1 = 60 then grantAll (minuteTick { s with cwu := { s.cwu with second := 0 } })
    else { s with cwu := { s.cwu with second := s.cwu.second + 1 } }
  serverList.foldl idleTick (serverList.foldl silenceTick s1)

end Sys2Proof.Machine
end

