-- ==== Sys2Proof/Machine/Intake.lean ====
section
/-! DEFINITION. The Change Intake Unit (R52 to R70): the placing and accepting of CHANGES frames, the checks of a record,
its taking with the parts handed to the CE, SC, VT and ET, its verdict, the CHG_ACK and the end of a drain. -/

namespace Sys2Proof.Machine

/-! ### Placement and acceptance (R55, R57) -/

/-- The distance of a frame's tag behind the next number (R55). -/
def distanceBehind (next tag : Nat) : Nat := (next + 65536 - tag % 65536) % 65536

/-- Record `idx` of a frame of `n` records with tag `tag`, placed at distance `b`, joins the queue; none when the
unacknowledged count is already 64 (R55, R57). -/
def acceptRecord (tag b n idx : Nat) (r : ChangeRecord) (i : Intake) : Option Intake :=
  if 64 ≤ i.unack then none
  else
    let dup := decide (idx < b)
    some { i with
      next := if dup then i.next else (i.next + 1) % 65536
      unack := i.unack + 1
      queue := i.queue ++ [{ record := r, num := (tag + idx) % 65536, tag := tag, idx := idx, frameLen := n, dup := dup }] }

/-- The records of a frame are accepted in index order up to an overrun; the result says whether one overran (R57). -/
def acceptRecords (tag b n : Nat) : (idx : Nat) → List ChangeRecord → Intake → Intake × Bool
  | _, [], i => (i, false)
  | idx, r :: rs, i => match acceptRecord tag b n idx r i with
    | none => (i, true)
    | some i' => acceptRecords tag b n (idx + 1) rs i'

/-- A CHANGES frame taken on an UP link: a sequence fault, or its records accepted, with an overrun faulting the link
(R52, R55, R57). -/
def takeChanges (srv tag : Nat) (recs : List ChangeRecord) (s : State) : State :=
  let b := distanceBehind (intake s srv).next tag
  if recs.length = 0 ∨ 16 < recs.length ∨ 64 < b then protocolFault srv s
  else
    let r := acceptRecords tag b recs.length 0 recs (intake s srv)
    let s1 := setIntake srv r.1 s
    if r.2 then dropLink srv .faulted .overrun s1 else s1

/-! ### Checks (R60) -/

/-- ALLOC, FREE and MOVE are ops 1, 2 and 3 (R51). -/
def isAlloc (r : ChangeRecord) : Bool := r.op = 1
/-- FREE (R51). -/
def isFree (r : ChangeRecord) : Bool := r.op = 2
/-- MOVE (R51). -/
def isMove (r : ChangeRecord) : Bool := r.op = 3

/-- Check 1, FORMAT. -/
def badFormat (r : ChangeRecord) : Bool :=
  !(isAlloc r || isFree r || isMove r) || decide (63 < r.volume.toNat) || decide (32767 < r.principal.toNat)
    || (isMove r && decide (32767 < r.toPrincipal.toNat))
    || (isAlloc r && decide (16 ≤ r.restoreTag.toNat) && decide (r.restoreTag.toNat ≤ 254))

/-- Check 2, COUNT. -/
def badCount (r : ChangeRecord) : Bool := decide (r.count.toNat = 0) || decide (65535 < r.count.toNat)

/-- Check 4, RANGE: the sum is exact. -/
def badRange (v : Volume) (r : ChangeRecord) : Bool := decide (v.size < r.block.toNat + r.count.toNat)

/-- The region of a block of a volume (R37). -/
def regionOf (v : Volume) (block : Nat) : Nat := block / v.regionBlocks

/-- Check 5, CROSSES. -/
def crosses (v : Volume) (r : ChangeRecord) : Bool :=
  decide (regionOf v r.block.toNat ≠ regionOf v (r.block.toNat + r.count.toNat - 1))

/-- Check 6, BIRTH. -/
def badBirth (v : Volume) (r : ChangeRecord) : Bool :=
  isFree r && (decide (r.birthEpoch.toNat = 0) || decide (v.epoch < r.birthEpoch.toNat))

/-- The verdict of the first check that fails (R60). -/
def recordVerdict (s : State) (r : ChangeRecord) : Option Verdict :=
  let v := volume s r.volume.toNat
  if badFormat r then some .format
  else if badCount r then some .count
  else if v.state = .unattached then some .noVolume
  else if badRange v r then some .range
  else if crosses v r then some .crosses
  else if badBirth v r then some .birth
  else none

/-! ### Taking (R61 to R64) -/

/-- The principal charged for one a record names: principal 0 for an undefined one (R61). -/
def chargedTo (s : State) (p : Nat) : Nat := if (principal s p).defined then p else 0

/-- The record names an undefined principal (R61). -/
def isReassigned (s : State) (r : ChangeRecord) : Bool :=
  !(principal s r.principal.toNat).defined || (isMove r && !(principal s r.toPrincipal.toNat).defined)

/-- The Volume Table's part: the record's region is marked with the volume's epoch (R44). -/
def markRegion (v block : Nat) (s : State) : State :=
  let r := volume s v
  setVolume v { r with marks := tsetD 0 r.marks (regionOf r block) r.epoch } s

/-- The Charge Engine's part of a taken record (R62, R72). -/
def chargePart (r : ChangeRecord) (p q c : Nat) (s : State) : State :=
  if isAlloc r then chargeAlloc r.restoreTag.toNat p c s
  else if isFree r then chargeFree p c s
  else chargeMove p q c s

/-- The Snapshot Catalog's part of a taken record (R62). -/
def holdPart (r : ChangeRecord) (s : State) : State :=
  if isFree r then attributeHold r.volume.toNat r.birthEpoch.toNat r.count.toNat s else s

/-- The Enforcement Table's part of a taken record (R62). -/
def breachPart (srv num : Nat) (r : ChangeRecord) (p q : Nat) (s : State) : State :=
  if isAlloc r then detectBreach p srv num r.volume.toNat r.count.toNat false s
  else if isMove r then detectBreach q srv num r.volume.toNat r.count.toNat true s
  else s

/-- A record is taken: the parts of the CE, SC, VT and ET, and the reassigned count (R61, R62, log 7). -/
def takeRecord (srv num : Nat) (r : ChangeRecord) (s : State) : State :=
  let p := chargedTo s r.principal.toNat
  let q := chargedTo s r.toPrincipal.toNat
  let c := chargeOf r.count.toNat (volume s r.volume.toNat).weight
  let s1 := if isReassigned s r then { s with book := { s.book with reassigned := satAdd top32 s.book.reassigned 1 } } else s
  breachPart srv num r p q (markRegion r.volume.toNat r.block.toNat (holdPart r (chargePart r p q c s1)))

/-! ### Dealing with a record (R58, R59, R66) -/

/-- What a record's turn brings: its verdict, if it has one (R59). -/
def verdictOf (s : State) (q : QueuedRecord) : Option Verdict :=
  if q.dup then some .duplicate
  else match recordVerdict s q.record with
    | some v => some v
    | none => if isReassigned s q.record then some .reassigned else none

/-- The counts after a record with this verdict (R59). -/
def countVerdict (v : Option Verdict) (i : Intake) : Intake :=
  match v with
  | none | some .reassigned => { i with taken := satAdd top32 i.taken 1 }
  | some .duplicate => { i with duplicates := satAdd top32 i.duplicates 1 }
  | some _ => { i with rejected := satAdd top32 i.rejected 1 }

/-- The record is one that is taken (R59). -/
def isTaken (v : Option Verdict) : Bool :=
  match v with
  | none | some .reassigned => true
  | some _ => false

/-- The verdicts gathered for the frame at the head, with this record's (R58). -/
def gathered (i : Intake) (q : QueuedRecord) (v : Option Verdict) : List (Nat × Verdict) :=
  i.verdicts ++ (v.map fun x => (q.idx, x)).toList

/-- The queue's head has been dealt with: the CHG_ACK of a frame whose last record it was, or the end of a drain
(R58, R66). The CHG_ACK is handed over behind the orders that this record has brought about (log 7). -/
def afterRecord (srv : Nat) (q : QueuedRecord) (rest : List QueuedRecord) (v : Option Verdict) (s : State) : State :=
  let i := countVerdict v { intake s srv with queue := rest }
  if i.draining then
    if rest = [] then setIntake srv { i with draining := false, unack := 0 } s else setIntake srv i s
  else if q.idx + 1 = q.frameLen then
    handFrame srv (.chgAck q.tag q.frameLen (gathered i q v))
      (setIntake srv { i with unack := i.unack - q.frameLen, verdicts := [] } s)
  else setIntake srv { i with verdicts := gathered i q v } s

/-- The record at the head of a server's intake queue is dealt with (R59). -/
def dealWith (srv : Nat) (q : QueuedRecord) (rest : List QueuedRecord) (s : State) : State :=
  let v := verdictOf s q
  afterRecord srv q rest v (if isTaken v then takeRecord srv q.num q.record s else s)

end Sys2Proof.Machine
end

