-- ==== Sys2Proof/Machine/BookReqs.lean ====
section
/-! DEFINITION. The requests of the subject records: LOAD_USAGE (R82), defining, moving and dropping subjects (R92 to R96),
limits and grace (R97 to R99), READ_PRINCIPAL and READ_GROUP (R89, R116, R117). -/

namespace Sys2Proof.Machine

/-! ### Usage -/

/-- LOAD_USAGE's effect and reply (R82). -/
def loadReq (p blocks : Nat) (s : State) : State × Reply :=
  if 32767 < p then (s, refusal .malformed)
  else if (principal s p).defined = false then (s, refusal .noSuch)
  else
    let b := min blocks top40
    (evaluateBoth .load p (loadUsage p b s),
      accept (clampedFields [(2, decide (b ≠ blocks))]) (.loaded (principal s p).acct.usage (b * 16)))

/-- LOAD_USAGE. -/
def execLoadUsage (h : ReqHead) (p : BitVec 16) (usage : BitVec 64) (s : State) : Host.Outcome State Fault Refusal :=
  .next (fixedRequest h 10 (loadReq p.toNat usage.toNat) s)

/-! ### Defining -/

/-- The record of a newly defined principal (R90). -/
def newPrincipal (user : Nat) (g : Option Nat) : Principal :=
  { Principal.undefined with defined := true, userNumber := user, group := g }

/-- A named group is defined, or none is named. -/
def groupOk (s : State) (g : Option Nat) : Bool :=
  match g with
  | none => true
  | some i => (group s i).defined

/-- DEFINE_PRINCIPAL's effect and reply (R92). -/
def definePrincipal (p user : Nat) (wireGroup : BitVec 16) (s : State) : State × Reply :=
  match groupOrNone wireGroup with
  | none => (s, refusal .malformed)
  | some g =>
    if 32767 < p then (s, refusal .malformed)
    else if (principal s p).defined then (s, refusal .state)
    else if groupOk s g = false then (s, refusal .noSuch)
    else (onMembers g (· + 1) (setPrincipal p (newPrincipal user g) s), accept [] .none)

/-- DEFINE_PRINCIPAL. -/
def execDefinePrincipal (h : ReqHead) (p : BitVec 16) (user : BitVec 32) (g : BitVec 16) (s : State) :
    Host.Outcome State Fault Refusal :=
  .next (fixedRequest h 8 (definePrincipal p.toNat user.toNat g) s)

/-- DEFINE_GROUP's effect and reply (R93). -/
def defineGroup (g : Nat) (s : State) : State × Reply :=
  if 1023 < g then (s, refusal .malformed)
  else if (group s g).defined then (s, refusal .state)
  else (setGroupRec g { Group.undefined with defined := true } s, accept [] .none)

/-- DEFINE_GROUP. -/
def execDefineGroup (h : ReqHead) (g : BitVec 16) (s : State) : Host.Outcome State Fault Refusal :=
  .next (fixedRequest h 2 (defineGroup g.toNat) s)

/-! ### Moving and dropping -/

/-- SET_GROUP's effect and reply (R81, R94). The old group is evaluated before the new one (log 49). -/
def setGroupReq (p : Nat) (wireGroup : BitVec 16) (s : State) : State × Reply :=
  match groupOrNone wireGroup with
  | none => (s, refusal .malformed)
  | some g =>
    if 32767 < p then (s, refusal .malformed)
    else if (principal s p).defined = false ∨ groupOk s g = false then (s, refusal .noSuch)
    else if (principal s p).group = g then (s, accept [] .none)
    else
      let old := (principal s p).group
      (evaluateGroup .transfer g (evaluateGroup .transfer old (moveGroup p g s)), accept [] .none)

/-- SET_GROUP. -/
def execSetGroup (h : ReqHead) (p g : BitVec 16) (s : State) : Host.Outcome State Fault Refusal :=
  .next (fixedRequest h 4 (setGroupReq p.toNat g) s)

/-- A subject leaves the soft list (R102). -/
def leaveSoftList (sub : Subject) (s : State) : State :=
  { s with qm := { s.qm with softList := s.qm.softList.filter (· ≠ sub) } }

/-- A restore job charges the principal. -/
def chargedByRestore (s : State) (p : Nat) : Bool := s.rsc.jobs.any fun e => decide (e.2.principal = p)

/-- The Charge Engine's part of a drop: the usage leaves the group and is added to principal 0 (R81). -/
def dropUsage (p : Nat) (s : State) : State :=
  let r := principal s p
  addCharge 0 r.acct.usage (onGroup r.group (usageDown r.acct.usage) s)

/-- A principal is dropped (R81, R95). The ET treats it as unblocked while its record still stands, so an ALLOW handed over in
this step carries its userNumber (log 16). Principal 0 is evaluated, then its group, then the old group (log 49). -/
def dropPrincipal (p : Nat) (s : State) : State :=
  let old := (principal s p).group
  let s1 := onMembers old (· - 1) (dropUsage p s)
  let s2 := setPrincipal p Principal.undefined (enforceUnblock (.principal p) (leaveSoftList (.principal p) s1))
  let s3 := evaluateBoth .transfer 0 s2
  if old = (principal s 0).group then s3 else evaluateGroup .transfer old s3

/-- DROP_PRINCIPAL's effect and reply (R95). -/
def dropPrincipalReq (p : Nat) (s : State) : State × Reply :=
  if 32767 < p then (s, refusal .malformed)
  else if (principal s p).defined = false then (s, refusal .noSuch)
  else if p = 0 then (s, refusal .state)
  else if chargedByRestore s p then (s, refusal .inUse)
  else (dropPrincipal p s, accept [] (.moved (principal s p).acct.usage))

/-- DROP_PRINCIPAL. -/
def execDropPrincipal (h : ReqHead) (p : BitVec 16) (s : State) : Host.Outcome State Fault Refusal :=
  .next (fixedRequest h 2 (dropPrincipalReq p.toNat) s)

/-- DROP_GROUP's effect and reply (R96). -/
def dropGroupReq (g : Nat) (s : State) : State × Reply :=
  if 1023 < g then (s, refusal .malformed)
  else if (group s g).defined = false then (s, refusal .noSuch)
  else if 0 < (group s g).members then (s, refusal .inUse)
  else (setGroupRec g Group.undefined (enforceUnblock (.group g) (leaveSoftList (.group g) s)), accept [] .none)

/-- DROP_GROUP. -/
def execDropGroup (h : ReqHead) (g : BitVec 16) (s : State) : Host.Outcome State Fault Refusal :=
  .next (fixedRequest h 2 (dropGroupReq g.toNat) s)

/-! ### Limits and grace -/

/-- The soft limit as taken: clamped, and no greater than a nonzero hard limit (R97). -/
def softTaken (soft hard : Nat) : Nat :=
  if min soft top40 ≠ 0 ∧ min hard top40 ≠ 0 then min (min soft top40) (min hard top40) else min soft top40

/-- SET_LIMITS's effect and reply (R97). -/
def setLimits (wire : WireSubject) (soft hard band : Nat) (s : State) : State × Reply :=
  match quotaSubject wire with
  | none => (s, refusal .malformed)
  | some sub =>
    if subjectDefined s sub = false then (s, refusal .noSuch)
    else
      let a := { acct s sub with soft := softTaken soft hard, hard := min hard top40, band := min band top16 }
      (evaluate .limits sub (setAcct sub a s),
        accept (clampedFields [(2, decide (a.soft ≠ soft)), (3, decide (a.hard ≠ hard)), (4, decide (a.band ≠ band))]) .none)

/-- SET_LIMITS. -/
def execSetLimits (h : ReqHead) (sub : WireSubject) (soft hard : BitVec 64) (band : BitVec 32) (s : State) :
    Host.Outcome State Fault Refusal :=
  .next (fixedRequest h 23 (setLimits sub soft.toNat hard.toNat band.toNat) s)

/-- GRANT_GRACE ALL's effect and reply (R99). -/
def startGraceSweep (minutes : Nat) (s : State) : State × Reply :=
  match s.qm.sweep with
  | some _ => (s, refusal .state)
  | none =>
    let m := min minutes top16
    ({ s with qm := { s.qm with sweep := some { pos := 0, minutes := m } } },
      accept (clampedFields [(2, decide (m ≠ minutes))]) .none)

/-- GRANT_GRACE's effect and reply for one subject (R98). -/
def grantGrace (wire : WireSubject) (minutes : Nat) (s : State) : State × Reply :=
  match quotaSubject wire with
  | none => (s, refusal .malformed)
  | some sub =>
    if subjectDefined s sub = false then (s, refusal .noSuch)
    else
      let m := min minutes top16
      (evaluate .grace sub (setAcct sub { acct s sub with grace := m } s),
        accept (clampedFields [(2, decide (m ≠ minutes))]) .none)

/-- GRANT_GRACE: the device subject with index 0 is the target ALL (R11). -/
def execGrantGrace (h : ReqHead) (target : WireSubject) (minutes : BitVec 32) (s : State) : Host.Outcome State Fault Refusal :=
  .next (fixedRequest h 7
    (if target = ⟨0, 0⟩ then startGraceSweep minutes.toNat else grantGrace target minutes.toNat) s)

/-- GRANT_GRACE_ALL. -/
def execGrantGraceAll (h : ReqHead) (minutes : BitVec 32) (s : State) : Host.Outcome State Fault Refusal :=
  .next (fixedRequest h 7 (startGraceSweep minutes.toNat) s)

/-! ### Reading -/

/-- What a reading gives of a subject beside its record (R89, R116). -/
def subjectView (s : State) (sub : Subject) : SubjectView :=
  let a := acct s sub
  { load := loadOf a, s16 := s16Of a, h16 := h16Of a, rs := rsOf a, rh := rhOf a, softPos := placeOf sub s.qm.softList,
    enforcement := enforcement s sub, backlogPos := placeOf sub s.et.backlog }

/-- A subject's deny entry, with each server's status and whether an order is in flight (R116). -/
def denyView (s : State) (sub : Subject) : Option DenyView :=
  (denyEntry s sub).map fun e =>
    { want := e.want, servers := serverList.map fun srv => ((denyPart e srv).status, (denyPart e srv).inFlight.isSome) }

/-- A principal is denied while it or its group is blocked (R100). -/
def denied (s : State) (p : Nat) : Bool :=
  (principal s p).acct.state.blocked || match (principal s p).group with
    | none => false
    | some g => (group s g).acct.state.blocked

/-- The Quota Monitor summary (R117). -/
def qmSummary (s : State) : QmSummary :=
  { softLength := s.qm.softList.length, sweep := s.qm.sweep, entries := s.et.table.length,
    wantDeny := (s.et.table.filter fun e => e.2.want = .deny).length, backlogLength := s.et.backlog.length,
    breachTotal := s.et.breachTotal }

/-- READ_PRINCIPAL's reply (R89, R116, R117). -/
def readPrincipal (p : Nat) (s : State) : State × Reply :=
  if 32767 < p then (s, refusal .malformed)
  else
    let record := if (principal s p).defined then some (principal s p, subjectView s (.principal p), denied s p) else none
    (s, accept [] (.principal record (denyView s (.principal p))
      (if p = 0 then some (s.book.reassigned, qmSummary s) else none)))

/-- READ_PRINCIPAL. -/
def execReadPrincipal (h : ReqHead) (p : BitVec 16) (s : State) : Host.Outcome State Fault Refusal :=
  .next (fixedRequest h 2 (readPrincipal p.toNat) s)

/-- READ_GROUP's reply (R89, R116). -/
def readGroup (g : Nat) (s : State) : State × Reply :=
  if 1023 < g then (s, refusal .malformed)
  else
    (s, accept [] (.group (if (group s g).defined then some (group s g, subjectView s (.group g)) else none)
      (denyView s (.group g))))

/-- READ_GROUP. -/
def execReadGroup (h : ReqHead) (g : BitVec 16) (s : State) : Host.Outcome State Fault Refusal :=
  .next (fixedRequest h 2 (readGroup g.toNat) s)

end Sys2Proof.Machine
end

