-- ==== Sys2Proof/Machine/ClockReqs.lean ====
section
/-! DEFINITION. The requests of the Clock and Window Unit and the trend settings: SET_WINDOW, SET_SLOTMASK, SET_CLOCK,
READ_WINDOW (R29 to R33) and SET_TREND (R88). -/

namespace Sys2Proof.Machine

/-- SET_WINDOW's effect and reply (R29). -/
def setWindow (start len capacity : Nat) (s : State) : State × Reply :=
  if 1439 < start then (s, refusal .malformed)
  else
    let w : WindowSet := { start := start, len := clampTo 1 45 len, capacity := clampTo 1 65535 capacity }
    let clamps := clampedFields [(2, decide (w.len ≠ len)), (3, decide (w.capacity ≠ capacity))]
    match s.cwu.slot with
    | none => ({ s with cwu := { s.cwu with settings := w } }, accept clamps (.windowSet false))
    | some _ => ({ s with cwu := { s.cwu with pendingSet := some w } }, accept clamps (.windowSet true))

/-- SET_WINDOW. -/
def execSetWindow (h : ReqHead) (start length : BitVec 16) (capacity : BitVec 32) (s : State) :
    Host.Outcome State Fault Refusal :=
  .next (fixedRequest h 8 (setWindow start.toNat length.toNat capacity.toNat) s)

/-- SET_SLOTMASK's effect and reply (R30). -/
def setSlotmask (g : Nat) (mask : BitVec 32) (s : State) : State × Reply :=
  if 7 < g then (s, refusal .malformed)
  else
    let m : SlotMask := { slotMask s.cwu g with pending := some mask }
    ({ s with cwu := { s.cwu with masks := tsetD { current := 0, pending := none } s.cwu.masks g m } }, accept [] .none)

/-- SET_SLOTMASK. -/
def execSetSlotmask (h : ReqHead) (g : BitVec 8) (mask : BitVec 32) (s : State) : Host.Outcome State Fault Refusal :=
  .next (fixedRequest h 5 (setSlotmask g.toNat mask) s)

/-- The clock is set and the window evaluated at once, with the grants that follow (R31, R147). -/
def moveClock (part minute : Nat) (s : State) : State :=
  grantAll (evaluateWindow .setClock { s with cwu := { s.cwu with partTime := part, minute := minute, second := 0 } })

/-- SET_CLOCK's effect and reply (R31). -/
def setClock (part minute : Nat) (s : State) : State × Reply :=
  if 1439 < minute then (s, refusal .malformed) else (moveClock part minute s, accept [] .none)

/-- SET_CLOCK. -/
def execSetClock (h : ReqHead) (part : BitVec 32) (minute : BitVec 16) (s : State) : Host.Outcome State Fault Refusal :=
  .next (fixedRequest h 6 (setClock part.toNat minute.toNat) s)

/-- READ_WINDOW's reply (R33). -/
def readWindow (s : State) : State × Reply := (s, accept [] (.window s.cwu (nextChange s.cwu) s.ce.skipped))

/-- READ_WINDOW. -/
def execReadWindow (h : ReqHead) (s : State) : Host.Outcome State Fault Refusal := .next (fixedRequest h 0 readWindow s)

/-- The CWU takes a trend interval: one that differs restarts the interval count (R32). -/
def newInterval (t : Nat) (c : Cwu) : Cwu := if t = c.trendT then c else { c with trendT := t, trendCount := 0 }

/-- SET_TREND's effect and reply (R88). -/
def setTrend (t k w : Nat) (s : State) : State × Reply :=
  let t' := clampTo 1 1440 t
  let k' := clampTo 1 8 k
  let w' := clampTo 0 255 w
  ({ s with cwu := newInterval t' s.cwu, ce := { s.ce with k := k', w := w' } },
    accept (clampedFields [(1, decide (t' ≠ t)), (2, decide (k' ≠ k)), (3, decide (w' ≠ w))]) (.trend t' k' w'))

/-- SET_TREND. -/
def execSetTrend (h : ReqHead) (t : BitVec 32) (k w : BitVec 16) (s : State) : Host.Outcome State Fault Refusal :=
  .next (fixedRequest h 8 (setTrend t.toNat k.toNat w.toNat) s)

end Sys2Proof.Machine
end

