-- ==== Sys2Proof/Machine/CopyReqs.lean ====
section
/-! DEFINITION. The requests of the Restore Controller: START_RESTORE (R150 to R152), CANCEL_RESTORE (R160), READ_RESTORE
(R166); and of the Duplication Controller: START_DUP (R171), HALT_DUP (R184), SET_BASE (R188), READ_DUP (R190). -/

namespace Sys2Proof.Machine

/-! ### START_RESTORE -/

/-- The restore slots in order (R149). -/
def restoreSlots : List Nat := List.range 16

/-- The lowest-numbered free slot (R152). -/
def freeSlotOf (s : State) : Option Nat := restoreSlots.find? fun j => (restoreJob s j).isNone

/-- An extent lies within a volume of `size` blocks, and its count within 1 to 65,535 (R149, R151, log 53). -/
def extentOk (size : Nat) (x : ExtentField) : Bool :=
  decide (x.count.toNat ≠ 0) && decide (x.count.toNat ≤ 65535) && decide (x.source.toNat + x.count.toNat ≤ size)
    && decide (x.dest.toNat + x.count.toNat ≤ size)

/-- An extent of an accepted job (R152). -/
def newExtent (x : ExtentField) : Extent :=
  { source := x.source.toNat, count := x.count.toNat, dest := x.dest.toNat, status := .pending, retry := false,
    reason := .none, order := none }

/-- R: the total blocks times the volume's weight (R151, R152). -/
def restoreAmount (weight : Nat) (xs : List ExtentField) : Nat := (xs.map fun x => x.count.toNat).sum * weight

/-- A subject with a hard limit whose load plus R reaches its H16; the sum is exact (R151). -/
def reachesHard (a : Account) (r : Nat) : Bool := decide (a.hard ≠ 0) && decide (h16Of a ≤ loadOf a + r)

/-- Check 5 of R151. -/
def quotaRefuses (s : State) (p r : Nat) : Bool :=
  reachesHard (principal s p).acct r || match (principal s p).group with
    | none => false
    | some g => reachesHard (group s g).acct r

/-- Check 4 of R151 beside the mode. -/
def restoreFieldsOk (size p priority n : Nat) (xs : List ExtentField) : Bool :=
  decide (p ≠ 0) && decide (p ≤ 32767) && decide (priority ≤ 3) && decide (1 ≤ n) && decide (n ≤ 32)
    && xs.all (extentOk size)

/-- A job is accepted into a slot: placed, its reservation made, its source pinned, and joined to the acceptance list, with
the grants that follow (R146, R152). -/
def acceptRestore (slot : Nat) (j : RestoreJob) (s : State) : State :=
  let s1 := pin j.snapshot (reserve j.principal j.total (setRestoreJob slot j s))
  grantAll { s1 with cca := { s1.cca with acceptance := s1.cca.acceptance ++ [slot] } }

/-- START_RESTORE's checks 3 to 5, its effect and its reply, for a slot and a catalog record (R151, R152). -/
def startWith (slot id : Nat) (r : Snap) (p : Nat) (mode : BitVec 8) (priority n : Nat) (xs : List ExtentField) (s : State) :
    State × Reply :=
  let v := volume s r.volume
  if r.state ≠ .live ∨ v.state = .stale then (s, refusal .state)
  else match restoreModeOf mode with
    | none => (s, refusal .malformed)
    | some m =>
      let amount := restoreAmount v.weight xs
      if restoreFieldsOk v.size p priority n xs = false then (s, refusal .malformed)
      else if m = .charge ∧ quotaRefuses s p amount then (s, refusal .quota)
      else
        (acceptRestore slot
          { state := .active, snapshot := id, volume := r.volume, principal := p, mode := m, priority := priority,
            accepted := now s, extents := xs.map newExtent, total := amount, remaining := amount } s,
          accept [] (.restoreStarted slot amount))

/-- START_RESTORE's effect and reply (R151, R152). -/
def startRestore (id p : Nat) (mode : BitVec 8) (priority n : Nat) (xs : List ExtentField) (s : State) : State × Reply :=
  match freeSlotOf s with
  | none => (s, refusal .full)
  | some slot => match snap s id with
    | none => (s, refusal .noSuch)
    | some r =>
      if p ≤ 32767 ∧ (principal s p).defined = false then (s, refusal .noSuch)
      else startWith slot id r p mode priority n xs s

/-- START_RESTORE. -/
def execStartRestore (h : ReqHead) (snapshot p : BitVec 16) (mode priority count : BitVec 8) (extents : List ExtentField)
    (s : State) : Host.Outcome State Fault Refusal :=
  .next (request h (decide (h.len.toNat = 7 + 20 * count.toNat) && decide (extents.length = count.toNat))
    (startRestore snapshot.toNat p.toNat mode priority.toNat count.toNat extents) s)

/-! ### CANCEL_RESTORE, READ_RESTORE -/

/-- A job goes to DRAINING: its PENDING extents are FAILED with reason CANCELLED (R160). -/
def RestoreJob.drain (j : RestoreJob) : RestoreJob :=
  { j with state := .draining, extents := j.extents.map fun x => if x.status = .pending then x.fail .cancelled else x }

/-- CANCEL_RESTORE's effect and reply (R160). -/
def cancelRestore (id : Nat) (s : State) : State × Reply :=
  if 15 < id then (s, refusal .malformed)
  else match restoreJob s id with
    | none => (s, refusal .noSuch)
    | some j =>
      if j.state = .draining then (s, refusal .state)
      else
        (testRestoreEnd id (setRestoreJob id j.drain s), accept [] (.stillOrdered (j.countStatus .ordered)))

/-- CANCEL_RESTORE. -/
def execCancelRestore (h : ReqHead) (job : BitVec 8) (s : State) : Host.Outcome State Fault Refusal :=
  .next (fixedRequest h 1 (cancelRestore job.toNat) s)

/-- One server of READ_RESTORE (R166). -/
def creditView (s : State) (srv : Nat) : CreditView :=
  let c := credit s srv
  { free := c.free, restore := c.restore, ship := c.ship, groups := c.groups, shared := shared s srv,
    dupCandidate := c.dupCandidate, restoreCandidates := (restoreCandidates s srv).length }

/-- READ_RESTORE's reply (R166). The parts of the RSC, the CCA and the DC are read at one moment (R204, log 64). -/
def readRestore (id : Nat) (s : State) : State × Reply :=
  if 15 < id then (s, refusal .malformed)
  else
    (s, accept [] (.restore (restoreJob s id) (placeOf id s.cca.acceptance) (tget s.rsc.lastEnd id)
      (serverList.map (creditView s))))

/-- READ_RESTORE. -/
def execReadRestore (h : ReqHead) (job : BitVec 8) (s : State) : Host.Outcome State Fault Refusal :=
  .next (fixedRequest h 1 (readRestore job.toNat) s)

/-! ### START_DUP, HALT_DUP -/

/-- A volume's newest LIVE record (R171). -/
def newestLive (s : State) (v : Nat) : Option (Nat × Snap) :=
  ((volumeSnaps s v).filter fun e => decide (e.2.state = .live)).getLast?

/-- START_DUP's job: made, and settled at once when it is SHIPPING, with the grants that follow (R171). -/
def beginDup (v id epoch : Nat) (s : State) : State :=
  grantAll (match s.cwu.slot with
    | some _ => settleDup v (createDup v id epoch .shipping .host s)
    | none => createDup v id epoch .suspended .host s)

/-- START_DUP's effect and reply (R171). -/
def startDup (v : Nat) (s : State) : State × Reply :=
  if 63 < v then (s, refusal .malformed)
  else if (volume s v).state = .unattached then (s, refusal .noSuch)
  else if (dupJob s v).isSome then (s, refusal .inUse)
  else match newestLive s v with
    | none => (s, refusal .state)
    | some t =>
      if t.2.epoch ≤ baseEpoch s v then (s, refusal .state)
      else
        (beginDup v t.1 t.2.epoch s,
          accept [] (.dupStarted t.1 t.2.epoch (baseEpoch s v) (shipSet (volume s v) (baseEpoch s v) 0).length))

/-- START_DUP. -/
def execStartDup (h : ReqHead) (v : BitVec 8) (s : State) : Host.Outcome State Fault Refusal :=
  .next (fixedRequest h 1 (startDup v.toNat) s)

/-- HALT_DUP's effect and reply (R184). -/
def haltDup (v : Nat) (s : State) : State × Reply :=
  if 63 < v then (s, refusal .malformed)
  else match dupJob s v with
    | none => (s, refusal .noSuch)
    | some j =>
      if j.state = .draining then (s, refusal .state)
      else if j.batch.isSome then
        (grantAll (setDupJob v { j with state := .draining } s), accept [] (.halted true))
      else (grantAll (endDup v .halted .host j s), accept [] (.halted false))

/-- HALT_DUP. -/
def execHaltDup (h : ReqHead) (v : BitVec 8) (s : State) : Host.Outcome State Fault Refusal :=
  .next (fixedRequest h 1 (haltDup v.toNat) s)

/-! ### SET_BASE, READ_DUP -/

/-- A base id as the request gives it: 0 for none (R188). -/
def baseOf (id : Nat) : Option Nat := if id = 0 then none else some id

/-- The record that a base id names on a volume, if one is named (R188). -/
def baseRecord (s : State) (v id : Nat) : Option Snap :=
  match snap s id with
  | none => none
  | some r => if r.volume = v then some r else none

/-- The base moves: the new one is pinned, the old one unpinned, and offsiteBase set (R188). -/
def moveBase (v : Nat) (new : Option Nat) (s : State) : State :=
  let s1 := match new with
    | none => s
    | some id => pin id s
  let s2 := match (volume s v).offsiteBase with
    | none => s1
    | some old => unpin old s1
  setVolume v { volume s2 v with offsiteBase := new } s2

/-- SET_BASE's reply after a change or none (R188). -/
def baseReply (v : Nat) (old : Option Nat) (s : State) : Reply :=
  accept [] (.base old (volume s v).offsiteBase (baseEpoch s v))

/-- SET_BASE's effect and reply (R188). -/
def setBase (v id : Nat) (s : State) : State × Reply :=
  let old := (volume s v).offsiteBase
  if 63 < v then (s, refusal .malformed)
  else if (volume s v).state = .unattached ∨ (id ≠ 0 ∧ (baseRecord s v id).isNone) then (s, refusal .noSuch)
  else if (dupJob s v).isSome then (s, refusal .inUse)
  else if id ≠ 0 ∧ (baseRecord s v id).map Snap.state ≠ some .live then (s, refusal .state)
  else if baseOf id = old then (s, baseReply v old s)
  else (moveBase v (baseOf id) s, baseReply v old (moveBase v (baseOf id) s))

/-- SET_BASE. -/
def execSetBase (h : ReqHead) (v : BitVec 8) (id : BitVec 16) (s : State) : Host.Outcome State Fault Refusal :=
  .next (fixedRequest h 3 (setBase v.toNat id.toNat) s)

/-- The first condition of R175 that fails, counted from 1. -/
def firstFailing : Nat → List Bool → Option Nat
  | _, [] => none
  | n, b :: r => if b then firstFailing (n + 1) r else some n

/-- READ_DUP's view of a volume (R190). Without a job the first condition of R175 fails. -/
def dupView (s : State) (v : Nat) : DupView :=
  { job := dupJob s v
    ahead := match dupJob s v with
      | none => 0
      | some j => (shipSet (volume s v) j.baseEpoch j.cursor).length
    notEligible := match dupJob s v with
      | none => some 1
      | some j => firstFailing 1 (eligibility s v j)
    last := tget s.dc.lastEnd v
    base := (volume s v).offsiteBase
    baseEpoch := baseEpoch s v
    remaining := s.dc.remaining
    full := s.dc.full
    turn := s.dc.turn
    servers := serverList.map fun srv => ((credit s srv).dupCandidate, (credit s srv).groups) }

/-- READ_DUP's reply (R190). -/
def readDup (v : Nat) (s : State) : State × Reply :=
  if 63 < v then (s, refusal .malformed) else (s, accept [] (.dup (dupView s v)))

/-- READ_DUP. -/
def execReadDup (h : ReqHead) (v : BitVec 8) (s : State) : Host.Outcome State Fault Refusal :=
  .next (fixedRequest h 1 (readDup v.toNat) s)

end Sys2Proof.Machine
end

