-- ==== Sys2Proof/Machine/NoticeReqs.lean ====
section
/-! DEFINITION. The requests of the Notice Queue: SET_NOTICE (R194), FETCH_NOTICES (R198), CLEAR_NOTICE (R199) and
READ_NOTICES (R205). -/

namespace Sys2Proof.Machine

/-- The express kind after SET_NOTICE (R194). -/
def expressAfter (k : NoticeKind) (yes : Bool) (q : Nq) : Option NoticeKind :=
  if yes then some k else if q.express = some k then none else q.express

/-- A kind's settings are applied, to its entries too (R194). -/
def Nq.configure (k : NoticeKind) (p : Nat) (yes : Bool) (q : Nq) : Nq :=
  { q with
    priorities := tsetD 1 q.priorities k.code p
    express := expressAfter k yes q
    queue := q.queue.map fun e => if e.content.kind = k then { e with priority := p } else e }

/-- SET_NOTICE's effect and reply (R194). -/
def setNotice (kind priority : Nat) (express : BitVec 8) (s : State) : State × Reply :=
  match NoticeKind.ofCode kind, yesNo express with
  | some k, some yes =>
    let p := min priority 3
    let q := s.nq.configure k p yes
    ({ s with nq := q }, accept (clampedFields [(2, decide (p ≠ priority))])
      (.noticeSet (q.priority k) (decide (q.express = some k)) q.express))
  | _, _ => (s, refusal .malformed)

/-- SET_NOTICE. -/
def execSetNotice (h : ReqHead) (kind : BitVec 8) (priority : BitVec 16) (express : BitVec 8) (s : State) :
    Host.Outcome State Fault Refusal :=
  .next (fixedRequest h 4 (setNotice kind.toNat priority.toNat express) s)

/-- The entries eligible to be fetched, in queue order (R198). -/
def Nq.eligible (q : Nq) : List Entry := q.inOrder.filter Entry.eligible

/-- A fetched entry as the reply gives it; its express flag is its kind's (R198, R202, log 21). -/
def fetchedOf (q : Nq) (e : Entry) : Fetched :=
  { subject := e.subject, content := e.content, priority := e.priority, seq := e.seq, seenBefore := e.seen,
    express := decide (q.express = some e.content.kind) }

/-- A fetched event leaves the queue and a fetched condition is marked seen; other entries stay (R198). -/
def fetchEntry (taken : List Entry) (e : Entry) : Option Entry :=
  if taken.contains e then (if e.content.kind.isCondition then some { e with seen := true } else none) else some e

/-- The queue after up to `n` entries have been fetched (R198). -/
def Nq.fetch (n : Nat) (q : Nq) : Nq :=
  { q with queue := q.queue.filterMap (fetchEntry (q.eligible.take n)), overflow := false, lost := 0 }

/-- FETCH_NOTICES's effect and reply (R198). -/
def fetchNotices (maximum : Nat) (s : State) : State × Reply :=
  let n := clampTo 1 8 maximum
  ({ s with nq := s.nq.fetch n },
    accept (clampedFields [(1, decide (n ≠ maximum))])
      (.fetched s.nq.overflow s.nq.lost ((s.nq.eligible.take n).map (fetchedOf s.nq)) (s.nq.eligible.length - n)))

/-- FETCH_NOTICES. -/
def execFetchNotices (h : ReqHead) (maximum : BitVec 16) (s : State) : Host.Outcome State Fault Refusal :=
  .next (fixedRequest h 2 (fetchNotices maximum.toNat) s)

/-- The entry for a kind and subject, if the queue holds one. -/
def Nq.entryFor (k : NoticeKind) (sub : NoticeSubject) (q : Nq) : Option Entry := q.queue.find? (Entry.isFor k sub)

/-- The entry for a kind and subject is removed. -/
def Nq.remove (k : NoticeKind) (sub : NoticeSubject) (q : Nq) : Nq :=
  { q with queue := q.queue.filter fun e => !e.isFor k sub }

/-- The entry may be cleared: a condition, seen, and no longer standing (R199). -/
def Entry.clearable (e : Entry) : Bool := e.content.kind.isCondition && e.seen && !e.content.standing

/-- CLEAR_NOTICE's effect and reply (R199). -/
def clearNotice (kind : Nat) (wire : WireSubject) (s : State) : State × Reply :=
  match NoticeKind.ofCode kind, noticeSubject wire with
  | some k, some sub => match s.nq.entryFor k sub with
    | none => (s, refusal .noSuch)
    | some e => if e.clearable then ({ s with nq := s.nq.remove k sub }, accept [] .none) else (s, refusal .state)
  | _, _ => (s, refusal .malformed)

/-- CLEAR_NOTICE. -/
def execClearNotice (h : ReqHead) (kind : BitVec 8) (sub : WireSubject) (s : State) : Host.Outcome State Fault Refusal :=
  .next (fixedRequest h 4 (clearNotice kind.toNat sub) s)

/-- READ_NOTICES's summary (R205). -/
def noticeSummary (q : Nq) : NoticeSummary :=
  let seen := q.queue.filter fun e => e.content.kind.isCondition && e.seen
  { kinds := noticeKinds.map fun k =>
      (q.priority k, decide (q.express = some k), (q.queue.filter fun e => decide (e.content.kind = k)).length)
    priorities := [0, 1, 2, 3].map fun p =>
      ((q.queue.filter fun e => decide (e.priority = p)).length,
        (q.queue.filter fun e => decide (e.priority = p) && e.eligible).length)
    seenConditions := seen.length
    seenStanding := (seen.filter fun e => e.content.standing).length
    slot := q.slot.map fun m => (m.content.kind, m.subject, m.seq)
    overflow := q.overflow
    lost := q.lost
    seq := q.seq }

/-- READ_NOTICES's reply (R205). -/
def readNotices (s : State) : State × Reply := (s, accept [] (.notices (noticeSummary s.nq)))

/-- READ_NOTICES. -/
def execReadNotices (h : ReqHead) (s : State) : Host.Outcome State Fault Refusal := .next (fixedRequest h 0 readNotices s)

end Sys2Proof.Machine
end

