-- ==== Sys2Proof/Machine/SnapReqs.lean ====
section
/-! DEFINITION. The requests of the Snapshot Catalog: TAKE_SNAPSHOT (R121), RELEASE_SNAPSHOT (R129), SET_KEEP (R131),
SET_RETENTION (R133), and its surveys (R142). -/

namespace Sys2Proof.Machine

/-- Check 4 of R121. -/
def takeFull (s : State) (v : Nat) (k : SnapKind) : Bool :=
  catalogFull s v || (reserveFlag s v && decide (k ≠ .nightly)) || epochExhausted s v

/-- TAKE_SNAPSHOT's effect and reply (R121). -/
def takeReq (v : Nat) (kind keep : BitVec 8) (s : State) : State × Reply :=
  match snapKindOf kind, yesNo keep with
  | some k, some b =>
    if 63 < v then (s, refusal .malformed)
    else if (volume s v).state = .unattached then (s, refusal .noSuch)
    else if (volume s v).state = .stale then (s, refusal .state)
    else if takeFull s v k then (s, refusal .full)
    else
      let t := takeSnap v k b s
      (t.1, accept [] (.taken t.2.1 t.2.2))
  | _, _ => (s, refusal .malformed)

/-- TAKE_SNAPSHOT. -/
def execTakeSnapshot (h : ReqHead) (v kind keep : BitVec 8) (s : State) : Host.Outcome State Fault Refusal :=
  .next (fixedRequest h 3 (takeReq v.toNat kind keep) s)

/-- RELEASE_SNAPSHOT's effect and reply (R129). -/
def releaseReq (id : Nat) (s : State) : State × Reply :=
  if id = 0 then (s, refusal .malformed)
  else match snap s id with
    | none => (s, refusal .noSuch)
    | some r =>
      if r.state ≠ .live then (s, refusal .state)
      else if 0 < r.pinCount then (s, refusal .inUse)
      else
        let x := releaseSnap .host id s
        (x.1, accept [] (.released x.2.passed x.2.freed))

/-- RELEASE_SNAPSHOT. -/
def execReleaseSnapshot (h : ReqHead) (id : BitVec 16) (s : State) : Host.Outcome State Fault Refusal :=
  .next (fixedRequest h 2 (releaseReq id.toNat) s)

/-- A record's keep is set; turned off on a LIVE record it brings the pressure test (R131). -/
def keepRecord (id : Nat) (r : Snap) (keep : Bool) (s : State) : State :=
  let s1 := setSnap id { r with keep := keep } s
  if r.keep && !keep && decide (r.state = .live) then pressureTest r.volume s1 else s1

/-- SET_KEEP's effect and reply (R131). -/
def keepReq (id : Nat) (keep : BitVec 8) (s : State) : State × Reply :=
  match yesNo keep with
  | none => (s, refusal .malformed)
  | some b =>
    if id = 0 then (s, refusal .malformed)
    else match snap s id with
      | none => (s, refusal .noSuch)
      | some r => if r.state = .dropping then (s, refusal .state) else (keepRecord id r b s, accept [] .none)

/-- SET_KEEP. -/
def execSetKeep (h : ReqHead) (id : BitVec 16) (keep : BitVec 8) (s : State) : Host.Outcome State Fault Refusal :=
  .next (fixedRequest h 3 (keepReq id.toNat keep) s)

/-- A retention rule takes new values. -/
def setRule (n : Nat) (r : Rule) (s : State) : State :=
  { s with sc := { s.sc with rules := tsetD Rule.cold s.sc.rules n r } }

/-- SET_RETENTION's effect and reply (R133). -/
def retentionReq (n : Nat) (valid : BitVec 8) (value mask : Nat) (kind : BitVec 8) (keepCount maxAge : Nat) (s : State) :
    State × Reply :=
  match yesNo valid, snapKindOf kind with
  | some b, some k =>
    if 7 < n ∨ 63 < value ∨ 63 < mask then (s, refusal .malformed)
    else
      let r : Rule := { valid := b, value := value, mask := mask, kind := k, keepCount := min keepCount 63, maxAge := maxAge }
      (setRule n r s, accept (clampedFields [(6, decide (r.keepCount ≠ keepCount))]) .none)
  | _, _ => (s, refusal .malformed)

/-- SET_RETENTION. -/
def execSetRetention (h : ReqHead) (n valid value mask kind : BitVec 8) (keepCount : BitVec 16) (maxAge : BitVec 32)
    (s : State) : Host.Outcome State Fault Refusal :=
  .next (fixedRequest h 11 (retentionReq n.toNat valid value.toNat mask.toNat kind keepCount.toNat maxAge.toNat) s)

/-- READ_SNAPSHOT's reply (R142). The order in flight is given as present or absent. -/
def readSnapshot (id : Nat) (s : State) : State × Reply :=
  if id = 0 then (s, refusal .malformed)
  else match snap s id with
    | none => (s, refusal .noSuch)
    | some r =>
      (s, accept [] (.snapshot id { r with inFlight := none } r.inFlight.isSome (holdTotal r.holds) (snapAge s r)))

/-- READ_SNAPSHOT. -/
def execReadSnapshot (h : ReqHead) (id : BitVec 16) (s : State) : Host.Outcome State Fault Refusal :=
  .next (fixedRequest h 2 (readSnapshot id.toNat) s)

/-- An entry of LIST_SNAPSHOTS (R142). -/
def snapLine (e : Nat × Snap) : SnapLine :=
  { id := e.1, epoch := e.2.epoch, kind := e.2.kind, state := e.2.state, keep := e.2.keep, pinCount := e.2.pinCount,
    entries := e.2.holds.length, blocks := holdTotal e.2.holds }

/-- Up to 32 records and whether more remain (R142). -/
def snapPage (l : List (Nat × Snap)) : Reply := accept [] (.snapshots ((l.take 32).map snapLine) (decide (32 < l.length)))

/-- LIST_SNAPSHOTS's reply (R142). -/
def listSnapshots (v start : Nat) (s : State) : State × Reply :=
  if 63 < v then (s, refusal .malformed)
  else if start = 0 then (s, snapPage (volumeSnaps s v))
  else match (volumeSnaps s v).find? fun e => e.1 = start with
    | none => (s, refusal .noSuch)
    | some x => (s, snapPage ((volumeSnaps s v).filter fun e => decide (x.2.epoch < e.2.epoch)))

/-- LIST_SNAPSHOTS. -/
def execListSnapshots (h : ReqHead) (v : BitVec 8) (start : BitVec 16) (s : State) : Host.Outcome State Fault Refusal :=
  .next (fixedRequest h 3 (listSnapshots v.toNat start.toNat) s)

/-- READ_RETENTION's reply (R142). -/
def readRetention (s : State) : State × Reply :=
  (s, accept [] (.retention (ruleNumbers.map (rule s)) ((attachedVolumes s).map fun v =>
    { volume := v, governing := [.hourly, .nightly, .manual].map (governingRule s v), reserveOver := reserveFlag s v })))

/-- READ_RETENTION. -/
def execReadRetention (h : ReqHead) (s : State) : Host.Outcome State Fault Refusal := .next (fixedRequest h 0 readRetention s)

end Sys2Proof.Machine
end

