-- ==== Sys2Proof/Machine/Pins.lean ====
section
/-! DEFINITION. The commands of the pins: cold reset and its release (R21), and the carriers of the nine ports (R1, R12,
R13). -/

namespace Sys2Proof.Machine

/-- A port's carrier indication. -/
def setCarrier (srv : Nat) (present : Bool) (s : State) : State :=
  { s with pins := { s.pins with
      serverCarrier := if present then setAdd srv s.pins.serverCarrier else setDel srv s.pins.serverCarrier } }

/-- A server port's receive side hunts (R4). -/
def huntServer (srv : Nat) (s : State) : State := setLink srv { link s srv with rx := .hunting } s

/-- The link's part of a carrier gained: a DOWN link goes to SYNCING (R13). -/
def linkGains (srv : Nat) (s : State) : State :=
  if (link s srv).state = .down then moveLink srv .syncing .carrierGained s else s

/-- The link's part of a carrier lost: to DOWN, leaving UP where it was UP; a held entry is not made (R13, R14). -/
def linkLoses (srv : Nat) (s : State) : State :=
  match (link s srv).state with
  | .down => s
  | .up => dropLink srv .down .carrierLost s
  | .syncing | .faulted => moveLink srv .down .carrierLost (setLink srv { link s srv with held := none } s)

/-- The part while the reset line is held: everything as after cold reset, the waiting commands and the carrier levels as
they are (R21). -/
def coldState (s : State) : State :=
  { State.reset with pending := s.pending, pins := { s.pins with resetHeld := true } }

/-- COLD_RESET: the reset line is asserted (R21). -/
def execColdReset (s : State) : Host.Outcome State Fault Refusal := .next (coldState s)

/-- The reset line is released: a carrier-gained event for every server port whose carrier is present (R21), from server 0
to 7 (log 46). -/
def releaseReset (s : State) : State :=
  (serverList.filter (carrier s)).foldl (fun s srv => linkGains srv s) { s with pins := { s.pins with resetHeld := false } }

/-- RESET_RELEASE (R21). -/
def execResetRelease (s : State) : Host.Outcome State Fault Refusal := .next (if s.pins.resetHeld then releaseReset s else s)

/-- A server port's carrier becomes present (R1, R4, R13). -/
def carrierGained (srv : Nat) (s : State) : State :=
  if carrier s srv then s
  else
    let s1 := setCarrier srv true s
    if s.pins.resetHeld then s1 else linkGains srv (huntServer srv s1)

/-- CARRIER_GAINED. -/
def execCarrierGained (srv : ServerId) (s : State) : Host.Outcome State Fault Refusal := .next (carrierGained srv.val s)

/-- A server port's carrier becomes absent (R1, R13). -/
def carrierLost (srv : Nat) (s : State) : State :=
  if carrier s srv then
    let s1 := setCarrier srv false s
    if s.pins.resetHeld then s1 else linkLoses srv (huntServer srv s1)
  else s

/-- CARRIER_LOST. -/
def execCarrierLost (srv : ServerId) (s : State) : Host.Outcome State Fault Refusal := .next (carrierLost srv.val s)

/-- The management carrier becomes present: the receive side starts hunting (R12). -/
def mgmtGained (s : State) : State :=
  if s.pins.mgmtCarrier then s else pump (mgmtHunt { s with pins := { s.pins with mgmtCarrier := true } })

/-- MGMT_CARRIER_GAINED. -/
def execMgmtCarrierGained (s : State) : Host.Outcome State Fault Refusal := .next (mgmtGained s)

/-- The frame in transmission is over: a reply ends its request's outstanding period (R7, R12). -/
def txOver (s : State) : State :=
  match s.lu.mgmtTx with
  | none => s
  | some (.reply _) => { s with lu := { s.lu.replyGone with mgmtTx := none } }
  | some (.busy _) => { s with lu := { s.lu with mgmtTx := none } }
  | some (.express _) => { s with lu := { s.lu with mgmtTx := none } }

/-- The management carrier becomes absent: the partly assembled frame is discarded, the partly transmitted frame counts as
transmitted, and every frame whose turn comes is discarded (R1, R12). -/
def mgmtLost (s : State) : State :=
  if s.pins.mgmtCarrier then pump (txOver (mgmtHunt { s with pins := { s.pins with mgmtCarrier := false } })) else s

/-- MGMT_CARRIER_LOST. -/
def execMgmtCarrierLost (s : State) : Host.Outcome State Fault Refusal := .next (mgmtLost s)

end Sys2Proof.Machine
end

