-- ==== Sys2Proof/WellFormed.lean ====
section
/-! DEFINITION. Which commands can be formed: what the operand types alone do not say of the frames and events. -/

namespace Sys2Proof

/-- A payload holds 0 to 1,024 bytes (R2). -/
def ReqHead.ok (h : ReqHead) : Bool := h.len.toNat ≤ 1024

/-- The characters of a bad-frame command report at least one bad frame and no good one, from hunting (R4). -/
def badFrameChars (cs : List RxChar) : Bool :=
  let evs := (rxRun .hunting cs).2
  evs.contains .bad && !evs.any RxEvent.isGood

/-- The kinds 64 to 103 are the request kinds (R11). -/
def isRequestKind (kind : BitVec 8) : Bool := 64 ≤ kind.toNat && kind.toNat ≤ 103

/-- A subject's index lies in the range of its kind (00_scope, Subjects and identifiers). -/
def Subject.inRange : Subject → Bool
  | .principal i => i ≤ 32767
  | .group i => i ≤ 1023

/-- A CHANGES frame holds 1 to 16 records (R52). -/
def changesOk (recs : List ChangeRecord) : Bool := 1 ≤ recs.length && recs.length ≤ 16

/-- A START_RESTORE whose payload length suits its extent count holds that many extents (R150). -/
def restoreOk (h : ReqHead) (count : BitVec 8) (extents : List ExtentField) : Bool :=
  h.len.toNat ≠ 7 + 20 * count.toNat || extents.length = count.toNat

/-- The target of GRANT_GRACE is a subject; the device subject with index 0 is GRANT_GRACE ALL's (R11). -/
def graceTargetOk (t : WireSubject) : Bool := t ≠ ⟨0, 0⟩

/-- The command can be formed. -/
def Instr.wf : Instr → Bool
  | .coldReset | .resetRelease | .carrierGained _ | .carrierLost _ | .mgmtCarrierGained | .mgmtCarrierLost => true
  | .mgmtBadFrame cs => badFrameChars cs
  | .mgmtFrameBusy _ => true
  | .unknownKind h kind => h.ok && !isRequestKind kind
  | .mgmtFrameSent | .serverFrameSent _ => true
  | .serverBadFrame _ cs => badFrameChars cs
  | .serverUnusableFrame _ _ _ len => len.toNat ≤ 1024
  | .hello _ | .resync _ | .reEnterUp _ | .idleReceived _ | .secondEvent | .silenceLimitReached _ | .minuteEvent => true
  | .graceExpired sub => sub.inRange
  | .nightlyTakes | .dupNightlyList | .sampleEvent | .trendVisit | .graceSweepVisit => true
  | .changes _ _ recs => changesOk recs
  | .intakeRecord _ => true
  | .denyAck _ _ | .allowAck _ _ | .snapDone _ _ | .snapFail _ _ _ | .dropSnapAck _ _ | .copyDone _ _
  | .copyFail _ _ _ | .shipDone _ _ | .shipFail _ _ _ => true
  | .warmRestart | .warmRestartEnd => true
  | .startRestore h _ _ _ _ count extents => h.ok && restoreOk h count extents
  | .grantGrace h t _ => h.ok && graceTargetOk t
  | .attachVolume h _ _ _ _ | .setVolume h _ _ _ _ _ | .detachVolume h _ | .readVolume h _ _ _ | .setSilence h _
  | .restart h | .setWindow h _ _ _ | .setSlotmask h _ _ | .setClock h _ _ | .readWindow h | .setTrend h _ _ _
  | .loadUsage h _ _ | .definePrincipal h _ _ _ | .defineGroup h _ | .setGroup h _ _ | .dropPrincipal h _
  | .dropGroup h _ | .setLimits h _ _ _ _ | .grantGraceAll h _ | .readPrincipal h _ | .readGroup h _
  | .takeSnapshot h _ _ _ | .releaseSnapshot h _ | .setKeep h _ _ | .setRetention h _ _ _ _ _ _ _
  | .readSnapshot h _ | .listSnapshots h _ _ | .readRetention h | .cancelRestore h _ | .readRestore h _
  | .startDup h _ | .haltDup h _ | .setBase h _ _ | .readDup h _ | .setNotice h _ _ _ | .fetchNotices h _
  | .clearNotice h _ _ | .readNotices h | .readLinks h => h.ok

end Sys2Proof
end

