-- ==== Sys2Proof/Machine/Frames.lean ====
section
/-! DEFINITION. The commands of frames beside requests: bad and refused management frames, frames sent, and what arrives on
a server link (R4 to R9, R13 to R17), the completions of orders and the change records. -/

namespace Sys2Proof.Machine

/-! ### Management link -/

/-- Characters reach the management port that make no good frame (R4, R5). -/
def mgmtChars (chars : List RxChar) (s : State) : State :=
  if mgmtReceives s then
    let r := rxRun s.lu.mgmtRx chars
    if r.2.any RxEvent.isGood then s else { s with lu := { s.lu with mgmtRx := r.1 } }
  else s

/-- MGMT_BAD_FRAME: no reply is sent (R5). -/
def execMgmtBadFrame (chars : List RxChar) (s : State) : Host.Outcome State Fault Refusal := .next (mgmtChars chars s)

/-- A good management frame of this tag meets a full reply list or a warm restart (R7, R9, R20). -/
def frameBusy (tag : BitVec 16) (s : State) : State :=
  if mgmtReceives s && mgmtBusy s then answerBusy tag (mgmtHunt s) else s

/-- MGMT_FRAME_BUSY. -/
def execMgmtFrameBusy (tag : BitVec 16) (s : State) : Host.Outcome State Fault Refusal := .next (frameBusy tag s)

/-- UNKNOWN_KIND: the kind is not a request kind, whatever the length (R5, R10). -/
def execUnknownKind (h : ReqHead) (kind : BitVec 8) (s : State) : Host.Outcome State Fault Refusal :=
  .next (if isRequestKind kind then s else request h true (fun s => (s, refusal .unknownKind)) s)

/-- The management transmit side finishes its frame and the next one starts (R9). -/
def mgmtSent (s : State) : State := if s.lu.mgmtTx.isSome then pump (txOver s) else s

/-- MGMT_FRAME_SENT. -/
def execMgmtFrameSent (s : State) : Host.Outcome State Fault Refusal := .next (mgmtSent s)

/-! ### Server links -/

/-- The frame at the head of a server link's transmit queue has been sent (R15, R17). -/
def serverSent (srv : Nat) (s : State) : State :=
  match (link s srv).txQueue with
  | [] => s
  | _ :: rest => setLink srv { link s srv with txQueue := rest, sentSince := true } s

/-- SERVER_FRAME_SENT. -/
def execServerFrameSent (srv : ServerId) (s : State) : Host.Outcome State Fault Refusal := .next (serverSent srv.val s)

/-- Characters reach a server port that make a bad frame and no good one: an UP link is faulted, its silence count left as it
stands (R4, R6, log 54). -/
def serverChars (srv : Nat) (chars : List RxChar) (s : State) : State :=
  if serverReceives s srv then
    let r := rxRun (link s srv).rx chars
    if r.2.any RxEvent.isGood then s
    else
      let s1 := setLink srv { link s srv with rx := r.1 } s
      if r.2.contains .bad && linkUp s srv && decide (s.lu.restart ≠ .inProgress) then protocolFault srv s1 else s1
  else s

/-- SERVER_BAD_FRAME. -/
def execServerBadFrame (srv : ServerId) (chars : List RxChar) (s : State) : Host.Outcome State Fault Refusal :=
  .next (serverChars srv.val chars s)

/-- The kind of order that a completion kind answers (R6). -/
def answeredKind (kind : Nat) : Option OrderKind :=
  match kind with
  | 9 | 10 => some .snap
  | 11 => some .dropSnap
  | 13 | 14 => some .copy
  | 16 | 17 => some .ship
  | 20 => some .deny
  | 21 => some .allow
  | _ => none

/-- The frame is a completion that names an outstanding order of another kind (R6, R16). -/
def wrongCompletion (s : State) (srv kind num : Nat) : Bool :=
  match answeredKind kind, (link s srv).orders.find? (fun o => o.num = num) with
  | some k, some o => decide (o.kind ≠ k)
  | _, _ => false

/-- A good frame is not usable in the link's state (R6). -/
def frameUnusable (s : State) (srv kind num len : Nat) : Bool :=
  match (link s srv).state with
  | .up => !serverLengthAllowed kind len || wrongCompletion s srv kind num
  | .syncing => !((decide (kind = 1) || decide (kind = 2)) && decide (len = 0))
  | .faulted => !(decide (kind = 2) && decide (len = 0))
  | .down => true

/-- A good frame that is not usable arrives: a protocol fault on an UP link, discarded elsewhere (R6). -/
def unusable (srv kind num len : Nat) (s : State) : State :=
  if frameUnusable s srv kind num len then serverFrame srv (protocolFault srv) s else s

/-- SERVER_UNUSABLE_FRAME. -/
def execServerUnusableFrame (srv : ServerId) (kind : BitVec 8) (tag len : BitVec 16) (s : State) :
    Host.Outcome State Fault Refusal := .next (unusable srv.val kind.toNat tag.toNat len.toNat s)

/-- HELLO arrives: taken in UP and SYNCING, discarded in FAULTED and during a warm restart (R6, R13, R14, R20). -/
def helloArrives (srv : Nat) (s : State) : State :=
  if !serverReceives s srv then s
  else
    let s1 := frameArrived srv s
    if s.lu.restart = .inProgress then s1
    else match (link s srv).state with
      | .up => reenterFromUp srv .hello s1
      | .syncing => enterFrom srv .hello s1
      | .down | .faulted => s1

/-- HELLO. -/
def execHello (srv : ServerId) (s : State) : Host.Outcome State Fault Refusal := .next (helloArrives srv.val s)

/-- RESYNC arrives: taken in UP, SYNCING and FAULTED, discarded during a warm restart (R6, R13, R14, R20). -/
def resyncArrives (srv : Nat) (s : State) : State :=
  if !serverReceives s srv then s
  else
    let s1 := frameArrived srv s
    if s.lu.restart = .inProgress then s1
    else match (link s srv).state with
      | .up => reenterFromUp srv .resync s1
      | .syncing | .faulted => enterFrom srv .resync s1
      | .down => s1

/-- RESYNC. -/
def execResync (srv : ServerId) (s : State) : Host.Outcome State Fault Refusal := .next (resyncArrives srv.val s)

/-- A held link enters UP once its intake has drained (R14). -/
def reEnter (srv : Nat) (s : State) : State :=
  match (link s srv).held with
  | none => s
  | some how => if (link s srv).state = .syncing ∧ (intake s srv).draining = false then enterUp srv how .up s else s

/-- RE_ENTER_UP. -/
def execReEnterUp (srv : ServerId) (s : State) : Host.Outcome State Fault Refusal := .next (reEnter srv.val s)

/-- IDLE_RECEIVED: on an UP link the silence count becomes 0 (R15). -/
def execIdleReceived (srv : ServerId) (s : State) : Host.Outcome State Fault Refusal := .next (serverFrame srv.val id s)

/-! ### Change intake -/

/-- CHANGES (R52, R55, R57). -/
def execChanges (srv : ServerId) (tag : BitVec 16) (recs : List ChangeRecord) (s : State) :
    Host.Outcome State Fault Refusal := .next (serverFrame srv.val (takeChanges srv.val tag.toNat recs) s)

/-- The record at the head of a server's intake queue is dealt with (R59). -/
def intakeNext (srv : Nat) (s : State) : State :=
  match (intake s srv).queue with
  | [] => s
  | q :: rest => dealWith srv q rest s

/-- INTAKE_RECORD. -/
def execIntakeRecord (srv : ServerId) (s : State) : Host.Outcome State Fault Refusal := .next (intakeNext srv.val s)

/-! ### Completions -/

/-- DENY_ACK (R109). -/
def execDenyAck (srv : ServerId) (num : BitVec 16) (s : State) : Host.Outcome State Fault Refusal :=
  .next (serverFrame srv.val (completion srv.val num.toNat .deny (takeAck srv.val num.toNat .deny)) s)

/-- ALLOW_ACK (R109). -/
def execAllowAck (srv : ServerId) (num : BitVec 16) (s : State) : Host.Outcome State Fault Refusal :=
  .next (serverFrame srv.val (completion srv.val num.toNat .allow (takeAck srv.val num.toNat .allow)) s)

/-- The SC takes a SNAP_DONE: the record becomes LIVE, SNAP_TAKEN is raised, the DC is told, and retention and the pressure
test follow (R122). -/
def snapLive (srv num : Nat) (s : State) : State :=
  match snapInFlight s srv num true with
  | none => s
  | some e =>
    let r := e.2
    let s1 := setSnap e.1 { r with state := .live, inFlight := none } s
    let s2 := notify (.snapshot e.1) (.snapTaken e.1 r.volume r.epoch r.kind r.keep (now s)) s1
    let s3 := { s2 with sc := { s2.sc with toDc := s2.sc.toDc ++ [.done r.volume e.1] } }
    pressureTest r.volume (takeRetention r.volume r.kind s3)

/-- SNAP_DONE: the SC's act, then the DC's and the CCA's (R122, R170). -/
def execSnapDone (srv : ServerId) (num : BitVec 16) (s : State) : Host.Outcome State Fault Refusal :=
  .next (serverFrame srv.val
    (completion srv.val num.toNat .snap fun s => grantAll (dcListen (snapLive srv.val num.toNat s))) s)

/-- The SC takes a SNAP_FAIL (R123). -/
def snapFails (srv num code : Nat) (s : State) : State :=
  match snapInFlight s srv num true with
  | none => s
  | some e => failTake e.1 e.2 (.server code) false s

/-- SNAP_FAIL (R123, R170). -/
def execSnapFail (srv : ServerId) (num : BitVec 16) (code : BitVec 8) (s : State) : Host.Outcome State Fault Refusal :=
  .next (serverFrame srv.val
    (completion srv.val num.toNat .snap fun s => grantAll (dcListen (snapFails srv.val num.toNat code.toNat s))) s)

/-- The SC takes a DROP_SNAP_ACK: the record leaves the catalog (R130). -/
def dropAcked (srv num : Nat) (s : State) : State :=
  match snapInFlight s srv num false with
  | none => s
  | some e => delSnap e.1 s

/-- DROP_SNAP_ACK. -/
def execDropSnapAck (srv : ServerId) (num : BitVec 16) (s : State) : Host.Outcome State Fault Refusal :=
  .next (serverFrame srv.val (completion srv.val num.toNat .dropSnap (dropAcked srv.val num.toNat)) s)

/-- The RSC takes a COPY_DONE: the credit returns, the extent is DONE and the job is tested for its end (R155). -/
def copyDone (srv num : Nat) (s : State) : State :=
  let s1 := returnRestore srv s
  match findExtent s1 srv num with
  | none => s1
  | some e => testRestoreEnd e.1 (setRestoreJob e.1 (e.2.onOrder num Extent.finish) s1)

/-- COPY_DONE. -/
def execCopyDone (srv : ServerId) (num : BitVec 16) (s : State) : Host.Outcome State Fault Refusal :=
  .next (serverFrame srv.val
    (completion srv.val num.toNat .copy fun s => grantAll (copyDone srv.val num.toNat s)) s)

/-- The RSC takes a COPY_FAIL (R156). -/
def copyFail (srv num : Nat) (reason : BitVec 8) (s : State) : State :=
  let s1 := returnRestore srv s
  match findExtent s1 srv num with
  | none => s1
  | some e =>
    testRestoreEnd e.1 (setRestoreJob e.1 (e.2.onOrder num (Extent.copyFailed e.2.state (copyFailReason reason))) s1)

/-- COPY_FAIL. -/
def execCopyFail (srv : ServerId) (num : BitVec 16) (reason : BitVec 8) (s : State) : Host.Outcome State Fault Refusal :=
  .next (serverFrame srv.val
    (completion srv.val num.toNat .copy fun s => grantAll (copyFail srv.val num.toNat reason s)) s)

/-- The DC takes a SHIP_DONE (R179). -/
def shipCompletes (srv num : Nat) (s : State) : State :=
  let s1 := returnShip srv s
  match findBatch s1 srv num with
  | none => s1
  | some e => shipDone e.1 e.2 s1

/-- SHIP_DONE. -/
def execShipDone (srv : ServerId) (num : BitVec 16) (s : State) : Host.Outcome State Fault Refusal :=
  .next (serverFrame srv.val
    (completion srv.val num.toNat .ship fun s => grantAll (shipCompletes srv.val num.toNat s)) s)

/-- The DC takes a SHIP_FAIL (R180). -/
def shipFails (srv num code : Nat) (s : State) : State :=
  let s1 := returnShip srv s
  match findBatch s1 srv num with
  | none => s1
  | some e => batchFailed e.1 (.server code) e.2 s1

/-- SHIP_FAIL. -/
def execShipFail (srv : ServerId) (num : BitVec 16) (code : BitVec 8) (s : State) : Host.Outcome State Fault Refusal :=
  .next (serverFrame srv.val
    (completion srv.val num.toNat .ship fun s => grantAll (shipFails srv.val num.toNat code.toNat s)) s)

end Sys2Proof.Machine
end

