-- ==== Sys2Proof/Machine/Steps.lean ====
section
/-! DEFINITION. The commands of time (R15, R22, R23, R103), the part's own steps (R84, R85, R99, R124, R169), and the warm
restart (R20, R48, R68, R113, R140, R164, R191, R203). -/

namespace Sys2Proof.Machine

/-! ### Time -/

/-- A second event; none comes while the reset line is held (R21, R22). -/
def secondComes (s : State) : State := if s.pins.resetHeld then s else secondTick s

/-- SECOND_EVENT. -/
def execSecondEvent (s : State) : Host.Outcome State Fault Refusal := .next (secondComes s)

/-- SILENCE_LIMIT_REACHED: the second event that brings the silence count of an UP link to the limit (R15, log 5). -/
def execSilenceLimitReached (srv : ServerId) (s : State) : Host.Outcome State Fault Refusal :=
  .next (if linkUp s srv.val && decide (s.lu.silenceLimit ≤ (link s srv.val).silence + 1) then secondComes s else s)

/-- MINUTE_EVENT: the sixtieth second event (R22, R23, log 5). -/
def execMinuteEvent (s : State) : Host.Outcome State Fault Refusal :=
  .next (if s.cwu.second + 1 = 60 then secondComes s else s)

/-- GRACE_EXPIRED: the minute event whose walk brings a listed subject's grace to 0 (R103, log 5). -/
def execGraceExpired (sub : Subject) (s : State) : Host.Outcome State Fault Refusal :=
  .next (if s.cwu.second + 1 = 60 ∧ s.qm.softList.contains sub ∧ (acct s sub).grace = 1 then secondComes s else s)

/-! ### Nightly work -/

/-- The outcome for one nightly volume (R124). -/
def nightlyTake (a : State × List NightlyItem) (v : Nat) : State × List NightlyItem :=
  let s := a.1
  let fail (why : SnapFailReason) : State × List NightlyItem :=
    (notifySnapFailed v 0 .nightly why s, a.2 ++ [{ volume := v, result := .error why }])
  if (volume s v).state = .stale then fail .stale
  else if catalogFull s v then fail .full
  else if epochExhausted s v then fail .epoch
  else
    let t := takeSnap v .nightly false s
    (t.1, a.2 ++ [{ volume := v, result := .ok t.2.1 }])

/-- The volumes with nightly on, in rising order. -/
def nightlyVolumes (s : State) : List Nat := (s.vt.filter fun e => e.2.nightly).map Prod.fst

/-- A window open reaches the SC: the nightly takes, and their list for the DC (R26, R124). -/
def nightlyRound (s : State) : State :=
  if s.sc.opensDue = 0 then s
  else
    let r := (nightlyVolumes s).foldl nightlyTake ({ s with sc := { s.sc with opensDue := s.sc.opensDue - 1 } }, [])
    if r.2 = [] then r.1 else { r.1 with sc := { r.1.sc with toDc := r.1.sc.toDc ++ [.list r.2] } }

/-- NIGHTLY_TAKES. -/
def execNightlyTakes (s : State) : Host.Outcome State Fault Refusal := .next (nightlyRound s)

/-- The DC takes the catalog's list, then what the catalog handed over after it (R169, R170). While a warm restart is in
progress the list waits, for the part of the DC ends with every job place empty (R191, log 41). -/
def nightlyList (s : State) : State :=
  if s.lu.restart = .inProgress then s
  else match s.sc.toDc with
  | .list items :: rest =>
    grantAll (dcListen (items.foldl nightlyItem { s with sc := { s.sc with toDc := rest } }))
  | _ => s

/-- DUP_NIGHTLY_LIST. -/
def execDupNightlyList (s : State) : Host.Outcome State Fault Refusal := .next (nightlyList s)

/-! ### Sweeps -/

/-- A sample event starts a sweep, or is skipped while one runs (R84). -/
def sampleComes (s : State) : State :=
  if s.ce.due = 0 then s
  else match s.ce.sweep with
    | none => { s with ce := { s.ce with due := s.ce.due - 1, sweep := some { pos := 1, k := s.ce.k, w := s.ce.w } } }
    | some _ => { s with ce := { s.ce with due := s.ce.due - 1, skipped := satAdd top16 s.ce.skipped 1 } }

/-- SAMPLE_EVENT. -/
def execSampleEvent (s : State) : Host.Outcome State Fault Refusal := .next (sampleComes s)

/-- The keys of the defined subjects in sweep order: principals, then groups, ascending (R84, R99). -/
def definedKeys (s : State) : List Nat :=
  (s.book.principals.filter fun e => e.2.defined).map Prod.fst
    ++ (s.book.groups.filter fun e => e.2.defined).map fun e => subjectKey (.group e.1)

/-- The next defined subject at or after a sweep's position. -/
def nextDefined (s : State) (pos : Nat) : Option Nat := (definedKeys s).find? fun k => pos ≤ k

/-- The position after group 1,023. -/
def sweepEnd : Nat := 33792

/-- The APPROACH notice of a visited subject (R87); the account is the one after the visit. -/
def notifyApproach (key : Nat) (a : Account) (s : State) : State :=
  notify (subjectNotice (subjectOfKey key)) (.approach a.trend.p a.trend.q (loadOf a) (h16Of a) a.state (now s)) s

/-- The running sample sweep makes its next visit, or ends (R84, R85, R87). -/
def visitNext (s : State) : State :=
  match s.ce.sweep with
  | none => s
  | some w => match nextDefined s w.pos with
    | none => { s with ce := { s.ce with sweep := none } }
    | some key =>
      let a := acct s (subjectOfKey key)
      let b := visitAccount w.k w.w a
      let s1 := setAcct (subjectOfKey key) b s
      let s2 := { s1 with ce := { s1.ce with sweep := if sweepEnd ≤ key + 1 then none else some { w with pos := key + 1 } } }
      if raisesApproach w.w b.trend.p a then notifyApproach key b s2 else s2

/-- TREND_VISIT. -/
def execTrendVisit (s : State) : Host.Outcome State Fault Refusal := .next (visitNext s)

/-- The running grace sweep makes its next visit, or ends (R99). -/
def graceVisitNext (s : State) : State :=
  match s.qm.sweep with
  | none => s
  | some w => match nextDefined s w.pos with
    | none => { s with qm := { s.qm with sweep := none } }
    | some key =>
      let sub := subjectOfKey key
      let s1 := setAcct sub { acct s sub with grace := w.minutes } s
      let s2 := { s1 with qm := { s1.qm with sweep := if sweepEnd ≤ key + 1 then none else some { w with pos := key + 1 } } }
      evaluate .grace sub s2

/-- GRACE_SWEEP_VISIT. -/
def execGraceSweepVisit (s : State) : Host.Outcome State Fault Refusal := .next (graceVisitNext s)

/-! ### Warm restart -/

/-- The NQ's part: queue and express slot emptied, mark and lost count cleared (R203). -/
def nqRestart (s : State) : State :=
  { s with nq := { s.nq with queue := [], slot := none, overflow := false, lost := 0 } }

/-- The RSC aborts its jobs: last end records ABORTED, every slot free, the acceptance list empty (R164). -/
def rscRestart (s : State) : State :=
  { s with
    rsc := { jobs := [], lastEnd := s.rsc.jobs.foldl (fun t e => tput t e.1 (endRecord s e.2 .aborted)) s.rsc.lastEnd }
    cca := { s.cca with acceptance := [] } }

/-- The DC aborts its jobs: last end records HALTED, every job place empty, every candidate withdrawn (R191). -/
def dcRestart (s : State) : State :=
  let ends := s.dc.jobs.foldl
    (fun t e => tput t e.1 (dupEndOf s .halted (baseEpoch s e.1) (baseEpoch s e.1) e.2)) s.dc.lastEnd
  presentAll { s with dc := { s.dc with jobs := [], lastEnd := ends } }

/-- One server link's part: UP and FAULTED go to SYNCING with reason RESTART, with no LINK_STATE; a held entry is not made;
the intake queue is emptied (R14, R20, R68). DESIGN CHOICE, unsafe (log 67): the links leave UP one by one, so a backlogged
subject that one leaving admits (R110) has its DENY handed to the links still UP (R108), which then leave in their turn; the
order is failed back, and the order number counter that it advanced is kept (R16). R113 leaves open whether it is handed. -/
def linkRestart (s : State) (srv : Nat) : State :=
  let s1 := match (link s srv).state with
    | .up => leaveUp srv .syncing .restart true s
    | .faulted => changeLink srv .syncing .restart s
    | .down | .syncing => s
  intakeRestart srv (setLink srv { link s1 srv with held := none } s1)

/-- The reservations of the aborted restore jobs are released (R83, R164), with no link UP any more (log 67). -/
def restartReleases (jobs : Tab RestoreJob) (s : State) : State :=
  jobs.foldl (fun s e => release e.2.principal e.2.remaining s) s

/-- The pins of the aborted jobs are given back (R140): the restore jobs' in slot order, then the duplication jobs' in volume
order (log 14). -/
def restartUnpins (jobs : Tab RestoreJob) (dups : Tab DupJob) (s : State) : State :=
  dups.foldl (fun s e => unpin e.2.target s) (jobs.foldl (fun s e => unpin e.2.snapshot s) s)

/-- VOLUME_STALE with reason RESTART for every STALE volume (R48), in rising order (log 47). Its part time is that of the
restart, for a volume that was STALE before it too (log 62). -/
def restartStales (s : State) : State :=
  ((s.vt.filter fun e => e.2.state = .stale).map Prod.fst).foldl (fun s v => notifyStale v true .stale .restart s) s

/-- ENFORCE_BACKLOG if the backlog is not empty (R113), tested when the backlog has fed the freed places (log 68). -/
def restartBacklog (s : State) : State := if s.et.backlog = [] then s else notifyBacklog true s

/-- RESERVE_OVER for every volume whose flag is set (R140), in rising order (log 47). -/
def restartReserves (s : State) : State := s.sc.reserveOver.foldl (fun s v => notifyReserve v true s) s

/-- RESTORE_DONE with outcome ABORTED for each aborted job, in slot order (R164). -/
def restartDones (jobs : Tab RestoreJob) (s : State) : State :=
  jobs.foldl (fun s e => restoreDone e.1 e.2 .aborted (now s) s) s

/-- DUP_STATE with reason HALTED and cause RESTART for each aborted job, in volume order (R191). -/
def restartDups (dups : Tab DupJob) (s : State) : State :=
  dups.foldl (fun s e =>
    dupNotice e.1 (dupEndOf s .halted (baseEpoch s e.1) (baseEpoch s e.1) e.2) .restart e.2.lastFailure s) s

/-- The notices that the blocks raise once the NQ has been emptied (R203). -/
def restartNotices (jobs : Tab RestoreJob) (dups : Tab DupJob) (s : State) : State :=
  restartDups dups (restartDones jobs (restartReserves (restartBacklog (restartStales s))))

/-- A warm restart: every block's part, in one order (R20, log 14), the links one by one from server 0 to 7 (log 46, log
67). -/
def warmRestart (s : State) : State :=
  let jobs := s.rsc.jobs
  let dups := s.dc.jobs
  let s1 := dcRestart (rscRestart (nqRestart { s with lu := { s.lu with restart := .inProgress } }))
  let s2 := restartUnpins jobs dups (restartReleases jobs (serverList.foldl linkRestart s1))
  presentAll (restartNotices jobs dups s2)

/-- WARM_RESTART: it begins when RESTART's reply has gone (R20). Until this command comes, other commands are as before
RESTART's reply, server frames too (log 56). -/
def execWarmRestart (s : State) : Host.Outcome State Fault Refusal :=
  .next (if s.lu.restart = .due then warmRestart s else s)

/-- WARM_RESTART_END: every block has completed its part and requests are taken again (R20). -/
def execWarmRestartEnd (s : State) : Host.Outcome State Fault Refusal :=
  .next (if s.lu.restart = .inProgress then { s with lu := { s.lu with restart := .none } } else s)

end Sys2Proof.Machine
end

