-- ==== Sys2Proof/Machine/VolumeReqs.lean ====
section
/-! DEFINITION. The requests of the Volume Table and the Link Unit: ATTACH_VOLUME, SET_VOLUME, DETACH_VOLUME, READ_VOLUME
(R36 to R42, R50), SET_SILENCE (R15), RESTART (R20) and READ_LINKS (R69, R206). -/

namespace Sys2Proof.Machine

/-! ### ATTACH_VOLUME -/

/-- The quotient rounded up. -/
def ceilDiv (a b : Nat) : Nat := (a + b - 1) / b

/-- regionBlocks: the smallest power of two that is at least 256 and at least ceil(size / 4,096) (R36). -/
def regionBlocksFor (size : Nat) : Nat :=
  (((List.range 15).map fun i => 256 * 2 ^ i).find? fun b => ceilDiv size 4096 ≤ b).getD 4194304

/-- regionCount (R36). -/
def regionCountFor (size : Nat) : Nat := ceilDiv size (regionBlocksFor size)

/-- Check 1 of R38. -/
def attachInRange (v srv size weight : Nat) : Bool :=
  decide (v ≤ 63) && decide (srv ≤ 7) && decide (4096 ≤ size) && decide (size ≤ 17179869184) && decide (16 ≤ weight)
    && decide (weight ≤ 64)

/-- The record that an attach makes (R38). -/
def attachedRecord (s : State) (srv size weight : Nat) : Volume :=
  { Volume.none with
    state := if linkUp s srv then .attached else .stale
    server := srv
    size := size
    weight := weight
    regionBlocks := regionBlocksFor size
    regionCount := regionCountFor size
    epoch := 1 }

/-- ATTACH_VOLUME's effect and reply (R38). -/
def attachVolume (v srv size weight : Nat) (s : State) : State × Reply :=
  if !attachInRange v srv size weight then (s, refusal .malformed)
  else if (volume s v).state ≠ .unattached then (s, refusal .state)
  else
    let r := attachedRecord s srv size weight
    let s1 := setVolume v r s
    (if r.state = .stale then notifyStale v true .stale .link s1 else s1,
      accept [] (.attached r.state r.regionBlocks r.regionCount r.epoch))

/-- ATTACH_VOLUME. -/
def execAttachVolume (h : ReqHead) (vol server : BitVec 8) (size : BitVec 64) (weight : BitVec 8) (s : State) :
    Host.Outcome State Fault Refusal :=
  .next (fixedRequest h 11 (attachVolume vol.toNat server.toNat size.toNat weight.toNat) s)

/-! ### SET_VOLUME -/

/-- The volume has a record in the snapshot catalog. -/
def hasSnaps (s : State) (v : Nat) : Bool := s.sc.records.any fun e => decide (e.2.volume = v)

/-- The volume is named by a restore job. -/
def hasRestore (s : State) (v : Nat) : Bool := s.rsc.jobs.any fun e => decide (e.2.volume = v)

/-- The volume is named by a duplication job. -/
def namesDup (s : State) (v : Nat) : Bool := (dupJob s v).isSome

/-- A setting, present with a value, that differs from the current one. -/
def changes (x : Option Nat) (current : Nat) : Bool :=
  match x with
  | none => false
  | some n => decide (n ≠ current)

/-- Check 1 of R39 on the weight. -/
def weightInRange (x : Option Nat) : Bool :=
  match x with
  | none => true
  | some n => decide (16 ≤ n) && decide (n ≤ 64)

/-- A present value lies at most at a bound. -/
def atMost (top : Nat) (x : Option Nat) : Bool :=
  match x with
  | none => true
  | some n => decide (n ≤ top)

/-- The volume's record with the settings that are present (R39). -/
def withSettings (w l g n : Option Nat) (r : Volume) : Volume :=
  { r with
    weight := w.getD r.weight
    reserveLimit := min top40 (l.getD r.reserveLimit)
    dupGroup := g.getD r.dupGroup
    nightly := match n with
      | none => r.nightly
      | some x => decide (x = 1) }

/-- SET_VOLUME's effect and reply on settings read from the request (R39, R40). -/
def applySettings (v : Nat) (w l g n : Option Nat) (s : State) : State × Reply :=
  let r := volume s v
  if 63 < v ∨ weightInRange w = false ∨ atMost 7 g = false ∨ atMost 1 n = false then (s, refusal .malformed)
  else if r.state = .unattached then (s, refusal .noSuch)
  else if changes w r.weight && (hasSnaps s v || hasRestore s v || namesDup s v) then (s, refusal .inUse)
  else if changes g r.dupGroup && ((dupJob s v).map DupJob.state = some .shipping) then (s, refusal .inUse)
  else
    let r' := withSettings w l g n r
    let s1 := setVolume v r' s
    (if r'.reserveLimit ≠ r.reserveLimit then pressureTest v s1 else s1,
      accept (clampedFields [(3, !atMost top40 l)]) (.settings r'.weight r'.reserveLimit r'.dupGroup r'.nightly))

/-- SET_VOLUME's effect and reply: a presence byte out of range is MALFORMED (R11, R39). -/
def setVolumeReq (v : Nat) (weight : Setting 8) (limit : Setting 64) (group nightly : Setting 8) (s : State) : State × Reply :=
  match settingOf weight, settingOf limit, settingOf group, settingOf nightly with
  | some w, some l, some g, some n => applySettings v w l g n s
  | _, _, _, _ => (s, refusal .malformed)

/-- SET_VOLUME. -/
def execSetVolume (h : ReqHead) (vol : BitVec 8) (weight : Setting 8) (limit : Setting 64) (group nightly : Setting 8)
    (s : State) : Host.Outcome State Fault Refusal :=
  .next (fixedRequest h 16 (setVolumeReq vol.toNat weight limit group nightly) s)

/-! ### DETACH_VOLUME -/

/-- DETACH_VOLUME's effect: the catalog's records of the volume go, with its reserveOver flag, the record returns to its
UNATTACHED values, and a STALE volume's condition falls (R42, R138). RESERVE_OVER gives the values, and the number of pinned or
kept records, from before the removal (log 17). VOLUME_STALE names the server that the volume had before (R47, log 63). -/
def detachRecord (v : Nat) (s : State) : State :=
  let r := volume s v
  let s1 := if reserveFlag s v then clearReserve v s else s
  let s2 := { s1 with sc := { s1.sc with records := s1.sc.records.filter fun e => e.2.volume ≠ v } }
  let s3 := setVolume v Volume.none s2
  if r.state = .stale then
    notify (.volume v) (.volumeStale false r.server .unattached .detached (now s)) s3
  else s3

/-- DETACH_VOLUME's effect and reply (R41, R42). -/
def detachVolume (v : Nat) (s : State) : State × Reply :=
  if 63 < v then (s, refusal .malformed)
  else if (volume s v).state = .unattached then (s, refusal .noSuch)
  else if hasRestore s v || namesDup s v then (s, refusal .inUse)
  else
    (detachRecord v s, accept [] (.detachedChargesKept (s.sc.records.filter fun e => e.2.volume = v).length))

/-- DETACH_VOLUME. -/
def execDetachVolume (h : ReqHead) (vol : BitVec 8) (s : State) : Host.Outcome State Fault Refusal :=
  .next (fixedRequest h 1 (detachVolume vol.toNat) s)

/-! ### READ_VOLUME -/

/-- The marks of `n` regions from `first` on, up to the last region (R50). -/
def regionMarks (r : Volume) (first n : Nat) : List Nat :=
  (List.range (min n (r.regionCount - first))).map fun i => tgetD 0 r.marks (first + i)

/-- READ_VOLUME's reply (R50). The record is given without its map. -/
def readVolume (v first n : Nat) (s : State) : State × Reply :=
  if 63 < v ∨ 192 < n then (s, refusal .malformed)
  else
    let r := volume s v
    (s, accept [] (.volume { r with marks := [] } (regionMib r) (baseEpoch s v)
      (shipSet r 0 0).length (shipSet r (baseEpoch s v) 0).length (regionMarks r first n)))

/-- READ_VOLUME. -/
def execReadVolume (h : ReqHead) (vol : BitVec 8) (first : BitVec 16) (count : BitVec 8) (s : State) :
    Host.Outcome State Fault Refusal :=
  .next (fixedRequest h 4 (readVolume vol.toNat first.toNat count.toNat) s)

/-! ### Link Unit -/

/-- SET_SILENCE's effect and reply (R15). -/
def setSilence (limit : Nat) (s : State) : State × Reply :=
  let l := clampTo 1 60 limit
  ({ s with lu := { s.lu with silenceLimit := l } }, accept (clampedFields [(1, decide (l ≠ limit))]) .none)

/-- SET_SILENCE. -/
def execSetSilence (h : ReqHead) (limit : BitVec 16) (s : State) : Host.Outcome State Fault Refusal :=
  .next (fixedRequest h 2 (setSilence limit.toNat) s)

/-- RESTART's effect and reply: from now on every good frame is answered BUSY (R20). -/
def takeRestart (s : State) : State × Reply :=
  ({ s with lu := { s.lu with restart := .taken } }, accept [] .none)

/-- RESTART. -/
def execRestart (h : ReqHead) (s : State) : Host.Outcome State Fault Refusal := .next (fixedRequest h 0 takeRestart s)

/-- One server of READ_LINKS (R69, R206). -/
def linkView (s : State) (srv : Nat) : LinkView :=
  let l := link s srv
  let i := intake s srv
  { state := l.state, reason := l.reason, changed := l.changed, silence := l.silence, orders := l.orders.length,
    next := i.next, unack := i.unack, queueLength := i.queue.length, draining := i.draining, taken := i.taken,
    rejected := i.rejected, duplicates := i.duplicates }

/-- READ_LINKS's reply (R206). The survey is itself one of the requests outstanding (R7). The LU's and the CIU's parts are read
at one moment (R204, log 64). -/
def readLinks (s : State) : State × Reply :=
  (s, accept [] (.links s.lu.silenceLimit (serverList.map (linkView s)) s.pins.mgmtCarrier (s.lu.replies.length + 1)
    s.lu.busy.length))

/-- READ_LINKS. -/
def execReadLinks (h : ReqHead) (s : State) : Host.Outcome State Fault Refusal := .next (fixedRequest h 0 readLinks s)

end Sys2Proof.Machine
end

