-- ==== Sys2Proof/Machine/Dispatch.lean ====
section
/-! DEFINITION. One arm per command, each a direct call of its meaning. -/

namespace Sys2Proof.Machine

/-- The effect of a command on everything but the queue. -/
def exec (i : Instr) (s : State) : Host.Outcome State Fault Refusal :=
  match i with
  | .coldReset => Sys2Proof.Machine.execColdReset s
  | .resetRelease => Sys2Proof.Machine.execResetRelease s
  | .carrierGained srv => Sys2Proof.Machine.execCarrierGained srv s
  | .carrierLost srv => Sys2Proof.Machine.execCarrierLost srv s
  | .mgmtCarrierGained => Sys2Proof.Machine.execMgmtCarrierGained s
  | .mgmtCarrierLost => Sys2Proof.Machine.execMgmtCarrierLost s
  | .mgmtBadFrame chars => Sys2Proof.Machine.execMgmtBadFrame chars s
  | .mgmtFrameBusy tag => Sys2Proof.Machine.execMgmtFrameBusy tag s
  | .unknownKind h kind => Sys2Proof.Machine.execUnknownKind h kind s
  | .mgmtFrameSent => Sys2Proof.Machine.execMgmtFrameSent s
  | .serverFrameSent srv => Sys2Proof.Machine.execServerFrameSent srv s
  | .serverBadFrame srv chars => Sys2Proof.Machine.execServerBadFrame srv chars s
  | .serverUnusableFrame srv kind tag len => Sys2Proof.Machine.execServerUnusableFrame srv kind tag len s
  | .hello srv => Sys2Proof.Machine.execHello srv s
  | .resync srv => Sys2Proof.Machine.execResync srv s
  | .reEnterUp srv => Sys2Proof.Machine.execReEnterUp srv s
  | .idleReceived srv => Sys2Proof.Machine.execIdleReceived srv s
  | .secondEvent => Sys2Proof.Machine.execSecondEvent s
  | .silenceLimitReached srv => Sys2Proof.Machine.execSilenceLimitReached srv s
  | .minuteEvent => Sys2Proof.Machine.execMinuteEvent s
  | .graceExpired sub => Sys2Proof.Machine.execGraceExpired sub s
  | .nightlyTakes => Sys2Proof.Machine.execNightlyTakes s
  | .dupNightlyList => Sys2Proof.Machine.execDupNightlyList s
  | .sampleEvent => Sys2Proof.Machine.execSampleEvent s
  | .trendVisit => Sys2Proof.Machine.execTrendVisit s
  | .graceSweepVisit => Sys2Proof.Machine.execGraceSweepVisit s
  | .changes srv tag recs => Sys2Proof.Machine.execChanges srv tag recs s
  | .intakeRecord srv => Sys2Proof.Machine.execIntakeRecord srv s
  | .denyAck srv num => Sys2Proof.Machine.execDenyAck srv num s
  | .allowAck srv num => Sys2Proof.Machine.execAllowAck srv num s
  | .snapDone srv num => Sys2Proof.Machine.execSnapDone srv num s
  | .snapFail srv num code => Sys2Proof.Machine.execSnapFail srv num code s
  | .dropSnapAck srv num => Sys2Proof.Machine.execDropSnapAck srv num s
  | .copyDone srv num => Sys2Proof.Machine.execCopyDone srv num s
  | .copyFail srv num reason => Sys2Proof.Machine.execCopyFail srv num reason s
  | .shipDone srv num => Sys2Proof.Machine.execShipDone srv num s
  | .shipFail srv num code => Sys2Proof.Machine.execShipFail srv num code s
  | .warmRestart => Sys2Proof.Machine.execWarmRestart s
  | .warmRestartEnd => Sys2Proof.Machine.execWarmRestartEnd s
  | .attachVolume h volume server size weight => Sys2Proof.Machine.execAttachVolume h volume server size weight s
  | .setVolume h volume weight reserveLimit dupGroup nightly => Sys2Proof.Machine.execSetVolume h volume weight reserveLimit dupGroup nightly s
  | .detachVolume h volume => Sys2Proof.Machine.execDetachVolume h volume s
  | .readVolume h volume first count => Sys2Proof.Machine.execReadVolume h volume first count s
  | .setSilence h limit => Sys2Proof.Machine.execSetSilence h limit s
  | .restart h => Sys2Proof.Machine.execRestart h s
  | .setWindow h start length capacity => Sys2Proof.Machine.execSetWindow h start length capacity s
  | .setSlotmask h group mask => Sys2Proof.Machine.execSetSlotmask h group mask s
  | .setClock h partTime minute => Sys2Proof.Machine.execSetClock h partTime minute s
  | .readWindow h => Sys2Proof.Machine.execReadWindow h s
  | .setTrend h t k w => Sys2Proof.Machine.execSetTrend h t k w s
  | .loadUsage h principal usage => Sys2Proof.Machine.execLoadUsage h principal usage s
  | .definePrincipal h principal userNumber group => Sys2Proof.Machine.execDefinePrincipal h principal userNumber group s
  | .defineGroup h group => Sys2Proof.Machine.execDefineGroup h group s
  | .setGroup h principal group => Sys2Proof.Machine.execSetGroup h principal group s
  | .dropPrincipal h principal => Sys2Proof.Machine.execDropPrincipal h principal s
  | .dropGroup h group => Sys2Proof.Machine.execDropGroup h group s
  | .setLimits h subject soft hard band => Sys2Proof.Machine.execSetLimits h subject soft hard band s
  | .grantGrace h target minutes => Sys2Proof.Machine.execGrantGrace h target minutes s
  | .grantGraceAll h minutes => Sys2Proof.Machine.execGrantGraceAll h minutes s
  | .readPrincipal h principal => Sys2Proof.Machine.execReadPrincipal h principal s
  | .readGroup h group => Sys2Proof.Machine.execReadGroup h group s
  | .takeSnapshot h volume kind keep => Sys2Proof.Machine.execTakeSnapshot h volume kind keep s
  | .releaseSnapshot h id => Sys2Proof.Machine.execReleaseSnapshot h id s
  | .setKeep h id keep => Sys2Proof.Machine.execSetKeep h id keep s
  | .setRetention h rule valid value mask kind keepCount maxAge => Sys2Proof.Machine.execSetRetention h rule valid value mask kind keepCount maxAge s
  | .readSnapshot h id => Sys2Proof.Machine.execReadSnapshot h id s
  | .listSnapshots h volume start => Sys2Proof.Machine.execListSnapshots h volume start s
  | .readRetention h => Sys2Proof.Machine.execReadRetention h s
  | .startRestore h snapshot principal mode priority count extents => Sys2Proof.Machine.execStartRestore h snapshot principal mode priority count extents s
  | .cancelRestore h job => Sys2Proof.Machine.execCancelRestore h job s
  | .readRestore h job => Sys2Proof.Machine.execReadRestore h job s
  | .startDup h volume => Sys2Proof.Machine.execStartDup h volume s
  | .haltDup h volume => Sys2Proof.Machine.execHaltDup h volume s
  | .setBase h volume snapshot => Sys2Proof.Machine.execSetBase h volume snapshot s
  | .readDup h volume => Sys2Proof.Machine.execReadDup h volume s
  | .setNotice h kind priority express => Sys2Proof.Machine.execSetNotice h kind priority express s
  | .fetchNotices h maximum => Sys2Proof.Machine.execFetchNotices h maximum s
  | .clearNotice h kind subject => Sys2Proof.Machine.execClearNotice h kind subject s
  | .readNotices h => Sys2Proof.Machine.execReadNotices h s
  | .readLinks h => Sys2Proof.Machine.execReadLinks h s

end Sys2Proof.Machine
end

