-- ==== Sys2Proof/Config.lean ====
section
/-! DEFINITION. What the manual leaves to the part and states nowhere: free values, with no body, so that no proof can
see what they are. They reach only the bytes of frames towards the host (Machine/Formats.lean), never the state. -/

namespace Sys2Proof.Config

/-- A state, reason or other code that a notice carries in one byte (R202) and to which the manual gives no number. -/
inductive CodeName where
  | quotaState (v : Machine.QuotaState)
  | quotaCause (v : Machine.QuotaCause)
  | breachOf (v : Machine.BreachOf)
  | failReason (v : Machine.SnapFailReason)
  | releaseReason (v : Machine.ReleaseReason)
  | restoreOutcome (v : Machine.RestoreOutcome)
  | dupReason (v : Machine.DupReason)
  | dupCause (v : Machine.DupCause)
  | windowTransition (opening : Bool)
  | windowCause (v : Machine.WindowCause)
  | linkState (v : Machine.LinkState)
  | linkReason (v : Machine.LinkReason)
  | volState (v : Machine.VolState)
  | staleReason (v : Machine.StaleReason)
  deriving DecidableEq, Repr

/-- The byte that stands for a code in a notice's content: the manual numbers none of these (log 19). -/
opaque codeByte : CodeName → Byte

/-- The flags byte of a notice from its class (true for a condition), standing, seen and express: the manual names the four
flags of R202 and gives none of them a bit position (log 21). -/
opaque flagsByte : (condition standing seen express : Bool) → Byte

/-- The bytes of a reply's results where the manual lists their fields but no widths (log 20). -/
opaque resultBytes : Machine.Results → List Byte

end Sys2Proof.Config
end

