-- ==== Sys2Proof/Machine/Formats.lean ====
section
/-! DEFINITION. The bytes of the frames that the part sends: orders and acknowledgements to the servers (R14, R53, R105,
R120, R153, R177), replies and BUSY answers (R8 to R10), EXPRESS frames and notices (R202). What the manual leaves without
a number comes from Config (log 19, 20, 21). -/

namespace Sys2Proof.Machine

/-! ### Frames to servers -/

/-- The code of a verdict (R59). -/
def Verdict.code : Verdict → Nat
  | .reassigned => 1
  | .duplicate => 2
  | .format => 16
  | .count => 17
  | .noVolume => 18
  | .range => 19
  | .crosses => 20
  | .birth => 21

/-- A subject in DENY and ALLOW: kind 1 principal, 2 group, then the index (R105). -/
def denySubjectBytes : Subject → List Byte
  | .principal i => leBytes 1 1 ++ leBytes 2 i
  | .group i => leBytes 1 2 ++ leBytes 2 i

/-- The payload of an order (R105, R120, R153, R177). -/
def OrderBody.payload : OrderBody → List Byte
  | .snap v id e k => leBytes 2 v ++ leBytes 2 id ++ leBytes 4 e ++ leBytes 1 (snapKindCode k)
  | .dropSnap v id e => leBytes 2 v ++ leBytes 2 id ++ leBytes 4 e
  | .copy job mode v id p user e count source dest =>
    leBytes 1 job ++ leBytes 1 (restoreModeCode mode) ++ leBytes 2 v ++ leBytes 2 id ++ leBytes 2 p ++ leBytes 4 user
      ++ leBytes 4 e ++ leBytes 4 count ++ leBytes 8 source ++ leBytes 8 dest
  | .ship v target te be rb regions =>
    leBytes 2 v ++ leBytes 2 target ++ leBytes 4 te ++ leBytes 4 be ++ leBytes 4 rb ++ leBytes 1 regions.length
      ++ regions.flatMap (leBytes 2)
  | .deny sub user => denySubjectBytes sub ++ leBytes 4 user
  | .allow sub user => denySubjectBytes sub ++ leBytes 4 user

/-- The frame kind of an order (R11). -/
def OrderBody.frameKind : OrderBody → Byte
  | .snap .. => 7
  | .dropSnap .. => 8
  | .copy .. => 12
  | .ship .. => 15
  | .deny .. => 18
  | .allow .. => 19

/-- A frame of a server link's transmit queue as the envelope carries it (R2, R14, R16, R53). -/
def TxFrame.raw : TxFrame → RawFrame
  | .resyncAck credit => ⟨4, 0, leBytes 2 credit⟩
  | .idle => ⟨3, 0, []⟩
  | .chgAck tag credit vs =>
    ⟨6, BitVec.ofNat 16 tag, leBytes 1 credit ++ leBytes 1 vs.length ++ vs.flatMap fun e => leBytes 1 e.1 ++ leBytes 1 e.2.code⟩
  | .order num body => ⟨body.frameKind, BitVec.ofNat 16 num, body.payload⟩

/-! ### Notices -/

/-- A subject's kind code and index (R202). -/
def NoticeSubject.codes : NoticeSubject → Nat × Nat
  | .device => (0, 0)
  | .server i => (1, i)
  | .volume i => (2, i)
  | .snapshot i => (3, i)
  | .job i => (4, i)
  | .principal i => (5, i)
  | .group i => (6, i)

/-- A subject: kind 1 byte, index 2 bytes (R202). -/
def subjectBytes (sub : NoticeSubject) : List Byte := leBytes 1 sub.codes.1 ++ leBytes 2 sub.codes.2

/-- Yes is 1 and no is 0: R11 codes them so in requests, and log 59 and log 60 take the code over. -/
def yesByte (b : Bool) : List Byte := leBytes 1 (if b then 1 else 0)

/-- A code without a number in the manual (log 19). -/
def codeBytes (c : Config.CodeName) : List Byte := [Config.codeByte c]

/-- A signed field in two's complement, 4 bytes (R202). -/
def signedBytes (x : Int) : List Byte := leBytes 4 (BitVec.ofInt 32 x).toNat

/-- SNAP_FAILED's reason and the server's code, 0 unless the reason is SERVER (R139, log 18). -/
def failBytes : SnapFailReason → List Byte
  | .server code => codeBytes (.failReason (.server 0)) ++ leBytes 1 code
  | r => codeBytes (.failReason r) ++ leBytes 1 0

/-- The last failure's reason: its source and the server's code (R189). -/
def lastFailureBytes : DupFailure → List Byte
  | .none => leBytes 1 0 ++ leBytes 1 0
  | .server code => leBytes 1 1 ++ leBytes 1 code
  | .link => leBytes 1 2 ++ leBytes 1 0

/-- The content of a notice: the fields of its owning rule, each of the width its range fixes (R202). Standing and keep are 1
for yes and 0 for no, a snapshot kind has its code of R120, BREACH's op its code of R51 and QUOTA_STATE's subject kind its
code of R202 (log 60); a server takes the 2 bytes of an index (log 19); RESTORE_DONE's five counts stand in the order
in which R149 names the reasons (log 61). -/
def Content.bytes : Content → List Byte
  | .quotaState sub old new load s16 h16 grace cause time =>
    subjectBytes (subjectNotice sub) ++ codeBytes (.quotaState old) ++ codeBytes (.quotaState new) ++ leBytes 8 load
      ++ leBytes 8 s16 ++ leBytes 8 h16 ++ leBytes 2 grace ++ codeBytes (.quotaCause cause) ++ leBytes 4 time
  | .approach p q load h16 st time =>
    leBytes 2 p ++ signedBytes q ++ leBytes 8 load ++ leBytes 8 h16 ++ codeBytes (.quotaState st) ++ leBytes 4 time
  | .breach srv vol isMove blocks held count time =>
    leBytes 2 srv ++ leBytes 2 vol ++ leBytes 1 (if isMove then 3 else 1) ++ leBytes 2 blocks ++ codeBytes (.breachOf held)
      ++ leBytes 1 count ++ leBytes 4 time
  | .enforceBacklog st length entries time => yesByte st ++ leBytes 2 length ++ leBytes 2 entries ++ leBytes 4 time
  | .snapTaken id vol e k keep time =>
    leBytes 2 id ++ leBytes 2 vol ++ leBytes 4 e ++ leBytes 1 (snapKindCode k) ++ yesByte keep ++ leBytes 4 time
  | .snapFailed id k why time => leBytes 2 id ++ leBytes 1 (snapKindCode k) ++ failBytes why ++ leBytes 4 time
  | .snapReleased id vol e k why passed freed held time =>
    leBytes 2 id ++ leBytes 2 vol ++ leBytes 4 e ++ leBytes 1 (snapKindCode k) ++ codeBytes (.releaseReason why)
      ++ leBytes 9 passed ++ leBytes 9 freed ++ leBytes 9 held ++ leBytes 4 time
  | .reserveOver st held limit n time => yesByte st ++ leBytes 9 held ++ leBytes 8 limit ++ leBytes 1 n ++ leBytes 4 time
  | .restoreDone job p vol id o copied done failed by_ released time =>
    leBytes 2 job ++ leBytes 2 p ++ leBytes 2 vol ++ leBytes 2 id ++ codeBytes (.restoreOutcome o) ++ leBytes 4 copied
      ++ leBytes 1 done ++ leBytes 1 failed ++ leBytes 1 by_.io ++ leBytes 1 by_.sourceGone ++ leBytes 1 by_.noSpace
      ++ leBytes 1 by_.link ++ leBytes 1 by_.cancelled ++ leBytes 4 released ++ leBytes 4 time
  | .dupState why cause target te bb ba regions mib batches failures last time =>
    codeBytes (.dupReason why) ++ codeBytes (.dupCause cause) ++ leBytes 2 target ++ leBytes 4 te ++ leBytes 4 bb
      ++ leBytes 4 ba ++ leBytes 4 regions ++ leBytes 4 mib ++ leBytes 4 batches ++ leBytes 2 failures
      ++ lastFailureBytes last ++ leBytes 4 time
  | .window opening slot minute time cause =>
    codeBytes (.windowTransition opening) ++ leBytes 2 slot ++ leBytes 2 minute ++ leBytes 4 time
      ++ codeBytes (.windowCause cause)
  | .linkState old new why time =>
    codeBytes (.linkState old) ++ codeBytes (.linkState new) ++ codeBytes (.linkReason why) ++ leBytes 4 time
  | .volumeStale st srv state why time =>
    yesByte st ++ leBytes 2 srv ++ codeBytes (.volState state) ++ codeBytes (.staleReason why) ++ leBytes 4 time

/-- A notice as the host receives it (R202). -/
def Fetched.bytes (f : Fetched) : List Byte :=
  leBytes 1 f.content.kind.code ++ subjectBytes f.subject ++ leBytes 1 f.priority
    ++ [Config.flagsByte f.content.kind.isCondition f.content.standing f.seenBefore f.express]
    ++ leBytes 1 f.content.bytes.length ++ leBytes 1 0 ++ leBytes 4 f.seq ++ f.content.bytes

/-- The express slot's notice as an EXPRESS frame carries it, its priority and express flag those of the settings at the moment of
viewing (R201, R202, log 35). -/
def SlotNotice.view (q : Nq) (m : SlotNotice) : Fetched :=
  { subject := m.subject, content := m.content, priority := q.priority m.content.kind, seq := m.seq, seenBefore := false,
    express := decide (q.express = some m.content.kind) }

/-! ### Frames to the host -/

/-- The code of a status (R10). -/
def Status.code : Status → Nat
  | .ok => 0
  | .clamped => 1
  | .busy => 2
  | .unknownKind => 3
  | .malformed => 4
  | .noSuch => 5
  | .inUse => 6
  | .full => 7
  | .quota => 8
  | .state => 9

/-- The bytes of results: those of FETCH_NOTICES by R202, its overflow mark 1 when set and 0 when clear (log 59), none
where there are none, the region marks of READ_VOLUME in 4 bytes each behind its other fields (R50), and the rest free
(log 20). -/
def Results.bytes : Results → List Byte
  | .none => []
  | .fetched overflow lost given remaining =>
    yesByte overflow ++ leBytes 2 lost ++ leBytes 1 given.length ++ leBytes 1 remaining ++ given.flatMap Fetched.bytes
  | .volume r mib epoch dirty ship marks => Config.resultBytes (.volume r mib epoch dirty ship []) ++ marks.flatMap (leBytes 4)
  | r => Config.resultBytes r

/-- The payload of a reply: status, clamp count, clamp list, and results when it is OK or CLAMPED (R8). -/
def Reply.payload (r : Reply) : List Byte :=
  leBytes 1 r.status.code ++ leBytes 1 r.clamps.length ++ r.clamps.flatMap (leBytes 1)
    ++ (if r.status = .ok ∨ r.status = .clamped then r.results.bytes else [])

/-- A frame of the management link's transmit side as the envelope carries it, with the Notice Queue that its bytes are viewed with:
an EXPRESS frame takes its priority and express flag from there (R8, R9, R201, log 35). -/
def MgmtFrame.raw (q : Nq) : MgmtFrame → RawFrame
  | .reply e => ⟨32, e.tag, e.reply.payload⟩
  | .busy tag => ⟨32, tag, (refusal .busy).payload⟩
  | .express m => ⟨33, 0, (m.view q).bytes⟩

end Sys2Proof.Machine
end

