-- ==== Sys2Proof/Safety.lean ====
section
/-! DEFINITION. The vocabulary of claims: the parts of the state and what leaves them unchanged, what it is for a request to
be taken and answered, and the invariants. -/

namespace Sys2Proof.Machine

/-! ### Parts of the state -/

/-- The parts of the state, as the spec names them. -/
inductive Part where
  /-- The queue of waiting commands. -/
  | pending
  /-- The pin levels (R1, R21). -/
  | pins
  /-- The management receive side (R4). -/
  | mgmtRx
  /-- The frame in transmission on the management link (R9). -/
  | mgmtTx
  /-- The reply list (R7). -/
  | replies
  /-- The BUSY list (R9). -/
  | busy
  /-- The phase of a warm restart (R20). -/
  | restart
  /-- The silence limit (R15). -/
  | silenceLimit
  /-- The server links (section 1.3). -/
  | links
  /-- Second count, part time and minute-of-day (R22, R23). -/
  | clock
  /-- Current and pending window settings (R24). -/
  | windowSettings
  /-- Window state, slot index and visited slots (R24). -/
  | window
  /-- The slot masks (R30). -/
  | masks
  /-- The open-group set of the CWU (R30). -/
  | cwuOpen
  /-- The trend interval and its count (R32). -/
  | interval
  /-- The volume records (section 3.1). -/
  | volumes
  /-- The intake states (R54). -/
  | intakes
  /-- The principal records (R90). -/
  | principals
  /-- The group records (R91). -/
  | groups
  /-- ReassignedCount (R61). -/
  | reassigned
  /-- Smoothing shift and approach horizon (R83). -/
  | trendSettings
  /-- The sample sweep (R84). -/
  | sampleSweep
  /-- SAMPLES_SKIPPED (R84). -/
  | skipped
  /-- The sample events not yet taken (log 6). -/
  | samplesDue
  /-- The soft list (R102). -/
  | softList
  /-- The grace sweep (R99). -/
  | graceSweep
  /-- The deny table (R104). -/
  | denyTable
  /-- The backlog (R104). -/
  | backlog
  /-- The breach total (R115). -/
  | breachTotal
  /-- The snapshot records (R118). -/
  | snaps
  /-- The next-id counter (R119). -/
  | nextId
  /-- The retention rules (R133). -/
  | rules
  /-- The reserveOver flags (R138). -/
  | reserveOver
  /-- The window opens not yet taken (log 6). -/
  | opensDue
  /-- The catalog's messages to the DC (R169, R170). -/
  | toDc
  /-- The copy-engine credits (R143). -/
  | credits
  /-- The open-group set of the CCA (R143). -/
  | ccaOpen
  /-- The acceptance list (R149). -/
  | acceptance
  /-- The restore jobs (R149). -/
  | restoreJobs
  /-- The restore slots' last end records (R149). -/
  | restoreEnds
  /-- The duplication jobs (R167). -/
  | dupJobs
  /-- The volumes' last end records (R167). -/
  | dupEnds
  /-- The slot budget (R173). -/
  | budget
  /-- The turn (R176). -/
  | turn
  /-- The open-group set of the DC (R175). -/
  | dcOpen
  /-- The kinds' priorities and the express kind (R193). -/
  | noticeSettings
  /-- The notice queue (R195). -/
  | queue
  /-- The sequence counter and the age order (R195). -/
  | sequence
  /-- The overflow mark and the lost count (R195). -/
  | lostMark
  /-- The express slot (R200). -/
  | slot
  deriving DecidableEq, Repr

/-- A part is the same in two states. -/
def Part.same (s t : State) : Part → Prop
  | .pending => t.pending = s.pending
  | .pins => t.pins = s.pins
  | .mgmtRx => t.lu.mgmtRx = s.lu.mgmtRx
  | .mgmtTx => t.lu.mgmtTx = s.lu.mgmtTx
  | .replies => t.lu.replies = s.lu.replies
  | .busy => t.lu.busy = s.lu.busy
  | .restart => t.lu.restart = s.lu.restart
  | .silenceLimit => t.lu.silenceLimit = s.lu.silenceLimit
  | .links => t.lu.links = s.lu.links
  | .clock => t.cwu.second = s.cwu.second ∧ t.cwu.partTime = s.cwu.partTime ∧ t.cwu.minute = s.cwu.minute
  | .windowSettings => t.cwu.settings = s.cwu.settings ∧ t.cwu.pendingSet = s.cwu.pendingSet
  | .window => t.cwu.slot = s.cwu.slot ∧ t.cwu.visited = s.cwu.visited
  | .masks => t.cwu.masks = s.cwu.masks
  | .cwuOpen => t.cwu.openGroups = s.cwu.openGroups
  | .interval => t.cwu.trendT = s.cwu.trendT ∧ t.cwu.trendCount = s.cwu.trendCount
  | .volumes => t.vt = s.vt
  | .intakes => t.ciu = s.ciu
  | .principals => t.book.principals = s.book.principals
  | .groups => t.book.groups = s.book.groups
  | .reassigned => t.book.reassigned = s.book.reassigned
  | .trendSettings => t.ce.k = s.ce.k ∧ t.ce.w = s.ce.w
  | .sampleSweep => t.ce.sweep = s.ce.sweep
  | .skipped => t.ce.skipped = s.ce.skipped
  | .samplesDue => t.ce.due = s.ce.due
  | .softList => t.qm.softList = s.qm.softList
  | .graceSweep => t.qm.sweep = s.qm.sweep
  | .denyTable => t.et.table = s.et.table
  | .backlog => t.et.backlog = s.et.backlog
  | .breachTotal => t.et.breachTotal = s.et.breachTotal
  | .snaps => t.sc.records = s.sc.records
  | .nextId => t.sc.nextId = s.sc.nextId
  | .rules => t.sc.rules = s.sc.rules
  | .reserveOver => t.sc.reserveOver = s.sc.reserveOver
  | .opensDue => t.sc.opensDue = s.sc.opensDue
  | .toDc => t.sc.toDc = s.sc.toDc
  | .credits => t.cca.servers = s.cca.servers
  | .ccaOpen => t.cca.openGroups = s.cca.openGroups
  | .acceptance => t.cca.acceptance = s.cca.acceptance
  | .restoreJobs => t.rsc.jobs = s.rsc.jobs
  | .restoreEnds => t.rsc.lastEnd = s.rsc.lastEnd
  | .dupJobs => t.dc.jobs = s.dc.jobs
  | .dupEnds => t.dc.lastEnd = s.dc.lastEnd
  | .budget => t.dc.remaining = s.dc.remaining ∧ t.dc.full = s.dc.full
  | .turn => t.dc.turn = s.dc.turn
  | .dcOpen => t.dc.openGroups = s.dc.openGroups
  | .noticeSettings => t.nq.priorities = s.nq.priorities ∧ t.nq.express = s.nq.express
  | .queue => t.nq.queue = s.nq.queue
  | .sequence => t.nq.seq = s.nq.seq ∧ t.nq.age = s.nq.age
  | .lostMark => t.nq.overflow = s.nq.overflow ∧ t.nq.lost = s.nq.lost
  | .slot => t.nq.slot = s.nq.slot

/-- Every part but the listed ones is the same in `t` as in `s`. -/
def Unchanged (changed : List Part) (s t : State) : Prop := ∀ p, p ∉ changed → Part.same s t p

/-- Every part but the listed ones is the same; so are the reply list and the restart phase while the management carrier is
present (with the carrier absent, whatever waits for transmission is discarded, R12). -/
def Spares (changed : List Part) (s t : State) : Prop :=
  Unchanged (.replies :: .restart :: changed) s t
    ∧ (s.pins.mgmtCarrier = true → t.lu.replies = s.lu.replies ∧ t.lu.restart = s.lu.restart)

/-! ### What kinds of work can change -/

/-- Starting the next frame on the management link (R9). -/
abbrev pumpParts : List Part := [.mgmtTx, .busy, .slot]

/-- Taking and answering a request (R7, R9). -/
abbrev answerParts : List Part := [.mgmtRx, .mgmtTx, .replies, .busy, .slot]

/-- Raising notices (R195, R201). -/
abbrev raiseParts : List Part := [.mgmtTx, .busy, .slot, .queue, .sequence, .lostMark]

/-- The Enforcement Table's work (R106 to R112). -/
abbrev enforceParts : List Part := [.mgmtTx, .busy, .slot, .queue, .sequence, .lostMark, .links, .denyTable, .backlog]

/-- Evaluations of subjects (R100, R101). -/
abbrev evalParts : List Part :=
  [.mgmtTx, .busy, .slot, .queue, .sequence, .lostMark, .links, .denyTable, .backlog, .principals, .groups, .softList]

/-- Releases and pressure (R128 to R138). -/
abbrev catalogParts : List Part :=
  [.mgmtTx, .busy, .slot, .queue, .sequence, .lostMark, .links, .snaps, .volumes, .reserveOver]

/-- The end of a restore job (R159). -/
abbrev restoreEndParts : List Part :=
  [.mgmtTx, .busy, .slot, .queue, .sequence, .lostMark, .links, .denyTable, .backlog, .principals, .groups, .softList,
    .snaps, .volumes, .reserveOver, .restoreJobs, .restoreEnds, .acceptance]

/-- Candidates and grants (R146, R175). -/
abbrev grantParts : List Part := [.credits, .links, .restoreJobs, .dupJobs, .budget, .turn]

/-- The ends and settlings of duplication jobs (R172, R183, R185). -/
abbrev dupParts : List Part :=
  [.mgmtTx, .busy, .slot, .queue, .sequence, .lostMark, .links, .snaps, .volumes, .reserveOver, .dupJobs, .dupEnds]

/-- The evaluation of the window (R25 to R31). -/
abbrev windowParts : List Part :=
  [.windowSettings, .window, .masks, .cwuOpen, .opensDue, .budget, .dcOpen, .ccaOpen, .mgmtTx, .busy, .slot, .queue, .sequence,
    .lostMark, .links, .snaps, .volumes, .reserveOver, .dupJobs, .dupEnds]

/-- A minute event (R23). -/
abbrev minuteParts : List Part :=
  [.clock, .interval, .samplesDue, .denyTable, .backlog, .principals, .groups, .softList, .windowSettings, .window, .masks,
    .cwuOpen, .opensDue, .budget, .dcOpen, .ccaOpen, .mgmtTx, .busy, .slot, .queue, .sequence, .lostMark, .links, .snaps,
    .volumes, .reserveOver, .dupJobs, .dupEnds, .credits, .restoreJobs, .turn]

/-- A link leaving UP (R18). -/
abbrev leaveParts : List Part :=
  [.mgmtTx, .busy, .slot, .queue, .sequence, .lostMark, .links, .denyTable, .backlog, .principals, .groups, .softList,
    .snaps, .volumes, .reserveOver, .restoreJobs, .restoreEnds, .acceptance, .dupJobs, .dupEnds, .toDc, .credits, .intakes]

/-- A link's comings and goings with the grants that follow (R14, R18). -/
abbrev linkParts : List Part :=
  [.mgmtTx, .busy, .slot, .queue, .sequence, .lostMark, .links, .denyTable, .backlog, .principals, .groups, .softList,
    .snaps, .volumes, .reserveOver, .restoreJobs, .restoreEnds, .acceptance, .dupJobs, .dupEnds, .toDc, .credits, .intakes,
    .budget, .turn]

/-- A second event (R22). -/
abbrev secondParts : List Part :=
  [.clock, .interval, .samplesDue, .windowSettings, .window, .masks, .cwuOpen, .opensDue, .dcOpen, .ccaOpen] ++ linkParts

/-- Dealing with a change record (R59 to R64). -/
abbrev recordParts : List Part :=
  [.mgmtTx, .busy, .slot, .queue, .sequence, .lostMark, .links, .denyTable, .backlog, .principals, .groups, .softList,
    .restoreJobs, .snaps, .volumes, .reserveOver, .breachTotal, .reassigned, .intakes]

/-! ### Requests taken and answered -/

/-- A good management frame of `n` payload bytes arrives and is taken: the port receives, fewer than 8 requests are
outstanding, no RESTART has been taken, and the length is the one its kind has (R5, R7, R10, R20, R21). -/
def Takes (h : ReqHead) (n : Nat) (s : State) : Prop :=
  s.pins.resetHeld = false ∧ s.pins.mgmtCarrier = true ∧ s.lu.replies.length < 8 ∧ s.lu.restart = .none ∧ h.len.toNat = n

/-- The request's reply joins the reply list behind those of the requests taken before it (R7, R8). -/
def Answered (h : ReqHead) (r : Reply) (s t : State) : Prop := t.lu.replies = s.lu.replies ++ [⟨h.tag, r⟩]

/-- The request is refused with a status: its reply carries no results, and nothing else changes (R8, R10). -/
def Refused (h : ReqHead) (st : Status) (s t : State) : Prop := Answered h (refusal st) s t ∧ Unchanged answerParts s t

/-- The Notice Queue of `t` is that of `s` with exactly these notices raised, in this order (R195 to R201): while a frame is in
transmission on the management link each one arrives in the queue or the express slot; with the transmit side idle the first
that the express slot takes starts an EXPRESS frame in the same step (log 12), ahead of a reply (log 65), and `t` transmits
it. The state is one in which no notice waits in the slot behind an idle transmit side, as MgmtInv has it. -/
def Raises (notices : List Notice) (s t : State) : Prop :=
  s.lu.mgmtTx.isSome = true ∨ s.nq.slot = none →
    ∀ u, u = notices.foldl (fun u n => raise n u) s →
      t.nq = u.nq ∧ (u.lu.mgmtTx.isSome = true → t.lu.mgmtTx = u.lu.mgmtTx)

/-- The head of the management frame that a command is, when it is a request or an unknown kind (R5). -/
def reqHead : Instr → Option ReqHead
  | .unknownKind h _ | .attachVolume h _ _ _ _ | .setVolume h _ _ _ _ _ | .detachVolume h _ | .readVolume h _ _ _
  | .setSilence h _ | .restart h | .setWindow h _ _ _ | .setSlotmask h _ _ | .setClock h _ _ | .readWindow h
  | .setTrend h _ _ _ | .loadUsage h _ _ | .definePrincipal h _ _ _ | .defineGroup h _ | .setGroup h _ _
  | .dropPrincipal h _ | .dropGroup h _ | .setLimits h _ _ _ _ | .grantGrace h _ _ | .grantGraceAll h _
  | .readPrincipal h _ | .readGroup h _ | .takeSnapshot h _ _ _ | .releaseSnapshot h _ | .setKeep h _ _
  | .setRetention h _ _ _ _ _ _ _ | .readSnapshot h _ | .listSnapshots h _ _ | .readRetention h
  | .startRestore h _ _ _ _ _ _ | .cancelRestore h _ | .readRestore h _ | .startDup h _ | .haltDup h _ | .setBase h _ _
  | .readDup h _ | .setNotice h _ _ _ | .fetchNotices h _ | .clearNotice h _ _ | .readNotices h | .readLinks h => some h
  | .coldReset | .resetRelease | .carrierGained _ | .carrierLost _ | .mgmtCarrierGained | .mgmtCarrierLost
  | .mgmtBadFrame _ | .mgmtFrameBusy _ | .mgmtFrameSent | .serverFrameSent _ | .serverBadFrame _ _
  | .serverUnusableFrame _ _ _ _ | .hello _ | .resync _ | .reEnterUp _ | .idleReceived _ | .secondEvent
  | .silenceLimitReached _ | .minuteEvent | .graceExpired _ | .nightlyTakes | .dupNightlyList | .sampleEvent | .trendVisit
  | .graceSweepVisit | .changes _ _ _ | .intakeRecord _ | .denyAck _ _ | .allowAck _ _ | .snapDone _ _ | .snapFail _ _ _
  | .dropSnapAck _ _ | .copyDone _ _ | .copyFail _ _ _ | .shipDone _ _ | .shipFail _ _ _ | .warmRestart
  | .warmRestartEnd => none

/-- The payload length of a request's kind, as the table of R11 gives it; START_RESTORE's follows its extent count. -/
def requestLength : Instr → Option Nat
  | .attachVolume .. => some 11
  | .setVolume .. => some 16
  | .detachVolume .. => some 1
  | .readVolume .. => some 4
  | .setSilence .. => some 2
  | .restart .. => some 0
  | .setWindow .. => some 8
  | .setSlotmask .. => some 5
  | .setClock .. => some 6
  | .readWindow .. => some 0
  | .setTrend .. => some 8
  | .loadUsage .. => some 10
  | .definePrincipal .. => some 8
  | .defineGroup .. => some 2
  | .setGroup .. => some 4
  | .dropPrincipal .. => some 2
  | .dropGroup .. => some 2
  | .setLimits .. => some 23
  | .grantGrace .. => some 7
  | .grantGraceAll .. => some 7
  | .readPrincipal .. => some 2
  | .readGroup .. => some 2
  | .takeSnapshot .. => some 3
  | .releaseSnapshot .. => some 2
  | .setKeep .. => some 3
  | .setRetention .. => some 11
  | .readSnapshot .. => some 2
  | .listSnapshots .. => some 3
  | .readRetention .. => some 0
  | .startRestore _ _ _ _ _ n _ => some (7 + 20 * n.toNat)
  | .cancelRestore .. => some 1
  | .readRestore .. => some 1
  | .startDup .. => some 1
  | .haltDup .. => some 1
  | .setBase .. => some 3
  | .readDup .. => some 1
  | .setNotice .. => some 4
  | .fetchNotices .. => some 2
  | .clearNotice .. => some 4
  | .readNotices .. => some 0
  | .readLinks .. => some 0
  | .unknownKind .. | .coldReset | .resetRelease | .carrierGained _ | .carrierLost _ | .mgmtCarrierGained | .mgmtCarrierLost
  | .mgmtBadFrame _ | .mgmtFrameBusy _ | .mgmtFrameSent | .serverFrameSent _ | .serverBadFrame _ _
  | .serverUnusableFrame _ _ _ _ | .hello _ | .resync _ | .reEnterUp _ | .idleReceived _ | .secondEvent
  | .silenceLimitReached _ | .minuteEvent | .graceExpired _ | .nightlyTakes | .dupNightlyList | .sampleEvent | .trendVisit
  | .graceSweepVisit | .changes _ _ _ | .intakeRecord _ | .denyAck _ _ | .allowAck _ _ | .snapDone _ _ | .snapFail _ _ _
  | .dropSnapAck _ _ | .copyDone _ _ | .copyFail _ _ _ | .shipDone _ _ | .shipFail _ _ _ | .warmRestart
  | .warmRestartEnd => none

/-! ### Server frames -/

/-- A good frame is taken on an UP link: its bytes reach the port, no warm restart is in progress, the link is UP (R6, R20). -/
def UpReceives (srv : Nat) (s : State) : Prop :=
  serverReceives s srv = true ∧ s.lu.restart ≠ .inProgress ∧ linkUp s srv = true

/-- The link holds an outstanding order of this number and kind, the first with that number (R16). -/
def Outstanding (srv num : Nat) (k : OrderKind) (s : State) : Prop :=
  (link s srv).orders.find? (fun o => o.num = num) = some ⟨num, k⟩

/-- The completion that a command is: its server, its order number and the kind of order that it answers (R6). -/
def completes : Instr → Option (ServerId × BitVec 16 × OrderKind)
  | .denyAck srv num => some (srv, num, .deny)
  | .allowAck srv num => some (srv, num, .allow)
  | .snapDone srv num | .snapFail srv num _ => some (srv, num, .snap)
  | .dropSnapAck srv num => some (srv, num, .dropSnap)
  | .copyDone srv num | .copyFail srv num _ => some (srv, num, .copy)
  | .shipDone srv num | .shipFail srv num _ => some (srv, num, .ship)
  | _ => none

/-- The state in which a completion is handed to its issuing block: the receive side hunts, the silence count is 0, and the
order has left the table (R4, R15, R16). -/
def orderTaken (srv num : Nat) (s : State) : State :=
  setLink srv { link s srv with rx := .hunting, silence := 0, orders := (link s srv).orders.filter fun x => x.num ≠ num } s

/-- The frame that a command brings to a server link: its server, and whether it is one that could bring the link up. -/
def arrivesOn : Instr → Option (ServerId × Option Reentry)
  | .serverUnusableFrame srv _ _ _ | .idleReceived srv | .changes srv _ _ | .denyAck srv _ | .allowAck srv _
  | .snapDone srv _ | .snapFail srv _ _ | .dropSnapAck srv _ | .copyDone srv _ | .copyFail srv _ _ | .shipDone srv _
  | .shipFail srv _ _ => some (srv, none)
  | .hello srv => some (srv, some .hello)
  | .resync srv => some (srv, some .resync)
  | _ => none

/-- A link that was UP has left it: the link's own fields, its credits, its intake, its volumes and the servers' parts of the
deny entries, as R18 has each block leave them. -/
structure HasLeft (srv : Nat) (dest : LinkState) (why : LinkReason) (s t : State) : Prop where
  link : (link t srv).state = dest ∧ (link t srv).reason = why ∧ (link t srv).changed = now s
  orders : (Machine.link t srv).orders = [] ∧ (Machine.link t srv).txQueue = []
  credits : (credit t srv).free = 4 ∧ (credit t srv).restore = 0 ∧ (credit t srv).ship = 0
  intake : (intake t srv).queue = (intake s srv).queue ∧ (intake t srv).next = (intake s srv).next
    ∧ ((intake t srv).draining = true ↔ (intake s srv).queue ≠ [])
    ∧ ((intake s srv).queue = [] → (intake t srv).unack = 0)
  volumes : ∀ v, (volume s v).server = srv →
    (volume t v).state = if (volume s v).state = .attached then .stale else (volume s v).state
  enforcement : ∀ k e, tget t.et.table k = some e → denyPart e srv = ServerPart.fresh

/-- What the RSC makes of an extent whose COPY is failed back (R157). -/
def lostCopy (st : JobState) (x : Extent) : Extent :=
  if st = .active ∧ x.retry = false then { x with status := .pending, retry := true, order := none }
  else { x with status := .failed, reason := if x.retry = true then .link else .cancelled, order := none }

/-- Each issuing block has dealt with its orders that a link leaving UP failed back (R18). COPY: every ORDERED extent returns to
PENDING or is FAILED, and a job with nothing left PENDING or ORDERED ends (R157, R158). SHIP: the batch is rewound with reason
LINK, the third failure in a row ends the job FAILED, and a DRAINING job ends HALTED (R181). SNAP: the record leaves the
catalog with SNAP_FAILED, reason LINK, and the job that waited for it ends NO_TARGET (R123, R170). DROP_SNAP: the record stays
DROPPING with nothing in flight (R130). -/
structure OrdersFailedBack (srv : Nat) (s t : State) : Prop where
  copies : ∀ id j j1, restoreJob s id = some j → jobServer s j = srv →
    (∀ x ∈ j.extents, x.status = .ordered ↔ x.order ≠ none) →
    (∀ x ∈ j.extents, ∀ n, x.order = some n → ⟨n, .copy⟩ ∈ (link s srv).orders
      ∧ ∀ k i, restoreJob s k = some i → k ≠ id → jobServer s i = srv → ∀ y ∈ i.extents, y.order ≠ some n) →
    j1 = { j with extents := j.extents.map fun x => if x.order = none then x else lostCopy j.state x } →
    if (∃ x ∈ j.extents, x.status = .ordered) ∧ (∀ x ∈ j1.extents, x.status = .done ∨ x.status = .failed) then
      restoreJob t id = none ∧ id ∉ t.cca.acceptance
      ∧ tget t.rsc.lastEnd id = some {
          outcome := if j.state = .draining then .cancelled
            else if ∃ x ∈ j1.extents, x.status = .done then .partly else .failed
          copied := ((j1.extents.filter fun x => x.status = .done).map Extent.count).sum
          done := (j1.extents.filter fun x => x.status = .done).length
          failed := (j1.extents.filter fun x => x.status = .failed).length
          released := j.remaining, principal := j.principal, snapshot := j.snapshot, time := now s }
    else restoreJob t id = some j1
  batches : ∀ num v j b, ⟨num, .ship⟩ ∈ (link s srv).orders → findBatch s srv num = some (v, j) → j.batch = some b →
    j.state ≠ .waitingSnapshot →
    (j.state = .draining → dupJob t v = none ∧ ∃ e, tget t.dc.lastEnd v = some e ∧ e.reason = .halted ∧ e.target = j.target
        ∧ e.failures = min 65535 (j.failures + 1) ∧ e.regions = j.regions ∧ e.batches = j.batches)
    ∧ (j.state ≠ .draining → 2 ≤ j.retry → dupJob t v = none ∧ ∃ e, tget t.dc.lastEnd v = some e ∧ e.reason = .failed
        ∧ e.target = j.target ∧ e.failures = min 65535 (j.failures + 1) ∧ e.regions = j.regions ∧ e.batches = j.batches)
    ∧ (j.state ≠ .draining → j.retry < 2 → dupJob t v = some { j with
        failures := min 65535 (j.failures + 1), lastFailure := .link, batch := none
        cursor := b.regions.head?.getD j.cursor, retry := j.retry + 1 })
  takes : ∀ num id x, ⟨num, .snap⟩ ∈ (link s srv).orders → snapInFlight s srv num true = some (id, x) → snap t id = none
    ∧ (∃ before after, Raises (before ++ ⟨.volume x.volume, .snapFailed id x.kind .link (now s)⟩ :: after) s t)
    ∧ (∀ j, dupJob s x.volume = some j → j.state = .waitingSnapshot → j.target = id → j.batch = none → s.sc.toDc = [] →
        dupJob t x.volume = none ∧ ∃ e, tget t.dc.lastEnd x.volume = some e ∧ e.reason = .noTarget ∧ e.target = id)
  drops : ∀ num id x, ⟨num, .dropSnap⟩ ∈ (link s srv).orders → snapInFlight s srv num true = none →
    snapInFlight s srv num false = some (id, x) → snap t id = some { x with inFlight := none }

/-- VOLUME_STALE as a link that leaves UP raises it for each of its ATTACHED volumes, in rising order (R45, R47, log 47). -/
def stales (srv : Nat) (s : State) : List Notice :=
  (volumesOf s srv .attached).map fun v => ⟨.volume v, .volumeStale true srv .stale .link (now s)⟩

/-- The LINK_STATE of a link that leaves UP is raised (R19). With no orders outstanding, nothing denied and no message waiting
for the DC, the notices are VOLUME_STALE for each ATTACHED volume and then LINK_STATE (log 7). -/
structure LeavingNoticed (srv : Nat) (dest : LinkState) (why : LinkReason) (s t : State) : Prop where
  raised : ∃ before after, Raises (before ++ ⟨.server srv, .linkState .up dest why (now s)⟩ :: after) s t
  alone : (link s srv).orders = [] → s.sc.toDc = [] → s.et.table = [] →
    Raises (stales srv s ++ [⟨.server srv, .linkState .up dest why (now s)⟩]) s t

/-- A link that was UP has left it for FAULTED or DOWN, with what every block makes of that and the notices (R13, R18, R19). -/
structure Leaves (srv : Nat) (dest : LinkState) (why : LinkReason) (s t : State) : Prop where
  left : HasLeft srv dest why s t
  orders : OrdersFailedBack srv s t
  notices : LeavingNoticed srv dest why s t

/-- The userNumber that a DENY or ALLOW for a subject carries: a principal's as its record holds it, 0 for a group (R105). -/
def userOf (s : State) : Subject → Nat
  | .principal i => (principal s i).userNumber
  | .group _ => 0

/-- A link has entered UP: the link's own fields, RESYNC_ACK first in its queue, the intake accounting afresh, its volumes,
the denied set resent (a link that was not UP has nothing sent or confirmed, R112), and a DROP_SNAP in flight for every
DROPPING record of its server (R14, R46, R67, R112, R130). -/
structure HasEntered (srv : Nat) (how : Reentry) (s t : State) : Prop where
  link : (link t srv).state = .up ∧ (link t srv).reason = reentryReason how ∧ (link t srv).changed = now s
  silence : (Machine.link t srv).silence = 0 ∧ (Machine.link t srv).held = none
  ack : (Machine.link t srv).txQueue.head? = some (.resyncAck 64)
  intake : (intake t srv).unack = 0 ∧ (intake t srv).next = (if how = .hello then 0 else (intake s srv).next)
  volumes : ∀ v, (volume s v).server = srv →
    (volume t v).state = if (volume s v).state = .stale then .attached else (volume s v).state
  enforcement : (linkUp s srv = false → ∀ k e, tget s.et.table k = some e → denyPart e srv = ServerPart.fresh) →
    ∀ k e, tget t.et.table k = some e →
      (e.want = .allow → denyPart e srv = ⟨.confirmed, none, none⟩)
      ∧ (e.want = .deny → ∃ n, denyPart e srv = ⟨.sent, some ⟨n, .deny⟩, none⟩
          ∧ ⟨n, .deny⟩ ∈ (Machine.link t srv).orders
          ∧ .order n (.deny (subjectOfKey k) (userOf s (subjectOfKey k))) ∈ (Machine.link t srv).txQueue)
  drops : ∀ id x, snap t id = some x → x.state = .dropping → (volume t x.volume).server = srv → x.inFlight ≠ none

/-- What one link's comings and goings leave of the other servers: their links' own fields, their intakes and their volumes'
states (R18 acts on the link's own server). -/
structure OthersStay (srv : Nat) (s t : State) : Prop where
  links : ∀ j, j ≠ srv → (link t j).state = (link s j).state ∧ (link t j).reason = (link s j).reason
    ∧ (link t j).changed = (link s j).changed ∧ (link t j).silence = (link s j).silence
    ∧ (link t j).rx = (link s j).rx ∧ (link t j).held = (link s j).held
  intakes : ∀ j, j ≠ srv → intake t j = intake s j
  volumes : ∀ v, (volume s v).server ≠ srv → (volume t v).state = (volume s v).state

/-! ### Enforcement -/

/-- A deny table entry has come to a want (R106 to R108): every mark is cleared, and for each server the order of the want has
been handed over, with the subject's userNumber (R105), where the link is UP and nothing was in flight; elsewhere the status is
NOT_SENT and an order in flight stays. `parts` are the entry's server parts before. -/
def WantHanded (sub : Subject) (want : Want) (parts : Tab ServerPart) (e : DenyEntry) (s t : State) : Prop :=
  e.want = want ∧ ∀ srv ∈ serverList,
    if linkUp s srv = true ∧ (tgetD ServerPart.fresh parts srv).inFlight = none then
      ∃ n, denyPart e srv = ⟨.sent, some ⟨n, want⟩, none⟩
        ∧ ⟨n, (match want with
          | .deny => OrderKind.deny
          | .allow => .allow)⟩ ∈ (link t srv).orders
        ∧ .order n (match want with
          | .deny => .deny sub (userOf s sub)
          | .allow => .allow sub (userOf s sub)) ∈ (link t srv).txQueue
    else denyPart e srv = ⟨.notSent, (tgetD ServerPart.fresh parts srv).inFlight, none⟩

/-- A subject has become blocked and has its entry, made or kept, wanting DENY (R106, R108). -/
def Blocked (sub : Subject) (s t : State) : Prop :=
  ∀ parts, parts = ((tget s.et.table (subjectKey sub)).map DenyEntry.parts).getD [] → tsorted parts = true →
    ∃ e, tget t.et.table (subjectKey sub) = some e ∧ WantHanded sub .deny parts e s t

/-- A subject with no backlog place has become unblocked or is dropped (R107, R108, R110): its entry, if it has one, comes to
want ALLOW, or leaves the table when no server is UP. -/
def Unblocked (sub : Subject) (s t : State) : Prop :=
  (tget s.et.table (subjectKey sub) = none → tget t.et.table (subjectKey sub) = none)
    ∧ ∀ old, tget s.et.table (subjectKey sub) = some old → tsorted old.parts = true →
      if ∀ srv ∈ serverList, linkUp s srv = false then tget t.et.table (subjectKey sub) = none
      else ∃ e, tget t.et.table (subjectKey sub) = some e ∧ WantHanded sub .allow old.parts e s t

/-! ### The window -/

/-- Every present pending mask of the eight duplication groups has been installed, and the open groups formed from slot `j` have
been handed to the DC and the CCA (R30). -/
def MasksInstalled (j : Nat) (s t : State) : Prop :=
  (∀ g, g < 8 → slotMask t.cwu g =
      { current := (slotMask s.cwu g).pending.getD (slotMask s.cwu g).current, pending := none })
    ∧ t.cwu.openGroups = groupsOpenIn t.cwu j ∧ t.dc.openGroups = t.cwu.openGroups ∧ t.cca.openGroups = t.cwu.openGroups

/-- No duplication job can be given a batch, so that no grant draws on the budget: each waits for its snapshot with no message
for the DC, is DRAINING, has its batch in flight, or has a volume that is not ATTACHED (R175). -/
def NothingToShip (s : State) : Prop :=
  ∀ v j, dupJob s v = some j → (volume s v).state = .attached →
    (j.state = .waitingSnapshot ∧ s.sc.toDc = []) ∨ j.state = .draining ∨ j.batch ≠ none

/-- A slot start has refilled the budget with capacity times the slot length: no grant has raised what remains, and with
nothing to ship all of it remains (R173). -/
def Refilled (s t : State) : Prop :=
  t.dc.full = s.cwu.settings.capacity * s.cwu.settings.len ∧ t.dc.remaining ≤ t.dc.full
    ∧ (NothingToShip s → t.dc.remaining = t.dc.full)

/-- No slot start has come: the budget stands as it was, but for what grants draw on it (R173). -/
def BudgetStands (s t : State) : Prop :=
  t.dc.full = s.dc.full ∧ t.dc.remaining ≤ s.dc.remaining ∧ (NothingToShip s → t.dc.remaining = s.dc.remaining)

/-- The evaluation of the window changed nothing (R25). -/
def WindowStays (s t : State) : Prop :=
  t.cwu.slot = s.cwu.slot ∧ t.cwu.visited = s.cwu.visited ∧ t.cwu.openGroups = s.cwu.openGroups
    ∧ t.cwu.masks = s.cwu.masks ∧ t.cwu.settings = s.cwu.settings ∧ t.cwu.pendingSet = s.cwu.pendingSet
    ∧ t.sc.opensDue = s.sc.opensDue ∧ BudgetStands s t ∧ t.dc.openGroups = s.dc.openGroups
    ∧ t.cca.openGroups = s.cca.openGroups

/-- The window opened into slot `j` (R26): the masks, one window open for the SC (log 6), the budget refilled (R173), and no job
left SUSPENDED (R186). -/
def WindowOpens (j : Nat) (s t : State) : Prop :=
  t.cwu.slot = some j ∧ t.cwu.visited = [j] ∧ MasksInstalled j s t
    ∧ t.cwu.settings = s.cwu.settings ∧ t.cwu.pendingSet = s.cwu.pendingSet
    ∧ t.sc.opensDue = s.sc.opensDue + 1 ∧ Refilled s t ∧ dupIn t .suspended = []

/-- The window passed a slot boundary into slot `j` (R27): the budget is refilled for a slot not yet visited (R173). -/
def WindowMoves (j : Nat) (s t : State) : Prop :=
  t.cwu.slot = some j ∧ t.cwu.visited = setAdd j s.cwu.visited ∧ MasksInstalled j s t
    ∧ t.cwu.settings = s.cwu.settings ∧ t.cwu.pendingSet = s.cwu.pendingSet ∧ t.sc.opensDue = s.sc.opensDue
    ∧ (if j ∈ s.cwu.visited then BudgetStands s t else Refilled s t)

/-- The window closed (R28): a pending set is installed, no group is open, and no job is left SHIPPING (R186). -/
def WindowCloses (s t : State) : Prop :=
  t.cwu.slot = none ∧ t.cwu.visited = [] ∧ t.cwu.openGroups = [] ∧ t.dc.openGroups = [] ∧ t.cca.openGroups = []
    ∧ t.cwu.masks = s.cwu.masks ∧ t.cwu.settings = s.cwu.pendingSet.getD s.cwu.settings ∧ t.cwu.pendingSet = none
    ∧ t.sc.opensDue = s.sc.opensDue ∧ BudgetStands s t ∧ dupIn t .shipping = []

/-! ### The catalog -/

/-- A record that age retention releases at a part time (R134, R136): its volume is not UNATTACHED, it is LIVE, unpinned and not
kept, and older than the maximum age of its governing rule. -/
def OverAge (s : State) (time : Nat) (x : Snap) : Prop :=
  (volume s x.volume).state ≠ .unattached ∧ x.state = .live ∧ x.pinCount = 0 ∧ x.keep = false
    ∧ ∃ n, governingRule s x.volume x.kind = some n ∧ (rule s n).maxAge ≠ 0 ∧ (rule s n).maxAge < time - x.created

/-- A release by the pressure test: its record, the blocks it passed on and freed, and the volume's heldTotal after it. -/
structure PressureRelease where
  id : Nat
  passed : Nat
  freed : Nat
  held : Nat
  deriving DecidableEq, Repr

/-- A volume's heldTotal after some releases of a pressure test made in `s`. -/
def heldAfter (s : State) (v : Nat) (rel : List PressureRelease) : Nat :=
  (rel.getLast?.map PressureRelease.held).getD (volume s v).heldTotal

/-- What retention and pressure may release of a volume, oldest first (R137). -/
def releasables (s : State) (v : Nat) : List (Nat × Snap) := (volumeSnaps s v).filter fun e => e.2.releasable

/-- The pressure test of volume `v`, made in `s` with these releases, left `t` (R128, R137): oldest first, each while the holds
were above the limit, until they are within it or nothing is left to release. A release passes the entries that the next
older holder contains and frees the rest; its record becomes DROPPING, and no other record's state changes. -/
structure Pressured (v : Nat) (rel : List PressureRelease) (s t : State) : Prop where
  oldestFirst : rel.map PressureRelease.id <+: (releasables s v).map Prod.fst
  needed : ∀ pre r post, rel = pre ++ r :: post →
    (volume s v).reserveLimit ≠ 0 ∧ (volume s v).reserveLimit < heldAfter s v pre ∧ r.held = heldAfter s v pre - r.freed
  enough : withinReserve t v = true ∨ rel.length = (releasables s v).length
  total : (volume t v).heldTotal = heldAfter s v rel ∧ (volume t v).reserveLimit = (volume s v).reserveLimit
  blocks : ∀ pre r post x, rel = pre ++ r :: post → snap s r.id = some x → r.passed + r.freed = holdTotal x.holds
    ∧ ∀ older : Nat → Snap → Prop, (∀ o y, older o y ↔ snap s o = some y ∧ y.volume = v ∧ y.holder = true
        ∧ y.epoch < x.epoch ∧ o ∉ pre.map PressureRelease.id) →
      ((∀ o y, ¬older o y) → r.passed = 0)
      ∧ ∀ o y, older o y → (∀ k z, older k z → k ≠ o → z.epoch < y.epoch) →
          r.passed = holdTotal (x.holds.filter fun e => e.birth ≤ y.epoch)
  released : ∀ r ∈ rel, ∃ y, snap t r.id = some y ∧ y.state = .dropping ∧ y.holds = []
  kept : ∀ id x, snap s id = some x → id ∉ rel.map PressureRelease.id → ∃ y, snap t id = some y ∧ y.state = x.state
    ∧ y.pinCount = x.pinCount ∧ y.keep = x.keep

/-- The notices of a pressure test (R137 to R139): SNAP_RELEASED with reason PRESSURE for each release; RESERVE_OVER with standing
no when a set flag falls, before the SNAP_RELEASED of the release that brings it down (log 52); with standing yes when the test
ends above the limit and the flag was clear. -/
def pressureNotices (v : Nat) (rel : List PressureRelease) (s t : State) : List Notice :=
  let released (r : PressureRelease) : Option Notice := (snap s r.id).map fun x =>
    ⟨.snapshot r.id, .snapReleased r.id v x.epoch x.kind .pressure r.passed r.freed r.held (now s)⟩
  let holders := (s.sc.records.filter fun e => decide (e.2.volume = v) && (decide (0 < e.2.pinCount) || e.2.keep)).length
  let flag (standing : Bool) : Notice :=
    ⟨.volume v, .reserveOver standing (volume t v).heldTotal (volume s v).reserveLimit holders (now s)⟩
  rel.dropLast.filterMap released ++ (if reserveFlag s v && withinReserve t v then [flag false] else [])
    ++ rel.getLast?.toList.filterMap released ++ (if reserveFlag s v || withinReserve t v then [] else [flag true])

/-! ### Invariants -/

/-- A window setting lies in its ranges (R24). -/
def WindowSet.inRange (w : WindowSet) : Prop := w.start < 1440 ∧ 1 ≤ w.len ∧ w.len ≤ 45 ∧ 1 ≤ w.capacity ∧ w.capacity ≤ 65535

/-- The clock, the window and the open-group sets (R22 to R25, R30, R32): the counts lie in their ranges, the visited slots
hold the current one, and the open groups are those whose current mask has the current slot, as the DC and the CCA have
them too. -/
structure ClockInv (s : State) : Prop where
  second : s.cwu.second < 60
  partTime : s.cwu.partTime ≤ top32
  minute : s.cwu.minute < 1440
  settings : s.cwu.settings.inRange
  pendingSet : ∀ w, s.cwu.pendingSet = some w → w.inRange
  closed : s.cwu.slot = none → s.cwu.visited = [] ∧ s.cwu.openGroups = []
  isOpen : ∀ j, s.cwu.slot = some j →
    j < 32 ∧ j ∈ s.cwu.visited ∧ (∀ i ∈ s.cwu.visited, i < 32) ∧ s.cwu.openGroups = groupsOpenIn s.cwu j
  handed : s.dc.openGroups = s.cwu.openGroups ∧ s.cca.openGroups = s.cwu.openGroups
  trend : 1 ≤ s.cwu.trendT ∧ s.cwu.trendT ≤ 1440 ∧ s.cwu.trendCount < s.cwu.trendT

/-- Every server's credits add up to 4 (R143). -/
def CreditInv (s : State) : Prop := ∀ srv, (credit s srv).free + (credit s srv).restore + (credit s srv).ship = 4

/-- The management link's lists (R7, R9, R12, R20): at most 8 requests outstanding and at most 8 BUSY answers, nothing waits
while the transmit side is free, a reply in transmission is the head of the reply list, nothing is held while the carrier
is absent, and the reply list is empty from the moment a warm restart is due. -/
structure MgmtInv (s : State) : Prop where
  replies : s.lu.replies.length ≤ 8
  busy : s.lu.busy.length ≤ 8
  free : s.lu.mgmtTx = none → s.nq.slot = none ∧ s.lu.busy = [] ∧ s.lu.replies = []
  head : ∀ e, s.lu.mgmtTx = some (.reply e) → s.lu.replies.head? = some e
  absent : s.pins.mgmtCarrier = false → s.lu.mgmtTx = none
  taken : s.lu.restart = .taken → s.lu.replies ≠ []
  due : s.lu.restart = .due ∨ s.lu.restart = .inProgress → s.lu.replies = []

/-- The Notice Queue (R195 to R200): at most 128 entries, one for a kind and subject, in order of age, each at its kind's
priority; only conditions are seen; the slot's notice has an age of its own. -/
structure NoticeInv (s : State) : Prop where
  length : s.nq.queue.length ≤ 128
  pairs : (s.nq.queue.map fun e => (e.content.kind, e.subject)).Nodup
  ages : (s.nq.queue.map Entry.age).Pairwise (· < ·)
  young : ∀ e ∈ s.nq.queue, e.age < s.nq.age
  priority : ∀ e ∈ s.nq.queue, e.priority = s.nq.priority e.content.kind
  priorities : ∀ k, s.nq.priority k ≤ 3
  seen : ∀ e ∈ s.nq.queue, e.seen = true → e.content.kind.isCondition = true
  slot : ∀ m, s.nq.slot = some m → m.age < s.nq.age ∧ ∀ e ∈ s.nq.queue, e.age ≠ m.age
  counts : s.nq.seq < 4294967296 ∧ s.nq.lost ≤ 65535 ∧ (0 < s.nq.lost → s.nq.overflow = true)

/-- Every table stands in its canonical form: indices strictly rising and, where every index exists, no record equal to the
one an unlisted index reads as. -/
structure Tables (s : State) : Prop where
  links : tsorted s.lu.links = true ∧ tnoDefault Link.cold s.lu.links = true
  masks : tsorted s.cwu.masks = true
  volumes : tsorted s.vt = true ∧ tnoDefault Volume.none s.vt = true
  intakes : tsorted s.ciu = true ∧ tnoDefault Intake.cold s.ciu = true
  principals : tsorted s.book.principals = true ∧ tnoDefault Principal.undefined s.book.principals = true
  groups : tsorted s.book.groups = true ∧ tnoDefault Group.undefined s.book.groups = true
  denyTable : tsorted s.et.table = true
  snaps : tsorted s.sc.records = true
  rules : tsorted s.sc.rules = true ∧ tnoDefault Rule.cold s.sc.rules = true
  credits : tsorted s.cca.servers = true ∧ tnoDefault Credit.cold s.cca.servers = true
  restoreJobs : tsorted s.rsc.jobs = true ∧ tsorted s.rsc.lastEnd = true
  dupJobs : tsorted s.dc.jobs = true ∧ tsorted s.dc.lastEnd = true

/-- The tables inside the records, and the tables whose records are plain values, stand in the same form: slot masks, the
servers' parts of each deny entry, each volume's region marks, and notice priorities. -/
structure InnerTables (s : State) : Prop where
  masks : tnoDefault { current := 0, pending := none } s.cwu.masks = true
  marks : ∀ e ∈ s.vt, tsorted e.2.marks = true ∧ tnoDefault 0 e.2.marks = true
  parts : ∀ e ∈ s.et.table, tsorted e.2.parts = true ∧ tnoDefault ServerPart.fresh e.2.parts = true
  priorities : tsorted s.nq.priorities = true ∧ tnoDefault 1 s.nq.priorities = true

/-- What a server link's state says of the rest (R14, R16, R18, R45, R46, R66): no orders and nothing to send unless the link
is UP, a volume ATTACHED when and only when its server's link is UP, records left in the intake of a link that is not UP
are draining, and an entry is held only in SYNCING. -/
structure LinkInv (s : State) : Prop where
  quiet : ∀ srv, linkUp s srv = false → (link s srv).orders = [] ∧ (link s srv).txQueue = []
  volumes : ∀ v, (volume s v).state ≠ .unattached → ((volume s v).state = .attached ↔ linkUp s (volume s v).server = true)
  nightly : ∀ v, (volume s v).nightly = true → (volume s v).state ≠ .unattached
  records : ∀ srv, (intake s srv).queue ≠ [] → ((intake s srv).draining = true ↔ linkUp s srv = false)
  drained : ∀ srv, (intake s srv).queue = [] → (intake s srv).draining = false
  held : ∀ srv, (link s srv).held ≠ none → (link s srv).state = .syncing

end Sys2Proof.Machine
end

