-- ==== Sys2Proof/Certificates/Slice0/Obligations.lean ====
section
/-! DEFINITION. The statements for the provers, family by family. A statement about a command says that `exec` answers a
next state, what that state holds, and which parts of the state are as before. -/

section
open Sys2Proof Sys2Proof.Machine

/-! ### Steps -/

/-- A step takes the command at the front of the queue and does what `exec` does with it on the queue's rest (R7: each
command is applied whole, in the order taken). -/
def Obligations.StepRunsTheCommandInFront : Prop :=
  ∀ (c : Instr) (rest : List Instr) (s : State), step (s.withPending (c :: rest)) = exec c (s.withPending rest)

/-- Every command answers a next state, and none touches the queue of waiting commands. These are the model's reading
and choices: that no command stops the part (log 42), that a command whose occasion does not hold has no effect (log
1), and that COLD_RESET leaves the waiting commands as they are (log 3). -/
def Obligations.EveryCommandCompletes : Prop :=
  ∀ (c : Instr) (s : State), ∃ t, exec c s = .next t ∧ t.pending = s.pending

/-! ### Reset and the pins -/

/-- Cold reset: what every block holds afterwards. The waiting commands and the carriers stand as they did (log 3).
That the carriers and the waiting commands stand as they did is the model's choice (log 3). -/
def Obligations.ColdResetState : Prop :=
  ∀ s : State, ∃ t, exec .coldReset s = .next t
    ∧ t.pending = s.pending ∧ t.pins = { s.pins with resetHeld := true }
    ∧ (∀ srv, (link t srv).state = .down ∧ (link t srv).reason = .carrierLost ∧ (link t srv).changed = 0
        ∧ (link t srv).silence = 0 ∧ (link t srv).orders = [] ∧ (link t srv).txQueue = [] ∧ (link t srv).counter = 1
        ∧ (link t srv).sentSince = false ∧ (link t srv).rx = .hunting ∧ (link t srv).held = none)
    ∧ t.lu.mgmtRx = .hunting ∧ t.lu.mgmtTx = none ∧ t.lu.replies = [] ∧ t.lu.busy = [] ∧ t.lu.silenceLimit = 10
    ∧ t.lu.restart = .none
    ∧ t.cwu.second = 0 ∧ t.cwu.partTime = 0 ∧ t.cwu.minute = 0
    ∧ t.cwu.settings = { start := 1320, len := 15, capacity := 100 } ∧ t.cwu.pendingSet = none
    ∧ t.cwu.slot = none ∧ t.cwu.visited = [] ∧ t.cwu.openGroups = [] ∧ t.cwu.trendT = 60 ∧ t.cwu.trendCount = 0
    ∧ (∀ g, (slotMask t.cwu g).current = 0 ∧ (slotMask t.cwu g).pending = none)
    ∧ (∀ v, (volume t v).state = .unattached ∧ (volume t v).weight = 16 ∧ (volume t v).size = 0 ∧ (volume t v).epoch = 0
        ∧ (volume t v).marks = [] ∧ (volume t v).offsiteBase = none ∧ (volume t v).nightly = false
        ∧ (volume t v).reserveLimit = 0 ∧ (volume t v).heldTotal = 0 ∧ (volume t v).dupGroup = 0)
    ∧ (∀ srv, (intake t srv).next = 0 ∧ (intake t srv).unack = 0 ∧ (intake t srv).queue = []
        ∧ (intake t srv).draining = false ∧ (intake t srv).taken = 0 ∧ (intake t srv).rejected = 0
        ∧ (intake t srv).duplicates = 0 ∧ (intake t srv).verdicts = [])
    ∧ (∀ p, (principal t p).defined = decide (p = 0) ∧ (principal t p).userNumber = 0 ∧ (principal t p).group = none
        ∧ (principal t p).acct = Account.fresh ∧ (principal t p).breachCount = 0
        ∧ (principal t p).outcome = { saturated := false, borrow := false, zero := false })
    ∧ (∀ g, (group t g).defined = false ∧ (group t g).acct = Account.fresh ∧ (group t g).members = 0)
    ∧ t.book.reassigned = 0 ∧ t.ce = { k := 3, w := 24, sweep := none, skipped := 0, due := 0 }
    ∧ t.qm.softList = [] ∧ t.qm.sweep = none ∧ t.et.table = [] ∧ t.et.backlog = [] ∧ t.et.breachTotal = 0
    ∧ t.sc.records = [] ∧ t.sc.nextId = 1 ∧ t.sc.reserveOver = [] ∧ (∀ n, (rule t n).valid = false)
    ∧ t.sc.opensDue = 0 ∧ t.sc.toDc = []
    ∧ (∀ srv, (credit t srv).free = 4 ∧ (credit t srv).restore = 0 ∧ (credit t srv).ship = 0 ∧ (credit t srv).groups = []
        ∧ (credit t srv).dupCandidate = false)
    ∧ t.cca.openGroups = [] ∧ t.cca.acceptance = [] ∧ t.rsc.jobs = [] ∧ t.rsc.lastEnd = []
    ∧ t.dc.jobs = [] ∧ t.dc.lastEnd = [] ∧ t.dc.remaining = 0 ∧ t.dc.full = 0 ∧ t.dc.turn = none ∧ t.dc.openGroups = []
    ∧ (∀ k, t.nq.priority k = 1) ∧ t.nq.express = none ∧ t.nq.queue = [] ∧ t.nq.slot = none ∧ t.nq.seq = 0
    ∧ t.nq.overflow = false ∧ t.nq.lost = 0

/-- The reset line released brings a carrier-gained event to every server port whose carrier is present; a port's
carrier gained takes its DOWN link to SYNCING, with its LINK_STATE notice. While the line is held only the carrier
levels move. The model's choices: the levels follow the pins while the line is held (log 39), and the events of the
release come from server 0 to 7 (log 46). -/
def Obligations.CarriersGainedSync : Prop :=
  (∀ s : State, s.pins.resetHeld = true → ∃ t, exec .resetRelease s = .next t
    ∧ t.pins = { s.pins with resetHeld := false }
    ∧ (∀ srv : ServerId, link t srv =
        if carrier s srv = true ∧ (link s srv).state = .down then
          { link s srv with state := .syncing, reason := .carrierGained, changed := now s }
        else link s srv)
    ∧ Raises ((serverList.filter fun k => carrier s k && decide ((link s k).state = .down)).map fun k =>
        ⟨.server k, .linkState .down .syncing .carrierGained (now s)⟩) s t
    ∧ Spares (.pins :: .links :: raiseParts) s t)
  ∧ (∀ (srv : ServerId) (s : State), s.pins.resetHeld = false → carrier s srv = false →
    ∃ t, exec (.carrierGained srv) s = .next t
      ∧ (∀ j, carrier t j = (decide (j = srv.val) || carrier s j)) ∧ t.pins.mgmtCarrier = s.pins.mgmtCarrier
      ∧ link t srv =
          (if (link s srv).state = .down then
            { link s srv with state := .syncing, reason := .carrierGained, changed := now s, rx := .hunting }
          else { link s srv with rx := .hunting })
      ∧ (∀ j, j ≠ srv.val → link t j = link s j)
      ∧ Raises (if (link s srv).state = .down then [⟨.server srv, .linkState .down .syncing .carrierGained (now s)⟩] else []) s t
      ∧ Spares (.pins :: .links :: raiseParts) s t)
  ∧ (∀ (srv : ServerId) (s : State), s.pins.resetHeld = true →
    (∃ t, exec (.carrierGained srv) s = .next t ∧ (∀ j, carrier t j = (decide (j = srv.val) || carrier s j))
      ∧ t.pins.resetHeld = true ∧ t.pins.mgmtCarrier = s.pins.mgmtCarrier ∧ Unchanged [.pins] s t)
    ∧ (∃ t, exec (.carrierLost srv) s = .next t ∧ (∀ j, carrier t j = (decide (j ≠ srv.val) && carrier s j))
      ∧ t.pins.resetHeld = true ∧ t.pins.mgmtCarrier = s.pins.mgmtCarrier ∧ Unchanged [.pins] s t))

/-- A server port's carrier lost: the link goes to DOWN, from UP by leaving it with all that R18 has every block do,
with its LINK_STATE notice. With no orders outstanding and nothing denied, a link leaving UP raises VOLUME_STALE for
each of its ATTACHED volumes and then LINK_STATE. The order of these notices is the model's choice (log 7, log 47),
and so is SYNCING as the old state where an entry that was held is lost (log 10). -/
def Obligations.CarrierLostTakesTheLinkDown : Prop :=
  ∀ (srv : ServerId) (s : State), s.pins.resetHeld = false → carrier s srv = true → Tables s →
    ∃ t, exec (.carrierLost srv) s = .next t
      ∧ (∀ j, carrier t j = (decide (j ≠ srv.val) && carrier s j)) ∧ (link t srv).state = .down
      ∧ ((link s srv).state = .down → link t srv = { link s srv with rx := .hunting } ∧ Raises [] s t)
      ∧ ((link s srv).state = .syncing ∨ (link s srv).state = .faulted →
          link t srv = { link s srv with state := .down, reason := .carrierLost, changed := now s, held := none, rx := .hunting }
          ∧ Raises [⟨.server srv, .linkState (link s srv).state .down .carrierLost (now s)⟩] s t
          ∧ Spares (.pins :: .links :: raiseParts) s t)
      ∧ ((link s srv).state = .up → Leaves srv .down .carrierLost s t)
      ∧ OthersStay srv s t ∧ Spares (.pins :: linkParts) s t

/-- The management carrier lost: the frame in transmission counts as transmitted, what waits is discarded, a reply
discarded ends its request's outstanding period; and gained: the receive side hunts. That the slot, the BUSY list and
the reply list are empty in the step of the loss rests on the model's choices that a free transmit side takes its next
frame in the same step (log 12), that every listed reply is already complete (log 4) and that a BUSY answer in
transmission counts as transmitted (log 11); that a RESTART whose reply goes leaves the warm restart due is its choice
too (log 56). -/
def Obligations.ManagementCarrierComesAndGoes : Prop :=
  (∀ s : State, s.pins.mgmtCarrier = true → ∃ t, exec .mgmtCarrierLost s = .next t
    ∧ t.pins = { s.pins with mgmtCarrier := false } ∧ t.lu.mgmtRx = .hunting ∧ t.lu.mgmtTx = none
    ∧ t.lu.replies = [] ∧ t.lu.busy = [] ∧ t.nq.slot = none
    ∧ t.lu.restart = (if s.lu.restart = .taken then .due else s.lu.restart)
    ∧ Unchanged (.pins :: .restart :: answerParts) s t)
  ∧ (∀ s : State, s.pins.mgmtCarrier = false → MgmtInv s →
    exec .mgmtCarrierGained s =
      .next { s with pins := { s.pins with mgmtCarrier := true }, lu := { s.lu with mgmtRx := .hunting } })

/-! ### The management link -/

/-- Characters that make no good frame on the management link move the receive side and nothing else: no reply, no
tag. While no bytes reach the port, no frame has an effect. Which commands bring which characters is the model's
choice (log 24). -/
def Obligations.BadManagementFramesDropped : Prop :=
  (∀ (chars : List RxChar) (s : State), s.pins.resetHeld = false → s.pins.mgmtCarrier = true →
    ((rxRun s.lu.mgmtRx chars).2.all fun e => !e.isGood) = true →
    ∃ t, exec (.mgmtBadFrame chars) s = .next t ∧ t.lu.mgmtRx = (rxRun s.lu.mgmtRx chars).1 ∧ Unchanged [.mgmtRx] s t)
  ∧ (∀ (c : Instr) (s : State), (∃ chars, c = .mgmtBadFrame chars) ∨ (∃ tag, c = .mgmtFrameBusy tag) ∨ reqHead c ≠ none →
    s.pins.resetHeld = true ∨ s.pins.mgmtCarrier = false → exec c s = .next s)

/-- A good frame that meets 8 outstanding requests, or a RESTART taken and not yet over, has no effect: its BUSY
answer joins the BUSY list or starts at once, and with 8 BUSY answers waiting it is discarded. This holds for every
request, for an unknown kind, and for a frame of which only the tag is known. When a BUSY answer leaves its list (log
11), and that it starts in the same step when the transmit side is free (log 12), are the model's choices. -/
def Obligations.BusyFramesHaveNoEffect : Prop :=
  ∀ (c : Instr) (tag : BitVec 16) (s : State),
    c = .mgmtFrameBusy tag ∨ (c.wf = true ∧ ∃ h, reqHead c = some h ∧ h.tag = tag) →
    s.pins.resetHeld = false → s.pins.mgmtCarrier = true → 8 ≤ s.lu.replies.length ∨ s.lu.restart ≠ .none →
    ∃ t, exec c s = .next t ∧ t.lu.mgmtRx = .hunting
      ∧ (8 ≤ s.lu.busy.length → Unchanged [.mgmtRx] s t)
      ∧ (s.lu.busy.length < 8 → s.lu.mgmtTx.isSome = true →
          t.lu.busy = s.lu.busy ++ [tag] ∧ Unchanged [.mgmtRx, .busy] s t)
      ∧ (s.lu.mgmtTx = none → s.nq.slot = none → s.lu.busy = [] →
          t.lu.mgmtTx = some (.busy tag) ∧ Unchanged [.mgmtRx, .mgmtTx] s t)
      ∧ Unchanged [.mgmtRx, .mgmtTx, .busy, .slot] s t

/-- The Link Unit's own checks of a taken frame: a kind that is no request kind is answered UNKNOWN_KIND whatever its
length, and a request whose payload length does not suit its kind is answered MALFORMED; neither has any other effect. -/
def Obligations.LinkUnitChecksKindAndLength : Prop :=
  (∀ (h : ReqHead) (kind : BitVec 8) (s : State), kind.toNat < 64 ∨ 103 < kind.toNat → Takes h h.len.toNat s →
    ∃ t, exec (.unknownKind h kind) s = .next t ∧ Refused h .unknownKind s t)
  ∧ (∀ (c : Instr) (h : ReqHead) (n : Nat) (s : State), reqHead c = some h → requestLength c = some n → h.len.toNat ≠ n →
    Takes h h.len.toNat s →
    ∃ t, exec c s = .next t ∧ Refused h .malformed s t)

/-- Every request taken is answered once, never BUSY; a refusal carries no clamp list and no results and leaves the
state as it was but for the reply; CLAMPED is the status exactly when the clamp list is not empty. That taking,
applying and answering are one step is the model's choice (log 4). -/
def Obligations.EveryRequestTakenIsAnswered : Prop :=
  ∀ (c : Instr) (h : ReqHead) (s : State), c.wf = true → reqHead c = some h → Takes h h.len.toNat s →
    ∃ t r, exec c s = .next t ∧ Answered h r s t ∧ r.status ≠ .busy ∧ (r.status = .clamped ↔ r.clamps ≠ [])
      ∧ (r.status ≠ .ok → r.status ≠ .clamped → r = refusal r.status ∧ Unchanged answerParts s t)

/-- When the frame in transmission has gone, a transmitted reply leaves the head of the reply list, and the first
frame that waits starts: the EXPRESS frame, then a BUSY answer, then the reply at the head. The reply to RESTART gone,
the warm restart is due. That the next frame starts in the same step (log 12), that a BUSY answer leaves its list when
its transmission starts (log 11), that the reply at the head is always complete (log 4), and that the reply to RESTART
gone leaves the warm restart due, for WARM_RESTART to begin (log 56), are the model's choices. -/
def Obligations.FrameSentStartsTheNext : Prop :=
  ∀ (f : MgmtFrame) (rs : List ReplyEntry) (s : State), s.pins.mgmtCarrier = true → s.lu.mgmtTx = some f →
    rs = (match f with
      | .reply _ => s.lu.replies.tail
      | .busy _ | .express _ => s.lu.replies) →
    ∃ t, exec .mgmtFrameSent s = .next t ∧ t.lu.replies = rs
      ∧ (match s.nq.slot, s.lu.busy, rs with
        | some m, _, _ => t.lu.mgmtTx = some (.express m) ∧ t.nq.slot = none ∧ t.lu.busy = s.lu.busy
        | none, tag :: more, _ => t.lu.mgmtTx = some (.busy tag) ∧ t.nq.slot = none ∧ t.lu.busy = more
        | none, [], e :: _ => t.lu.mgmtTx = some (.reply e) ∧ t.nq.slot = none ∧ t.lu.busy = []
        | none, [], [] => t.lu.mgmtTx = none ∧ t.nq.slot = none ∧ t.lu.busy = [])
      ∧ (match f with
        | .reply _ => t.lu.restart = (if s.lu.restart = .taken ∧ rs = [] then .due else s.lu.restart)
        | .busy _ | .express _ => t.lu.restart = s.lu.restart)
      ∧ Unchanged [.mgmtTx, .replies, .busy, .restart, .slot] s t

/-! ### Server links -/

/-- A frame sent leaves the head of its link's transmit queue; an IDLE frame on an UP link sets the silence count to
0. That sentSince counts a frame sent to its last byte is the model's choice (log 37). -/
def Obligations.FramesSentAndIdle : Prop :=
  (∀ (srv : ServerId) (f : TxFrame) (rest : List TxFrame) (s : State), (link s srv).txQueue = f :: rest →
    ∃ t, exec (.serverFrameSent srv) s = .next t ∧ link t srv = { link s srv with txQueue := rest, sentSince := true }
      ∧ (∀ j, j ≠ srv.val → link t j = link s j) ∧ Unchanged [.links] s t)
  ∧ (∀ (srv : ServerId) (s : State), UpReceives srv s →
    ∃ t, exec (.idleReceived srv) s = .next t ∧ link t srv = { link s srv with rx := .hunting, silence := 0 }
      ∧ (∀ j, j ≠ srv.val → link t j = link s j) ∧ Unchanged [.links] s t)

/-- A bad frame, a kind or length that the link does not take, or a completion of another kind of order is a protocol
fault: the UP link goes to FAULTED and leaves UP, its orders failed back to their blocks, with its LINK_STATE notice.
The order of the notices is the model's choice (log 7, log 47). -/
def Obligations.ProtocolFaultsFaultTheLink : Prop :=
  ∀ (srv : ServerId) (s : State), UpReceives srv s → Tables s →
    (∀ chars, RxEvent.bad ∈ (rxRun (link s srv).rx chars).2 →
        ((rxRun (link s srv).rx chars).2.all fun e => !e.isGood) = true →
      ∃ t, exec (.serverBadFrame srv chars) s = .next t ∧ Leaves srv .faulted .badFrame s t ∧ OthersStay srv s t
        ∧ Spares linkParts s t)
    ∧ (∀ kind tag len, serverLengthAllowed kind.toNat len.toNat = false
        ∨ (∃ k o, answeredKind kind.toNat = some k ∧ Outstanding srv tag.toNat o s ∧ o ≠ k) →
      ∃ t, exec (.serverUnusableFrame srv kind tag len) s = .next t ∧ Leaves srv .faulted .badFrame s t
        ∧ (link t srv).silence = 0 ∧ OthersStay srv s t ∧ Spares linkParts s t)

/-- A frame that its link's state does not take is discarded: outside UP all but HELLO and RESYNC, in FAULTED HELLO too, and
every frame while a warm restart is in progress. Only the receive side, and on an UP link the silence count, moves. A bad
frame on a link that is not UP, or during a warm restart, moves the receive side alone. While no bytes reach the port, no
frame has an effect. -/
def Obligations.UntakenFramesAreDiscarded : Prop :=
  (∀ (c : Instr) (srv : ServerId) (how : Option Reentry) (s : State), arrivesOn c = some (srv, how) →
    (serverReceives s srv = false → exec c s = .next s)
    ∧ (serverReceives s srv = true →
      s.lu.restart = .inProgress ∨ (linkUp s srv = false ∧ how = none)
        ∨ ((link s srv).state = .faulted ∧ how = some .hello) ∨ (link s srv).state = .down →
      ∃ t, exec c s = .next t
        ∧ (link t srv = { link s srv with rx := .hunting, silence := if linkUp s srv = true then 0 else (link s srv).silence }
          ∨ (link t srv = link s srv ∧ ∃ kind tag len, c = .serverUnusableFrame srv kind tag len
              ∧ frameUnusable s srv kind.toNat tag.toNat len.toNat = false))
        ∧ (∀ j, j ≠ srv.val → link t j = link s j) ∧ Unchanged [.links] s t))
  ∧ (∀ (srv : ServerId) (chars : List RxChar) (s : State),
    (serverReceives s srv = false → exec (.serverBadFrame srv chars) s = .next s)
    ∧ (serverReceives s srv = true → ((rxRun (link s srv).rx chars).2.all fun e => !e.isGood) = true →
      s.lu.restart = .inProgress ∨ linkUp s srv = false →
      ∃ t, exec (.serverBadFrame srv chars) s = .next t
        ∧ link t srv = { link s srv with rx := (rxRun (link s srv).rx chars).1 }
        ∧ (∀ j, j ≠ srv.val → link t j = link s j) ∧ Unchanged [.links] s t))

/-- HELLO in SYNCING, and RESYNC in SYNCING or FAULTED, take the link to UP, once its intake has drained: RESYNC_ACK
goes first, and behind it the server's denied set and the DROP_SNAP of its DROPPING records are sent again. A HELLO or
RESYNC that comes while the intake drains, or while an entry is held, is discarded. The order of the notices is the
model's choice (log 7, log 47). -/
def Obligations.HelloAndResyncBringTheLinkUp : Prop :=
  ∀ (srv : ServerId) (how : Reentry) (c : Instr) (s : State), serverReceives s srv = true → s.lu.restart ≠ .inProgress →
    (link s srv).state = .syncing ∨ ((link s srv).state = .faulted ∧ how = .resync) →
    c = (match how with
      | .hello => .hello srv
      | .resync => .resync srv) →
    ((intake s srv).draining = false → (link s srv).held = none → Tables s →
      ∃ t, exec c s = .next t ∧ HasEntered srv how s t
        ∧ (∀ id x, snap s id = some x → x.state = .dropping → x.inFlight = none → (volume s x.volume).server = srv →
            ∃ n, snap t id = some { x with inFlight := some n } ∧ ⟨n, .dropSnap⟩ ∈ (link t srv).orders
              ∧ .order n (.dropSnap x.volume id x.epoch) ∈ (link t srv).txQueue)
        ∧ (s.et.table = [] →
            Raises (⟨.server srv, .linkState (link s srv).state .up (reentryReason how) (now s)⟩
              :: (volumesOf s srv .stale).map fun v => ⟨.volume v, .volumeStale false srv .attached .link (now s)⟩) s t)
        ∧ OthersStay srv s t ∧ Spares linkParts s t)
    ∧ ((intake s srv).draining = true ∨ (link s srv).held ≠ none →
      ∃ t, exec c s = .next t ∧ link t srv = { link s srv with rx := .hunting }
        ∧ (∀ j, j ≠ srv.val → link t j = link s j) ∧ Unchanged [.links] s t)

/-- HELLO or RESYNC on a link that is UP: with nothing to drain the link has left UP with all that follows and enters
it afresh, with one LINK_STATE from UP to UP; otherwise it has left UP and stands in SYNCING with the entry held,
without a LINK_STATE, until RE_ENTER_UP finds the intake drained. That RE_ENTER_UP is a step of its own (log 9), the
order of the notices (log 7, log 47), and the part time in the LINK_STATE of an entry that was held (log 10), are the
model's choices. -/
def Obligations.HelloAndResyncReenterUp : Prop :=
  ∀ (srv : ServerId) (how : Reentry) (s : State), Tables s →
    (UpReceives srv s →
      ∃ t, exec (match how with
          | .hello => .hello srv
          | .resync => .resync srv) s = .next t
        ∧ ((intake s srv).queue = [] → HasEntered srv how s t
          ∧ (∃ u, HasLeft srv .syncing (reentryReason how) s u ∧ OrdersFailedBack srv s u ∧ t = enterUp srv how .up u)
          ∧ ((link s srv).orders = [] → s.sc.toDc = [] → s.et.table = [] →
              Raises (stales srv s ++ ⟨.server srv, .linkState .up .up (reentryReason how) (now s)⟩
                :: ((s.vt.filter fun e => e.2.server = srv.val ∧ e.2.state ≠ .unattached).map fun e =>
                  ⟨.volume e.1, .volumeStale false srv .attached .link (now s)⟩)) s t))
        ∧ ((intake s srv).queue ≠ [] → HasLeft srv .syncing (reentryReason how) s t ∧ OrdersFailedBack srv s t
          ∧ (link t srv).held = some how
          ∧ ((link s srv).orders = [] → s.sc.toDc = [] → s.et.table = [] → Raises (stales srv s) s t))
        ∧ OthersStay srv s t ∧ Spares linkParts s t)
    ∧ ((link s srv).held = some how → (link s srv).state = .syncing → (intake s srv).draining = false →
      ∃ t, exec (.reEnterUp srv) s = .next t ∧ HasEntered srv how s t
        ∧ (s.et.table = [] → Raises (⟨.server srv, .linkState .up .up (reentryReason how) (now s)⟩
            :: (volumesOf s srv .stale).map fun v => ⟨.volume v, .volumeStale false srv .attached .link (now s)⟩) s t)
        ∧ OthersStay srv s t ∧ Spares linkParts s t)

/-! ### Time -/

/-- A second event that ends no minute: the second count rises, every UP link's silence count rises or faults the link
at the limit, with its LINK_STATE (and, where it is the only link at the limit, with all that follows exactly), and an
UP link that has transmitted nothing since the last one is handed one IDLE frame, any other none; what is transmitted
counts afresh from then on. SILENCE_LIMIT_REACHED is this second event for a link that it brings to the limit. That
SILENCE_LIMIT_REACHED is a case of the second event (log 5), that the servers go from 0 to 7 (log 46), and the order
of the notices (log 7, log 47), are the model's choices. -/
def Obligations.SecondEventSupervisesSilence : Prop :=
  ∀ s : State, s.pins.resetHeld = false → s.cwu.second + 1 ≠ 60 → Tables s →
    ∃ t, exec .secondEvent s = .next t ∧ t.cwu = { s.cwu with second := s.cwu.second + 1 }
      ∧ (∀ srv : ServerId, linkUp s srv = true → s.lu.silenceLimit ≤ (link s srv).silence + 1 →
          HasLeft srv .faulted .silence s t
          ∧ (∃ before after, Raises (before ++ ⟨.server srv, .linkState .up .faulted .silence (now s)⟩ :: after) s t)
          ∧ ((∀ k : ServerId, k ≠ srv → linkUp s k = true → (link s k).silence + 1 < s.lu.silenceLimit) →
              Leaves srv .faulted .silence s t)
          ∧ exec (.silenceLimitReached srv) s = .next t)
      ∧ (∀ srv : ServerId, linkUp s srv = true → (link s srv).silence + 1 < s.lu.silenceLimit →
          (link t srv).state = .up ∧ (link t srv).silence = (link s srv).silence + 1
            ∧ (link t srv).txQueue.count .idle =
                (link s srv).txQueue.count .idle + (if (link s srv).sentSince = true then 0 else 1))
      ∧ (∀ srv : ServerId, (link t srv).sentSince = false)
      ∧ (∀ srv : ServerId, linkUp s srv = false → (link t srv).state = (link s srv).state)
      ∧ Spares (.clock :: linkParts) s t

/-- The sixtieth second event is a minute event: part time, minute-of-day and the trend count advance, every listed
subject's grace falls by one and one whose grace is spent is evaluated, with QUOTA_STATE, age retention releases what
is over age, and the window is evaluated: it opens, passes a slot boundary, closes, or stays, with the WINDOW notice
of an open or a close. Then silence is supervised as at any second event. A window of the whole day passes from slot
31 to slot 0 by a close and an open, or by a close alone when that installs a pending set. MINUTE_EVENT is this second
event, and GRACE_EXPIRED is it for a subject whose last minute it takes: the subject is no longer SOFT. The model's
reading and choices: both commands are cases of the second event (log 5), sample events and window opens wait for
their own commands (log 6), the DC takes a window open before the catalog's list (log 66), the grants follow in the
same step (log 13), and the parts of a minute event, and its notices, come in one order (log 7, log 48). -/
def Obligations.MinuteEventAdvancesTheClock : Prop :=
  ∀ s : State, s.pins.resetHeld = false → s.cwu.second = 59 →
    ∃ t, exec .secondEvent s = .next t ∧ exec .minuteEvent s = .next t
      ∧ (∀ sub, sub ∈ s.qm.softList → (acct s sub).grace = 1 →
          exec (.graceExpired sub) s = .next t ∧ (acct t sub).grace = 0 ∧ (acct t sub).state ≠ .soft)
      ∧ (s.qm.softList.Nodup → ∀ sub a, sub ∈ s.qm.softList → (acct s sub).grace = 1 → a = { acct s sub with grace := 0 } →
          nextState a ≠ a.state → ∃ before after, Raises (before ++ ⟨subjectNotice sub, .quotaState sub a.state (nextState a)
            (loadOf a) (a.soft * 16) (a.hard * 16) 0 .graceExpired (now t)⟩ :: after) s t)
      ∧ (s.qm.softList.Nodup → (∀ srv : ServerId, linkUp s srv = true → (link s srv).silence + 1 < s.lu.silenceLimit) →
          ∀ sub a, sub ∈ s.qm.softList → a = { acct s sub with grace := (acct s sub).grace - 1 } →
            acct t sub = { a with state := if a.grace = 0 then nextState a else a.state })
      ∧ (s.qm.softList.Nodup → ∀ sub ∈ s.qm.softList, (acct t sub).grace = (acct s sub).grace - 1)
      ∧ (∀ sub, sub ∉ s.qm.softList → (acct t sub).grace = (acct s sub).grace)
      ∧ t.cwu.second = 0 ∧ t.cwu.partTime = min (s.cwu.partTime + 1) 4294967295 ∧ t.cwu.minute = (s.cwu.minute + 1) % 1440
      ∧ t.cwu.trendT = s.cwu.trendT
      ∧ t.cwu.trendCount = (if s.cwu.trendCount + 1 = s.cwu.trendT then 0 else s.cwu.trendCount + 1)
      ∧ t.ce.due = (if s.cwu.trendCount + 1 = s.cwu.trendT then s.ce.due + 1 else s.ce.due)
      ∧ (Tables s → match s.cwu.slot, slotOf s.cwu.settings t.cwu.minute with
        | none, none => WindowStays s t
        | none, some j => WindowOpens j s t
        | some _, none => WindowCloses s t
        | some i, some j =>
          if i = j then WindowStays s t
          else if 32 * s.cwu.settings.len = 1440 ∧ i = 31 ∧ j = 0 then
            (s.cwu.pendingSet = none → WindowOpens j s t) ∧ (s.cwu.pendingSet ≠ none → WindowCloses s t)
          else WindowMoves j s t)
      ∧ (∀ windows : List Notice, windows = (match s.cwu.slot, slotOf s.cwu.settings t.cwu.minute with
          | none, none => []
          | none, some j => [⟨.device, .window true j t.cwu.minute (now t) .minute⟩]
          | some i, none => [⟨.device, .window false i t.cwu.minute (now t) .minute⟩]
          | some i, some j =>
            if i = 31 ∧ j = 0 ∧ 32 * s.cwu.settings.len = 1440 then
              ⟨.device, .window false i t.cwu.minute (now t) .minute⟩ :: (if s.cwu.pendingSet = none then
                [⟨.device, .window true j t.cwu.minute (now t) .minute⟩] else [])
            else []) →
          (∀ n ∈ windows, ∃ before after, Raises (before ++ n :: after) s t)
          ∧ (s.qm.softList = [] → (∀ n, (rule s n).valid = false) → s.dc.jobs = [] →
              (∀ srv : ServerId, linkUp s srv = true → (link s srv).silence + 1 < s.lu.silenceLimit) →
              Raises windows s t))
      ∧ (Tables s → ∀ srv : ServerId, linkUp s srv = true →
          (s.lu.silenceLimit ≤ (link s srv).silence + 1 → exec (.silenceLimitReached srv) s = .next t
            ∧ HasLeft srv .faulted .silence { s with cwu := t.cwu } t
            ∧ ∃ before after, Raises (before ++ ⟨.server srv, .linkState .up .faulted .silence (now t)⟩ :: after) s t)
          ∧ ((link s srv).silence + 1 < s.lu.silenceLimit →
            (link t srv).state = .up ∧ (link t srv).silence = (link s srv).silence + 1
            ∧ (link t srv).txQueue.count .idle =
                (link s srv).txQueue.count .idle + (if (link s srv).sentSince = true then 0 else 1)))
      ∧ (∀ srv : ServerId, (link t srv).sentSince = false
          ∧ (linkUp s srv = false → (link t srv).state = (link s srv).state))
      ∧ (Tables s → ∀ id x, snap s id = some x →
          (OverAge s t.cwu.partTime x →
            ∃ y, snap t id = some y ∧ y = { x with state := .dropping, holds := [], inFlight := y.inFlight })
          ∧ (¬OverAge s t.cwu.partTime x → x.state = .live → x.keep = true ∨ (volume s x.volume).reserveLimit = 0 →
            ∃ y, snap t id = some y ∧ y.state = .live))
      ∧ Spares secondParts s t

/-- Slot j covers the m minutes-of-day from start + j × m on, modulo 1,440, and the minutes past slot 31 lie outside. -/
def Obligations.SlotsCoverTheWindow : Prop :=
  ∀ w : WindowSet, w.inRange →
    (∀ j i, j < 32 → i < w.len → slotOf w ((w.start + j * w.len + i) % 1440) = some j)
    ∧ (∀ o, 32 * w.len ≤ o → o < 1440 → slotOf w ((w.start + o) % 1440) = none)

/-- SET_CLOCK sets the clock and evaluates the window at once: no change, a window open, a slot boundary or a close,
with the settings, masks and budget that each brings, and the WINDOW notice of an open or a close. The model's
choices: the nightly takes of a window open wait for their own command (log 6), the DC takes a window open before the
catalog's list (log 66), the grants follow in the same step (log 13), WINDOW is raised last at an open (log 48), and
before the reply (log 65). -/
def Obligations.SetClockEvaluatesTheWindow : Prop :=
  ∀ (h : ReqHead) (part : BitVec 32) (minute : BitVec 16) (s : State), Takes h 6 s →
    ∃ t, exec (.setClock h part minute) s = .next t
      ∧ (1439 < minute.toNat → Refused h .malformed s t)
      ∧ (minute.toNat ≤ 1439 → Answered h (accept [] .none) s t
        ∧ t.cwu.partTime = part.toNat ∧ t.cwu.minute = minute.toNat ∧ t.cwu.second = 0
        ∧ (Tables s → match s.cwu.slot, slotOf s.cwu.settings minute.toNat with
          | none, none => t.cwu = { s.cwu with partTime := part.toNat, minute := minute.toNat, second := 0 } ∧ BudgetStands s t ∧ Raises [] s t
          | none, some j => t.cwu.slot = some j ∧ t.cwu.visited = [j] ∧ t.cwu.settings = s.cwu.settings
              ∧ (∀ g, g < 8 → slotMask t.cwu g =
                  { current := (slotMask s.cwu g).pending.getD (slotMask s.cwu g).current, pending := none })
              ∧ t.cwu.openGroups = groupsOpenIn t.cwu j ∧ t.sc.opensDue = s.sc.opensDue + 1
              ∧ Refilled s t ∧ dupIn t .suspended = []
              ∧ ∃ before, Raises (before ++ [⟨.device, .window true j minute.toNat part.toNat .setClock⟩]) s t
          | some i, none => t.cwu.slot = none ∧ t.cwu.visited = [] ∧ t.cwu.openGroups = []
              ∧ t.cwu.settings = s.cwu.pendingSet.getD s.cwu.settings ∧ t.cwu.pendingSet = none
              ∧ t.sc.opensDue = s.sc.opensDue ∧ BudgetStands s t ∧ dupIn t .shipping = []
              ∧ Raises [⟨.device, .window false i minute.toNat part.toNat .setClock⟩] s t
          | some i, some j =>
            if i = j then t.cwu = { s.cwu with partTime := part.toNat, minute := minute.toNat, second := 0 } ∧ BudgetStands s t ∧ Raises [] s t
            else t.cwu.slot = some j ∧ t.cwu.visited = setAdd j s.cwu.visited ∧ t.cwu.settings = s.cwu.settings
              ∧ (∀ g, g < 8 → slotMask t.cwu g =
                  { current := (slotMask s.cwu g).pending.getD (slotMask s.cwu g).current, pending := none })
              ∧ t.cwu.openGroups = groupsOpenIn t.cwu j ∧ t.sc.opensDue = s.sc.opensDue
              ∧ (if j ∈ s.cwu.visited then BudgetStands s t else Refilled s t)
              ∧ Raises [] s t)
        ∧ t.dc.openGroups = (if s.cwu.slot = slotOf s.cwu.settings minute.toNat then s.dc.openGroups else t.cwu.openGroups)
        ∧ t.cca.openGroups = (if s.cwu.slot = slotOf s.cwu.settings minute.toNat then s.cca.openGroups else t.cwu.openGroups)
        ∧ t.cwu.trendT = s.cwu.trendT ∧ t.cwu.trendCount = s.cwu.trendCount
        ∧ Unchanged (.clock :: .credits :: .restoreJobs :: .turn :: .mgmtRx :: .replies :: windowParts) s t)

/-! ### The part's own steps -/

/-- The nightly takes of a window open: every volume with nightly on, in rising order, gives one item of the list that
goes to the Duplication Controller. At its turn a STALE volume gives STALE, one that finds the catalog or itself full
gives FULL, one whose epoch is exhausted EPOCH, each with SNAP_FAILED; any other gives an id, which stands for a
NIGHTLY record in TAKING, stamped with the volume's epoch, which has advanced. That the window open waits for this
step, and that an empty list is not handed on, are the model's choices (log 6, log 36). -/
def Obligations.NightlyTakesOfAWindowOpen : Prop :=
  ∀ s : State, 0 < s.sc.opensDue → Tables s →
    ∃ t items, exec .nightlyTakes s = .next t ∧ t.sc.opensDue = s.sc.opensDue - 1
      ∧ items.map NightlyItem.volume = nightlyVolumes s
      ∧ t.sc.toDc = (if items = [] then s.sc.toDc else s.sc.toDc ++ [.list items])
      ∧ (∀ before item after, items = before ++ item :: after →
          if (volume s item.volume).state = .stale then item.result = .error .stale
          else if 1024 ≤ s.sc.records.length + (before.filter fun i => i.result.isOk).length
              ∨ 64 ≤ (s.sc.records.filter fun e => e.2.volume = item.volume).length then item.result = .error .full
          else if 4294967295 ≤ (volume s item.volume).epoch then item.result = .error .epoch
          else ∃ id, item.result = .ok id)
      ∧ (∀ v why, { volume := v, result := .error why : NightlyItem } ∈ items → (volume t v).epoch = (volume s v).epoch)
      ∧ (∀ v id, { volume := v, result := .ok id : NightlyItem } ∈ items →
          (volume t v).epoch = (volume s v).epoch + 1 ∧ snap s id = none ∧ 1 ≤ id
          ∧ ∃ r, snap t id = some r ∧ r.volume = v ∧ r.epoch = (volume s v).epoch ∧ r.kind = .nightly ∧ r.keep = false
              ∧ r.state = .taking ∧ r.created = now s ∧ r.pinCount = 0 ∧ r.holds = [] ∧ r.inFlight ≠ none)
      ∧ Raises (items.filterMap fun i => match i.result with
          | .error why => some ⟨.volume i.volume, .snapFailed 0 .nightly why (now s)⟩
          | .ok _ => none) s t
      ∧ Spares (.opensDue :: .volumes :: .snaps :: .nextId :: .links :: .toDc :: raiseParts) s t

/-- The catalog's nightly list in the Duplication Controller: its items are dealt with in their order, then the
messages that follow the list. A volume with a job is passed over; a failure, or an id that cannot be pinned, leaves a
NO_TARGET record; a pinned id makes a job in WAITING_SNAPSHOT; each with its DUP_STATE. While a warm restart is in
progress the list waits. That the list waits for this step, behind the window open that it belongs to, the order of
what follows it, that it stands through a warm restart, and the fields of a record where no job was made, are the
model's choices (log 6, log 66, log 13, log 41, log 58). -/
def Obligations.NightlyListMakesJobs : Prop :=
  (∀ (items : List NightlyItem) (rest : List ScMessage) (s : State), s.sc.toDc = .list items :: rest →
    s.lu.restart ≠ .inProgress → ∃ t, exec .dupNightlyList s = .next t
      ∧ t = grantAll (dcListen (items.foldl nightlyItem { s with sc := { s.sc with toDc := rest } }))
      ∧ Spares (.toDc :: .credits :: .restoreJobs :: .budget :: .turn :: dupParts) s t)
  ∧ (∀ s : State, s.lu.restart = .inProgress → exec .dupNightlyList s = .next s)
  ∧ (∀ (i : NightlyItem) (s : State), (dupJob s i.volume).isSome = true → nightlyItem s i = s)
  ∧ (∀ (v : Nat) (why : SnapFailReason) (s : State), dupJob s v = none →
      dupJob (nightlyItem s ⟨v, .error why⟩) v = none
      ∧ ∃ e, tget (nightlyItem s ⟨v, .error why⟩).dc.lastEnd v = some e ∧ e.reason = .noTarget
        ∧ e.baseBefore = baseEpoch s v ∧ e.baseAfter = baseEpoch s v ∧ e.time = now s
        ∧ ∀ cause, (why = .stale ∧ cause = .stale) ∨ (why = .full ∧ cause = .full) ∨ (why = .epoch ∧ cause = .epoch) →
          Raises [⟨.volume v, .dupState .noTarget cause 0 0 (baseEpoch s v) (baseEpoch s v) 0 0 0 0 .none (now s)⟩] s
            (nightlyItem s ⟨v, .error why⟩))
  ∧ (∀ (v id : Nat) (s : State), dupJob s v = none → canPin s id = false →
      dupJob (nightlyItem s ⟨v, .ok id⟩) v = none
      ∧ ∃ e, tget (nightlyItem s ⟨v, .ok id⟩).dc.lastEnd v = some e ∧ e.reason = .noTarget
        ∧ Raises [⟨.volume v, .dupState .noTarget .pinRefused 0 0 (baseEpoch s v) (baseEpoch s v) 0 0 0 0 .none (now s)⟩] s
            (nightlyItem s ⟨v, .ok id⟩))
  ∧ (∀ (v id : Nat) (r : Snap) (s : State), dupJob s v = none → snap s id = some r → canPin s id = true →
      snap (nightlyItem s ⟨v, .ok id⟩) id = some { r with pinCount := r.pinCount + 1 }
      ∧ Raises [⟨.volume v, .dupState .created .none id r.epoch (baseEpoch s v) (baseEpoch s v) 0 0 0 0 .none (now s)⟩] s
          (nightlyItem s ⟨v, .ok id⟩)
      ∧ ∃ j, dupJob (nightlyItem s ⟨v, .ok id⟩) v = some j ∧ j.state = .waitingSnapshot ∧ j.target = id
        ∧ j.targetEpoch = r.epoch ∧ j.baseEpoch = baseEpoch s v ∧ j.cursor = 0 ∧ j.batch = none ∧ j.retry = 0
        ∧ j.origin = .window ∧ j.created = now s)

/-- The two sweeps. A sample event starts the sample sweep with the current k and W, or is counted as skipped while
one runs; a visit smooths the subject's change of usage, projects it and makes the approach test, with its APPROACH
notice; a visit of the grace sweep gives its subject the sweep's minutes and evaluates it; past the last subject a
sweep ends. That one visit is one step, where a sweep ends, and that a horizon of 0 disarms no subject, are the
model's choices (log 6, log 22, log 45). -/
def Obligations.SweepsVisitTheDefinedSubjects : Prop :=
  (∀ s : State, 0 < s.ce.due → ∃ t, exec .sampleEvent s = .next t ∧ t.ce.due = s.ce.due - 1
    ∧ (match s.ce.sweep with
      | none => t.ce.sweep = some { pos := 1, k := s.ce.k, w := s.ce.w } ∧ t.ce.skipped = s.ce.skipped
      | some w => t.ce.sweep = some w ∧ t.ce.skipped = min 65535 (s.ce.skipped + 1))
    ∧ Unchanged [.samplesDue, .sampleSweep, .skipped] s t)
  ∧ (∀ (w : Sweep) (s : State), s.ce.sweep = some w → (∀ k ∈ definedKeys s, k < w.pos) →
    ∃ t, exec .trendVisit s = .next t ∧ t.ce.sweep = none ∧ Unchanged [.sampleSweep] s t)
  ∧ (∀ (w : Sweep) (key : Nat) (s : State), s.ce.sweep = some w → nextDefined s w.pos = some key →
    ∃ t, exec .trendVisit s = .next t
      ∧ (∀ sub a, sub = subjectOfKey key → a = acct s sub →
          ∃ d q p, d = max (-2147483647) (min 2147483647 ((a.usage : Int) - a.trend.uPrev))
            ∧ q = max (-2147483647) (min 2147483647 (a.trend.q + (d - a.trend.q).tdiv (2 ^ w.k)))
            ∧ (a.hard = 0 ∨ q ≤ 0 → p = 65535)
            ∧ (a.hard ≠ 0 → 0 < q → a.hard * 16 ≤ loadOf a → p = 0)
            ∧ (a.hard ≠ 0 → 0 < q → loadOf a < a.hard * 16 → p = min ((a.hard * 16 - loadOf a) / q.toNat) 65534)
            ∧ (acct t sub).trend.uPrev = a.usage ∧ (acct t sub).trend.q = q ∧ (acct t sub).trend.p = p
            ∧ ((acct t sub).trend.armed = true ↔
                (a.trend.armed = true ∧ ¬(0 < w.w ∧ p ≤ w.w ∧ (a.state = .under ∨ a.state = .soft)))
                ∨ (a.trend.armed = false ∧ (2 * w.w < p ∨ p = 65535)))
            ∧ acct t sub = { a with trend := (acct t sub).trend }
            ∧ Raises (if 0 < w.w ∧ p ≤ w.w ∧ a.trend.armed = true ∧ (a.state = .under ∨ a.state = .soft) then
                [⟨subjectNotice sub, .approach p q (loadOf a) (a.hard * 16) a.state (now s)⟩] else []) s t)
      ∧ (∀ sub, sub ≠ subjectOfKey key → acct t sub = acct s sub)
      ∧ t.ce.sweep = (if 33792 ≤ key + 1 then none else some { w with pos := key + 1 })
      ∧ Spares (.principals :: .groups :: .sampleSweep :: raiseParts) s t)
  ∧ (∀ (w : GraceSweep) (s : State), s.qm.sweep = some w → (∀ k ∈ definedKeys s, k < w.pos) →
    ∃ t, exec .graceSweepVisit s = .next t ∧ t.qm.sweep = none ∧ Unchanged [.graceSweep] s t)
  ∧ (∀ (w : GraceSweep) (key : Nat) (s : State), s.qm.sweep = some w → nextDefined s w.pos = some key →
    ∃ t, exec .graceSweepVisit s = .next t
      ∧ (∀ sub a, sub = subjectOfKey key → a = acct s sub →
          acct t sub = { a with grace := w.minutes, state := nextState { a with grace := w.minutes } })
      ∧ (∀ sub, sub ≠ subjectOfKey key → acct t sub = acct s sub)
      ∧ t.qm.sweep = (if 33792 ≤ key + 1 then none else some { w with pos := key + 1 })
      ∧ Spares (.graceSweep :: evalParts) s t)

/-! ### Change records -/

/-- A CHANGES frame on an UP link. With its tag at most 64 behind the next number and room for its records within the 64
unacknowledged, all are accepted, the first ones behind the next number as duplicates. -/
def Obligations.ChangesAreAccepted : Prop :=
  ∀ (srv : ServerId) (tag : BitVec 16) (recs : List ChangeRecord) (b : Nat) (s : State), UpReceives srv s →
    1 ≤ recs.length → recs.length ≤ 16 → (intake s srv).next < 65536 →
    b = ((intake s srv).next + 65536 - tag.toNat) % 65536 → b ≤ 64 → (intake s srv).unack + recs.length ≤ 64 →
    ∃ t, exec (.changes srv tag recs) s = .next t
      ∧ (∃ qs : List QueuedRecord, qs.map QueuedRecord.record = recs
          ∧ (∀ i q, qs[i]? = some q → q.num = (tag.toNat + i) % 65536 ∧ q.tag = tag.toNat ∧ q.idx = i
              ∧ q.frameLen = recs.length ∧ q.dup = decide (i < b))
          ∧ intake t srv = { intake s srv with
              next := ((intake s srv).next + (recs.length - min b recs.length)) % 65536
              unack := (intake s srv).unack + recs.length
              queue := (intake s srv).queue ++ qs })
      ∧ link t srv = { link s srv with rx := .hunting, silence := 0 }
      ∧ (∀ j, j ≠ srv.val → link t j = link s j ∧ intake t j = intake s j) ∧ Unchanged [.links, .intakes] s t

/-- A CHANGES frame whose tag is not placed is a sequence fault: none of its records is accepted and the link is
FAULTED with reason BAD_FRAME. One whose records pass 64 unacknowledged is an overrun: the records before stay
accepted, with their numbers and duplicate marks, the next number advances over the new ones among them, and the link
is FAULTED with reason OVERRUN. Either way the link leaves UP, its orders failed back to their blocks, with its
LINK_STATE. The order of the notices is the model's choice (log 7, log 47). -/
def Obligations.ChangesThatFaultTheLink : Prop :=
  ∀ (srv : ServerId) (tag : BitVec 16) (recs : List ChangeRecord) (b : Nat) (s : State), UpReceives srv s → Tables s →
    1 ≤ recs.length → recs.length ≤ 16 → b = ((intake s srv).next + 65536 - tag.toNat) % 65536 →
    (64 < b → ∃ t, exec (.changes srv tag recs) s = .next t ∧ Leaves srv .faulted .badFrame s t ∧ OthersStay srv s t
      ∧ Spares linkParts s t)
    ∧ (b ≤ 64 → (intake s srv).unack ≤ 64 → 64 < (intake s srv).unack + recs.length →
      ∃ t, exec (.changes srv tag recs) s = .next t
        ∧ (link t srv).state = .faulted ∧ (link t srv).reason = .overrun ∧ (link t srv).changed = now s
        ∧ (link t srv).orders = [] ∧ (link t srv).txQueue = []
        ∧ (credit t srv).free = 4 ∧ (credit t srv).restore = 0 ∧ (credit t srv).ship = 0
        ∧ (∀ v, (volume s v).server = srv →
            (volume t v).state = if (volume s v).state = .attached then .stale else (volume s v).state)
        ∧ (∀ k e, tget t.et.table k = some e → denyPart e srv = ServerPart.fresh)
        ∧ OrdersFailedBack srv s t ∧ LeavingNoticed srv .faulted .overrun s t
        ∧ (∃ qs : List QueuedRecord, (intake t srv).queue = (intake s srv).queue ++ qs
            ∧ qs.map QueuedRecord.record = recs.take (64 - (intake s srv).unack)
            ∧ (∀ i q, qs[i]? = some q → q.num = (tag.toNat + i) % 65536 ∧ q.tag = tag.toNat ∧ q.idx = i
                ∧ q.frameLen = recs.length ∧ q.dup = decide (i < b))
            ∧ ((intake s srv).next < 65536 →
                (intake t srv).next = ((intake s srv).next + (qs.length - min b qs.length)) % 65536)
            ∧ ((intake t srv).queue ≠ [] → (intake t srv).unack = 64))
        ∧ ((intake t srv).draining = true ↔ (intake t srv).queue ≠ [])
        ∧ OthersStay srv s t ∧ Spares linkParts s t)

/-- The record at the head of an intake queue is dealt with: it leaves the queue, its verdict is that of the duplicate
mark or the first check that fails (FORMAT, COUNT, NO_VOLUME, RANGE, CROSSES, BIRTH), and the matching count rises. On
a link that is not draining the verdicts of a frame are gathered, and at its last record the CHG_ACK that carries them
joins this link's transmit queue and the frame's records are acknowledged; a draining intake hands over no CHG_ACK,
and is drained when its queue is empty. Beside the CHG_ACK only orders join a transmit queue, and a record that is not
taken changes nothing else: every link but for its CHG_ACK, every other intake and every other part is as before.
Where the verdicts of a frame are gathered (log 29), and that CHG_ACK joins the queue behind the orders that the
record brings about (log 7), are the model's choices. -/
def Obligations.RecordsDealtWith : Prop :=
  ∀ (srv : ServerId) (q : QueuedRecord) (rest : List QueuedRecord) (s : State), (intake s srv).queue = q :: rest →
    ∀ taken last verdicts, (taken ↔ q.dup = false ∧ recordVerdict s q.record = none) →
    (last ↔ (intake s srv).draining = false ∧ q.idx + 1 = q.frameLen) →
    verdicts = (intake s srv).verdicts ++ ((verdictOf s q).map fun v => (q.idx, v)).toList →
    (∀ r v, r = q.record → v = volume s r.volume.toNat → recordVerdict s r =
      if (r.op ≠ 1 ∧ r.op ≠ 2 ∧ r.op ≠ 3) ∨ 63 < r.volume.toNat ∨ 32767 < r.principal.toNat
          ∨ (r.op = 3 ∧ 32767 < r.toPrincipal.toNat) ∨ (r.op = 1 ∧ 16 ≤ r.restoreTag.toNat ∧ r.restoreTag.toNat ≤ 254) then
        some .format
      else if r.count.toNat = 0 ∨ 65535 < r.count.toNat then some .count
      else if v.state = .unattached then some .noVolume
      else if v.size < r.block.toNat + r.count.toNat then some .range
      else if r.block.toNat / v.regionBlocks ≠ (r.block.toNat + r.count.toNat - 1) / v.regionBlocks then some .crosses
      else if r.op = 2 ∧ (r.birthEpoch = 0 ∨ v.epoch < r.birthEpoch.toNat) then some .birth
      else none)
    ∧ ∃ t, exec (.intakeRecord srv) s = .next t ∧ (intake t srv).queue = rest ∧ (intake t srv).next = (intake s srv).next
      ∧ (match verdictOf s q with
        | none | some .reassigned => taken ∧ (intake t srv).taken = min 4294967295 ((intake s srv).taken + 1)
            ∧ (intake t srv).rejected = (intake s srv).rejected ∧ (intake t srv).duplicates = (intake s srv).duplicates
        | some .duplicate => q.dup = true ∧ (intake t srv).duplicates = min 4294967295 ((intake s srv).duplicates + 1)
            ∧ (intake t srv).rejected = (intake s srv).rejected ∧ (intake t srv).taken = (intake s srv).taken
        | some v => q.dup = false ∧ recordVerdict s q.record = some v
            ∧ (intake t srv).rejected = min 4294967295 ((intake s srv).rejected + 1)
            ∧ (intake t srv).taken = (intake s srv).taken ∧ (intake t srv).duplicates = (intake s srv).duplicates)
      ∧ (last → (intake t srv).unack = (intake s srv).unack - q.frameLen ∧ (intake t srv).verdicts = []
          ∧ (intake t srv).draining = false)
      ∧ ((intake s srv).draining = false → ¬last → (intake t srv).unack = (intake s srv).unack
          ∧ (intake t srv).verdicts = verdicts ∧ (intake t srv).draining = false)
      ∧ ((intake s srv).draining = true → (intake t srv).verdicts = (intake s srv).verdicts
          ∧ (rest = [] → (intake t srv).draining = false ∧ (intake t srv).unack = 0)
          ∧ (rest ≠ [] → (intake t srv).draining = true ∧ (intake t srv).unack = (intake s srv).unack))
      ∧ (∀ j, ∃ orders : List TxFrame, (∀ f ∈ orders, ∃ num body, f = .order num body)
          ∧ ((j = srv.val ∧ last) →
              (link t j).txQueue = (link s j).txQueue ++ orders ++ [.chgAck q.tag q.frameLen verdicts])
          ∧ (¬(j = srv.val ∧ last) → (link t j).txQueue = (link s j).txQueue ++ orders)
          ∧ (¬taken → orders = [] ∧ link t j = { link s j with txQueue := (link t j).txQueue }))
      ∧ (∀ j, j ≠ srv.val → intake t j = intake s j)
      ∧ (¬taken → Unchanged [.links, .intakes] s t) ∧ Spares recordParts s t

/-- INTAKE_RECORD on a record that is taken, in the books, the map, the catalog and the breach counts. An undefined
principal's part is principal 0's, and reassignedCount rises. Its region is marked with the volume's epoch. An ALLOC
raises the principal's usage by the charge, saturating; a FREE takes it away, stopping at 0; a MOVE does both sides;
each group's usage moves by the amount that its principal's did. An ALLOC with the restore tag of a job that charges
the principal converts reservation; any other tag is ignored. Then every subject charged is evaluated, and no other:
its state becomes the comparator's, and where it changes the soft list, the deny table and a QUOTA_STATE with cause
CHARGE follow. A FREE's blocks become a hold of the newest record that contains them, and the pressure test is made,
which may release records. Where no quota state changes, an ALLOC or MOVE that a confirmed denial covers is a breach
of the principal charged with more. That the breach is counted behind the charge (log 7), and the order of the
evaluations and of their notices (log 7, log 43, log 49), with a RESERVE_OVER that falls before SNAP_RELEASED (log
52), are the model's choices. -/
def Obligations.TakenRecordsChargeAndMark : Prop :=
  ∀ (srv : ServerId) (qr : QueuedRecord) (rest : List QueuedRecord) (s : State), (intake s srv).queue = qr :: rest →
    qr.dup = false → recordVerdict s qr.record = none →
    ∀ r p q v c (u : Nat → Nat), r = qr.record →
    p = (if (principal s r.principal.toNat).defined = true then r.principal.toNat else 0) →
    q = (if (principal s r.toPrincipal.toNat).defined = true then r.toPrincipal.toNat else 0) →
    v = r.volume.toNat → c = r.count.toNat * (volume s v).weight → (∀ k, u k = (principal s k).acct.usage) →
    ∃ t, exec (.intakeRecord srv) s = .next t
      ∧ t.book.reassigned = (if (principal s r.principal.toNat).defined = false
            ∨ (r.op = 3 ∧ (principal s r.toPrincipal.toNat).defined = false)
          then min 4294967295 (s.book.reassigned + 1) else s.book.reassigned)
      ∧ tgetD 0 (volume t v).marks (r.block.toNat / (volume s v).regionBlocks) = (volume s v).epoch
      ∧ (∀ i, i ≠ r.block.toNat / (volume s v).regionBlocks →
          tgetD 0 (volume t v).marks i = tgetD 0 (volume s v).marks i)
      ∧ (volume t v).epoch = (volume s v).epoch
      ∧ (∀ k, k ≠ p → (r.op = 3 → k ≠ q) → principal t k = principal s k)
      ∧ (∀ g, (principal s p).group ≠ some g → (r.op = 3 → p ≠ q → (principal s q).group ≠ some g) → group t g = group s g)
      ∧ (∀ charged : List Subject,
          charged = .principal p :: (if r.op = 3 ∧ p = q then [] else
            ((principal s p).group.map Subject.group).toList ++ (if r.op ≠ 3 then [] else
              .principal q :: (if (principal s q).group = (principal s p).group then [] else
                ((principal s q).group.map Subject.group).toList))) →
          (∀ sub, sub ∉ charged → acct t sub = acct s sub)
          ∧ (∀ sub ∈ charged, ∀ a, a = { acct s sub with
                usage := (acct t sub).usage, reservation := (acct t sub).reservation } →
              acct t sub = { a with state := nextState a })
          ∧ t.qm.softList = charged.foldl (fun l sub =>
              if (acct t sub).state = (acct s sub).state then l
              else if (acct s sub).state = .soft then l.filter (· ≠ sub)
              else if (acct t sub).state = .soft then l ++ [sub] else l) s.qm.softList
          ∧ (s.et.backlog = [] → s.et.table.length ≤ 4092 → Tables s →
              (∀ sub ∈ charged, (acct s sub).state.blocked = false → (acct t sub).state.blocked = true →
                ∃ e, tget t.et.table (subjectKey sub) = some e ∧ e.want = .deny)
              ∧ (∀ sub ∈ charged, (acct s sub).state.blocked = true → (acct t sub).state.blocked = false →
                ∀ e, tget t.et.table (subjectKey sub) = some e → e.want = .allow)
              ∧ ∃ after, Raises ((charged.filter fun sub => (acct t sub).state ≠ (acct s sub).state).map (fun sub =>
                  ⟨subjectNotice sub, .quotaState sub (acct s sub).state (acct t sub).state (loadOf (acct t sub))
                    ((acct t sub).soft * 16) ((acct t sub).hard * 16) (acct t sub).grace .charge (now s)⟩) ++ after) s t
                ∧ (r.op = 2 → (∀ x, newestHolder s v = some x → x.2.epoch < r.birthEpoch.toNat) → after = [])))
      ∧ (r.op = 1 → (principal t p).acct.usage = min 17592186044415 (u p + c)
          ∧ (principal t p).outcome =
              { saturated := decide (min 17592186044415 (u p + c) - u p < c ∨ u p = 17592186044415), borrow := false, zero := false }
          ∧ (∀ g, (principal s p).group = some g →
              (group t g).acct.usage = (group s g).acct.usage + (min 17592186044415 (u p + c) - u p))
          ∧ ((∀ j, restoreJob s r.restoreTag.toNat = some j → j.principal ≠ p) →
              (principal t p).acct.reservation = (principal s p).acct.reservation ∧ t.rsc.jobs = s.rsc.jobs
              ∧ ∀ g, (group t g).acct.reservation = (group s g).acct.reservation)
          ∧ (∀ j, restoreJob s r.restoreTag.toNat = some j → j.principal = p →
              (principal t p).acct.reservation = (principal s p).acct.reservation - min c j.remaining
              ∧ restoreJob t r.restoreTag.toNat = some { j with remaining := j.remaining - min c j.remaining }
              ∧ ∀ g, (principal s p).group = some g →
                (group t g).acct.reservation = (group s g).acct.reservation - min c j.remaining))
      ∧ (r.op = 2 → (principal t p).acct.usage = u p - min c (u p)
          ∧ (principal t p).outcome =
              { saturated := false, borrow := decide (u p < c), zero := decide ((principal t p).acct.usage = 0) }
          ∧ (∀ g, (principal s p).group = some g → (group t g).acct.usage = (group s g).acct.usage - min c (u p)))
      ∧ (r.op = 3 → p ≠ q →
          (principal t p).acct.usage = u p - min c (u p) ∧ (principal t q).acct.usage = min 17592186044415 (u q + c)
          ∧ (principal t p).outcome =
              { saturated := false, borrow := decide (u p < c), zero := decide ((principal t p).acct.usage = 0) }
          ∧ (principal t q).outcome =
              { saturated := decide (min 17592186044415 (u q + c) - u q < c ∨ u q = 17592186044415), borrow := false, zero := false }
          ∧ (∀ g, (principal s p).group = some g ∨ (principal s q).group = some g → (group t g).acct.usage =
              (group s g).acct.usage - (if (principal s p).group = some g then min c (u p) else 0)
                + (if (principal s q).group = some g then min 17592186044415 (u q + c) - u q else 0)))
      ∧ (r.op = 3 → p = q → (principal t p).acct.usage = u p
          ∧ (principal t p).outcome = { saturated := false, borrow := false, zero := false }
          ∧ ∀ g, (group t g).acct.usage = (group s g).acct.usage)
      ∧ (r.op ≠ 2 → t.sc.records = s.sc.records ∧ (volume t v).heldTotal = (volume s v).heldTotal)
      ∧ (r.op = 2 → (∀ x, newestHolder s v = some x → x.2.epoch < r.birthEpoch.toNat) →
          t.sc.records = s.sc.records ∧ (volume t v).heldTotal = (volume s v).heldTotal)
      ∧ (r.op = 2 → ∀ x held, newestHolder s v = some x → r.birthEpoch.toNat ≤ x.2.epoch →
          held = (volume s v).heldTotal + r.count.toNat →
          (reserveFlag t v = true ↔ withinReserve t v = false)
          ∧ (∀ s1, Tables s → s1 = setVolume v { volume s v with heldTotal := held }
                (setSnap x.1 { x.2 with holds := addHold x.2.holds ⟨r.birthEpoch.toNat, r.count.toNat⟩ } s) →
              ∃ rel before, Pressured v rel s1 t ∧ Raises (before ++ pressureNotices v rel s1 t) s t)
          ∧ ((volume s v).reserveLimit = 0 ∨ held ≤ (volume s v).reserveLimit →
            (volume t v).heldTotal = held
            ∧ snap t x.1 = some { x.2 with holds := addHold x.2.holds ⟨r.birthEpoch.toNat, r.count.toNat⟩ }))
      ∧ (r.op = 2 → t.et.breachTotal = s.et.breachTotal ∧ (principal t p).breachCount = (principal s p).breachCount)
      ∧ ((∀ sub, (acct t sub).state = (acct s sub).state) → ∀ who isMove (own grp : Bool),
          (r.op = 1 ∧ who = p ∧ isMove = false) ∨ (r.op = 3 ∧ who = q ∧ isMove = true) →
          own = confirmedDenial s (.principal who) srv qr.num →
          (grp = true ↔ ∃ g, (principal s who).group = some g ∧ confirmedDenial s (.group g) srv qr.num = true) →
          if own = true ∨ grp = true then
            (principal t who).breachCount = min 255 ((principal s who).breachCount + 1)
            ∧ t.et.breachTotal = min 4294967295 (s.et.breachTotal + 1)
            ∧ Raises [⟨.principal who, .breach srv v isMove r.count.toNat
                (if own = true ∧ grp = true then .both else if own = true then .own else .group)
                (min 255 ((principal s who).breachCount + 1)) (now s)⟩] s t
          else (principal t who).breachCount = (principal s who).breachCount ∧ t.et.breachTotal = s.et.breachTotal
            ∧ Raises [] s t)
      ∧ Spares recordParts s t

/-- A subtraction takes the smaller of the charge and the usage, sets BORROW when that is less than the charge and ZERO when
nothing is left, and gives the group exactly the amount taken. -/
def Obligations.SubtractionStopsAtZero : Prop :=
  ∀ (s : State) (p c u x : Nat) (t : State), t = subCharge p c s → u = (principal s p).acct.usage → x = min c u →
    (principal t p).acct.usage = u - x
    ∧ ((principal t p).outcome.borrow = true ↔ x < c) ∧ ((principal t p).outcome.zero = true ↔ u - x = 0)
    ∧ (principal t p).outcome.saturated = false
    ∧ (∀ g, (principal s p).group = some g → x ≤ (group s g).acct.usage →
        (group t g).acct.usage + x = (group s g).acct.usage)
    ∧ (∀ g, (principal s p).group ≠ some g → group t g = group s g)
    ∧ (∀ k, k ≠ p → principal t k = principal s k)

/-! ### Completions -/

/-- A DENY_ACK or ALLOW_ACK handed to the Enforcement Table: it confirms the entry when it answers the entry's want, a
confirmed DENY taking the intake's next number as its mark, and an ALLOW entry that every UP server has confirmed leaves
the table; an acknowledgement of another want frees the server's part, which carries the want again if it was not sent. -/
def Obligations.AcknowledgementsConfirmTheWant : Prop :=
  ∀ (srv : ServerId) (num : BitVec 16) (k : Want) (key : Nat) (e : DenyEntry) (s : State), UpReceives srv s →
    Outstanding srv num.toNat (match k with
      | .deny => .deny
      | .allow => .allow) s →
    denyInFlight s srv num.toNat = some key → tget s.et.table key = some e →
    (∀ sub ∈ s.et.backlog, subjectKey sub ≠ key) →
    ∃ t, exec (match k with
        | .deny => .denyAck srv num
        | .allow => .allowAck srv num) s = .next t
      ∧ (e.want = k → k = .deny → ∃ e', tget t.et.table key = some e' ∧ e'.want = .deny
          ∧ denyPart e' srv = { status := .confirmed, inFlight := none, mark := some (intake s srv).next })
      ∧ (e.want = k → k = .allow →
          if (∀ j ∈ serverList, j ≠ srv.val → linkUp s j = true → (denyPart e j).status = .confirmed) then
            tget t.et.table key = none
          else ∃ e', tget t.et.table key = some e' ∧ e'.want = .allow
            ∧ denyPart e' srv = { status := .confirmed, inFlight := none, mark := none })
      ∧ (e.want ≠ k → ∃ e', tget t.et.table key = some e' ∧ e'.want = e.want
          ∧ ((denyPart e srv).status ≠ .notSent → denyPart e' srv = { denyPart e srv with inFlight := none })
          ∧ ((denyPart e srv).status = .notSent → ∃ n,
              denyPart e' srv = { denyPart e srv with status := .sent, inFlight := some ⟨n, e.want⟩ }))
      ∧ (link t srv).silence = 0 ∧ OthersStay srv s t
      ∧ Spares (.links :: .denyTable :: .backlog :: raiseParts) s t

/-- SNAP_DONE makes the record LIVE, with its notice, the DC told, retention and the pressure test: of the records of
its volume and kind that retention may release, each with keepCount or more younger ones, and each over the maximum
age, is released. SNAP_FAIL releases the record, which leaves the catalog, with SNAP_FAILED; DROP_SNAP_ACK ends the
DROPPING record. With no message waiting between the catalog and the DC, a job of the volume in WAITING_SNAPSHOT with
that target becomes SUSPENDED while the window is CLOSED, and SHIPPING while it is OPEN, or completes when it has
nothing to ship; at SNAP_FAIL it ends NO_TARGET. A job in another state or with another target stays as it is. The
order of the parts of one completion is the model's choice (log 7, log 13). -/
def Obligations.SnapshotCompletionsMoveTheRecord : Prop :=
  ∀ (srv : ServerId) (num : BitVec 16) (id : Nat) (r : Snap) (s : State), UpReceives srv s → Tables s →
    (Outstanding srv num.toNat .snap s → snapInFlight s srv num.toNat true = some (id, r) →
      (∃ t, exec (.snapDone srv num) s = .next t
        ∧ (∀ s1, s1 = notify (.snapshot id) (.snapTaken id r.volume r.epoch r.kind r.keep (now s))
              (setSnap id { r with state := .live, inFlight := none } (orderTaken srv num.toNat s)) →
            t = grantAll (dcListen (pressureTest r.volume (takeRetention r.volume r.kind
              { s1 with sc := { s1.sc with toDc := s1.sc.toDc ++ [.done r.volume id] } }))))
        ∧ (∃ x, snap t id = some x ∧ x.state ≠ .taking ∧ x.volume = r.volume ∧ x.epoch = r.epoch ∧ x.kind = r.kind
            ∧ x.keep = r.keep ∧ x.created = r.created)
        ∧ (∀ u i x n others, u = setSnap id { r with state := .live, inFlight := none } s → snap u i = some x →
            others = (u.sc.records.filter fun e => decide (e.1 ≠ i) && decide (e.2.volume = r.volume)
              && decide (e.2.kind = r.kind) && e.2.releasable) →
            (x.volume = r.volume → x.kind = r.kind → x.releasable = true → governingRule s r.volume r.kind = some n →
              (rule s n).keepCount ≤ (others.filter fun e => decide (x.epoch < e.2.epoch)).length
                ∨ ((rule s n).maxAge ≠ 0 ∧ (rule s n).maxAge < now s - x.created) →
              ∃ y, snap t i = some y ∧ y.state = .dropping)
            ∧ ((volume s x.volume).reserveLimit = 0 →
                (x.volume = r.volume → x.kind = r.kind → x.releasable = true → ∀ n, governingRule s r.volume r.kind = some n →
                  (others.filter fun e => decide (x.epoch ≤ e.2.epoch)).length < (rule s n).keepCount
                  ∧ ((rule s n).maxAge = 0 ∨ now s - x.created ≤ (rule s n).maxAge)) →
                ∃ y, snap t i = some y ∧ y.state = x.state))
        ∧ (s.sc.toDc = [] → (dupJob s r.volume = none → dupJob t r.volume = none)
          ∧ ∀ j, dupJob s r.volume = some j →
            (j.state = .waitingSnapshot → j.target = id → j.batch = none →
              (s.cwu.slot = none → dupJob t r.volume = some { j with state := .suspended })
              ∧ (s.cwu.slot ≠ none → shipSet (volume s r.volume) j.baseEpoch j.cursor ≠ [] → ∃ k, dupJob t r.volume = some k
                  ∧ k.state = .shipping ∧ k.target = id ∧ k.baseEpoch = j.baseEpoch ∧ k.created = j.created)
              ∧ (s.cwu.slot ≠ none → shipSet (volume s r.volume) j.baseEpoch j.cursor = [] → dupJob t r.volume = none
                  ∧ (volume t r.volume).offsiteBase = some id ∧ ∃ e, tget t.dc.lastEnd r.volume = some e ∧ e.reason = .complete))
            ∧ (j.state ≠ .waitingSnapshot ∨ j.target ≠ id → ∃ k, dupJob t r.volume = some k ∧ k.state = j.state
                ∧ k.target = j.target ∧ k.baseEpoch = j.baseEpoch ∧ k.regions = j.regions ∧ k.retry = j.retry))
        ∧ Spares (.credits :: .restoreJobs :: .budget :: .turn :: .toDc :: dupParts) s t)
      ∧ (∀ code, ∃ t, exec (.snapFail srv num code) s = .next t ∧ snap t id = none
        ∧ (∀ v, (volume t v).epoch = (volume s v).epoch)
        ∧ (dupJob s r.volume = none → s.sc.toDc = [] → ∃ before,
            Raises (before ++ [⟨.volume r.volume, .snapFailed id r.kind (.server code.toNat) (now s)⟩]) s t)
        ∧ (s.sc.toDc = [] → ∀ j, dupJob s r.volume = some j →
            (j.state = .waitingSnapshot → j.target = id → dupJob t r.volume = none
              ∧ (volume t r.volume).offsiteBase = (volume s r.volume).offsiteBase
              ∧ ∃ e, tget t.dc.lastEnd r.volume = some e ∧ e.reason = .noTarget ∧ e.target = id ∧ e.baseBefore = e.baseAfter)
            ∧ (j.state ≠ .waitingSnapshot ∨ j.target ≠ id → ∃ k, dupJob t r.volume = some k ∧ k.state = j.state
                ∧ k.target = j.target ∧ k.baseEpoch = j.baseEpoch ∧ k.regions = j.regions ∧ k.retry = j.retry))
        ∧ Spares (.credits :: .restoreJobs :: .budget :: .turn :: .toDc :: dupParts) s t))
    ∧ (Outstanding srv num.toNat .dropSnap s → snapInFlight s srv num.toNat false = some (id, r) →
      ∃ t, exec (.dropSnapAck srv num) s = .next t ∧ snap t id = none ∧ (∀ k, k ≠ id → snap t k = snap s k)
        ∧ link t srv = link (orderTaken srv num.toNat s) srv ∧ (∀ j, j ≠ srv.val → link t j = link s j)
        ∧ Unchanged [.links, .snaps] s t)

/-- COPY_DONE makes the extent DONE; COPY_FAIL makes it FAILED, or PENDING again after a first passing failure of an
ACTIVE job. A job with nothing PENDING or ORDERED ends, its slot free and its last end record written. The restore
credit returns: with nothing else on the server to grant it to, it is free again. The order of the grants is the
model's choice (log 13). -/
def Obligations.CopyCompletionsSettleTheExtent : Prop :=
  ∀ (srv : ServerId) (num : BitVec 16) (id : Nat) (j j1 : RestoreJob) (f : Extent → Extent) (c : Instr) (s : State),
    UpReceives srv s → Tables s → Outstanding srv num.toNat .copy s → findExtent s srv num.toNat = some (id, j) →
    (c = .copyDone srv num ∧ (∀ x, f x = { x with status := .done, order := none }))
      ∨ (∃ b : BitVec 8, c = .copyFail srv num b ∧ b ≠ 2 ∧ b ≠ 3 ∧ (∀ x, f x =
          if x.retry = true then { x with status := .failed, reason := .io, order := none }
          else if j.state = .active then { x with status := .pending, retry := true, order := none }
          else { x with status := .failed, reason := .cancelled, order := none }))
      ∨ (c = .copyFail srv num 2 ∧ (∀ x, f x = { x with status := .failed, reason := .sourceGone, order := none }))
      ∨ (c = .copyFail srv num 3 ∧ (∀ x, f x = { x with status := .failed, reason := .noSpace, order := none })) →
    j1 = { j with extents := j.extents.map fun x => if x.order = some num.toNat then f x else x } →
    ∃ t, exec c s = .next t
      ∧ t = grantAll (testRestoreEnd id (setRestoreJob id j1 (returnRestore srv (orderTaken srv num.toNat s))))
      ∧ ((∀ x ∈ j1.extents, x.status = .done ∨ x.status = .failed) → restoreJob t id = none ∧ id ∉ t.cca.acceptance
          ∧ ∃ e, tget t.rsc.lastEnd id = some e ∧ e.released = j.remaining ∧ e.principal = j.principal
            ∧ e.snapshot = j.snapshot ∧ e.time = now s
            ∧ e.copied = ((j1.extents.filter fun x => x.status = .done).map Extent.count).sum
            ∧ e.outcome = (if j.state = .draining then .cancelled
                else if ∀ x ∈ j1.extents, x.status ≠ .failed then .done
                else if ∃ x ∈ j1.extents, x.status = .done then .partly else .failed))
      ∧ ((∃ x ∈ j1.extents, x.status = .pending ∨ x.status = .ordered) → tget t.rsc.lastEnd id = tget s.rsc.lastEnd id
          ∧ ∃ j' : RestoreJob, restoreJob t id = some j' ∧ j'.state = j.state ∧ j'.remaining = j.remaining
            ∧ ∀ (i : Nat) (x : Extent), j1.extents[i]? = some x → x.status ≠ .pending → j'.extents[i]? = some x)
      ∧ ((∀ x ∈ j1.extents, x.status ≠ .pending) →
          (∀ k i, restoreJob s k = some i → k ≠ id → jobServer s i = srv → ∀ x ∈ i.extents, x.status ≠ .pending) →
          (∀ v d, dupJob s v = some d → serverOf s v = srv → d.state ≠ .shipping ∨ d.batch ≠ none) →
          (credit t srv).restore = (credit s srv).restore - 1 ∧ (credit t srv).ship = (credit s srv).ship
          ∧ (credit t srv).free = (if (credit s srv).restore = 0 then (credit s srv).free else (credit s srv).free + 1))
      ∧ OthersStay srv s t ∧ Spares (.credits :: .restoreJobs :: .dupJobs :: .budget :: .turn :: restoreEndParts) s t

/-- SHIP_DONE counts the batch and settles its job, which completes when nothing remains: the target becomes the base.
SHIP_FAIL puts the cursor back to the batch's first region for a retry, and the third failure in a row ends the job
FAILED. A DRAINING job ends HALTED. Each end has its DUP_STATE, behind what the unpin of a snapshot raises. The ship
credit returns: with nothing on the server to grant it to, it is free again. The order of the grants is the model's
choice (log 13). -/
def Obligations.ShipCompletionsSettleTheJob : Prop :=
  ∀ (srv : ServerId) (num : BitVec 16) (v : Nat) (j : DupJob) (b : Batch) (s : State), UpReceives srv s → Tables s →
    Outstanding srv num.toNat .ship s → findBatch s srv num.toNat = some (v, j) → j.batch = some b →
    ∀ alone : Prop, alone = ((∀ k i, restoreJob s k = some i → jobServer s i = srv → ∀ x ∈ i.extents, x.status ≠ .pending)
      ∧ ∀ w d, dupJob s w = some d → w ≠ v → serverOf s w = srv → d.state ≠ .shipping ∨ d.batch ≠ none) →
    (∃ t, exec (.shipDone srv num) s = .next t
      ∧ (∀ regions mib batches, regions = min 4294967295 (j.regions + b.regions.length) →
          mib = min 4294967295 (j.mib + b.mib) → batches = min 4294967295 (j.batches + 1) →
          (j.state = .draining → ∃ before, Raises (before ++ [⟨.volume v, .dupState .halted .host j.target j.targetEpoch
            (baseEpoch s v) (baseEpoch s v) regions mib batches j.failures j.lastFailure (now s)⟩]) s t)
          ∧ (j.state ≠ .draining → shipSet (volume s v) j.baseEpoch j.cursor = [] → ∃ before, Raises (before
            ++ [⟨.volume v, .dupState .complete .none j.target j.targetEpoch (baseEpoch s v) j.targetEpoch regions mib
              batches j.failures j.lastFailure (now s)⟩]) s t)
          ∧ (j.state ≠ .draining → shipSet (volume s v) j.baseEpoch j.cursor ≠ [] → Raises [] s t))
      ∧ (j.state = .draining → dupJob t v = none ∧ (volume t v).offsiteBase = (volume s v).offsiteBase
          ∧ ∃ e, tget t.dc.lastEnd v = some e ∧ e.reason = .halted ∧ e.batches = min 4294967295 (j.batches + 1))
      ∧ (j.state ≠ .draining → shipSet (volume s v) j.baseEpoch j.cursor = [] →
          dupJob t v = none ∧ (volume t v).offsiteBase = some j.target
          ∧ ∃ e, tget t.dc.lastEnd v = some e ∧ e.reason = .complete ∧ e.target = j.target
            ∧ e.regions = min 4294967295 (j.regions + b.regions.length) ∧ e.mib = min 4294967295 (j.mib + b.mib)
            ∧ e.batches = min 4294967295 (j.batches + 1) ∧ e.baseAfter = j.targetEpoch)
      ∧ (j.state ≠ .draining → shipSet (volume s v) j.baseEpoch j.cursor ≠ [] →
          ∃ k, dupJob t v = some k ∧ k.state = j.state ∧ k.target = j.target ∧ k.retry = 0
            ∧ k.regions = min 4294967295 (j.regions + b.regions.length) ∧ k.mib = min 4294967295 (j.mib + b.mib)
            ∧ k.batches = min 4294967295 (j.batches + 1))
      ∧ (j.state ≠ .shipping ∨ shipSet (volume s v) j.baseEpoch j.cursor = [] → alone → (credit t srv).ship = (credit s srv).ship - 1
        ∧ (credit t srv).restore = (credit s srv).restore
        ∧ (credit t srv).free = (if (credit s srv).ship = 0 then (credit s srv).free else (credit s srv).free + 1))
      ∧ OthersStay srv s t ∧ Spares (.credits :: .restoreJobs :: .budget :: .turn :: dupParts) s t)
    ∧ (∀ code, ∃ t, exec (.shipFail srv num code) s = .next t
      ∧ (∀ (reason : DupReason) (cause : DupCause), (j.state = .draining ∧ reason = .halted ∧ cause = .host)
            ∨ (j.state ≠ .draining ∧ 2 ≤ j.retry ∧ reason = .failed ∧ cause = .none) →
          ∃ before, Raises (before ++ [⟨.volume v, .dupState reason cause j.target j.targetEpoch (baseEpoch s v) (baseEpoch s v)
            j.regions j.mib j.batches (min 65535 (j.failures + 1)) (.server code.toNat) (now s)⟩]) s t)
      ∧ (j.state ≠ .draining → j.retry < 2 → Raises [] s t)
      ∧ (j.state = .draining → dupJob t v = none
          ∧ ∃ e, tget t.dc.lastEnd v = some e ∧ e.reason = .halted ∧ e.failures = min 65535 (j.failures + 1))
      ∧ (j.state ≠ .draining → 2 ≤ j.retry → dupJob t v = none
          ∧ ∃ e, tget t.dc.lastEnd v = some e ∧ e.reason = .failed ∧ e.failures = min 65535 (j.failures + 1))
      ∧ (j.state ≠ .draining → j.retry < 2 → ∃ k, dupJob t v = some k ∧ k.state = j.state ∧ k.target = j.target
          ∧ k.retry = j.retry + 1 ∧ k.failures = min 65535 (j.failures + 1) ∧ k.lastFailure = .server code.toNat
          ∧ (k.batch = none → k.cursor = b.regions.head?.getD j.cursor))
      ∧ (j.state ≠ .shipping ∨ 2 ≤ j.retry → alone → (credit t srv).ship = (credit s srv).ship - 1
        ∧ (credit t srv).restore = (credit s srv).restore
        ∧ (credit t srv).free = (if (credit s srv).ship = 0 then (credit s srv).free else (credit s srv).free + 1))
      ∧ (volume t v).offsiteBase = (volume s v).offsiteBase
      ∧ OthersStay srv s t ∧ Spares (.credits :: .restoreJobs :: .budget :: .turn :: dupParts) s t)

/-- A completion whose number the order table does not hold is discarded: only the receive side and the silence count
move. One that answers another kind of order is a protocol fault, with all that follows from it. The order of the
notices is the model's choice (log 7, log 47). -/
def Obligations.StrayCompletions : Prop :=
  ∀ (c : Instr) (srv : ServerId) (num : BitVec 16) (k : OrderKind) (s : State), completes c = some (srv, num, k) →
    UpReceives srv s → Tables s →
    ((∀ o ∈ (link s srv).orders, o.num ≠ num.toNat) →
      ∃ t, exec c s = .next t ∧ link t srv = { link s srv with rx := .hunting, silence := 0 }
        ∧ (∀ j, j ≠ srv.val → link t j = link s j) ∧ Unchanged [.links] s t)
    ∧ (∀ other, Outstanding srv num.toNat other s → other ≠ k →
      ∃ t, exec c s = .next t ∧ Leaves srv .faulted .badFrame s t ∧ OthersStay srv s t ∧ Spares linkParts s t)

/-! ### Warm restart -/

/-- RESTART is answered and no frame is taken from then on. The warm restart takes UP and FAULTED links to SYNCING,
empties their queues and the intakes, and aborts every job. The Notice Queue is emptied, its mark and lost count
cleared, and its settings and sequence counter stand; unless it then runs over, it holds what the blocks raise of
themselves: each STALE volume, the backlog, each reserveOver flag and each aborted job. WARM_RESTART_END takes
requests again. That the blocks' parts are one step, in one order (log 14), that it begins with a command of its own
(log 56), that waiting sample events and window opens stand through it (log 38), the part time in each VOLUME_STALE
(log 62), and that the backlog is tested for its notice when it has fed the freed places (log 68), are the model's
choices and reading. -/
def Obligations.WarmRestart : Prop :=
  (∀ (h : ReqHead) (s : State), Takes h 0 s → ∃ t, exec (.restart h) s = .next t ∧ Answered h (accept [] .none) s t
    ∧ t.lu.restart = .taken ∧ Unchanged (.restart :: answerParts) s t)
  ∧ (∀ s : State, s.lu.restart = .due → Tables s → ∃ t, exec .warmRestart s = .next t ∧ t.lu.restart = .inProgress
    ∧ (∀ srv : ServerId,
        ((link s srv).state = .up ∨ (link s srv).state = .faulted → (link t srv).state = .syncing
          ∧ (link t srv).reason = .restart ∧ (link t srv).changed = now s)
        ∧ ((link s srv).state = .down ∨ (link s srv).state = .syncing → (link t srv).state = (link s srv).state
          ∧ (link t srv).reason = (link s srv).reason)
        ∧ (linkUp s srv = true → (link t srv).orders = [] ∧ (link t srv).txQueue = []) ∧ (link t srv).held = none
        ∧ (intake t srv).queue = [] ∧ (intake t srv).draining = false ∧ (intake t srv).unack = 0
        ∧ ((∀ q ∈ (intake s srv).queue, q.dup = true) → (intake t srv).next = (intake s srv).next)
        ∧ (∀ pre q rest, (intake s srv).queue = pre ++ q :: rest → (∀ x ∈ pre, x.dup = true) → q.dup = false →
            (intake t srv).next = q.num))
    ∧ (∀ v, (volume t v).state =
        if (volume s v).state = .attached ∧ (volume s v).server < 8 ∧ linkUp s (volume s v).server = true then .stale
        else (volume s v).state)
    ∧ t.rsc.jobs = [] ∧ t.cca.acceptance = [] ∧ t.dc.jobs = []
    ∧ (∀ id j, restoreJob s id = some j → ∃ e, tget t.rsc.lastEnd id = some e ∧ e.outcome = .aborted
        ∧ e.released = j.remaining ∧ e.principal = j.principal ∧ e.snapshot = j.snapshot)
    ∧ (∀ v j, dupJob s v = some j → ∃ e, tget t.dc.lastEnd v = some e ∧ e.reason = .halted ∧ e.target = j.target
        ∧ e.baseBefore = e.baseAfter)
    ∧ (∀ p, (principal t p).acct.usage = (principal s p).acct.usage ∧ (principal t p).acct.grace = (principal s p).acct.grace)
    ∧ (∀ e ∈ t.nq.queue, s.nq.age ≤ e.age) ∧ (∀ m, t.nq.slot = some m → s.nq.age ≤ m.age)
    ∧ (NoticeInv s → s.nq.express = none → t.nq.overflow = false →
        t.nq.lost = 0 ∧ t.nq.slot = none ∧ t.nq.seq = (s.nq.seq + t.nq.queue.length) % 4294967296
        ∧ (∀ v, (volume t v).state = .stale → ∃ e ∈ t.nq.queue, e.subject = .volume v
            ∧ e.content = .volumeStale true (volume t v).server .stale .restart (now s))
        ∧ (t.et.backlog ≠ [] → ∃ e ∈ t.nq.queue, e.subject = .device
            ∧ e.content = .enforceBacklog true t.et.backlog.length t.et.table.length (now s))
        ∧ (∀ v, reserveFlag t v = true → ∃ e ∈ t.nq.queue, ∃ held limit n, e.subject = .volume v
            ∧ e.content = .reserveOver true held limit n (now s))
        ∧ (∀ id j, restoreJob s id = some j → ∃ e ∈ t.nq.queue, e.subject = .job id
            ∧ e.content = .restoreDone id j.principal j.volume j.snapshot .aborted j.copied (j.countStatus .done)
                (j.countStatus .failed) j.failCounts j.remaining (now s))
        ∧ (∀ v j, dupJob s v = some j → ∃ e ∈ t.nq.queue, ∃ base, e.subject = .volume v
            ∧ e.content = .dupState .halted .restart j.target j.targetEpoch base base j.regions j.mib j.batches j.failures
                j.lastFailure (now s)))
    ∧ Unchanged (.replies :: .restart :: leaveParts) s t ∧ (s.pins.mgmtCarrier = true → t.lu.replies = s.lu.replies))
  ∧ (∀ s : State, s.lu.restart = .inProgress → exec .warmRestartEnd s = .next { s with lu := { s.lu with restart := .none } })

/-! ### Requests -/

/-- ATTACH_VOLUME: its checks in order, the record it makes with the region geometry of its size, and VOLUME_STALE for
a volume whose server's link is not UP. That its notice comes before its reply is the model's choice (log 65). -/
def Obligations.AttachVolume : Prop :=
  ∀ (h : ReqHead) (vol srv : BitVec 8) (size : BitVec 64) (weight : BitVec 8) (s : State), Takes h 11 s →
    ∃ t, exec (.attachVolume h vol srv size weight) s = .next t
      ∧ (if 63 < vol.toNat ∨ 7 < srv.toNat ∨ size.toNat < 4096 ∨ 17179869184 < size.toNat ∨ weight.toNat < 16
            ∨ 64 < weight.toNat then Refused h .malformed s t
        else if (volume s vol.toNat).state ≠ .unattached then Refused h .state s t
        else ∃ b k st, st = (if linkUp s srv.toNat = true then VolState.attached else .stale)
          ∧ Answered h (accept [] (.attached st b k 1)) s t
          ∧ (∃ i, b = 2 ^ i) ∧ 256 ≤ b ∧ size.toNat ≤ b * 4096
          ∧ (∀ i, 256 ≤ 2 ^ i → size.toNat ≤ 2 ^ i * 4096 → b ≤ 2 ^ i)
          ∧ size.toNat ≤ k * b ∧ k * b < size.toNat + b
          ∧ volume t vol.toNat = { Volume.none with
              state := st, server := srv.toNat, size := size.toNat, weight := weight.toNat, regionBlocks := b
              regionCount := k, epoch := 1 }
          ∧ (∀ v, v ≠ vol.toNat → volume t v = volume s v)
          ∧ (st = .attached → Unchanged (.volumes :: answerParts) s t)
          ∧ Raises (if st = .stale then [⟨.volume vol.toNat, .volumeStale true srv.toNat .stale .link (now s)⟩] else []) s t)
      ∧ Unchanged ([.volumes, .queue, .sequence, .lostMark] ++ answerParts) s t

/-- SET_VOLUME: its checks in order, the settings that are present, and the pressure test of a changed limit: releases
oldest first, each with SNAP_RELEASED, until the holds are within it or nothing is left to release, with RESERVE_OVER
where the flag moves. That the value of an absent setting is not checked (log 55), that a RESERVE_OVER that falls
comes before SNAP_RELEASED (log 52), and that the notices come before the reply (log 65), are the model's choices. -/
def Obligations.SetVolume : Prop :=
  ∀ (h : ReqHead) (vol : BitVec 8) (weight : Setting 8) (limit : Setting 64) (grp nightly : Setting 8) (s : State),
    Takes h 16 s → Tables s →
    ∃ t, exec (.setVolume h vol weight limit grp nightly) s = .next t
      ∧ (1 < weight.present.toNat ∨ 1 < limit.present.toNat ∨ 1 < grp.present.toNat ∨ 1 < nightly.present.toNat →
          Refused h .malformed s t)
      ∧ (∀ w l g n r, settingOf weight = some w → settingOf limit = some l → settingOf grp = some g →
          settingOf nightly = some n → r = volume s vol.toNat →
          if 63 < vol.toNat ∨ (∃ x ∈ w.toList, x < 16 ∨ 64 < x) ∨ (∃ x ∈ g.toList, 7 < x) ∨ (∃ x ∈ n.toList, 1 < x) then
            Refused h .malformed s t
          else if r.state = .unattached then Refused h .noSuch s t
          else if w.getD r.weight ≠ r.weight ∧ (hasSnaps s vol.toNat = true ∨ hasRestore s vol.toNat = true
              ∨ namesDup s vol.toNat = true) then Refused h .inUse s t
          else if g.getD r.dupGroup ≠ r.dupGroup ∧ (dupJob s vol.toNat).map DupJob.state = some .shipping then
            Refused h .inUse s t
          else ∀ lim on, lim = min 1099511627775 (l.getD r.reserveLimit) → on = (match n with
              | none => r.nightly
              | some x => decide (x = 1)) →
            Answered h (accept (if 1099511627775 < l.getD 0 then [3] else [])
              (.settings (w.getD r.weight) lim (g.getD r.dupGroup) on)) s t
            ∧ (volume t vol.toNat).weight = w.getD r.weight ∧ (volume t vol.toNat).reserveLimit = lim
            ∧ (volume t vol.toNat).dupGroup = g.getD r.dupGroup ∧ (volume t vol.toNat).nightly = on
            ∧ (volume t vol.toNat).epoch = r.epoch ∧ (volume t vol.toNat).marks = r.marks
            ∧ (volume t vol.toNat).offsiteBase = r.offsiteBase ∧ (volume t vol.toNat).state = r.state
            ∧ (∀ v, v ≠ vol.toNat → volume t v = volume s v)
            ∧ (lim = r.reserveLimit → (volume t vol.toNat).heldTotal = r.heldTotal ∧ Unchanged (.volumes :: answerParts) s t)
            ∧ (lim ≠ r.reserveLimit → (reserveFlag t vol.toNat = true ↔ withinReserve t vol.toNat = false))
            ∧ (∀ s1, lim ≠ r.reserveLimit → s1 = setVolume vol.toNat { r with reserveLimit := lim } s →
                ∃ rel, Pressured vol.toNat rel s1 t ∧ Raises (pressureNotices vol.toNat rel s1 t) s t)
            ∧ (∀ isOver holders, lim ≠ r.reserveLimit →
                (∀ e ∈ s.sc.records, e.2.volume = vol.toNat → e.2.releasable = false) →
                isOver = (decide (lim ≠ 0) && decide (lim < r.heldTotal)) →
                holders = (s.sc.records.filter fun e => decide (e.2.volume = vol.toNat)
                  && (decide (0 < e.2.pinCount) || e.2.keep)).length →
                Raises (if isOver = reserveFlag s vol.toNat then []
                  else [⟨.volume vol.toNat, .reserveOver isOver r.heldTotal lim holders (now s)⟩]) s t))
      ∧ Unchanged (catalogParts ++ answerParts) s t

/-- DETACH_VOLUME: its checks in order; the record returns to its UNATTACHED values, the catalog's records of the
volume go, and what its blocks were charged for stays charged. A STALE volume's condition falls. That VOLUME_STALE
names the server that the volume had (log 63), and that it comes before the reply (log 65), are the model's choices. -/
def Obligations.DetachVolume : Prop :=
  ∀ (h : ReqHead) (vol : BitVec 8) (s : State), Takes h 1 s → Tables s →
    ∃ t, exec (.detachVolume h vol) s = .next t
      ∧ (if 63 < vol.toNat then Refused h .malformed s t
        else if (volume s vol.toNat).state = .unattached then Refused h .noSuch s t
        else if hasRestore s vol.toNat = true ∨ namesDup s vol.toNat = true then Refused h .inUse s t
        else Answered h (accept [] (.detachedChargesKept (s.sc.records.filter fun e => e.2.volume = vol.toNat).length)) s t
          ∧ volume t vol.toNat = Volume.none ∧ (∀ v, v ≠ vol.toNat → volume t v = volume s v)
          ∧ (∀ id r, snap t id = some r ↔ snap s id = some r ∧ r.volume ≠ vol.toNat)
          ∧ reserveFlag t vol.toNat = false
          ∧ (reserveFlag s vol.toNat = false → Raises (if (volume s vol.toNat).state = .stale then
              [⟨.volume vol.toNat, .volumeStale false (volume s vol.toNat).server .unattached .detached (now s)⟩] else []) s t))
      ∧ Unchanged ([.volumes, .snaps, .reserveOver, .queue, .sequence, .lostMark] ++ answerParts) s t

/-- SET_SILENCE brings the limit into 1 to 60; SET_SLOTMASK sets a group's pending mask and not its current one. -/
def Obligations.SetSilenceAndSlotmask : Prop :=
  (∀ (h : ReqHead) (limit : BitVec 16) (s : State), Takes h 2 s → ∃ t, exec (.setSilence h limit) s = .next t
    ∧ Answered h (accept (if limit.toNat < 1 ∨ 60 < limit.toNat then [1] else []) .none) s t
    ∧ t.lu.silenceLimit = max 1 (min 60 limit.toNat) ∧ Unchanged (.silenceLimit :: answerParts) s t)
  ∧ (∀ (h : ReqHead) (g : BitVec 8) (mask : BitVec 32) (s : State), Takes h 5 s →
    ∃ t, exec (.setSlotmask h g mask) s = .next t
      ∧ (if 7 < g.toNat then Refused h .malformed s t
        else Answered h (accept [] .none) s t
          ∧ slotMask t.cwu g.toNat = { current := (slotMask s.cwu g.toNat).current, pending := some mask }
          ∧ (∀ k, k ≠ g.toNat → slotMask t.cwu k = slotMask s.cwu k) ∧ Unchanged (.masks :: answerParts) s t))

/-- SET_WINDOW: a start above 1,439 is refused, length and capacity are clamped, and the three values become the current
settings while the window is CLOSED, the pending set while it is OPEN. -/
def Obligations.SetWindowAppliesOrDefers : Prop :=
  ∀ (h : ReqHead) (start len : BitVec 16) (cap : BitVec 32) (s : State), Takes h 8 s →
    ∃ t, exec (.setWindow h start len cap) s = .next t
      ∧ (if 1439 < start.toNat then Refused h .malformed s t
        else ∀ w clamps, w = { start := start.toNat, len := max 1 (min 45 len.toNat), capacity := max 1 (min 65535 cap.toNat) } →
          clamps = (if len.toNat < 1 ∨ 45 < len.toNat then [2] else [])
            ++ (if cap.toNat < 1 ∨ 65535 < cap.toNat then [3] else []) →
          Answered h ⟨if clamps = [] then .ok else .clamped, clamps, .windowSet s.cwu.slot.isSome⟩ s t
          ∧ (s.cwu.slot = none → t.cwu = { s.cwu with settings := w })
          ∧ (s.cwu.slot ≠ none → t.cwu = { s.cwu with pendingSet := some w }))
      ∧ Unchanged (.windowSettings :: answerParts) s t

/-- SET_TREND brings its three fields into range; a T that differs restarts the interval count, and k and W are those of the
next sweep to start. -/
def Obligations.SetTrendAppliesThreeValues : Prop :=
  ∀ (h : ReqHead) (t0 : BitVec 32) (k w : BitVec 16) (s : State), Takes h 8 s →
    ∃ t, exec (.setTrend h t0 k w) s = .next t
      ∧ (∀ tv kv wv clamps, tv = max 1 (min 1440 t0.toNat) → kv = max 1 (min 8 k.toNat) → wv = min 255 w.toNat →
          clamps = (if tv = t0.toNat then [] else [1]) ++ (if kv = k.toNat then [] else [2])
            ++ (if wv = w.toNat then [] else [3]) →
          Answered h ⟨if clamps = [] then .ok else .clamped, clamps, .trend tv kv wv⟩ s t
          ∧ t.cwu = { s.cwu with trendT := tv, trendCount := if tv = s.cwu.trendT then s.cwu.trendCount else 0 }
          ∧ t.ce = { s.ce with k := kv, w := wv })
      ∧ Unchanged (.interval :: .trendSettings :: answerParts) s t

/-- LOAD_USAGE sets a principal's usage and moves its group's by the difference, with the uPrev values, and both are
evaluated; principal 0 keeps its trend. -/
def Obligations.LoadUsageCorrectsTheBooks : Prop :=
  ∀ (h : ReqHead) (p : BitVec 16) (usage : BitVec 64) (s : State), Takes h 10 s →
    ∃ t, exec (.loadUsage h p usage) s = .next t
      ∧ (if 32767 < p.toNat then Refused h .malformed s t
        else if (principal s p.toNat).defined = false then Refused h .noSuch s t
        else ∀ r u new, r = principal s p.toNat → u = r.acct.usage → new = min 1099511627775 usage.toNat * 16 →
          Answered h (accept (if 1099511627775 < usage.toNat then [2] else []) (.loaded u new)) s t
          ∧ (∀ a, a = { r.acct with
                usage := new
                trend := { r.acct.trend with uPrev := if p.toNat = 0 then r.acct.trend.uPrev else new } } →
              principal t p.toNat = { r with acct := { a with state := nextState a } })
          ∧ (∀ k, k ≠ p.toNat → principal t k = principal s k)
          ∧ (∀ g x a, r.group = some g → x = (group s g).acct →
              a = { x with usage := x.usage + new - u, trend := { x.trend with uPrev := x.trend.uPrev + new - u } } →
              group t g = { group s g with acct := { a with state := nextState a } })
          ∧ (∀ g, r.group ≠ some g → group t g = group s g))
      ∧ Unchanged (evalParts ++ answerParts) s t

/-- DEFINE_PRINCIPAL and DEFINE_GROUP: their checks in order and the records they make. -/
def Obligations.DefineSubjects : Prop :=
  (∀ (h : ReqHead) (p : BitVec 16) (user : BitVec 32) (g : BitVec 16) (s : State), Takes h 8 s →
    ∃ t, exec (.definePrincipal h p user g) s = .next t
      ∧ (if 32767 < p.toNat ∨ (1023 < g.toNat ∧ g.toNat ≠ 65535) then Refused h .malformed s t
        else if (principal s p.toNat).defined = true then Refused h .state s t
        else if g.toNat ≠ 65535 ∧ (group s g.toNat).defined = false then Refused h .noSuch s t
        else Answered h (accept [] .none) s t
          ∧ principal t p.toNat = ⟨true, user.toNat, if g.toNat = 65535 then none else some g.toNat, Account.fresh,
              ⟨false, false, false⟩, 0⟩
          ∧ (∀ k, k ≠ p.toNat → principal t k = principal s k)
          ∧ (∀ k, group t k = if k = g.toNat ∧ k ≠ 65535 then { group s k with members := (group s k).members + 1 }
              else group s k)
          ∧ Unchanged (.principals :: .groups :: answerParts) s t))
  ∧ (∀ (h : ReqHead) (g : BitVec 16) (s : State), Takes h 2 s →
    ∃ t, exec (.defineGroup h g) s = .next t
      ∧ (if 1023 < g.toNat then Refused h .malformed s t
        else if (group s g.toNat).defined = true then Refused h .state s t
        else Answered h (accept [] .none) s t
          ∧ group t g.toNat = { defined := true, acct := Account.fresh, members := 0 }
          ∧ (∀ k, k ≠ g.toNat → group t k = group s k) ∧ Unchanged (.groups :: answerParts) s t))

/-- SET_GROUP moves a principal's usage and reservation from its old group to the new one, with the uPrev values and the
member counts, and both groups are evaluated. -/
def Obligations.SetGroupMovesTheCharges : Prop :=
  ∀ (h : ReqHead) (p g : BitVec 16) (s : State), Takes h 4 s →
    ∃ t, exec (.setGroup h p g) s = .next t
      ∧ (if 32767 < p.toNat ∨ (1023 < g.toNat ∧ g.toNat ≠ 65535) then Refused h .malformed s t
        else if (principal s p.toNat).defined = false ∨ (g.toNat ≠ 65535 ∧ (group s g.toNat).defined = false) then
          Refused h .noSuch s t
        else ∀ r new, r = principal s p.toNat → new = (if g.toNat = 65535 then none else some g.toNat) →
          Answered h (accept [] .none) s t
          ∧ (r.group = new → Unchanged answerParts s t)
          ∧ (r.group ≠ new → principal t p.toNat = { r with group := new }
            ∧ (∀ k x a, r.group = some k → x = (group s k).acct →
                a = { x with
                  usage := x.usage - r.acct.usage, reservation := x.reservation - r.acct.reservation
                  trend := { x.trend with uPrev := x.trend.uPrev - r.acct.usage } } →
                group t k = { group s k with acct := { a with state := nextState a }, members := (group s k).members - 1 })
            ∧ (∀ k x a, new = some k → x = (group s k).acct →
                a = { x with
                  usage := x.usage + r.acct.usage, reservation := x.reservation + r.acct.reservation
                  trend := { x.trend with uPrev := x.trend.uPrev + r.acct.usage } } →
                group t k = { group s k with acct := { a with state := nextState a }, members := (group s k).members + 1 })
            ∧ (∀ k, r.group ≠ some k → new ≠ some k → group t k = group s k))
          ∧ (∀ k, k ≠ p.toNat → principal t k = principal s k))
      ∧ Unchanged (evalParts ++ answerParts) s t

/-- DROP_PRINCIPAL gives its usage to principal 0 and leaves an undefined record; DROP_GROUP an undefined group.
Neither stays on the soft list or in the backlog, and its deny entry comes to want ALLOW: it is handed to every UP
server with nothing in flight, or leaves the table when no server is UP. That an entry which wants ALLOW already is
reset too is the model's reading (log 15); that its order carries the userNumber that the record held is its choice
(log 16). -/
def Obligations.DropSubjects : Prop :=
  (∀ (h : ReqHead) (p : BitVec 16) (s : State), Takes h 2 s →
    ∃ t, exec (.dropPrincipal h p) s = .next t
      ∧ (if 32767 < p.toNat then Refused h .malformed s t
        else if (principal s p.toNat).defined = false then Refused h .noSuch s t
        else if p.toNat = 0 then Refused h .state s t
        else if chargedByRestore s p.toNat = true then Refused h .inUse s t
        else ∀ r z u a, r = principal s p.toNat → z = principal s 0 → u = min 17592186044415 (z.acct.usage + r.acct.usage) →
          a = { z.acct with usage := u } →
          Answered h (accept [] (.moved r.acct.usage)) s t
          ∧ principal t p.toNat = Principal.undefined
          ∧ (z.acct.usage ≤ 17592186044415 → principal t 0 = { z with
              acct := { a with state := nextState a }
              outcome := ⟨decide (u < z.acct.usage + r.acct.usage ∨ z.acct.usage = 17592186044415), false, false⟩ })
          ∧ (∀ k, k ≠ p.toNat → k ≠ 0 → principal t k = principal s k)
          ∧ (∀ g, r.group = some g → (group t g).members = (group s g).members - 1)
          ∧ (∀ g x, r.group = some g → z.group ≠ some g → x = { (group s g).acct with usage := (group s g).acct.usage - r.acct.usage } →
              (group t g).acct = { x with state := nextState x })
          ∧ (∀ g x, r.group = some g → z.group = some g → z.acct.usage ≤ 17592186044415 →
              x = { (group s g).acct with usage := (group s g).acct.usage - r.acct.usage + (u - z.acct.usage) } →
              (group t g).acct = { x with state := nextState x })
          ∧ (∀ g x, r.group ≠ some g → z.group = some g → z.acct.usage ≤ 17592186044415 →
              x = { (group s g).acct with usage := (group s g).acct.usage + (u - z.acct.usage) } →
              group t g = { group s g with acct := { x with state := nextState x } })
          ∧ (∀ g, r.group ≠ some g → z.group ≠ some g → group t g = group s g)
          ∧ .principal p.toNat ∉ t.qm.softList ∧ .principal p.toNat ∉ t.et.backlog
          ∧ ((∀ x ∈ s.et.backlog, subjectKey x ≠ p.toNat) → Tables s → Unblocked (.principal p.toNat) s t))
      ∧ Unchanged (evalParts ++ answerParts) s t)
  ∧ (∀ (h : ReqHead) (g : BitVec 16) (s : State), Takes h 2 s →
    ∃ t, exec (.dropGroup h g) s = .next t
      ∧ (if 1023 < g.toNat then Refused h .malformed s t
        else if (group s g.toNat).defined = false then Refused h .noSuch s t
        else if 0 < (group s g.toNat).members then Refused h .inUse s t
        else Answered h (accept [] .none) s t ∧ group t g.toNat = Group.undefined
          ∧ (∀ k, k ≠ g.toNat → group t k = group s k)
          ∧ .group g.toNat ∉ t.qm.softList ∧ .group g.toNat ∉ t.et.backlog
          ∧ ((∀ x ∈ s.et.backlog, subjectKey x ≠ subjectKey (.group g.toNat)) → Tables s →
              Unblocked (.group g.toNat) s t))
      ∧ Unchanged (.groups :: .softList :: enforceParts ++ answerParts) s t)

/-- SET_LIMITS and GRANT_GRACE set a subject's limits or grace and evaluate it, with QUOTA_STATE where its state
changes; GRANT_GRACE ALL starts the grace sweep. A subject that SET_LIMITS blocks gets a deny entry or, in a full
table, a place in the backlog; one that it unblocks loses its place or its entry comes to want ALLOW; the entry's
order goes once to each UP server. The backlog's rise and fall raise ENFORCE_BACKLOG. The comparator gives HARD from
the hard limit on, keeps HARD until the load falls below its release point, and SOFT or SPENT until it falls below
theirs; a load of 0 releases both, a limit of 0 disables its test, and without grace SOFT is SPENT. That
ENFORCE_BACKLOG is raised before QUOTA_STATE (log 7), and both before the reply (log 65), are the model's choices. -/
def Obligations.LimitsAndGraceAreEvaluated : Prop :=
  (∀ (a : Account) (load : Nat) (released softly : QuotaState), load = min (a.usage + a.reservation) 17592186044415 →
    softly = (if 0 < a.grace then .soft else .spent) →
    released = (if a.soft = 0 ∨ load < (a.soft - a.band) * 16 ∨ load = 0 then .under else softly) →
    (a.hard ≠ 0 → a.hard * 16 ≤ load → nextState a = .hard)
    ∧ (a.hard = 0 ∨ load < a.hard * 16 →
      nextState a = match a.state with
        | .hard => if a.hard = 0 ∨ load < (a.hard - a.band) * 16 ∨ load = 0 then released else .hard
        | .under => if a.soft ≠ 0 ∧ a.soft * 16 ≤ load then softly else .under
        | .soft => released
        | .spent => released))
  ∧ (∀ (h : ReqHead) (w : WireSubject) (soft hard : BitVec 64) (band : BitVec 32) (s : State), Takes h 23 s →
    ∃ t, exec (.setLimits h w soft hard band) s = .next t
      ∧ (quotaSubject w = none → Refused h .malformed s t)
      ∧ (∀ sub, quotaSubject w = some sub →
          if subjectDefined s sub = false then Refused h .noSuch s t
          else ∀ sv hv bv a old new, hv = min 1099511627775 hard.toNat →
            sv = (if hv = 0 then min 1099511627775 soft.toNat else min soft.toNat hv) → bv = min 65535 band.toNat →
            a = { acct s sub with soft := sv, hard := hv, band := bv } → old = a.state → new = nextState a →
            acct t sub = { a with state := new } ∧ (∀ k, k ≠ sub → acct t k = acct s k)
            ∧ Answered h (accept ((if sv = soft.toNat then [] else [2]) ++ (if hv = hard.toNat then [] else [3])
                ++ (if bv = band.toNat then [] else [4])) .none) s t
            ∧ (∀ entry key quota, key = subjectKey sub → entry = tget s.et.table key →
                quota = (if new = old then [] else
                  [⟨subjectNotice sub, .quotaState sub old new (loadOf a) (a.soft * 16) (a.hard * 16) a.grace .limits (now s)⟩]) →
                Tables s → (∀ x ∈ s.et.backlog, subjectKey x = key → x = sub) →
                (old.blocked = new.blocked → t.et = s.et ∧ t.lu.links = s.lu.links ∧ Raises quota s t)
                ∧ (old.blocked = false → new.blocked = true → entry ≠ none ∨ s.et.table.length < 4096 →
                    Blocked sub s t ∧ t.et.backlog = s.et.backlog ∧ Raises quota s t)
                ∧ (old.blocked = false → new.blocked = true → entry = none → 4096 ≤ s.et.table.length →
                    t.et.table = s.et.table ∧ t.lu.links = s.lu.links ∧ t.et.backlog = s.et.backlog ++ [sub]
                    ∧ Raises ((if s.et.backlog = [] then
                        [⟨.device, .enforceBacklog true 1 s.et.table.length (now s)⟩] else []) ++ quota) s t)
                ∧ (old.blocked = true → new.blocked = false → sub ∈ s.et.backlog →
                    t.et.table = s.et.table ∧ t.lu.links = s.lu.links ∧ t.et.backlog = s.et.backlog.filter (· ≠ sub)
                    ∧ Raises ((if t.et.backlog = [] then
                        [⟨.device, .enforceBacklog false 0 s.et.table.length (now s)⟩] else []) ++ quota) s t)
                ∧ (old.blocked = true → new.blocked = false → sub ∉ s.et.backlog →
                    Unblocked sub s t ∧ (s.et.backlog = [] → Raises quota s t))))
      ∧ Unchanged (evalParts ++ answerParts) s t)
  ∧ (∀ (h : ReqHead) (w : WireSubject) (minutes : BitVec 32) (s : State), Takes h 7 s → w ≠ ⟨0, 0⟩ →
    ∃ t, exec (.grantGrace h w minutes) s = .next t
      ∧ (quotaSubject w = none → Refused h .malformed s t)
      ∧ (∀ sub, quotaSubject w = some sub →
          if subjectDefined s sub = false then Refused h .noSuch s t
          else ∀ a, a = { acct s sub with grace := min 65535 minutes.toNat } →
            acct t sub = { a with state := nextState a } ∧ (∀ k, k ≠ sub → acct t k = acct s k)
            ∧ (nextState a ≠ a.state → ∃ before, Raises (before ++ [⟨subjectNotice sub,
                .quotaState sub a.state (nextState a) (loadOf a) (a.soft * 16) (a.hard * 16) a.grace .grace (now s)⟩]) s t)
            ∧ Answered h (accept (if 65535 < minutes.toNat then [2] else []) .none) s t)
      ∧ Unchanged (evalParts ++ answerParts) s t)
  ∧ (∀ (h : ReqHead) (minutes : BitVec 32) (c : Instr) (s : State), Takes h 7 s →
    c = .grantGraceAll h minutes ∨ c = .grantGrace h ⟨0, 0⟩ minutes →
    ∃ t, exec c s = .next t
      ∧ (if s.qm.sweep ≠ none then Refused h .state s t
        else Answered h (accept (if 65535 < minutes.toNat then [2] else []) .none) s t
          ∧ t.qm.sweep = some { pos := 0, minutes := min 65535 minutes.toNat } ∧ Unchanged (.graceSweep :: answerParts) s t))

/-- TAKE_SNAPSHOT: its checks in order; a take makes a TAKING record under the first id from the next-id counter on that no
record holds, passing over 0, advances the volume's epoch and hands its SNAP order to the server. -/
def Obligations.TakeSnapshot : Prop :=
  ∀ (h : ReqHead) (vol kind keep : BitVec 8) (s : State), Takes h 3 s →
    ∃ t, exec (.takeSnapshot h vol kind keep) s = .next t
      ∧ (kind.toNat < 1 ∨ 3 < kind.toNat ∨ 1 < keep.toNat ∨ 63 < vol.toNat → Refused h .malformed s t)
      ∧ (∀ k r, snapKindOf kind = some k → keep.toNat ≤ 1 → vol.toNat ≤ 63 → r = volume s vol.toNat →
          if r.state = .unattached then Refused h .noSuch s t
          else if r.state = .stale then Refused h .state s t
          else if 1024 ≤ s.sc.records.length ∨ 64 ≤ (s.sc.records.filter fun e => e.2.volume = vol.toNat).length
              ∨ (reserveFlag s vol.toNat = true ∧ k ≠ .nightly) ∨ 4294967295 ≤ r.epoch then Refused h .full s t
          else ∃ id, snap s id = none ∧ id ≠ 0 ∧ Answered h (accept [] (.taken id r.epoch)) s t
            ∧ (if s.sc.nextId ≤ id then ∀ i, s.sc.nextId ≤ i → i < id → i = 0 ∨ snap s i ≠ none
              else (∀ i, s.sc.nextId ≤ i → i ≤ 65535 → i = 0 ∨ snap s i ≠ none) ∧ ∀ i, 1 ≤ i → i < id → snap s i ≠ none)
            ∧ snap t id = some ⟨vol.toNat, r.epoch, k, now s, .taking, decide (keep = 1), 0,
                some (link s r.server).counter, []⟩
            ∧ (∀ i, i ≠ id → snap t i = snap s i)
            ∧ t.sc.nextId = (if 65535 ≤ id then 1 else id + 1)
            ∧ volume t vol.toNat = { r with epoch := r.epoch + 1 } ∧ (∀ v, v ≠ vol.toNat → volume t v = volume s v)
            ∧ (link t r.server).orders = (link s r.server).orders ++ [⟨(link s r.server).counter, .snap⟩]
            ∧ (link t r.server).txQueue =
                (link s r.server).txQueue ++ [.order (link s r.server).counter (.snap vol.toNat id r.epoch k)]
            ∧ (∀ j, j ≠ r.server → link t j = link s j))
      ∧ Unchanged ([.snaps, .volumes, .nextId, .links] ++ answerParts) s t

/-- RELEASE_SNAPSHOT, SET_KEEP and SET_RETENTION: their checks in order; a release makes the record DROPPING, with
SNAP_RELEASED. Of its holds, the entries whose birth is at most the epoch of the next older record that can hold them
pass to that record, and the rest are freed; with no older record all are freed. Keep turned off on a LIVE record
brings the volume's pressure test. That the passing entries are added in ascending birth (log 50), that a RESERVE_OVER
comes before SNAP_RELEASED (log 52), and that the notices come before the reply (log 65), are the model's choices. -/
def Obligations.ReleaseKeepAndRetention : Prop :=
  (∀ (h : ReqHead) (id : BitVec 16) (s : State), Takes h 2 s →
    ∃ t, exec (.releaseSnapshot h id) s = .next t
      ∧ (id = 0 → Refused h .malformed s t) ∧ (id ≠ 0 → snap s id.toNat = none → Refused h .noSuch s t)
      ∧ (∀ r, id ≠ 0 → snap s id.toNat = some r →
          if r.state ≠ .live then Refused h .state s t
          else if 0 < r.pinCount then Refused h .inUse s t
          else ∃ passed freed, passed + freed = (r.holds.map Hold.blocks).sum
            ∧ Answered h (accept [] (.released passed freed)) s t
            ∧ (Tables s → ∀ o y, snap s o = some y → y.volume = r.volume → y.holder = true → y.epoch < r.epoch →
                (∀ k z, k ≠ o → snap s k = some z → z.volume = r.volume → z.holder = true → z.epoch < r.epoch →
                  z.epoch < y.epoch) →
                passed = ((r.holds.filter fun e => e.birth ≤ y.epoch).map Hold.blocks).sum
                ∧ snap t o = some { y with holds := (r.holds.filter fun e => e.birth ≤ y.epoch).foldl addHold y.holds })
            ∧ (Tables s → (∀ o y, snap s o = some y → y.volume = r.volume → y.holder = true → r.epoch ≤ y.epoch) →
                passed = 0)
            ∧ (∃ before, Raises (before ++ [⟨.snapshot id.toNat, .snapReleased id.toNat r.volume r.epoch r.kind .host passed freed
                (volume t r.volume).heldTotal (now s)⟩]) s t)
            ∧ snap t id.toNat = some { r with
                holds := [], state := .dropping
                inFlight := if linkUp s (volume s r.volume).server = true then
                  some (link s (volume s r.volume).server).counter else none }
            ∧ volume t r.volume = { volume s r.volume with heldTotal := (volume s r.volume).heldTotal - freed }
            ∧ (∀ v, v ≠ r.volume → volume t v = volume s v))
      ∧ Unchanged (catalogParts ++ answerParts) s t)
  ∧ (∀ (h : ReqHead) (id : BitVec 16) (keep : BitVec 8) (s : State), Takes h 3 s → Tables s →
    ∃ t, exec (.setKeep h id keep) s = .next t
      ∧ (id = 0 ∨ 1 < keep.toNat → Refused h .malformed s t)
      ∧ (id ≠ 0 → keep.toNat ≤ 1 → snap s id.toNat = none → Refused h .noSuch s t)
      ∧ (∀ r, id ≠ 0 → keep.toNat ≤ 1 → snap s id.toNat = some r →
          if r.state = .dropping then Refused h .state s t
          else Answered h (accept [] .none) s t
            ∧ (¬(r.keep = true ∧ keep = 0 ∧ r.state = .live) →
                snap t id.toNat = some { r with keep := decide (keep = 1) } ∧ (∀ i, i ≠ id.toNat → snap t i = snap s i)
                ∧ Unchanged (.snaps :: answerParts) s t)
            ∧ (r.keep = true → keep = 0 → r.state = .live →
                (∃ x, snap t id.toNat = some x ∧ x.keep = false ∧ x.pinCount = r.pinCount ∧ x.state ≠ .taking)
                ∧ (reserveFlag t r.volume = true ↔ withinReserve t r.volume = false)
                ∧ ∀ s1, s1 = setSnap id.toNat { r with keep := false } s →
                  ∃ rel, Pressured r.volume rel s1 t ∧ Raises (pressureNotices r.volume rel s1 t) s t))
      ∧ Unchanged (catalogParts ++ answerParts) s t)
  ∧ (∀ (h : ReqHead) (n valid value mask kind : BitVec 8) (count : BitVec 16) (age : BitVec 32) (s : State), Takes h 11 s →
    ∃ t, exec (.setRetention h n valid value mask kind count age) s = .next t
      ∧ (7 < n.toNat ∨ 1 < valid.toNat ∨ 63 < value.toNat ∨ 63 < mask.toNat ∨ snapKindOf kind = none →
          Refused h .malformed s t)
      ∧ (∀ k, n.toNat ≤ 7 → valid.toNat ≤ 1 → value.toNat ≤ 63 → mask.toNat ≤ 63 → snapKindOf kind = some k →
          Answered h (accept (if 63 < count.toNat then [6] else []) .none) s t
          ∧ rule t n.toNat = ⟨decide (valid = 1), value.toNat, mask.toNat, k, min 63 count.toNat, age.toNat⟩
          ∧ (∀ i, i ≠ n.toNat → rule t i = rule s i))
      ∧ Unchanged (.rules :: answerParts) s t)

/-- START_RESTORE: its checks in order; an accepted job takes the lowest free slot, reserves what it may charge and
pins its source. It stays PENDING while its server has no free credit or stands at its restore limit, which is 3 while
a SHIPPING job's group is open there and 4 otherwise; with a credit in reach it is granted one before every candidate
of lower priority, and waits behind one of its own priority or a higher one. CANCEL_RESTORE cancels the PENDING
extents; a job with none ORDERED ends at once, with RESTORE_DONE. That a count above 65,535 is refused MALFORMED is
the model's reading (log 53); that the grants are part of the same step (log 13), that RESTORE_DONE is raised behind
the notices of the release and the unpin (log 7), and that all come before the reply (log 65), are its choices. -/
def Obligations.StartAndCancelRestore : Prop :=
  (∀ (h : ReqHead) (id p : BitVec 16) (mode prio n : BitVec 8) (xs : List ExtentField) (s : State),
    Takes h (7 + 20 * n.toNat) s → xs.length = n.toNat →
    ∃ t, exec (.startRestore h id p mode prio n xs) s = .next t
      ∧ ((∀ k < 16, restoreJob s k ≠ none) → Refused h .full s t)
      ∧ (∀ slot, slot < 16 → restoreJob s slot = none → (∀ k < slot, restoreJob s k ≠ none) →
          (snap s id.toNat = none → Refused h .noSuch s t)
          ∧ (∀ r v a m amount, snap s id.toNat = some r → v = volume s r.volume → a = principal s p.toNat →
              m = restoreModeOf mode → amount = (xs.map fun x => x.count.toNat).sum * v.weight →
              if p.toNat ≤ 32767 ∧ a.defined = false then Refused h .noSuch s t
              else if r.state ≠ .live ∨ v.state = .stale then Refused h .state s t
              else if m = none ∨ p.toNat = 0 ∨ 32767 < p.toNat ∨ 3 < prio.toNat ∨ n.toNat = 0 ∨ 32 < n.toNat
                  ∨ (∃ x ∈ xs, x.count.toNat = 0 ∨ 65535 < x.count.toNat
                      ∨ v.size < x.source.toNat + x.count.toNat ∨ v.size < x.dest.toNat + x.count.toNat) then Refused h .malformed s t
              else if m = some .charge ∧ quotaRefuses s p.toNat amount = true then Refused h .quota s t
              else Answered h (accept [] (.restoreStarted slot amount)) s t
                ∧ (∃ j, restoreJob t slot = some j ∧ j.state = .active ∧ j.snapshot = id.toNat ∧ j.volume = r.volume
                    ∧ j.principal = p.toNat ∧ some j.mode = m ∧ j.priority = prio.toNat ∧ j.accepted = now s
                    ∧ j.total = amount ∧ j.remaining = amount
                    ∧ j.extents.map (fun e => (e.source, e.count, e.dest)) =
                        xs.map (fun x => (x.source.toNat, x.count.toNat, x.dest.toNat))
                    ∧ ∀ e ∈ j.extents, e.status = .pending ∨ e.status = .ordered)
                ∧ t.cca.acceptance = s.cca.acceptance ++ [slot]
                ∧ (∀ b, b = { a.acct with reservation := a.acct.reservation + amount } →
                    (principal t p.toNat).acct = { b with state := nextState b })
                ∧ (∀ g b, a.group = some g → b = { (group s g).acct with reservation := (group s g).acct.reservation + amount } →
                    (group t g).acct = { b with state := nextState b })
                ∧ snap t id.toNat = some { r with pinCount := r.pinCount + 1 }
                ∧ (∀ k limit j, k = credit s v.server → restoreJob t slot = some j →
                    limit = (if ∃ e ∈ s.dc.jobs, serverOf s e.1 = v.server ∧ e.2.state = .shipping
                        ∧ (volume s e.1).dupGroup ∈ s.cca.openGroups then 3 else 4) →
                    v.server < 8 → slot ∉ s.cca.acceptance → Tables s →
                    (k.free = 0 ∨ limit ≤ k.restore ∨ linkUp s v.server = false → ∀ e ∈ j.extents, e.status = .pending)
                    ∧ (k.free ≠ 0 → k.restore < limit → linkUp s v.server = true →
                        (∀ e ∈ restoreCandidates s v.server, e.2.priority < prio.toNat) →
                        ∃ num e rest, j.extents = e :: rest ∧ e.status = .ordered ∧ e.order = some num
                          ∧ ⟨num, .copy⟩ ∈ (link t v.server).orders)
                    ∧ (k.free = 1 → k.restore < limit → linkUp s v.server = true →
                        ∀ before c after, restoreCandidates s v.server = before ++ c :: after → prio.toNat ≤ c.2.priority →
                        (∀ e ∈ before, e.2.priority < c.2.priority) → (∀ e ∈ after, e.2.priority ≤ c.2.priority) →
                        c.1 ∉ before.map Prod.fst → c.1 ∉ after.map Prod.fst →
                        (∀ e ∈ j.extents, e.status = .pending)
                        ∧ ∀ pre x post, c.2.extents = pre ++ x :: post → x.status = .pending →
                          (∀ y ∈ pre, y.status ≠ .pending) → ∃ num, restoreJob t c.1 = some { c.2 with
                            extents := pre ++ { x with status := .ordered, order := some num } :: post }))))
      ∧ Unchanged (evalParts ++ [.acceptance, .snaps, .restoreJobs, .credits, .dupJobs, .budget, .turn] ++ answerParts) s t)
  ∧ (∀ (h : ReqHead) (id : BitVec 8) (s : State), Takes h 1 s →
    ∃ t, exec (.cancelRestore h id) s = .next t
      ∧ (15 < id.toNat → Refused h .malformed s t)
      ∧ (id.toNat ≤ 15 → restoreJob s id.toNat = none → Refused h .noSuch s t)
      ∧ (∀ j, id.toNat ≤ 15 → restoreJob s id.toNat = some j →
          if j.state = .draining then Refused h .state s t
          else Answered h (accept [] (.stillOrdered (j.extents.filter fun x => x.status = .ordered).length)) s t
            ∧ (if (∀ x ∈ j.extents, x.status ≠ .ordered) then
                restoreJob t id.toNat = none ∧ id.toNat ∉ t.cca.acceptance
                ∧ ∃ e, tget t.rsc.lastEnd id.toNat = some e ∧ e.outcome = .cancelled ∧ e.released = j.remaining
                ∧ (∃ before failed n by_, Raises (before ++ [⟨.job id.toNat, .restoreDone id.toNat j.principal j.volume j.snapshot
                    .cancelled j.copied (j.countStatus .done) n by_ j.remaining (now s)⟩]) s t
                  ∧ n = failed.length ∧ failed = j.extents.filter (fun x => decide (x.status = .pending ∨ x.status = .failed))
                  ∧ by_.cancelled = (failed.filter fun x => decide (x.status = .pending ∨ x.reason = .cancelled)).length)
              else restoreJob t id.toNat = some { j with
                state := .draining
                extents := j.extents.map fun x => if x.status = .pending then
                  { x with status := .failed, reason := .cancelled, order := none } else x })
            ∧ (∀ k, k ≠ id.toNat → restoreJob t k = restoreJob s k))
      ∧ Unchanged (restoreEndParts ++ answerParts) s t)

/-- START_DUP, HALT_DUP and SET_BASE: their checks in order, the job made or ended with its DUP_STATE, and the base
moved with its pins. A new job is served at once when it is eligible, a credit is free, no restore competes, and it
comes first after the turn among its server's eligible volumes: its batch takes ship-set regions in order, up to 8
that the budget holds, or the one that costs more than a whole untouched slot, draws the budget and moves the turn.
That the grants follow in the same step (log 13), and that the notices come before the reply (log 65), are the model's
choices. -/
def Obligations.DuplicationRequests : Prop :=
  (∀ (h : ReqHead) (vol : BitVec 8) (s : State), Takes h 1 s → Tables s →
    ∃ t, exec (.startDup h vol) s = .next t
      ∧ (∀ r v, v = vol.toNat → r = volume s v →
          if 63 < v then Refused h .malformed s t
          else if r.state = .unattached then Refused h .noSuch s t
          else if dupJob s v ≠ none then Refused h .inUse s t
          else (newestLive s v = none → Refused h .state s t)
            ∧ (∀ id x, newestLive s v = some (id, x) →
                if x.epoch ≤ baseEpoch s v then Refused h .state s t
                else Answered h (accept [] (.dupStarted id x.epoch (baseEpoch s v) (shipSet r (baseEpoch s v) 0).length)) s t
                  ∧ (s.cwu.slot = none ∨ shipSet r (baseEpoch s v) 0 ≠ [] → ∃ j, dupJob t v = some j
                      ∧ j.state = (if s.cwu.slot = none then .suspended else .shipping) ∧ j.target = id
                      ∧ j.targetEpoch = x.epoch ∧ j.baseEpoch = baseEpoch s v ∧ j.origin = .host ∧ j.created = now s
                      ∧ j.retry = 0 ∧ j.regions = 0 ∧ snap t id = some { x with pinCount := x.pinCount + 1 })
                  ∧ (s.cwu.slot = none → Raises [⟨.volume v, .dupState .created .none id x.epoch (baseEpoch s v) (baseEpoch s v)
                      0 0 0 0 .none (now s)⟩] s t)
                  ∧ (∀ j srv mib fits ordinary (place : Nat → Nat), s.cwu.slot ≠ none → dupJob t v = some j →
                      shipSet r (baseEpoch s v) 0 ≠ [] → srv = r.server → srv < 8 → mib = r.regionBlocks / 256 →
                      tsorted r.marks = true →
                      ordinary = decide (mib ≤ s.dc.remaining) →
                      fits = (ordinary || (decide (s.dc.full < mib) && decide (s.dc.full ≠ 0)
                        && decide (s.dc.remaining = s.dc.full))) →
                      (∀ k, place k = (match s.dc.turn with
                        | none => k
                        | some n => (k + 63 - n) % 64)) →
                      (s.dc.turn.all fun n => n < 64) = true →
                      ((∀ k i, dupJob s k = some i → dupEligible s k i = true → serverOf s k = srv ∧ place v < place k ∧ k < 64) →
                        restoreCandidates s srv = [] → (credit s srv).free ≠ 0 → r.dupGroup ∈ s.dc.openGroups →
                        r.state = .attached → fits = true →
                        ∃ b, j.batch = some b
                          ∧ b.regions = (shipSet r (baseEpoch s v) 0).take (if ordinary = true then min 8 (s.dc.remaining / mib) else 1)
                          ∧ b.mib = (if ordinary = true then b.regions.length * mib else mib)
                          ∧ ⟨b.order, .ship⟩ ∈ (link t srv).orders
                          ∧ .order b.order (.ship v id x.epoch (baseEpoch s v) r.regionBlocks b.regions) ∈ (link t srv).txQueue
                          ∧ ((credit s srv).free = 1 →
                            t.dc.remaining = (if ordinary = true then s.dc.remaining - b.mib else 0) ∧ t.dc.turn = some v))
                      ∧ ((credit s srv).free = 0 ∨ r.dupGroup ∉ s.dc.openGroups ∨ r.state ≠ .attached → j.batch = none))
                  ∧ (s.cwu.slot ≠ none → shipSet r (baseEpoch s v) 0 = [] → dupJob t v = none
                      ∧ (volume t v).offsiteBase = some id)))
      ∧ Unchanged ([.credits, .restoreJobs, .budget, .turn, .replies, .mgmtRx] ++ dupParts) s t)
  ∧ (∀ (h : ReqHead) (vol : BitVec 8) (s : State), Takes h 1 s → Tables s →
    ∃ t, exec (.haltDup h vol) s = .next t
      ∧ (63 < vol.toNat → Refused h .malformed s t)
      ∧ (vol.toNat ≤ 63 → dupJob s vol.toNat = none → Refused h .noSuch s t)
      ∧ (∀ j, vol.toNat ≤ 63 → dupJob s vol.toNat = some j →
          if j.state = .draining then Refused h .state s t
          else Answered h (accept [] (.halted j.batch.isSome)) s t
            ∧ (j.batch ≠ none → dupJob t vol.toNat = some { j with state := .draining })
            ∧ (j.batch = none → dupJob t vol.toNat = none
                ∧ (∃ e, tget t.dc.lastEnd vol.toNat = some e ∧ e.reason = .halted ∧ e.target = j.target
                  ∧ e.baseBefore = e.baseAfter)
                ∧ ∃ before base, Raises (before ++ [⟨.volume vol.toNat, .dupState .halted .host j.target j.targetEpoch base base
                    j.regions j.mib j.batches j.failures j.lastFailure (now s)⟩]) s t))
      ∧ (volume t vol.toNat).offsiteBase = (volume s vol.toNat).offsiteBase
      ∧ Unchanged ([.credits, .restoreJobs, .budget, .turn, .replies, .mgmtRx] ++ dupParts) s t)
  ∧ (∀ (h : ReqHead) (vol : BitVec 8) (id : BitVec 16) (s : State), Takes h 3 s → Tables s →
    ∃ t, exec (.setBase h vol id) s = .next t
      ∧ (∀ v r new, v = vol.toNat → r = volume s v → new = (if id = 0 then none else some id.toNat) →
          if 63 < v then Refused h .malformed s t
          else if r.state = .unattached ∨ (id ≠ 0 ∧ (∀ x, snap s id.toNat = some x → x.volume ≠ v)) then Refused h .noSuch s t
          else if dupJob s v ≠ none then Refused h .inUse s t
          else if id ≠ 0 ∧ (snap s id.toNat).map Snap.state ≠ some .live then Refused h .state s t
          else (∃ e, Answered h (accept [] (.base r.offsiteBase new e)) s t
              ∧ (id = 0 → e = 0) ∧ (∀ x, id ≠ 0 → snap s id.toNat = some x → e = x.epoch))
            ∧ (volume t v).offsiteBase = new
            ∧ (new = r.offsiteBase → Unchanged answerParts s t)
            ∧ (∀ x, id ≠ 0 → new ≠ r.offsiteBase → snap s id.toNat = some x →
                ∃ y, snap t id.toNat = some y ∧ y.pinCount = x.pinCount + 1)
            ∧ (∀ old x, r.offsiteBase = some old → new ≠ r.offsiteBase → snap s old = some x →
                ∃ y, snap t old = some y ∧ y.pinCount = x.pinCount - 1))
      ∧ Unchanged (catalogParts ++ answerParts) s t)

/-- SET_NOTICE applies a kind's settings to its entries too; FETCH_NOTICES gives the first eligible entries in queue
order, removes the events among them and marks the conditions seen. That a fetched notice's express flag is its kind's
at the fetch is the model's reading (log 21). -/
def Obligations.SetNoticeAndFetch : Prop :=
  (∀ (h : ReqHead) (kind : BitVec 8) (prio : BitVec 16) (ex : BitVec 8) (s : State), Takes h 4 s →
    ∃ t, exec (.setNotice h kind prio ex) s = .next t
      ∧ (kind.toNat < 1 ∨ 13 < kind.toNat ∨ 1 < ex.toNat → Refused h .malformed s t)
      ∧ (∀ k p x, NoticeKind.ofCode kind.toNat = some k → ex.toNat ≤ 1 → p = min 3 prio.toNat →
          x = (if ex = 1 then some k else if s.nq.express = some k then none else s.nq.express) →
          Answered h (accept (if 3 < prio.toNat then [2] else []) (.noticeSet p (decide (ex = 1)) x)) s t
          ∧ t.nq.priority k = p ∧ (∀ i, i ≠ k → t.nq.priority i = s.nq.priority i) ∧ t.nq.express = x
          ∧ t.nq.queue = s.nq.queue.map fun e => if e.content.kind = k then { e with priority := p } else e)
      ∧ Unchanged (.noticeSettings :: .queue :: answerParts) s t)
  ∧ (∀ (h : ReqHead) (maximum : BitVec 16) (s : State), Takes h 2 s →
    ∃ t, exec (.fetchNotices h maximum) s = .next t
      ∧ (∀ n taken, n = max 1 (min 8 maximum.toNat) → taken = s.nq.eligible.take n →
          Answered h (accept (if n = maximum.toNat then [] else [1])
            (.fetched s.nq.overflow s.nq.lost (taken.map (fetchedOf s.nq)) (s.nq.eligible.length - n))) s t
          ∧ (∀ e, e ∈ t.nq.queue ↔ (e ∈ s.nq.queue ∧ e ∉ taken)
              ∨ ∃ x ∈ taken, x.content.kind.isCondition = true ∧ e = { x with seen := true })
          ∧ t.nq.overflow = false ∧ t.nq.lost = 0)
      ∧ Unchanged (.queue :: .lostMark :: answerParts) s t)

/-- CLEAR_NOTICE: its checks in order, and the entry that it removes. And how the entries come: a notice of a kind
that is not express replaces the content of its pair's entry, which is unseen again, or makes an entry behind all
others; with 128 entries the oldest of the lowest priority gives way to a notice of higher priority, any other notice
is dropped, and either way the mark is set and one more is lost. A notice of the express kind, unless its pair has an
entry, takes the empty slot, renews the slot's notice of its pair, or sends the slot's notice to the queue and takes
its place; with nothing in transmission or waiting it is sent at once, or with the carrier absent discarded. That a
notice starts in the same step when the transmit side is free is the model's choice (log 12). -/
def Obligations.ClearNoticeChecksInOrder : Prop :=
  (∀ (h : ReqHead) (kind : BitVec 8) (w : WireSubject) (s : State), Takes h 4 s →
    ∃ t, exec (.clearNotice h kind w) s = .next t
      ∧ (kind.toNat < 1 ∨ 13 < kind.toNat ∨ noticeSubject w = none → Refused h .malformed s t)
      ∧ (∀ k sub, NoticeKind.ofCode kind.toNat = some k → noticeSubject w = some sub →
          ((∀ e ∈ s.nq.queue, e.content.kind = k → e.subject ≠ sub) → Refused h .noSuch s t)
          ∧ (∀ e, s.nq.queue.find? (fun x => x.content.kind = k && x.subject = sub) = some e →
              if k.isCondition = false ∨ e.seen = false ∨ e.content.standing = true then Refused h .state s t
              else Answered h (accept [] .none) s t
                ∧ t.nq.queue = s.nq.queue.filter fun x => !(decide (x.content.kind = k) && decide (x.subject = sub))))
      ∧ Unchanged (.queue :: answerParts) s t)
  ∧ (∀ (n : Notice) (s t : State) (pair : Entry → Bool) (p : Nat) (entry : Entry), NoticeInv s → t = raise n s →
    s.lu.mgmtTx.isSome = true ∨ s.nq.slot = none → (∀ e, pair e = (decide (e.content.kind = n.content.kind) && decide (e.subject = n.subject))) →
    p = s.nq.priority n.content.kind →
    entry = { subject := n.subject, content := n.content, priority := p, seq := s.nq.seq, age := s.nq.age, seen := false } →
    ((∃ e ∈ s.nq.queue, pair e = true) → t.nq = { s.nq with
        queue := s.nq.queue.map fun e => if pair e = true then { e with content := n.content, seen := false } else e })
    ∧ ((∀ e ∈ s.nq.queue, pair e = false) → s.nq.express ≠ some n.content.kind →
      (s.nq.queue.length < 128 → t.nq = { s.nq with
          queue := s.nq.queue ++ [entry], seq := (s.nq.seq + 1) % 4294967296, age := s.nq.age + 1 })
      ∧ (∀ pre e post, s.nq.queue.length = 128 → s.nq.queue = pre ++ e :: post → e.priority < p →
          (∀ x ∈ pre, e.priority < x.priority) → (∀ x ∈ post, e.priority ≤ x.priority) →
          t.nq = { s.nq with
            queue := pre ++ post ++ [entry], seq := (s.nq.seq + 1) % 4294967296, age := s.nq.age + 1
            overflow := true, lost := min 65535 (s.nq.lost + 1) })
      ∧ (s.nq.queue.length = 128 → (∀ e ∈ s.nq.queue, p ≤ e.priority) →
          t.nq = { s.nq with overflow := true, lost := min 65535 (s.nq.lost + 1) }))
    ∧ (s.lu.mgmtTx.isSome = true → (∀ e ∈ s.nq.queue, pair e = false) → s.nq.express = some n.content.kind →
      (s.nq.slot = none → t.nq = { s.nq with
          slot := some ⟨n.subject, n.content, s.nq.seq, s.nq.age⟩
          seq := (s.nq.seq + 1) % 4294967296, age := s.nq.age + 1 })
      ∧ (∀ m, s.nq.slot = some m → m.content.kind = n.content.kind → m.subject = n.subject →
          t.nq = { s.nq with slot := some { m with content := n.content } })
      ∧ (∀ m, s.nq.slot = some m → m.content.kind ≠ n.content.kind ∨ m.subject ≠ n.subject →
          t.nq.slot = some ⟨n.subject, n.content, s.nq.seq, s.nq.age⟩ ∧ t.nq.seq = (s.nq.seq + 1) % 4294967296
          ∧ ((∃ e ∈ s.nq.queue, e.content.kind = m.content.kind ∧ e.subject = m.subject) →
            t.nq.queue = s.nq.queue.map fun e => if e.content.kind = m.content.kind ∧ e.subject = m.subject then
              { e with content := m.content, seen := false } else e)
          ∧ ((∀ e ∈ s.nq.queue, ¬(e.content.kind = m.content.kind ∧ e.subject = m.subject)) → s.nq.queue.length < 128 →
            (t.nq.queue.map Entry.age).Pairwise (· < ·) ∧ ∀ e, e ∈ t.nq.queue ↔ e ∈ s.nq.queue ∨ e =
              { subject := m.subject, content := m.content, priority := s.nq.priority m.content.kind, seq := m.seq,
                age := m.age, seen := false })
          ∧ ((∀ e ∈ s.nq.queue, ¬(e.content.kind = m.content.kind ∧ e.subject = m.subject)) → s.nq.queue.length = 128 →
            (∀ e ∈ s.nq.queue, s.nq.priority m.content.kind ≤ e.priority) →
            t.nq.queue = s.nq.queue ∧ t.nq.overflow = true ∧ t.nq.lost = min 65535 (s.nq.lost + 1)))))
  ∧ (∀ (n : Notice) (s t : State), MgmtInv s → t = raise n s → s.lu.mgmtTx = none →
    s.nq.express = some n.content.kind → (∀ e ∈ s.nq.queue, e.content.kind = n.content.kind → e.subject ≠ n.subject) →
    t.lu.mgmtTx = (if s.pins.mgmtCarrier = true then some (.express ⟨n.subject, n.content, s.nq.seq, s.nq.age⟩) else none)
    ∧ t.nq = { s.nq with
      seq := (s.nq.seq + 1) % 4294967296, age := s.nq.age + 1 })

/-- The surveys change nothing but the reply, and give the state as it stands. That READ_LINKS counts itself among the
outstanding requests (log 44), and that a survey reads the parts of several blocks at one moment (log 64), are the
model's choices. -/
def Obligations.SurveysGiveTheState : Prop :=
  (∀ (c : Instr) (h : ReqHead) (n : Nat) (r : Reply) (s : State), Takes h n s →
    (c = .readWindow h ∧ n = 0 ∧ r = accept [] (.window s.cwu (nextChange s.cwu) s.ce.skipped))
      ∨ (c = .readRetention h ∧ n = 0 ∧ r = accept [] (.retention ([0, 1, 2, 3, 4, 5, 6, 7].map (rule s))
          ((attachedVolumes s).map fun v => ⟨v, [.hourly, .nightly, .manual].map (governingRule s v), reserveFlag s v⟩)))
      ∨ (c = .readNotices h ∧ n = 0 ∧ r = accept [] (.notices (noticeSummary s.nq)))
      ∨ (c = .readLinks h ∧ n = 0 ∧ r = accept [] (.links s.lu.silenceLimit (serverList.map fun k =>
            ⟨(link s k).state, (link s k).reason, (link s k).changed, (link s k).silence, (link s k).orders.length,
              (intake s k).next, (intake s k).unack, (intake s k).queue.length, (intake s k).draining, (intake s k).taken,
              (intake s k).rejected, (intake s k).duplicates⟩)
          true (s.lu.replies.length + 1) s.lu.busy.length))
      ∨ (∃ v first count, c = .readVolume h v first count ∧ n = 4 ∧ r = (if 63 < v.toNat ∨ 192 < count.toNat then
            refusal .malformed
          else accept [] (.volume { volume s v.toNat with marks := [] } ((volume s v.toNat).regionBlocks / 256)
            (baseEpoch s v.toNat) (shipSet (volume s v.toNat) 0 0).length
            (shipSet (volume s v.toNat) (baseEpoch s v.toNat) 0).length
            ((List.range (min count.toNat ((volume s v.toNat).regionCount - first.toNat))).map fun i =>
              tgetD 0 (volume s v.toNat).marks (first.toNat + i)))))
      ∨ (∃ p, c = .readPrincipal h p ∧ n = 2 ∧ r = (if 32767 < p.toNat then refusal .malformed
          else accept [] (.principal
            (if (principal s p.toNat).defined = true then
              some (principal s p.toNat, subjectView s (.principal p.toNat), denied s p.toNat) else none)
            (denyView s (.principal p.toNat)) (if p = 0 then some (s.book.reassigned, qmSummary s) else none))))
      ∨ (∃ g, c = .readGroup h g ∧ n = 2 ∧ r = (if 1023 < g.toNat then refusal .malformed
          else accept [] (.group (if (group s g.toNat).defined = true then
              some (group s g.toNat, subjectView s (.group g.toNat)) else none) (denyView s (.group g.toNat)))))
      ∨ (∃ id, c = .readSnapshot h id ∧ n = 2 ∧ id ≠ 0 ∧ snap s id.toNat = none ∧ r = refusal .noSuch)
      ∨ (c = .readSnapshot h 0 ∧ n = 2 ∧ r = refusal .malformed)
      ∨ (∃ id x, c = .readSnapshot h id ∧ n = 2 ∧ id ≠ 0 ∧ snap s id.toNat = some x ∧ r = accept [] (.snapshot id.toNat
          { x with inFlight := none } x.inFlight.isSome (x.holds.map Hold.blocks).sum (now s - x.created)))
      ∨ (∃ v, c = .listSnapshots h v 0 ∧ n = 3 ∧ r = (if 63 < v.toNat then refusal .malformed
          else accept [] (.snapshots (((volumeSnaps s v.toNat).take 32).map snapLine)
            (decide (32 < (volumeSnaps s v.toNat).length)))))
      ∨ (∃ j, c = .readRestore h j ∧ n = 1 ∧ r = (if 15 < j.toNat then refusal .malformed
          else accept [] (.restore (restoreJob s j.toNat) (placeOf j.toNat s.cca.acceptance) (tget s.rsc.lastEnd j.toNat)
            (serverList.map (creditView s)))))
      ∨ (∃ v, c = .readDup h v ∧ n = 1 ∧ r = (if 63 < v.toNat then refusal .malformed
          else accept [] (.dup (dupView s v.toNat)))) →
    ∃ t, exec c s = .next t ∧ Answered h r s t ∧ Unchanged answerParts s t)
  ∧ (∀ (h : ReqHead) (v : BitVec 8) (start : BitVec 16) (s : State), Takes h 3 s → start ≠ 0 → Tables s →
    ∃ t, exec (.listSnapshots h v start) s = .next t ∧ Unchanged answerParts s t
      ∧ (if 63 < v.toNat then Refused h .malformed s t
        else match snap s start.toNat with
          | none => Refused h .noSuch s t
          | some x => if x.volume ≠ v.toNat then Refused h .noSuch s t
            else ∀ after, after = ((volumeSnaps s v.toNat).filter fun e => decide (x.epoch < e.2.epoch)) →
              Answered h (accept [] (.snapshots ((after.take 32).map snapLine) (decide (32 < after.length)))) s t))

/-! ### Frames as they stand on a link -/

/-- Decoding a frame gives it back: the receive side assembles from the bytes of a frame of at most 1,024 payload bytes that
frame and nothing else, and hunts again; a check that does not match, a character with a missing stop bit before the end,
and a length above 1,024 each give one bad frame. -/
def Obligations.FramesAreReceivedAsSent : Prop :=
  ∀ f : RawFrame, f.payload.length ≤ 1024 →
    rxRun .hunting (f.bytes.map RxChar.byte) = (.hunting, [.good f])
    ∧ (∀ c : BitVec 16, c ≠ crc16 f.checked →
        rxRun .hunting ((0xC3#8 :: f.checked ++ leBytes 2 c.toNat).map RxChar.byte) = (.hunting, [.bad]))
    ∧ (∀ pre rest, f.checked ++ leBytes 2 (crc16 f.checked).toNat = pre ++ rest → rest ≠ [] →
        rxRun .hunting ((0xC3#8 :: pre).map RxChar.byte ++ [.missingStop]) = (.hunting, [.bad]))
    ∧ (∀ (kind : Byte) (tag : BitVec 16) (len : Nat), 1024 < len → len < 65536 →
        rxRun .hunting ((0xC3#8 :: kind :: leBytes 2 tag.toNat ++ leBytes 2 len).map RxChar.byte) = (.hunting, [.bad]))

/-! ### Holds -/

/-- A hold list loses no block: adding an entry keeps the blocks, 12 entries and rising births, and a release passes on or
frees exactly what the record held. -/
def Obligations.HoldsLoseNoBlock : Prop :=
  (∀ (l : List Hold) (h : Hold), l.length ≤ 12 → (l.map Hold.birth).Pairwise (· < ·) →
    holdTotal (addHold l h) = holdTotal l + h.blocks ∧ (addHold l h).length ≤ 12
    ∧ ((addHold l h).map Hold.birth).Pairwise (· < ·))
  ∧ (∀ (id : Nat) (x : Snap) (failed : Bool) (s : State), snap s id = some x →
    (∀ p, olderHolder s id x = some p → snap s p.1 = some p.2 ∧ (p.2.holds.map Hold.birth).Pairwise (· < ·)) →
    ∀ r, r = cascade id x failed s →
      r.2.passed + r.2.freed = holdTotal x.holds
      ∧ (volume r.1 x.volume).heldTotal = (volume s x.volume).heldTotal - r.2.freed
      ∧ (∀ p y, olderHolder s id x = some p → snap r.1 p.1 = some y → holdTotal y.holds = holdTotal p.2.holds + r.2.passed))

/-! ### Invariants -/

/-- The invariants hold after cold reset. -/
def Obligations.InvariantsHoldAtReset : Prop :=
  ClockInv State.reset ∧ CreditInv State.reset ∧ MgmtInv State.reset ∧ NoticeInv State.reset ∧ Tables State.reset
    ∧ InnerTables State.reset ∧ LinkInv State.reset

/-- Every step keeps the clock, the window and the open-group sets in range and in agreement, and every server's four
credits. -/
def Obligations.EveryStepKeepsClockAndCredits : Prop :=
  ∀ s t : State, ClockInv s → CreditInv s → step s = .next t → ClockInv t ∧ CreditInv t

/-- Every step keeps the management link's lists. That nothing waits while the transmit side is free rests on the
model's choice that a frame starts in the same step (log 12). -/
def Obligations.EveryStepKeepsTheManagementLists : Prop :=
  ∀ s t : State, MgmtInv s → step s = .next t → MgmtInv t

/-- Every step keeps the notice queue's form. The age order is the model's (log 23). -/
def Obligations.EveryStepKeepsTheNoticeQueue : Prop :=
  ∀ s t : State, NoticeInv s → step s = .next t → NoticeInv t

/-- Every step keeps every table in its canonical form: the tables of records, and the tables that stand inside
records or hold plain values (slot masks, each deny entry's server parts, each volume's region marks, notice
priorities). The canonical form is the model's representation of the spec's tables. -/
def Obligations.EveryStepKeepsTheTables : Prop :=
  ∀ s t : State, step s = .next t → (Tables s → Tables t) ∧ (InnerTables s → InnerTables t)

/-- Every step keeps what a server link's state says of its orders, volumes and intake. -/
def Obligations.EveryStepKeepsTheLinks : Prop :=
  ∀ s t : State, Tables s → LinkInv s → step s = .next t → LinkInv t

end
end

