-- ==== Sys2Proof/Laws/Table.lean ====
section
/-! SUPPORT. Laws of tables: what reads give after writes, that writes keep the canonical form, and what the readers of
State give after its writers. -/

namespace Sys2Proof.Machine

variable {α : Type}

/-! ### Reads after writes -/

theorem tget_tput (t : Tab α) (k j : Nat) (v : α) : tget (tput t k v) j = if k = j then some v else tget t j := by
  induction t with
  | nil => simp [tput, tget]
  | cons e r ih =>
    obtain ⟨i, w⟩ := e
    unfold tput
    split
    · simp [tget]
    · split
      · rename_i h; subst h; simp only [tget]; split <;> rfl
      · simp only [tget, ih]; split
        · rename_i h1 h2 h3; subst h3; simp [h2]
        · rfl

theorem tget_tdel (t : Tab α) (k j : Nat) : tget (tdel t k) j = if k = j then none else tget t j := by
  induction t with
  | nil => simp [tdel, tget]
  | cons e r ih =>
    obtain ⟨i, w⟩ := e
    unfold tdel
    split
    · rename_i h; subst h; rw [ih]; split
      · rfl
      · rename_i h2; simp [tget, h2]
    · rename_i h; simp only [tget, ih]; split
      · rename_i h2; subst h2; simp [Ne.symm h]
      · rfl

theorem tgetD_tsetD [DecidableEq α] (d : α) (t : Tab α) (k j : Nat) (v : α) :
    tgetD d (tsetD d t k v) j = if k = j then v else tgetD d t j := by
  unfold tsetD tgetD
  split
  · rename_i h; subst h; rw [tget_tdel]; split <;> rfl
  · rw [tget_tput]; split <;> rfl

/-! ### The canonical form is kept -/

/-- Every index of the table is above `b`, and the indices strictly rise. -/
def Tab.above (b : Option Nat) : Tab α → Prop
  | [] => True
  | (j, _) :: r => (∀ x ∈ b, x < j) ∧ Tab.above (some j) r

theorem tsorted_iff (t : Tab α) : tsorted t = true ↔ Tab.above none t := by
  suffices h : ∀ (t : Tab α) (b : Option Nat), Tab.above b t ↔ tsorted t = true ∧ ∀ e ∈ t.head?, ∀ x ∈ b, x < e.1 by
    rw [h t none]; simp
  intro t
  induction t with
  | nil => intro b; simp [Tab.above, tsorted]
  | cons e r ih =>
    intro b
    obtain ⟨j, w⟩ := e
    simp only [Tab.above, ih]
    cases r with
    | nil => simp [tsorted]
    | cons e' r' =>
      obtain ⟨j', w'⟩ := e'
      simp [tsorted]; tauto

theorem Tab.above_tput (t : Tab α) (b : Option Nat) (k : Nat) (v : α) (h : Tab.above b t) (hk : ∀ x ∈ b, x < k) :
    Tab.above b (tput t k v) := by
  induction t generalizing b with
  | nil => exact ⟨hk, trivial⟩
  | cons e r ih =>
    obtain ⟨j, w⟩ := e
    obtain ⟨h1, h2⟩ := h
    unfold tput
    split
    · rename_i hlt; exact ⟨hk, by simpa using hlt, h2⟩
    · split
      · rename_i _ he; subst he; exact ⟨hk, h2⟩
      · rename_i hn he; exact ⟨h1, ih _ h2 (by intro x hx; simp at hx; omega)⟩

theorem Tab.above_mono (t : Tab α) (a b : Option Nat) (h : Tab.above a t) (hab : ∀ x ∈ b, ∃ y ∈ a, x ≤ y) : Tab.above b t := by
  cases t with
  | nil => trivial
  | cons e r =>
    refine ⟨fun x hx => ?_, h.2⟩
    obtain ⟨y, hy, hxy⟩ := hab x hx
    exact lt_of_le_of_lt hxy (h.1 y hy)

theorem Tab.above_filter (t : Tab α) (b : Option Nat) (p : Nat × α → Bool) (h : Tab.above b t) : Tab.above b (t.filter p) := by
  induction t generalizing b with
  | nil => trivial
  | cons e r ih =>
    obtain ⟨j, w⟩ := e
    obtain ⟨h1, h2⟩ := h
    simp only [List.filter_cons]
    split
    · exact ⟨h1, ih _ h2⟩
    · exact ih b (Tab.above_mono r _ _ h2 fun x hx => ⟨j, rfl, (h1 x hx).le⟩)

theorem tdel_eq_filter (t : Tab α) (k : Nat) : tdel t k = t.filter fun e => e.1 ≠ k := by
  induction t with
  | nil => rfl
  | cons e r ih => obtain ⟨j, w⟩ := e; simp only [tdel, List.filter_cons, ih]; by_cases h : j = k <;> simp [h]

theorem tsorted_tput (t : Tab α) (k : Nat) (v : α) (h : tsorted t = true) : tsorted (tput t k v) = true :=
  (tsorted_iff _).2 (Tab.above_tput t none k v ((tsorted_iff t).1 h) (by simp))

theorem tsorted_filter (t : Tab α) (p : Nat × α → Bool) (h : tsorted t = true) : tsorted (t.filter p) = true :=
  (tsorted_iff _).2 (Tab.above_filter t none p ((tsorted_iff t).1 h))

theorem tsorted_tdel (t : Tab α) (k : Nat) (h : tsorted t = true) : tsorted (tdel t k) = true := by
  rw [tdel_eq_filter]; exact tsorted_filter t _ h

theorem tsorted_tsetD [DecidableEq α] (d : α) (t : Tab α) (k : Nat) (v : α) (h : tsorted t = true) :
    tsorted (tsetD d t k v) = true := by
  unfold tsetD; split
  · exact tsorted_tdel t k h
  · exact tsorted_tput t k v h

theorem tsorted_map (t : Tab α) (f : Nat × α → α) (h : tsorted t = true) :
    tsorted (t.map fun e => (e.1, f e)) = true := by
  suffices g : ∀ (t : Tab α) (b : Option Nat), Tab.above b t → Tab.above b (t.map fun e => (e.1, f e)) from
    (tsorted_iff _).2 (g t none ((tsorted_iff t).1 h))
  intro t
  induction t with
  | nil => intro b _; trivial
  | cons e r ih => intro b hb; exact ⟨hb.1, ih _ hb.2⟩

theorem tnoDefault_tput [DecidableEq α] (d : α) (t : Tab α) (k : Nat) (v : α) (h : tnoDefault d t = true) (hv : v ≠ d) :
    tnoDefault d (tput t k v) = true := by
  induction t with
  | nil => simp [tput, tnoDefault, hv]
  | cons e r ih =>
    obtain ⟨j, w⟩ := e
    simp only [tnoDefault, List.all_cons, Bool.and_eq_true, decide_eq_true_eq] at h ih ⊢
    unfold tput
    split
    · simp only [List.all_cons, Bool.and_eq_true, decide_eq_true_eq]; exact ⟨hv, h.1, h.2⟩
    · split
      · simp only [List.all_cons, Bool.and_eq_true, decide_eq_true_eq]; exact ⟨hv, h.2⟩
      · simp only [List.all_cons, Bool.and_eq_true, decide_eq_true_eq]; exact ⟨h.1, ih h.2⟩

theorem tnoDefault_tsetD [DecidableEq α] (d : α) (t : Tab α) (k : Nat) (v : α) (h : tnoDefault d t = true) :
    tnoDefault d (tsetD d t k v) = true := by
  unfold tsetD; split
  · rw [tdel_eq_filter]
    simp only [tnoDefault, List.all_eq_true] at h ⊢
    exact fun e he => h e (List.mem_filter.1 he).1
  · rename_i hv; exact tnoDefault_tput d t k v h hv

/-! ### Readers after writers -/

theorem link_setLink (s : State) (i j : Nat) (l : Link) : link (setLink i l s) j = if i = j then l else link s j :=
  tgetD_tsetD ..

theorem volume_setVolume (s : State) (i j : Nat) (r : Volume) : volume (setVolume i r s) j = if i = j then r else volume s j :=
  tgetD_tsetD ..

theorem intake_setIntake (s : State) (i j : Nat) (r : Intake) : intake (setIntake i r s) j = if i = j then r else intake s j :=
  tgetD_tsetD ..

theorem principal_setPrincipal (s : State) (i j : Nat) (r : Principal) :
    principal (setPrincipal i r s) j = if i = j then r else principal s j := tgetD_tsetD ..

theorem group_setGroupRec (s : State) (i j : Nat) (r : Group) :
    group (setGroupRec i r s) j = if i = j then r else group s j := tgetD_tsetD ..

theorem credit_setCredit (s : State) (i j : Nat) (r : Credit) : credit (setCredit i r s) j = if i = j then r else credit s j :=
  tgetD_tsetD ..

theorem snap_setSnap (s : State) (i j : Nat) (r : Snap) : snap (setSnap i r s) j = if i = j then some r else snap s j :=
  tget_tput ..

theorem snap_delSnap (s : State) (i j : Nat) : snap (delSnap i s) j = if i = j then none else snap s j := tget_tdel ..

theorem restoreJob_setRestoreJob (s : State) (i j : Nat) (r : RestoreJob) :
    restoreJob (setRestoreJob i r s) j = if i = j then some r else restoreJob s j := tget_tput ..

theorem dupJob_setDupJob (s : State) (i j : Nat) (r : DupJob) :
    dupJob (setDupJob i r s) j = if i = j then some r else dupJob s j := tget_tput ..

theorem acct_setAcct (s : State) (a b : Subject) (x : Account) :
    acct (setAcct a x s) b = if a = b then x else acct s b := by
  cases a <;> cases b <;> simp only [setAcct, acct, principal_setPrincipal, group_setGroupRec, Subject.principal.injEq,
    Subject.group.injEq, reduceCtorEq, if_false]
  · split <;> rfl
  · rfl
  · rfl
  · split <;> rfl

end Sys2Proof.Machine
end

