-- ==== Sys2Proof/Laws/Frame.lean ====
section
/-! SUPPORT. What each operation can change: one frame lemma an operation. `Frame L s t` says that `t` differs from `s` at
most in the parts of `L` and, while the management carrier is absent, in the reply list and the restart phase. -/

namespace Sys2Proof.Machine

/-- `t` differs from `s` at most in the parts of `L`; the reply list and the restart phase move only while the management
carrier is absent (R12). -/
structure Frame (L : List Part) (s t : State) : Prop where
  pins : t.pins = s.pins
  parts : Unchanged (.replies :: .restart :: L) s t
  steady : s.pins.mgmtCarrier = true → t.lu.replies = s.lu.replies ∧ t.lu.restart = s.lu.restart

theorem Part.same_refl (s : State) (p : Part) : Part.same s s p := by
  cases p <;> first | rfl | exact ⟨rfl, rfl⟩ | exact ⟨rfl, rfl, rfl⟩

theorem Part.same_trans {s t u : State} {p : Part} (h1 : Part.same s t p) (h2 : Part.same t u p) : Part.same s u p := by
  cases p <;> first
    | exact Eq.trans h2 h1
    | exact ⟨h2.1.trans h1.1, h2.2.trans h1.2⟩
    | exact ⟨h2.1.trans h1.1, h2.2.1.trans h1.2.1, h2.2.2.trans h1.2.2⟩

theorem Unchanged.refl (L : List Part) (s : State) : Unchanged L s s := fun p _ => Part.same_refl s p

theorem Unchanged.trans {L : List Part} {s t u : State} (h1 : Unchanged L s t) (h2 : Unchanged L t u) : Unchanged L s u :=
  fun p hp => Part.same_trans (h1 p hp) (h2 p hp)

theorem Unchanged.mono {a L : List Part} {s t : State} (h : Unchanged a s t) (ha : ∀ p ∈ a, p ∈ L) : Unchanged L s t :=
  fun p hp => h p fun hpa => hp (ha p hpa)

theorem Frame.refl (L : List Part) (s : State) : Frame L s s := ⟨rfl, Unchanged.refl _ s, fun _ => ⟨rfl, rfl⟩⟩

theorem Frame.into {a L : List Part} {s t : State} (h : Frame a s t) (ha : ∀ p ∈ a, p ∈ L) : Frame L s t :=
  ⟨h.pins, h.parts.mono fun p hp => by
      rcases List.mem_cons.1 hp with rfl | hp
      · simp
      · rcases List.mem_cons.1 hp with rfl | hp
        · simp
        · simp [ha p hp], h.steady⟩

theorem Frame.trans {L : List Part} {s t u : State} (h1 : Frame L s t) (h2 : Frame L t u) : Frame L s u :=
  ⟨h2.pins.trans h1.pins, h1.parts.trans h2.parts, fun h => by
    have a := h1.steady h
    have b := h2.steady (by rw [h1.pins]; exact h)
    exact ⟨b.1.trans a.1, b.2.trans a.2⟩⟩

/-- A further operation, whose parts lie in `L`. -/
theorem Frame.after {a L : List Part} {s t u : State} (h : Frame a t u) (ha : ∀ p ∈ a, p ∈ L) (h0 : Frame L s t) :
    Frame L s u := h0.trans (h.into ha)

theorem Frame.foldl {β : Type} {L : List Part} {f : State → β → State} (h : ∀ s b, Frame L s (f s b)) (l : List β) (s : State) :
    Frame L s (l.foldl f s) := by
  induction l generalizing s with
  | nil => exact Frame.refl L s
  | cons b r ih => exact (h s b).trans (ih _)

/-- A part outside the lists is the same. -/
theorem Frame.same {L : List Part} {s t : State} (h : Frame L s t) (p : Part)
    (hp : p ∉ Part.replies :: Part.restart :: L) : Part.same s t p := h.parts p hp

/-- With the carrier present the reply list and the restart phase are unchanged too. -/
theorem Frame.unchanged {L : List Part} {s t : State} (h : Frame L s t) (hc : s.pins.mgmtCarrier = true) :
    Unchanged L s t := fun p hp => by
  by_cases h1 : p = .replies
  · subst h1; exact (h.steady hc).1
  · by_cases h2 : p = .restart
    · subst h2; exact (h.steady hc).2
    · exact h.parts p (by simp [h1, h2, hp])

/-! ### Writers -/

theorem setLink_frame (i : Nat) (l : Link) (s : State) : Frame [.links] s (setLink i l s) :=
  ⟨rfl, fun p hp => by cases p <;> first | rfl | exact ⟨rfl, rfl⟩ | exact ⟨rfl, rfl, rfl⟩ | exact (hp (by decide)).elim, fun _ => ⟨rfl, rfl⟩⟩

theorem setVolume_frame (i : Nat) (r : Volume) (s : State) : Frame [.volumes] s (setVolume i r s) :=
  ⟨rfl, fun p hp => by cases p <;> first | rfl | exact ⟨rfl, rfl⟩ | exact ⟨rfl, rfl, rfl⟩ | exact (hp (by decide)).elim, fun _ => ⟨rfl, rfl⟩⟩

theorem setIntake_frame (i : Nat) (r : Intake) (s : State) : Frame [.intakes] s (setIntake i r s) :=
  ⟨rfl, fun p hp => by cases p <;> first | rfl | exact ⟨rfl, rfl⟩ | exact ⟨rfl, rfl, rfl⟩ | exact (hp (by decide)).elim, fun _ => ⟨rfl, rfl⟩⟩

theorem setPrincipal_frame (i : Nat) (r : Principal) (s : State) : Frame [.principals] s (setPrincipal i r s) :=
  ⟨rfl, fun p hp => by cases p <;> first | rfl | exact ⟨rfl, rfl⟩ | exact ⟨rfl, rfl, rfl⟩ | exact (hp (by decide)).elim, fun _ => ⟨rfl, rfl⟩⟩

theorem setGroupRec_frame (i : Nat) (r : Group) (s : State) : Frame [.groups] s (setGroupRec i r s) :=
  ⟨rfl, fun p hp => by cases p <;> first | rfl | exact ⟨rfl, rfl⟩ | exact ⟨rfl, rfl, rfl⟩ | exact (hp (by decide)).elim, fun _ => ⟨rfl, rfl⟩⟩

theorem setSnap_frame (i : Nat) (r : Snap) (s : State) : Frame [.snaps] s (setSnap i r s) :=
  ⟨rfl, fun p hp => by cases p <;> first | rfl | exact ⟨rfl, rfl⟩ | exact ⟨rfl, rfl, rfl⟩ | exact (hp (by decide)).elim, fun _ => ⟨rfl, rfl⟩⟩

theorem delSnap_frame (i : Nat) (s : State) : Frame [.snaps] s (delSnap i s) :=
  ⟨rfl, fun p hp => by cases p <;> first | rfl | exact ⟨rfl, rfl⟩ | exact ⟨rfl, rfl, rfl⟩ | exact (hp (by decide)).elim, fun _ => ⟨rfl, rfl⟩⟩

theorem setCredit_frame (i : Nat) (r : Credit) (s : State) : Frame [.credits] s (setCredit i r s) :=
  ⟨rfl, fun p hp => by cases p <;> first | rfl | exact ⟨rfl, rfl⟩ | exact ⟨rfl, rfl, rfl⟩ | exact (hp (by decide)).elim, fun _ => ⟨rfl, rfl⟩⟩

theorem setRestoreJob_frame (i : Nat) (r : RestoreJob) (s : State) : Frame [.restoreJobs] s (setRestoreJob i r s) :=
  ⟨rfl, fun p hp => by cases p <;> first | rfl | exact ⟨rfl, rfl⟩ | exact ⟨rfl, rfl, rfl⟩ | exact (hp (by decide)).elim, fun _ => ⟨rfl, rfl⟩⟩

theorem setDupJob_frame (i : Nat) (r : DupJob) (s : State) : Frame [.dupJobs] s (setDupJob i r s) :=
  ⟨rfl, fun p hp => by cases p <;> first | rfl | exact ⟨rfl, rfl⟩ | exact ⟨rfl, rfl, rfl⟩ | exact (hp (by decide)).elim, fun _ => ⟨rfl, rfl⟩⟩

theorem setDeny_frame (k : Nat) (e : DenyEntry) (s : State) : Frame [.denyTable] s (setDeny k e s) :=
  ⟨rfl, fun p hp => by cases p <;> first | rfl | exact ⟨rfl, rfl⟩ | exact ⟨rfl, rfl, rfl⟩ | exact (hp (by decide)).elim, fun _ => ⟨rfl, rfl⟩⟩

theorem setRule_frame (i : Nat) (r : Rule) (s : State) : Frame [.rules] s (setRule i r s) :=
  ⟨rfl, fun p hp => by cases p <;> first | rfl | exact ⟨rfl, rfl⟩ | exact ⟨rfl, rfl, rfl⟩ | exact (hp (by decide)).elim, fun _ => ⟨rfl, rfl⟩⟩

theorem mgmtHunt_frame (s : State) : Frame [.mgmtRx] s (mgmtHunt s) :=
  ⟨rfl, fun p hp => by cases p <;> first | rfl | exact ⟨rfl, rfl⟩ | exact ⟨rfl, rfl, rfl⟩ | exact (hp (by decide)).elim, fun _ => ⟨rfl, rfl⟩⟩

theorem nqWrite_frame (q : Nq) (s : State) : Frame [.noticeSettings, .queue, .sequence, .lostMark, .slot] s ({ s with nq := q }) :=
  ⟨rfl, fun p hp => by cases p <;> first | rfl | exact ⟨rfl, rfl⟩ | exact ⟨rfl, rfl, rfl⟩ | exact (hp (by decide)).elim, fun _ => ⟨rfl, rfl⟩⟩

theorem tableWrite_frame (t : Tab DenyEntry) (s : State) : Frame [.denyTable] s ({ s with et := { s.et with table := t } }) :=
  ⟨rfl, fun p hp => by cases p <;> first | rfl | exact ⟨rfl, rfl⟩ | exact ⟨rfl, rfl, rfl⟩ | exact (hp (by decide)).elim, fun _ => ⟨rfl, rfl⟩⟩

theorem backlogWrite_frame (l : List Subject) (s : State) : Frame [.backlog] s ({ s with et := { s.et with backlog := l } }) :=
  ⟨rfl, fun p hp => by cases p <;> first | rfl | exact ⟨rfl, rfl⟩ | exact ⟨rfl, rfl, rfl⟩ | exact (hp (by decide)).elim, fun _ => ⟨rfl, rfl⟩⟩

theorem softWrite_frame (l : List Subject) (s : State) : Frame [.softList] s ({ s with qm := { s.qm with softList := l } }) :=
  ⟨rfl, fun p hp => by cases p <;> first | rfl | exact ⟨rfl, rfl⟩ | exact ⟨rfl, rfl, rfl⟩ | exact (hp (by decide)).elim, fun _ => ⟨rfl, rfl⟩⟩

theorem overWrite_frame (l : List Nat) (s : State) : Frame [.reserveOver] s ({ s with sc := { s.sc with reserveOver := l } }) :=
  ⟨rfl, fun p hp => by cases p <;> first | rfl | exact ⟨rfl, rfl⟩ | exact ⟨rfl, rfl, rfl⟩ | exact (hp (by decide)).elim, fun _ => ⟨rfl, rfl⟩⟩

theorem toDcWrite_frame (l : List ScMessage) (s : State) : Frame [.toDc] s ({ s with sc := { s.sc with toDc := l } }) :=
  ⟨rfl, fun p hp => by cases p <;> first | rfl | exact ⟨rfl, rfl⟩ | exact ⟨rfl, rfl, rfl⟩ | exact (hp (by decide)).elim, fun _ => ⟨rfl, rfl⟩⟩

theorem nextIdWrite_frame (n : Nat) (s : State) : Frame [.nextId] s ({ s with sc := { s.sc with nextId := n } }) :=
  ⟨rfl, fun p hp => by cases p <;> first | rfl | exact ⟨rfl, rfl⟩ | exact ⟨rfl, rfl, rfl⟩ | exact (hp (by decide)).elim, fun _ => ⟨rfl, rfl⟩⟩

theorem breachWrite_frame (n : Nat) (s : State) : Frame [.breachTotal] s ({ s with et := { s.et with breachTotal := n } }) :=
  ⟨rfl, fun p hp => by cases p <;> first | rfl | exact ⟨rfl, rfl⟩ | exact ⟨rfl, rfl, rfl⟩ | exact (hp (by decide)).elim, fun _ => ⟨rfl, rfl⟩⟩

theorem cwuWrite_frame (c : Cwu) (s : State) : Frame [.clock, .windowSettings, .window, .masks, .cwuOpen, .interval] s ({ s with cwu := c }) :=
  ⟨rfl, fun p hp => by cases p <;> first | rfl | exact ⟨rfl, rfl⟩ | exact ⟨rfl, rfl, rfl⟩ | exact (hp (by decide)).elim, fun _ => ⟨rfl, rfl⟩⟩

theorem dcWrite_frame (d : Dc) (s : State) : Frame [.dupJobs, .dupEnds, .budget, .turn, .dcOpen] s ({ s with dc := d }) :=
  ⟨rfl, fun p hp => by cases p <;> first | rfl | exact ⟨rfl, rfl⟩ | exact ⟨rfl, rfl, rfl⟩ | exact (hp (by decide)).elim, fun _ => ⟨rfl, rfl⟩⟩

theorem acceptanceWrite_frame (l : List Nat) (s : State) : Frame [.acceptance] s ({ s with cca := { s.cca with acceptance := l } }) :=
  ⟨rfl, fun p hp => by cases p <;> first | rfl | exact ⟨rfl, rfl⟩ | exact ⟨rfl, rfl, rfl⟩ | exact (hp (by decide)).elim, fun _ => ⟨rfl, rfl⟩⟩

theorem setAcct_frame (sub : Subject) (a : Account) (s : State) : Frame [.principals, .groups] s (setAcct sub a s) := by
  cases sub
  · exact (setPrincipal_frame _ _ s).into (by decide)
  · exact (setGroupRec_frame _ _ s).into (by decide)

theorem issue_frame (srv : Nat) (body : OrderBody) (s : State) : Frame [.links] s (issue srv body s).1 := setLink_frame _ _ s

theorem handFrame_frame (srv : Nat) (f : TxFrame) (s : State) : Frame [.links] s (handFrame srv f s) := setLink_frame _ _ s

/-! ### Notices -/


theorem pump_frame (s : State) : Frame pumpParts s (pump s) := by
  unfold pump
  split
  · exact Frame.refl _ s
  · split
    · unfold startNext
      split
      · exact ⟨rfl, fun p hp => by cases p <;> first | rfl | exact ⟨rfl, rfl⟩ | exact ⟨rfl, rfl, rfl⟩ | exact (hp (by decide)).elim, fun _ => ⟨rfl, rfl⟩⟩
      · split
        · exact ⟨rfl, fun p hp => by cases p <;> first | rfl | exact ⟨rfl, rfl⟩ | exact ⟨rfl, rfl, rfl⟩ | exact (hp (by decide)).elim, fun _ => ⟨rfl, rfl⟩⟩
        · split
          · exact ⟨rfl, fun p hp => by cases p <;> first | rfl | exact ⟨rfl, rfl⟩ | exact ⟨rfl, rfl, rfl⟩ | exact (hp (by decide)).elim, fun _ => ⟨rfl, rfl⟩⟩
          · exact Frame.refl _ s
    · rename_i h
      unfold discardWaiting
      exact ⟨rfl, fun p hp => by cases p <;> first | rfl | exact ⟨rfl, rfl⟩ | exact ⟨rfl, rfl, rfl⟩ | exact (hp (by decide)).elim,
        fun hc => absurd hc h⟩


theorem Nq.admit_settings (e : Entry) (q : Nq) :
    (q.lodge e).priorities = q.priorities ∧ (q.lodge e).express = q.express := by
  unfold Nq.lodge; split
  · exact ⟨rfl, rfl⟩
  · split <;> exact ⟨rfl, rfl⟩

theorem Nq.arriveQueue_settings (n : Notice) (q : Nq) :
    (q.arriveQueue n).priorities = q.priorities ∧ (q.arriveQueue n).express = q.express := by
  unfold Nq.arriveQueue
  split
  · exact ⟨rfl, rfl⟩
  · dsimp only; split
    · exact Nq.admit_settings _ q
    · exact Nq.admit_settings _ q

theorem Nq.arriveExpress_settings (n : Notice) (q : Nq) :
    (q.arriveExpress n).priorities = q.priorities ∧ (q.arriveExpress n).express = q.express := by
  unfold Nq.arriveExpress
  split
  · exact ⟨rfl, rfl⟩
  · split
    · exact ⟨rfl, rfl⟩
    · split
      · exact ⟨rfl, rfl⟩
      · unfold Nq.demote; split
        · exact ⟨rfl, rfl⟩
        · exact Nq.admit_settings _ q

/-- A notice leaves the kinds' settings as they are. -/
theorem Nq.arrive_settings (n : Notice) (q : Nq) :
    (q.arrive n).priorities = q.priorities ∧ (q.arrive n).express = q.express := by
  unfold Nq.arrive; split
  · exact Nq.arriveExpress_settings n q
  · exact Nq.arriveQueue_settings n q

theorem arrive_frame (n : Notice) (s : State) : Frame [.queue, .sequence, .lostMark, .slot] s { s with nq := s.nq.arrive n } :=
  ⟨rfl, fun p hp => by
    cases p <;> first | rfl | exact ⟨rfl, rfl⟩ | exact ⟨rfl, rfl, rfl⟩ | exact (hp (by decide)).elim | exact Nq.arrive_settings n s.nq,
    fun _ => ⟨rfl, rfl⟩⟩

theorem raise_frame (n : Notice) (s : State) : Frame raiseParts s (raise n s) :=
  (pump_frame _).after (by decide) ((arrive_frame n s).into (by decide))

theorem notify_frame (sub : NoticeSubject) (c : Content) (s : State) : Frame raiseParts s (notify sub c s) := raise_frame _ s

/-! ### Enforcement -/


theorem notifyBacklog_frame (b : Bool) (s : State) : Frame raiseParts s (notifyBacklog b s) := notify_frame _ _ s

theorem handWant_frame (key srv : Nat) (s : State) : Frame [.links, .denyTable] s (handWant key srv s) := by
  unfold handWant
  split
  · exact Frame.refl _ s
  · dsimp only
    split
    · exact (setDeny_frame _ _ _).after (by decide) ((issue_frame _ _ s).into (by decide))
    · exact Frame.refl _ s

theorem handWants_frame (s : State) : Frame [.links, .denyTable] s (handWants s) :=
  Frame.foldl (fun _ _ => Frame.foldl (fun _ _ => handWant_frame _ _ _) _ _) _ s

theorem admitBacklog_frame (s : State) : Frame enforceParts s (admitBacklog s) := by
  unfold admitBacklog
  split
  · exact Frame.refl _ s
  · rename_i sub rest _
    have h : Frame enforceParts s (setDeny (subjectKey sub) newDeny { s with et := { s.et with backlog := rest } }) :=
      (setDeny_frame _ _ _).after (by decide) ((backlogWrite_frame rest s).into (by decide))
    dsimp only
    split
    · exact (notifyBacklog_frame _ _).after (by decide) h
    · exact h

theorem testRemoval_frame (key : Nat) (s : State) : Frame enforceParts s (testRemoval key s) := by
  unfold testRemoval
  split
  · exact Frame.refl _ s
  · split
    · exact (admitBacklog_frame _).after (by decide) ((tableWrite_frame _ s).into (by decide))
    · exact Frame.refl _ s

theorem testRemovals_frame (s : State) : Frame enforceParts s (testRemovals s) :=
  Frame.foldl (fun _ _ => testRemoval_frame _ _) _ s

theorem enforceBlock_frame (sub : Subject) (s : State) : Frame enforceParts s (enforceBlock sub s) := by
  unfold enforceBlock
  dsimp only
  split
  · exact (handWants_frame _).after (by decide) ((setDeny_frame _ _ s).into (by decide))
  · split
    · exact (handWants_frame _).after (by decide) ((setDeny_frame _ _ s).into (by decide))
    · split
      · exact (notifyBacklog_frame _ _).after (by decide) ((backlogWrite_frame _ s).into (by decide))
      · exact (backlogWrite_frame _ s).into (by decide)

theorem enforceUnblock_frame (sub : Subject) (s : State) : Frame enforceParts s (enforceUnblock sub s) := by
  unfold enforceUnblock
  dsimp only
  split
  · split
    · exact (notifyBacklog_frame _ _).after (by decide) ((backlogWrite_frame _ s).into (by decide))
    · exact (backlogWrite_frame _ s).into (by decide)
  · split
    · exact Frame.refl _ s
    · exact (handWants_frame _).after (by decide)
        ((testRemoval_frame _ _).after (by decide) ((setDeny_frame _ _ s).into (by decide)))

theorem takeAck_frame (srv num : Nat) (kind : Want) (s : State) : Frame enforceParts s (takeAck srv num kind s) := by
  unfold takeAck
  split
  · exact Frame.refl _ s
  · split
    · exact Frame.refl _ s
    · dsimp only
      split
      · exact (handWants_frame _).after (by decide)
          ((testRemoval_frame _ _).after (by decide) ((setDeny_frame _ _ s).into (by decide)))
      · exact (handWants_frame _).after (by decide) ((setDeny_frame _ _ s).into (by decide))

theorem enforceLeave_frame (srv : Nat) (s : State) : Frame enforceParts s (enforceLeave srv s) :=
  (handWants_frame _).after (by decide)
    ((testRemovals_frame _).after (by decide) ((tableWrite_frame _ s).into (by decide)))

theorem enforceEnter_frame (srv : Nat) (s : State) : Frame enforceParts s (enforceEnter srv s) :=
  (handWants_frame _).after (by decide)
    ((testRemovals_frame _).after (by decide) ((tableWrite_frame _ s).into (by decide)))

theorem detectBreach_frame (p srv num vol blocks : Nat) (m : Bool) (s : State) :
    Frame (.principals :: .breachTotal :: raiseParts) s (detectBreach p srv num vol blocks m s) := by
  unfold detectBreach
  split
  · exact Frame.refl _ s
  · exact (notify_frame _ _ _).after (by decide)
      ((breachWrite_frame _ _).after (by decide) ((setPrincipal_frame _ _ s).into (by decide)))

/-! ### Evaluation and charges -/


theorem reportBlocking_frame (sub : Subject) (a b : QuotaState) (s : State) :
    Frame enforceParts s (reportBlocking sub a b s) := by
  unfold reportBlocking
  split
  · exact Frame.refl _ s
  · split
    · exact enforceBlock_frame sub s
    · exact enforceUnblock_frame sub s

theorem evaluate_frame (cause : QuotaCause) (sub : Subject) (s : State) : Frame evalParts s (evaluate cause sub s) := by
  unfold evaluate
  dsimp only
  split
  · exact Frame.refl _ s
  · exact (notify_frame _ _ _).after (by decide) ((reportBlocking_frame _ _ _ _).after (by decide)
      ((softWrite_frame _ _).after (by decide) ((setAcct_frame _ _ s).into (by decide))))

theorem evaluateGroup_frame (cause : QuotaCause) (g : Option Nat) (s : State) :
    Frame evalParts s (evaluateGroup cause g s) := by
  cases g
  · exact Frame.refl _ s
  · exact evaluate_frame _ _ s

theorem evaluateBoth_frame (cause : QuotaCause) (p : Nat) (s : State) : Frame evalParts s (evaluateBoth cause p s) :=
  (evaluate_frame _ _ s).trans (evaluateGroup_frame _ _ _)

theorem graceTick_frame (s : State) (sub : Subject) : Frame evalParts s (graceTick s sub) := by
  unfold graceTick
  dsimp only
  split
  · exact (evaluate_frame _ _ _).after (by decide) ((setAcct_frame _ _ s).into (by decide))
  · exact (setAcct_frame _ _ s).into (by decide)

theorem graceWalk_frame (s : State) : Frame evalParts s (graceWalk s) := Frame.foldl graceTick_frame _ s

theorem onGroup_frame (g : Option Nat) (f : Account → Account) (s : State) : Frame [.groups] s (onGroup g f s) := by
  cases g
  · exact Frame.refl _ s
  · exact setGroupRec_frame _ _ s

theorem onMembers_frame (g : Option Nat) (f : Nat → Nat) (s : State) : Frame [.groups] s (onMembers g f s) := by
  cases g
  · exact Frame.refl _ s
  · exact setGroupRec_frame _ _ s

theorem addCharge_frame (p c : Nat) (s : State) : Frame [.principals, .groups] s (addCharge p c s) :=
  (onGroup_frame _ _ _).after (by decide) ((setPrincipal_frame _ _ s).into (by decide))

theorem subCharge_frame (p c : Nat) (s : State) : Frame [.principals, .groups] s (subCharge p c s) :=
  (onGroup_frame _ _ _).after (by decide) ((setPrincipal_frame _ _ s).into (by decide))

theorem changeReservation_frame (f : Account → Account) (p : Nat) (s : State) :
    Frame [.principals, .groups] s (changeReservation f p s) :=
  (onGroup_frame _ _ _).after (by decide) ((setPrincipal_frame _ _ s).into (by decide))

theorem reserve_frame (p r : Nat) (s : State) : Frame evalParts s (reserve p r s) :=
  (evaluateBoth_frame _ _ _).after (by decide) ((changeReservation_frame _ _ s).into (by decide))

theorem release_frame (p r : Nat) (s : State) : Frame evalParts s (release p r s) := by
  unfold release
  split
  · exact Frame.refl _ s
  · exact (evaluateBoth_frame _ _ _).after (by decide) ((changeReservation_frame _ _ s).into (by decide))

theorem convert_frame (tag p c : Nat) (s : State) : Frame [.principals, .groups, .restoreJobs] s (convert tag p c s) := by
  unfold convert
  split
  · exact Frame.refl _ s
  · split
    · exact (changeReservation_frame _ _ _).after (by decide) ((setRestoreJob_frame _ _ s).into (by decide))
    · exact Frame.refl _ s

theorem chargeAlloc_frame (tag p c : Nat) (s : State) : Frame (.restoreJobs :: evalParts) s (chargeAlloc tag p c s) :=
  (evaluateBoth_frame _ _ _).after (by decide)
    ((addCharge_frame _ _ _).after (by decide) ((convert_frame _ _ _ s).into (by decide)))

theorem chargeFree_frame (p c : Nat) (s : State) : Frame evalParts s (chargeFree p c s) :=
  (evaluateBoth_frame _ _ _).after (by decide) ((subCharge_frame _ _ s).into (by decide))

theorem chargeMove_frame (p q c : Nat) (s : State) : Frame evalParts s (chargeMove p q c s) := by
  unfold chargeMove
  split
  · exact (evaluate_frame _ _ _).after (by decide) ((setPrincipal_frame _ _ s).into (by decide))
  · have h : Frame evalParts s (addCharge q c (subCharge p c s)) :=
      (addCharge_frame _ _ _).after (by decide) ((subCharge_frame _ _ s).into (by decide))
    dsimp only
    split
    · exact (evaluate_frame _ _ _).after (by decide) ((evaluateGroup_frame _ _ _).after (by decide)
        ((evaluate_frame _ _ _).after (by decide) h))
    · exact (evaluateGroup_frame _ _ _).after (by decide) ((evaluate_frame _ _ _).after (by decide)
        ((evaluateGroup_frame _ _ _).after (by decide) ((evaluate_frame _ _ _).after (by decide) h)))

theorem moveGroup_frame (p : Nat) (new : Option Nat) (s : State) : Frame [.principals, .groups] s (moveGroup p new s) :=
  (onMembers_frame _ _ _).after (by decide) ((onGroup_frame _ _ _).after (by decide)
    ((onMembers_frame _ _ _).after (by decide) ((onGroup_frame _ _ _).after (by decide)
      ((setPrincipal_frame _ _ s).into (by decide)))))

theorem loadUsage_frame (p b : Nat) (s : State) : Frame [.principals, .groups] s (loadUsage p b s) :=
  by
  unfold loadUsage
  exact (onGroup_frame _ _ _).after (by decide) ((setPrincipal_frame _ _ s).into (by decide))

/-! ### Catalog -/


theorem notifyReserve_frame (v : Nat) (b : Bool) (s : State) : Frame raiseParts s (notifyReserve v b s) := notify_frame _ _ s

theorem clearReserve_frame (v : Nat) (s : State) : Frame (.reserveOver :: raiseParts) s (clearReserve v s) :=
  (notifyReserve_frame _ _ _).after (by decide) ((overWrite_frame _ s).into (by decide))

theorem setReserve_frame (v : Nat) (s : State) : Frame (.reserveOver :: raiseParts) s (setReserve v s) :=
  (notifyReserve_frame _ _ _).after (by decide) ((overWrite_frame _ s).into (by decide))

theorem testReserveFall_frame (v : Nat) (s : State) : Frame (.reserveOver :: raiseParts) s (testReserveFall v s) := by
  unfold testReserveFall
  split
  · exact clearReserve_frame v s
  · exact Frame.refl _ s

theorem handDrop_frame (id : Nat) (s : State) : Frame [.links, .snaps] s (handDrop id s) := by
  unfold handDrop
  split
  · exact Frame.refl _ s
  · dsimp only
    split
    · exact (setSnap_frame _ _ _).after (by decide) ((issue_frame _ _ s).into (by decide))
    · exact Frame.refl _ s

theorem passHolds_frame (o : Option (Nat × Snap)) (l : List Hold) (s : State) : Frame [.snaps] s (passHolds o l s) := by
  cases o
  · exact Frame.refl _ s
  · exact setSnap_frame _ _ s

theorem cascade_frame (id : Nat) (x : Snap) (failed : Bool) (s : State) : Frame catalogParts s (cascade id x failed s).1 := by
  have h : Frame catalogParts s (lowerHeld x.volume (cascadeAmounts (olderHolder s id x) x.holds).freed
      (passHolds (olderHolder s id x) x.holds s)) :=
    (setVolume_frame _ _ _).after (by decide) ((passHolds_frame _ _ s).into (by decide))
  unfold cascade
  dsimp only
  split
  · refine (testReserveFall_frame _ _).after (by decide) ?_
    split
    · exact (delSnap_frame _ _).after (by decide) h
    · exact (handDrop_frame _ _).after (by decide) ((setSnap_frame _ _ _).after (by decide) h)
  · split
    · exact (delSnap_frame _ _).after (by decide) h
    · exact (handDrop_frame _ _).after (by decide) ((setSnap_frame _ _ _).after (by decide) h)

theorem releaseSnap_frame (why : ReleaseReason) (id : Nat) (s : State) : Frame catalogParts s (releaseSnap why id s).1 := by
  unfold releaseSnap
  split
  · exact Frame.refl _ s
  · exact (notify_frame _ _ _).after (by decide) (cascade_frame _ _ _ s)

theorem pressureLoop_frame (v n : Nat) (s : State) : Frame catalogParts s (pressureLoop v n s) := by
  induction n generalizing s with
  | zero => exact Frame.refl _ s
  | succ n ih =>
    unfold pressureLoop
    split
    · exact Frame.refl _ s
    · split
      · exact Frame.refl _ s
      · exact (releaseSnap_frame _ _ s).trans (ih _)

theorem pressureTest_frame (v : Nat) (s : State) : Frame catalogParts s (pressureTest v s) := by
  unfold pressureTest decideReserve
  split
  · exact (testReserveFall_frame _ _).after (by decide) (pressureLoop_frame _ _ s)
  · split
    · exact pressureLoop_frame _ _ s
    · exact (setReserve_frame _ _).after (by decide) (pressureLoop_frame _ _ s)

theorem attributeHold_frame (v b n : Nat) (s : State) : Frame catalogParts s (attributeHold v b n s) := by
  unfold attributeHold
  split
  · exact Frame.refl _ s
  · split
    · exact (pressureTest_frame _ _).after (by decide)
        ((setVolume_frame _ _ _).after (by decide) ((setSnap_frame _ _ s).into (by decide)))
    · exact Frame.refl _ s

theorem takeSnap_frame (v : Nat) (k : SnapKind) (b : Bool) (s : State) :
    Frame [.volumes, .nextId, .links, .snaps] s (takeSnap v k b s).1 :=
  (setSnap_frame _ _ _).after (by decide) ((issue_frame _ _ _).after (by decide)
    ((nextIdWrite_frame _ _).after (by decide) ((setVolume_frame _ _ s).into (by decide))))

theorem failTake_frame (id : Nat) (x : Snap) (why : SnapFailReason) (q : Bool) (s : State) :
    Frame (.toDc :: catalogParts) s (failTake id x why q s) := by
  unfold failTake
  dsimp only
  split
  · exact (cascade_frame _ _ _ s).into (by decide)
  · exact (toDcWrite_frame _ _).after (by decide)
      ((notify_frame _ _ _).after (by decide) ((cascade_frame _ _ _ s).into (by decide)))

theorem pin_frame (id : Nat) (s : State) : Frame [.snaps] s (pin id s) := by
  unfold pin
  split
  · exact Frame.refl _ s
  · exact setSnap_frame _ _ s

theorem unpin_frame (id : Nat) (s : State) : Frame catalogParts s (unpin id s) := by
  unfold unpin
  split
  · exact Frame.refl _ s
  · dsimp only
    split
    · exact (pressureTest_frame _ _).after (by decide) ((setSnap_frame _ _ s).into (by decide))
    · exact (setSnap_frame _ _ s).into (by decide)

theorem retire_frame (l : List (Nat × Snap)) (s : State) : Frame catalogParts s (retire l s) :=
  Frame.foldl (fun _ _ => releaseSnap_frame _ _ _) l s

theorem takeRetention_frame (v : Nat) (k : SnapKind) (s : State) : Frame catalogParts s (takeRetention v k s) := by
  unfold takeRetention
  split
  · exact Frame.refl _ s
  · exact (retire_frame _ _).after (by decide) (retire_frame _ s)

theorem ageRetentionOf_frame (v : Nat) (k : SnapKind) (s : State) : Frame catalogParts s (ageRetentionOf v k s) := by
  unfold ageRetentionOf
  split
  · exact Frame.refl _ s
  · exact retire_frame _ s

theorem ageRetention_frame (s : State) : Frame catalogParts s (ageRetention s) :=
  Frame.foldl (fun _ _ => (ageRetentionOf_frame _ _ _).after (by decide)
    ((ageRetentionOf_frame _ _ _).after (by decide) (ageRetentionOf_frame _ _ _))) _ s

/-! ### Copies -/


theorem restoreDone_frame (id : Nat) (j : RestoreJob) (o : RestoreOutcome) (n : Nat) (s : State) :
    Frame raiseParts s (restoreDone id j o n s) := notify_frame _ _ s

theorem freeSlot_frame (id : Nat) (j : RestoreJob) (o : RestoreOutcome) (s : State) :
    Frame [.restoreJobs, .restoreEnds, .acceptance] s (freeSlot id j o s) :=
  ⟨rfl, fun p hp => by cases p <;> first | rfl | exact ⟨rfl, rfl⟩ | exact ⟨rfl, rfl, rfl⟩ | exact (hp (by decide)).elim, fun _ => ⟨rfl, rfl⟩⟩

theorem endRestore_frame (id : Nat) (j : RestoreJob) (s : State) : Frame restoreEndParts s (endRestore id j s) :=
  (restoreDone_frame _ _ _ _ _).after (by decide) ((unpin_frame _ _).after (by decide)
    ((release_frame _ _ _).after (by decide) ((freeSlot_frame _ _ _ s).into (by decide))))

theorem testRestoreEnd_frame (id : Nat) (s : State) : Frame restoreEndParts s (testRestoreEnd id s) := by
  unfold testRestoreEnd
  split
  · exact Frame.refl _ s
  · split
    · exact endRestore_frame _ _ s
    · exact Frame.refl _ s

theorem returnRestore_frame (srv : Nat) (s : State) : Frame [.credits] s (returnRestore srv s) := by
  unfold returnRestore
  dsimp only
  split
  · exact Frame.refl _ s
  · exact setCredit_frame _ _ s

theorem returnShip_frame (srv : Nat) (s : State) : Frame [.credits] s (returnShip srv s) := by
  unfold returnShip
  dsimp only
  split
  · exact Frame.refl _ s
  · exact setCredit_frame _ _ s

theorem resetCredits_frame (srv : Nat) (s : State) : Frame [.credits] s (resetCredits srv s) := setCredit_frame _ _ s

theorem presentAll_frame (s : State) : Frame [.credits] s (presentAll s) := Frame.foldl (fun _ _ => setCredit_frame _ _ _) _ s


theorem grantRestore_frame (srv id : Nat) (j : RestoreJob) (s : State) : Frame grantParts s (grantRestore srv id j s) := by
  unfold grantRestore
  split
  · exact Frame.refl _ s
  · exact (setRestoreJob_frame _ _ _).after (by decide)
      ((issue_frame _ _ _).after (by decide) ((setCredit_frame _ _ s).into (by decide)))

theorem formBatch_frame (srv v : Nat) (j : DupJob) (s : State) : Frame grantParts s (formBatch srv v j s) := by
  unfold formBatch
  have h (t : State) (m : Nat) (x : Option Nat) :
      Frame [.budget, .turn] t { t with dc := { t.dc with remaining := m, turn := x } } := ⟨rfl, fun p hp => by cases p <;> first | rfl | exact ⟨rfl, rfl⟩ | exact ⟨rfl, rfl, rfl⟩ | exact (hp (by decide)).elim, fun _ => ⟨rfl, rfl⟩⟩
  exact (h _ _ _).after (by decide)
    ((setDupJob_frame _ _ _).after (by decide) ((issue_frame _ _ s).into (by decide)))

theorem grantDup_frame (srv : Nat) (s : State) : Frame grantParts s (grantDup srv s) := by
  unfold grantDup
  dsimp only
  have h : Frame grantParts s (setCredit srv { credit s srv with ship := (credit s srv).ship + 1, free := (credit s srv).free - 1 } s) :=
    (setCredit_frame _ _ s).into (by decide)
  split
  · exact (presentAll_frame _).after (by decide) ((returnShip_frame _ _).after (by decide) h)
  · split
    · exact (presentAll_frame _).after (by decide) ((returnShip_frame _ _).after (by decide) h)
    · exact (presentAll_frame _).after (by decide) ((formBatch_frame _ _ _ _).after (by decide) h)

theorem grantLoop_frame (srv n : Nat) (s : State) : Frame grantParts s (grantLoop srv n s) := by
  induction n generalizing s with
  | zero => exact Frame.refl _ s
  | succ n ih =>
    rw [grantLoop]
    split
    · exact Frame.refl _ s
    · split
      · exact (grantRestore_frame _ _ _ s).trans (ih _)
      · split
        · exact (grantDup_frame _ s).trans (ih _)
        · exact Frame.refl _ s

theorem grantAll_frame (s : State) : Frame grantParts s (grantAll s) :=
  (Frame.foldl (fun _ _ => grantLoop_frame _ _ _) _ _).after (by decide) ((presentAll_frame s).into (by decide))


theorem dupNotice_frame (v : Nat) (e : DupEnd) (c : DupCause) (l : DupFailure) (s : State) :
    Frame raiseParts s (dupNotice v e c l s) := notify_frame _ _ s

theorem emptyPlace_frame (v : Nat) (e : DupEnd) (s : State) : Frame [.dupJobs, .dupEnds] s (emptyPlace v e s) :=
  ⟨rfl, fun p hp => by cases p <;> first | rfl | exact ⟨rfl, rfl⟩ | exact ⟨rfl, rfl, rfl⟩ | exact (hp (by decide)).elim, fun _ => ⟨rfl, rfl⟩⟩

theorem completeDup_frame (v : Nat) (j : DupJob) (s : State) : Frame dupParts s (completeDup v j s) := by
  unfold completeDup
  dsimp only
  refine (dupNotice_frame _ _ _ _ _).after (by decide) ((emptyPlace_frame _ _ _).after (by decide)
    ((setVolume_frame _ _ _).after (by decide) ?_))
  split
  · exact Frame.refl _ s
  · exact (unpin_frame _ s).into (by decide)

theorem endDup_frame (v : Nat) (r : DupReason) (c : DupCause) (j : DupJob) (s : State) : Frame dupParts s (endDup v r c j s) := by
  unfold endDup
  dsimp only
  refine (dupNotice_frame _ _ _ _ _).after (by decide) ((emptyPlace_frame _ _ _).after (by decide) ?_)
  split
  · exact Frame.refl _ s
  · exact (unpin_frame _ s).into (by decide)

theorem settleDup_frame (v : Nat) (s : State) : Frame dupParts s (settleDup v s) := by
  unfold settleDup
  split
  · exact Frame.refl _ s
  · dsimp only
    split
    · exact (completeDup_frame _ _ _).after (by decide) ((setDupJob_frame _ _ s).into (by decide))
    · exact (setDupJob_frame _ _ s).into (by decide)

theorem shipDone_frame (v : Nat) (j : DupJob) (s : State) : Frame dupParts s (shipDone v j s) := by
  unfold shipDone
  split
  · exact Frame.refl _ s
  · dsimp only
    split
    · exact endDup_frame _ _ _ _ s
    · exact (settleDup_frame _ _).after (by decide) ((setDupJob_frame _ _ s).into (by decide))

theorem batchFailed_frame (v : Nat) (w : DupFailure) (j : DupJob) (s : State) : Frame dupParts s (batchFailed v w j s) := by
  unfold batchFailed
  split
  · exact Frame.refl _ s
  · dsimp only
    split
    · exact endDup_frame _ _ _ _ s
    · split
      · exact endDup_frame _ _ _ _ s
      · exact (setDupJob_frame _ _ s).into (by decide)

theorem createDup_frame (v a b : Nat) (st : DupState) (o : DupOrigin) (s : State) : Frame dupParts s (createDup v a b st o s) :=
  (dupNotice_frame _ _ _ _ _).after (by decide) ((setDupJob_frame _ _ _).after (by decide) ((pin_frame _ s).into (by decide)))

theorem noTargetDup_frame (v : Nat) (c : DupCause) (s : State) : Frame dupParts s (noTargetDup v c s) :=
  by
  unfold noTargetDup
  have h (t : State) (e : List (Nat × DupEnd)) : Frame [.dupEnds] t { t with dc := { t.dc with lastEnd := e } } := ⟨rfl, fun p hp => by cases p <;> first | rfl | exact ⟨rfl, rfl⟩ | exact ⟨rfl, rfl, rfl⟩ | exact (hp (by decide)).elim, fun _ => ⟨rfl, rfl⟩⟩
  exact (dupNotice_frame _ _ _ _ _).after (by decide) ((h s _).into (by decide))

theorem nightlyItem_frame (s : State) (i : NightlyItem) : Frame dupParts s (nightlyItem s i) := by
  unfold nightlyItem
  split
  · exact Frame.refl _ s
  · split
    · exact noTargetDup_frame _ _ s
    · split
      · exact noTargetDup_frame _ _ s
      · split
        · exact createDup_frame _ _ _ _ _ s
        · exact noTargetDup_frame _ _ s

theorem targetDone_frame (v id : Nat) (s : State) : Frame dupParts s (targetDone v id s) := by
  unfold targetDone
  split
  · exact Frame.refl _ s
  · split
    · split
      · exact (settleDup_frame _ _).after (by decide) ((setDupJob_frame _ _ s).into (by decide))
      · exact (setDupJob_frame _ _ s).into (by decide)
    · exact Frame.refl _ s

theorem targetFailed_frame (v id : Nat) (s : State) : Frame dupParts s (targetFailed v id s) := by
  unfold targetFailed
  split
  · exact Frame.refl _ s
  · split
    · exact endDup_frame _ _ _ _ s
    · exact Frame.refl _ s

theorem drainMessages_frame (n : Nat) (s : State) : Frame (.toDc :: dupParts) s (drainMessages n s) := by
  induction n generalizing s with
  | zero => exact Frame.refl _ s
  | succ n ih =>
    unfold drainMessages
    split
    · exact Frame.trans ((targetDone_frame _ _ _).after (by decide) ((toDcWrite_frame _ s).into (by decide))) (ih _)
    · exact Frame.trans ((targetFailed_frame _ _ _).after (by decide) ((toDcWrite_frame _ s).into (by decide))) (ih _)
    · exact Frame.refl _ s

theorem dcListen_frame (s : State) : Frame (.toDc :: dupParts) s (dcListen s) := drainMessages_frame _ s

/-! ### Window and time -/


theorem handOpenGroups_frame (s : State) : Frame [.dcOpen, .ccaOpen] s (handOpenGroups s) :=
  ⟨rfl, fun p hp => by cases p <;> first | rfl | exact ⟨rfl, rfl⟩ | exact ⟨rfl, rfl, rfl⟩ | exact (hp (by decide)).elim, fun _ => ⟨rfl, rfl⟩⟩

theorem refillBudget_frame (s : State) : Frame [.budget] s (refillBudget s) :=
  ⟨rfl, fun p hp => by cases p <;> first | rfl | exact ⟨rfl, rfl⟩ | exact ⟨rfl, rfl, rfl⟩ | exact (hp (by decide)).elim, fun _ => ⟨rfl, rfl⟩⟩

theorem dupStates_frame (a b : DupState) (s : State) : Frame [.dupJobs] s (dupStates a b s) :=
  ⟨rfl, fun p hp => by cases p <;> first | rfl | exact ⟨rfl, rfl⟩ | exact ⟨rfl, rfl, rfl⟩ | exact (hp (by decide)).elim, fun _ => ⟨rfl, rfl⟩⟩

theorem resumeJobs_frame (s : State) : Frame dupParts s (resumeJobs s) :=
  (Frame.foldl (fun _ _ => settleDup_frame _ _) _ _).after (by decide) ((dupStates_frame _ _ s).into (by decide))

theorem windowOpen_frame (j : Nat) (c : WindowCause) (s : State) : Frame windowParts s (windowOpen j c s) := by
  unfold windowOpen
  dsimp only
  refine (notify_frame _ _ _).after (by decide) ((resumeJobs_frame _).after (by decide)
    ((handOpenGroups_frame _).after (by decide) ((refillBudget_frame _).after (by decide) ?_)))
  exact ⟨rfl, fun p hp => by cases p <;> first | rfl | exact ⟨rfl, rfl⟩ | exact ⟨rfl, rfl, rfl⟩ | exact (hp (by decide)).elim, fun _ => ⟨rfl, rfl⟩⟩

theorem slotBoundary_frame (j : Nat) (s : State) : Frame windowParts s (slotBoundary j s) := by
  unfold slotBoundary
  dsimp only
  have h : Frame windowParts s { s with cwu := cwuBoundary j s.cwu } := ⟨rfl, fun p hp => by cases p <;> first | rfl | exact ⟨rfl, rfl⟩ | exact ⟨rfl, rfl, rfl⟩ | exact (hp (by decide)).elim, fun _ => ⟨rfl, rfl⟩⟩
  refine (handOpenGroups_frame _).after (by decide) ?_
  split
  · exact h
  · exact (refillBudget_frame _).after (by decide) h

theorem windowClose_frame (j : Nat) (c : WindowCause) (s : State) : Frame windowParts s (windowClose j c s) := by
  unfold windowClose
  dsimp only
  refine (notify_frame _ _ _).after (by decide) ((dupStates_frame _ _ _).after (by decide)
    ((handOpenGroups_frame _).after (by decide) ?_))
  exact ⟨rfl, fun p hp => by cases p <;> first | rfl | exact ⟨rfl, rfl⟩ | exact ⟨rfl, rfl, rfl⟩ | exact (hp (by decide)).elim, fun _ => ⟨rfl, rfl⟩⟩

theorem evaluateWindow_frame (c : WindowCause) (s : State) :
    Frame (.credits :: .restoreJobs :: .turn :: windowParts) s (evaluateWindow c s) := by
  unfold evaluateWindow
  split
  · exact Frame.refl _ s
  · exact (windowOpen_frame _ _ s).into (by decide)
  · exact (windowClose_frame _ _ s).into (by decide)
  · split
    · exact Frame.refl _ s
    · split
      · dsimp only; split
        · exact (windowClose_frame _ _ s).into (by decide)
        · exact (windowOpen_frame _ _ _).after (by decide)
            ((grantAll_frame _).after (by decide) ((windowClose_frame _ _ s).into (by decide)))
      · exact (slotBoundary_frame _ s).into (by decide)

theorem trendTick_frame (s : State) : Frame [.interval, .samplesDue] s (trendTick s) := by
  unfold trendTick
  split
  · exact ⟨rfl, fun p hp => by cases p <;> first | rfl | exact ⟨rfl, rfl⟩ | exact ⟨rfl, rfl, rfl⟩ | exact (hp (by decide)).elim, fun _ => ⟨rfl, rfl⟩⟩
  · exact ⟨rfl, fun p hp => by cases p <;> first | rfl | exact ⟨rfl, rfl⟩ | exact ⟨rfl, rfl, rfl⟩ | exact (hp (by decide)).elim, fun _ => ⟨rfl, rfl⟩⟩


theorem minuteTick_frame (s : State) : Frame minuteParts s (minuteTick s) := by
  unfold minuteTick
  refine (evaluateWindow_frame _ _).after (by decide) ((trendTick_frame _).after (by decide)
    ((ageRetention_frame _).after (by decide) ((graceWalk_frame _).after (by decide) ?_)))
  exact ⟨rfl, fun p hp => by cases p <;> first | rfl | exact ⟨rfl, rfl⟩ | exact ⟨rfl, rfl, rfl⟩ | exact (hp (by decide)).elim, fun _ => ⟨rfl, rfl⟩⟩

/-! ### Links -/

theorem changeLink_frame (srv : Nat) (a : LinkState) (w : LinkReason) (s : State) : Frame [.links] s (changeLink srv a w s) :=
  setLink_frame _ _ s

theorem notifyLink_frame (srv : Nat) (a b : LinkState) (w : LinkReason) (s : State) :
    Frame raiseParts s (notifyLink srv a b w s) := notify_frame _ _ s

theorem moveLink_frame (srv : Nat) (a : LinkState) (w : LinkReason) (s : State) :
    Frame (.links :: raiseParts) s (moveLink srv a w s) :=
  (notifyLink_frame _ _ _ _ _).after (by decide) ((changeLink_frame _ _ _ s).into (by decide))

theorem notifyStale_frame (v : Nat) (b : Bool) (a : VolState) (w : StaleReason) (s : State) :
    Frame raiseParts s (notifyStale v b a w s) := notify_frame _ _ s

theorem volumeStale_frame (q : Bool) (s : State) (v : Nat) : Frame (.volumes :: raiseParts) s (volumeStale q s v) := by
  unfold volumeStale
  dsimp only
  split
  · exact (setVolume_frame _ _ s).into (by decide)
  · exact (notifyStale_frame _ _ _ _ _).after (by decide) ((setVolume_frame _ _ s).into (by decide))

theorem volumesLeave_frame (srv : Nat) (q : Bool) (s : State) : Frame (.volumes :: raiseParts) s (volumesLeave srv q s) :=
  Frame.foldl (volumeStale_frame q) _ s

theorem volumesEnter_frame (srv : Nat) (s : State) : Frame (.volumes :: raiseParts) s (volumesEnter srv s) :=
  Frame.foldl (fun _ _ => (notifyStale_frame _ _ _ _ _).after (by decide) ((setVolume_frame _ _ _).into (by decide))) _ s


theorem failBack_frame (srv : Nat) (q : Bool) (s : State) (o : Order) : Frame leaveParts s (failBack srv q s o) := by
  unfold failBack
  split
  · unfold snapFailedBack
    split
    · exact (failTake_frame _ _ _ _ s).into (by decide)
    · split
      · exact (setSnap_frame _ _ s).into (by decide)
      · exact Frame.refl _ s
  · unfold copyFailedBack
    split
    · exact Frame.refl _ s
    · exact (testRestoreEnd_frame _ _).after (by decide) ((setRestoreJob_frame _ _ s).into (by decide))
  · unfold shipFailedBack
    split
    · exact Frame.refl _ s
    · exact (batchFailed_frame _ _ _ s).into (by decide)
  · exact Frame.refl _ s

theorem intakeLeave_frame (srv : Nat) (s : State) : Frame [.intakes] s (intakeLeave srv s) := by
  unfold intakeLeave
  dsimp only
  split
  · exact setIntake_frame _ _ s
  · exact setIntake_frame _ _ s

theorem leaveUp_frame (srv : Nat) (a : LinkState) (w : LinkReason) (q : Bool) (s : State) :
    Frame leaveParts s (leaveUp srv a w q s) := by
  unfold leaveUp
  dsimp only
  have h : Frame leaveParts s (resetCredits srv (volumesLeave srv q (changeLink srv a w (emptyLink srv s)))) :=
    (resetCredits_frame _ _).after (by decide) ((volumesLeave_frame _ _ _).after (by decide)
      ((changeLink_frame _ _ _ _).after (by decide) ((setLink_frame _ _ s).into (by decide))))
  refine (enforceLeave_frame _ _).after (by decide) (Frame.trans ?_ (Frame.foldl (failBack_frame srv q) _ _))
  split
  · exact (setIntake_frame _ _ _).after (by decide) h
  · exact (intakeLeave_frame _ _).after (by decide) h


theorem afterLeave_frame (s : State) : Frame linkParts s (afterLeave s) :=
  (grantAll_frame _).after (by decide) ((dcListen_frame s).into (by decide))

theorem dropLink_frame (srv : Nat) (a : LinkState) (w : LinkReason) (s : State) : Frame linkParts s (dropLink srv a w s) :=
  (afterLeave_frame _).after (by decide) ((notifyLink_frame _ _ _ _ _).after (by decide)
    ((leaveUp_frame _ _ _ _ s).into (by decide)))

theorem protocolFault_frame (srv : Nat) (s : State) : Frame linkParts s (protocolFault srv s) := dropLink_frame _ _ _ s

theorem resendDrops_frame (srv : Nat) (s : State) : Frame [.links, .snaps] s (resendDrops srv s) :=
  Frame.foldl (fun _ _ => handDrop_frame _ _) _ s

theorem enterUp_frame (srv : Nat) (h : Reentry) (o : LinkState) (s : State) : Frame linkParts s (enterUp srv h o s) :=
  (grantAll_frame _).after (by decide) ((resendDrops_frame _ _).after (by decide) ((enforceEnter_frame _ _).after (by decide)
    ((volumesEnter_frame _ _).after (by decide) ((setIntake_frame _ _ _).after (by decide)
      ((notifyLink_frame _ _ _ _ _).after (by decide) ((setLink_frame _ _ s).into (by decide)))))))

theorem reenterFromUp_frame (srv : Nat) (h : Reentry) (s : State) : Frame linkParts s (reenterFromUp srv h s) := by
  unfold reenterFromUp
  dsimp only
  have h1 : Frame linkParts s (afterLeave (leaveUp srv .syncing (reentryReason h) false s)) :=
    (afterLeave_frame _).after (by decide) ((leaveUp_frame _ _ _ _ s).into (by decide))
  split
  · exact (setLink_frame _ _ _).after (by decide) h1
  · exact (enterUp_frame _ _ _ _).after (by decide) h1

theorem enterFrom_frame (srv : Nat) (h : Reentry) (s : State) : Frame linkParts s (enterFrom srv h s) := by
  unfold enterFrom
  dsimp only
  split
  · exact Frame.refl _ s
  · exact enterUp_frame _ _ _ s

theorem serverFrame_frame {L : List Part} (srv : Nat) (f : State → State) (s : State) (hL : Part.links ∈ L)
    (hf : ∀ s, Frame L s (f s)) : Frame L s (serverFrame srv f s) := by
  have h : Frame L s (frameArrived srv s) := (setLink_frame _ _ s).into (by simpa using hL)
  unfold serverFrame
  split
  · exact Frame.refl _ s
  · dsimp only
    split
    · exact h
    · split
      · exact h.trans (hf _)
      · exact h

theorem completion_frame {L : List Part} (srv num : Nat) (k : OrderKind) (f : State → State) (s : State)
    (hL : ∀ p ∈ linkParts, p ∈ L) (hf : ∀ s, Frame L s (f s)) : Frame L s (completion srv num k f s) := by
  unfold completion
  split
  · exact Frame.refl _ s
  · split
    · exact ((setLink_frame _ _ s).into (by intro p hp; apply hL; revert p; decide)).trans (hf _)
    · exact (protocolFault_frame _ s).into hL

theorem silenceTick_frame (s : State) (srv : Nat) : Frame linkParts s (silenceTick s srv) := by
  unfold silenceTick
  split
  · dsimp only
    split
    · exact (dropLink_frame _ _ _ _).after (by decide) ((setLink_frame _ _ s).into (by decide))
    · exact (setLink_frame _ _ s).into (by decide)
  · exact Frame.refl _ s

theorem idleTick_frame (s : State) (srv : Nat) : Frame [.links] s (idleTick s srv) := by
  unfold idleTick
  dsimp only
  split
  · exact (setLink_frame _ _ _).after (by decide) (handFrame_frame _ _ s)
  · exact setLink_frame _ _ s


theorem secondTick_frame (s : State) : Frame secondParts s (secondTick s) := by
  unfold secondTick
  dsimp only
  refine (Frame.foldl idleTick_frame _ _).after (by decide) ((Frame.foldl silenceTick_frame _ _).after (by decide) ?_)
  split
  · refine (grantAll_frame _).after (by decide) ((minuteTick_frame _).after (by decide) ?_)
    exact ⟨rfl, fun p hp => by cases p <;> first | rfl | exact ⟨rfl, rfl⟩ | exact ⟨rfl, rfl, rfl⟩ | exact (hp (by decide)).elim, fun _ => ⟨rfl, rfl⟩⟩
  · exact ⟨rfl, fun p hp => by cases p <;> first | rfl | exact ⟨rfl, rfl⟩ | exact ⟨rfl, rfl, rfl⟩ | exact (hp (by decide)).elim, fun _ => ⟨rfl, rfl⟩⟩

/-! ### Change intake -/

theorem takeChanges_frame (srv tag : Nat) (recs : List ChangeRecord) (s : State) :
    Frame linkParts s (takeChanges srv tag recs s) := by
  unfold takeChanges
  dsimp only
  split
  · exact protocolFault_frame _ s
  · split
    · exact (dropLink_frame _ _ _ _).after (by decide) ((setIntake_frame _ _ s).into (by decide))
    · exact (setIntake_frame _ _ s).into (by decide)


theorem takeRecord_frame (srv num : Nat) (r : ChangeRecord) (s : State) : Frame recordParts s (takeRecord srv num r s) := by
  unfold takeRecord
  dsimp only
  have h0 : Frame recordParts s (if isReassigned s r then
      { s with book := { s.book with reassigned := satAdd top32 s.book.reassigned 1 } } else s) := by
    split
    · exact ⟨rfl, fun p hp => by cases p <;> first | rfl | exact ⟨rfl, rfl⟩ | exact ⟨rfl, rfl, rfl⟩ | exact (hp (by decide)).elim, fun _ => ⟨rfl, rfl⟩⟩
    · exact Frame.refl _ s
  have h1 (p q c : Nat) (t : State) : Frame recordParts t (chargePart r p q c t) := by
    unfold chargePart
    split
    · exact (chargeAlloc_frame _ _ _ t).into (by decide)
    · split
      · exact (chargeFree_frame _ _ t).into (by decide)
      · exact (chargeMove_frame _ _ _ t).into (by decide)
  have h2 (t : State) : Frame recordParts t (holdPart r t) := by
    unfold holdPart
    split
    · exact (attributeHold_frame _ _ _ t).into (by decide)
    · exact Frame.refl _ t
  have h3 (p q : Nat) (t : State) : Frame recordParts t (breachPart srv num r p q t) := by
    unfold breachPart
    split
    · exact (detectBreach_frame _ _ _ _ _ _ t).into (by decide)
    · split
      · exact (detectBreach_frame _ _ _ _ _ _ t).into (by decide)
      · exact Frame.refl _ t
  exact (((h0.trans (h1 _ _ _ _)).trans (h2 _)).trans ((setVolume_frame _ _ _).into (by decide))).trans (h3 _ _ _)

theorem dealWith_frame (srv : Nat) (q : QueuedRecord) (rest : List QueuedRecord) (s : State) :
    Frame recordParts s (dealWith srv q rest s) := by
  have h (v : Option Verdict) (t : State) : Frame recordParts t (afterRecord srv q rest v t) := by
    unfold afterRecord
    dsimp only
    split
    · split
      · exact (setIntake_frame _ _ t).into (by decide)
      · exact (setIntake_frame _ _ t).into (by decide)
    · split
      · exact (handFrame_frame _ _ _).after (by decide) ((setIntake_frame _ _ t).into (by decide))
      · exact (setIntake_frame _ _ t).into (by decide)
  unfold dealWith
  dsimp only
  split
  · exact (takeRecord_frame _ _ _ s).trans (h _ _)
  · exact h _ s

theorem Frame.spares {L : List Part} {s t : State} (h : Frame L s t) : Spares L s t := ⟨h.parts, h.steady⟩

end Sys2Proof.Machine
end

