-- ==== Sys2Proof/Laws/PerInstr.lean ====
section
/-! SUPPORT. The per-instruction family: what is said of every command as syntax, one lemma a constructor. -/

namespace Sys2Proof.Laws.WfHead

open Sys2Proof Sys2Proof.Machine

/-- A request that can be formed has at most 1,024 payload bytes (R2), and is no frame of a server link. -/
def Statement (i : Instr) : Prop :=
  ∀ h, reqHead i = some h → (i.wf = true → h.len.toNat ≤ 1024) ∧ arrivesOn i = none

/-- A command that is no request says nothing here. -/
theorem of_none {i : Instr} (hn : reqHead i = none) : Statement i := fun _ hx => nomatch hn.symm.trans hx

/-- A command that is the request of a head with a good payload length satisfies the statement. -/
theorem of_head {i : Instr} {h : ReqHead} (he : reqHead i = some h) (hw : i.wf = true → h.ok = true)
    (ha : arrivesOn i = none) : Statement i := fun x hx => by
  cases Option.some.inj (he.symm.trans hx)
  exact ⟨fun w => of_decide_eq_true (hw w), ha⟩

theorem and_left {a b : Bool} (w : (a && b) = true) : a = true := (Bool.and_eq_true_iff.mp w).1

theorem coldReset : Statement (.coldReset) := of_none rfl

theorem resetRelease : Statement (.resetRelease) := of_none rfl

theorem carrierGained (srv : ServerId) : Statement (.carrierGained srv) := of_none rfl

theorem carrierLost (srv : ServerId) : Statement (.carrierLost srv) := of_none rfl

theorem mgmtCarrierGained : Statement (.mgmtCarrierGained) := of_none rfl

theorem mgmtCarrierLost : Statement (.mgmtCarrierLost) := of_none rfl

theorem mgmtBadFrame (chars : List RxChar) : Statement (.mgmtBadFrame chars) := of_none rfl

theorem mgmtFrameBusy (tag : BitVec 16) : Statement (.mgmtFrameBusy tag) := of_none rfl

theorem unknownKind (h : ReqHead) (kind : BitVec 8) : Statement (.unknownKind h kind) :=
  of_head rfl (fun w => and_left w) rfl

theorem mgmtFrameSent : Statement (.mgmtFrameSent) := of_none rfl

theorem serverFrameSent (srv : ServerId) : Statement (.serverFrameSent srv) := of_none rfl

theorem serverBadFrame (srv : ServerId) (chars : List RxChar) : Statement (.serverBadFrame srv chars) := of_none rfl

theorem serverUnusableFrame (srv : ServerId) (kind : BitVec 8) (tag : BitVec 16) (len : BitVec 16) : Statement (.serverUnusableFrame srv kind tag len) := of_none rfl

theorem hello (srv : ServerId) : Statement (.hello srv) := of_none rfl

theorem resync (srv : ServerId) : Statement (.resync srv) := of_none rfl

theorem reEnterUp (srv : ServerId) : Statement (.reEnterUp srv) := of_none rfl

theorem idleReceived (srv : ServerId) : Statement (.idleReceived srv) := of_none rfl

theorem secondEvent : Statement (.secondEvent) := of_none rfl

theorem silenceLimitReached (srv : ServerId) : Statement (.silenceLimitReached srv) := of_none rfl

theorem minuteEvent : Statement (.minuteEvent) := of_none rfl

theorem graceExpired (sub : Sys2Proof.Subject) : Statement (.graceExpired sub) := of_none rfl

theorem nightlyTakes : Statement (.nightlyTakes) := of_none rfl

theorem dupNightlyList : Statement (.dupNightlyList) := of_none rfl

theorem sampleEvent : Statement (.sampleEvent) := of_none rfl

theorem trendVisit : Statement (.trendVisit) := of_none rfl

theorem graceSweepVisit : Statement (.graceSweepVisit) := of_none rfl

theorem changes (srv : ServerId) (tag : BitVec 16) (recs : List ChangeRecord) : Statement (.changes srv tag recs) := of_none rfl

theorem intakeRecord (srv : ServerId) : Statement (.intakeRecord srv) := of_none rfl

theorem denyAck (srv : ServerId) (num : BitVec 16) : Statement (.denyAck srv num) := of_none rfl

theorem allowAck (srv : ServerId) (num : BitVec 16) : Statement (.allowAck srv num) := of_none rfl

theorem snapDone (srv : ServerId) (num : BitVec 16) : Statement (.snapDone srv num) := of_none rfl

theorem snapFail (srv : ServerId) (num : BitVec 16) (code : BitVec 8) : Statement (.snapFail srv num code) := of_none rfl

theorem dropSnapAck (srv : ServerId) (num : BitVec 16) : Statement (.dropSnapAck srv num) := of_none rfl

theorem copyDone (srv : ServerId) (num : BitVec 16) : Statement (.copyDone srv num) := of_none rfl

theorem copyFail (srv : ServerId) (num : BitVec 16) (reason : BitVec 8) : Statement (.copyFail srv num reason) := of_none rfl

theorem shipDone (srv : ServerId) (num : BitVec 16) : Statement (.shipDone srv num) := of_none rfl

theorem shipFail (srv : ServerId) (num : BitVec 16) (code : BitVec 8) : Statement (.shipFail srv num code) := of_none rfl

theorem warmRestart : Statement (.warmRestart) := of_none rfl

theorem warmRestartEnd : Statement (.warmRestartEnd) := of_none rfl

theorem attachVolume (h : ReqHead) (volume server : BitVec 8) (size : BitVec 64) (weight : BitVec 8) : Statement (.attachVolume h volume server size weight) :=
  of_head rfl (fun w => w) rfl

theorem setVolume (h : ReqHead) (volume : BitVec 8) (weight : Setting 8) (reserveLimit : Setting 64) (dupGroup : Setting 8) (nightly : Setting 8) : Statement (.setVolume h volume weight reserveLimit dupGroup nightly) :=
  of_head rfl (fun w => w) rfl

theorem detachVolume (h : ReqHead) (volume : BitVec 8) : Statement (.detachVolume h volume) :=
  of_head rfl (fun w => w) rfl

theorem readVolume (h : ReqHead) (volume : BitVec 8) (first : BitVec 16) (count : BitVec 8) : Statement (.readVolume h volume first count) :=
  of_head rfl (fun w => w) rfl

theorem setSilence (h : ReqHead) (limit : BitVec 16) : Statement (.setSilence h limit) :=
  of_head rfl (fun w => w) rfl

theorem restart (h : ReqHead) : Statement (.restart h) :=
  of_head rfl (fun w => w) rfl

theorem setWindow (h : ReqHead) (start length : BitVec 16) (capacity : BitVec 32) : Statement (.setWindow h start length capacity) :=
  of_head rfl (fun w => w) rfl

theorem setSlotmask (h : ReqHead) (group : BitVec 8) (mask : BitVec 32) : Statement (.setSlotmask h group mask) :=
  of_head rfl (fun w => w) rfl

theorem setClock (h : ReqHead) (partTime : BitVec 32) (minute : BitVec 16) : Statement (.setClock h partTime minute) :=
  of_head rfl (fun w => w) rfl

theorem readWindow (h : ReqHead) : Statement (.readWindow h) :=
  of_head rfl (fun w => w) rfl

theorem setTrend (h : ReqHead) (t : BitVec 32) (k w : BitVec 16) : Statement (.setTrend h t k w) :=
  of_head rfl (fun w => w) rfl

theorem loadUsage (h : ReqHead) (principal : BitVec 16) (usage : BitVec 64) : Statement (.loadUsage h principal usage) :=
  of_head rfl (fun w => w) rfl

theorem definePrincipal (h : ReqHead) (principal : BitVec 16) (userNumber : BitVec 32) (group : BitVec 16) : Statement (.definePrincipal h principal userNumber group) :=
  of_head rfl (fun w => w) rfl

theorem defineGroup (h : ReqHead) (group : BitVec 16) : Statement (.defineGroup h group) :=
  of_head rfl (fun w => w) rfl

theorem setGroup (h : ReqHead) (principal group : BitVec 16) : Statement (.setGroup h principal group) :=
  of_head rfl (fun w => w) rfl

theorem dropPrincipal (h : ReqHead) (principal : BitVec 16) : Statement (.dropPrincipal h principal) :=
  of_head rfl (fun w => w) rfl

theorem dropGroup (h : ReqHead) (group : BitVec 16) : Statement (.dropGroup h group) :=
  of_head rfl (fun w => w) rfl

theorem setLimits (h : ReqHead) (subject : WireSubject) (soft hard : BitVec 64) (band : BitVec 32) : Statement (.setLimits h subject soft hard band) :=
  of_head rfl (fun w => w) rfl

theorem grantGrace (h : ReqHead) (target : WireSubject) (minutes : BitVec 32) : Statement (.grantGrace h target minutes) :=
  of_head rfl (fun w => and_left w) rfl

theorem grantGraceAll (h : ReqHead) (minutes : BitVec 32) : Statement (.grantGraceAll h minutes) :=
  of_head rfl (fun w => w) rfl

theorem readPrincipal (h : ReqHead) (principal : BitVec 16) : Statement (.readPrincipal h principal) :=
  of_head rfl (fun w => w) rfl

theorem readGroup (h : ReqHead) (group : BitVec 16) : Statement (.readGroup h group) :=
  of_head rfl (fun w => w) rfl

theorem takeSnapshot (h : ReqHead) (volume kind keep : BitVec 8) : Statement (.takeSnapshot h volume kind keep) :=
  of_head rfl (fun w => w) rfl

theorem releaseSnapshot (h : ReqHead) (id : BitVec 16) : Statement (.releaseSnapshot h id) :=
  of_head rfl (fun w => w) rfl

theorem setKeep (h : ReqHead) (id : BitVec 16) (keep : BitVec 8) : Statement (.setKeep h id keep) :=
  of_head rfl (fun w => w) rfl

theorem setRetention (h : ReqHead) (rule valid value mask kind : BitVec 8) (keepCount : BitVec 16) (maxAge : BitVec 32) : Statement (.setRetention h rule valid value mask kind keepCount maxAge) :=
  of_head rfl (fun w => w) rfl

theorem readSnapshot (h : ReqHead) (id : BitVec 16) : Statement (.readSnapshot h id) :=
  of_head rfl (fun w => w) rfl

theorem listSnapshots (h : ReqHead) (volume : BitVec 8) (start : BitVec 16) : Statement (.listSnapshots h volume start) :=
  of_head rfl (fun w => w) rfl

theorem readRetention (h : ReqHead) : Statement (.readRetention h) :=
  of_head rfl (fun w => w) rfl

theorem startRestore (h : ReqHead) (snapshot principal : BitVec 16) (mode priority count : BitVec 8) (extents : List ExtentField) : Statement (.startRestore h snapshot principal mode priority count extents) :=
  of_head rfl (fun w => and_left w) rfl

theorem cancelRestore (h : ReqHead) (job : BitVec 8) : Statement (.cancelRestore h job) :=
  of_head rfl (fun w => w) rfl

theorem readRestore (h : ReqHead) (job : BitVec 8) : Statement (.readRestore h job) :=
  of_head rfl (fun w => w) rfl

theorem startDup (h : ReqHead) (volume : BitVec 8) : Statement (.startDup h volume) :=
  of_head rfl (fun w => w) rfl

theorem haltDup (h : ReqHead) (volume : BitVec 8) : Statement (.haltDup h volume) :=
  of_head rfl (fun w => w) rfl

theorem setBase (h : ReqHead) (volume : BitVec 8) (snapshot : BitVec 16) : Statement (.setBase h volume snapshot) :=
  of_head rfl (fun w => w) rfl

theorem readDup (h : ReqHead) (volume : BitVec 8) : Statement (.readDup h volume) :=
  of_head rfl (fun w => w) rfl

theorem setNotice (h : ReqHead) (kind : BitVec 8) (priority : BitVec 16) (express : BitVec 8) : Statement (.setNotice h kind priority express) :=
  of_head rfl (fun w => w) rfl

theorem fetchNotices (h : ReqHead) (maximum : BitVec 16) : Statement (.fetchNotices h maximum) :=
  of_head rfl (fun w => w) rfl

theorem clearNotice (h : ReqHead) (kind : BitVec 8) (subject : WireSubject) : Statement (.clearNotice h kind subject) :=
  of_head rfl (fun w => w) rfl

theorem readNotices (h : ReqHead) : Statement (.readNotices h) :=
  of_head rfl (fun w => w) rfl

theorem readLinks (h : ReqHead) : Statement (.readLinks h) :=
  of_head rfl (fun w => w) rfl

end Sys2Proof.Laws.WfHead
end

