-- ==== Sys2Proof/Laws/State.lean ====
section
/-! SUPPORT. What each writer of State leaves as it was, one lemma a field, true by definition. -/

namespace Sys2Proof.Machine

@[simp] theorem setLink_pending (i : Nat) (l : Link) (s : State) : (setLink i l s).pending = s.pending := rfl
@[simp] theorem setLink_pins (i : Nat) (l : Link) (s : State) : (setLink i l s).pins = s.pins := rfl
@[simp] theorem setLink_cwu (i : Nat) (l : Link) (s : State) : (setLink i l s).cwu = s.cwu := rfl
@[simp] theorem setLink_vt (i : Nat) (l : Link) (s : State) : (setLink i l s).vt = s.vt := rfl
@[simp] theorem setLink_ciu (i : Nat) (l : Link) (s : State) : (setLink i l s).ciu = s.ciu := rfl
@[simp] theorem setLink_book (i : Nat) (l : Link) (s : State) : (setLink i l s).book = s.book := rfl
@[simp] theorem setLink_ce (i : Nat) (l : Link) (s : State) : (setLink i l s).ce = s.ce := rfl
@[simp] theorem setLink_qm (i : Nat) (l : Link) (s : State) : (setLink i l s).qm = s.qm := rfl
@[simp] theorem setLink_et (i : Nat) (l : Link) (s : State) : (setLink i l s).et = s.et := rfl
@[simp] theorem setLink_sc (i : Nat) (l : Link) (s : State) : (setLink i l s).sc = s.sc := rfl
@[simp] theorem setLink_cca (i : Nat) (l : Link) (s : State) : (setLink i l s).cca = s.cca := rfl
@[simp] theorem setLink_rsc (i : Nat) (l : Link) (s : State) : (setLink i l s).rsc = s.rsc := rfl
@[simp] theorem setLink_dc (i : Nat) (l : Link) (s : State) : (setLink i l s).dc = s.dc := rfl
@[simp] theorem setLink_nq (i : Nat) (l : Link) (s : State) : (setLink i l s).nq = s.nq := rfl
@[simp] theorem setLink_lu_mgmtRx (i : Nat) (l : Link) (s : State) : (setLink i l s).lu.mgmtRx = s.lu.mgmtRx := rfl
@[simp] theorem setLink_lu_mgmtTx (i : Nat) (l : Link) (s : State) : (setLink i l s).lu.mgmtTx = s.lu.mgmtTx := rfl
@[simp] theorem setLink_lu_replies (i : Nat) (l : Link) (s : State) : (setLink i l s).lu.replies = s.lu.replies := rfl
@[simp] theorem setLink_lu_busy (i : Nat) (l : Link) (s : State) : (setLink i l s).lu.busy = s.lu.busy := rfl
@[simp] theorem setLink_lu_restart (i : Nat) (l : Link) (s : State) : (setLink i l s).lu.restart = s.lu.restart := rfl
@[simp] theorem setLink_lu_silenceLimit (i : Nat) (l : Link) (s : State) : (setLink i l s).lu.silenceLimit = s.lu.silenceLimit := rfl

@[simp] theorem setVolume_pending (i : Nat) (r : Volume) (s : State) : (setVolume i r s).pending = s.pending := rfl
@[simp] theorem setVolume_pins (i : Nat) (r : Volume) (s : State) : (setVolume i r s).pins = s.pins := rfl
@[simp] theorem setVolume_lu (i : Nat) (r : Volume) (s : State) : (setVolume i r s).lu = s.lu := rfl
@[simp] theorem setVolume_cwu (i : Nat) (r : Volume) (s : State) : (setVolume i r s).cwu = s.cwu := rfl
@[simp] theorem setVolume_ciu (i : Nat) (r : Volume) (s : State) : (setVolume i r s).ciu = s.ciu := rfl
@[simp] theorem setVolume_book (i : Nat) (r : Volume) (s : State) : (setVolume i r s).book = s.book := rfl
@[simp] theorem setVolume_ce (i : Nat) (r : Volume) (s : State) : (setVolume i r s).ce = s.ce := rfl
@[simp] theorem setVolume_qm (i : Nat) (r : Volume) (s : State) : (setVolume i r s).qm = s.qm := rfl
@[simp] theorem setVolume_et (i : Nat) (r : Volume) (s : State) : (setVolume i r s).et = s.et := rfl
@[simp] theorem setVolume_sc (i : Nat) (r : Volume) (s : State) : (setVolume i r s).sc = s.sc := rfl
@[simp] theorem setVolume_cca (i : Nat) (r : Volume) (s : State) : (setVolume i r s).cca = s.cca := rfl
@[simp] theorem setVolume_rsc (i : Nat) (r : Volume) (s : State) : (setVolume i r s).rsc = s.rsc := rfl
@[simp] theorem setVolume_dc (i : Nat) (r : Volume) (s : State) : (setVolume i r s).dc = s.dc := rfl
@[simp] theorem setVolume_nq (i : Nat) (r : Volume) (s : State) : (setVolume i r s).nq = s.nq := rfl

@[simp] theorem setIntake_pending (i : Nat) (r : Intake) (s : State) : (setIntake i r s).pending = s.pending := rfl
@[simp] theorem setIntake_pins (i : Nat) (r : Intake) (s : State) : (setIntake i r s).pins = s.pins := rfl
@[simp] theorem setIntake_lu (i : Nat) (r : Intake) (s : State) : (setIntake i r s).lu = s.lu := rfl
@[simp] theorem setIntake_cwu (i : Nat) (r : Intake) (s : State) : (setIntake i r s).cwu = s.cwu := rfl
@[simp] theorem setIntake_vt (i : Nat) (r : Intake) (s : State) : (setIntake i r s).vt = s.vt := rfl
@[simp] theorem setIntake_book (i : Nat) (r : Intake) (s : State) : (setIntake i r s).book = s.book := rfl
@[simp] theorem setIntake_ce (i : Nat) (r : Intake) (s : State) : (setIntake i r s).ce = s.ce := rfl
@[simp] theorem setIntake_qm (i : Nat) (r : Intake) (s : State) : (setIntake i r s).qm = s.qm := rfl
@[simp] theorem setIntake_et (i : Nat) (r : Intake) (s : State) : (setIntake i r s).et = s.et := rfl
@[simp] theorem setIntake_sc (i : Nat) (r : Intake) (s : State) : (setIntake i r s).sc = s.sc := rfl
@[simp] theorem setIntake_cca (i : Nat) (r : Intake) (s : State) : (setIntake i r s).cca = s.cca := rfl
@[simp] theorem setIntake_rsc (i : Nat) (r : Intake) (s : State) : (setIntake i r s).rsc = s.rsc := rfl
@[simp] theorem setIntake_dc (i : Nat) (r : Intake) (s : State) : (setIntake i r s).dc = s.dc := rfl
@[simp] theorem setIntake_nq (i : Nat) (r : Intake) (s : State) : (setIntake i r s).nq = s.nq := rfl

@[simp] theorem setPrincipal_pending (i : Nat) (r : Principal) (s : State) : (setPrincipal i r s).pending = s.pending := rfl
@[simp] theorem setPrincipal_pins (i : Nat) (r : Principal) (s : State) : (setPrincipal i r s).pins = s.pins := rfl
@[simp] theorem setPrincipal_lu (i : Nat) (r : Principal) (s : State) : (setPrincipal i r s).lu = s.lu := rfl
@[simp] theorem setPrincipal_cwu (i : Nat) (r : Principal) (s : State) : (setPrincipal i r s).cwu = s.cwu := rfl
@[simp] theorem setPrincipal_vt (i : Nat) (r : Principal) (s : State) : (setPrincipal i r s).vt = s.vt := rfl
@[simp] theorem setPrincipal_ciu (i : Nat) (r : Principal) (s : State) : (setPrincipal i r s).ciu = s.ciu := rfl
@[simp] theorem setPrincipal_ce (i : Nat) (r : Principal) (s : State) : (setPrincipal i r s).ce = s.ce := rfl
@[simp] theorem setPrincipal_qm (i : Nat) (r : Principal) (s : State) : (setPrincipal i r s).qm = s.qm := rfl
@[simp] theorem setPrincipal_et (i : Nat) (r : Principal) (s : State) : (setPrincipal i r s).et = s.et := rfl
@[simp] theorem setPrincipal_sc (i : Nat) (r : Principal) (s : State) : (setPrincipal i r s).sc = s.sc := rfl
@[simp] theorem setPrincipal_cca (i : Nat) (r : Principal) (s : State) : (setPrincipal i r s).cca = s.cca := rfl
@[simp] theorem setPrincipal_rsc (i : Nat) (r : Principal) (s : State) : (setPrincipal i r s).rsc = s.rsc := rfl
@[simp] theorem setPrincipal_dc (i : Nat) (r : Principal) (s : State) : (setPrincipal i r s).dc = s.dc := rfl
@[simp] theorem setPrincipal_nq (i : Nat) (r : Principal) (s : State) : (setPrincipal i r s).nq = s.nq := rfl
@[simp] theorem setPrincipal_book_groups (i : Nat) (r : Principal) (s : State) : (setPrincipal i r s).book.groups = s.book.groups := rfl
@[simp] theorem setPrincipal_book_reassigned (i : Nat) (r : Principal) (s : State) : (setPrincipal i r s).book.reassigned = s.book.reassigned := rfl

@[simp] theorem setGroupRec_pending (i : Nat) (r : Group) (s : State) : (setGroupRec i r s).pending = s.pending := rfl
@[simp] theorem setGroupRec_pins (i : Nat) (r : Group) (s : State) : (setGroupRec i r s).pins = s.pins := rfl
@[simp] theorem setGroupRec_lu (i : Nat) (r : Group) (s : State) : (setGroupRec i r s).lu = s.lu := rfl
@[simp] theorem setGroupRec_cwu (i : Nat) (r : Group) (s : State) : (setGroupRec i r s).cwu = s.cwu := rfl
@[simp] theorem setGroupRec_vt (i : Nat) (r : Group) (s : State) : (setGroupRec i r s).vt = s.vt := rfl
@[simp] theorem setGroupRec_ciu (i : Nat) (r : Group) (s : State) : (setGroupRec i r s).ciu = s.ciu := rfl
@[simp] theorem setGroupRec_ce (i : Nat) (r : Group) (s : State) : (setGroupRec i r s).ce = s.ce := rfl
@[simp] theorem setGroupRec_qm (i : Nat) (r : Group) (s : State) : (setGroupRec i r s).qm = s.qm := rfl
@[simp] theorem setGroupRec_et (i : Nat) (r : Group) (s : State) : (setGroupRec i r s).et = s.et := rfl
@[simp] theorem setGroupRec_sc (i : Nat) (r : Group) (s : State) : (setGroupRec i r s).sc = s.sc := rfl
@[simp] theorem setGroupRec_cca (i : Nat) (r : Group) (s : State) : (setGroupRec i r s).cca = s.cca := rfl
@[simp] theorem setGroupRec_rsc (i : Nat) (r : Group) (s : State) : (setGroupRec i r s).rsc = s.rsc := rfl
@[simp] theorem setGroupRec_dc (i : Nat) (r : Group) (s : State) : (setGroupRec i r s).dc = s.dc := rfl
@[simp] theorem setGroupRec_nq (i : Nat) (r : Group) (s : State) : (setGroupRec i r s).nq = s.nq := rfl
@[simp] theorem setGroupRec_book_principals (i : Nat) (r : Group) (s : State) : (setGroupRec i r s).book.principals = s.book.principals := rfl
@[simp] theorem setGroupRec_book_reassigned (i : Nat) (r : Group) (s : State) : (setGroupRec i r s).book.reassigned = s.book.reassigned := rfl

@[simp] theorem setSnap_pending (i : Nat) (r : Snap) (s : State) : (setSnap i r s).pending = s.pending := rfl
@[simp] theorem setSnap_pins (i : Nat) (r : Snap) (s : State) : (setSnap i r s).pins = s.pins := rfl
@[simp] theorem setSnap_lu (i : Nat) (r : Snap) (s : State) : (setSnap i r s).lu = s.lu := rfl
@[simp] theorem setSnap_cwu (i : Nat) (r : Snap) (s : State) : (setSnap i r s).cwu = s.cwu := rfl
@[simp] theorem setSnap_vt (i : Nat) (r : Snap) (s : State) : (setSnap i r s).vt = s.vt := rfl
@[simp] theorem setSnap_ciu (i : Nat) (r : Snap) (s : State) : (setSnap i r s).ciu = s.ciu := rfl
@[simp] theorem setSnap_book (i : Nat) (r : Snap) (s : State) : (setSnap i r s).book = s.book := rfl
@[simp] theorem setSnap_ce (i : Nat) (r : Snap) (s : State) : (setSnap i r s).ce = s.ce := rfl
@[simp] theorem setSnap_qm (i : Nat) (r : Snap) (s : State) : (setSnap i r s).qm = s.qm := rfl
@[simp] theorem setSnap_et (i : Nat) (r : Snap) (s : State) : (setSnap i r s).et = s.et := rfl
@[simp] theorem setSnap_cca (i : Nat) (r : Snap) (s : State) : (setSnap i r s).cca = s.cca := rfl
@[simp] theorem setSnap_rsc (i : Nat) (r : Snap) (s : State) : (setSnap i r s).rsc = s.rsc := rfl
@[simp] theorem setSnap_dc (i : Nat) (r : Snap) (s : State) : (setSnap i r s).dc = s.dc := rfl
@[simp] theorem setSnap_nq (i : Nat) (r : Snap) (s : State) : (setSnap i r s).nq = s.nq := rfl
@[simp] theorem setSnap_sc_nextId (i : Nat) (r : Snap) (s : State) : (setSnap i r s).sc.nextId = s.sc.nextId := rfl
@[simp] theorem setSnap_sc_rules (i : Nat) (r : Snap) (s : State) : (setSnap i r s).sc.rules = s.sc.rules := rfl
@[simp] theorem setSnap_sc_reserveOver (i : Nat) (r : Snap) (s : State) : (setSnap i r s).sc.reserveOver = s.sc.reserveOver := rfl
@[simp] theorem setSnap_sc_opensDue (i : Nat) (r : Snap) (s : State) : (setSnap i r s).sc.opensDue = s.sc.opensDue := rfl
@[simp] theorem setSnap_sc_toDc (i : Nat) (r : Snap) (s : State) : (setSnap i r s).sc.toDc = s.sc.toDc := rfl

@[simp] theorem delSnap_pending (i : Nat) (s : State) : (delSnap i s).pending = s.pending := rfl
@[simp] theorem delSnap_pins (i : Nat) (s : State) : (delSnap i s).pins = s.pins := rfl
@[simp] theorem delSnap_lu (i : Nat) (s : State) : (delSnap i s).lu = s.lu := rfl
@[simp] theorem delSnap_cwu (i : Nat) (s : State) : (delSnap i s).cwu = s.cwu := rfl
@[simp] theorem delSnap_vt (i : Nat) (s : State) : (delSnap i s).vt = s.vt := rfl
@[simp] theorem delSnap_ciu (i : Nat) (s : State) : (delSnap i s).ciu = s.ciu := rfl
@[simp] theorem delSnap_book (i : Nat) (s : State) : (delSnap i s).book = s.book := rfl
@[simp] theorem delSnap_ce (i : Nat) (s : State) : (delSnap i s).ce = s.ce := rfl
@[simp] theorem delSnap_qm (i : Nat) (s : State) : (delSnap i s).qm = s.qm := rfl
@[simp] theorem delSnap_et (i : Nat) (s : State) : (delSnap i s).et = s.et := rfl
@[simp] theorem delSnap_cca (i : Nat) (s : State) : (delSnap i s).cca = s.cca := rfl
@[simp] theorem delSnap_rsc (i : Nat) (s : State) : (delSnap i s).rsc = s.rsc := rfl
@[simp] theorem delSnap_dc (i : Nat) (s : State) : (delSnap i s).dc = s.dc := rfl
@[simp] theorem delSnap_nq (i : Nat) (s : State) : (delSnap i s).nq = s.nq := rfl
@[simp] theorem delSnap_sc_nextId (i : Nat) (s : State) : (delSnap i s).sc.nextId = s.sc.nextId := rfl
@[simp] theorem delSnap_sc_rules (i : Nat) (s : State) : (delSnap i s).sc.rules = s.sc.rules := rfl
@[simp] theorem delSnap_sc_reserveOver (i : Nat) (s : State) : (delSnap i s).sc.reserveOver = s.sc.reserveOver := rfl
@[simp] theorem delSnap_sc_opensDue (i : Nat) (s : State) : (delSnap i s).sc.opensDue = s.sc.opensDue := rfl
@[simp] theorem delSnap_sc_toDc (i : Nat) (s : State) : (delSnap i s).sc.toDc = s.sc.toDc := rfl

@[simp] theorem setCredit_pending (i : Nat) (r : Credit) (s : State) : (setCredit i r s).pending = s.pending := rfl
@[simp] theorem setCredit_pins (i : Nat) (r : Credit) (s : State) : (setCredit i r s).pins = s.pins := rfl
@[simp] theorem setCredit_lu (i : Nat) (r : Credit) (s : State) : (setCredit i r s).lu = s.lu := rfl
@[simp] theorem setCredit_cwu (i : Nat) (r : Credit) (s : State) : (setCredit i r s).cwu = s.cwu := rfl
@[simp] theorem setCredit_vt (i : Nat) (r : Credit) (s : State) : (setCredit i r s).vt = s.vt := rfl
@[simp] theorem setCredit_ciu (i : Nat) (r : Credit) (s : State) : (setCredit i r s).ciu = s.ciu := rfl
@[simp] theorem setCredit_book (i : Nat) (r : Credit) (s : State) : (setCredit i r s).book = s.book := rfl
@[simp] theorem setCredit_ce (i : Nat) (r : Credit) (s : State) : (setCredit i r s).ce = s.ce := rfl
@[simp] theorem setCredit_qm (i : Nat) (r : Credit) (s : State) : (setCredit i r s).qm = s.qm := rfl
@[simp] theorem setCredit_et (i : Nat) (r : Credit) (s : State) : (setCredit i r s).et = s.et := rfl
@[simp] theorem setCredit_sc (i : Nat) (r : Credit) (s : State) : (setCredit i r s).sc = s.sc := rfl
@[simp] theorem setCredit_rsc (i : Nat) (r : Credit) (s : State) : (setCredit i r s).rsc = s.rsc := rfl
@[simp] theorem setCredit_dc (i : Nat) (r : Credit) (s : State) : (setCredit i r s).dc = s.dc := rfl
@[simp] theorem setCredit_nq (i : Nat) (r : Credit) (s : State) : (setCredit i r s).nq = s.nq := rfl
@[simp] theorem setCredit_cca_openGroups (i : Nat) (r : Credit) (s : State) : (setCredit i r s).cca.openGroups = s.cca.openGroups := rfl
@[simp] theorem setCredit_cca_acceptance (i : Nat) (r : Credit) (s : State) : (setCredit i r s).cca.acceptance = s.cca.acceptance := rfl

@[simp] theorem setRestoreJob_pending (i : Nat) (r : RestoreJob) (s : State) : (setRestoreJob i r s).pending = s.pending := rfl
@[simp] theorem setRestoreJob_pins (i : Nat) (r : RestoreJob) (s : State) : (setRestoreJob i r s).pins = s.pins := rfl
@[simp] theorem setRestoreJob_lu (i : Nat) (r : RestoreJob) (s : State) : (setRestoreJob i r s).lu = s.lu := rfl
@[simp] theorem setRestoreJob_cwu (i : Nat) (r : RestoreJob) (s : State) : (setRestoreJob i r s).cwu = s.cwu := rfl
@[simp] theorem setRestoreJob_vt (i : Nat) (r : RestoreJob) (s : State) : (setRestoreJob i r s).vt = s.vt := rfl
@[simp] theorem setRestoreJob_ciu (i : Nat) (r : RestoreJob) (s : State) : (setRestoreJob i r s).ciu = s.ciu := rfl
@[simp] theorem setRestoreJob_book (i : Nat) (r : RestoreJob) (s : State) : (setRestoreJob i r s).book = s.book := rfl
@[simp] theorem setRestoreJob_ce (i : Nat) (r : RestoreJob) (s : State) : (setRestoreJob i r s).ce = s.ce := rfl
@[simp] theorem setRestoreJob_qm (i : Nat) (r : RestoreJob) (s : State) : (setRestoreJob i r s).qm = s.qm := rfl
@[simp] theorem setRestoreJob_et (i : Nat) (r : RestoreJob) (s : State) : (setRestoreJob i r s).et = s.et := rfl
@[simp] theorem setRestoreJob_sc (i : Nat) (r : RestoreJob) (s : State) : (setRestoreJob i r s).sc = s.sc := rfl
@[simp] theorem setRestoreJob_cca (i : Nat) (r : RestoreJob) (s : State) : (setRestoreJob i r s).cca = s.cca := rfl
@[simp] theorem setRestoreJob_dc (i : Nat) (r : RestoreJob) (s : State) : (setRestoreJob i r s).dc = s.dc := rfl
@[simp] theorem setRestoreJob_nq (i : Nat) (r : RestoreJob) (s : State) : (setRestoreJob i r s).nq = s.nq := rfl
@[simp] theorem setRestoreJob_rsc_lastEnd (i : Nat) (r : RestoreJob) (s : State) : (setRestoreJob i r s).rsc.lastEnd = s.rsc.lastEnd := rfl

@[simp] theorem setDupJob_pending (i : Nat) (r : DupJob) (s : State) : (setDupJob i r s).pending = s.pending := rfl
@[simp] theorem setDupJob_pins (i : Nat) (r : DupJob) (s : State) : (setDupJob i r s).pins = s.pins := rfl
@[simp] theorem setDupJob_lu (i : Nat) (r : DupJob) (s : State) : (setDupJob i r s).lu = s.lu := rfl
@[simp] theorem setDupJob_cwu (i : Nat) (r : DupJob) (s : State) : (setDupJob i r s).cwu = s.cwu := rfl
@[simp] theorem setDupJob_vt (i : Nat) (r : DupJob) (s : State) : (setDupJob i r s).vt = s.vt := rfl
@[simp] theorem setDupJob_ciu (i : Nat) (r : DupJob) (s : State) : (setDupJob i r s).ciu = s.ciu := rfl
@[simp] theorem setDupJob_book (i : Nat) (r : DupJob) (s : State) : (setDupJob i r s).book = s.book := rfl
@[simp] theorem setDupJob_ce (i : Nat) (r : DupJob) (s : State) : (setDupJob i r s).ce = s.ce := rfl
@[simp] theorem setDupJob_qm (i : Nat) (r : DupJob) (s : State) : (setDupJob i r s).qm = s.qm := rfl
@[simp] theorem setDupJob_et (i : Nat) (r : DupJob) (s : State) : (setDupJob i r s).et = s.et := rfl
@[simp] theorem setDupJob_sc (i : Nat) (r : DupJob) (s : State) : (setDupJob i r s).sc = s.sc := rfl
@[simp] theorem setDupJob_cca (i : Nat) (r : DupJob) (s : State) : (setDupJob i r s).cca = s.cca := rfl
@[simp] theorem setDupJob_rsc (i : Nat) (r : DupJob) (s : State) : (setDupJob i r s).rsc = s.rsc := rfl
@[simp] theorem setDupJob_nq (i : Nat) (r : DupJob) (s : State) : (setDupJob i r s).nq = s.nq := rfl
@[simp] theorem setDupJob_dc_lastEnd (i : Nat) (r : DupJob) (s : State) : (setDupJob i r s).dc.lastEnd = s.dc.lastEnd := rfl
@[simp] theorem setDupJob_dc_remaining (i : Nat) (r : DupJob) (s : State) : (setDupJob i r s).dc.remaining = s.dc.remaining := rfl
@[simp] theorem setDupJob_dc_full (i : Nat) (r : DupJob) (s : State) : (setDupJob i r s).dc.full = s.dc.full := rfl
@[simp] theorem setDupJob_dc_turn (i : Nat) (r : DupJob) (s : State) : (setDupJob i r s).dc.turn = s.dc.turn := rfl
@[simp] theorem setDupJob_dc_openGroups (i : Nat) (r : DupJob) (s : State) : (setDupJob i r s).dc.openGroups = s.dc.openGroups := rfl

@[simp] theorem mgmtHunt_pending(s : State) : (mgmtHunt s).pending = s.pending := rfl
@[simp] theorem mgmtHunt_pins(s : State) : (mgmtHunt s).pins = s.pins := rfl
@[simp] theorem mgmtHunt_cwu(s : State) : (mgmtHunt s).cwu = s.cwu := rfl
@[simp] theorem mgmtHunt_vt(s : State) : (mgmtHunt s).vt = s.vt := rfl
@[simp] theorem mgmtHunt_ciu(s : State) : (mgmtHunt s).ciu = s.ciu := rfl
@[simp] theorem mgmtHunt_book(s : State) : (mgmtHunt s).book = s.book := rfl
@[simp] theorem mgmtHunt_ce(s : State) : (mgmtHunt s).ce = s.ce := rfl
@[simp] theorem mgmtHunt_qm(s : State) : (mgmtHunt s).qm = s.qm := rfl
@[simp] theorem mgmtHunt_et(s : State) : (mgmtHunt s).et = s.et := rfl
@[simp] theorem mgmtHunt_sc(s : State) : (mgmtHunt s).sc = s.sc := rfl
@[simp] theorem mgmtHunt_cca(s : State) : (mgmtHunt s).cca = s.cca := rfl
@[simp] theorem mgmtHunt_rsc(s : State) : (mgmtHunt s).rsc = s.rsc := rfl
@[simp] theorem mgmtHunt_dc(s : State) : (mgmtHunt s).dc = s.dc := rfl
@[simp] theorem mgmtHunt_nq(s : State) : (mgmtHunt s).nq = s.nq := rfl
@[simp] theorem mgmtHunt_lu_mgmtTx(s : State) : (mgmtHunt s).lu.mgmtTx = s.lu.mgmtTx := rfl
@[simp] theorem mgmtHunt_lu_replies(s : State) : (mgmtHunt s).lu.replies = s.lu.replies := rfl
@[simp] theorem mgmtHunt_lu_busy(s : State) : (mgmtHunt s).lu.busy = s.lu.busy := rfl
@[simp] theorem mgmtHunt_lu_restart(s : State) : (mgmtHunt s).lu.restart = s.lu.restart := rfl
@[simp] theorem mgmtHunt_lu_silenceLimit(s : State) : (mgmtHunt s).lu.silenceLimit = s.lu.silenceLimit := rfl
@[simp] theorem mgmtHunt_lu_links(s : State) : (mgmtHunt s).lu.links = s.lu.links := rfl

@[simp] theorem setCarrier_pending (i : Nat) (b : Bool) (s : State) : (setCarrier i b s).pending = s.pending := rfl
@[simp] theorem setCarrier_lu (i : Nat) (b : Bool) (s : State) : (setCarrier i b s).lu = s.lu := rfl
@[simp] theorem setCarrier_cwu (i : Nat) (b : Bool) (s : State) : (setCarrier i b s).cwu = s.cwu := rfl
@[simp] theorem setCarrier_vt (i : Nat) (b : Bool) (s : State) : (setCarrier i b s).vt = s.vt := rfl
@[simp] theorem setCarrier_ciu (i : Nat) (b : Bool) (s : State) : (setCarrier i b s).ciu = s.ciu := rfl
@[simp] theorem setCarrier_book (i : Nat) (b : Bool) (s : State) : (setCarrier i b s).book = s.book := rfl
@[simp] theorem setCarrier_ce (i : Nat) (b : Bool) (s : State) : (setCarrier i b s).ce = s.ce := rfl
@[simp] theorem setCarrier_qm (i : Nat) (b : Bool) (s : State) : (setCarrier i b s).qm = s.qm := rfl
@[simp] theorem setCarrier_et (i : Nat) (b : Bool) (s : State) : (setCarrier i b s).et = s.et := rfl
@[simp] theorem setCarrier_sc (i : Nat) (b : Bool) (s : State) : (setCarrier i b s).sc = s.sc := rfl
@[simp] theorem setCarrier_cca (i : Nat) (b : Bool) (s : State) : (setCarrier i b s).cca = s.cca := rfl
@[simp] theorem setCarrier_rsc (i : Nat) (b : Bool) (s : State) : (setCarrier i b s).rsc = s.rsc := rfl
@[simp] theorem setCarrier_dc (i : Nat) (b : Bool) (s : State) : (setCarrier i b s).dc = s.dc := rfl
@[simp] theorem setCarrier_nq (i : Nat) (b : Bool) (s : State) : (setCarrier i b s).nq = s.nq := rfl
@[simp] theorem setCarrier_pins_resetHeld (i : Nat) (b : Bool) (s : State) : (setCarrier i b s).pins.resetHeld = s.pins.resetHeld := rfl
@[simp] theorem setCarrier_pins_mgmtCarrier (i : Nat) (b : Bool) (s : State) : (setCarrier i b s).pins.mgmtCarrier = s.pins.mgmtCarrier := rfl

@[simp] theorem setRule_pending (i : Nat) (r : Rule) (s : State) : (setRule i r s).pending = s.pending := rfl
@[simp] theorem setRule_pins (i : Nat) (r : Rule) (s : State) : (setRule i r s).pins = s.pins := rfl
@[simp] theorem setRule_lu (i : Nat) (r : Rule) (s : State) : (setRule i r s).lu = s.lu := rfl
@[simp] theorem setRule_cwu (i : Nat) (r : Rule) (s : State) : (setRule i r s).cwu = s.cwu := rfl
@[simp] theorem setRule_vt (i : Nat) (r : Rule) (s : State) : (setRule i r s).vt = s.vt := rfl
@[simp] theorem setRule_ciu (i : Nat) (r : Rule) (s : State) : (setRule i r s).ciu = s.ciu := rfl
@[simp] theorem setRule_book (i : Nat) (r : Rule) (s : State) : (setRule i r s).book = s.book := rfl
@[simp] theorem setRule_ce (i : Nat) (r : Rule) (s : State) : (setRule i r s).ce = s.ce := rfl
@[simp] theorem setRule_qm (i : Nat) (r : Rule) (s : State) : (setRule i r s).qm = s.qm := rfl
@[simp] theorem setRule_et (i : Nat) (r : Rule) (s : State) : (setRule i r s).et = s.et := rfl
@[simp] theorem setRule_cca (i : Nat) (r : Rule) (s : State) : (setRule i r s).cca = s.cca := rfl
@[simp] theorem setRule_rsc (i : Nat) (r : Rule) (s : State) : (setRule i r s).rsc = s.rsc := rfl
@[simp] theorem setRule_dc (i : Nat) (r : Rule) (s : State) : (setRule i r s).dc = s.dc := rfl
@[simp] theorem setRule_nq (i : Nat) (r : Rule) (s : State) : (setRule i r s).nq = s.nq := rfl
@[simp] theorem setRule_sc_records (i : Nat) (r : Rule) (s : State) : (setRule i r s).sc.records = s.sc.records := rfl
@[simp] theorem setRule_sc_nextId (i : Nat) (r : Rule) (s : State) : (setRule i r s).sc.nextId = s.sc.nextId := rfl
@[simp] theorem setRule_sc_reserveOver (i : Nat) (r : Rule) (s : State) : (setRule i r s).sc.reserveOver = s.sc.reserveOver := rfl
@[simp] theorem setRule_sc_opensDue (i : Nat) (r : Rule) (s : State) : (setRule i r s).sc.opensDue = s.sc.opensDue := rfl
@[simp] theorem setRule_sc_toDc (i : Nat) (r : Rule) (s : State) : (setRule i r s).sc.toDc = s.sc.toDc := rfl

@[simp] theorem State.withPending_pins (s : State) (q : List Instr) : (s.withPending q).pins = s.pins := rfl
@[simp] theorem State.withPending_lu (s : State) (q : List Instr) : (s.withPending q).lu = s.lu := rfl
@[simp] theorem State.withPending_cwu (s : State) (q : List Instr) : (s.withPending q).cwu = s.cwu := rfl
@[simp] theorem State.withPending_vt (s : State) (q : List Instr) : (s.withPending q).vt = s.vt := rfl
@[simp] theorem State.withPending_ciu (s : State) (q : List Instr) : (s.withPending q).ciu = s.ciu := rfl
@[simp] theorem State.withPending_book (s : State) (q : List Instr) : (s.withPending q).book = s.book := rfl
@[simp] theorem State.withPending_ce (s : State) (q : List Instr) : (s.withPending q).ce = s.ce := rfl
@[simp] theorem State.withPending_qm (s : State) (q : List Instr) : (s.withPending q).qm = s.qm := rfl
@[simp] theorem State.withPending_et (s : State) (q : List Instr) : (s.withPending q).et = s.et := rfl
@[simp] theorem State.withPending_sc (s : State) (q : List Instr) : (s.withPending q).sc = s.sc := rfl
@[simp] theorem State.withPending_cca (s : State) (q : List Instr) : (s.withPending q).cca = s.cca := rfl
@[simp] theorem State.withPending_rsc (s : State) (q : List Instr) : (s.withPending q).rsc = s.rsc := rfl
@[simp] theorem State.withPending_dc (s : State) (q : List Instr) : (s.withPending q).dc = s.dc := rfl
@[simp] theorem State.withPending_nq (s : State) (q : List Instr) : (s.withPending q).nq = s.nq := rfl
@[simp] theorem State.withPending_pending (s : State) (q : List Instr) : (s.withPending q).pending = q := rfl

end Sys2Proof.Machine
end

