-- ==== Sys2Proof/Laws/Requests.lean ====
section
/-! SUPPORT. Requests taken and answered: what taking a request gives, what answering it leaves as it was, and the readers of
State over the two. -/

namespace Sys2Proof.Machine

/-! ### Starting the next frame -/

@[simp] theorem pump_pending (s : State) : (pump s).pending = s.pending := by
  unfold pump startNext discardWaiting; split <;> try rfl
  split <;> try rfl
  split <;> try rfl
  split <;> try rfl
  split <;> rfl
@[simp] theorem pump_pins (s : State) : (pump s).pins = s.pins := by
  unfold pump startNext discardWaiting; split <;> try rfl
  split <;> try rfl
  split <;> try rfl
  split <;> try rfl
  split <;> rfl
@[simp] theorem pump_cwu (s : State) : (pump s).cwu = s.cwu := by
  unfold pump startNext discardWaiting; split <;> try rfl
  split <;> try rfl
  split <;> try rfl
  split <;> try rfl
  split <;> rfl
@[simp] theorem pump_vt (s : State) : (pump s).vt = s.vt := by
  unfold pump startNext discardWaiting; split <;> try rfl
  split <;> try rfl
  split <;> try rfl
  split <;> try rfl
  split <;> rfl
@[simp] theorem pump_ciu (s : State) : (pump s).ciu = s.ciu := by
  unfold pump startNext discardWaiting; split <;> try rfl
  split <;> try rfl
  split <;> try rfl
  split <;> try rfl
  split <;> rfl
@[simp] theorem pump_book (s : State) : (pump s).book = s.book := by
  unfold pump startNext discardWaiting; split <;> try rfl
  split <;> try rfl
  split <;> try rfl
  split <;> try rfl
  split <;> rfl
@[simp] theorem pump_ce (s : State) : (pump s).ce = s.ce := by
  unfold pump startNext discardWaiting; split <;> try rfl
  split <;> try rfl
  split <;> try rfl
  split <;> try rfl
  split <;> rfl
@[simp] theorem pump_qm (s : State) : (pump s).qm = s.qm := by
  unfold pump startNext discardWaiting; split <;> try rfl
  split <;> try rfl
  split <;> try rfl
  split <;> try rfl
  split <;> rfl
@[simp] theorem pump_et (s : State) : (pump s).et = s.et := by
  unfold pump startNext discardWaiting; split <;> try rfl
  split <;> try rfl
  split <;> try rfl
  split <;> try rfl
  split <;> rfl
@[simp] theorem pump_sc (s : State) : (pump s).sc = s.sc := by
  unfold pump startNext discardWaiting; split <;> try rfl
  split <;> try rfl
  split <;> try rfl
  split <;> try rfl
  split <;> rfl
@[simp] theorem pump_cca (s : State) : (pump s).cca = s.cca := by
  unfold pump startNext discardWaiting; split <;> try rfl
  split <;> try rfl
  split <;> try rfl
  split <;> try rfl
  split <;> rfl
@[simp] theorem pump_rsc (s : State) : (pump s).rsc = s.rsc := by
  unfold pump startNext discardWaiting; split <;> try rfl
  split <;> try rfl
  split <;> try rfl
  split <;> try rfl
  split <;> rfl
@[simp] theorem pump_dc (s : State) : (pump s).dc = s.dc := by
  unfold pump startNext discardWaiting; split <;> try rfl
  split <;> try rfl
  split <;> try rfl
  split <;> try rfl
  split <;> rfl
@[simp] theorem pump_nq_queue (s : State) : (pump s).nq.queue = s.nq.queue := by
  unfold pump startNext discardWaiting; split <;> try rfl
  split <;> try rfl
  split <;> try rfl
  split <;> try rfl
  split <;> rfl
@[simp] theorem pump_nq_priorities (s : State) : (pump s).nq.priorities = s.nq.priorities := by
  unfold pump startNext discardWaiting; split <;> try rfl
  split <;> try rfl
  split <;> try rfl
  split <;> try rfl
  split <;> rfl
@[simp] theorem pump_nq_express (s : State) : (pump s).nq.express = s.nq.express := by
  unfold pump startNext discardWaiting; split <;> try rfl
  split <;> try rfl
  split <;> try rfl
  split <;> try rfl
  split <;> rfl
@[simp] theorem pump_nq_seq (s : State) : (pump s).nq.seq = s.nq.seq := by
  unfold pump startNext discardWaiting; split <;> try rfl
  split <;> try rfl
  split <;> try rfl
  split <;> try rfl
  split <;> rfl
@[simp] theorem pump_nq_age (s : State) : (pump s).nq.age = s.nq.age := by
  unfold pump startNext discardWaiting; split <;> try rfl
  split <;> try rfl
  split <;> try rfl
  split <;> try rfl
  split <;> rfl
@[simp] theorem pump_nq_overflow (s : State) : (pump s).nq.overflow = s.nq.overflow := by
  unfold pump startNext discardWaiting; split <;> try rfl
  split <;> try rfl
  split <;> try rfl
  split <;> try rfl
  split <;> rfl
@[simp] theorem pump_nq_lost (s : State) : (pump s).nq.lost = s.nq.lost := by
  unfold pump startNext discardWaiting; split <;> try rfl
  split <;> try rfl
  split <;> try rfl
  split <;> try rfl
  split <;> rfl
@[simp] theorem pump_lu_mgmtRx (s : State) : (pump s).lu.mgmtRx = s.lu.mgmtRx := by
  unfold pump startNext discardWaiting; split <;> try rfl
  split <;> try rfl
  split <;> try rfl
  split <;> try rfl
  split <;> rfl
@[simp] theorem pump_lu_silenceLimit (s : State) : (pump s).lu.silenceLimit = s.lu.silenceLimit := by
  unfold pump startNext discardWaiting; split <;> try rfl
  split <;> try rfl
  split <;> try rfl
  split <;> try rfl
  split <;> rfl
@[simp] theorem pump_lu_links (s : State) : (pump s).lu.links = s.lu.links := by
  unfold pump startNext discardWaiting; split <;> try rfl
  split <;> try rfl
  split <;> try rfl
  split <;> try rfl
  split <;> rfl
theorem pump_lu_replies (s : State) (h : s.pins.mgmtCarrier = true) : (pump s).lu.replies = s.lu.replies := by
  unfold pump startNext; split <;> try rfl
  split <;> try rfl
  split <;> try rfl
  split <;> rfl

theorem pump_lu_restart (s : State) (h : s.pins.mgmtCarrier = true) : (pump s).lu.restart = s.lu.restart := by
  unfold pump startNext; split <;> try rfl
  split <;> try rfl
  split <;> try rfl
  split <;> rfl

/-! ### Answering -/

@[simp] theorem answer_pending (t : BitVec 16) (r : Reply) (s : State) : (answer t r s).pending = s.pending := pump_pending _
@[simp] theorem answer_pins (t : BitVec 16) (r : Reply) (s : State) : (answer t r s).pins = s.pins := pump_pins _
@[simp] theorem answer_cwu (t : BitVec 16) (r : Reply) (s : State) : (answer t r s).cwu = s.cwu := pump_cwu _
@[simp] theorem answer_vt (t : BitVec 16) (r : Reply) (s : State) : (answer t r s).vt = s.vt := pump_vt _
@[simp] theorem answer_ciu (t : BitVec 16) (r : Reply) (s : State) : (answer t r s).ciu = s.ciu := pump_ciu _
@[simp] theorem answer_book (t : BitVec 16) (r : Reply) (s : State) : (answer t r s).book = s.book := pump_book _
@[simp] theorem answer_ce (t : BitVec 16) (r : Reply) (s : State) : (answer t r s).ce = s.ce := pump_ce _
@[simp] theorem answer_qm (t : BitVec 16) (r : Reply) (s : State) : (answer t r s).qm = s.qm := pump_qm _
@[simp] theorem answer_et (t : BitVec 16) (r : Reply) (s : State) : (answer t r s).et = s.et := pump_et _
@[simp] theorem answer_sc (t : BitVec 16) (r : Reply) (s : State) : (answer t r s).sc = s.sc := pump_sc _
@[simp] theorem answer_cca (t : BitVec 16) (r : Reply) (s : State) : (answer t r s).cca = s.cca := pump_cca _
@[simp] theorem answer_rsc (t : BitVec 16) (r : Reply) (s : State) : (answer t r s).rsc = s.rsc := pump_rsc _
@[simp] theorem answer_dc (t : BitVec 16) (r : Reply) (s : State) : (answer t r s).dc = s.dc := pump_dc _
@[simp] theorem answer_nq_queue (t : BitVec 16) (r : Reply) (s : State) : (answer t r s).nq.queue = s.nq.queue := pump_nq_queue _
@[simp] theorem answer_nq_priorities (t : BitVec 16) (r : Reply) (s : State) : (answer t r s).nq.priorities = s.nq.priorities := pump_nq_priorities _
@[simp] theorem answer_nq_express (t : BitVec 16) (r : Reply) (s : State) : (answer t r s).nq.express = s.nq.express := pump_nq_express _
@[simp] theorem answer_nq_seq (t : BitVec 16) (r : Reply) (s : State) : (answer t r s).nq.seq = s.nq.seq := pump_nq_seq _
@[simp] theorem answer_nq_age (t : BitVec 16) (r : Reply) (s : State) : (answer t r s).nq.age = s.nq.age := pump_nq_age _
@[simp] theorem answer_nq_overflow (t : BitVec 16) (r : Reply) (s : State) : (answer t r s).nq.overflow = s.nq.overflow := pump_nq_overflow _
@[simp] theorem answer_nq_lost (t : BitVec 16) (r : Reply) (s : State) : (answer t r s).nq.lost = s.nq.lost := pump_nq_lost _
@[simp] theorem answer_lu_mgmtRx (t : BitVec 16) (r : Reply) (s : State) : (answer t r s).lu.mgmtRx = s.lu.mgmtRx := pump_lu_mgmtRx _
@[simp] theorem answer_lu_silenceLimit (t : BitVec 16) (r : Reply) (s : State) : (answer t r s).lu.silenceLimit = s.lu.silenceLimit := pump_lu_silenceLimit _
@[simp] theorem answer_lu_links (t : BitVec 16) (r : Reply) (s : State) : (answer t r s).lu.links = s.lu.links := pump_lu_links _

/-! ### Readers after an answer -/

@[simp] theorem link_answer (t : BitVec 16) (r : Reply) (s : State) (i : Nat) : link (answer t r s) i = link s i := by
  simp only [link, answer_lu_links]
@[simp] theorem linkUp_answer (t : BitVec 16) (r : Reply) (s : State) (i : Nat) : linkUp (answer t r s) i = linkUp s i := by
  simp only [linkUp, link_answer]
@[simp] theorem carrier_answer (t : BitVec 16) (r : Reply) (s : State) (i : Nat) : carrier (answer t r s) i = carrier s i := by
  simp only [carrier, answer_pins]
@[simp] theorem volume_answer (t : BitVec 16) (r : Reply) (s : State) (i : Nat) : volume (answer t r s) i = volume s i := by
  simp only [volume, answer_vt]
@[simp] theorem intake_answer (t : BitVec 16) (r : Reply) (s : State) (i : Nat) : intake (answer t r s) i = intake s i := by
  simp only [intake, answer_ciu]
@[simp] theorem principal_answer (t : BitVec 16) (r : Reply) (s : State) (i : Nat) : principal (answer t r s) i = principal s i := by
  simp only [principal, answer_book]
@[simp] theorem group_answer (t : BitVec 16) (r : Reply) (s : State) (i : Nat) : group (answer t r s) i = group s i := by
  simp only [group, answer_book]
@[simp] theorem acct_answer (t : BitVec 16) (r : Reply) (s : State) (i : Subject) : acct (answer t r s) i = acct s i := by
  cases i <;> simp only [acct, principal, group, answer_book]
@[simp] theorem subjectDefined_answer (t : BitVec 16) (r : Reply) (s : State) (i : Subject) : subjectDefined (answer t r s) i = subjectDefined s i := by
  cases i <;> simp only [subjectDefined, principal, group, answer_book]
@[simp] theorem snap_answer (t : BitVec 16) (r : Reply) (s : State) (i : Nat) : snap (answer t r s) i = snap s i := by
  simp only [snap, answer_sc]
@[simp] theorem credit_answer (t : BitVec 16) (r : Reply) (s : State) (i : Nat) : credit (answer t r s) i = credit s i := by
  simp only [credit, answer_cca]
@[simp] theorem restoreJob_answer (t : BitVec 16) (r : Reply) (s : State) (i : Nat) : restoreJob (answer t r s) i = restoreJob s i := by
  simp only [restoreJob, answer_rsc]
@[simp] theorem dupJob_answer (t : BitVec 16) (r : Reply) (s : State) (i : Nat) : dupJob (answer t r s) i = dupJob s i := by
  simp only [dupJob, answer_dc]
@[simp] theorem rule_answer (t : BitVec 16) (r : Reply) (s : State) (i : Nat) : rule (answer t r s) i = rule s i := by
  simp only [rule, answer_sc]
@[simp] theorem baseEpoch_answer (t : BitVec 16) (r : Reply) (s : State) (i : Nat) : baseEpoch (answer t r s) i = baseEpoch s i := by
  simp only [baseEpoch, volume, snap, answer_vt, answer_sc]
@[simp] theorem reserveFlag_answer (t : BitVec 16) (r : Reply) (s : State) (i : Nat) : reserveFlag (answer t r s) i = reserveFlag s i := by
  simp only [reserveFlag, answer_sc]
@[simp] theorem withinReserve_answer (t : BitVec 16) (r : Reply) (s : State) (i : Nat) : withinReserve (answer t r s) i = withinReserve s i := by
  simp only [withinReserve, volume_answer]
@[simp] theorem hasSnaps_answer (t : BitVec 16) (r : Reply) (s : State) (i : Nat) : hasSnaps (answer t r s) i = hasSnaps s i := by
  simp only [hasSnaps, answer_sc]
@[simp] theorem hasRestore_answer (t : BitVec 16) (r : Reply) (s : State) (i : Nat) : hasRestore (answer t r s) i = hasRestore s i := by
  simp only [hasRestore, answer_rsc]
@[simp] theorem namesDup_answer (t : BitVec 16) (r : Reply) (s : State) (i : Nat) : namesDup (answer t r s) i = namesDup s i := by
  simp only [namesDup, dupJob, answer_dc]
@[simp] theorem volumeSnaps_answer (t : BitVec 16) (r : Reply) (s : State) (i : Nat) : volumeSnaps (answer t r s) i = volumeSnaps s i := by
  simp only [volumeSnaps, answer_sc]
@[simp] theorem denyEntry_answer (t : BitVec 16) (r : Reply) (s : State) (i : Subject) : denyEntry (answer t r s) i = denyEntry s i := by
  simp only [denyEntry, answer_et]
@[simp] theorem now_answer (t : BitVec 16) (r : Reply) (s : State) : now (answer t r s) = now s := by simp only [now, answer_cwu]

/-! ### Readers of the state that a request meets -/

@[simp] theorem link_mgmtHunt (s : State) (i : Nat) : link (mgmtHunt s) i = link s i := rfl
@[simp] theorem linkUp_mgmtHunt (s : State) (i : Nat) : linkUp (mgmtHunt s) i = linkUp s i := rfl
@[simp] theorem carrier_mgmtHunt (s : State) (i : Nat) : carrier (mgmtHunt s) i = carrier s i := rfl
@[simp] theorem volume_mgmtHunt (s : State) (i : Nat) : volume (mgmtHunt s) i = volume s i := rfl
@[simp] theorem intake_mgmtHunt (s : State) (i : Nat) : intake (mgmtHunt s) i = intake s i := rfl
@[simp] theorem principal_mgmtHunt (s : State) (i : Nat) : principal (mgmtHunt s) i = principal s i := rfl
@[simp] theorem group_mgmtHunt (s : State) (i : Nat) : group (mgmtHunt s) i = group s i := rfl
@[simp] theorem acct_mgmtHunt (s : State) (i : Subject) : acct (mgmtHunt s) i = acct s i := rfl
@[simp] theorem subjectDefined_mgmtHunt (s : State) (i : Subject) : subjectDefined (mgmtHunt s) i = subjectDefined s i := rfl
@[simp] theorem snap_mgmtHunt (s : State) (i : Nat) : snap (mgmtHunt s) i = snap s i := rfl
@[simp] theorem credit_mgmtHunt (s : State) (i : Nat) : credit (mgmtHunt s) i = credit s i := rfl
@[simp] theorem restoreJob_mgmtHunt (s : State) (i : Nat) : restoreJob (mgmtHunt s) i = restoreJob s i := rfl
@[simp] theorem dupJob_mgmtHunt (s : State) (i : Nat) : dupJob (mgmtHunt s) i = dupJob s i := rfl
@[simp] theorem rule_mgmtHunt (s : State) (i : Nat) : rule (mgmtHunt s) i = rule s i := rfl
@[simp] theorem baseEpoch_mgmtHunt (s : State) (i : Nat) : baseEpoch (mgmtHunt s) i = baseEpoch s i := rfl
@[simp] theorem reserveFlag_mgmtHunt (s : State) (i : Nat) : reserveFlag (mgmtHunt s) i = reserveFlag s i := rfl
@[simp] theorem withinReserve_mgmtHunt (s : State) (i : Nat) : withinReserve (mgmtHunt s) i = withinReserve s i := rfl
@[simp] theorem hasSnaps_mgmtHunt (s : State) (i : Nat) : hasSnaps (mgmtHunt s) i = hasSnaps s i := rfl
@[simp] theorem hasRestore_mgmtHunt (s : State) (i : Nat) : hasRestore (mgmtHunt s) i = hasRestore s i := rfl
@[simp] theorem namesDup_mgmtHunt (s : State) (i : Nat) : namesDup (mgmtHunt s) i = namesDup s i := rfl
@[simp] theorem volumeSnaps_mgmtHunt (s : State) (i : Nat) : volumeSnaps (mgmtHunt s) i = volumeSnaps s i := rfl
@[simp] theorem denyEntry_mgmtHunt (s : State) (i : Subject) : denyEntry (mgmtHunt s) i = denyEntry s i := rfl
@[simp] theorem now_mgmtHunt (s : State) : now (mgmtHunt s) = now s := rfl

/-! ### Requests -/

theorem request_takes {h : ReqHead} {n : Nat} {s : State} (ht : Takes h n s) (b : Bool) (f : State → State × Reply) :
    request h b f s =
      if b then answer h.tag (f (mgmtHunt s)).2 (f (mgmtHunt s)).1 else answer h.tag (refusal .malformed) (mgmtHunt s) := by
  obtain ⟨h1, h2, h3, h4, -⟩ := ht
  have h5 : mgmtReceives s = true := by simp [mgmtReceives, h1, h2]
  have h6 : mgmtBusy s = false := by simp [mgmtBusy, h3, h4]
  unfold request
  cases b <;> simp [h5, h6]

/-- A request of the length its kind has, when it is taken: its effect, then its answer. -/
theorem fixedRequest_takes {h : ReqHead} {n : Nat} {s : State} (ht : Takes h n s) (f : State → State × Reply) :
    fixedRequest h n f s = answer h.tag (f (mgmtHunt s)).2 (f (mgmtHunt s)).1 := by
  unfold fixedRequest; rw [request_takes ht]; simp [ht.2.2.2.2]

theorem answer_frame_carrier (t : BitVec 16) (r : Reply) (s : State) (hc : s.pins.mgmtCarrier = true) :
    (answer t r s).lu.replies = s.lu.replies ++ [⟨t, r⟩] ∧ Unchanged [.mgmtTx, .busy, .slot, .replies] s (answer t r s) := by
  unfold answer
  refine ⟨pump_lu_replies _ hc, ?_⟩
  have h1 := (pump_frame { s with lu := { s.lu with replies := s.lu.replies ++ [⟨t, r⟩] } }).unchanged hc
  intro p hp
  have h2 := h1 p (fun h => hp (by revert h; cases p <;> decide))
  revert h2
  cases p <;> first | exact id | exact (hp (by decide)).elim

/-- The answer to a request whose effect lies in the parts of `L`. -/
theorem answered_of_frame {L : List Part} {h : ReqHead} {n : Nat} {s u : State} (r : Reply) (ht : Takes h n s)
    (hf : Frame L (mgmtHunt s) u) :
    Answered h r s (answer h.tag r u) ∧ Unchanged (L ++ answerParts) s (answer h.tag r u) := by
  have hc : u.pins.mgmtCarrier = true := by rw [hf.pins]; exact ht.2.1
  obtain ⟨h1, h2⟩ := answer_frame_carrier h.tag r u hc
  have h3 := hf.unchanged (show (mgmtHunt s).pins.mgmtCarrier = true from ht.2.1)
  have h4 := (hf.steady (show (mgmtHunt s).pins.mgmtCarrier = true from ht.2.1)).1
  refine ⟨by rw [Answered, h1, h4]; rfl, ?_⟩
  refine ((((mgmtHunt_frame s).unchanged ht.2.1).mono ?_).trans (h3.mono ?_)).trans (h2.mono ?_)
  · intro p hp; revert hp; cases p <;> simp [answerParts]
  · intro p hp; simp [hp]
  · intro p hp; revert hp; cases p <;> simp [answerParts]

/-- A request that is refused. -/
theorem refused_takes {h : ReqHead} {n : Nat} {s : State} (st : Status) (ht : Takes h n s) :
    Refused h st s (answer h.tag (refusal st) (mgmtHunt s)) := by
  have := answered_of_frame (L := []) (refusal st) ht (Frame.refl _ _)
  simpa [Refused] using this

end Sys2Proof.Machine
end

