-- ==== Sys2Proof/Tests/Slice0.lean ====
section
/-! SUPPORT. Tests of the model against the tables and worked sequences of spec/, and a witness for every statement that has
hypotheses: a concrete state and operands that meet them together, clause by clause, at the boundary values. -/

namespace Sys2Proof.Tests

-- One test at a time: each kernel evaluation has a thread of its own otherwise.
set_option Elab.async false

open Sys2Proof Sys2Proof.Machine

/-! ### Helpers -/

/-- The state after a command. -/
def after (c : Instr) (s : State) : State :=
  match exec c s with
  | .next t => t
  | .fault _ => s
  | .refused _ => s

/-- The state after commands taken one after the other. -/
def afterAll (s : State) (cs : List Instr) : State := cs.foldl (fun s c => after c s) s

/-- The reply that a request adds at the tail of the reply list. -/
def replyOf (c : Instr) (s : State) : Option Reply := (after c s).lu.replies.getLast?.map ReplyEntry.reply

/-- The status with which each of these requests would be answered. -/
def statuses (s : State) (cs : List Instr) : List (Option Status) := cs.map fun c => (replyOf c s).map Reply.status

/-- The results with which a request would be answered. -/
def resultsOf (c : Instr) (s : State) : Option Results := (replyOf c s).map Reply.results

/-- The head of a request with a payload length. -/
def hd (n : Nat) : ReqHead := ⟨7, BitVec.ofNat 16 n⟩

/-- A link that is UP with nothing outstanding. -/
def upLink : Link := { Link.cold with state := .up, reason := .hello }

/-- An ATTACHED volume of 5,120 blocks at weight 20 on a server. -/
def vol20 (srv : Nat) : Volume :=
  { Volume.none with state := .attached, server := srv, size := 5120, weight := 20, regionBlocks := 256, regionCount := 20, epoch := 9 }

/-- A LIVE record of volume 0. -/
def live (epoch : Nat) (holds : List Hold) : Snap :=
  { volume := 0, epoch := epoch, kind := .hourly, created := 0, state := .live, keep := false, pinCount := 0, inFlight := none,
    holds := holds }

/-- An account with usage and limits. -/
def acctOf (usage soft hard : Nat) : Account := { Account.fresh with usage := usage, soft := soft, hard := hard }

/-- A defined principal. -/
def owner (user : Nat) (g : Option Nat) (a : Account) : Principal :=
  { Principal.undefined with defined := true, userNumber := user, group := g, acct := a }

/-- A PENDING or ORDERED extent of a restore job. -/
def extent (order : Option Nat) : Extent :=
  { source := 0, count := 10, dest := 100, status := if order.isSome then .ordered else .pending, retry := false, reason := .none,
    order := order }

/-- A restore job of snapshot 3 of volume 0 for principal 1. -/
def jobOf (st : JobState) (xs : List Extent) : RestoreJob :=
  { state := st, snapshot := 3, volume := 0, principal := 1, mode := .charge, priority := 1, accepted := 0, extents := xs,
    total := 200, remaining := 200 }

/-- A duplication job with target 3. -/
def dupOf (st : DupState) (b : Option Batch) : DupJob :=
  { state := st, target := 3, targetEpoch := 7, baseEpoch := 0, cursor := 1, batch := b, retry := 0, regions := 0, mib := 0, batches := 0,
    failures := 0, lastFailure := .none, origin := .host, created := 0 }

/-- A change record on volume 0, region 0. -/
def rec0 (op tag : Nat) (p q : Nat) : ChangeRecord :=
  { op := BitVec.ofNat 8 op, restoreTag := BitVec.ofNat 8 tag, volume := 0, principal := BitVec.ofNat 16 p,
    toPrincipal := BitVec.ofNat 16 q, count := 10, birthEpoch := if op = 2 then 2 else 0, block := 0 }

/-- A record at the head of an intake queue, the one record of its frame. -/
def queued (r : ChangeRecord) (dup : Bool) : QueuedRecord := { record := r, num := 300, tag := 300, idx := 0, frameLen := 1, dup := dup }

/-- A state with something of everything. Link 0 is UP with an outstanding order of each kind, 1 SYNCING, 2 FAULTED, 3 UP with
nothing outstanding. Volumes 0 and 2 are ATTACHED, 1 is STALE. Principals 0 to 2 and groups 0 and 1 are defined. -/
def full : State :=
  { State.reset with
    pins := { resetHeld := false, mgmtCarrier := true, serverCarrier := [0, 1, 2, 3] }
    lu := { State.reset.lu with
      links := [
        (0, { upLink with orders := [⟨1, .snap⟩, ⟨2, .dropSnap⟩, ⟨3, .copy⟩, ⟨4, .ship⟩, ⟨5, .deny⟩, ⟨6, .allow⟩], counter := 7 }),
        (1, { Link.cold with state := .syncing, reason := .carrierGained }),
        (2, { Link.cold with state := .faulted, reason := .badFrame }), (3, upLink)] }
    vt := [(0, { vol20 0 with heldTotal := 30, nightly := true, marks := [(0, 8), (2, 4)] }), (1, { vol20 1 with state := .stale, nightly := true }),
      (2, vol20 3)]
    ciu := [(0, { Intake.cold with next := 300 })]
    book := { State.reset.book with
      principals := [(0, { Principal.zeroCold with acct := acctOf 1000 0 0 }),
        (1, owner 77 (some 0) { acctOf 1600 200 400 with reservation := 600 }), (2, owner 78 none (acctOf 500 0 0))]
      groups := [(0, { defined := true, acct := { acctOf 5000 0 0 with reservation := 600 }, members := 1 }),
        (1, { defined := true, acct := Account.fresh, members := 0 })] }
    et := { State.reset.et with
      table := [(1, { want := .deny, parts := [(0, { status := .sent, inFlight := some ⟨5, .deny⟩, mark := none })] }),
        (2, { want := .allow, parts := [(0, { status := .sent, inFlight := some ⟨6, .allow⟩, mark := none })] })] }
    sc := { State.reset.sc with
      records := [(1, { live 8 [] with state := .taking, inFlight := some 1 }), (2, { live 2 [] with state := .dropping, inFlight := some 2 }),
        (3, { live 7 [] with pinCount := 4 }), (4, live 3 [⟨2, 10⟩]), (5, { live 5 [⟨4, 20⟩] with keep := true })]
      nextId := 6 }
    cca := { State.reset.cca with servers := [(0, { Credit.cold with free := 2, restore := 1, ship := 1 })], acceptance := [0, 1, 2] }
    rsc := { State.reset.rsc with
      jobs := [(0, jobOf .active [extent (some 3)]), (1, jobOf .active [{ extent none with status := .done }, { extent none with status := .failed, reason := .io }]),
        (2, jobOf .draining [extent (some 9)])] }
    dc := { State.reset.dc with jobs := [(0, dupOf .suspended (some ⟨[0], 4, 1⟩))] } }

/-- `full` with the reset line held. -/
def held : State := { full with pins := { full.pins with resetHeld := true } }

theorem full_tables : Tables full := by constructor <;> decide

theorem full_takes {h : ReqHead} {n : Nat} (e : h.len.toNat = n) : Takes h n full := ⟨rfl, rfl, by decide, rfl, e⟩

theorem full_up (srv : Nat) (hu : serverReceives full srv = true ∧ linkUp full srv = true) : UpReceives srv full :=
  ⟨hu.1, by decide, hu.2⟩

/-! ### Which commands can be formed -/

/-- Each check refuses an ill-formed term: a payload above 1,024 bytes (R2), bad-frame characters that make a good frame or none
(R4), an unknown kind that is a request kind (R11), a subject index out of range, 0 and 17 change records (R52), extents that
do not match the count (R150), GRANT_GRACE on the device (R11). -/
theorem test_wf_refuses :
    [Instr.readLinks (hd 1025), .mgmtBadFrame [], .serverBadFrame 0 [.byte 0xC3], .unknownKind (hd 0) 64, .unknownKind (hd 0) 103,
      .serverUnusableFrame 0 99 0 1025, .graceExpired (.principal 32768), .graceExpired (.group 1024), .changes 0 0 [],
      .changes 0 0 (List.replicate 17 (rec0 1 255 1 0)), .startRestore (hd 27) 0 1 1 0 1 [], .grantGrace (hd 7) ⟨0, 0⟩ 5].map Instr.wf
      = List.replicate 12 false := by decide

/-- And lets their neighbours pass. -/
theorem test_wf_accepts :
    [Instr.readLinks (hd 1024), .mgmtBadFrame [.byte 0xC3, .missingStop], .unknownKind (hd 0) 63, .unknownKind (hd 0) 104,
      .serverUnusableFrame 0 99 0 1024, .graceExpired (.principal 32767), .graceExpired (.group 1023),
      .changes 0 0 (List.replicate 16 (rec0 1 255 1 0)), .startRestore (hd 7) 0 1 1 0 0 [], .grantGrace (hd 7) ⟨5, 0⟩ 5].map Instr.wf
      = List.replicate 10 true := by decide

/-! ### Frames (R2 to R4, R11) -/

/-- The published check value of this CRC (polynomial 0x1021, start 0xFFFF, no inversion, R3) over the digits 1 to 9. -/
theorem test_crc : crc16 [0x31, 0x32, 0x33, 0x34, 0x35, 0x36, 0x37, 0x38, 0x39] = 0x29B1#16 := by decide +kernel

/-- SET_SILENCE with tag 0x0102 and limit 10, byte by byte from R2 and R11: kind 68, tag and length low byte first. -/
theorem test_frame_bytes :
    ((⟨68, 0x0102, [10, 0]⟩ : RawFrame).bytes.take 8) = [0xC3, 68, 0x02, 0x01, 2, 0, 10, 0] := by decide

/-- A frame received gives the command that R11 says its bytes are. -/
theorem test_request_fields :
    decodeRequest ⟨68, 0x0102, [10, 0]⟩ = .setSilence ⟨0x0102, 2⟩ 10
      ∧ decodeRequest ⟨70, 1, [0x28, 0x05, 15, 0, 100, 0, 0, 0]⟩ = .setWindow ⟨1, 8⟩ 1320 15 100
      ∧ decodeRequest ⟨82, 1, [0, 0, 0, 5, 0, 0, 0]⟩ = .grantGraceAll ⟨1, 7⟩ 5
      ∧ decodeRequest ⟨82, 1, [5, 2, 0, 5, 0, 0, 0]⟩ = .grantGrace ⟨1, 7⟩ ⟨5, 2⟩ 5
      ∧ decodeRequest ⟨63, 1, []⟩ = .unknownKind ⟨1, 0⟩ 63 := by decide

/-- A server frame with a length that its kind does not allow is unusable (R6); a HELLO has none. -/
theorem test_server_frames :
    decodeServerFrame 5 ⟨1, 0, []⟩ = .hello 5 ∧ decodeServerFrame 5 ⟨1, 0, [0]⟩ = .serverUnusableFrame 5 1 0 1
      ∧ decodeServerFrame 5 ⟨9, 300, []⟩ = .snapDone 5 300 ∧ decodeServerFrame 5 ⟨4, 0, [64]⟩ = .serverUnusableFrame 5 4 0 1 := by decide

/-- A missing stop bit while assembling makes the frame bad at once; a length above 1,024 too (R4). -/
theorem test_bad_frames :
    rxRun .hunting [.byte 0xC3, .byte 1, .missingStop, .byte 0] = (.hunting, [.bad])
      ∧ rxRun .hunting [.byte 0xC3, .byte 1, .byte 0, .byte 0, .byte 1, .byte 4] = (.hunting, [.bad])
      ∧ rxRun .hunting [.byte 0, .missingStop, .byte 0xC3] = (.assembling [], []) := by decide

/-! ### Tables of the spec -/

/-- The slots of the cold settings (R24): 0, 7, 8 and 31 at their ends, and outside from 06:00 on. -/
theorem test_slots :
    [1320, 1334, 1425, 1439, 0, 14, 345, 359, 360, 1319].map (slotOf State.reset.cwu.settings)
      = [some 0, some 0, some 7, some 7, some 8, some 8, some 31, some 31, none, none] := by decide

/-- The geometry of R36: regionBlocks, regionCount. -/
theorem test_geometry :
    [4096, 1000000, 5000000, 2 ^ 30, 2 ^ 34].map (fun n => resultsOf (.attachVolume (hd 11) 9 3 (BitVec.ofNat 64 n) 16) full)
      = [(256, 16), (256, 3907), (2048, 2442), (2 ^ 18, 4096), (2 ^ 22, 4096)].map
          fun p => some (Results.attached .attached p.1 p.2 1) := by decide +kernel

/-- The full hold list of section 7.12. -/
theorem test_full_hold_list :
    let l := addHold (addHold (addHold ((List.range 12).map fun i => ⟨10 + i, 5⟩) ⟨23, 7⟩) ⟨11, 4⟩) ⟨13, 2⟩
    l.take 3 = [⟨10, 15⟩, ⟨11, 4⟩, ⟨13, 7⟩] ∧ l.map Hold.birth = [10, 11, 13, 14, 15, 16, 17, 18, 19, 20, 21, 23]
      ∧ holdTotal l = 73 := by decide

/-- The visits of section 5.6: sweep A raises APPROACH at P 16, sweep B re-arms at P 108. -/
theorem test_trend_visits :
    let a := { acctOf 648000 40000 48000 with
      band := 2000, grace := 2880, state := .soft, trend := { uPrev := 600000, q := 1600, p := 65535, armed := true } }
    (visitAccount 3 24 a).trend = { uPrev := 648000, q := 7400, p := 16, armed := false }
      ∧ (visitAccount 3 24 { visitAccount 3 24 a with usage := 608000 }).trend = { uPrev := 608000, q := 1475, p := 108, armed := true } := by
  decide

/-- R87: a horizon of 0 raises nothing, also at P 0 below the hard limit. -/
theorem test_horizon_zero_is_off :
    let a := { acctOf 767000 40000 48000 with
      band := 2000, grace := 2880, state := .soft, trend := { uPrev := 600000, q := 1600, p := 65535, armed := true } }
    (visitAccount 3 0 a).trend.p = 0 ∧ (visitAccount 3 0 a).trend.armed = true ∧ (visitAccount 3 1 a).trend.armed = false := by
  decide

/-- The release of section 5.6: 608,000 at the release point stays SOFT, 607,980 is UNDER. -/
theorem test_release_is_strict :
    [648000, 608000, 607980].map (fun u => nextState { acctOf u 40000 48000 with band := 2000, grace := 2880, state := .soft })
      = [.soft, .soft, .under] := by decide

/-- Section 5.8: a borrow that stops at zero, and a saturated addition of 99. -/
theorem test_limits_of_the_arithmetic :
    (principal (subCharge 2 640 full) 2).acct.usage = 0
      ∧ (principal (subCharge 2 640 full) 2).outcome = { saturated := false, borrow := true, zero := true }
      ∧ addUsage (2 ^ 44 - 100) 160 = 2 ^ 44 - 1 ∧ addedAmount (2 ^ 44 - 100) 160 = 99 := by decide

/-! ### Reset and the pins -/

theorem test_cold_reset :
    (link (after .coldReset full) 0).state = .down ∧ (link (after .coldReset full) 0).counter = 1
      ∧ (volume (after .coldReset full) 0).state = .unattached ∧ (principal (after .coldReset full) 1).defined = false := by decide +kernel

/-- `full` with server 4's carrier present and its link DOWN, as after a cold reset with the line held (log 39). -/
def carried : State := { full with pins := { full.pins with serverCarrier := [0, 1, 2, 3, 4] } }

theorem witness_CarriersGainedSync :
    held.pins.resetHeld = true ∧ (carrier carried 4 = true ∧ (link carried 4).state = .down)
      ∧ (full.pins.resetHeld = false ∧ carrier full 7 = false ∧ (link (after (.carrierGained 7) full) 7).state = .syncing)
      ∧ (link (after .resetRelease { carried with pins := { carried.pins with resetHeld := true } }) 4).state = .syncing
      ∧ (link (after .resetRelease { carried with pins := { carried.pins with resetHeld := true } }) 7).state = .down := by decide +kernel

/-- From each of the four link states. -/
theorem witness_CarrierLostTakesTheLinkDown : Tables full ∧ Tables carried
    ∧ [(0 : ServerId), 1, 2, 3].map (fun v : ServerId => ((link full v).state, carrier full v, (link (after (.carrierLost v) full) v).state))
      = [(.up, true, .down), (.syncing, true, .down), (.faulted, true, .down), (.up, true, .down)]
    ∧ ((link carried 4).state, carrier carried 4, (link (after (.carrierLost 4) carried) 4).state) = (.down, true, .down) :=
  ⟨full_tables, by constructor <;> decide, by decide +kernel, by decide +kernel⟩

/-- `full` with the management carrier absent. -/
def dark : State := { full with pins := { full.pins with mgmtCarrier := false } }

/-- `full` with eight requests outstanding, the first reply in transmission and a BUSY answer waiting. -/
def packed : State :=
  { full with lu := { full.lu with
    mgmtTx := some (.reply ⟨1, refusal .noSuch⟩), replies := List.replicate 8 ⟨1, refusal .noSuch⟩, busy := [9] } }

theorem dark_mgmt : MgmtInv dark where
  replies := by decide
  busy := by decide
  free := fun _ => ⟨rfl, rfl, rfl⟩
  head := fun e h => by cases h
  absent := fun _ => rfl
  taken := fun h => by cases h
  due := fun _ => rfl

theorem witness_ManagementCarrierComesAndGoes : packed.pins.mgmtCarrier = true ∧ dark.pins.mgmtCarrier = false ∧ MgmtInv dark
    ∧ (after .mgmtCarrierLost packed).lu.replies = [] ∧ (after .mgmtCarrierLost packed).lu.busy = [] :=
  ⟨rfl, rfl, dark_mgmt, by decide, by decide⟩

/-! ### The management link -/

theorem witness_BadManagementFramesDropped :
    (full.pins.resetHeld = false ∧ full.pins.mgmtCarrier = true
      ∧ ((rxRun full.lu.mgmtRx [.byte 0xC3, .missingStop]).2.all fun e => !e.isGood) = true)
    ∧ (held.pins.resetHeld = true ∧ dark.pins.mgmtCarrier = false ∧ reqHead (.readLinks (hd 0)) ≠ none)
    ∧ after (.mgmtBadFrame [.byte 0xC3, .missingStop]) full = full ∧ after (.readLinks (hd 0)) held = held := by decide +kernel

/-- The eighth request is taken, the ninth is answered BUSY; a ninth BUSY answer is discarded; with the transmit side free a
BUSY answer starts at once. -/
theorem witness_BusyFramesHaveNoEffect :
    (Instr.readLinks (hd 0)).wf = true ∧ reqHead (.readLinks (hd 0)) = some (hd 0)
    ∧ 8 ≤ packed.lu.replies.length ∧ packed.lu.mgmtTx.isSome = true ∧ packed.lu.busy.length < 8
    ∧ (after (.readLinks (hd 0)) packed).lu.busy = [9, 7]
    ∧ (let s := { packed with lu := { packed.lu with busy := List.replicate 8 9 } };
        8 ≤ s.lu.busy.length ∧ after (.mgmtFrameBusy 5) s = s)
    ∧ (let s := { full with lu := { full.lu with restart := .inProgress } };
        s.lu.mgmtTx = none ∧ s.nq.slot = none ∧ s.lu.busy = [] ∧ (after (.mgmtFrameBusy 5) s).lu.mgmtTx = some (.busy 5))
    ∧ (let s := { packed with lu := { packed.lu with replies := List.replicate 7 ⟨1, refusal .noSuch⟩ } };
        (after (.readLinks (hd 0)) s).lu.replies.length = 8) := by decide +kernel

/-- Kinds 63 and 104 are unknown (R11); a payload one byte too long or too short is MALFORMED. -/
theorem witness_LinkUnitChecksKindAndLength :
    Takes (hd 5) (hd 5).len.toNat full
    ∧ statuses full [.unknownKind (hd 5) 63, .unknownKind (hd 5) 104] = [some .unknownKind, some .unknownKind]
    ∧ requestLength (.startRestore (hd 26) 4 1 1 0 1 []) = some 27
    ∧ statuses full [.readLinks (hd 1), .attachVolume (hd 10) 9 3 4096 16, .attachVolume (hd 12) 9 3 4096 16,
        .startRestore (hd 26) 4 1 1 0 1 []] = List.replicate 4 (some .malformed) :=
  ⟨full_takes rfl, by decide +kernel, by decide +kernel, by decide +kernel⟩

theorem witness_EveryRequestTakenIsAnswered :
    (Instr.setSilence (hd 2) 61).wf = true ∧ reqHead (.setSilence (hd 2) 61) = some (hd 2) ∧ Takes (hd 2) (hd 2).len.toNat full
    ∧ statuses full [.setSilence (hd 2) 60, .setSilence (hd 2) 61, .detachVolume (hd 1) 5]
      = [some .ok, some .clamped, some .noSuch] :=
  ⟨by decide, by decide, full_takes rfl, by decide +kernel⟩

/-- Each kind of frame in transmission, and each kind of frame that can be next. -/
theorem witness_FrameSentStartsTheNext :
    let e : ReplyEntry := ⟨1, refusal .noSuch⟩
    let n : SlotNotice := ⟨.device, .window true 0 1320 5 .minute, 1, 1⟩
    let at_ (f : MgmtFrame) (rs : List ReplyEntry) (b : List (BitVec 16)) (x : Option SlotNotice) (r : RestartPhase) : State :=
      { full with lu := { full.lu with mgmtTx := some f, replies := rs, busy := b, restart := r }, nq := { full.nq with slot := x } }
    (at_ (.reply e) [e] [] none .taken).pins.mgmtCarrier = true
    ∧ (after .mgmtFrameSent (at_ (.reply e) [e, e] [4] (some n) .none)).lu.mgmtTx = some (.express n)
    ∧ (after .mgmtFrameSent (at_ (.express n) [e] [4, 5] none .none)).lu.mgmtTx = some (.busy 4)
    ∧ (after .mgmtFrameSent (at_ (.busy 3) [e] [] none .none)).lu.mgmtTx = some (.reply e)
    ∧ (after .mgmtFrameSent (at_ (.reply e) [e] [] none .taken)).lu.restart = .due
    ∧ (after .mgmtFrameSent (at_ (.reply e) [e, e] [] none .taken)).lu.restart = .taken := by decide +kernel

/-! ### Server links -/

/-- `full` with an IDLE and a RESYNC_ACK waiting on link 3, whose silence count is 9. -/
def silent : State := setLink 3 { upLink with txQueue := [.idle, .resyncAck 64], silence := 9 } full

theorem silent_tables : Tables silent := by constructor <;> decide

theorem witness_FramesSentAndIdle : (link silent 3).txQueue = .idle :: [.resyncAck 64]
    ∧ (link (after (.serverFrameSent 3) silent) 3).txQueue = [.resyncAck 64] ∧ (link (after (.serverFrameSent 3) silent) 3).sentSince = true
    ∧ UpReceives 3 silent ∧ (link (after (.idleReceived 3) silent) 3).silence = 0 :=
  ⟨by decide, by decide, by decide, ⟨by decide, by decide, by decide⟩, by decide⟩

/-- A bad frame; HELLO with a payload byte (R6); SNAP_DONE for order 2, which is a DROP_SNAP. -/
theorem witness_ProtocolFaultsFaultTheLink : UpReceives 0 full ∧ Tables full
    ∧ .bad ∈ (rxRun (link full 0).rx [.byte 0xC3, .missingStop]).2
    ∧ serverLengthAllowed 1 1 = false
    ∧ (answeredKind 9 = some .snap ∧ Outstanding 0 2 .dropSnap full)
    ∧ [Instr.serverBadFrame 0 [.byte 0xC3, .missingStop], .serverUnusableFrame 0 1 0 1, .serverUnusableFrame 0 9 2 0].map
        (fun c => ((link (after c full) 0).state, (link (after c full) 0).reason)) = List.replicate 3 (.faulted, .badFrame) :=
  ⟨full_up 0 (by decide), full_tables, by decide, by decide, ⟨rfl, rfl⟩, by decide +kernel⟩

/-- No carrier; SYNCING and a frame that is no HELLO; FAULTED and HELLO; DOWN; a warm restart in progress. -/
theorem witness_UntakenFramesAreDiscarded :
    (serverReceives full 7 = false ∧ after (.hello 7) full = full)
    ∧ (serverReceives full 1 = true ∧ linkUp full 1 = false ∧ after (.idleReceived 1) full = full)
    ∧ (serverReceives full 2 = true ∧ (link full 2).state = .faulted ∧ after (.hello 2) full = full)
    ∧ (serverReceives carried 4 = true ∧ (link carried 4).state = .down ∧ after (.resync 4) carried = carried)
    ∧ (let s := { full with lu := { full.lu with restart := .inProgress } };
        serverReceives s 3 = true ∧ after (.resync 3) s = s) := by decide +kernel

theorem witness_HelloAndResyncBringTheLinkUp : Tables full
    ∧ (serverReceives full 1 = true ∧ full.lu.restart ≠ .inProgress ∧ (intake full 1).draining = false ∧ (link full 1).held = none
      ∧ (link full 1).state = .syncing ∧ (link full 2).state = .faulted ∧ serverReceives full 2 = true)
    ∧ [Instr.hello 1, .resync 1].map (fun c => ((link (after c full) 1).state, (link (after c full) 1).txQueue.head?))
      = List.replicate 2 (.up, some (.resyncAck 64))
    ∧ (link (after (.resync 2) full) 2).state = .up ∧ (volume (after (.hello 1) full) 1).state = .attached :=
  ⟨full_tables, by decide +kernel, by decide +kernel, by decide +kernel⟩

/-- `full` with an accepted record in server 3's intake queue. -/
def filled : State := setIntake 3 { Intake.cold with next := 301, unack := 1, queue := [queued { rec0 1 255 1 0 with volume := 2 } false] } full

theorem filled_tables : Tables filled := by constructor <;> decide

/-- With nothing to drain, with a record to drain, and then when it has been dealt with. -/
theorem witness_HelloAndResyncReenterUp : Tables filled ∧ UpReceives 0 filled ∧ UpReceives 3 filled
    ∧ (intake filled 0).queue = [] ∧ (intake filled 3).queue ≠ []
    ∧ (link (after (.hello 0) filled) 0).state = .up
    ∧ (let s := after (.resync 3) filled;
        (link s 3).state = .syncing ∧ (link s 3).held = some .resync ∧ (intake s 3).draining = true
        ∧ (let t := after (.intakeRecord 3) s;
            (link t 3).held = some .resync ∧ (link t 3).state = .syncing ∧ (intake t 3).draining = false
            ∧ (link (after (.reEnterUp 3) t) 3).state = .up)) :=
  ⟨filled_tables, ⟨by decide, by decide, by decide⟩, ⟨by decide, by decide, by decide⟩, by decide +kernel⟩

/-! ### Time -/

/-- At the limit of 10 (R15) link 3 is FAULTED; link 0, below it, is handed an IDLE. -/
theorem witness_SecondEventSupervisesSilence : Tables silent
    ∧ silent.pins.resetHeld = false ∧ silent.cwu.second + 1 ≠ 60
    ∧ linkUp silent 3 = true ∧ silent.lu.silenceLimit ≤ (link silent 3).silence + 1
    ∧ linkUp silent 0 = true ∧ (link silent 0).silence + 1 < silent.lu.silenceLimit ∧ (link silent 0).sentSince = false
    ∧ (link (after .secondEvent silent) 3).state = .faulted ∧ (link (after .secondEvent silent) 3).reason = .silence
    ∧ (link (after .secondEvent silent) 0).txQueue = [.idle]
    ∧ after (.silenceLimitReached 3) silent = after .secondEvent silent := ⟨silent_tables, by decide +kernel⟩

/-- The last second of a minute, of the day's last minute, of a trend interval, and of principal 1's grace. -/
def minuteDue : State :=
  let s := setPrincipal 1 (owner 77 (some 0) { acctOf 4000 200 0 with grace := 1, state := .soft }) full
  { s with cwu := { s.cwu with second := 59, minute := 1439, trendCount := 59 }, qm := { s.qm with softList := [.principal 1] } }

theorem witness_MinuteEventAdvancesTheClock :
    minuteDue.pins.resetHeld = false ∧ minuteDue.cwu.second = 59 ∧ .principal 1 ∈ minuteDue.qm.softList
    ∧ (acct minuteDue (.principal 1)).grace = 1
    ∧ (after .minuteEvent minuteDue).cwu.minute = 0 ∧ (after .minuteEvent minuteDue).cwu.trendCount = 0
    ∧ (after .minuteEvent minuteDue).ce.due = 1 ∧ (acct (after (.graceExpired (.principal 1)) minuteDue) (.principal 1)).state = .spent
    ∧ (after (.graceExpired (.principal 1)) minuteDue).cwu.second = 0 := by decide +kernel

/-- The last slot at the least and at the greatest length, and the minute after it. -/
theorem witness_SlotsCoverTheWindow :
    (WindowSet.mk 1439 45 65535).inRange ∧ slotOf ⟨1439, 45, 1⟩ ((1439 + 31 * 45 + 44) % 1440) = some 31
    ∧ (WindowSet.mk 0 1 1).inRange ∧ slotOf ⟨0, 1, 1⟩ 31 = some 31 ∧ slotOf ⟨0, 1, 1⟩ 32 = none := by
  unfold WindowSet.inRange; decide

/-- `full` after SET_CLOCK to 22:00, the first minute of the window. -/
def opened : State := afterAll full [.setSlotmask (hd 5) 1 3, .mgmtFrameSent, .setClock (hd 6) 100 1320, .mgmtFrameSent]

/-- Outside stays outside; an open; the same slot; a boundary; a close; and 1,440 is refused (R31). -/
theorem witness_SetClockEvaluatesTheWindow : Takes (hd 6) 6 full ∧ Takes (hd 6) 6 opened
    ∧ statuses full [.setClock (hd 6) 100 1440, .setClock (hd 6) 100 1439] = [some .malformed, some .ok]
    ∧ (after (.setClock (hd 6) 100 600) full).cwu.slot = none
    ∧ opened.cwu.slot = some 0 ∧ opened.cwu.openGroups = [1] ∧ opened.dc.full = 1500
    ∧ (after (.setClock (hd 6) 100 1334) opened).cwu.slot = some 0
    ∧ (after (.setClock (hd 6) 100 1335) opened).cwu.visited = [0, 1]
    ∧ (after (.setClock (hd 6) 100 360) opened).cwu.slot = none :=
  ⟨full_takes rfl, ⟨by decide +kernel, by decide +kernel, by decide +kernel, by decide +kernel, rfl⟩, by decide +kernel⟩

/-! ### The part's own steps -/

theorem opened_tables : Tables opened := by constructor <;> decide +kernel

/-- `opened` with 64 records of volume 0, the most it can have (R118). -/
def crowded : State := { opened with sc := { opened.sc with records := (List.range 64).map fun i => (i + 1, live i []) } }

/-- The nightly takes of `opened`: volume 0 is taken at id 6 and epoch 9, volume 1 is STALE (R124). -/
theorem witness_NightlyTakesOfAWindowOpen : 0 < opened.sc.opensDue ∧ Tables opened
    ∧ (after .nightlyTakes opened).sc.toDc = [.list [⟨0, .ok 6⟩, ⟨1, .error .stale⟩]]
    ∧ (volume (after .nightlyTakes opened) 0).epoch = 10 ∧ (snap (after .nightlyTakes opened) 6).map Snap.epoch = some 9
    ∧ (let s := setVolume 0 { volume opened 0 with epoch := 4294967295 } opened;
        (after .nightlyTakes s).sc.toDc = [.list [⟨0, .error .epoch⟩, ⟨1, .error .stale⟩]])
    ∧ (after .nightlyTakes crowded).sc.toDc = [.list [⟨0, .error .full⟩, ⟨1, .error .stale⟩]] :=
  ⟨by decide +kernel, opened_tables, by decide +kernel⟩

/-- A volume with a job, a failure, a DROPPING record that cannot be pinned, and a LIVE one that can. -/
theorem witness_NightlyListMakesJobs :
    (dupJob full 0).isSome = true ∧ dupJob full 2 = none ∧ canPin full 2 = false ∧ canPin full 4 = true ∧ (snap full 4).isSome = true
    ∧ (let s := { full with sc := { full.sc with toDc := [.list [⟨0, .ok 4⟩, ⟨1, .error .stale⟩, ⟨2, .ok 4⟩]] } };
        let t := after .dupNightlyList s;
        dupJob t 0 = dupJob full 0 ∧ (tget t.dc.lastEnd 1).map DupEnd.reason = some .noTarget
        ∧ (dupJob t 2).map DupJob.state = some .waitingSnapshot ∧ (snap t 4).map Snap.pinCount = some 1)
    ∧ (tget (nightlyItem full ⟨2, .ok 2⟩).dc.lastEnd 2).map DupEnd.reason = some .noTarget := by decide +kernel

/-- Each sweep starts, visits and ends; the first subject of a sample sweep is principal 1, of a grace sweep principal 0. -/
theorem witness_SweepsVisitTheDefinedSubjects :
    let s := { full with ce := { full.ce with due := 1 } }
    let t := after .sampleEvent s
    let g := after (.grantGraceAll (hd 7) 2880) full
    let last (p : Nat) : State := { full with ce := { full.ce with sweep := some ⟨p, 3, 24⟩ }, qm := { full.qm with sweep := some ⟨p, 5⟩ } }
    0 < s.ce.due ∧ t.ce.sweep = some ⟨1, 3, 24⟩ ∧ nextDefined t 1 = some 1 ∧ (acct (after .trendVisit t) (.principal 1)).trend.uPrev = 1600
    ∧ (after .sampleEvent { t with ce := { t.ce with due := 1 } }).ce.skipped = 1
    ∧ nextDefined g 0 = some 0 ∧ (acct (after .graceSweepVisit g) (.principal 0)).grace = 2880
    ∧ (∀ k ∈ definedKeys full, k < 32770) ∧ nextDefined full 32769 = some 32769
    ∧ (after .trendVisit (last 32770)).ce.sweep = none ∧ (after .graceSweepVisit (last 32770)).qm.sweep = none := by decide +kernel

/-! ### Change records -/

/-- Distance 0 and 64, one record and 16, and exactly 64 unacknowledged. -/
theorem witness_ChangesAreAccepted :
    let s := setIntake 0 { intake full 0 with unack := 48 } full
    UpReceives 0 s ∧ (intake s 0).next < 65536
    ∧ (intake (after (.changes 0 300 [rec0 1 255 1 0]) s) 0).next = 301
    ∧ (intake (after (.changes 0 236 (List.replicate 16 (rec0 1 255 1 0))) s) 0).next = 300
    ∧ (intake (after (.changes 0 236 (List.replicate 16 (rec0 1 255 1 0))) s) 0).unack = 64
    ∧ ((intake (after (.changes 0 300 [rec0 1 255 1 0]) s) 0).queue.map QueuedRecord.dup) = [false]
    ∧ (link (after (.changes 0 300 [rec0 1 255 1 0]) s) 0).state = .up :=
  ⟨⟨by decide, by decide, by decide⟩, by decide +kernel⟩

/-- Distance 65, and the overrun of the worked sequence in the Change Intake chapter: five records at count 62. -/
theorem witness_ChangesThatFaultTheLink :
    let s := setIntake 0 { intake full 0 with next := 383, unack := 62 } full
    let t := after (.changes 0 383 (List.replicate 5 (rec0 1 255 1 0))) s
    UpReceives 0 s ∧ Tables s
    ∧ (link (after (.changes 0 318 [rec0 1 255 1 0]) s) 0).reason = .badFrame
    ∧ (link t 0).state = .faulted ∧ (link t 0).reason = .overrun ∧ (intake t 0).next = 385 ∧ (intake t 0).unack = 64
    ∧ (intake t 0).queue.length = 2 ∧ (intake t 0).draining = true :=
  ⟨⟨by decide, by decide, by decide⟩, by constructor <;> decide, by decide +kernel⟩

/-- The volume, the principals and the link of "one frame through intake" (Change Intake). -/
def framed : State :=
  let s := setVolume 12 { Volume.none with
    state := .attached, server := 5, size := 1000000, weight := 20, regionBlocks := 256, regionCount := 3907, epoch := 2 } State.reset
  let s := setPrincipal 4101 (owner 1 none (acctOf 9000 0 0)) (setIntake 5 { Intake.cold with next := 300 } s)
  setLink 5 upLink { s with pins := { s.pins with serverCarrier := [5] } }

/-- The five records of that frame. -/
def frameRecords : List ChangeRecord :=
  let r (op p q block count birth : Nat) : ChangeRecord :=
    { op := BitVec.ofNat 8 op, restoreTag := 255, volume := 12, principal := BitVec.ofNat 16 p, toPrincipal := BitVec.ofNat 16 q,
      count := BitVec.ofNat 32 count, birthEpoch := BitVec.ofNat 32 birth, block := BitVec.ofNat 64 block }
  [r 1 4101 0 2048 100 0, r 1 9000 0 3000 40 0, r 2 4101 0 10000 60 3, r 3 4101 4102 250 10 0, r 2 4101 0 2048 50 1]

/-- That sequence: the numbers, the verdicts, the charges, the marks and the counts it gives. -/
theorem test_one_frame_through_intake :
    let s := after (.changes 5 300 frameRecords) framed
    let t := afterAll s (List.replicate 5 (.intakeRecord 5))
    (intake s 5).next = 305 ∧ (intake s 5).unack = 5
    ∧ (link t 5).txQueue = [.chgAck 300 5 [(1, .reassigned), (2, .birth), (3, .crosses)]]
    ∧ (principal t 4101).acct.usage = 9000 + 1000 ∧ (principal t 0).acct.usage = 800 ∧ t.book.reassigned = 1
    ∧ (volume t 12).marks = [(8, 2), (11, 2)]
    ∧ ((intake t 5).unack, (intake t 5).taken, (intake t 5).rejected) = (0, 3, 2) := by decide +kernel

/-- A record with each verdict, a duplicate, one that drains the queue, and one that is the last of its frame. -/
theorem witness_RecordsDealtWith :
    let at_ (q : QueuedRecord) : State := setIntake 0 { Intake.cold with next := 301, unack := 1, queue := [q] } full
    let bad (r : ChangeRecord) : Option Verdict := verdictOf (at_ (queued r false)) (queued r false)
    (intake (at_ (queued (rec0 1 255 1 0) false)) 0).queue = queued (rec0 1 255 1 0) false :: []
    ∧ [rec0 1 255 1 0, rec0 1 255 9 0, rec0 4 255 1 0, { rec0 1 255 1 0 with count := 0 }, { rec0 1 255 1 0 with volume := 9 },
        { rec0 1 255 1 0 with block := 5111 }, { rec0 1 255 1 0 with block := 250 }, { rec0 2 255 1 0 with birthEpoch := 10 }].map bad
      = [none, some .reassigned, some .format, some .count, some .noVolume, some .range, some .crosses, some .birth]
    ∧ verdictOf full (queued (rec0 1 255 1 0) true) = some .duplicate
    ∧ (link (after (.intakeRecord 0) (at_ (queued (rec0 1 255 1 0) true))) 0).txQueue = [.chgAck 300 1 [(0, .duplicate)]]
    ∧ (intake (after (.intakeRecord 0) (setIntake 0 { Intake.cold with unack := 1, queue := [queued (rec0 1 255 1 0) false], draining := true } full)) 0).draining
      = false := by decide +kernel

/-- An ALLOC with and without a restore tag of the principal's job, a FREE and a MOVE, at weight 20. -/
theorem witness_TakenRecordsChargeAndMark :
    [rec0 1 255 1 0, rec0 1 0 1 0, rec0 2 255 2 0, rec0 3 255 2 1, rec0 3 255 2 2].map (fun r => (recordVerdict full r, isReassigned full r))
      = List.replicate 5 (none, false)
    ∧ (restoreJob full 0).map RestoreJob.principal = some 1
    ∧ (principal (takeRecord 0 300 (rec0 1 255 1 0) full) 1).acct.usage = 1800
    ∧ (principal (takeRecord 0 300 (rec0 1 0 1 0) full) 1).acct.reservation = 400
    ∧ (restoreJob (takeRecord 0 300 (rec0 1 0 1 0) full) 0).map RestoreJob.remaining = some 0
    ∧ (principal (takeRecord 0 300 (rec0 2 255 2 0) full) 2).acct.usage = 300
    ∧ (principal (takeRecord 0 300 (rec0 3 255 2 1) full) 1).acct.usage = 1800
    ∧ tgetD 0 (volume (takeRecord 0 300 (rec0 3 255 2 1) full) 0).marks 0 = 9 := by decide +kernel

/-- With a borrow and without, in a group that has the amount. -/
theorem witness_SubtractionStopsAtZero :
    (principal full 1).group = some 0 ∧ min 1601 (principal full 1).acct.usage ≤ (group full 0).acct.usage
    ∧ (principal (subCharge 1 1601 full) 1).outcome = { saturated := false, borrow := true, zero := true }
    ∧ (group (subCharge 1 1601 full) 0).acct.usage = 3400
    ∧ (principal (subCharge 1 1600 full) 1).outcome = { saturated := false, borrow := false, zero := true }
    ∧ (principal (subCharge 1 1599 full) 1).outcome = ChargeOutcome.empty := by decide +kernel

/-! ### Completions -/

/-- DENY_ACK for the entry that wants DENY, ALLOW_ACK for the one that wants ALLOW; and both for an entry that wants the other. -/
theorem witness_AcknowledgementsConfirmTheWant : UpReceives 0 full ∧ Outstanding 0 5 .deny full ∧ Outstanding 0 6 .allow full
    ∧ denyInFlight full 0 5 = some 1 ∧ denyInFlight full 0 6 = some 2
    ∧ (tget full.et.table 1).map DenyEntry.want = some .deny ∧ (tget full.et.table 2).map DenyEntry.want = some .allow
    ∧ full.et.backlog = []
    ∧ (tget (after (.denyAck 0 5) full).et.table 1).map (fun e => denyPart e 0) = some ⟨.confirmed, none, some 300⟩
    ∧ (tget (after (.allowAck 0 6) full).et.table 2).map (fun e => denyPart e 0) = some ⟨.confirmed, none, none⟩
    ∧ (∃ j ∈ serverList, j ≠ 0 ∧ linkUp full j = true) :=
  ⟨full_up 0 (by decide), rfl, rfl, by decide +kernel⟩

/-- `full` with the wants turned round, and without link 3: an entry whose want has changed since its order was sent. -/
def turned : State :=
  let s := setLink 3 { Link.cold with state := .syncing } full
  { s with et := { s.et with
    table := [(1, { want := .allow, parts := [(0, { status := .sent, inFlight := some ⟨5, .deny⟩, mark := none })] }),
      (2, { want := .deny, parts := [(0, { status := .notSent, inFlight := some ⟨6, .allow⟩, mark := none })] }),
      (3, { want := .allow, parts := [(0, { status := .sent, inFlight := some ⟨7, .allow⟩, mark := none })] })] }
           lu := { s.lu with links := (0, { link s 0 with orders := (link s 0).orders ++ [⟨7, .allow⟩], counter := 8 }) :: s.lu.links.drop 1 } }

theorem witness_AcknowledgementsOfAnotherWant : UpReceives 0 turned ∧ Outstanding 0 5 .deny turned ∧ Outstanding 0 6 .allow turned
    ∧ denyInFlight turned 0 5 = some 1 ∧ denyInFlight turned 0 6 = some 2 ∧ denyInFlight turned 0 7 = some 3
    ∧ (tget (after (.denyAck 0 5) turned).et.table 1).map (fun e => denyPart e 0) = some ⟨.sent, none, none⟩
    ∧ (tget (after (.allowAck 0 6) turned).et.table 2).map (fun e => denyPart e 0) = some ⟨.sent, some ⟨8, .deny⟩, none⟩
    ∧ tget (after (.allowAck 0 7) turned).et.table 3 = none :=
  ⟨⟨by decide, by decide, by decide⟩, rfl, rfl, by decide +kernel⟩

/-- The three completions of the catalog's orders 1 and 2. -/
theorem witness_SnapshotCompletionsMoveTheRecord : UpReceives 0 full ∧ Tables full
    ∧ Outstanding 0 1 .snap full ∧ (snapInFlight full 0 1 true).map Prod.fst = some 1
    ∧ Outstanding 0 2 .dropSnap full ∧ (snapInFlight full 0 2 false).map Prod.fst = some 2
    ∧ (snap (after (.snapDone 0 1) full) 1).map Snap.state = some .live
    ∧ snap (after (.snapFail 0 1 9) full) 1 = none ∧ snap (after (.dropSnapAck 0 2) full) 2 = none :=
  ⟨full_up 0 (by decide), full_tables, rfl, by decide, rfl, by decide +kernel⟩

/-- Volume 12's records A, B and C in section 7.11, with server 5 UP. -/
def chained : State :=
  let s := setVolume 12 { volume framed 12 with epoch := 9 } framed
  let r (e : Nat) : Snap := { live e [] with volume := 12 }
  { s with sc := { s.sc with records := [(1, r 3), (2, r 5), (3, r 8)], nextId := 4 } }

/-- The chain of holds of section 7.11, event by event: the hold lists and heldTotal that it gives. -/
theorem test_chain_of_holds :
    let free (n b : Nat) : State → State := holdPart { rec0 2 255 4101 0 with
      volume := 12, count := BitVec.ofNat 32 n, birthEpoch := BitVec.ofNat 32 b }
    let s2 := after .mgmtFrameSent (after (.takeSnapshot (hd 3) 12 1 0) (free 40 9 (free 100 2 chained)))
    let s4 := free 20 2 (free 30 6 s2)
    let s5 := after (.snapFail 5 1 0) s4
    let s6 := after (.releaseSnapshot (hd 2) 3) s5
    ((snap s2 3).map Snap.holds, (volume s2 12).heldTotal, (volume s2 12).epoch) = (some [⟨2, 100⟩], 100, 10)
    ∧ ((snap s4 4).map Snap.holds, (volume s4 12).heldTotal) = (some [⟨2, 20⟩, ⟨6, 30⟩], 150)
    ∧ ((snap s5 3).map Snap.holds, (snap s5 4).isSome, (volume s5 12).heldTotal) = (some [⟨2, 120⟩, ⟨6, 30⟩], false, 150)
    ∧ resultsOf (.releaseSnapshot (hd 2) 3) s5 = some (.released 120 30)
    ∧ ((snap s6 2).map Snap.holds, (snap s6 3).map Snap.state, (volume s6 12).heldTotal) = (some [⟨2, 120⟩], some .dropping, 120) := by
  decide +kernel

/-- Order 3 of job 0, whose one extent it is: COPY_DONE, an IO failure that is retried, and the two that are not. -/
theorem witness_CopyCompletionsSettleTheExtent : UpReceives 0 full ∧ Tables full ∧ Outstanding 0 3 .copy full
    ∧ (findExtent full 0 3).map Prod.fst = some 0
    ∧ restoreJob (after (.copyDone 0 3) full) 0 = none
    ∧ (tget (after (.copyDone 0 3) full).rsc.lastEnd 0).map (fun e => (e.outcome, e.copied, e.released)) = some (.done, 10, 200)
    ∧ (restoreJob (after (.copyFail 0 3 1) full) 0).map (fun j => j.extents.map fun x => (x.status, x.retry)) = some [(.ordered, true)]
    ∧ [2, 3].map (fun b => (tget (after (.copyFail 0 3 b) full).rsc.lastEnd 0).map RestoreEnd.outcome) = [some .failed, some .failed] :=
  ⟨full_up 0 (by decide), full_tables, rfl, by decide +kernel⟩

/-- Order 4 of volume 0's job, SUSPENDED and with regions left; the same job DRAINING; with nothing left; and failing a third
time. -/
theorem witness_ShipCompletionsSettleTheJob :
    let at_ (j : DupJob) : State := setDupJob 0 { j with batch := some ⟨[0], 4, 1⟩ } full
    UpReceives 0 full ∧ Tables full ∧ Outstanding 0 4 .ship full ∧ (findBatch full 0 4).map Prod.fst = some 0
    ∧ shipSet (volume full 0) 0 1 = [2] ∧ shipSet (volume full 0) 0 3 = []
    ∧ (dupJob (after (.shipDone 0 4) full) 0).map (fun j => (j.state, j.batches, j.mib)) = some (.suspended, 1, 1)
    ∧ (volume (after (.shipDone 0 4) (at_ { dupOf .shipping none with cursor := 3 })) 0).offsiteBase = some 3
    ∧ (tget (after (.shipDone 0 4) (at_ (dupOf .draining none))).dc.lastEnd 0).map DupEnd.reason = some .halted
    ∧ (dupJob (after (.shipFail 0 4 5) full) 0).map (fun j => (j.cursor, j.retry)) = some (0, 1)
    ∧ (tget (after (.shipFail 0 4 5) (at_ { dupOf .suspended none with retry := 2 })).dc.lastEnd 0).map DupEnd.reason = some .failed
    ∧ (dupJob (after (.shipFail 0 4 5) (at_ { dupOf .suspended none with retry := 1 })) 0).map DupJob.retry = some 2
    ∧ (tget (after (.shipFail 0 4 5) (at_ (dupOf .draining none))).dc.lastEnd 0).map DupEnd.reason = some .halted :=
  ⟨full_up 0 (by decide), full_tables, rfl, by decide +kernel⟩

/-- The state of "one slot shared by three volumes" (Offsite Duplication) as slot 4 begins. -/
def shared3 : State :=
  let v (srv grp rb rc : Nat) (marks : List Nat) : Volume :=
    { Volume.none with
      state := .attached, server := srv, size := rb * rc, regionBlocks := rb, regionCount := rc, epoch := 2, dupGroup := grp
      marks := marks.map fun r => (r, 1) }
  let j (c : Nat) : DupJob := { dupOf .shipping none with cursor := c }
  { State.reset with
    lu := { State.reset.lu with links := [(0, upLink), (5, upLink)] }
    vt := [(3, v 0 1 262144 4096 [100, 101, 2000]), (12, v 5 2 256 3907 [0, 1, 19, 3906]), (20, v 0 1 2048 2442 ((List.range 30).map (50 + ·)))]
    dc := { State.reset.dc with jobs := [(3, j 100), (12, j 0), (20, j 50)], remaining := 1800, full := 1800, turn := some 20, openGroups := [1, 2] }
    cca := { State.reset.cca with openGroups := [1, 2] } }

/-- Its first three grants: the batches, the cursors, what remains and the turn. -/
theorem test_one_slot_shared_by_three_volumes :
    let t := grantAll shared3
    [3, 12, 20].map (fun v => (dupJob t v).map fun j => (j.cursor, (j.batch.map Batch.regions).getD []))
      = [some (101, [100]), some (3907, [0, 1, 19, 3906]), some (58, [50, 51, 52, 53, 54, 55, 56, 57])]
    ∧ t.dc.remaining = 708 ∧ t.dc.turn = some 12 := by decide +kernel

/-- Order 99 is not outstanding; order 2 is a DROP_SNAP and no SNAP. -/
theorem witness_StrayCompletions : completes (.snapDone 0 99) = some (0, 99, .snap) ∧ UpReceives 0 full ∧ Tables full
    ∧ (∀ o ∈ (link full 0).orders, o.num ≠ 99) ∧ Outstanding 0 2 .dropSnap full
    ∧ (link (after (.snapDone 0 99) full) 0).state = .up ∧ (link (after (.snapDone 0 2) full) 0).reason = .badFrame :=
  ⟨rfl, full_up 0 (by decide), full_tables, by decide, rfl, by decide +kernel⟩

/-! ### Warm restart -/

/-- RESTART's reply gone: server 0's link goes to SYNCING, its volume STALE; the FAULTED link too; a new record waiting in an
intake queue is the next number again. -/
theorem witness_WarmRestart :
    let dup : QueuedRecord := { queued (rec0 1 255 1 0) true with num := 299 }
    let s0 := setIntake 0 { intake full 0 with next := 301, unack := 2, queue := [dup, queued (rec0 1 255 1 0) false] } full
    let s := afterAll s0 [.restart (hd 0), .mgmtFrameSent]
    Takes (hd 0) 0 full ∧ (after (.restart (hd 0)) s0).lu.restart = .taken ∧ s.lu.restart = .due ∧ Tables { full with lu := { full.lu with restart := .due } }
    ∧ [0, 1, 2, 4].map (fun v => (link (after .warmRestart s) v).state) = [.syncing, .syncing, .syncing, .down]
    ∧ (intake (after .warmRestart s) 0).next = 300 ∧ (volume (after .warmRestart s) 0).state = .stale
    ∧ (tget (after .warmRestart s).rsc.lastEnd 0).map RestoreEnd.outcome = some .aborted
    ∧ (tget (after .warmRestart s).dc.lastEnd 0).map DupEnd.reason = some .halted
    ∧ (after .warmRestart s).lu.restart = .inProgress ∧ (after .warmRestartEnd (after .warmRestart s)).lu.restart = .none :=
  ⟨full_takes rfl, by decide +kernel, by decide +kernel, by constructor <;> decide, by decide +kernel⟩

/-! ### Requests

Each list of statuses goes through a request's checks in their order, at the values where each begins; `Takes` is shown for the
request's length. -/

theorem witness_AttachVolume : Takes (hd 11) 11 full
    ∧ statuses full [.attachVolume (hd 11) 64 3 4096 16, .attachVolume (hd 11) 9 8 4096 16, .attachVolume (hd 11) 9 3 4095 16,
        .attachVolume (hd 11) 9 3 17179869185 16, .attachVolume (hd 11) 9 3 4096 15, .attachVolume (hd 11) 9 3 4096 65] =
        List.replicate 6 (some .malformed)
    ∧ statuses full [.attachVolume (hd 11) 0 3 4096 16, .attachVolume (hd 11) 63 7 17179869184 64, .attachVolume (hd 11) 63 3 4096 16] =
        [some .state, some .ok, some .ok]
    ∧ (volume (after (.attachVolume (hd 11) 63 7 4096 16) full) 63).state = .stale
    ∧ (volume (after (.attachVolume (hd 11) 63 3 4096 16) full) 63).state = .attached :=
  ⟨full_takes rfl, by decide +kernel, by decide +kernel, by decide +kernel⟩

/-- No setting, and one setting at a time. -/
theorem witness_SetVolume :
    let none8 : Setting 8 := ⟨0, 0⟩
    let none64 : Setting 64 := ⟨0, 0⟩
    let shipping := setDupJob 0 (dupOf .shipping none) full
    Takes (hd 16) 16 full ∧ Tables full
    ∧ statuses full [.setVolume (hd 16) 2 ⟨2, 0⟩ none64 none8 none8, .setVolume (hd 16) 64 none8 none64 none8 none8,
        .setVolume (hd 16) 2 ⟨1, 15⟩ none64 none8 none8, .setVolume (hd 16) 2 ⟨1, 65⟩ none64 none8 none8,
        .setVolume (hd 16) 2 none8 none64 ⟨1, 8⟩ none8, .setVolume (hd 16) 2 none8 none64 none8 ⟨1, 2⟩] = List.replicate 6 (some .malformed)
    ∧ statuses full [.setVolume (hd 16) 9 none8 none64 none8 none8, .setVolume (hd 16) 0 ⟨1, 21⟩ none64 none8 none8,
        .setVolume (hd 16) 0 ⟨1, 20⟩ none64 none8 none8, .setVolume (hd 16) 2 ⟨1, 64⟩ none64 ⟨1, 7⟩ ⟨1, 1⟩,
        .setVolume (hd 16) 2 none8 ⟨1, 1099511627776⟩ none8 none8] = [some .noSuch, some .inUse, some .ok, some .ok, some .clamped]
    ∧ statuses shipping [.setVolume (hd 16) 0 none8 none64 ⟨1, 1⟩ none8] = [some .inUse]
    ∧ reserveFlag (after (.setVolume (hd 16) 0 none8 ⟨1, 5⟩ none8 none8) full) 0 = true
    ∧ (volume (after (.setVolume (hd 16) 2 ⟨1, 64⟩ none64 ⟨1, 7⟩ ⟨1, 1⟩) full) 2).weight = 64 :=
  ⟨full_takes rfl, full_tables, by decide +kernel, by decide +kernel, by decide +kernel, by decide +kernel, by decide +kernel⟩

theorem witness_DetachVolume : Takes (hd 1) 1 full ∧ Tables full
    ∧ statuses full [.detachVolume (hd 1) 64, .detachVolume (hd 1) 63, .detachVolume (hd 1) 0, .detachVolume (hd 1) 2]
      = [some .malformed, some .noSuch, some .inUse, some .ok]
    ∧ volume (after (.detachVolume (hd 1) 2) full) 2 = Volume.none :=
  ⟨full_takes rfl, full_tables, by decide +kernel, by decide +kernel⟩

theorem witness_SetSilenceAndSlotmask : Takes (hd 2) 2 full ∧ Takes (hd 5) 5 full
    ∧ [0, 1, 60, 61].map (fun n => (after (.setSilence (hd 2) n) full).lu.silenceLimit) = [1, 1, 60, 60]
    ∧ statuses full [.setSilence (hd 2) 0, .setSilence (hd 2) 1, .setSlotmask (hd 5) 8 1, .setSlotmask (hd 5) 7 1]
      = [some .clamped, some .ok, some .malformed, some .ok]
    ∧ slotMask (after (.setSlotmask (hd 5) 7 1) full).cwu 7 = { current := 0, pending := some 1 } :=
  ⟨full_takes rfl, full_takes rfl, by decide +kernel, by decide +kernel, by decide +kernel⟩

theorem witness_SetWindowAppliesOrDefers : Takes (hd 8) 8 full ∧ Takes (hd 8) 8 opened
    ∧ statuses full [.setWindow (hd 8) 1440 15 100, .setWindow (hd 8) 1439 45 65535, .setWindow (hd 8) 0 46 65536, .setWindow (hd 8) 0 0 0]
      = [some .malformed, some .ok, some .clamped, some .clamped]
    ∧ full.cwu.slot = none ∧ (after (.setWindow (hd 8) 0 46 65536) full).cwu.settings = ⟨0, 45, 65535⟩
    ∧ opened.cwu.slot ≠ none ∧ (after (.setWindow (hd 8) 0 0 0) opened).cwu.pendingSet = some ⟨0, 1, 1⟩ :=
  ⟨full_takes rfl, ⟨by decide +kernel, by decide +kernel, by decide +kernel, by decide +kernel, rfl⟩, by decide +kernel,
    by decide +kernel, by decide +kernel, by decide +kernel, by decide +kernel⟩

theorem witness_SetTrendAppliesThreeValues : Takes (hd 8) 8 full
    ∧ resultsOf (.setTrend (hd 8) 0 0 0) full = some (.trend 1 1 0) ∧ resultsOf (.setTrend (hd 8) 1441 9 256) full = some (.trend 1440 8 255)
    ∧ (replyOf (.setTrend (hd 8) 1441 9 256) full).map Reply.clamps = some [1, 2, 3]
    ∧ (after (.setTrend (hd 8) 30 3 24) minuteDue).cwu.trendCount = 0 ∧ (after (.setTrend (hd 8) 60 3 24) minuteDue).cwu.trendCount = 59 :=
  ⟨full_takes rfl, by decide +kernel, by decide +kernel, by decide +kernel, by decide +kernel, by decide +kernel⟩

theorem witness_LoadUsageCorrectsTheBooks : Takes (hd 10) 10 full
    ∧ statuses full [.loadUsage (hd 10) 32768 1, .loadUsage (hd 10) 3 1, .loadUsage (hd 10) 1 1099511627775, .loadUsage (hd 10) 1 1099511627776]
      = [some .malformed, some .noSuch, some .ok, some .clamped]
    ∧ (principal full 1).group = some 0 ∧ (principal (after (.loadUsage (hd 10) 1 150) full) 1).acct.usage = 2400
    ∧ (group (after (.loadUsage (hd 10) 1 150) full) 0).acct.usage = 5800
    ∧ (principal (after (.loadUsage (hd 10) 0 150) full) 0).acct.trend = Trend.fresh :=
  ⟨full_takes rfl, by decide +kernel, by decide +kernel, by decide +kernel, by decide +kernel, by decide +kernel⟩

theorem witness_DefineSubjects : Takes (hd 8) 8 full ∧ Takes (hd 2) 2 full
    ∧ statuses full [.definePrincipal (hd 8) 32768 1 65535, .definePrincipal (hd 8) 9 1 1024, .definePrincipal (hd 8) 9 1 65534,
        .definePrincipal (hd 8) 1 1 65535, .definePrincipal (hd 8) 9 1 1023, .definePrincipal (hd 8) 32767 1 65535,
        .definePrincipal (hd 8) 9 1 1, .defineGroup (hd 2) 1024, .defineGroup (hd 2) 1, .defineGroup (hd 2) 1023]
      = [some .malformed, some .malformed, some .malformed, some .state, some .noSuch, some .ok, some .ok, some .malformed, some .state, some .ok]
    ∧ (group (after (.definePrincipal (hd 8) 9 1 1) full) 1).members = 1 ∧ (group (after (.defineGroup (hd 2) 1023) full) 1023).defined = true :=
  ⟨full_takes rfl, full_takes rfl, by decide +kernel, by decide +kernel, by decide +kernel⟩

theorem witness_SetGroupMovesTheCharges : Takes (hd 4) 4 full
    ∧ statuses full [.setGroup (hd 4) 32768 0, .setGroup (hd 4) 1 1024, .setGroup (hd 4) 3 0, .setGroup (hd 4) 1 2, .setGroup (hd 4) 1 1,
        .setGroup (hd 4) 1 65535, .setGroup (hd 4) 1 0]
      = [some .malformed, some .malformed, some .noSuch, some .noSuch, some .ok, some .ok, some .ok]
    ∧ (group (after (.setGroup (hd 4) 1 1) full) 0).acct.usage = 3400 ∧ (group (after (.setGroup (hd 4) 1 1) full) 1).acct.reservation = 600
    ∧ (group (after (.setGroup (hd 4) 1 1) full) 1).members = 1 ∧ (group (after (.setGroup (hd 4) 1 0) full) 0).members = 1 :=
  ⟨full_takes rfl, by decide +kernel, by decide +kernel, by decide +kernel, by decide +kernel, by decide +kernel⟩

/-- Principal 2 has no group; principal 1 is charged by a restore job; and principal 1 without that job leaves its group 0, in which
principal 0 is or is not. -/
theorem witness_DropSubjects :
    let s := { full with rsc := { full.rsc with jobs := [] } }
    let z := setPrincipal 0 { Principal.zeroCold with group := some 1, acct := acctOf 1000 0 0 } s
    Takes (hd 2) 2 full
    ∧ statuses full [.dropPrincipal (hd 2) 32768, .dropPrincipal (hd 2) 3, .dropPrincipal (hd 2) 0, .dropPrincipal (hd 2) 1, .dropPrincipal (hd 2) 2,
        .dropGroup (hd 2) 1024, .dropGroup (hd 2) 2, .dropGroup (hd 2) 0, .dropGroup (hd 2) 1]
      = [some .malformed, some .noSuch, some .state, some .inUse, some .ok, some .malformed, some .noSuch, some .inUse, some .ok]
    ∧ (principal s 1).group = some 0 ∧ (principal s 0).group = none ∧ (principal z 0).group = some 1 ∧ (principal z 0).acct.usage ≤ 17592186044415
    ∧ (principal (after (.dropPrincipal (hd 2) 1) s) 0).acct.usage = 2600 ∧ (group (after (.dropPrincipal (hd 2) 1) s) 0).acct.usage = 3400
    ∧ (group (after (.dropPrincipal (hd 2) 1) z) 1).acct.usage = 1600
    ∧ principal (after (.dropPrincipal (hd 2) 2) full) 2 = Principal.undefined ∧ group (after (.dropGroup (hd 2) 1) full) 1 = Group.undefined :=
  ⟨full_takes rfl, by decide +kernel, by decide +kernel⟩

theorem witness_LimitsAndGraceAreEvaluated :
    let swept := { full with qm := { full.qm with sweep := some ⟨0, 5⟩ } }
    Takes (hd 23) 23 full ∧ Takes (hd 7) 7 full ∧ Takes (hd 7) 7 swept
    ∧ quotaSubject ⟨4, 1⟩ = none ∧ quotaSubject ⟨5, 32767⟩ = some (.principal 32767) ∧ quotaSubject ⟨5, 32768⟩ = none
    ∧ quotaSubject ⟨6, 1023⟩ = some (.group 1023) ∧ quotaSubject ⟨6, 1024⟩ = none ∧ quotaSubject ⟨5, 1⟩ = some (.principal 1)
    ∧ statuses full [.setLimits (hd 23) ⟨4, 1⟩ 1 1 1, .setLimits (hd 23) ⟨5, 3⟩ 1 1 1, .setLimits (hd 23) ⟨5, 1⟩ 50 100 65535,
        .setLimits (hd 23) ⟨5, 1⟩ 101 100 65536, .grantGrace (hd 7) ⟨4, 1⟩ 5, .grantGrace (hd 7) ⟨6, 9⟩ 5, .grantGrace (hd 7) ⟨6, 0⟩ 65535,
        .grantGrace (hd 7) ⟨6, 0⟩ 65536, .grantGraceAll (hd 7) 65536, .grantGrace (hd 7) ⟨0, 0⟩ 5]
      = [some .malformed, some .noSuch, some .ok, some .clamped, some .malformed, some .noSuch, some .ok, some .clamped, some .clamped, some .ok]
    ∧ statuses swept [.grantGraceAll (hd 7) 5] = [some .state]
    ∧ (acct (after (.setLimits (hd 23) ⟨5, 1⟩ 101 100 0) full) (.principal 1)).soft = 100
    ∧ (acct (after (.setLimits (hd 23) ⟨5, 1⟩ 101 100 0) full) (.principal 1)).state = .hard
    ∧ (acct (after (.setLimits (hd 23) ⟨5, 1⟩ 101 0 0) full) (.principal 1)).state = .spent :=
  ⟨full_takes rfl, full_takes rfl, ⟨rfl, rfl, by decide, rfl, rfl⟩, by decide +kernel⟩

/-- `full` with a full catalog, a reserveOver flag, and an epoch at its end. -/
theorem witness_TakeSnapshot :
    let wide := { full with sc := { full.sc with records := (List.range 1024).map fun i => (i + 1, { live 1 [] with volume := 60 }) } }
    let flagged := { full with sc := { full.sc with reserveOver := [0] } }
    let last := setVolume 0 { volume full 0 with epoch := 4294967295 } full
    Takes (hd 3) 3 full
    ∧ statuses full [.takeSnapshot (hd 3) 0 0 0, .takeSnapshot (hd 3) 0 4 0, .takeSnapshot (hd 3) 0 1 2, .takeSnapshot (hd 3) 64 1 0,
        .takeSnapshot (hd 3) 9 1 0, .takeSnapshot (hd 3) 1 1 0, .takeSnapshot (hd 3) 0 3 1]
      = [some .malformed, some .malformed, some .malformed, some .malformed, some .noSuch, some .state, some .ok]
    ∧ statuses wide [.takeSnapshot (hd 3) 0 1 0] = [some .full] ∧ statuses crowded [.takeSnapshot (hd 3) 0 1 0] = [some .full]
    ∧ statuses flagged [.takeSnapshot (hd 3) 0 1 0, .takeSnapshot (hd 3) 0 2 0] = [some .full, some .ok]
    ∧ statuses last [.takeSnapshot (hd 3) 0 1 0] = [some .full]
    ∧ resultsOf (.takeSnapshot (hd 3) 0 3 1) full = some (.taken 6 9) ∧ (volume (after (.takeSnapshot (hd 3) 0 3 1) full) 0).epoch = 10 :=
  ⟨full_takes rfl, by decide +kernel, by decide +kernel, by decide +kernel, by decide +kernel, by decide +kernel, by decide +kernel, by decide +kernel⟩

theorem witness_ReleaseKeepAndRetention : Takes (hd 2) 2 full ∧ Takes (hd 3) 3 full ∧ Takes (hd 11) 11 full ∧ Tables full
    ∧ statuses full [.releaseSnapshot (hd 2) 0, .releaseSnapshot (hd 2) 9, .releaseSnapshot (hd 2) 1, .releaseSnapshot (hd 2) 3, .releaseSnapshot (hd 2) 5]
      = [some .malformed, some .noSuch, some .state, some .inUse, some .ok]
    ∧ statuses full [.setKeep (hd 3) 0 1, .setKeep (hd 3) 4 2, .setKeep (hd 3) 9 1, .setKeep (hd 3) 2 1, .setKeep (hd 3) 4 1, .setKeep (hd 3) 5 0]
      = [some .malformed, some .malformed, some .noSuch, some .state, some .ok, some .ok]
    ∧ statuses full [.setRetention (hd 11) 8 1 0 0 1 5 0, .setRetention (hd 11) 7 2 0 0 1 5 0, .setRetention (hd 11) 7 1 64 0 1 5 0,
        .setRetention (hd 11) 7 1 0 64 1 5 0, .setRetention (hd 11) 7 1 0 0 4 5 0, .setRetention (hd 11) 7 1 63 63 3 63 0, .setRetention (hd 11) 7 1 0 0 1 64 0]
      = [some .malformed, some .malformed, some .malformed, some .malformed, some .malformed, some .ok, some .clamped]
    ∧ resultsOf (.releaseSnapshot (hd 2) 5) full = some (.released 0 20) ∧ (snap (after (.releaseSnapshot (hd 2) 5) full) 5).map Snap.state = some .dropping
    ∧ (snap (after (.setKeep (hd 3) 5 0) full) 5).map Snap.keep = some false ∧ (rule (after (.setRetention (hd 11) 7 1 0 0 1 64 0) full) 7).keepCount = 63 :=
  ⟨full_takes rfl, full_takes rfl, full_takes rfl, full_tables, by decide +kernel, by decide +kernel, by decide +kernel, by decide +kernel⟩

/-- START_RESTORE at each of its checks; slot 3 is the lowest that is free. -/
theorem witness_StartAndCancelRestore :
    let x (b n d : Nat) : ExtentField := ⟨BitVec.ofNat 64 b, BitVec.ofNat 32 n, BitVec.ofNat 64 d⟩
    let start (id p m pr : Nat) (xs : List ExtentField) : Instr :=
      .startRestore (hd (7 + 20 * xs.length)) (BitVec.ofNat 16 id) (BitVec.ofNat 16 p) (BitVec.ofNat 8 m) (BitVec.ofNat 8 pr) (BitVec.ofNat 8 xs.length) xs
    let busy := { full with rsc := { full.rsc with jobs := (List.range 16).map fun i => (i, jobOf .active [extent none]) } }
    Takes (hd 27) 27 full ∧ Takes (hd 7) 7 full ∧ Takes (hd 1) 1 full ∧ restoreJob full 3 = none ∧ (∀ k < 3, restoreJob full k ≠ none)
    ∧ statuses busy [start 4 1 1 1 [x 0 1 0]] = [some .full]
    ∧ statuses full [start 9 1 1 1 [x 0 1 0], start 4 3 1 1 [x 0 1 0], start 1 1 1 1 [x 0 1 0], start 4 1 3 1 [x 0 1 0], start 4 0 1 1 [x 0 1 0],
        start 4 32768 1 1 [x 0 1 0], start 4 1 1 4 [x 0 1 0], start 4 1 1 1 [], start 4 1 1 1 (List.replicate 33 (x 0 1 0)), start 4 1 1 1 [x 0 0 0],
        start 4 1 1 1 [x 5120 1 0], start 4 1 1 1 [x 0 1 5120], start 4 1 1 1 [x 0 5120 0], start 4 1 2 3 [x 0 5120 0], start 4 2 1 1 [x 5119 1 5119]]
      = [some .noSuch, some .noSuch, some .state, some .malformed, some .malformed, some .malformed, some .malformed, some .malformed, some .malformed,
          some .malformed, some .malformed, some .malformed, some .quota, some .ok, some .ok]
    ∧ resultsOf (start 4 2 1 1 [x 0 100 0]) full = some (.restoreStarted 3 2000)
    ∧ (principal (after (start 4 2 1 1 [x 0 100 0]) full) 2).acct.reservation = 2000
    ∧ statuses full [.cancelRestore (hd 1) 16, .cancelRestore (hd 1) 15, .cancelRestore (hd 1) 2, .cancelRestore (hd 1) 0, .cancelRestore (hd 1) 1]
      = [some .malformed, some .noSuch, some .state, some .ok, some .ok]
    ∧ (restoreJob (after (.cancelRestore (hd 1) 0) full) 0).map RestoreJob.state = some .draining
    ∧ (tget (after (.cancelRestore (hd 1) 1) full).rsc.lastEnd 1).map RestoreEnd.outcome = some .cancelled :=
  ⟨full_takes rfl, full_takes rfl, full_takes rfl, by decide +kernel⟩

/-- A volume with a job, one with none and no snapshot, one whose newest snapshot is no newer than its base, and one to duplicate. -/
theorem witness_DuplicationRequests :
    let idle := { full with dc := { full.dc with jobs := [] } }
    let based := setVolume 0 { volume idle 0 with offsiteBase := some 3 } idle
    let bare := setVolume 0 { volume idle 0 with marks := [] } { idle with cwu := { idle.cwu with slot := some 0, visited := [0] } }
    Takes (hd 1) 1 full ∧ Takes (hd 3) 3 full ∧ Tables full ∧ (newestLive idle 0).map Prod.fst = some 3 ∧ newestLive idle 2 = none
    ∧ statuses full [.startDup (hd 1) 64, .startDup (hd 1) 63, .startDup (hd 1) 0, .startDup (hd 1) 2] =
      [some .malformed, some .noSuch, some .inUse, some .state]
    ∧ statuses based [.startDup (hd 1) 0] = [some .state] ∧ resultsOf (.startDup (hd 1) 0) idle = some (.dupStarted 3 7 0 2)
    ∧ (dupJob (after (.startDup (hd 1) 0) idle) 0).map DupJob.state = some .suspended
    ∧ (volume (after (.startDup (hd 1) 0) bare) 0).offsiteBase = some 3 ∧ dupJob (after (.startDup (hd 1) 0) bare) 0 = none
    ∧ statuses full [.haltDup (hd 1) 64, .haltDup (hd 1) 63, .haltDup (hd 1) 0] = [some .malformed, some .noSuch, some .ok]
    ∧ statuses (setDupJob 0 (dupOf .draining none) full) [.haltDup (hd 1) 0] = [some .state]
    ∧ resultsOf (.haltDup (hd 1) 0) full = some (.halted true)
    ∧ resultsOf (.haltDup (hd 1) 0) (setDupJob 0 (dupOf .suspended none) full) = some (.halted false)
    ∧ statuses idle [.setBase (hd 3) 64 0, .setBase (hd 3) 63 0, .setBase (hd 3) 2 4, .setBase (hd 3) 0 9, .setBase (hd 3) 0 2, .setBase (hd 3) 0 4, .setBase (hd 3) 0 0]
      = [some .malformed, some .noSuch, some .noSuch, some .noSuch, some .state, some .ok, some .ok]
    ∧ statuses full [.setBase (hd 3) 0 4] = [some .inUse]
    ∧ (snap (after (.setBase (hd 3) 0 4) based) 4).map Snap.pinCount = some 1 ∧ (snap (after (.setBase (hd 3) 0 4) based) 3).map Snap.pinCount = some 3 :=
  ⟨full_takes rfl, full_takes rfl, full_tables, by decide +kernel⟩

/-- The two priority-3 conditions of section 10.9, one not yet seen, with nine events behind them. -/
def noticed : State :=
  let e (i p : Nat) (sub : NoticeSubject) (c : Content) (seen : Bool) : Entry :=
    { subject := sub, content := c, priority := p, seq := i, age := i, seen := seen }
  { full with nq := { full.nq with
    priorities := [(8, 3), (13, 3)]
    queue := e 0 3 (.volume 12) (.volumeStale true 5 .stale .link 0) false :: e 1 3 (.volume 30) (.reserveOver false 1 1 0 0) true ::
      (List.range 9).map fun i => e (i + 2) 1 (.snapshot (i + 1)) (.snapTaken (i + 1) 12 3 .manual false 0) false
    seq := 11, age := 11, overflow := true, lost := 3 } }

theorem witness_SetNoticeAndFetch : Takes (hd 4) 4 noticed ∧ Takes (hd 2) 2 noticed
    ∧ statuses noticed [.setNotice (hd 4) 0 1 0, .setNotice (hd 4) 14 1 0, .setNotice (hd 4) 1 1 2, .setNotice (hd 4) 1 3 1, .setNotice (hd 4) 13 4 0]
      = [some .malformed, some .malformed, some .malformed, some .ok, some .clamped]
    ∧ NoticeKind.ofCode 1 = some .quotaState ∧ NoticeKind.ofCode 13 = some .volumeStale
    ∧ (after (.setNotice (hd 4) 1 3 1) noticed).nq.express = some .quotaState
    ∧ statuses noticed [.fetchNotices (hd 2) 0, .fetchNotices (hd 2) 1, .fetchNotices (hd 2) 8, .fetchNotices (hd 2) 9]
      = [some .clamped, some .ok, some .ok, some .clamped]
    ∧ ((after (.fetchNotices (hd 2) 8) noticed).nq.queue.map fun e => (e.subject, e.seen))
      = [(.volume 12, true), (.volume 30, true), (.snapshot 8, false), (.snapshot 9, false)]
    ∧ (after (.fetchNotices (hd 2) 8) noticed).nq.lost = 0 :=
  ⟨⟨rfl, rfl, by decide, rfl, rfl⟩, ⟨rfl, rfl, by decide, rfl, rfl⟩, by decide +kernel⟩

/-- No such entry, an event, a condition not seen, one seen and standing, and one seen and fallen. -/
theorem witness_ClearNoticeChecksInOrder :
    let seen := after (.fetchNotices (hd 2) 1) noticed
    Takes (hd 4) 4 noticed
    ∧ statuses noticed [.clearNotice (hd 4) 0 ⟨2, 12⟩, .clearNotice (hd 4) 14 ⟨2, 12⟩, .clearNotice (hd 4) 13 ⟨2, 64⟩, .clearNotice (hd 4) 13 ⟨2, 9⟩,
        .clearNotice (hd 4) 5 ⟨3, 9⟩, .clearNotice (hd 4) 13 ⟨2, 12⟩, .clearNotice (hd 4) 8 ⟨2, 30⟩]
      = [some .malformed, some .malformed, some .malformed, some .noSuch, some .state, some .state, some .ok]
    ∧ statuses seen [.clearNotice (hd 4) 13 ⟨2, 12⟩] = [some .state]
    ∧ (after (.clearNotice (hd 4) 8 ⟨2, 30⟩) noticed).nq.queue.length = 10 :=
  ⟨⟨rfl, rfl, by decide, rfl, rfl⟩, by decide +kernel⟩

/-- Every survey, in range and out of it; they leave the part as it was. -/
theorem witness_SurveysGiveTheState :
    (Takes (hd 0) 0 full ∧ Takes (hd 1) 1 full ∧ Takes (hd 2) 2 full ∧ Takes (hd 3) 3 full ∧ Takes (hd 4) 4 full ∧ Tables full)
    ∧ statuses full [.readWindow (hd 0), .readRetention (hd 0), .readNotices (hd 0), .readLinks (hd 0), .readVolume (hd 4) 63 0 192,
        .readPrincipal (hd 2) 32767, .readGroup (hd 2) 1023, .readSnapshot (hd 2) 4, .listSnapshots (hd 3) 63 0, .listSnapshots (hd 3) 0 4,
        .readRestore (hd 1) 15, .readDup (hd 1) 63] = List.replicate 12 (some .ok)
    ∧ statuses full [.readVolume (hd 4) 64 0 1, .readVolume (hd 4) 0 0 193, .readPrincipal (hd 2) 32768, .readGroup (hd 2) 1024, .readSnapshot (hd 2) 0,
        .listSnapshots (hd 3) 64 0, .readRestore (hd 1) 16, .readDup (hd 1) 64] = List.replicate 8 (some .malformed)
    ∧ statuses full [.readSnapshot (hd 2) 9, .listSnapshots (hd 3) 0 9, .listSnapshots (hd 3) 2 4] = List.replicate 3 (some .noSuch)
    ∧ (resultsOf (.listSnapshots (hd 3) 0 4) full).map (fun r => match r with
        | .snapshots l _ => l.map SnapLine.id
        | _ => []) = some [5, 3, 1] :=
  ⟨⟨full_takes rfl, full_takes rfl, full_takes rfl, full_takes rfl, full_takes rfl, full_tables⟩, by decide +kernel⟩

/-! ### Frames, holds, queue -/

/-- The longest payload; a wrong check; a character with a missing stop bit as the check's last. -/
theorem witness_FramesAreReceivedAsSent :
    let f : RawFrame := ⟨103, 1, []⟩
    (List.replicate 1024 (0#8)).length ≤ 1024 ∧ crc16 f.checked + 1 ≠ crc16 f.checked
    ∧ rxRun .hunting (f.bytes.map RxChar.byte) = (.hunting, [.good f])
    ∧ rxRun .hunting ((f.bytes.dropLast ++ [0]).map RxChar.byte) = (.hunting, [.bad])
    ∧ f.checked ++ leBytes 2 (crc16 f.checked).toNat = f.bytes.tail.dropLast ++ [f.bytes.getLast?.getD 0]
    ∧ rxRun .hunting (f.bytes.dropLast.map RxChar.byte ++ [.missingStop]) = (.hunting, [.bad]) := by decide +kernel

/-- Twelve entries and a thirteenth birth; an id with an older holder, released and failed. -/
theorem witness_HoldsLoseNoBlock :
    let l := (List.range 12).map fun i => (⟨10 + i, 5⟩ : Hold)
    (l.length ≤ 12 ∧ (l.map Hold.birth).Pairwise (· < ·)) ∧ (addHold l ⟨23, 7⟩).length = 12
    ∧ (snap full 5).isSome = true ∧ (olderHolder full 5 { live 5 [⟨4, 20⟩] with keep := true }).map Prod.fst = some 4
    ∧ (snap full 4).map Snap.holds = some [⟨2, 10⟩]
    ∧ (cascade 5 { live 5 [⟨2, 7⟩, ⟨4, 20⟩] with keep := true } false full).2.passed = 7 := by decide +kernel

/-- A step runs the command in front of the queue on the queue's rest. -/
theorem test_step : step (full.withPending [.setSilence (hd 2) 5, .secondEvent]) = exec (.setSilence (hd 2) 5) (full.withPending [.secondEvent]) := rfl

theorem test_idle : step full = .next full := rfl

/-! ### Clauses with premises of their own

What the clauses about notices, the deny table, retention, holds, grants and batches ask for beyond the hypotheses above. A
frame in transmission on the management link keeps the notices in the queue. -/

/-- A state with a frame in transmission on the management link. -/
def busyTx (s : State) : State := { s with lu := { s.lu with mgmtTx := some (.busy 1) } }

/-- The notices that a command leaves in the queue, by subject and kind. -/
def raisedBy (c : Instr) (s : State) : List (NoticeSubject × NoticeKind) :=
  (after c (busyTx s)).nq.queue.map fun e => (e.subject, e.content.kind)

/-- Link 3 UP with volume 2 ATTACHED, and nothing else. -/
def quiet : State :=
  { State.reset with
    pins := { resetHeld := false, mgmtCarrier := true, serverCarrier := [3] }, lu := { State.reset.lu with links := [(3, upLink)] }
    vt := [(2, vol20 3)] }

/-- The line released with server 4 DOWN, and server 7's carrier gained. -/
theorem witness_CarriersGainedSync_notices :
    raisedBy .resetRelease { carried with pins := { carried.pins with resetHeld := true } } = [(.server 4, .linkState)]
    ∧ raisedBy (.carrierGained 7) full = [(.server 7, .linkState)] := by decide +kernel

/-- A link leaving UP with nothing outstanding and nothing denied. -/
theorem witness_CarrierLostTakesTheLinkDown_notices : Tables quiet
    ∧ quiet.sc.toDc = [] ∧ quiet.et.table = [] ∧ (link quiet 3).orders = [] ∧ linkUp quiet 3 = true
    ∧ raisedBy (.carrierLost 3) quiet = [(.volume 2, .volumeStale), (.server 3, .linkState)]
    ∧ raisedBy (.carrierLost 1) full = [(.server 1, .linkState)] :=
  ⟨by constructor <;> decide, by decide +kernel⟩

/-- A DROPPING record of volume 1 with nothing in flight, a denied subject that server 1 has not been told of, an intake that
drains, and an entry that is held. -/
theorem witness_HelloAndResyncBringTheLinkUp_parts :
    let s := setSnap 8 { live 2 [] with volume := 1, state := .dropping } full
    let draining := setIntake 1 { Intake.cold with draining := true } full
    let waiting := setLink 1 { link full 1 with held := some .hello } full
    (linkUp s 1 = false ∧ s.et.table.all (fun e => denyPart e.2 1 = ServerPart.fresh) = true)
    ∧ (snap (after (.hello 1) s) 8).map Snap.inFlight = some (some 2)
    ∧ (link (after (.hello 1) s) 1).orders = [⟨1, .deny⟩, ⟨2, .dropSnap⟩]
    ∧ (tget (after (.resync 1) s).et.table 2).map (fun e => (e.want, denyPart e 1)) = some (.allow, ⟨.confirmed, none, none⟩)
    ∧ raisedBy (.hello 1) { full with et := { full.et with table := [] } } = [(.server 1, .linkState), (.volume 1, .volumeStale)]
    ∧ [draining, waiting].map (fun t => (after (.resync 1) t == t)) = [true, true] := by decide +kernel

/-- Two listed subjects, one with grace to spare; the window's cases at a minute event; and a record over age beside one that is
not. -/
theorem witness_MinuteEventAdvancesTheClock_parts :
    let two := setPrincipal 2 (owner 78 none { acctOf 4000 200 0 with grace := 9, state := .soft })
      { minuteDue with qm := { minuteDue.qm with softList := [.principal 1, .principal 2] } }
    let at_ (w : WindowSet) (p : Option WindowSet) (slot : Option Nat) (m : Nat) : State :=
      { full with cwu := { full.cwu with second := 59, minute := m, settings := w, pendingSet := p, slot := slot, visited := slot.toList } }
    let cold : WindowSet := ⟨1320, 15, 100⟩
    let day : WindowSet := ⟨0, 45, 100⟩
    let slots (s : State) : Option Nat × List Nat × Nat :=
      ((after .minuteEvent s).cwu.slot, (after .minuteEvent s).cwu.visited, (after .minuteEvent s).sc.opensDue)
    let aged : State := { full with
      cwu := { full.cwu with second := 59, partTime := 100 }
      sc := { full.sc with rules := [(0, ⟨true, 0, 0, .hourly, 0, 100⟩)], records := [(3, { live 7 [] with created := 1 }), (4, live 3 [⟨2, 10⟩])] } }
    two.qm.softList.Nodup ∧ two.qm.softList.map (fun x => (acct (after .secondEvent two) x).grace) = [0, 8]
    ∧ [at_ cold none none 600, at_ cold none none 1319, at_ cold none (some 0) 1320, at_ cold none (some 0) 1334,
        at_ cold none (some 31) 359, at_ day none (some 31) 1439, at_ day (some cold) (some 31) 1439].map slots
      = [(none, [], 0), (some 0, [0], 1), (some 0, [0], 0), (some 1, [0, 1], 0), (none, [], 0), (some 0, [0], 1), (none, [], 0)]
    ∧ (after .minuteEvent (at_ day (some cold) (some 31) 1439)).cwu.settings = cold
    ∧ [3, 4].map (fun i => (snap (after .minuteEvent aged) i).map Snap.state) = [some .live, some .dropping] := by
  intro two; exact ⟨by decide, by decide +kernel⟩

/-- R147: the close of a window of the whole day ends the shared condition, so a restore that waits at the limit of 3 is granted
although the open that follows in the same minute event makes the server shared again. -/
theorem test_whole_day_close_grants :
    let s := { full with
      cwu := { full.cwu with second := 59, minute := 1439, settings := ⟨0, 45, 100⟩, slot := some 31, visited := [31], masks := [(0, ⟨1 + 2 ^ 31, none⟩)] }
      cca := { full.cca with servers := [(0, { Credit.cold with free := 1, restore := 3 })], acceptance := [0], openGroups := [0] }
      dc := { full.dc with jobs := [(0, dupOf .shipping none)], openGroups := [0] }
      rsc := { full.rsc with jobs := [(0, jobOf .active [extent none])] } }
    (credit s 0).restore = 3 ∧ (credit (after .minuteEvent s) 0).restore = 4 ∧ (after .minuteEvent s).cwu.openGroups = [0] := by
  decide +kernel

/-- Each WINDOW notice of SET_CLOCK, and none within a slot or at a boundary. -/
theorem witness_SetClockEvaluatesTheWindow_notices :
    let o := { opened with nq := State.reset.nq }
    raisedBy (.setClock (hd 6) 100 1320) full = [(.device, .window)] ∧ raisedBy (.setClock (hd 6) 100 600) full = []
    ∧ [1334, 1335, 360].map (fun m => raisedBy (.setClock (hd 6) 100 (BitVec.ofNat 16 m)) o) = [[], [], [(.device, .window)]] := by decide +kernel

/-- A SOFT subject whose projection is within the horizon. -/
theorem witness_SweepsVisitTheDefinedSubjects_approach :
    let a := { acctOf 648000 40000 48000 with
      band := 2000, grace := 2880, state := .soft, trend := { uPrev := 600000, q := 1600, p := 65535, armed := true } }
    raisedBy .trendVisit (setPrincipal 1 (owner 77 none a) { full with ce := { full.ce with sweep := some ⟨1, 3, 24⟩ } })
      = [(.principal 1, .approach)] := by decide +kernel

/-- A record with another of its frame behind it, and one with none behind it in a draining intake and with some. -/
theorem witness_RecordsDealtWith_frames :
    let q (i : Nat) : QueuedRecord := { queued (rec0 1 255 9 0) false with idx := i, frameLen := 2 }
    let at_ (d : Bool) (l : List QueuedRecord) : State := setIntake 0 { Intake.cold with next := 302, unack := 2, draining := d, queue := l } full
    let t (d : Bool) (l : List QueuedRecord) : State := after (.intakeRecord 0) (at_ d l)
    ((intake (t false [q 0, q 1]) 0).verdicts, (intake (t false [q 0, q 1]) 0).unack) = ([(0, .reassigned)], 2)
    ∧ (link (after (.intakeRecord 0) (t false [q 0, q 1])) 0).txQueue = [.chgAck 300 2 [(0, .reassigned), (1, .reassigned)]]
    ∧ (intake (t true [q 0, q 1]) 0).draining = true ∧ (intake (t true [q 1]) 0).draining = false
    ∧ (link (t true [q 1]) 0).txQueue = [] := by decide +kernel

/-- INTAKE_RECORD at a queue's head: a charge for principal 0 in place of an undefined one, each side of a MOVE too; the group's
amount; a FREE's hold, and a FREE born after the newest holder; and a breach of the principal's own denial, of its group's, and
of neither. -/
theorem witness_TakenRecordsChargeAndMark_command :
    let at_ (r : ChangeRecord) : State := setIntake 0 { Intake.cold with next := 301, unack := 1, queue := [queued r false] } full
    let t (r : ChangeRecord) : State := after (.intakeRecord 0) (at_ r)
    let told : DenyEntry := { want := .deny, parts := [(0, { status := .confirmed, inFlight := none, mark := some 299 })] }
    let denied (k : Nat) : State := let s := at_ (rec0 1 255 1 0); { s with et := { s.et with table := [(k, told)] } }
    [rec0 1 255 9 0, rec0 3 255 1 9, rec0 3 255 9 1].map (fun r => (recordVerdict full r, (t r).book.reassigned)) = List.replicate 3 (none, 1)
    ∧ (principal (t (rec0 1 255 9 0)) 0).acct.usage = 1200 ∧ (principal (t (rec0 3 255 1 9)) 0).acct.usage = 1200
    ∧ (group (t (rec0 1 255 1 0)) 0).acct.usage = 5200
    ∧ (newestHolder full 0).map Prod.fst = some 1 ∧ (snap (t (rec0 2 255 2 0)) 1).map Snap.holds = some [⟨2, 10⟩]
    ∧ (t { rec0 2 255 2 0 with birthEpoch := 9 }).sc.records = full.sc.records ∧ recordVerdict full { rec0 2 255 2 0 with birthEpoch := 9 } = none
    ∧ confirmedDenial (denied 1) (.principal 1) 0 300 = true ∧ confirmedDenial (denied 32768) (.group 0) 0 300 = true
    ∧ [1, 32768, 2].map (fun k => ((principal (after (.intakeRecord 0) (denied k)) 1).breachCount, (after (.intakeRecord 0) (denied k)).et.breachTotal))
      = [(1, 1), (1, 1), (0, 0)] := by decide +kernel

/-- SNAP_DONE with a rule that keeps two: of the releasable HOURLY records the oldest is released. With SNAP_FAIL the notice. -/
theorem witness_SnapshotCompletionsMoveTheRecord_retention :
    let s := { full with sc := { full.sc with
      rules := [(0, ⟨true, 0, 0, .hourly, 2, 0⟩)]
      records := [(1, { live 8 [] with state := .taking, inFlight := some 1 }), (3, live 7 []), (4, live 3 [⟨2, 10⟩])] } }
    [1, 3, 4].map (fun i => (snap (after (.snapDone 0 1) s) i).map Snap.state) = [some .live, some .live, some .dropping]
    ∧ (volume full 0).reserveLimit = 0 ∧ (dupJob { full with dc := { full.dc with jobs := [] } } 0).isNone = true
    ∧ raisedBy (.snapFail 0 1 9) { full with dc := { full.dc with jobs := [] } } = [(.volume 0, .snapFailed)] := by decide +kernel

/-- What a warm restart leaves in the queue, behind the two records that the pressure test releases at the unpins: the STALE
volumes, the backlog, the flag and the aborted jobs. -/
theorem witness_WarmRestart_notices :
    let s := setVolume 0 { volume full 0 with reserveLimit := 1 } { full with
      lu := { full.lu with restart := .due }, et := { full.et with table := [], backlog := [.group 1] }, sc := { full.sc with reserveOver := [0] } }
    (s.nq.queue = [] ∧ s.nq.slot = none ∧ s.nq.express = none) ∧ (after .warmRestart s).nq.overflow = false
    ∧ (raisedBy .warmRestart s).drop 2 = [(.volume 0, .volumeStale), (.volume 1, .volumeStale), (.volume 2, .volumeStale), (.device, .enforceBacklog),
        (.volume 0, .reserveOver), (.job 0, .restoreDone), (.job 1, .restoreDone), (.job 2, .restoreDone), (.volume 0, .dupState)]
    ∧ reserveFlag (after .warmRestart s) 0 = true ∧ (after .warmRestart s).et.backlog.length = 1 := by decide +kernel

/-- A limit below what the holds of a volume with nothing to release come to; a limit above it under a flag; and a detach and an
attach of a volume whose server's link is not UP. -/
theorem witness_VolumeRequests_notices :
    let s := { full with sc := { full.sc with records := [(5, { live 5 [⟨4, 30⟩] with keep := true })] } }
    let limit (n : Nat) : Instr := .setVolume (hd 16) 0 ⟨0, 0⟩ ⟨1, BitVec.ofNat 64 n⟩ ⟨0, 0⟩ ⟨0, 0⟩
    (∀ e ∈ s.sc.records, e.2.volume = 0 → e.2.releasable = false)
    ∧ raisedBy (limit 29) s = [(.volume 0, .reserveOver)] ∧ raisedBy (limit 30) s = []
    ∧ raisedBy (limit 30) { s with sc := { s.sc with reserveOver := [0] } } = [(.volume 0, .reserveOver)]
    ∧ raisedBy (.detachVolume (hd 1) 1) full = [(.volume 1, .volumeStale)]
    ∧ raisedBy (.attachVolume (hd 11) 63 7 4096 16) full = [(.volume 63, .volumeStale)] := by decide +kernel

/-- A dropped principal in principal 0's group; one whose entry comes to want ALLOW, with a server UP and with none. -/
theorem witness_DropSubjects_shared :
    let s := setPrincipal 0 { Principal.zeroCold with group := some 0, acct := acctOf 1000 0 0 } { full with rsc := { full.rsc with jobs := [] } }
    let t := after (.dropPrincipal (hd 2) 1) s
    let none_ := after (.dropPrincipal (hd 2) 1) { s with lu := { s.lu with links := [] } }
    (principal s 1).group = (principal s 0).group ∧ (group t 0).acct.usage = 5000 ∧ s.et.backlog = []
    ∧ (tget t.et.table 1).map (fun e => (e.want, denyPart e 0, denyPart e 3))
      = some (.allow, ⟨.notSent, some ⟨5, .deny⟩, none⟩, ⟨.sent, some ⟨1, .allow⟩, none⟩)
    ∧ tget none_.et.table 1 = none := by decide +kernel

/-- A subject blocked with and without an entry, and in a full table; unblocked from a place in the backlog and from an entry. -/
theorem witness_LimitsAndGraceAreEvaluated_enforcement :
    let low : Instr := .setLimits (hd 23) ⟨5, 2⟩ 5 10 0
    let high : Instr := .setLimits (hd 23) ⟨5, 2⟩ 0 0 0
    let blank := { full with et := { full.et with table := [] } }
    let packed_ := { full with et := { full.et with table := (List.range 4096).map fun k => (k + 10, { want := .deny, parts := [] }) } }
    let hard := setPrincipal 2 (owner 78 none { acctOf 500 5 10 with state := .hard }) full
    let queued_ := { hard with et := { hard.et with backlog := [.principal 2], table := [] } }
    [full, blank].map (fun s => (tget (after low s).et.table 2).map DenyEntry.want) = [some .deny, some .deny]
    ∧ (link (after low blank) 3).orders = [⟨1, .deny⟩] ∧ raisedBy low blank = [(.principal 2, .quotaState)]
    ∧ ((after low packed_).et.backlog, raisedBy low packed_) = ([.principal 2], [(.device, .enforceBacklog), (.principal 2, .quotaState)])
    ∧ ((after high queued_).et.backlog, raisedBy high queued_) = ([], [(.device, .enforceBacklog), (.principal 2, .quotaState)])
    ∧ (tget (after high hard).et.table 2).map DenyEntry.want = some .allow
    ∧ raisedBy (.grantGrace (hd 7) ⟨5, 2⟩ 5) (setPrincipal 2 (owner 78 none { acctOf 500 5 0 with state := .spent }) full)
      = [(.principal 2, .quotaState)] := by decide +kernel

/-- The first id that is free from the counter on: past 65,535 it is 1 again, or the next that no record holds. -/
theorem witness_TakeSnapshot_ids :
    [6, 3, 65535, 0].map (fun n => resultsOf (.takeSnapshot (hd 3) 0 3 1) { full with sc := { full.sc with nextId := n } })
      = [6, 6, 65535, 6].map fun i => some (.taken i 9) := by decide +kernel

/-- Holds of births 3 and 4 in a record whose older holder has epoch 3, and a record with no older holder. -/
theorem witness_ReleaseKeepAndRetention_passes :
    let s := setSnap 5 { live 5 [⟨3, 20⟩, ⟨4, 5⟩] with volume := 0 } full
    resultsOf (.releaseSnapshot (hd 2) 5) s = some (.released 20 5)
    ∧ (snap (after (.releaseSnapshot (hd 2) 5) s) 4).map Snap.holds = some [⟨2, 10⟩, ⟨3, 20⟩]
    ∧ resultsOf (.releaseSnapshot (hd 2) 4) full = some (.released 0 10)
    ∧ raisedBy (.releaseSnapshot (hd 2) 4) full = [(.snapshot 4, .snapReleased)] := by decide +kernel

/-- START_RESTORE of snapshot 4 at server 0: no free credit, the shared limit of 3 and the limit of 4; one credit with no candidate,
with one of lower and with one of equal priority. And a count of 65,536. -/
theorem witness_StartAndCancelRestore_grants :
    let start (n : Nat) : Instr := .startRestore (hd 27) 4 2 1 1 1 [⟨0, BitVec.ofNat 32 n, 0⟩]
    let shipping : Dc := { full.dc with jobs := [(0, dupOf .shipping (some ⟨[0], 4, 1⟩))] }
    let at_ (free used : Nat) (jobs : Tab RestoreJob) (dc : Dc) (open_ : List Nat) : State :=
      { full with
        cca := { full.cca with servers := [(0, { Credit.cold with free := free, restore := used })], acceptance := jobs.map Prod.fst, openGroups := open_ }
        rsc := { full.rsc with jobs := jobs }, dc := dc }
    let other (p : Nat) : Tab RestoreJob := [(5, { jobOf .active [extent none] with priority := p })]
    let got (s : State) : Option (List ExtStatus) := (restoreJob (after (start 1) s) 0).map fun j => j.extents.map Extent.status
    [at_ 0 3 [] full.dc [], at_ 1 3 [] shipping [0], at_ 1 3 [] shipping [], at_ 1 4 [] full.dc [], at_ 1 0 [] full.dc [],
        at_ 1 0 (other 0) full.dc [], at_ 1 0 (other 1) full.dc []].map got
      = [[.pending], [.pending], [.ordered], [.pending], [.ordered], [.ordered], [.pending]].map some
    ∧ (restoreJob (after (start 1) (at_ 1 0 (other 1) full.dc [])) 5).map (fun j => j.extents.map Extent.status) = some [.ordered]
    ∧ statuses full [start 65535, start 65536] = [some .malformed, some .malformed]
    ∧ statuses (setVolume 0 { volume full 0 with size := 70000 } full) [start 65535, start 65536] = [some .ok, some .malformed]
    ∧ (.job 1, NoticeKind.restoreDone) ∈ raisedBy (.cancelRestore (hd 1) 1) full := by decide +kernel

/-- START_DUP with a free credit in an open group: a batch within the budget, one region that costs more than a whole untouched
slot, none in a budget already drawn on, none in a closed group; while the window is CLOSED, and a HALT_DUP, their notices. -/
theorem witness_DuplicationRequests_batches :
    let at_ (rem full_ : Nat) (groups : List Nat) : State :=
      let s := setVolume 0 { volume full 0 with regionBlocks := 1024, marks := [(0, 8), (2, 4), (5, 1)] } full
      { s with
        cwu := { s.cwu with slot := some 0, visited := [0] }, cca := { s.cca with servers := [(0, { Credit.cold with free := 1 })], acceptance := [], openGroups := groups }
        rsc := { s.rsc with jobs := [] }, dc := { s.dc with jobs := [], remaining := rem, full := full_, openGroups := groups } }
    let got (s : State) : Option (List Nat × Nat) := let t := after (.startDup (hd 1) 0) s
      ((dupJob t 0).bind DupJob.batch).map fun b => (b.regions, t.dc.remaining)
    restoreCandidates (at_ 9 9 [0]) 0 = []
    ∧ [at_ 9 9 [0], at_ 3 3 [0], at_ 3 4 [0], at_ 9 9 [1]].map got = [some ([0, 2], 1), some ([0], 0), none, none]
    ∧ raisedBy (.startDup (hd 1) 0) { full with dc := { full.dc with jobs := [] } } = [(.volume 0, .dupState)]
    ∧ raisedBy (.haltDup (hd 1) 0) (setDupJob 0 (dupOf .suspended none) full) = [(.volume 0, .dupState)] := by decide +kernel

/-- A snapshot notice, by the number of its snapshot. -/
def taken (i : Nat) : Notice := ⟨.snapshot i, .snapTaken i 0 1 .manual false 0⟩

/-- Entries of snapshots in order, from age 0 on. -/
def entries (l : List Nat) (p : Nat) : List Entry :=
  l.zipIdx.map fun x => { subject := .snapshot x.1, content := (taken x.1).content, priority := p, seq := x.2, age := x.2, seen := false }

/-- A queue with a frame in transmission, its kind of highest priority WINDOW. -/
def arriving (q : List Entry) (ex : Option NoticeKind) (slot : Option SlotNotice) : State :=
  busyTx { State.reset with nq := { State.reset.nq with
    priorities := [(6, 1)], queue := q, express := ex, slot := slot, seq := 200, age := 200 } }

/-- A notice arrives: into its pair's entry, behind all others, in a full queue over a lower one or not at all; in the slot when it
is empty, over its pair, or in place of another that goes to the queue. -/
theorem witness_ClearNoticeChecksInOrder_arrivals :
    let w : Notice := ⟨.device, .window true 0 0 0 .minute⟩
    let full_ := entries (List.range 128) 1
    let queue (n : Notice) (s : State) : List NoticeSubject := (raise n s).nq.queue.map Entry.subject
    let slot (n : Notice) (s : State) : Option NoticeSubject := (raise n s).nq.slot.map SlotNotice.subject
    queue (taken 2) (arriving (entries [1, 2, 3] 1) none none) = [.snapshot 1, .snapshot 2, .snapshot 3]
    ∧ queue (taken 4) (arriving (entries [1, 2] 1) none none) = [.snapshot 1, .snapshot 2, .snapshot 4]
    ∧ (queue w (arriving full_ none none), (raise w (arriving full_ none none)).nq.lost) = ((List.range 128).map .snapshot, 1)
    ∧ queue w (arriving (entries (List.range 128) 0) none none) = (List.range 127).map (fun i => .snapshot (i + 1)) ++ [.device]
    ∧ slot (taken 4) (arriving [] (some .snapTaken) none) = some (.snapshot 4)
    ∧ slot (taken 4) (arriving [] (some .snapTaken) (some ⟨.snapshot 4, (taken 4).content, 7, 7⟩)) = some (.snapshot 4)
    ∧ (let s := arriving (entries [1, 2] 1) (some .snapTaken) (some ⟨.snapshot 9, (taken 9).content, 7, 7⟩)
       slot (taken 4) s = some (.snapshot 4) ∧ queue (taken 4) s = [.snapshot 1, .snapshot 2, .snapshot 9])
    ∧ (let s := arriving full_ (some .snapTaken) (some ⟨.snapshot 999, (taken 999).content, 150, 150⟩)
       (raise (taken 998) s).nq.queue = full_ ∧ (raise (taken 998) s).nq.lost = 1)
    ∧ (raise (taken 4) { arriving [] (some .snapTaken) none with lu := State.reset.lu }).lu.mgmtTx
      = some (.express ⟨.snapshot 4, (taken 4).content, 200, 200⟩) := by decide +kernel

/-- Such a queue meets the queue's invariant. -/
theorem arriving_inv : NoticeInv (arriving (entries (List.range 128) 1) (some .snapTaken) (some ⟨.snapshot 999, (taken 999).content, 150, 150⟩)) where
  length := by decide +kernel
  pairs := by decide +kernel
  ages := by decide +kernel
  young := by decide +kernel
  priority := by decide +kernel
  priorities := fun k => by cases k <;> decide
  seen := by decide +kernel
  slot := fun m h => by cases h; decide +kernel
  counts := by decide

/-- A bad frame on a SYNCING and on a FAULTED link, and during a warm restart. -/
theorem witness_UntakenFramesAreDiscarded_bad :
    let bad (srv : ServerId) : Instr := .serverBadFrame srv [.byte 0xC3, .missingStop]
    let restarting := { full with lu := { full.lu with restart := .inProgress } }
    serverReceives full 1 = true ∧ ((rxRun .hunting [.byte 0xC3, .missingStop]).2.all fun e => !e.isGood) = true
    ∧ [(1 : ServerId), 2].map (fun k => (after (bad k) full == full)) = [true, true] ∧ after (bad 3) restarting = restarting := by decide +kernel

/-- Link 3 has transmitted since the last second event, link 0 has not. -/
theorem witness_SecondEventSupervisesSilence_idle :
    let s := setLink 3 { upLink with sentSince := true } full
    let t := after .secondEvent s
    [(0 : Nat), 3].map (fun k => ((link t k).txQueue.count .idle, (link t k).sentSince)) = [(1, false), (0, false)] := by decide +kernel

/-- The list waits while a warm restart is in progress. -/
theorem witness_NightlyListMakesJobs_restart :
    let s := { full with lu := { full.lu with restart := .inProgress }, sc := { full.sc with toDc := [.list [⟨2, .ok 4⟩]] } }
    after .dupNightlyList s = s ∧ (dupJob (after .warmRestartEnd s) 2).isNone = true
    ∧ (dupJob (after .dupNightlyList (after .warmRestartEnd s)) 2).isSome = true := by decide +kernel

/-- Volume 0's job waits for snapshot 1, whose SNAP is order 1: the window CLOSED, OPEN with regions to ship and with none, and
SNAP_FAIL; and a job that waits for another snapshot. -/
theorem witness_SnapshotCompletionsMoveTheRecord_jobs :
    let at_ (j : DupJob) (slot : Option Nat) : State := setDupJob 0 j { full with cwu := { full.cwu with slot := slot } }
    let wait : DupJob := { dupOf .waitingSnapshot none with target := 1, targetEpoch := 8 }
    let job (c : Instr) (s : State) : Option DupState := (dupJob (after c s) 0).map DupJob.state
    full.sc.toDc = [] ∧ shipSet (volume full 0) 0 1 = [2] ∧ shipSet (volume full 0) 0 3 = []
    ∧ job (.snapDone 0 1) (at_ wait none) = some .suspended ∧ job (.snapDone 0 1) (at_ wait (some 0)) = some .shipping
    ∧ job (.snapDone 0 1) (at_ { wait with cursor := 3 } (some 0)) = none
    ∧ (volume (after (.snapDone 0 1) (at_ { wait with cursor := 3 } (some 0))) 0).offsiteBase = some 1
    ∧ job (.snapDone 0 1) (at_ { wait with target := 3 } (some 0)) = some .waitingSnapshot
    ∧ (tget (after (.snapFail 0 1 9) (at_ wait none)).dc.lastEnd 0).map DupEnd.reason = some .noTarget
    ∧ job (.snapFail 0 1 9) (at_ { wait with target := 3 } none) = some .waitingSnapshot := by decide +kernel

/-- The credit of order 3 and of order 4 with nothing to grant it to. -/
theorem witness_CompletionsReturnTheCredit :
    let s := { full with rsc := { full.rsc with jobs := [(0, jobOf .active [extent (some 3)])] } }
    let c (i : Instr) : Credit := credit (after i s) 0
    ((credit s 0).free, (credit s 0).restore, (credit s 0).ship) = (2, 1, 1)
    ∧ [Instr.copyDone 0 3, .copyFail 0 3 2, .shipDone 0 4, .shipFail 0 4 5].map (fun i => ((c i).free, (c i).restore, (c i).ship))
      = [(3, 0, 1), (3, 0, 1), (3, 1, 0), (3, 1, 0)] := by decide +kernel

/-- R100 at the release points and the limits: HARD at exactly RH stays, below it goes; load 0 releases; no limit, no test. -/
theorem test_comparator :
    let a (u soft hard grace : Nat) (st : QuotaState) : Account :=
      { acctOf u soft hard with band := 2, grace := grace, state := st }
    [a 160 5 10 9 .under, a 128 5 10 9 .hard, a 127 5 10 9 .hard, a 127 5 10 0 .hard, a 47 5 10 9 .hard, a 0 1 1 9 .hard].map nextState
      = [.hard, .hard, .soft, .spent, .under, .under]
    ∧ [a 80 5 10 9 .under, a 80 5 10 0 .under, a 79 5 10 0 .under, a 48 5 10 0 .soft, a 47 5 10 9 .spent, a 9999 0 0 0 .under].map nextState
      = [.soft, .spent, .under, .spent, .under, .under] := by decide +kernel

/-- What becomes of restore job 0, whose one extent is ordered as 3 on link 0, when the link leaves UP. -/
def copyLost (st : JobState) (retry : Bool) : Option (List (ExtStatus × ExtReason)) × Option RestoreOutcome :=
  let t := after (.carrierLost 0) { full with rsc := { full.rsc with jobs := [(0, jobOf st [{ extent (some 3) with retry := retry }])] } }
  ((restoreJob t 0).map fun j => j.extents.map fun x => (x.status, x.reason), (tget t.rsc.lastEnd 0).map RestoreEnd.outcome)

/-- What becomes of volume 0's duplication job, whose batch of region 0 is order 4 on link 0, when the link leaves UP. -/
def shipLost (st : DupState) (retry : Nat) : Option (Nat × Nat × DupFailure) × Option DupReason :=
  let t := after (.carrierLost 0) (setDupJob 0 { dupOf st (some ⟨[0], 4, 1⟩) with retry := retry } full)
  ((dupJob t 0).map fun j => (j.cursor, j.retry, j.lastFailure), (tget t.dc.lastEnd 0).map DupEnd.reason)

/-- `full` with volume 0's job waiting for snapshot 1, whose SNAP is order 1. -/
def waits : State := setDupJob 0 { dupOf .waitingSnapshot none with target := 1 } full

/-- Link 0 leaves UP with its orders failed back: an extent with its retry flag clear and one with it set, of an ACTIVE and of a
DRAINING job; a batch at its first failure, at its third and of a DRAINING job. -/
theorem witness_OrdersFailedBack :
    ((link full 0).orders.map Order.kind = [.snap, .dropSnap, .copy, .ship, .deny, .allow] ∧ linkUp full 0 = true)
    ∧ [copyLost .active false, copyLost .active true, copyLost .draining false, copyLost .draining true]
      = [(some [(.pending, .none)], none), (none, some .failed), (none, some .cancelled), (none, some .cancelled)]
    ∧ [shipLost .shipping 0, shipLost .suspended 2, shipLost .draining 0]
      = [(some (0, 1, .link), none), (none, some .failed), (none, some .halted)] := by decide +kernel

/-- And a TAKING record that a job waits for, and a DROPPING record. -/
theorem witness_OrdersFailedBack_records :
    ([true, false].map (fun k => (snapInFlight full 0 1 k).map Prod.fst) = [some 1, none]
      ∧ [true, false].map (fun k => (snapInFlight full 0 2 k).map Prod.fst) = [none, some 2])
    ∧ (waits.sc.toDc = [] ∧ (snap (after (.carrierLost 0) waits) 1).isNone = true
      ∧ (tget (after (.carrierLost 0) waits).dc.lastEnd 0).map DupEnd.reason = some .noTarget)
    ∧ (snap (after (.carrierLost 0) full) 2).map (fun x => (x.state, x.inFlight)) = some (.dropping, none)
    ∧ (raisedBy (.carrierLost 0) full).contains (.volume 0, .snapFailed) = true := by decide +kernel

/-- The LINK_STATE of each way out of UP with nothing outstanding: the notices of a fault, of the only link at the silence limit, of
a sequence fault and of an overrun; of a re-entry at once, of one that is held, and of its end. -/
theorem witness_LeavingNoticed :
    let faulted := [(NoticeSubject.volume 2, NoticeKind.volumeStale), (.server 3, .linkState)]
    let atLimit := setLink 3 { link quiet 3 with silence := 9 } quiet
    let nearly := setIntake 3 { Intake.cold with unack := 64 } quiet
    let draining := setIntake 3 { Intake.cold with next := 301, unack := 1, queue := [queued { rec0 1 255 1 0 with volume := 2 } false] } quiet
    let drained := after (.intakeRecord 3) (after (.resync 3) draining)
    [raisedBy (.serverBadFrame 3 [.byte 0xC3, .missingStop]) quiet, raisedBy (.serverUnusableFrame 3 1 0 1) quiet, raisedBy .secondEvent atLimit,
      raisedBy (.changes 3 100 [rec0 1 255 1 0]) quiet, raisedBy (.changes 3 0 [rec0 1 255 1 0]) nearly, raisedBy (.hello 3) quiet]
      = List.replicate 6 faulted
    ∧ raisedBy (.resync 3) draining = [(.volume 2, .volumeStale)]
    ∧ ((link drained 3).held = some .resync ∧ (intake drained 3).draining = false)
    ∧ raisedBy (.reEnterUp 3) { drained with nq := State.reset.nq } = [(.server 3, .linkState), (.volume 2, .volumeStale)] := by decide +kernel

/-- A charge that takes its principal over the soft limit, one that takes the group over, a FREE that brings the principal back
under, and a MOVE that does both; each subject that changes has its QUOTA_STATE. -/
theorem witness_TakenRecordsChargeAndMark_evaluation :
    let base := { full with et := State.reset.et }
    let at_ (a b g : Account) (r : ChangeRecord) : State :=
      setIntake 0 { Intake.cold with next := 301, unack := 1, queue := [queued r false] }
        (setPrincipal 1 (owner 77 (some 0) a) (setPrincipal 2 (owner 78 none b) (setGroupRec 0 { group full 0 with acct := g } base)))
    let low := acctOf 3100 200 400
    let high := { acctOf 3300 200 400 with state := .spent }
    let free := acctOf 5000 0 0
    let s1 := at_ low low free (rec0 1 255 1 0)
    let s2 := at_ free low { acctOf 3100 200 400 with grace := 5 } (rec0 1 255 1 0)
    let s3 := at_ high low free (rec0 2 255 1 0)
    let s4 := at_ high low free (rec0 3 255 1 2)
    let states (s : State) : List QuotaState := [.principal 1, .group 0, .principal 2].map fun x => (acct (after (.intakeRecord 0) s) x).state
    [s1, s2, s3, s4].map states = [[.spent, .under, .under], [.under, .soft, .under], [.under, .under, .under], [.under, .under, .spent]]
    ∧ [s1, s2, s4].map (raisedBy (.intakeRecord 0))
      = [[(.principal 1, .quotaState)], [(.group 0, .quotaState)], [(.principal 1, .quotaState), (.principal 2, .quotaState)]]
    ∧ (after (.intakeRecord 0) s2).qm.softList = [.group 0]
    ∧ (tget (after (.intakeRecord 0) s1).et.table 1).map DenyEntry.want = some .deny
    ∧ (s1.et.backlog = [] ∧ s1.et.table.length ≤ 4092) := by decide +kernel

/-- R73 at a usage of 2^44 − 1: an addition adds 0 and is SATURATED, one of 0 too, and one that reaches the top exactly is not. -/
theorem test_saturated_at_the_top :
    [(2 ^ 44 - 1, 160), (2 ^ 44 - 1, 0), (2 ^ 44 - 161, 160), (0, 0)].map (fun (u, c) => (addedAmount u c, (addOutcome u c).saturated))
      = [(0, true), (0, true), (160, false), (0, false)] := by decide

/-- The contents of the notices that a command leaves in the queue. -/
def contentsOf (c : Instr) (s : State) : List Content := (after c (busyTx s)).nq.queue.map Entry.content

/-- Volume 30 and its records S1 to S4, at ids 11 to 14, of section 7.13. -/
def pressed : State :=
  let r (e : Nat) (pins : Nat) (holds : List Hold) : Snap := { live e holds with volume := 30, pinCount := pins }
  setVolume 30 { vol20 0 with size := 1048576, regionBlocks := 65536, regionCount := 16, epoch := 12, reserveLimit := 50000, heldTotal := 49000 } { full with
    sc := { full.sc with
      records := [(11, { r 4 1 [⟨2, 20000⟩] with kind := .nightly }), (12, r 7 0 [⟨5, 15000⟩]), (13, r 9 1 [⟨8, 10000⟩]), (14, r 11 0 [⟨10, 4000⟩])] } }

/-- A FREE on volume 30 at the head of intake 0. -/
def freeing (n birth : Nat) (s : State) : State :=
  setIntake 0 { Intake.cold with
    next := 301, unack := 1
    queue := [queued { rec0 2 255 2 0 with volume := 30, count := BitVec.ofNat 32 n, birthEpoch := BitVec.ofNat 32 birth } false] } s

/-- Section 7.13's three FREEs: the pressure releases, the holds and heldTotal after each, and the notices. -/
theorem witness_PressureReleases :
    let s2 := after (.intakeRecord 0) (freeing 3000 6 pressed)
    let s3 := after (.intakeRecord 0) (freeing 15000 1 s2)
    let s4 := after (.intakeRecord 0) (freeing 5000 1 s3)
    let holds (s : State) : List (Option (List Hold)) := [11, 13, 14].map fun i => (snap s i).map Snap.holds
    [pressed, s2, s3].map (fun s => (newestHolder s 30).map Prod.fst) = [some 14, some 14, some 13]
    ∧ [s2, s3, s4].map (fun s => (volume s 30).heldTotal) = [37000, 48000, 53000]
    ∧ [s2, s3, s4].map holds = [
      [some [⟨2, 20000⟩], some [⟨8, 10000⟩], some [⟨6, 3000⟩, ⟨10, 4000⟩]],
      [some [⟨2, 20000⟩], some [⟨1, 15000⟩, ⟨6, 3000⟩, ⟨8, 10000⟩], some []],
      [some [⟨2, 20000⟩], some [⟨1, 20000⟩, ⟨6, 3000⟩, ⟨8, 10000⟩], some []]]
    ∧ contentsOf (.intakeRecord 0) (freeing 3000 6 pressed) = [.snapReleased 12 30 7 .hourly .pressure 0 15000 37000 0]
    ∧ contentsOf (.intakeRecord 0) (freeing 15000 1 { s2 with nq := State.reset.nq }) = [.snapReleased 14 30 11 .hourly .pressure 18000 4000 48000 0]
    ∧ contentsOf (.intakeRecord 0) (freeing 5000 1 { s3 with nq := State.reset.nq }) = [.reserveOver true 53000 50000 2 0] := by decide +kernel

theorem pressed_tables : Tables pressed := by constructor <;> decide +kernel

/-- Section 7.13's volume, with a limit that one release meets, one that both do not, and keep turned off on S4 over the limit; and
a set flag that falls with the release. -/
theorem witness_PressureReleases_requests :
    let limit (n : Nat) : Instr := .setVolume (hd 16) 30 ⟨0, 0⟩ ⟨1, BitVec.ofNat 64 n⟩ ⟨0, 0⟩ ⟨0, 0⟩
    let kept := setSnap 12 { live 7 [⟨5, 15000⟩] with volume := 30, keep := true }
      (setSnap 14 { live 11 [⟨10, 4000⟩] with volume := 30, keep := true }
        (setVolume 30 { volume pressed 30 with reserveLimit := 48000 } { pressed with sc := { pressed.sc with reserveOver := [30] } }))
    Takes (hd 16) 16 pressed ∧ Takes (hd 3) 3 pressed
    ∧ contentsOf (limit 34000) pressed = [.snapReleased 12 30 7 .hourly .pressure 0 15000 34000 0]
    ∧ contentsOf (limit 29999) pressed = [.snapReleased 12 30 7 .hourly .pressure 0 15000 34000 0,
        .snapReleased 14 30 11 .hourly .pressure 0 4000 30000 0, .reserveOver true 30000 29999 2 0]
    ∧ contentsOf (limit 49000) pressed = []
    ∧ contentsOf (.setKeep (hd 3) 14 0) kept
      = [.reserveOver false 45000 48000 3 0, .snapReleased 14 30 11 .hourly .pressure 0 4000 45000 0] :=
  ⟨⟨rfl, rfl, by decide, rfl, rfl⟩, ⟨rfl, rfl, by decide, rfl, rfl⟩, by decide +kernel⟩

/-- The budget with nothing to ship: the whole of it at an open and at a boundary into a new slot, what remained at one into a
visited slot, within a slot and at a close. -/
theorem witness_WindowBudget :
    let drawn (visited : List Nat) : State := { opened with cwu := { opened.cwu with visited := visited }, dc := { opened.dc with remaining := 7 } }
    let left (m : Nat) (s : State) : Nat × Nat :=
      let t := after (.setClock (hd 6) 100 (BitVec.ofNat 16 m)) s
      (t.dc.full, t.dc.remaining)
    [full, opened].map (fun s => s.dc.jobs.map fun e => (e.1, e.2.batch.isSome)) = [[(0, true)], [(0, true)]]
    ∧ left 1320 full = (1500, 1500)
    ∧ [left 1335 (drawn [0]), left 1335 (drawn [0, 1]), left 1334 (drawn [0]), left 360 (drawn [0])]
      = [(1500, 1500), (1500, 7), (1500, 7), (1500, 7)] := by decide +kernel

/-- And at minute events: outside the window, at its open, within a slot and at its close. -/
theorem witness_WindowBudget_minute :
    let at_ (slot : Option Nat) (m : Nat) : State := { minuteDue with
      cwu := { minuteDue.cwu with minute := m, settings := ⟨1320, 15, 100⟩, slot := slot, visited := slot.toList }, dc := { minuteDue.dc with full := 1500, remaining := 7 } }
    minuteDue.dc.jobs = full.dc.jobs
    ∧ [at_ none 600, at_ none 1319, at_ (some 0) 1320, at_ (some 0) 1334, at_ (some 31) 359].map (fun s => (after .minuteEvent s).dc.remaining)
      = [7, 1500, 7, 1500, 7] := by decide +kernel

theorem minuteDue_tables : Tables minuteDue := by constructor <;> decide +kernel

/-- With the transmit side idle: a LINK_STATE at the release of the line waits in the queue, or starts at once when it is express. -/
theorem witness_NoticesWithTheTransmitSideIdle :
    let s (ex : Option NoticeKind) : State :=
      { carried with pins := { carried.pins with resetHeld := true }, nq := { carried.nq with express := ex } }
    let t (ex : Option NoticeKind) : State := after .resetRelease (s ex)
    let gained : Content := .linkState .down .syncing .carrierGained 0
    ((s none).lu.mgmtTx.isNone ∧ (s none).nq.slot.isNone)
    ∧ ((t none).lu.mgmtTx, (t none).nq.queue.map Entry.content) = (none, [gained])
    ∧ ((t (some .linkState)).lu.mgmtTx, (t (some .linkState)).nq.queue) = (some (.express ⟨.server 4, gained, 0, 0⟩), []) := by
  decide +kernel

/-- The notices of a minute event: a window that opens, one that closes, one of the whole day, a grace that is spent, and the only
link at the silence limit. -/
theorem witness_MinuteEventAdvancesTheClock_notices :
    let at_ (slot : Option Nat) (m len : Nat) : State := { quiet with cwu := { quiet.cwu with
      second := 59, minute := m, settings := ⟨if len = 45 then 0 else 1320, len, 100⟩, slot := slot, visited := slot.toList } }
    let atLimit (n : Nat) : State := setLink 3 { upLink with silence := n } (at_ none 600 15)
    (quiet.qm.softList = [] ∧ (List.range 8).all (fun n => !(rule quiet n).valid) = true ∧ quiet.dc.jobs = [])
    ∧ [at_ none 1319 15, at_ (some 31) 359 15, at_ (some 0) 1320 15, at_ (some 0) 1334 15, at_ (some 31) 1439 45].map (contentsOf .minuteEvent)
      = [[.window true 0 1320 1 .minute], [.window false 31 360 1 .minute], [], [], [.window true 0 0 1 .minute]]
    ∧ contentsOf .secondEvent { minuteDue with nq := State.reset.nq } = [.quotaState (.principal 1) .soft .spent 4000 3200 0 0 .graceExpired 1, .window true 8 0 1 .minute]
    ∧ contentsOf .secondEvent (atLimit 9) = [.volumeStale true 3 .stale .link 1, .linkState .up .faulted .silence 1]
    ∧ (contentsOf .secondEvent (atLimit 8), (link (after .secondEvent (atLimit 8)) 3).silence) = ([], 9)
    ∧ after (.silenceLimitReached 3) (atLimit 9) = after .secondEvent (atLimit 9) := by decide +kernel

/-- The DUP_STATE of each end at a completion of order 4, and of each item of a nightly list. -/
theorem witness_DupStateNotices :
    let at_ (st : DupState) (cursor retry : Nat) : State :=
      setDupJob 0 { dupOf st (some ⟨[0], 4, 1⟩) with cursor := cursor, retry := retry } full
    let states (c : Instr) (s : State) : List Content := (contentsOf c s).filter fun x => x.kind = .dupState
    let items (l : List NightlyItem) : State := { full with dc := { full.dc with jobs := [] }, sc := { full.sc with toDc := [.list l] } }
    [at_ .draining 1 0, at_ .shipping 3 0, at_ .suspended 1 0].map (states (.shipDone 0 4))
      = [[.dupState .halted .host 3 7 0 0 1 1 1 0 .none 0], [.dupState .complete .none 3 7 0 7 1 1 1 0 .none 0], []]
    ∧ [at_ .draining 1 0, at_ .shipping 1 2, at_ .suspended 1 0].map (states (.shipFail 0 4 5))
      = [[.dupState .halted .host 3 7 0 0 0 0 0 1 (.server 5) 0], [.dupState .failed .none 3 7 0 0 0 0 0 1 (.server 5) 0], []]
    ∧ ([.ok 3, .ok 2, .error .stale, .error .full, .error .epoch] : List (Except SnapFailReason Nat)).map (fun r => states .dupNightlyList (items [⟨0, r⟩]))
      = [[.dupState .created .none 3 7 0 0 0 0 0 0 .none 0], [.dupState .noTarget .pinRefused 0 0 0 0 0 0 0 0 .none 0],
        [.dupState .noTarget .stale 0 0 0 0 0 0 0 0 .none 0], [.dupState .noTarget .full 0 0 0 0 0 0 0 0 .none 0],
        [.dupState .noTarget .epoch 0 0 0 0 0 0 0 0 .none 0]] := by decide +kernel

/-- The userNumber in a DENY of a principal and of a group, in the ALLOW of a dropped principal and of the entry that waits, and in the DENY that a link
entering UP resends (R105). -/
theorem witness_OrdersCarryTheUserNumber :
    let blank := { full with et := State.reset.et, rsc := { full.rsc with jobs := [] } }
    let sent (c : Instr) (s : State) (srv : Nat) : List TxFrame := (link (after c s) srv).txQueue
    sent (.setLimits (hd 23) ⟨5, 2⟩ 5 10 0) blank 3 = [.order 1 (.deny (.principal 2) 78)]
    ∧ sent (.setLimits (hd 23) ⟨6, 0⟩ 5 10 0) blank 3 = [.order 1 (.deny (.group 0) 0)]
    ∧ sent (.dropPrincipal (hd 2) 1) { blank with et := full.et } 3 = [.order 1 (.allow (.principal 1) 77), .order 2 (.allow (.principal 2) 78)]
    ∧ (sent (.hello 1) full 1).contains (.order 1 (.deny (.principal 1) 77)) = true := by decide +kernel

/-! ### Invariants -/

/-- A state that meets every invariant, is not the reset state, and has a command waiting. -/
def begun : State :=
  { State.reset with
    pending := [.secondEvent]
    pins := { resetHeld := false, mgmtCarrier := true, serverCarrier := [0] }
    lu := { State.reset.lu with links := [(0, { upLink with orders := [⟨1, .snap⟩], counter := 2 })], silenceLimit := 20 }
    cwu := { State.reset.cwu with second := 59, slot := some 31, visited := [30, 31] }
    vt := [(0, vol20 0)]
    cca := { State.reset.cca with servers := [(0, { Credit.cold with free := 3, restore := 1 })] }
    nq := { State.reset.nq with
      queue := [{ subject := .volume 1, content := .volumeStale true 1 .stale .link 0, priority := 1, seq := 0, age := 0, seen := true }]
      seq := 1, age := 1 } }

theorem begun_steps : ∃ t, step begun = .next t := ⟨_, rfl⟩

theorem witness_EveryStepKeepsClockAndCredits : ClockInv begun ∧ CreditInv begun :=
  ⟨{ second := by decide
     partTime := by decide
     minute := by decide
     settings := by unfold WindowSet.inRange; decide
     pendingSet := fun w h => by cases h
     closed := fun h => by cases h
     isOpen := fun j h => by cases h; decide
     handed := by decide
     trend := by decide },
   fun srv => by cases srv <;> rfl⟩

theorem witness_EveryStepKeepsTheManagementLists : MgmtInv begun where
  replies := by decide
  busy := by decide
  free := fun _ => ⟨rfl, rfl, rfl⟩
  head := fun e h => by cases h
  absent := fun _ => rfl
  taken := fun h => by cases h
  due := fun _ => rfl

theorem witness_EveryStepKeepsTheNoticeQueue : NoticeInv begun where
  length := by decide
  pairs := by decide
  ages := by decide
  young := by decide
  priority := by decide
  priorities := fun k => by cases k <;> decide
  seen := by decide
  slot := fun m h => by cases h
  counts := by decide

theorem witness_EveryStepKeepsTheTables : Tables begun ∧ InnerTables full := ⟨by constructor <;> decide, by constructor <;> decide⟩

theorem witness_EveryStepKeepsTheLinks : LinkInv begun where
  quiet := fun srv h => by
    cases srv
    · cases h
    · exact ⟨rfl, rfl⟩
  volumes := fun v h => by
    cases v
    · decide
    · exact absurd rfl h
  nightly := fun v h => by cases v <;> cases h
  records := fun srv h => absurd rfl h
  drained := fun _ _ => rfl
  held := fun srv h => by cases srv <;> exact absurd rfl h

end Sys2Proof.Tests
end

