-- ==== Sys2Proof/Proofs/Work.lean ====
section
/-! SUPPORT. The work of the blocks. `Work s t`: between `s` and `t` a block has only raised notices and handed over orders, so
the waiting commands, every link's own state, every volume's state and every intake stand as they did. One lemma an
operation; the invariants of the management lists and of the links, and every statement about what one event leaves of the
other servers, follow from these. -/

namespace Sys2Proof.Machine

/-! ### Notices raised -/

/-- What raising a notice reads and writes. -/
structure MgmtView where
  carrier : Bool
  tx : Option MgmtFrame
  replies : List ReplyEntry
  busy : List (BitVec 16)
  restart : RestartPhase
  nq : Nq

/-- The management link's transmit side and the Notice Queue of a state. -/
def mgmtView (s : State) : MgmtView :=
  { carrier := s.pins.mgmtCarrier, tx := s.lu.mgmtTx, replies := s.lu.replies, busy := s.lu.busy, restart := s.lu.restart,
    nq := s.nq }

theorem mgmtView_eq_iff {s t : State} : mgmtView s = mgmtView t ↔ s.pins.mgmtCarrier = t.pins.mgmtCarrier
    ∧ s.lu.mgmtTx = t.lu.mgmtTx ∧ s.lu.replies = t.lu.replies ∧ s.lu.busy = t.lu.busy ∧ s.lu.restart = t.lu.restart
    ∧ s.nq = t.nq := by
  simp [mgmtView]

theorem pump_congr {s t : State} (h : mgmtView s = mgmtView t) : mgmtView (pump s) = mgmtView (pump t) := by
  obtain ⟨hc, htx, hr, hb, hp, hn⟩ := mgmtView_eq_iff.1 h
  unfold pump
  rw [htx, hc]
  split
  · exact h
  · split
    · unfold startNext
      rw [hn, hb, hr]
      split
      · simp [mgmtView, hc, hr, hb, hp]
      · split
        · simp [mgmtView, hc, hr, hp]
        · split
          · simp [mgmtView, hc, hr, hb, hp]
          · exact h
    · simp [mgmtView, discardWaiting, hc, htx, hn, hp]

theorem raise_congr (n : Notice) {s t : State} (h : mgmtView s = mgmtView t) : mgmtView (raise n s) = mgmtView (raise n t) := by
  obtain ⟨hc, htx, hr, hb, hp, hn⟩ := mgmtView_eq_iff.1 h
  exact pump_congr (mgmtView_eq_iff.2 ⟨hc, htx, hr, hb, hp, by rw [hn]⟩)

/-- The state with these notices raised, in this order. -/
def raiseAll (ns : List Notice) (s : State) : State := ns.foldl (fun u n => raise n u) s

theorem raiseAll_congr (ns : List Notice) {s t : State} (h : mgmtView s = mgmtView t) :
    mgmtView (raiseAll ns s) = mgmtView (raiseAll ns t) := by
  induction ns generalizing s t with
  | nil => exact h
  | cons n ns ih => exact ih (raise_congr n h)

theorem raiseAll_append (a b : List Notice) (s : State) : raiseAll (a ++ b) s = raiseAll b (raiseAll a s) :=
  List.foldl_append ..

/-- The management link's transmit side and the Notice Queue of `t` are those of `s` with exactly these notices raised. -/
def Noticed (ns : List Notice) (s t : State) : Prop := mgmtView t = mgmtView (raiseAll ns s)

theorem Noticed.nil {s t : State} (h : mgmtView t = mgmtView s) : Noticed [] s t := h

theorem Noticed.refl (s : State) : Noticed [] s s := rfl

theorem Noticed.trans {a b : List Notice} {s t u : State} (h1 : Noticed a s t) (h2 : Noticed b t u) : Noticed (a ++ b) s u := by
  unfold Noticed
  rw [raiseAll_append, h2]
  exact raiseAll_congr b h1

/-- Silent work before and after leaves the notices. -/
theorem Noticed.silent_trans {b : List Notice} {s t u : State} (h1 : Noticed [] s t) (h2 : Noticed b t u) : Noticed b s u :=
  h1.trans h2

theorem Noticed.trans_silent {a : List Notice} {s t u : State} (h1 : Noticed a s t) (h2 : Noticed [] t u) : Noticed a s u := by
  simpa using h1.trans h2

theorem Noticed.raises {ns : List Notice} {s t : State} (h : Noticed ns s t) : Raises ns s t := by
  rintro - u rfl
  obtain ⟨-, htx, -, -, -, hn⟩ := mgmtView_eq_iff.1 h
  exact ⟨hn, fun _ => htx⟩

theorem raise_noticed (n : Notice) (s : State) : Noticed [n] s (raise n s) := rfl

theorem notify_noticed (sub : NoticeSubject) (c : Content) (s : State) : Noticed [⟨sub, c⟩] s (notify sub c s) := rfl

/-- Some notices are raised between `s` and `t`. -/
def Speaks (s t : State) : Prop := ∃ ns, Noticed ns s t

theorem Noticed.speaks {ns : List Notice} {s t : State} (h : Noticed ns s t) : Speaks s t := ⟨ns, h⟩

theorem Speaks.refl (s : State) : Speaks s s := (Noticed.refl s).speaks

theorem Speaks.trans {s t u : State} (h1 : Speaks s t) (h2 : Speaks t u) : Speaks s u := by
  obtain ⟨a, ha⟩ := h1
  obtain ⟨b, hb⟩ := h2
  exact ⟨a ++ b, ha.trans hb⟩

theorem Speaks.foldl {β : Type} {f : State → β → State} (h : ∀ s b, Speaks s (f s b)) (l : List β) (s : State) :
    Speaks s (l.foldl f s) := by
  induction l generalizing s with
  | nil => exact Speaks.refl s
  | cons b r ih => exact (h s b).trans (ih _)

/-- A notice raised somewhere between `s` and `u`. -/
theorem Raises.among {n : Notice} {s t u v : State} (h1 : Speaks s t) (h2 : Noticed [n] t u) (h3 : Speaks u v) :
    ∃ before after, Raises (before ++ n :: after) s v := by
  obtain ⟨a, ha⟩ := h1
  obtain ⟨b, hb⟩ := h3
  exact ⟨a, b, (ha.trans (h2.trans hb)).raises⟩

/-! ### What stands while the blocks work -/

/-- Nothing is handed to the server: its link is not UP and none of its volumes is ATTACHED. -/
def QuietServer (j : Nat) (s : State) : Prop :=
  linkUp s j = false ∧ ∀ v, (volume s v).server = j → (volume s v).state ≠ .attached

/-- No deny entry lists a part for the server. -/
def NoPart (j : Nat) (s : State) : Prop := ∀ e ∈ s.et.table, tget e.2.parts j = none

/-- A link that orders have been handed to: they are in its table and behind its transmit queue, and its counter is ahead. -/
def Link.Grown (l m : Link) : Prop :=
  ∃ os fs c, m = { l with orders := l.orders ++ os, txQueue := l.txQueue ++ fs, counter := c } ∧ TxFrame.idle ∉ fs

/-- A volume of which only epoch, holds, offsite base and marks may have moved. -/
def Volume.Reworked (r x : Volume) : Prop :=
  ∃ e h o m, x = { r with epoch := e, heldTotal := h, offsiteBase := o, marks := m }

theorem Link.Grown.refl (l : Link) : l.Grown l := ⟨[], [], l.counter, by simp⟩

theorem Link.Grown.trans {l m n : Link} (h1 : l.Grown m) (h2 : m.Grown n) : l.Grown n := by
  obtain ⟨os, fs, c, rfl, hf⟩ := h1
  obtain ⟨os', fs', c', rfl, hf'⟩ := h2
  exact ⟨os ++ os', fs ++ fs', c', by simp, by simp [hf, hf']⟩

theorem Link.Grown.state {l m : Link} (h : l.Grown m) : m.state = l.state := by obtain ⟨_, _, _, rfl, -⟩ := h; rfl
theorem Link.Grown.held {l m : Link} (h : l.Grown m) : m.held = l.held := by obtain ⟨_, _, _, rfl, -⟩ := h; rfl

theorem Volume.Reworked.refl (r : Volume) : r.Reworked r := ⟨r.epoch, r.heldTotal, r.offsiteBase, r.marks, rfl⟩

theorem Volume.Reworked.trans {r x y : Volume} (h1 : r.Reworked x) (h2 : x.Reworked y) : r.Reworked y := by
  obtain ⟨_, _, _, _, rfl⟩ := h1
  obtain ⟨e, h, o, m, rfl⟩ := h2
  exact ⟨e, h, o, m, rfl⟩

theorem Volume.Reworked.state {r x : Volume} (h : r.Reworked x) : x.state = r.state := by obtain ⟨_, _, _, _, rfl⟩ := h; rfl
theorem Volume.Reworked.server {r x : Volume} (h : r.Reworked x) : x.server = r.server := by obtain ⟨_, _, _, _, rfl⟩ := h; rfl
theorem Volume.Reworked.nightly {r x : Volume} (h : r.Reworked x) : x.nightly = r.nightly := by obtain ⟨_, _, _, _, rfl⟩ := h; rfl
theorem Volume.Reworked.reserveLimit {r x : Volume} (h : r.Reworked x) : x.reserveLimit = r.reserveLimit := by
  obtain ⟨_, _, _, _, rfl⟩ := h; rfl

/-- The work of a block between two states. -/
structure Work (s t : State) : Prop where
  pending : t.pending = s.pending
  speaks : Speaks s t
  links : ∀ j, (link s j).Grown (link t j)
  quiet : ∀ j, QuietServer j s → link t j = link s j
  volumes : ∀ v, (volume s v).Reworked (volume t v)
  sorted : tsorted s.vt = true → tsorted t.vt = true
  intakes : t.ciu = s.ciu
  noPart : ∀ j, linkUp s j = false → NoPart j s → NoPart j t

theorem Work.linkUp {s t : State} (h : Work s t) (j : Nat) : Machine.linkUp t j = Machine.linkUp s j := by
  unfold Machine.linkUp; rw [(h.links j).state]

theorem Work.quietServer {s t : State} (h : Work s t) {j : Nat} (hq : QuietServer j s) : QuietServer j t :=
  ⟨by rw [h.linkUp]; exact hq.1, fun v hv => by
    rw [(h.volumes v).server] at hv; rw [(h.volumes v).state]; exact hq.2 v hv⟩

theorem Work.refl (s : State) : Work s s :=
  ⟨rfl, Speaks.refl s, fun _ => Link.Grown.refl _, fun _ _ => rfl, fun _ => Volume.Reworked.refl _, id, rfl, fun _ _ h => h⟩

theorem Work.trans {s t u : State} (h1 : Work s t) (h2 : Work t u) : Work s u where
  pending := h2.pending.trans h1.pending
  speaks := h1.speaks.trans h2.speaks
  links j := (h1.links j).trans (h2.links j)
  quiet j hq := (h2.quiet j (h1.quietServer hq)).trans (h1.quiet j hq)
  volumes v := (h1.volumes v).trans (h2.volumes v)
  sorted h := h2.sorted (h1.sorted h)
  intakes := h2.intakes.trans h1.intakes
  noPart j hu hn := h2.noPart j (by rw [h1.linkUp]; exact hu) (h1.noPart j hu hn)

/-- A further operation, read from the outside in. -/
theorem Work.after {s t u : State} (h2 : Work t u) (h1 : Work s t) : Work s u := h1.trans h2

theorem Work.foldl {β : Type} {f : State → β → State} (h : ∀ s b, Work s (f s b)) (l : List β) (s : State) :
    Work s (l.foldl f s) := by
  induction l generalizing s with
  | nil => exact Work.refl s
  | cons b r ih => exact (h s b).trans (ih _)

/-- Raising notices and writing what no link, volume, intake or deny entry is made of. -/
theorem Work.of_same {s t : State} (hp : t.pending = s.pending) (hn : Speaks s t) (hl : t.lu.links = s.lu.links)
    (hv : t.vt = s.vt) (hi : t.ciu = s.ciu) (he : t.et.table = s.et.table) : Work s t where
  pending := hp
  speaks := hn
  links j := by unfold link; rw [hl]; exact Link.Grown.refl _
  quiet j _ := by unfold link; rw [hl]
  volumes v := by unfold volume; rw [hv]; exact Volume.Reworked.refl _
  sorted h := by rw [hv]; exact h
  intakes := hi
  noPart j _ h := by unfold NoPart; rw [he]; exact h

/-- A write to a register that no link, volume, intake, deny entry or notice is made of. -/
theorem Work.write {s t : State} (hp : t.pending = s.pending) (hn : mgmtView t = mgmtView s) (hl : t.lu.links = s.lu.links)
    (hv : t.vt = s.vt) (hi : t.ciu = s.ciu) (he : t.et.table = s.et.table) : Work s t :=
  Work.of_same hp (Noticed.nil hn).speaks hl hv hi he

/-! ### Writers -/

theorem raise_work (n : Notice) (s : State) : Work s (raise n s) :=
  Work.of_same (pump_pending _) (raise_noticed n s).speaks (pump_lu_links _) (pump_vt _) (pump_ciu _) (by rw [raise, pump_et])

theorem notify_work (sub : NoticeSubject) (c : Content) (s : State) : Work s (notify sub c s) := raise_work _ s

theorem setPrincipal_work (i : Nat) (r : Principal) (s : State) : Work s (setPrincipal i r s) := .write rfl rfl rfl rfl rfl rfl
theorem setGroupRec_work (i : Nat) (r : Group) (s : State) : Work s (setGroupRec i r s) := .write rfl rfl rfl rfl rfl rfl
theorem setSnap_work (i : Nat) (r : Snap) (s : State) : Work s (setSnap i r s) := .write rfl rfl rfl rfl rfl rfl
theorem delSnap_work (i : Nat) (s : State) : Work s (delSnap i s) := .write rfl rfl rfl rfl rfl rfl
theorem setCredit_work (i : Nat) (r : Credit) (s : State) : Work s (setCredit i r s) := .write rfl rfl rfl rfl rfl rfl
theorem setRestoreJob_work (i : Nat) (r : RestoreJob) (s : State) : Work s (setRestoreJob i r s) := .write rfl rfl rfl rfl rfl rfl
theorem setDupJob_work (i : Nat) (r : DupJob) (s : State) : Work s (setDupJob i r s) := .write rfl rfl rfl rfl rfl rfl

theorem setAcct_work (sub : Subject) (a : Account) (s : State) : Work s (setAcct sub a s) := by
  cases sub
  · exact setPrincipal_work _ _ s
  · exact setGroupRec_work _ _ s

theorem setVolume_work {v : Nat} {r : Volume} {s : State} (h : (volume s v).Reworked r) : Work s (setVolume v r s) where
  pending := rfl
  speaks := (Noticed.nil (by rfl)).speaks
  links _ := Link.Grown.refl _
  quiet _ _ := rfl
  volumes i := by
    rw [volume_setVolume]
    split
    · rename_i hi; subst hi; exact h
    · exact Volume.Reworked.refl _
  sorted := tsorted_tsetD _ _ _ _
  intakes := rfl
  noPart _ _ h := h

/-- An order handed over to a server that is not quiet. -/
theorem issue_work {srv : Nat} (body : OrderBody) {s : State} (h : ¬QuietServer srv s) : Work s (issue srv body s).1 where
  pending := rfl
  speaks := (Noticed.nil (by rfl)).speaks
  links j := by
    simp only [issue, link_setLink]
    split
    · rename_i hj; subst hj; exact ⟨_, _, _, rfl, by simp⟩
    · exact Link.Grown.refl _
  quiet j hq := by
    simp only [issue, link_setLink]
    exact if_neg fun hj => by subst hj; exact h hq
  volumes _ := Volume.Reworked.refl _
  sorted h := h
  intakes := rfl
  noPart _ _ h := h

theorem not_quiet_of_up {srv : Nat} {s : State} (h : linkUp s srv = true) : ¬QuietServer srv s := fun hq => by
  rw [hq.1] at h; cases h

theorem not_quiet_of_attached {v : Nat} {s : State} (h : (volume s v).state = .attached) : ¬QuietServer (volume s v).server s :=
  fun hq => hq.2 v rfl h

theorem mem_tput {α : Type} {t : Tab α} {k : Nat} {v : α} {e : Nat × α} (h : e ∈ tput t k v) : e = (k, v) ∨ e ∈ t := by
  induction t with
  | nil => simpa [tput] using h
  | cons x r ih =>
    obtain ⟨j, w⟩ := x
    unfold tput at h
    split at h
    · simpa using h
    · split at h
      · rcases List.mem_cons.1 h with h | h
        · exact .inl h
        · exact .inr (List.mem_cons_of_mem _ h)
      · rcases List.mem_cons.1 h with h | h
        · exact .inr (h ▸ List.mem_cons_self ..)
        · exact (ih h).imp id (List.mem_cons_of_mem _)

theorem mem_of_tget {α : Type} {t : Tab α} {k : Nat} {v : α} (h : tget t k = some v) : (k, v) ∈ t := by
  induction t with
  | nil => cases h
  | cons x r ih =>
    obtain ⟨j, w⟩ := x
    simp only [tget] at h
    split at h
    · rename_i hj; cases h; subst hj; exact List.mem_cons_self ..
    · exact List.mem_cons_of_mem _ (ih h)

/-- A deny entry is written: it lists no part for a server that is not UP, unless the table did. -/
theorem setDeny_work {key : Nat} {e : DenyEntry} {s : State}
    (h : ∀ j, linkUp s j = false → NoPart j s → tget e.parts j = none) : Work s (setDeny key e s) where
  pending := rfl
  speaks := (Noticed.nil (by rfl)).speaks
  links _ := Link.Grown.refl _
  quiet _ _ := rfl
  volumes _ := Volume.Reworked.refl _
  sorted h := h
  intakes := rfl
  noPart j hu hn x hx := by
    rcases mem_tput hx with rfl | hx
    · exact h j hu hn
    · exact hn x hx

theorem tget_eq_none_iff {α : Type} {t : Tab α} {k : Nat} : tget t k = none ↔ ∀ e ∈ t, e.1 ≠ k := by
  induction t with
  | nil => simp [tget]
  | cons x r ih =>
    obtain ⟨j, w⟩ := x
    by_cases h : j = k <;> simp [tget, h, ih]

theorem tget_tsetD_of_ne {α : Type} [DecidableEq α] (d : α) (t : Tab α) {k j : Nat} (v : α) (h : k ≠ j) :
    tget (tsetD d t k v) j = tget t j := by
  unfold tsetD; split
  · rw [tget_tdel, if_neg h]
  · rw [tget_tput, if_neg h]

theorem tget_withPart_of_ne {srv j : Nat} (p : ServerPart) (e : DenyEntry) (h : srv ≠ j) :
    tget (withPart srv p e).parts j = tget e.parts j := tget_tsetD_of_ne _ _ _ h

theorem tget_resetParts {parts : Tab ServerPart} {j : Nat} (h : tget parts j = none) : tget (resetParts parts) j = none := by
  rw [tget_eq_none_iff] at h ⊢
  intro e he
  obtain ⟨he, -⟩ := List.mem_filter.1 he
  obtain ⟨x, hx, rfl⟩ := List.mem_map.1 he
  exact h x hx

/-- Entries leave the deny table. -/
theorem tableWrite_work {t : Tab DenyEntry} {s : State} (h : ∀ e ∈ t, e ∈ s.et.table) :
    Work s { s with et := { s.et with table := t } } where
  pending := rfl
  speaks := (Noticed.nil (by rfl)).speaks
  links _ := Link.Grown.refl _
  quiet _ _ := rfl
  volumes _ := Volume.Reworked.refl _
  sorted h := h
  intakes := rfl
  noPart _ _ hn e he := hn e (h e he)

theorem backlogWrite_work (l : List Subject) (s : State) : Work s { s with et := { s.et with backlog := l } } :=
  .write rfl rfl rfl rfl rfl rfl

theorem softWrite_work (l : List Subject) (s : State) : Work s { s with qm := { s.qm with softList := l } } :=
  .write rfl rfl rfl rfl rfl rfl

/-! ### Enforcement -/

theorem notifyBacklog_work (b : Bool) (s : State) : Work s (notifyBacklog b s) := notify_work _ _ s

theorem handWant_work (key srv : Nat) (s : State) : Work s (handWant key srv s) := by
  unfold handWant
  split
  · exact Work.refl s
  · rename_i e he
    dsimp only
    split
    · rename_i h
      refine (issue_work _ (not_quiet_of_up h.1)).trans (setDeny_work fun j hu hn => ?_)
      have hj : srv ≠ j := by
        rintro rfl
        rw [(issue_work _ (not_quiet_of_up h.1)).linkUp, h.1] at hu; cases hu
      exact (tget_withPart_of_ne _ _ hj).trans (hn (key, e) (mem_of_tget he))
    · exact Work.refl s

theorem handWants_work (s : State) : Work s (handWants s) :=
  Work.foldl (fun _ _ => Work.foldl (fun _ _ => handWant_work _ _ _) _ _) _ s

theorem admitBacklog_work (s : State) : Work s (admitBacklog s) := by
  unfold admitBacklog
  split
  · exact Work.refl s
  · rename_i sub rest _
    have h := (backlogWrite_work rest s).trans (setDeny_work (key := subjectKey sub) (e := newDeny) fun _ _ _ => rfl)
    dsimp only
    split
    · exact h.trans (notifyBacklog_work _ _)
    · exact h

theorem testRemoval_work (key : Nat) (s : State) : Work s (testRemoval key s) := by
  unfold testRemoval
  split
  · exact Work.refl s
  · split
    · exact (tableWrite_work fun e he => by
        rw [tdel_eq_filter] at he; exact (List.mem_filter.1 he).1).trans (admitBacklog_work _)
    · exact Work.refl s

theorem testRemovals_work (s : State) : Work s (testRemovals s) := Work.foldl (fun _ _ => testRemoval_work _ _) _ s

/-- The entry of a subject, made or kept, with every part reset. -/
theorem resetDeny_work {key : Nat} {e : DenyEntry} (w : Want) {s : State} (h : tget s.et.table key = some e) :
    Work s (setDeny key { want := w, parts := resetParts e.parts } s) :=
  setDeny_work fun _ _ hn => tget_resetParts (hn _ (mem_of_tget h))

theorem enforceBlock_work (sub : Subject) (s : State) : Work s (enforceBlock sub s) := by
  unfold enforceBlock
  dsimp only
  split
  · rename_i e he
    exact (resetDeny_work _ he).trans (handWants_work _)
  · split
    · exact (setDeny_work fun _ _ _ => rfl).trans (handWants_work _)
    · split
      · exact (backlogWrite_work _ s).trans (notifyBacklog_work _ _)
      · exact backlogWrite_work _ s

theorem enforceUnblock_work (sub : Subject) (s : State) : Work s (enforceUnblock sub s) := by
  unfold enforceUnblock
  dsimp only
  split
  · split
    · exact (backlogWrite_work _ s).trans (notifyBacklog_work _ _)
    · exact backlogWrite_work _ s
  · split
    · exact Work.refl s
    · rename_i e he
      exact ((resetDeny_work _ he).trans (testRemoval_work _ _)).trans (handWants_work _)

/-- One server's part of an entry becomes a part that a server not UP has not listed. -/
theorem withPart_work {key srv : Nat} {e : DenyEntry} {p : ServerPart} {s : State} (h : tget s.et.table key = some e)
    (hs : linkUp s srv = true) : Work s (setDeny key (withPart srv p e) s) :=
  setDeny_work fun j hu hn => by
    have hj : srv ≠ j := by rintro rfl; rw [hs] at hu; cases hu
    exact (tget_withPart_of_ne _ _ hj).trans (hn _ (mem_of_tget h))

/-- An acknowledgement of a server whose link is UP. -/
theorem takeAck_work {srv : Nat} (num : Nat) (kind : Want) {s : State} (hs : linkUp s srv = true) :
    Work s (takeAck srv num kind s) := by
  unfold takeAck
  split
  · exact Work.refl s
  · split
    · exact Work.refl s
    · rename_i he
      dsimp only
      split
      · exact ((withPart_work he hs).trans (testRemoval_work _ _)).trans (handWants_work _)
      · exact (withPart_work he hs).trans (handWants_work _)

/-- The server's part is rewritten in every entry, for a server that is UP or to no part at all. -/
theorem mapParts_work {srv : Nat} {f : Nat × DenyEntry → DenyEntry} {s : State}
    (h : ∀ e j, tget e.2.parts j = none → (srv = j → linkUp s srv = false) → tget (f e).parts j = none) :
    Work s { s with et := { s.et with table := s.et.table.map fun e => (e.1, f e) } } where
  pending := rfl
  speaks := (Noticed.nil (by rfl)).speaks
  links _ := Link.Grown.refl _
  quiet _ _ := rfl
  volumes _ := Volume.Reworked.refl _
  sorted h := h
  intakes := rfl
  noPart j hu hn x hx := by
    obtain ⟨e, he, rfl⟩ := List.mem_map.1 hx
    exact h e j (hn e he) fun hj => hj ▸ hu

theorem enforceLeave_work (srv : Nat) (s : State) : Work s (enforceLeave srv s) := by
  refine Work.trans (mapParts_work (srv := srv) (f := fun e => withPart srv ServerPart.fresh e.2) fun e j hj _ => ?_)
    ((testRemovals_work _).trans (handWants_work _))
  simp only [withPart, tsetD, if_true, tget_tdel, hj]
  split <;> rfl

theorem enforceEnter_work {srv : Nat} {s : State} (hs : linkUp s srv = true) : Work s (enforceEnter srv s) := by
  have h : Work s { s with et := { s.et with table := s.et.table.map fun e => (e.1,
      if e.2.want = .allow then withPart srv { status := .confirmed, inFlight := none, mark := none } e.2 else e.2) } } :=
    mapParts_work (srv := srv) fun e j hj hu => by
      have hne : srv ≠ j := by intro h; rw [hu h] at hs; cases hs
      split
      · exact (tget_withPart_of_ne _ _ hne).trans hj
      · exact hj
  have h2 : (s.et.table.map fun e =>
        if e.2.want = .allow then (e.1, withPart srv { status := .confirmed, inFlight := none, mark := none } e.2) else e)
      = s.et.table.map fun e => (e.1,
        if e.2.want = .allow then withPart srv { status := .confirmed, inFlight := none, mark := none } e.2 else e.2) := by
    apply List.map_congr_left
    intro e _
    split <;> rfl
  unfold enforceEnter
  dsimp only
  rw [h2]
  exact h.trans ((testRemovals_work _).trans (handWants_work _))

theorem detectBreach_work (p srv num vol blocks : Nat) (m : Bool) (s : State) : Work s (detectBreach p srv num vol blocks m s) := by
  unfold detectBreach
  split
  · exact Work.refl s
  · exact (notify_work _ _ _).after (.write rfl rfl rfl rfl rfl rfl)

/-! ### Evaluation and charges -/

theorem reportBlocking_work (sub : Subject) (a b : QuotaState) (s : State) : Work s (reportBlocking sub a b s) := by
  unfold reportBlocking
  split
  · exact Work.refl s
  · split
    · exact enforceBlock_work sub s
    · exact enforceUnblock_work sub s

theorem evaluate_work (cause : QuotaCause) (sub : Subject) (s : State) : Work s (evaluate cause sub s) := by
  unfold evaluate
  dsimp only
  split
  · exact Work.refl s
  · exact (notify_work _ _ _).after ((reportBlocking_work _ _ _ _).after ((softWrite_work _ _).after (setAcct_work _ _ s)))

theorem evaluateGroup_work (cause : QuotaCause) (g : Option Nat) (s : State) : Work s (evaluateGroup cause g s) := by
  cases g
  · exact Work.refl s
  · exact evaluate_work _ _ s

theorem evaluateBoth_work (cause : QuotaCause) (p : Nat) (s : State) : Work s (evaluateBoth cause p s) :=
  (evaluate_work _ _ s).trans (evaluateGroup_work _ _ _)

theorem graceTick_work (s : State) (sub : Subject) : Work s (graceTick s sub) := by
  unfold graceTick
  dsimp only
  split
  · exact (setAcct_work _ _ s).trans (evaluate_work _ _ _)
  · exact setAcct_work _ _ s

theorem graceWalk_work (s : State) : Work s (graceWalk s) := Work.foldl graceTick_work _ s

theorem onGroup_work (g : Option Nat) (f : Account → Account) (s : State) : Work s (onGroup g f s) := by
  cases g
  · exact Work.refl s
  · exact setGroupRec_work _ _ s

theorem onMembers_work (g : Option Nat) (f : Nat → Nat) (s : State) : Work s (onMembers g f s) := by
  cases g
  · exact Work.refl s
  · exact setGroupRec_work _ _ s

theorem addCharge_work (p c : Nat) (s : State) : Work s (addCharge p c s) := (setPrincipal_work _ _ s).trans (onGroup_work _ _ _)

theorem subCharge_work (p c : Nat) (s : State) : Work s (subCharge p c s) := (setPrincipal_work _ _ s).trans (onGroup_work _ _ _)

theorem changeReservation_work (f : Account → Account) (p : Nat) (s : State) : Work s (changeReservation f p s) :=
  (setPrincipal_work _ _ s).trans (onGroup_work _ _ _)

theorem reserve_work (p r : Nat) (s : State) : Work s (reserve p r s) :=
  (changeReservation_work _ _ s).trans (evaluateBoth_work _ _ _)

theorem release_work (p r : Nat) (s : State) : Work s (release p r s) := by
  unfold release
  split
  · exact Work.refl s
  · exact (changeReservation_work _ _ s).trans (evaluateBoth_work _ _ _)

theorem convert_work (tag p c : Nat) (s : State) : Work s (convert tag p c s) := by
  unfold convert
  split
  · exact Work.refl s
  · split
    · exact (setRestoreJob_work _ _ s).trans (changeReservation_work _ _ _)
    · exact Work.refl s

theorem chargeAlloc_work (tag p c : Nat) (s : State) : Work s (chargeAlloc tag p c s) :=
  ((convert_work _ _ _ s).trans (addCharge_work _ _ _)).trans (evaluateBoth_work _ _ _)

theorem chargeFree_work (p c : Nat) (s : State) : Work s (chargeFree p c s) :=
  (subCharge_work _ _ s).trans (evaluateBoth_work _ _ _)

theorem chargeMove_work (p q c : Nat) (s : State) : Work s (chargeMove p q c s) := by
  unfold chargeMove
  split
  · exact (setPrincipal_work _ _ s).trans (evaluate_work _ _ _)
  · have h := ((subCharge_work p c s).trans (addCharge_work q c _)).trans
      (((evaluate_work .charge (.principal p) _).trans (evaluateGroup_work .charge (principal s p).group _)).trans
        (evaluate_work .charge (.principal q) _))
    dsimp only
    split
    · exact h
    · exact h.trans (evaluateGroup_work _ _ _)

theorem moveGroup_work (p : Nat) (new : Option Nat) (s : State) : Work s (moveGroup p new s) :=
  ((((setPrincipal_work _ _ s).trans (onGroup_work _ _ _)).trans (onMembers_work _ _ _)).trans (onGroup_work _ _ _)).trans
    (onMembers_work _ _ _)

theorem loadUsage_work (p b : Nat) (s : State) : Work s (loadUsage p b s) := by
  unfold loadUsage
  exact (setPrincipal_work _ _ s).trans (onGroup_work _ _ _)

/-! ### Catalog -/

theorem notifyReserve_work (v : Nat) (b : Bool) (s : State) : Work s (notifyReserve v b s) := notify_work _ _ s

theorem clearReserve_work (v : Nat) (s : State) : Work s (clearReserve v s) :=
  (notifyReserve_work _ _ _).after (.write rfl rfl rfl rfl rfl rfl)

theorem setReserve_work (v : Nat) (s : State) : Work s (setReserve v s) :=
  (notifyReserve_work _ _ _).after (.write rfl rfl rfl rfl rfl rfl)

theorem testReserveFall_work (v : Nat) (s : State) : Work s (testReserveFall v s) := by
  unfold testReserveFall
  split
  · exact clearReserve_work v s
  · exact Work.refl s

theorem handDrop_work (id : Nat) (s : State) : Work s (handDrop id s) := by
  unfold handDrop
  split
  · exact Work.refl s
  · dsimp only
    split
    · rename_i h
      exact (issue_work _ (not_quiet_of_up h.2.2)).trans (setSnap_work _ _ _)
    · exact Work.refl s

theorem passHolds_work (o : Option (Nat × Snap)) (l : List Hold) (s : State) : Work s (passHolds o l s) := by
  cases o
  · exact Work.refl s
  · exact setSnap_work _ _ s

theorem lowerHeld_work (v n : Nat) (s : State) : Work s (lowerHeld v n s) := setVolume_work ⟨_, _, _, _, rfl⟩

theorem cascade_work (id : Nat) (x : Snap) (failed : Bool) (s : State) : Work s (cascade id x failed s).1 := by
  have h := (passHolds_work (olderHolder s id x) x.holds s).trans
    (lowerHeld_work x.volume (cascadeAmounts (olderHolder s id x) x.holds).freed _)
  have h2 : Work s (if failed then delSnap id (lowerHeld x.volume (cascadeAmounts (olderHolder s id x) x.holds).freed
        (passHolds (olderHolder s id x) x.holds s))
      else handDrop id (setSnap id { x with holds := [], state := .dropping, inFlight := none }
        (lowerHeld x.volume (cascadeAmounts (olderHolder s id x) x.holds).freed (passHolds (olderHolder s id x) x.holds s)))) := by
    split
    · exact h.trans (delSnap_work _ _)
    · exact h.trans ((setSnap_work _ _ _).trans (handDrop_work _ _))
  unfold cascade
  dsimp only
  split
  · exact h2.trans (testReserveFall_work _ _)
  · exact h2

theorem releaseSnap_work (why : ReleaseReason) (id : Nat) (s : State) : Work s (releaseSnap why id s).1 := by
  unfold releaseSnap
  split
  · exact Work.refl s
  · exact (cascade_work _ _ _ s).trans (notify_work _ _ _)

theorem pressureLoop_work (v n : Nat) (s : State) : Work s (pressureLoop v n s) := by
  induction n generalizing s with
  | zero => exact Work.refl s
  | succ n ih =>
    unfold pressureLoop
    split
    · exact Work.refl s
    · split
      · exact Work.refl s
      · exact (releaseSnap_work _ _ s).trans (ih _)

theorem decideReserve_work (v : Nat) (s : State) : Work s (decideReserve v s) := by
  unfold decideReserve
  split
  · exact testReserveFall_work _ _
  · split
    · exact Work.refl s
    · exact setReserve_work _ _

theorem pressureTest_work (v : Nat) (s : State) : Work s (pressureTest v s) :=
  (pressureLoop_work _ _ s).trans (decideReserve_work _ _)

theorem attributeHold_work (v b n : Nat) (s : State) : Work s (attributeHold v b n s) := by
  unfold attributeHold
  split
  · exact Work.refl s
  · split
    · exact ((setSnap_work _ _ s).trans (setVolume_work ⟨_, _, _, _, rfl⟩)).trans (pressureTest_work _ _)
    · exact Work.refl s

/-- A take of an ATTACHED volume. -/
theorem takeSnap_work {v : Nat} (k : SnapKind) (b : Bool) {s : State} (h : (volume s v).state = .attached) :
    Work s (takeSnap v k b s).1 := by
  have h1 : Work s (setVolume v { volume s v with epoch := (volume s v).epoch + 1 } s) := setVolume_work ⟨_, _, _, _, rfl⟩
  have h2 (n : Nat) := h1.trans (t := _) (u := { (setVolume v { volume s v with epoch := (volume s v).epoch + 1 } s) with
    sc := { (setVolume v { volume s v with epoch := (volume s v).epoch + 1 } s).sc with nextId := n } })
    (.write rfl rfl rfl rfl rfl rfl)
  refine ((h2 (nextIdAfter (takeId s))).trans (issue_work _ fun hq => ?_)).trans (setSnap_work _ _ _)
  refine hq.2 v ?_ ?_
  · exact ((h2 _).volumes v).server
  · exact ((h2 _).volumes v).state.trans h

theorem failTake_work (id : Nat) (x : Snap) (why : SnapFailReason) (q : Bool) (s : State) : Work s (failTake id x why q s) := by
  unfold failTake
  dsimp only
  split
  · exact cascade_work _ _ _ s
  · exact ((cascade_work _ _ _ s).trans (notify_work _ _ _)).trans (.write rfl rfl rfl rfl rfl rfl)

theorem pin_work (id : Nat) (s : State) : Work s (pin id s) := by
  unfold pin
  split
  · exact Work.refl s
  · exact setSnap_work _ _ s

theorem unpin_work (id : Nat) (s : State) : Work s (unpin id s) := by
  unfold unpin
  split
  · exact Work.refl s
  · dsimp only
    split
    · exact (setSnap_work _ _ s).trans (pressureTest_work _ _)
    · exact setSnap_work _ _ s

theorem retire_work (l : List (Nat × Snap)) (s : State) : Work s (retire l s) := Work.foldl (fun _ _ => releaseSnap_work _ _ _) l s

theorem takeRetention_work (v : Nat) (k : SnapKind) (s : State) : Work s (takeRetention v k s) := by
  unfold takeRetention
  split
  · exact Work.refl s
  · exact (retire_work _ s).trans (retire_work _ _)

theorem ageRetentionOf_work (v : Nat) (k : SnapKind) (s : State) : Work s (ageRetentionOf v k s) := by
  unfold ageRetentionOf
  split
  · exact Work.refl s
  · exact retire_work _ s

theorem ageRetention_work (s : State) : Work s (ageRetention s) :=
  Work.foldl (fun _ _ => ((ageRetentionOf_work _ _ _).trans (ageRetentionOf_work _ _ _)).trans (ageRetentionOf_work _ _ _)) _ s

end Sys2Proof.Machine
end

