-- ==== Sys2Proof/Proofs/WorkOfSteps.lean ====
section
/-! SUPPORT. The work of the blocks, continued: copies, duplication, the window and the minute event. -/

namespace Sys2Proof.Machine

/-! ### Copies -/

theorem acceptanceWrite_work (l : List Nat) (s : State) : Work s { s with cca := { s.cca with acceptance := l } } :=
  .write rfl rfl rfl rfl rfl rfl

theorem restoreDone_work (id : Nat) (j : RestoreJob) (o : RestoreOutcome) (n : Nat) (s : State) :
    Work s (restoreDone id j o n s) := notify_work _ _ s

theorem freeSlot_work (id : Nat) (j : RestoreJob) (o : RestoreOutcome) (s : State) : Work s (freeSlot id j o s) :=
  .write rfl rfl rfl rfl rfl rfl

theorem endRestore_work (id : Nat) (j : RestoreJob) (s : State) : Work s (endRestore id j s) :=
  (restoreDone_work _ _ _ _ _).after ((unpin_work _ _).after ((release_work _ _ _).after (freeSlot_work _ _ _ s)))

theorem testRestoreEnd_work (id : Nat) (s : State) : Work s (testRestoreEnd id s) := by
  unfold testRestoreEnd
  split
  · exact Work.refl s
  · split
    · exact endRestore_work _ _ s
    · exact Work.refl s

theorem returnRestore_work (srv : Nat) (s : State) : Work s (returnRestore srv s) := by
  unfold returnRestore
  dsimp only
  split
  · exact Work.refl s
  · exact setCredit_work _ _ s

theorem returnShip_work (srv : Nat) (s : State) : Work s (returnShip srv s) := by
  unfold returnShip
  dsimp only
  split
  · exact Work.refl s
  · exact setCredit_work _ _ s

theorem presentAll_work (s : State) : Work s (presentAll s) := Work.foldl (fun _ _ => setCredit_work _ _ _) _ s

/-- A credit for a restore job of a server whose link is UP. -/
theorem grantRestore_work {srv : Nat} (id : Nat) (j : RestoreJob) {s : State} (h : linkUp s srv = true) :
    Work s (grantRestore srv id j s) := by
  unfold grantRestore
  split
  · exact Work.refl s
  · have h1 := setCredit_work srv { credit s srv with restore := (credit s srv).restore + 1, free := (credit s srv).free - 1 } s
    exact (setRestoreJob_work _ _ _).after ((issue_work _ (not_quiet_of_up ((h1.linkUp srv).trans h))).after h1)

theorem bestCandidate_mem {l : List (Nat × RestoreJob)} {c : Nat × RestoreJob} (h : bestCandidate l = some c) : c ∈ l := by
  induction l generalizing c with
  | nil => cases h
  | cons x r ih =>
    simp only [bestCandidate] at h
    split at h
    · cases h; exact List.mem_cons_self ..
    · rename_i d hd
      split at h
      · cases h; exact List.mem_cons_self ..
      · cases h; exact List.mem_cons_of_mem _ (ih hd)

/-- A restore candidate of a server: a job in a slot, ACTIVE, with an extent PENDING, on a link that is UP (R145). -/
theorem mem_restoreCandidates {s : State} {srv : Nat} {c : Nat × RestoreJob} (h : c ∈ restoreCandidates s srv) :
    restoreJob s c.1 = some c.2 ∧ isCandidate s srv c.2 = true := by
  obtain ⟨id, -, hc⟩ := List.mem_filterMap.1 h
  split at hc
  · cases hc
  · rename_i j hj
    split at hc
    · rename_i hi; cases hc; exact ⟨hj, hi⟩
    · cases hc

theorem isCandidate_iff {s : State} {srv : Nat} {j : RestoreJob} : isCandidate s srv j = true ↔
    j.state = .active ∧ j.hasStatus .pending = true ∧ jobServer s j = srv ∧ linkUp s srv = true := by
  simp [isCandidate, and_assoc]

theorem pickVolume_mem {turn : Option Nat} {l : List Nat} {v : Nat} (h : pickVolume turn l = some v) : v ∈ l := by
  unfold pickVolume at h
  split at h
  · exact List.mem_of_head? h
  · split at h
    · cases h; exact List.mem_of_find?_eq_some ‹_›
    · exact List.mem_of_head? h

/-- A volume with an eligible job: it is served by the server, and ATTACHED (R175). -/
theorem mem_eligibleOn {s : State} {srv v : Nat} (h : v ∈ eligibleOn s srv) :
    ∃ j, (v, j) ∈ s.dc.jobs ∧ (volume s v).server = srv ∧ dupEligible s v j = true := by
  obtain ⟨e, he, rfl⟩ := List.mem_map.1 h
  obtain ⟨hm, hp⟩ := List.mem_filter.1 he
  simp only [Bool.and_eq_true, decide_eq_true_eq] at hp
  exact ⟨e.2, hm, hp.1, hp.2⟩

theorem dupEligible_iff {s : State} {v : Nat} {j : DupJob} : dupEligible s v j = true ↔
    j.state = .shipping ∧ (volume s v).dupGroup ∈ s.dc.openGroups ∧ j.batch = none ∧ j.cursor < (volume s v).regionCount
      ∧ (volume s v).state = .attached ∧ (fitsOrdinary s v = true ∨ fitsOversize s v = true) := by
  simp [dupEligible, eligibility]

theorem formBatch_work {srv v : Nat} (j : DupJob) {s : State} (h : ¬QuietServer srv s) : Work s (formBatch srv v j s) := by
  have h1 (m : Nat) (x : Option Nat) (t : State) : Work t { t with dc := { t.dc with remaining := m, turn := x } } :=
    .write rfl rfl rfl rfl rfl rfl
  unfold formBatch
  exact (h1 _ _ _).after ((setDupJob_work _ _ _).after (issue_work _ h))

theorem grantDup_work (srv : Nat) (s : State) : Work s (grantDup srv s) := by
  unfold grantDup
  dsimp only
  have h := setCredit_work srv { credit s srv with ship := (credit s srv).ship + 1, free := (credit s srv).free - 1 } s
  split
  · exact (presentAll_work _).after ((returnShip_work _ _).after h)
  · rename_i v hv
    split
    · exact (presentAll_work _).after ((returnShip_work _ _).after h)
    · refine (presentAll_work _).after ((formBatch_work _ ?_).after h)
      obtain ⟨k, -, hs, he⟩ := mem_eligibleOn (pickVolume_mem hv)
      exact fun hq => hq.2 v hs (dupEligible_iff.1 he).2.2.2.2.1

theorem grantLoop_work (srv n : Nat) (s : State) : Work s (grantLoop srv n s) := by
  induction n generalizing s with
  | zero => exact Work.refl s
  | succ n ih =>
    rw [grantLoop]
    split
    · exact Work.refl s
    · split
      · rename_i c hc
        have hu : linkUp s srv = true := by
          split at hc
          · exact (isCandidate_iff.1 (mem_restoreCandidates (bestCandidate_mem hc)).2).2.2.2
          · cases hc
        exact (grantRestore_work _ _ hu).trans (ih _)
      · split
        · exact (grantDup_work _ s).trans (ih _)
        · exact Work.refl s

theorem grantAll_work (s : State) : Work s (grantAll s) :=
  (Work.foldl (fun _ _ => grantLoop_work _ _ _) _ _).after (presentAll_work s)

theorem dupNotice_work (v : Nat) (e : DupEnd) (c : DupCause) (l : DupFailure) (s : State) : Work s (dupNotice v e c l s) :=
  notify_work _ _ s

theorem emptyPlace_work (v : Nat) (e : DupEnd) (s : State) : Work s (emptyPlace v e s) := .write rfl rfl rfl rfl rfl rfl

theorem completeDup_work (v : Nat) (j : DupJob) (s : State) : Work s (completeDup v j s) := by
  unfold completeDup
  dsimp only
  refine (dupNotice_work _ _ _ _ _).after ((emptyPlace_work _ _ _).after ((setVolume_work ⟨_, _, _, _, rfl⟩).after ?_))
  split
  · exact Work.refl s
  · exact unpin_work _ s

theorem endDup_work (v : Nat) (r : DupReason) (c : DupCause) (j : DupJob) (s : State) : Work s (endDup v r c j s) := by
  unfold endDup
  dsimp only
  refine (dupNotice_work _ _ _ _ _).after ((emptyPlace_work _ _ _).after ?_)
  split
  · exact Work.refl s
  · exact unpin_work _ s

theorem settleDup_work (v : Nat) (s : State) : Work s (settleDup v s) := by
  unfold settleDup
  split
  · exact Work.refl s
  · dsimp only
    split
    · exact (completeDup_work _ _ _).after (setDupJob_work _ _ s)
    · exact setDupJob_work _ _ s

theorem shipDone_work (v : Nat) (j : DupJob) (s : State) : Work s (shipDone v j s) := by
  unfold shipDone
  split
  · exact Work.refl s
  · dsimp only
    split
    · exact endDup_work _ _ _ _ s
    · exact (settleDup_work _ _).after (setDupJob_work _ _ s)

theorem batchFailed_work (v : Nat) (w : DupFailure) (j : DupJob) (s : State) : Work s (batchFailed v w j s) := by
  unfold batchFailed
  split
  · exact Work.refl s
  · dsimp only
    split
    · exact endDup_work _ _ _ _ s
    · split
      · exact endDup_work _ _ _ _ s
      · exact setDupJob_work _ _ s

theorem createDup_work (v a b : Nat) (st : DupState) (o : DupOrigin) (s : State) : Work s (createDup v a b st o s) :=
  (dupNotice_work _ _ _ _ _).after ((setDupJob_work _ _ _).after (pin_work _ s))

theorem noTargetDup_work (v : Nat) (c : DupCause) (s : State) : Work s (noTargetDup v c s) := by
  unfold noTargetDup
  exact (dupNotice_work _ _ _ _ _).after (.write rfl rfl rfl rfl rfl rfl)

theorem nightlyItem_work (s : State) (i : NightlyItem) : Work s (nightlyItem s i) := by
  unfold nightlyItem
  split
  · exact Work.refl s
  · split
    · exact noTargetDup_work _ _ s
    · split
      · exact noTargetDup_work _ _ s
      · split
        · exact createDup_work _ _ _ _ _ s
        · exact noTargetDup_work _ _ s

theorem targetDone_work (v id : Nat) (s : State) : Work s (targetDone v id s) := by
  unfold targetDone
  split
  · exact Work.refl s
  · split
    · split
      · exact (settleDup_work _ _).after (setDupJob_work _ _ s)
      · exact setDupJob_work _ _ s
    · exact Work.refl s

theorem targetFailed_work (v id : Nat) (s : State) : Work s (targetFailed v id s) := by
  unfold targetFailed
  split
  · exact Work.refl s
  · split
    · exact endDup_work _ _ _ _ s
    · exact Work.refl s

theorem toDcWrite_work (l : List ScMessage) (s : State) : Work s { s with sc := { s.sc with toDc := l } } :=
  .write rfl rfl rfl rfl rfl rfl

theorem drainMessages_work (n : Nat) (s : State) : Work s (drainMessages n s) := by
  induction n generalizing s with
  | zero => exact Work.refl s
  | succ n ih =>
    unfold drainMessages
    split
    · exact ((toDcWrite_work _ s).trans (targetDone_work _ _ _)).trans (ih _)
    · exact ((toDcWrite_work _ s).trans (targetFailed_work _ _ _)).trans (ih _)
    · exact Work.refl s

theorem dcListen_work (s : State) : Work s (dcListen s) := drainMessages_work _ s

theorem afterLeave_work (s : State) : Work s (afterLeave s) := (grantAll_work _).after (dcListen_work s)

/-! ### Window and time -/

theorem handOpenGroups_work (s : State) : Work s (handOpenGroups s) := .write rfl rfl rfl rfl rfl rfl

theorem refillBudget_work (s : State) : Work s (refillBudget s) := .write rfl rfl rfl rfl rfl rfl

theorem dupStates_work (a b : DupState) (s : State) : Work s (dupStates a b s) := .write rfl rfl rfl rfl rfl rfl

theorem resumeJobs_work (s : State) : Work s (resumeJobs s) :=
  (Work.foldl (fun _ _ => settleDup_work _ _) _ _).after (dupStates_work _ _ s)

theorem windowOpen_work (j : Nat) (c : WindowCause) (s : State) : Work s (windowOpen j c s) := by
  unfold windowOpen
  dsimp only
  refine (notify_work _ _ _).after ((resumeJobs_work _).after ((handOpenGroups_work _).after ((refillBudget_work _).after ?_)))
  exact .write rfl rfl rfl rfl rfl rfl

theorem cwuWrite_work (c : Cwu) (s : State) : Work s { s with cwu := c } := .write rfl rfl rfl rfl rfl rfl

theorem slotBoundary_work (j : Nat) (s : State) : Work s (slotBoundary j s) := by
  unfold slotBoundary
  dsimp only
  refine (handOpenGroups_work _).after ?_
  split
  · exact cwuWrite_work _ s
  · exact (refillBudget_work _).after (cwuWrite_work _ s)

theorem windowClose_work (j : Nat) (c : WindowCause) (s : State) : Work s (windowClose j c s) := by
  unfold windowClose
  exact (notify_work _ _ _).after ((dupStates_work _ _ _).after ((handOpenGroups_work _).after (cwuWrite_work _ s)))

theorem evaluateWindow_work (c : WindowCause) (s : State) : Work s (evaluateWindow c s) := by
  unfold evaluateWindow
  split
  · exact Work.refl s
  · exact windowOpen_work _ _ s
  · exact windowClose_work _ _ s
  · split
    · exact Work.refl s
    · split
      · dsimp only; split
        · exact windowClose_work _ _ s
        · exact (windowOpen_work _ _ _).after ((grantAll_work _).after (windowClose_work _ _ s))
      · exact slotBoundary_work _ s

theorem trendTick_work (s : State) : Work s (trendTick s) := by
  unfold trendTick
  split
  · exact .write rfl rfl rfl rfl rfl rfl
  · exact cwuWrite_work _ s

theorem minuteTick_work (s : State) : Work s (minuteTick s) :=
  (evaluateWindow_work _ _).after ((trendTick_work _).after ((ageRetention_work _).after ((graceWalk_work _).after
    (cwuWrite_work _ s))))

/-! ### Records taken -/

theorem markRegion_work (v b : Nat) (s : State) : Work s (markRegion v b s) := setVolume_work ⟨_, _, _, _, rfl⟩

theorem chargePart_work (r : ChangeRecord) (p q c : Nat) (s : State) : Work s (chargePart r p q c s) := by
  unfold chargePart
  split
  · exact chargeAlloc_work _ _ _ s
  · split
    · exact chargeFree_work _ _ s
    · exact chargeMove_work _ _ _ s

theorem holdPart_work (r : ChangeRecord) (s : State) : Work s (holdPart r s) := by
  unfold holdPart
  split
  · exact attributeHold_work _ _ _ s
  · exact Work.refl s

theorem breachPart_work (srv num : Nat) (r : ChangeRecord) (p q : Nat) (s : State) : Work s (breachPart srv num r p q s) := by
  unfold breachPart
  split
  · exact detectBreach_work _ _ _ _ _ _ s
  · split
    · exact detectBreach_work _ _ _ _ _ _ s
    · exact Work.refl s

theorem takeRecord_work (srv num : Nat) (r : ChangeRecord) (s : State) : Work s (takeRecord srv num r s) := by
  unfold takeRecord
  dsimp only
  refine (breachPart_work _ _ _ _ _ _).after ((markRegion_work _ _ _).after ((holdPart_work _ _).after
    ((chargePart_work _ _ _ _ _).after ?_)))
  split
  · exact .write rfl rfl rfl rfl rfl rfl
  · exact Work.refl s

/-! ### Completions taken -/

theorem snapLive_work (srv num : Nat) (s : State) : Work s (snapLive srv num s) := by
  unfold snapLive
  split
  · exact Work.refl s
  · exact (pressureTest_work _ _).after ((takeRetention_work _ _ _).after ((toDcWrite_work _ _).after
      ((notify_work _ _ _).after (setSnap_work _ _ s))))

theorem snapFails_work (srv num code : Nat) (s : State) : Work s (snapFails srv num code s) := by
  unfold snapFails
  split
  · exact Work.refl s
  · exact failTake_work _ _ _ _ s

theorem dropAcked_work (srv num : Nat) (s : State) : Work s (dropAcked srv num s) := by
  unfold dropAcked
  split
  · exact Work.refl s
  · exact delSnap_work _ s

theorem copyDone_work (srv num : Nat) (s : State) : Work s (copyDone srv num s) := by
  unfold copyDone
  dsimp only
  split
  · exact returnRestore_work _ s
  · exact (testRestoreEnd_work _ _).after ((setRestoreJob_work _ _ _).after (returnRestore_work _ s))

theorem copyFail_work (srv num : Nat) (b : BitVec 8) (s : State) : Work s (copyFail srv num b s) := by
  unfold copyFail
  dsimp only
  split
  · exact returnRestore_work _ s
  · exact (testRestoreEnd_work _ _).after ((setRestoreJob_work _ _ _).after (returnRestore_work _ s))

theorem shipCompletes_work (srv num : Nat) (s : State) : Work s (shipCompletes srv num s) := by
  unfold shipCompletes
  dsimp only
  split
  · exact returnShip_work _ s
  · exact (shipDone_work _ _ _).after (returnShip_work _ s)

theorem shipFails_work (srv num code : Nat) (s : State) : Work s (shipFails srv num code s) := by
  unfold shipFails
  dsimp only
  split
  · exact returnShip_work _ s
  · exact (batchFailed_work _ _ _ _).after (returnShip_work _ s)

/-! ### The part's own steps -/

theorem sampleComes_work (s : State) : Work s (sampleComes s) := by
  unfold sampleComes
  split
  · exact Work.refl s
  · split
    · exact .write rfl rfl rfl rfl rfl rfl
    · exact .write rfl rfl rfl rfl rfl rfl

theorem visitNext_work (s : State) : Work s (visitNext s) := by
  unfold visitNext
  split
  · exact Work.refl s
  · split
    · exact .write rfl rfl rfl rfl rfl rfl
    · rename_i w _ key _
      have h (x : Option Sweep) (t : State) : Work t { t with ce := { t.ce with sweep := x } } := .write rfl rfl rfl rfl rfl rfl
      dsimp only
      split
      · exact (notify_work _ _ _).after ((h _ _).after (setAcct_work _ _ s))
      · exact (h _ _).after (setAcct_work _ _ s)

theorem graceVisitNext_work (s : State) : Work s (graceVisitNext s) := by
  have h (x : Option GraceSweep) (t : State) : Work t { t with qm := { t.qm with sweep := x } } := .write rfl rfl rfl rfl rfl rfl
  unfold graceVisitNext
  split
  · exact Work.refl s
  · split
    · exact h _ s
    · exact (evaluate_work _ _ _).after ((h _ _).after (setAcct_work _ _ s))

theorem nightlyList_work (s : State) : Work s (nightlyList s) := by
  unfold nightlyList
  split
  · exact Work.refl s
  · split
    · exact (grantAll_work _).after ((dcListen_work _).after ((Work.foldl nightlyItem_work _ _).after (toDcWrite_work _ s)))
    · exact Work.refl s

end Sys2Proof.Machine
end

