-- ==== Sys2Proof/Proofs/WorkOfLinks.lean ====
section
/-! SUPPORT. Server links: what their comings and goings raise, whatever else they do. -/

namespace Sys2Proof.Machine

/-! ### Orders failed back -/

theorem snapFailedBack_work (srv num : Nat) (q : Bool) (s : State) : Work s (snapFailedBack srv num q s) := by
  unfold snapFailedBack
  split
  · exact failTake_work _ _ _ _ s
  · split
    · exact setSnap_work _ _ s
    · exact Work.refl s

theorem copyFailedBack_work (srv num : Nat) (s : State) : Work s (copyFailedBack srv num s) := by
  unfold copyFailedBack
  split
  · exact Work.refl s
  · exact (testRestoreEnd_work _ _).after (setRestoreJob_work _ _ s)

theorem shipFailedBack_work (srv num : Nat) (s : State) : Work s (shipFailedBack srv num s) := by
  unfold shipFailedBack
  split
  · exact Work.refl s
  · exact batchFailed_work _ _ _ s

theorem failBack_work (srv : Nat) (q : Bool) (s : State) (o : Order) : Work s (failBack srv q s o) := by
  unfold failBack
  split
  · exact snapFailedBack_work _ _ _ s
  · exact copyFailedBack_work _ _ s
  · exact shipFailedBack_work _ _ s
  · exact Work.refl s

theorem resendDrops_work (srv : Nat) (s : State) : Work s (resendDrops srv s) := Work.foldl (fun _ _ => handDrop_work _ _) _ s

theorem resetCredits_work (srv : Nat) (s : State) : Work s (resetCredits srv s) := setCredit_work _ _ s

theorem notifyStale_work (v : Nat) (b : Bool) (a : VolState) (w : StaleReason) (s : State) : Work s (notifyStale v b a w s) :=
  notify_work _ _ s

theorem notifyLink_work (srv : Nat) (a b : LinkState) (w : LinkReason) (s : State) : Work s (notifyLink srv a b w s) :=
  notify_work _ _ s

/-! ### What the links' own work raises -/

theorem setLink_silent (i : Nat) (l : Link) (s : State) : Noticed [] s (setLink i l s) := rfl
theorem setVolume_silent (i : Nat) (r : Volume) (s : State) : Noticed [] s (setVolume i r s) := rfl
theorem setIntake_silent (i : Nat) (r : Intake) (s : State) : Noticed [] s (setIntake i r s) := rfl

theorem setLink_speaks (i : Nat) (l : Link) (s : State) : Speaks s (setLink i l s) := (setLink_silent i l s).speaks
theorem setIntake_speaks (i : Nat) (r : Intake) (s : State) : Speaks s (setIntake i r s) := (setIntake_silent i r s).speaks

theorem Speaks.after {s t u : State} (h2 : Speaks t u) (h1 : Speaks s t) : Speaks s u := h1.trans h2

theorem moveLink_noticed (srv : Nat) (a : LinkState) (w : LinkReason) (s : State) :
    Noticed [⟨.server srv, .linkState (link s srv).state a w (now s)⟩] s (moveLink srv a w s) :=
  (setLink_silent _ _ s).silent_trans (notify_noticed _ _ _)

theorem volumeStale_speaks (q : Bool) (s : State) (v : Nat) : Speaks s (volumeStale q s v) := by
  unfold volumeStale
  dsimp only
  split
  · exact (setVolume_silent _ _ s).speaks
  · exact (notifyStale_work _ _ _ _ _).speaks.after (setVolume_silent _ _ s).speaks

theorem volumesLeave_speaks (srv : Nat) (q : Bool) (s : State) : Speaks s (volumesLeave srv q s) :=
  Speaks.foldl (volumeStale_speaks q) _ s

theorem volumesEnter_speaks (srv : Nat) (s : State) : Speaks s (volumesEnter srv s) :=
  Speaks.foldl (fun _ _ => (notifyStale_work _ _ _ _ _).speaks.after (setVolume_silent _ _ _).speaks) _ s

theorem intakeLeave_silent (srv : Nat) (s : State) : Noticed [] s (intakeLeave srv s) := by
  unfold intakeLeave
  dsimp only
  split
  · exact setIntake_silent _ _ s
  · exact setIntake_silent _ _ s

/-- The parts of a leaving before the orders are failed back: VT, CCA and CIU. -/
def leaveParting (srv : Nat) (to_ : LinkState) (why : LinkReason) (quiet : Bool) (s : State) : State :=
  let s2 := resetCredits srv (volumesLeave srv quiet (changeLink srv to_ why (emptyLink srv s)))
  if quiet then intakeRestart srv s2 else intakeLeave srv s2

theorem leaveUp_eq (srv : Nat) (to_ : LinkState) (why : LinkReason) (quiet : Bool) (s : State) :
    leaveUp srv to_ why quiet s =
      enforceLeave srv ((link s srv).orders.foldl (failBack srv quiet) (leaveParting srv to_ why quiet s)) := rfl

theorem leaveParting_speaks (srv : Nat) (a : LinkState) (w : LinkReason) (q : Bool) (s : State) :
    Speaks s (leaveParting srv a w q s) := by
  have h : Speaks s (resetCredits srv (volumesLeave srv q (changeLink srv a w (emptyLink srv s)))) :=
    (resetCredits_work _ _).speaks.after ((volumesLeave_speaks _ _ _).after
      ((setLink_speaks _ _ _).after (setLink_speaks _ _ s)))
  unfold leaveParting
  dsimp only
  split
  · exact (setIntake_speaks _ _ _).after h
  · exact (intakeLeave_silent _ _).speaks.after h

/-- The rest of a leaving, once the link is no longer UP: the orders failed back, and the ET's part. -/
theorem leaveRest_work (srv : Nat) (q : Bool) (os : List Order) (s : State) :
    Work s (enforceLeave srv (os.foldl (failBack srv q) s)) :=
  (enforceLeave_work _ _).after (Work.foldl (failBack_work srv q) os s)

theorem leaveUp_speaks (srv : Nat) (a : LinkState) (w : LinkReason) (q : Bool) (s : State) : Speaks s (leaveUp srv a w q s) :=
  (leaveRest_work srv q _ _).speaks.after (leaveParting_speaks srv a w q s)

theorem dropLink_speaks (srv : Nat) (a : LinkState) (w : LinkReason) (s : State) : Speaks s (dropLink srv a w s) :=
  (afterLeave_work _).speaks.after ((notifyLink_work _ _ _ _ _).speaks.after (leaveUp_speaks _ _ _ _ s))

theorem protocolFault_speaks (srv : Nat) (s : State) : Speaks s (protocolFault srv s) := dropLink_speaks _ _ _ s

/-- The LU's, the CIU's and the VT's parts of an entry into UP, with its LINK_STATE. -/
def enterParting (srv : Nat) (how : Reentry) (old : LinkState) (s : State) : State :=
  volumesEnter srv (intakeEnter srv how (notifyLink srv old .up (reentryReason how) (luEnter srv how s)))

theorem enterUp_eq (srv : Nat) (how : Reentry) (old : LinkState) (s : State) :
    enterUp srv how old s = grantAll (resendDrops srv (enforceEnter srv (enterParting srv how old s))) := rfl

theorem enterParting_speaks (srv : Nat) (h : Reentry) (o : LinkState) (s : State) : Speaks s (enterParting srv h o s) :=
  (volumesEnter_speaks _ _).after ((setIntake_speaks _ _ _).after
    ((notifyLink_work _ _ _ _ _).speaks.after (setLink_speaks _ _ s)))

theorem volumeBack_lu (s : State) (v : Nat) : (volumeBack s v).lu.links = s.lu.links := pump_lu_links _

theorem volumesEnter_links (srv : Nat) (s : State) : (volumesEnter srv s).lu.links = s.lu.links := by
  have h : ∀ (l : List Nat) (s : State), (l.foldl volumeBack s).lu.links = s.lu.links := by
    intro l
    induction l with
    | nil => intro s; rfl
    | cons v r ih => intro s; exact (ih _).trans (volumeBack_lu s v)
  exact h _ s

theorem link_enterParting (srv : Nat) (h : Reentry) (o : LinkState) (s : State) (j : Nat) :
    link (enterParting srv h o s) j = link (luEnter srv h s) j := by
  unfold link enterParting
  rw [volumesEnter_links]
  exact congrArg (fun x => tgetD Link.cold x j) (pump_lu_links _)

theorem enterParting_up (srv : Nat) (h : Reentry) (o : LinkState) (s : State) : linkUp (enterParting srv h o s) srv = true := by
  unfold linkUp
  rw [link_enterParting]
  simp [luEnter, link_setLink]

theorem enterUp_rest_work (srv : Nat) (h : Reentry) (o : LinkState) (s : State) :
    Work (enterParting srv h o s) (enterUp srv h o s) :=
  (grantAll_work _).after ((resendDrops_work _ _).after (enforceEnter_work (enterParting_up srv h o s)))

theorem enterUp_speaks (srv : Nat) (h : Reentry) (o : LinkState) (s : State) : Speaks s (enterUp srv h o s) :=
  (enterUp_rest_work srv h o s).speaks.after (enterParting_speaks srv h o s)

theorem reenterFromUp_speaks (srv : Nat) (h : Reentry) (s : State) : Speaks s (reenterFromUp srv h s) := by
  have h1 : Speaks s (afterLeave (leaveUp srv .syncing (reentryReason h) false s)) :=
    (afterLeave_work _).speaks.after (leaveUp_speaks _ _ _ _ s)
  unfold reenterFromUp
  dsimp only
  split
  · exact (setLink_speaks _ _ _).after h1
  · exact (enterUp_speaks _ _ _ _).after h1

theorem enterFrom_speaks (srv : Nat) (h : Reentry) (s : State) : Speaks s (enterFrom srv h s) := by
  unfold enterFrom
  dsimp only
  split
  · exact Speaks.refl s
  · exact enterUp_speaks _ _ _ s

theorem serverFrame_speaks {srv : Nat} {f : State → State} {s : State}
    (hf : linkUp s srv = true → Speaks (frameArrived srv s) (f (frameArrived srv s))) : Speaks s (serverFrame srv f s) := by
  have h : Speaks s (frameArrived srv s) := setLink_speaks _ _ s
  unfold serverFrame
  split
  · exact Speaks.refl s
  · dsimp only
    split
    · exact h
    · split
      · exact h.trans (hf ‹_›)
      · exact h

theorem completion_speaks {srv num : Nat} {k : OrderKind} {f : State → State} {s : State}
    (hf : Speaks (setLink srv { link s srv with orders := (link s srv).orders.filter fun x => x.num ≠ num } s)
      (f (setLink srv { link s srv with orders := (link s srv).orders.filter fun x => x.num ≠ num } s))) :
    Speaks s (completion srv num k f s) := by
  unfold completion
  split
  · exact Speaks.refl s
  · split
    · exact (setLink_speaks _ _ s).trans hf
    · exact protocolFault_speaks _ s

theorem silenceTick_speaks (s : State) (srv : Nat) : Speaks s (silenceTick s srv) := by
  unfold silenceTick
  split
  · dsimp only
    split
    · exact (dropLink_speaks _ _ _ _).after (setLink_speaks _ _ s)
    · exact setLink_speaks _ _ s
  · exact Speaks.refl s

theorem handFrame_silent (srv : Nat) (f : TxFrame) (s : State) : Noticed [] s (handFrame srv f s) := rfl

theorem idleTick_silent (s : State) (srv : Nat) : Noticed [] s (idleTick s srv) := by
  unfold idleTick
  dsimp only
  split
  · exact (handFrame_silent _ _ s).trans (setLink_silent _ _ _)
  · exact setLink_silent _ _ s

theorem idleTicks_silent (l : List Nat) (s : State) : Noticed [] s (l.foldl idleTick s) := by
  induction l generalizing s with
  | nil => exact Noticed.refl s
  | cons j r ih => exact (idleTick_silent s j).trans (ih _)

/-- The second count, and at 60 the minute event with its grants. -/
def secondCount (s : State) : State :=
  if s.cwu.second + 1 = 60 then grantAll (minuteTick { s with cwu := { s.cwu with second := 0 } })
  else { s with cwu := { s.cwu with second := s.cwu.second + 1 } }

theorem secondTick_eq (s : State) :
    secondTick s = serverList.foldl idleTick (serverList.foldl silenceTick (secondCount s)) := rfl

theorem secondCount_work (s : State) : Work s (secondCount s) := by
  unfold secondCount
  split
  · exact (grantAll_work _).after ((minuteTick_work _).after (cwuWrite_work _ s))
  · exact cwuWrite_work _ s

theorem secondTick_speaks (s : State) : Speaks s (secondTick s) :=
  (idleTicks_silent _ _).speaks.after ((Speaks.foldl silenceTick_speaks _ _).after (secondCount_work s).speaks)

theorem takeChanges_speaks (srv tag : Nat) (recs : List ChangeRecord) (s : State) : Speaks s (takeChanges srv tag recs s) := by
  unfold takeChanges
  dsimp only
  split
  · exact protocolFault_speaks _ s
  · split
    · exact (dropLink_speaks _ _ _ _).after (setIntake_speaks _ _ s)
    · exact setIntake_speaks _ _ s

theorem afterRecord_silent (srv : Nat) (q : QueuedRecord) (rest : List QueuedRecord) (v : Option Verdict) (s : State) :
    Noticed [] s (afterRecord srv q rest v s) := by
  unfold afterRecord
  dsimp only
  split
  · split
    · exact setIntake_silent _ _ s
    · exact setIntake_silent _ _ s
  · split
    · exact (setIntake_silent _ _ s).trans (handFrame_silent _ _ _)
    · exact setIntake_silent _ _ s

theorem dealWith_speaks (srv : Nat) (q : QueuedRecord) (rest : List QueuedRecord) (s : State) :
    Speaks s (dealWith srv q rest s) := by
  unfold dealWith
  refine (afterRecord_silent _ _ _ _ _).speaks.after ?_
  split
  · exact (takeRecord_work _ _ _ s).speaks
  · exact Speaks.refl s

theorem linkGains_speaks (srv : Nat) (s : State) : Speaks s (linkGains srv s) := by
  unfold linkGains
  split
  · exact (moveLink_noticed _ _ _ s).speaks
  · exact Speaks.refl s

theorem linkLoses_speaks (srv : Nat) (s : State) : Speaks s (linkLoses srv s) := by
  unfold linkLoses
  split
  · exact Speaks.refl s
  · exact dropLink_speaks _ _ _ s
  · exact (moveLink_noticed _ _ _ _).speaks.after (setLink_speaks _ _ s)
  · exact (moveLink_noticed _ _ _ _).speaks.after (setLink_speaks _ _ s)

theorem helloArrives_speaks (srv : Nat) (s : State) : Speaks s (helloArrives srv s) := by
  have h : Speaks s (frameArrived srv s) := setLink_speaks _ _ s
  unfold helloArrives
  split
  · exact Speaks.refl s
  · dsimp only
    split
    · exact h
    · split
      · exact h.trans (reenterFromUp_speaks _ _ _)
      · exact h.trans (enterFrom_speaks _ _ _)
      · exact h
      · exact h

theorem resyncArrives_speaks (srv : Nat) (s : State) : Speaks s (resyncArrives srv s) := by
  have h : Speaks s (frameArrived srv s) := setLink_speaks _ _ s
  unfold resyncArrives
  split
  · exact Speaks.refl s
  · dsimp only
    split
    · exact h
    · split
      · exact h.trans (reenterFromUp_speaks _ _ _)
      · exact h.trans (enterFrom_speaks _ _ _)
      · exact h.trans (enterFrom_speaks _ _ _)
      · exact h

theorem reEnter_speaks (srv : Nat) (s : State) : Speaks s (reEnter srv s) := by
  unfold reEnter
  split
  · exact Speaks.refl s
  · split
    · exact enterUp_speaks _ _ _ s
    · exact Speaks.refl s

theorem serverChars_speaks (srv : Nat) (chars : List RxChar) (s : State) : Speaks s (serverChars srv chars s) := by
  unfold serverChars
  split
  · dsimp only
    split
    · exact Speaks.refl s
    · split
      · exact (protocolFault_speaks _ _).after (setLink_speaks _ _ s)
      · exact setLink_speaks _ _ s
  · exact Speaks.refl s

theorem unusable_speaks (srv kind num len : Nat) (s : State) : Speaks s (unusable srv kind num len s) := by
  unfold unusable
  split
  · exact serverFrame_speaks fun _ => protocolFault_speaks _ _
  · exact Speaks.refl s

theorem serverSent_speaks (srv : Nat) (s : State) : Speaks s (serverSent srv s) := by
  unfold serverSent
  split
  · exact Speaks.refl s
  · exact setLink_speaks _ _ s

theorem intakeNext_speaks (srv : Nat) (s : State) : Speaks s (intakeNext srv s) := by
  unfold intakeNext
  split
  · exact Speaks.refl s
  · exact dealWith_speaks _ _ _ s

theorem nightlyTake_speaks (a : State × List NightlyItem) (v : Nat) : Speaks a.1 (nightlyTake a v).1 := by
  have hsnap (s : State) : Speaks s (takeSnap v .nightly false s).1 := (Noticed.nil (by rfl)).speaks
  unfold nightlyTake
  dsimp only
  split
  · exact (notify_work _ _ _).speaks
  · split
    · exact (notify_work _ _ _).speaks
    · split
      · exact (notify_work _ _ _).speaks
      · exact hsnap _

theorem nightlyTakes_speaks (l : List Nat) (a : State × List NightlyItem) : Speaks a.1 (l.foldl nightlyTake a).1 := by
  induction l generalizing a with
  | nil => exact Speaks.refl _
  | cons v r ih => exact (nightlyTake_speaks a v).trans (ih _)

theorem nightlyRound_speaks (s : State) : Speaks s (nightlyRound s) := by
  have h0 : Speaks s { s with sc := { s.sc with opensDue := s.sc.opensDue - 1 } } := (Noticed.nil (by rfl)).speaks
  unfold nightlyRound
  split
  · exact Speaks.refl s
  · dsimp only
    split
    · exact h0.trans (nightlyTakes_speaks _ _)
    · exact (toDcWrite_work _ _).speaks.after (h0.trans (nightlyTakes_speaks _ _))

end Sys2Proof.Machine
end

