-- ==== Sys2Proof/Proofs/ManagementLink.lean ====
section
/-! SUPPORT. The management link's lists: what `pump` establishes, and what raising notices and answering keep. -/

namespace Sys2Proof.Machine

/-- What `pump` needs to bring about `MgmtInv`: every clause but the one on a free transmit side. -/
structure Pumpable (s : State) : Prop where
  replies : s.lu.replies.length ≤ 8
  busy : s.lu.busy.length ≤ 8
  head : ∀ e, s.lu.mgmtTx = some (.reply e) → s.lu.replies.head? = some e
  absent : s.pins.mgmtCarrier = false → s.lu.mgmtTx = none
  taken : s.lu.restart = .taken → s.lu.replies ≠ []
  due : s.lu.restart = .due ∨ s.lu.restart = .inProgress → s.lu.replies = []

theorem MgmtInv.pumpable {s : State} (h : MgmtInv s) : Pumpable s := ⟨h.replies, h.busy, h.head, h.absent, h.taken, h.due⟩

theorem Pumpable.withNq {s : State} (h : Pumpable s) (q : Nq) : Pumpable { s with nq := q } :=
  ⟨h.replies, h.busy, h.head, h.absent, h.taken, h.due⟩

theorem startNext_mgmtInv {s : State} (h : Pumpable s) (hc : s.pins.mgmtCarrier = true) :
    MgmtInv (startNext s) := by
  have hno : s.pins.mgmtCarrier = false → ∀ x, some x = (none : Option MgmtFrame) := fun h => by rw [hc] at h; cases h
  unfold startNext
  split
  · exact ⟨h.replies, h.busy, fun h => (by cases h), fun _ h => (by cases h), fun h => hno h _, h.taken, h.due⟩
  · rename_i hslot
    split
    · rename_i tag more hb
      have hlen := h.busy
      rw [hb] at hlen
      exact ⟨h.replies, Nat.le_of_succ_le hlen, fun h => (by cases h), fun _ h => (by cases h), fun h => hno h _,
        h.taken, h.due⟩
    · rename_i hb
      split
      · rename_i e rest hr
        exact ⟨h.replies, h.busy, fun h => (by cases h), fun x hx => (by cases hx; exact congrArg List.head? hr),
          fun h => hno h _, h.taken, h.due⟩
      · rename_i hr
        exact ⟨h.replies, h.busy, fun _ => ⟨hslot, hb, hr⟩, h.head, h.absent, h.taken, h.due⟩

theorem discardWaiting_mgmtInv {s : State} (htx : s.lu.mgmtTx = none) : MgmtInv (discardWaiting s) where
  replies := Nat.zero_le _
  busy := Nat.zero_le _
  free _ := ⟨rfl, rfl, rfl⟩
  head e he := by rw [show (discardWaiting s).lu.mgmtTx = s.lu.mgmtTx from rfl, htx] at he; cases he
  absent _ := htx
  taken h := by
    change (if s.lu.restart = .taken then RestartPhase.due else s.lu.restart) = .taken at h
    split at h
    · cases h
    · exact absurd h ‹_›
  due _ := rfl

/-- Whatever waits, the transmit side is busy or the lists are empty once it has been given its next frame. -/
theorem pump_mgmtInv {s : State} (h : Pumpable s) : MgmtInv (pump s) := by
  unfold pump
  split
  · rename_i hs
    exact ⟨h.replies, h.busy, fun hn => (by rw [hn] at hs; cases hs), h.head, h.absent, h.taken, h.due⟩
  · rename_i hs
    have htx : s.lu.mgmtTx = none := by simpa using hs
    split
    · exact startNext_mgmtInv h ‹_›
    · exact discardWaiting_mgmtInv htx

theorem raise_mgmtInv (n : Notice) {s : State} (h : MgmtInv s) : MgmtInv (raise n s) := pump_mgmtInv (h.pumpable.withNq _)

theorem MgmtInv.of_view {s t : State} (h : MgmtInv s) (hv : mgmtView t = mgmtView s) : MgmtInv t := by
  obtain ⟨hc, htx, hr, hb, hp, hn⟩ := mgmtView_eq_iff.1 hv
  exact ⟨by rw [hr]; exact h.replies, by rw [hb]; exact h.busy, by rw [htx, hn, hb, hr]; exact h.free,
    by rw [htx, hr]; exact h.head, by rw [hc, htx]; exact h.absent, by rw [hp, hr]; exact h.taken, by rw [hp, hr]; exact h.due⟩

theorem raiseAll_mgmtInv (ns : List Notice) {s : State} (h : MgmtInv s) : MgmtInv (raiseAll ns s) := by
  induction ns generalizing s with
  | nil => exact h
  | cons n ns ih => exact ih (raise_mgmtInv n h)

/-- Whatever notices are raised, the management lists keep their form. -/
theorem Speaks.mgmtInv {s t : State} (h : Speaks s t) (hs : MgmtInv s) : MgmtInv t := by
  obtain ⟨ns, hn⟩ := h
  exact (raiseAll_mgmtInv ns hs).of_view hn

/-! ### A reply joins the list -/

/-- A reply can join the reply list. -/
structure Admits (s : State) : Prop where
  carrier : s.pins.mgmtCarrier = true
  replies : s.lu.replies.length < 8
  busy : s.lu.busy.length ≤ 8
  head : ∀ e, s.lu.mgmtTx = some (.reply e) → s.lu.replies.head? = some e
  restart : s.lu.restart ≠ .due ∧ s.lu.restart ≠ .inProgress

theorem Admits.of_view {s t : State} (h : Admits s) (hv : mgmtView t = mgmtView s) : Admits t := by
  obtain ⟨hc, htx, hr, hb, hp, hn⟩ := mgmtView_eq_iff.1 hv
  exact ⟨by rw [hc]; exact h.carrier, by rw [hr]; exact h.replies, by rw [hb]; exact h.busy, by rw [htx, hr]; exact h.head,
    by rw [hp]; exact h.restart⟩

theorem startNext_admits {s : State} (h : Admits s) : Admits (startNext s) := by
  unfold startNext
  split
  · exact ⟨h.carrier, h.replies, h.busy, fun _ h => (by cases h), h.restart⟩
  · split
    · rename_i tag more hb
      have hlen := h.busy
      rw [hb] at hlen
      exact ⟨h.carrier, h.replies, Nat.le_of_succ_le hlen, fun _ h => (by cases h), h.restart⟩
    · split
      · rename_i e rest hr
        exact ⟨h.carrier, h.replies, h.busy, fun x hx => (by cases hx; exact congrArg List.head? hr), h.restart⟩
      · exact h

theorem pump_admits {s : State} (h : Admits s) : Admits (pump s) := by
  unfold pump
  split
  · exact h
  · rw [if_pos h.carrier]; exact startNext_admits h

theorem raise_admits (n : Notice) {s : State} (h : Admits s) : Admits (raise n s) :=
  pump_admits ⟨h.carrier, h.replies, h.busy, h.head, h.restart⟩

theorem Speaks.admits {s t : State} (h : Speaks s t) (hs : Admits s) : Admits t := by
  obtain ⟨ns, hn⟩ := h
  refine Admits.of_view ?_ hn
  clear hn
  induction ns generalizing s with
  | nil => exact hs
  | cons n ns ih => exact ih (raise_admits n hs)

theorem answer_mgmtInv (tag : BitVec 16) (r : Reply) {s : State} (h : Admits s) : MgmtInv (answer tag r s) :=
  pump_mgmtInv
    { replies := by simpa using h.replies
      busy := h.busy
      head := fun e he => by
        have := h.head e he
        cases hr : s.lu.replies with
        | nil => rw [hr] at this; cases this
        | cons x l => rw [hr] at this; exact this
      absent := fun hc => by rw [show s.pins.mgmtCarrier = true from h.carrier] at hc; cases hc
      taken := fun _ => by simp
      due := fun hd => by rcases hd with hd | hd
                          · exact absurd hd h.restart.1
                          · exact absurd hd h.restart.2 }

theorem answerBusy_mgmtInv (tag : BitVec 16) {s : State} (h : MgmtInv s) : MgmtInv (answerBusy tag s) := by
  unfold answerBusy
  split
  · rename_i hb
    exact pump_mgmtInv ⟨h.replies, by simpa using hb, h.head, h.absent, h.taken, h.due⟩
  · exact h

/-- A request keeps the management lists when its effect lets a reply join the list. -/
theorem request_mgmtInv (h : ReqHead) (ok : Bool) {f : State → State × Reply} {s : State} (hs : MgmtInv s)
    (hf : Admits (mgmtHunt s) → Admits (f (mgmtHunt s)).1) : MgmtInv (request h ok f s) := by
  have hh : MgmtInv (mgmtHunt s) := hs.of_view rfl
  unfold request
  split
  · exact hs
  · rename_i hrec
    have hc : s.pins.mgmtCarrier = true := by
      simp only [mgmtReceives, Bool.not_eq_true'] at hrec
      revert hrec; cases s.pins.mgmtCarrier <;> simp
    split
    · exact answerBusy_mgmtInv _ hh
    · rename_i hb
      have had : Admits (mgmtHunt s) := by
        simp only [mgmtBusy, Bool.or_eq_true, decide_eq_true_eq, not_or, not_le, not_not] at hb
        exact ⟨hc, hb.1, hs.busy, hs.head, by rw [show (mgmtHunt s).lu.restart = s.lu.restart from rfl, hb.2]; simp⟩
      split
      · exact answer_mgmtInv _ _ had
      · exact answer_mgmtInv _ _ (hf had)

/-! ### The transmit side -/

theorem txOver_pumpable {s : State} (h : MgmtInv s) : Pumpable (txOver s) := by
  unfold txOver
  split
  · exact h.pumpable
  · have hlen : s.lu.replies.tail.length ≤ 8 := by
      rw [List.length_tail]; exact (Nat.sub_le _ _).trans h.replies
    refine ⟨hlen, h.busy, fun _ h => (by cases h), fun _ => rfl, fun ht hnil => ?_, fun hd => ?_⟩
    · change (if s.lu.restart = .taken ∧ s.lu.replies.tail = [] then RestartPhase.due else s.lu.restart) = .taken at ht
      change s.lu.replies.tail = [] at hnil
      split at ht
      · cases ht
      · rename_i hno; exact hno ⟨ht, hnil⟩
    · change s.lu.replies.tail = []
      change (if s.lu.restart = .taken ∧ s.lu.replies.tail = [] then RestartPhase.due else s.lu.restart) = .due
        ∨ (if s.lu.restart = .taken ∧ s.lu.replies.tail = [] then RestartPhase.due else s.lu.restart) = .inProgress at hd
      split at hd
      · rename_i hy; exact hy.2
      · rw [h.due hd]; rfl
  · exact ⟨h.replies, h.busy, fun _ h => (by cases h), fun _ => rfl, h.taken, h.due⟩
  · exact ⟨h.replies, h.busy, fun _ h => (by cases h), fun _ => rfl, h.taken, h.due⟩

theorem mgmtSent_mgmtInv {s : State} (h : MgmtInv s) : MgmtInv (mgmtSent s) := by
  unfold mgmtSent
  split
  · exact pump_mgmtInv (txOver_pumpable h)
  · exact h

theorem txOver_tx (s : State) : (txOver s).lu.mgmtTx = none := by
  unfold txOver
  split
  · assumption
  · rfl
  · rfl
  · rfl

theorem txOver_carrier (s : State) : (txOver s).pins = s.pins := by
  unfold txOver; split <;> rfl

theorem mgmtLost_eq {s : State} (h : s.pins.mgmtCarrier = true) :
    mgmtLost s = discardWaiting (txOver (mgmtHunt { s with pins := { s.pins with mgmtCarrier := false } })) := by
  unfold mgmtLost
  rw [if_pos h, pump, txOver_tx, txOver_carrier]
  rfl

theorem mgmtLost_mgmtInv {s : State} (h : MgmtInv s) : MgmtInv (mgmtLost s) := by
  by_cases hc : s.pins.mgmtCarrier = true
  · rw [mgmtLost_eq hc]; exact discardWaiting_mgmtInv (txOver_tx _)
  · rw [mgmtLost, if_neg hc]; exact h

/-- The carrier's return finds nothing that waits. -/
theorem mgmtGained_eq {s : State} (h : MgmtInv s) (hc : s.pins.mgmtCarrier = false) :
    mgmtGained s = { s with pins := { s.pins with mgmtCarrier := true }, lu := { s.lu with mgmtRx := .hunting } } := by
  obtain ⟨hslot, hbusy, hrep⟩ := h.free (h.absent hc)
  unfold mgmtGained
  rw [hc]
  simp [pump, mgmtHunt, h.absent hc, startNext, hslot, hbusy, hrep]

theorem mgmtGained_mgmtInv {s : State} (h : MgmtInv s) : MgmtInv (mgmtGained s) := by
  by_cases hc : s.pins.mgmtCarrier = true
  · rw [mgmtGained, if_pos hc]; exact h
  · rw [mgmtGained_eq h (by simpa using hc)]
    exact ⟨h.replies, h.busy, h.free, h.head, fun h => (by cases h), h.taken, h.due⟩

end Sys2Proof.Machine
end

