-- ==== Sys2Proof/Proofs/RequestRules.lean ====
section
/-! SUPPORT. The requests: which effect each command has, that each is either refused with nothing done or applied, and that
what is applied is the work of blocks, but for the volume requests and those of the Notice Queue and RESTART. -/

namespace Sys2Proof.Machine

/-! ### A request and its effect -/

/-- The effect and the reply of a command that is a request or an unknown kind. -/
def requestEffect : Instr → State → State × Reply
  | .attachVolume _ v srv size w => attachVolume v.toNat srv.toNat size.toNat w.toNat
  | .setVolume _ v w l g n => setVolumeReq v.toNat w l g n
  | .detachVolume _ v => detachVolume v.toNat
  | .readVolume _ v first n => readVolume v.toNat first.toNat n.toNat
  | .setSilence _ limit => setSilence limit.toNat
  | .restart _ => takeRestart
  | .setWindow _ start len cap => setWindow start.toNat len.toNat cap.toNat
  | .setSlotmask _ g mask => setSlotmask g.toNat mask
  | .setClock _ part minute => setClock part.toNat minute.toNat
  | .readWindow _ => readWindow
  | .setTrend _ t k w => setTrend t.toNat k.toNat w.toNat
  | .loadUsage _ p usage => loadReq p.toNat usage.toNat
  | .definePrincipal _ p user g => definePrincipal p.toNat user.toNat g
  | .defineGroup _ g => defineGroup g.toNat
  | .setGroup _ p g => setGroupReq p.toNat g
  | .dropPrincipal _ p => dropPrincipalReq p.toNat
  | .dropGroup _ g => dropGroupReq g.toNat
  | .setLimits _ sub soft hard band => setLimits sub soft.toNat hard.toNat band.toNat
  | .grantGrace _ target m => if target = ⟨0, 0⟩ then startGraceSweep m.toNat else grantGrace target m.toNat
  | .grantGraceAll _ m => startGraceSweep m.toNat
  | .readPrincipal _ p => readPrincipal p.toNat
  | .readGroup _ g => readGroup g.toNat
  | .takeSnapshot _ v kind keep => takeReq v.toNat kind keep
  | .releaseSnapshot _ id => releaseReq id.toNat
  | .setKeep _ id keep => keepReq id.toNat keep
  | .setRetention _ n valid value mask kind keepCount maxAge =>
    retentionReq n.toNat valid value.toNat mask.toNat kind keepCount.toNat maxAge.toNat
  | .readSnapshot _ id => readSnapshot id.toNat
  | .listSnapshots _ v start => listSnapshots v.toNat start.toNat
  | .readRetention _ => readRetention
  | .startRestore _ id p mode priority n xs => startRestore id.toNat p.toNat mode priority.toNat n.toNat xs
  | .cancelRestore _ job => cancelRestore job.toNat
  | .readRestore _ job => readRestore job.toNat
  | .startDup _ v => startDup v.toNat
  | .haltDup _ v => haltDup v.toNat
  | .setBase _ v id => setBase v.toNat id.toNat
  | .readDup _ v => readDup v.toNat
  | .setNotice _ kind priority express => setNotice kind.toNat priority.toNat express
  | .fetchNotices _ n => fetchNotices n.toNat
  | .clearNotice _ kind sub => clearNotice kind.toNat sub
  | .readNotices _ => readNotices
  | .readLinks _ => readLinks
  | _ => fun s => (s, refusal .unknownKind)

/-- The payload length that a request states suits its kind and what it holds; any length suits an unknown kind. -/
def lengthSuits : Instr → Bool
  | .startRestore h _ _ _ _ n xs => decide (h.len.toNat = 7 + 20 * n.toNat) && decide (xs.length = n.toNat)
  | c => match reqHead c, requestLength c with
    | some h, some n => decide (h.len.toNat = n)
    | _, _ => true

/-- A command that is a request, or an unknown kind, is `request` with its effect. -/
theorem exec_request {c : Instr} {h : ReqHead} (s : State) (hc : reqHead c = some h)
    (hk : ∀ x kind, c = .unknownKind x kind → isRequestKind kind = false) :
    exec c s = .next (request h (lengthSuits c) (requestEffect c) s) := by
  cases c with
  | unknownKind x kind =>
    cases hc
    change Host.Outcome.next _ = _
    rw [hk _ _ rfl]
    rfl
  | _ => cases hc <;> rfl

/-- An unknown kind that is a request's kind cannot be formed. -/
theorem notRequestKind_of_wf {c : Instr} (hw : c.wf = true) :
    ∀ x kind, c = .unknownKind x kind → isRequestKind kind = false := by
  rintro x kind rfl
  simpa [Instr.wf] using (Bool.and_eq_true_iff.1 hw).2

theorem exec_unknownKind_request {x : ReqHead} {kind : BitVec 8} (s : State) (hk : isRequestKind kind = true) :
    exec (.unknownKind x kind) s = .next s := by
  change Host.Outcome.next _ = _
  rw [hk]
  rfl

theorem lengthSuits_false {c : Instr} {h : ReqHead} {n : Nat} (hc : reqHead c = some h) (hn : requestLength c = some n)
    (hne : h.len.toNat ≠ n) : lengthSuits c = false := by
  cases c with
  | unknownKind => cases hn
  | _ => cases hc <;> cases hn <;> simp [lengthSuits, reqHead, requestLength, hne]

/-! ### Refused or applied -/

/-- A request has been refused with nothing done, or applied: `P` holds between the states, and the reply is OK or CLAMPED. -/
inductive Handled (P : State → State → Prop) (s : State) : State × Reply → Prop where
  | refused (st : Status) (h : st ≠ .ok ∧ st ≠ .clamped ∧ st ≠ .busy) : Handled P s (s, refusal st)
  | applied {t : State} (clamps : List Nat) (r : Results) (h : P s t) : Handled P s (t, accept clamps r)

theorem Handled.mono {P Q : State → State → Prop} {s : State} {r : State × Reply} (h : Handled P s r)
    (hp : ∀ t, P s t → Q s t) : Handled Q s r := by
  cases h with
  | refused st h => exact .refused st h
  | applied clamps r h => exact .applied clamps r (hp _ h)

theorem Handled.state {P : State → State → Prop} {s : State} {r : State × Reply} (h : Handled P s r) : r.1 = s ∨ P s r.1 := by
  cases h with
  | refused => exact .inl rfl
  | applied _ _ h => exact .inr h

theorem Handled.work {s : State} {r : State × Reply} (h : Handled Work s r) : Work s r.1 :=
  h.state.elim (fun h => h ▸ Work.refl s) id

theorem Handled.malformed {P : State → State → Prop} (s : State) : Handled P s (s, refusal .malformed) := .refused _ (by decide)
theorem Handled.noSuch {P : State → State → Prop} (s : State) : Handled P s (s, refusal .noSuch) := .refused _ (by decide)
theorem Handled.inUse {P : State → State → Prop} (s : State) : Handled P s (s, refusal .inUse) := .refused _ (by decide)
theorem Handled.full {P : State → State → Prop} (s : State) : Handled P s (s, refusal .full) := .refused _ (by decide)
theorem Handled.quota {P : State → State → Prop} (s : State) : Handled P s (s, refusal .quota) := .refused _ (by decide)
theorem Handled.badState {P : State → State → Prop} (s : State) : Handled P s (s, refusal .state) := .refused _ (by decide)
theorem Handled.reads {s : State} (clamps : List Nat) (r : Results) : Handled Work s (s, accept clamps r) :=
  .applied _ _ (Work.refl s)

/-! ### Requests of the subject records -/

theorem loadReq_handled (p blocks : Nat) (s : State) : Handled Work s (loadReq p blocks s) := by
  unfold loadReq
  split
  · exact .malformed s
  · split
    · exact .noSuch s
    · exact .applied _ _ ((evaluateBoth_work _ _ _).after (loadUsage_work _ _ s))

theorem definePrincipal_handled (p user : Nat) (g : BitVec 16) (s : State) : Handled Work s (definePrincipal p user g s) := by
  unfold definePrincipal
  split
  · exact .malformed s
  · split
    · exact .malformed s
    · split
      · exact .badState s
      · split
        · exact .noSuch s
        · exact .applied _ _ ((onMembers_work _ _ _).after (setPrincipal_work _ _ s))

theorem defineGroup_handled (g : Nat) (s : State) : Handled Work s (defineGroup g s) := by
  unfold defineGroup
  split
  · exact .malformed s
  · split
    · exact .badState s
    · exact .applied _ _ (setGroupRec_work _ _ s)

theorem setGroupReq_handled (p : Nat) (g : BitVec 16) (s : State) : Handled Work s (setGroupReq p g s) := by
  unfold setGroupReq
  split
  · exact .malformed s
  · split
    · exact .malformed s
    · split
      · exact .noSuch s
      · split
        · exact .reads _ _
        · exact .applied _ _ ((evaluateGroup_work _ _ _).after ((evaluateGroup_work _ _ _).after (moveGroup_work _ _ s)))

theorem leaveSoftList_work (sub : Subject) (s : State) : Work s (leaveSoftList sub s) := softWrite_work _ s

theorem dropPrincipal_work (p : Nat) (s : State) : Work s (dropPrincipal p s) := by
  have h1 : Work s (dropUsage p s) := (addCharge_work _ _ _).after (onGroup_work _ _ s)
  have h2 := (evaluateBoth_work .transfer 0 _).after ((setPrincipal_work p Principal.undefined _).after
    ((enforceUnblock_work (.principal p) _).after ((leaveSoftList_work (.principal p) _).after
      ((onMembers_work (principal s p).group (· - 1) _).after h1))))
  unfold dropPrincipal
  dsimp only
  split
  · exact h2
  · exact (evaluateGroup_work _ _ _).after h2

theorem dropPrincipalReq_handled (p : Nat) (s : State) : Handled Work s (dropPrincipalReq p s) := by
  unfold dropPrincipalReq
  split
  · exact .malformed s
  · split
    · exact .noSuch s
    · split
      · exact .badState s
      · split
        · exact .inUse s
        · exact .applied _ _ (dropPrincipal_work p s)

theorem dropGroupReq_handled (g : Nat) (s : State) : Handled Work s (dropGroupReq g s) := by
  unfold dropGroupReq
  split
  · exact .malformed s
  · split
    · exact .noSuch s
    · split
      · exact .inUse s
      · exact .applied _ _ ((setGroupRec_work _ _ _).after ((enforceUnblock_work _ _).after (leaveSoftList_work _ s)))

theorem setLimits_handled (w : WireSubject) (soft hard band : Nat) (s : State) : Handled Work s (setLimits w soft hard band s) := by
  unfold setLimits
  split
  · exact .malformed s
  · split
    · exact .noSuch s
    · exact .applied _ _ ((evaluate_work _ _ _).after (setAcct_work _ _ s))

theorem startGraceSweep_handled (m : Nat) (s : State) : Handled Work s (startGraceSweep m s) := by
  unfold startGraceSweep
  split
  · exact .badState s
  · exact .applied _ _ (.write rfl rfl rfl rfl rfl rfl)

theorem grantGrace_handled (w : WireSubject) (m : Nat) (s : State) : Handled Work s (grantGrace w m s) := by
  unfold grantGrace
  split
  · exact .malformed s
  · split
    · exact .noSuch s
    · exact .applied _ _ ((evaluate_work _ _ _).after (setAcct_work _ _ s))

theorem readPrincipal_handled (p : Nat) (s : State) : Handled Work s (readPrincipal p s) := by
  unfold readPrincipal
  split
  · exact .malformed s
  · exact .reads _ _

theorem readGroup_handled (g : Nat) (s : State) : Handled Work s (readGroup g s) := by
  unfold readGroup
  split
  · exact .malformed s
  · exact .reads _ _

/-! ### Requests of the clock and the window -/

theorem setWindow_handled (start len cap : Nat) (s : State) : Handled Work s (setWindow start len cap s) := by
  unfold setWindow
  split
  · exact .malformed s
  · dsimp only
    split
    · exact .applied _ _ (cwuWrite_work _ s)
    · exact .applied _ _ (cwuWrite_work _ s)

theorem setSlotmask_handled (g : Nat) (mask : BitVec 32) (s : State) : Handled Work s (setSlotmask g mask s) := by
  unfold setSlotmask
  split
  · exact .malformed s
  · exact .applied _ _ (cwuWrite_work _ s)

theorem setClock_handled (part minute : Nat) (s : State) : Handled Work s (setClock part minute s) := by
  unfold setClock
  split
  · exact .malformed s
  · exact .applied _ _ ((grantAll_work _).after ((evaluateWindow_work _ _).after (cwuWrite_work _ s)))

theorem setTrend_handled (t k w : Nat) (s : State) : Handled Work s (setTrend t k w s) :=
  .applied _ _ (.write rfl rfl rfl rfl rfl rfl)

/-! ### Requests of the Restore Controller and the Duplication Controller -/

theorem acceptRestore_work (slot : Nat) (j : RestoreJob) (s : State) : Work s (acceptRestore slot j s) :=
  (grantAll_work _).after ((acceptanceWrite_work _ _).after ((pin_work _ _).after ((reserve_work _ _ _).after
    (setRestoreJob_work _ _ s))))

theorem startWith_handled (slot id : Nat) (r : Snap) (p : Nat) (mode : BitVec 8) (priority n : Nat) (xs : List ExtentField)
    (s : State) : Handled Work s (startWith slot id r p mode priority n xs s) := by
  unfold startWith
  dsimp only
  split
  · exact .badState s
  · split
    · exact .malformed s
    · split
      · exact .malformed s
      · split
        · exact .quota s
        · exact .applied _ _ (acceptRestore_work _ _ s)

theorem startRestore_handled (id p : Nat) (mode : BitVec 8) (priority n : Nat) (xs : List ExtentField) (s : State) :
    Handled Work s (startRestore id p mode priority n xs s) := by
  unfold startRestore
  split
  · exact .full s
  · split
    · exact .noSuch s
    · split
      · exact .noSuch s
      · exact startWith_handled _ _ _ _ _ _ _ _ s

theorem cancelRestore_handled (id : Nat) (s : State) : Handled Work s (cancelRestore id s) := by
  unfold cancelRestore
  split
  · exact .malformed s
  · split
    · exact .noSuch s
    · split
      · exact .badState s
      · exact .applied _ _ ((testRestoreEnd_work _ _).after (setRestoreJob_work _ _ s))

theorem readRestore_handled (id : Nat) (s : State) : Handled Work s (readRestore id s) := by
  unfold readRestore
  split
  · exact .malformed s
  · exact .reads _ _

theorem beginDup_work (v id epoch : Nat) (s : State) : Work s (beginDup v id epoch s) := by
  unfold beginDup
  refine (grantAll_work _).after ?_
  split
  · exact (settleDup_work _ _).after (createDup_work _ _ _ _ _ s)
  · exact createDup_work _ _ _ _ _ s

theorem startDup_handled (v : Nat) (s : State) : Handled Work s (startDup v s) := by
  unfold startDup
  split
  · exact .malformed s
  · split
    · exact .noSuch s
    · split
      · exact .inUse s
      · split
        · exact .badState s
        · split
          · exact .badState s
          · exact .applied _ _ (beginDup_work _ _ _ s)

theorem haltDup_handled (v : Nat) (s : State) : Handled Work s (haltDup v s) := by
  unfold haltDup
  split
  · exact .malformed s
  · split
    · exact .noSuch s
    · split
      · exact .badState s
      · split
        · exact .applied _ _ ((grantAll_work _).after (setDupJob_work _ _ s))
        · exact .applied _ _ ((grantAll_work _).after (endDup_work _ _ _ _ s))

theorem moveBase_work (v : Nat) (new : Option Nat) (s : State) : Work s (moveBase v new s) := by
  have h1 : Work s (match new with
    | none => s
    | some id => pin id s) := by
    split
    · exact Work.refl s
    · exact pin_work _ s
  unfold moveBase
  dsimp only
  refine (setVolume_work ⟨_, _, _, _, rfl⟩).after ?_
  split
  · exact h1
  · exact (unpin_work _ _).after h1

theorem setBase_handled (v id : Nat) (s : State) : Handled Work s (setBase v id s) := by
  unfold setBase
  dsimp only
  split
  · exact .malformed s
  · split
    · exact .noSuch s
    · split
      · exact .inUse s
      · split
        · exact .badState s
        · split
          · exact .reads _ _
          · exact .applied _ _ (moveBase_work _ _ s)

theorem readDup_handled (v : Nat) (s : State) : Handled Work s (readDup v s) := by
  unfold readDup
  split
  · exact .malformed s
  · exact .reads _ _

/-! ### Requests of the Snapshot Catalog -/

theorem takeReq_handled (v : Nat) (kind keep : BitVec 8) (s : State) : Handled Work s (takeReq v kind keep s) := by
  unfold takeReq
  split
  · split
    · exact .malformed s
    · split
      · exact .noSuch s
      · split
        · exact .badState s
        · split
          · exact .full s
          · rename_i h1 h2 _
            refine .applied _ _ (takeSnap_work _ _ ?_)
            cases h : (volume s v).state
            · exact absurd h h1
            · rfl
            · exact absurd h h2
  · exact .malformed s

theorem releaseReq_handled (id : Nat) (s : State) : Handled Work s (releaseReq id s) := by
  unfold releaseReq
  split
  · exact .malformed s
  · split
    · exact .noSuch s
    · split
      · exact .badState s
      · split
        · exact .inUse s
        · exact .applied _ _ (releaseSnap_work _ _ s)

theorem keepRecord_work (id : Nat) (r : Snap) (b : Bool) (s : State) : Work s (keepRecord id r b s) := by
  unfold keepRecord
  dsimp only
  split
  · exact (pressureTest_work _ _).after (setSnap_work _ _ s)
  · exact setSnap_work _ _ s

theorem keepReq_handled (id : Nat) (keep : BitVec 8) (s : State) : Handled Work s (keepReq id keep s) := by
  unfold keepReq
  split
  · exact .malformed s
  · split
    · exact .malformed s
    · split
      · exact .noSuch s
      · split
        · exact .badState s
        · exact .applied _ _ (keepRecord_work _ _ _ s)

theorem retentionReq_handled (n : Nat) (valid : BitVec 8) (value mask : Nat) (kind : BitVec 8) (k m : Nat) (s : State) :
    Handled Work s (retentionReq n valid value mask kind k m s) := by
  unfold retentionReq
  split
  · split
    · exact .malformed s
    · exact .applied _ _ (.write rfl rfl rfl rfl rfl rfl)
  · exact .malformed s

theorem readSnapshot_handled (id : Nat) (s : State) : Handled Work s (readSnapshot id s) := by
  unfold readSnapshot
  split
  · exact .malformed s
  · split
    · exact .noSuch s
    · exact .reads _ _

theorem listSnapshots_handled (v start : Nat) (s : State) : Handled Work s (listSnapshots v start s) := by
  unfold listSnapshots
  split
  · exact .malformed s
  · split
    · exact .reads _ _
    · split
      · exact .noSuch s
      · exact .reads _ _

/-! ### Requests of the Volume Table and the Link Unit -/

theorem readVolume_handled (v first n : Nat) (s : State) : Handled Work s (readVolume v first n s) := by
  unfold readVolume
  split
  · exact .malformed s
  · exact .reads _ _

theorem setSilence_handled (limit : Nat) (s : State) : Handled Work s (setSilence limit s) :=
  .applied _ _ (.write rfl rfl rfl rfl rfl rfl)

/-- What a request of the Volume Table may do: it raises notices, and leaves the queue, the links and the intakes. -/
structure VolumeRequest (v : Nat) (s t : State) : Prop where
  pending : t.pending = s.pending
  speaks : Speaks s t
  links : t.lu.links = s.lu.links
  intakes : t.ciu = s.ciu
  others : ∀ j, j ≠ v → volume t j = volume s j

theorem attachVolume_handled (v srv size w : Nat) (s : State) :
    Handled (fun s t => VolumeRequest v s t ∧ (volume t v) = attachedRecord s srv size w) s (attachVolume v srv size w s) := by
  have hv : ∀ j, volume (setVolume v (attachedRecord s srv size w) s) j
      = if v = j then attachedRecord s srv size w else volume s j := fun j => volume_setVolume ..
  unfold attachVolume
  split
  · exact .malformed s
  · split
    · exact .badState s
    · dsimp only
      refine .applied _ _ ?_
      split
      · refine ⟨⟨pump_pending _, (notifyStale_work _ _ _ _ _).speaks.after (setVolume_silent _ _ s).speaks,
          pump_lu_links _, pump_ciu _, fun j hj => ?_⟩, ?_⟩
        · exact (congrArg (fun x => tgetD Volume.none x j) (pump_vt _)).trans ((hv j).trans (if_neg (Ne.symm hj)))
        · exact (congrArg (fun x => tgetD Volume.none x v) (pump_vt _)).trans ((hv v).trans (if_pos rfl))
      · exact ⟨⟨rfl, (setVolume_silent _ _ s).speaks, rfl, rfl, fun j hj => (hv j).trans (if_neg (Ne.symm hj))⟩,
          (hv v).trans (if_pos rfl)⟩

theorem settings_state (w l g n : Option Nat) (r : Volume) :
    (withSettings w l g n r).state = r.state ∧ (withSettings w l g n r).server = r.server := ⟨rfl, rfl⟩

/-- SET_VOLUME writes the settings of a volume that is not UNATTACHED; a pressure test may follow. -/
theorem applySettings_handled (v : Nat) (w l g n : Option Nat) (s : State) :
    Handled (fun s t => (volume s v).state ≠ .unattached
      ∧ Work (setVolume v (withSettings w l g n (volume s v)) s) t) s (applySettings v w l g n s) := by
  unfold applySettings
  dsimp only
  split
  · exact .malformed s
  · split
    · exact .noSuch s
    · rename_i hne
      split
      · exact .inUse s
      · split
        · exact .inUse s
        · refine .applied _ _ ⟨hne, ?_⟩
          split
          · exact pressureTest_work _ _
          · exact Work.refl _

/-- DETACH_VOLUME: the record returns to its UNATTACHED values. -/
theorem detachRecord_request (v : Nat) (s : State) :
    VolumeRequest v s (detachRecord v s) ∧ volume (detachRecord v s) v = Volume.none := by
  have h1 : Work s (if reserveFlag s v then clearReserve v s else s)
      ∧ (if reserveFlag s v then clearReserve v s else s).lu.links = s.lu.links
      ∧ (if reserveFlag s v then clearReserve v s else s).vt = s.vt := by
    split
    · exact ⟨clearReserve_work v s, pump_lu_links _, pump_vt _⟩
    · exact ⟨Work.refl s, rfl, rfl⟩
  obtain ⟨hw, hl, hvt⟩ := h1
  generalize hs1 : (if reserveFlag s v then clearReserve v s else s) = s1 at hw hl hvt
  generalize hs2 : ({ s1 with sc := { s1.sc with records := s1.sc.records.filter fun e => e.2.volume ≠ v } } : State) = s2
  have h2 : Work s1 s2 := by subst hs2; exact .write rfl rfl rfl rfl rfl rfl
  have hl2 : s2.lu.links = s.lu.links := by subst hs2; exact hl
  have hvt2 : s2.vt = s.vt := by subst hs2; exact hvt
  have hvol : ∀ j, volume (setVolume v Volume.none s2) j = if v = j then Volume.none else volume s j := fun j => by
    rw [volume_setVolume]; unfold volume; rw [hvt2]
  have h3 : VolumeRequest v s (setVolume v Volume.none s2) :=
    ⟨h2.pending.trans hw.pending, (setVolume_silent _ _ _).speaks.after (hw.speaks.trans h2.speaks), hl2,
      h2.intakes.trans hw.intakes, fun j hj => (hvol j).trans (if_neg (Ne.symm hj))⟩
  have heq : detachRecord v s = if (volume s v).state = .stale then
      notify (.volume v) (.volumeStale false (volume s v).server .unattached .detached (now s)) (setVolume v Volume.none s2)
      else setVolume v Volume.none s2 := by
    subst hs2 hs1; rfl
  rw [heq]
  split
  · have hp (c : Content) : (notify (.volume v) c (setVolume v Volume.none s2)).vt = (setVolume v Volume.none s2).vt := pump_vt _
    refine ⟨⟨(pump_pending _).trans h3.pending, (notify_work _ _ _).speaks.after h3.speaks, (pump_lu_links _).trans h3.links,
      (pump_ciu _).trans h3.intakes, fun j hj => ?_⟩, ?_⟩
    · unfold volume; rw [hp]; exact h3.others j hj
    · unfold volume; rw [hp]; exact (hvol v).trans (if_pos rfl)
  · exact ⟨h3, (hvol v).trans (if_pos rfl)⟩

theorem detachVolume_handled (v : Nat) (s : State) : Handled (fun s t => t = detachRecord v s) s (detachVolume v s) := by
  unfold detachVolume
  split
  · exact .malformed s
  · split
    · exact .noSuch s
    · split
      · exact .inUse s
      · exact .applied _ _ rfl

/-! ### Requests of the Notice Queue, and RESTART -/

/-- A request of the Notice Queue leaves everything but the queue's entries, settings and marks. -/
def NoticeRequest (s t : State) : Prop := t = { s with nq := t.nq } ∧ t.nq.slot = s.nq.slot

theorem setNotice_handled (kind priority : Nat) (express : BitVec 8) (s : State) :
    Handled NoticeRequest s (setNotice kind priority express s) := by
  unfold setNotice
  split
  · exact .applied _ _ ⟨rfl, rfl⟩
  · exact .malformed s

theorem fetchNotices_handled (n : Nat) (s : State) : Handled NoticeRequest s (fetchNotices n s) := .applied _ _ ⟨rfl, rfl⟩

theorem clearNotice_handled (kind : Nat) (w : WireSubject) (s : State) : Handled NoticeRequest s (clearNotice kind w s) := by
  unfold clearNotice
  split
  · split
    · exact .noSuch s
    · split
      · exact .applied _ _ ⟨rfl, rfl⟩
      · exact .badState s
  · exact .malformed s

theorem takeRestart_handled (s : State) :
    Handled (fun s t => t = { s with lu := { s.lu with restart := .taken } }) s (takeRestart s) := .applied _ _ rfl

end Sys2Proof.Machine
end

