-- ==== Sys2Proof/Proofs/ManagementLists.lean ====
section
/-! SUPPORT. Every command: what a request applied does, the warm restart's notices, and that no command but those of the
management link itself moves its lists otherwise than by raising notices. -/

namespace Sys2Proof.Machine

/-! ### Requests applied -/

/-- What a request that is applied may do. -/
def Applied : Instr → State → State → Prop
  | .attachVolume _ v srv size w => fun s t =>
    VolumeRequest v.toNat s t ∧ volume t v.toNat = attachedRecord s srv.toNat size.toNat w.toNat
  | .setVolume _ v _ _ _ _ => fun s t => (volume s v.toNat).state ≠ .unattached
    ∧ ∃ w l g n, Work (setVolume v.toNat (withSettings w l g n (volume s v.toNat)) s) t
  | .detachVolume _ v => fun s t => t = detachRecord v.toNat s
  | .restart _ => fun s t => t = { s with lu := { s.lu with restart := .taken } }
  | .setNotice .. | .fetchNotices .. | .clearNotice .. => NoticeRequest
  | _ => Work

theorem setVolumeReq_handled (v : Nat) (w : Setting 8) (l : Setting 64) (g n : Setting 8) (s : State) :
    Handled (fun s t => (volume s v).state ≠ .unattached
      ∧ ∃ w l g n, Work (setVolume v (withSettings w l g n (volume s v)) s) t) s (setVolumeReq v w l g n s) := by
  unfold setVolumeReq
  split
  · exact (applySettings_handled _ _ _ _ _ s).mono fun _ h => ⟨h.1, _, _, _, _, h.2⟩
  · exact .malformed s

/-- Every request is refused with nothing done or applied, whichever it is. -/
theorem requestEffect_handled (c : Instr) (s : State) : Handled (Applied c) s (requestEffect c s) := by
  cases c with
  | attachVolume => exact attachVolume_handled _ _ _ _ s
  | setVolume => exact setVolumeReq_handled _ _ _ _ _ s
  | detachVolume => exact detachVolume_handled _ s
  | readVolume => exact readVolume_handled _ _ _ s
  | setSilence => exact setSilence_handled _ s
  | restart => exact takeRestart_handled s
  | setWindow => exact setWindow_handled _ _ _ s
  | setSlotmask => exact setSlotmask_handled _ _ s
  | setClock => exact setClock_handled _ _ s
  | readWindow => exact .reads _ _
  | setTrend => exact setTrend_handled _ _ _ s
  | loadUsage => exact loadReq_handled _ _ s
  | definePrincipal => exact definePrincipal_handled _ _ _ s
  | defineGroup => exact defineGroup_handled _ s
  | setGroup => exact setGroupReq_handled _ _ s
  | dropPrincipal => exact dropPrincipalReq_handled _ s
  | dropGroup => exact dropGroupReq_handled _ s
  | setLimits => exact setLimits_handled _ _ _ _ s
  | grantGrace _ target m =>
    change Handled Work s ((if target = ⟨0, 0⟩ then startGraceSweep m.toNat else grantGrace target m.toNat) s)
    split
    · exact startGraceSweep_handled _ s
    · exact grantGrace_handled _ _ s
  | grantGraceAll => exact startGraceSweep_handled _ s
  | readPrincipal => exact readPrincipal_handled _ s
  | readGroup => exact readGroup_handled _ s
  | takeSnapshot => exact takeReq_handled _ _ _ s
  | releaseSnapshot => exact releaseReq_handled _ s
  | setKeep => exact keepReq_handled _ _ s
  | setRetention => exact retentionReq_handled _ _ _ _ _ _ _ s
  | readSnapshot => exact readSnapshot_handled _ s
  | listSnapshots => exact listSnapshots_handled _ _ s
  | readRetention => exact .reads _ _
  | startRestore => exact startRestore_handled _ _ _ _ _ _ s
  | cancelRestore => exact cancelRestore_handled _ s
  | readRestore => exact readRestore_handled _ s
  | startDup => exact startDup_handled _ s
  | haltDup => exact haltDup_handled _ s
  | setBase => exact setBase_handled _ _ s
  | readDup => exact readDup_handled _ s
  | setNotice => exact setNotice_handled _ _ _ s
  | fetchNotices => exact fetchNotices_handled _ s
  | clearNotice => exact clearNotice_handled _ _ s
  | readNotices => exact .reads _ _
  | readLinks => exact .reads _ _
  | _ => exact .refused _ (by decide)

/-- A request applied leaves the queue of waiting commands, and a list that a reply can join. -/
theorem Applied.queue_and_admits {c : Instr} {s t : State} (h : Applied c s t) :
    t.pending = s.pending ∧ (Admits s → Admits t) := by
  have hn : NoticeRequest s t → t.pending = s.pending ∧ (Admits s → Admits t) := by
    rintro ⟨he, -⟩
    rw [he]
    exact ⟨rfl, fun a => ⟨a.carrier, a.replies, a.busy, a.head, a.restart⟩⟩
  have hw : Work s t → t.pending = s.pending ∧ (Admits s → Admits t) := fun h => ⟨h.pending, h.speaks.admits⟩
  cases c with
  | attachVolume => exact ⟨h.1.pending, h.1.speaks.admits⟩
  | setVolume =>
    obtain ⟨-, w, l, g, n, hw⟩ := h
    exact ⟨hw.pending, ((setVolume_silent _ _ s).speaks.trans hw.speaks).admits⟩
  | detachVolume =>
    cases h
    exact ⟨(detachRecord_request _ s).1.pending, (detachRecord_request _ s).1.speaks.admits⟩
  | restart =>
    cases h
    exact ⟨rfl, fun a => ⟨a.carrier, a.replies, a.busy, a.head, fun h => (by cases h), fun h => (by cases h)⟩⟩
  | setNotice => exact hn h
  | fetchNotices => exact hn h
  | clearNotice => exact hn h
  | _ => exact hw h

theorem answerBusy_pending (tag : BitVec 16) (s : State) : (answerBusy tag s).pending = s.pending := by
  unfold answerBusy; split
  · exact pump_pending _
  · rfl

theorem request_pending (h : ReqHead) (ok : Bool) {f : State → State × Reply} {s : State}
    (hf : (f (mgmtHunt s)).1.pending = s.pending) : (request h ok f s).pending = s.pending := by
  unfold request
  split
  · rfl
  · split
    · exact answerBusy_pending _ _
    · split
      · exact answer_pending _ _ _
      · exact (answer_pending _ _ _).trans hf

theorem requestEffect_pending (c : Instr) (s : State) : (requestEffect c s).1.pending = s.pending :=
  (requestEffect_handled c s).state.elim (congrArg State.pending) fun h => h.queue_and_admits.1

theorem requestEffect_admits (c : Instr) {s : State} (h : Admits s) : Admits (requestEffect c s).1 :=
  (requestEffect_handled c s).state.elim (fun e => by rw [e]; exact h) fun ha => ha.queue_and_admits.2 h

/-! ### The warm restart -/

theorem linkRestart_speaks (s : State) (srv : Nat) : Speaks s (linkRestart s srv) := by
  have h1 : Speaks s (match (link s srv).state with
    | .up => leaveUp srv .syncing .restart true s
    | .faulted => changeLink srv .syncing .restart s
    | .down | .syncing => s) := by
    split
    · exact leaveUp_speaks _ _ _ _ s
    · exact setLink_speaks _ _ s
    · exact Speaks.refl s
    · exact Speaks.refl s
  unfold linkRestart
  exact (setIntake_speaks _ _ _).after ((setLink_speaks _ _ _).after h1)

theorem restartReleases_work (jobs : Tab RestoreJob) (s : State) : Work s (restartReleases jobs s) :=
  Work.foldl (fun _ _ => release_work _ _ _) _ s

theorem restartUnpins_work (jobs : Tab RestoreJob) (dups : Tab DupJob) (s : State) : Work s (restartUnpins jobs dups s) :=
  (Work.foldl (fun _ _ => unpin_work _ _) _ _).after (Work.foldl (fun _ _ => unpin_work _ _) _ s)

theorem restartNotices_work (jobs : Tab RestoreJob) (dups : Tab DupJob) (s : State) : Work s (restartNotices jobs dups s) := by
  have h1 : Work s (restartStales s) := Work.foldl (fun _ _ => notifyStale_work _ _ _ _ _) _ s
  have h2 (s : State) : Work s (restartBacklog s) := by
    unfold restartBacklog
    split
    · exact Work.refl s
    · exact notifyBacklog_work _ s
  have h3 (s : State) : Work s (restartReserves s) := Work.foldl (fun _ _ => notifyReserve_work _ _ _) _ s
  have h4 (s : State) : Work s (restartDones jobs s) := Work.foldl (fun _ _ => restoreDone_work _ _ _ _ _) _ s
  have h5 (s : State) : Work s (restartDups dups s) := Work.foldl (fun _ _ => dupNotice_work _ _ _ _ _) _ s
  exact (h5 _).after ((h4 _).after ((h3 _).after ((h2 _).after h1)))

/-- The state in which a warm restart comes to the links: the phase, the NQ's part, the RSC's and the DC's. -/
def restartBegun (s : State) : State := dcRestart (rscRestart (nqRestart { s with lu := { s.lu with restart := .inProgress } }))

theorem warmRestart_eq (s : State) : warmRestart s = presentAll (restartNotices s.rsc.jobs s.dc.jobs
    (restartUnpins s.rsc.jobs s.dc.jobs (restartReleases s.rsc.jobs (serverList.foldl linkRestart (restartBegun s))))) := rfl

theorem restartBegun_view (s : State) : mgmtView (restartBegun s) =
    { mgmtView s with restart := .inProgress, nq := { s.nq with queue := [], slot := none, overflow := false, lost := 0 } } :=
  rfl

/-- The rest of a warm restart, once every link has done its part. -/
theorem warmRestart_rest_work (s : State) :
    Work (serverList.foldl linkRestart (restartBegun s)) (warmRestart s) := by
  rw [warmRestart_eq]
  exact (presentAll_work _).after ((restartNotices_work _ _ _).after ((restartUnpins_work _ _ _).after
    (restartReleases_work _ _)))

theorem warmRestart_speaks (s : State) : Speaks (restartBegun s) (warmRestart s) :=
  (warmRestart_rest_work s).speaks.after (Speaks.foldl linkRestart_speaks _ _)

theorem warmRestart_mgmtInv {s : State} (h : MgmtInv s) (hd : s.lu.restart = .due) : MgmtInv (warmRestart s) := by
  refine (warmRestart_speaks s).mgmtInv ?_
  have hr : s.lu.replies = [] := h.due (.inl hd)
  exact ⟨h.replies, h.busy, fun hn => ⟨rfl, (h.free hn).2⟩, h.head, h.absent, fun ht => (by cases ht), fun _ => hr⟩

/-! ### Every step -/

theorem coldState_mgmtInv (s : State) : MgmtInv (coldState s) :=
  ⟨Nat.zero_le _, Nat.zero_le _, fun _ => ⟨rfl, rfl, rfl⟩, fun _ h => (by cases h), fun _ => rfl, fun h => (by cases h), fun _ => rfl⟩

theorem releaseReset_speaks (s : State) : Speaks s (releaseReset s) :=
  (Speaks.foldl (fun s j => linkGains_speaks j s) _ _).after (Noticed.nil (by rfl)).speaks

theorem carrierGained_speaks (srv : Nat) (s : State) : Speaks s (carrierGained srv s) := by
  have h0 : Speaks s (setCarrier srv true s) := (Noticed.nil (by rfl)).speaks
  unfold carrierGained
  split
  · exact Speaks.refl s
  · dsimp only
    split
    · exact h0
    · exact (linkGains_speaks _ _).after ((setLink_speaks _ _ _).after h0)

theorem carrierLost_speaks (srv : Nat) (s : State) : Speaks s (carrierLost srv s) := by
  have h0 : Speaks s (setCarrier srv false s) := (Noticed.nil (by rfl)).speaks
  unfold carrierLost
  split
  · dsimp only
    split
    · exact h0
    · exact (linkLoses_speaks _ _).after ((setLink_speaks _ _ _).after h0)
  · exact Speaks.refl s

theorem secondComes_speaks (s : State) : Speaks s (secondComes s) := by
  unfold secondComes
  split
  · exact Speaks.refl s
  · exact secondTick_speaks s

theorem Speaks.ite {p : Prop} [Decidable p] {s a b : State} (ha : Speaks s a) (hb : Speaks s b) : Speaks s (if p then a else b) := by
  split
  · exact ha
  · exact hb

/-- A completion handed to work that needs no UP link. -/
theorem completionFrame_speaks (srv num : Nat) (k : OrderKind) {f : State → State} (s : State)
    (hf : ∀ s, linkUp s srv = true → Speaks s (f s)) : Speaks s (serverFrame srv (completion srv num k f) s) :=
  serverFrame_speaks fun hu => completion_speaks (hf _ (by
    unfold linkUp at hu ⊢
    simp only [frameArrived, link_setLink, if_true]
    exact hu))

theorem mgmtChars_mgmtInv {chars : List RxChar} {s : State} (h : MgmtInv s) : MgmtInv (mgmtChars chars s) := by
  unfold mgmtChars
  split
  · dsimp only
    split
    · exact h
    · exact h.of_view rfl
  · exact h

theorem frameBusy_mgmtInv (tag : BitVec 16) {s : State} (h : MgmtInv s) : MgmtInv (frameBusy tag s) := by
  unfold frameBusy
  split
  · exact answerBusy_mgmtInv _ (h.of_view rfl)
  · exact h

theorem warmRestartEnd_mgmtInv {s : State} (h : MgmtInv s) :
    MgmtInv (if s.lu.restart = .inProgress then { s with lu := { s.lu with restart := .none } } else s) := by
  split
  · exact ⟨h.replies, h.busy, h.free, h.head, h.absent, fun h => (by cases h), fun h => (by rcases h with h | h <;> cases h)⟩
  · exact h

/-- Every command keeps the management link's lists. -/
theorem exec_mgmtInv {c : Instr} {s t : State} (h : MgmtInv s) (he : exec c s = .next t) : MgmtInv t := by
  by_cases hc : ∃ x, reqHead c = some x
  · obtain ⟨x, hx⟩ := hc
    by_cases hk : ∃ y kind, c = .unknownKind y kind ∧ isRequestKind kind = true
    · obtain ⟨y, kind, rfl, hk⟩ := hk
      rw [exec_unknownKind_request s hk] at he
      cases he; exact h
    · rw [exec_request s hx fun y kind e => by
        by_contra hne; exact hk ⟨y, kind, e, by simpa using hne⟩] at he
      cases he
      exact request_mgmtInv _ _ h (requestEffect_admits c)
  · have hs : ∀ {u : State}, Speaks s u → exec c s = .next u → MgmtInv t := fun hu hu' => by
      rw [hu'] at he; cases he; exact hu.mgmtInv h
    cases c with
    | coldReset => cases he; exact coldState_mgmtInv s
    | resetRelease => exact hs (Speaks.ite (releaseReset_speaks s) (Speaks.refl s)) rfl
    | carrierGained srv => exact hs (carrierGained_speaks _ s) rfl
    | carrierLost srv => exact hs (carrierLost_speaks _ s) rfl
    | mgmtCarrierGained => cases he; exact mgmtGained_mgmtInv h
    | mgmtCarrierLost => cases he; exact mgmtLost_mgmtInv h
    | mgmtBadFrame => cases he; exact mgmtChars_mgmtInv h
    | mgmtFrameBusy => cases he; exact frameBusy_mgmtInv _ h
    | mgmtFrameSent => cases he; exact mgmtSent_mgmtInv h
    | serverFrameSent => exact hs (serverSent_speaks _ s) rfl
    | serverBadFrame => exact hs (serverChars_speaks _ _ s) rfl
    | serverUnusableFrame => exact hs (unusable_speaks _ _ _ _ s) rfl
    | hello => exact hs (helloArrives_speaks _ s) rfl
    | resync => exact hs (resyncArrives_speaks _ s) rfl
    | reEnterUp => exact hs (reEnter_speaks _ s) rfl
    | idleReceived => exact hs (serverFrame_speaks fun _ => Speaks.refl _) rfl
    | secondEvent => exact hs (secondComes_speaks s) rfl
    | silenceLimitReached => exact hs (Speaks.ite (secondComes_speaks s) (Speaks.refl s)) rfl
    | minuteEvent => exact hs (Speaks.ite (secondComes_speaks s) (Speaks.refl s)) rfl
    | graceExpired => exact hs (Speaks.ite (secondComes_speaks s) (Speaks.refl s)) rfl
    | nightlyTakes => exact hs (nightlyRound_speaks s) rfl
    | dupNightlyList => exact hs (nightlyList_work s).speaks rfl
    | sampleEvent => exact hs (sampleComes_work s).speaks rfl
    | trendVisit => exact hs (visitNext_work s).speaks rfl
    | graceSweepVisit => exact hs (graceVisitNext_work s).speaks rfl
    | changes => exact hs (serverFrame_speaks fun _ => takeChanges_speaks _ _ _ _) rfl
    | intakeRecord => exact hs (intakeNext_speaks _ s) rfl
    | denyAck => exact hs (completionFrame_speaks _ _ _ s fun s hu => (takeAck_work _ _ hu).speaks) rfl
    | allowAck => exact hs (completionFrame_speaks _ _ _ s fun s hu => (takeAck_work _ _ hu).speaks) rfl
    | snapDone => exact hs (completionFrame_speaks _ _ _ s fun s _ =>
        ((grantAll_work _).after ((dcListen_work _).after (snapLive_work _ _ s))).speaks) rfl
    | snapFail => exact hs (completionFrame_speaks _ _ _ s fun s _ =>
        ((grantAll_work _).after ((dcListen_work _).after (snapFails_work _ _ _ s))).speaks) rfl
    | dropSnapAck => exact hs (completionFrame_speaks _ _ _ s fun s _ => (dropAcked_work _ _ s).speaks) rfl
    | copyDone => exact hs (completionFrame_speaks _ _ _ s fun s _ => ((grantAll_work _).after (copyDone_work _ _ s)).speaks) rfl
    | copyFail => exact hs (completionFrame_speaks _ _ _ s fun s _ => ((grantAll_work _).after (copyFail_work _ _ _ s)).speaks) rfl
    | shipDone => exact hs (completionFrame_speaks _ _ _ s fun s _ =>
        ((grantAll_work _).after (shipCompletes_work _ _ s)).speaks) rfl
    | shipFail => exact hs (completionFrame_speaks _ _ _ s fun s _ => ((grantAll_work _).after (shipFails_work _ _ _ s)).speaks) rfl
    | warmRestart =>
      cases he
      split
      · exact warmRestart_mgmtInv h ‹_›
      · exact h
    | warmRestartEnd => cases he; exact warmRestartEnd_mgmtInv h
    | _ => exact absurd ⟨_, rfl⟩ hc

theorem withPending_view (s : State) (q : List Instr) : mgmtView (s.withPending q) = mgmtView s := rfl

/-- Settles O57: a step is a command on the queue's rest, and every command keeps the lists. -/
theorem everyStepKeepsTheManagementLists : Obligations.EveryStepKeepsTheManagementLists := by
  intro s t h he
  unfold step at he
  split at he
  · cases he; exact h
  · exact exec_mgmtInv (h.of_view (withPending_view s _)) he

end Sys2Proof.Machine
end

