-- ==== Sys2Proof/Proofs/OrdersFailedBackRefuted.lean ====
section
/-! PROOF. Links that leave UP with orders outstanding (O5, O13, O16, O17, O33). What these statements say of a DROP_SNAP that is
failed back, that its record stays as it is but for the order in flight, is false of one state: the source of a restore
job is DROPPING, and the job's last COPY stands before the DROP_SNAP in the order table. The COPY failed back for the second
time ends the job, which unpins its source, so the pin count of the DROPPING record falls. -/

namespace Sys2Proof.Machine

/-- A DROPPING record with its DROP_SNAP in flight as order 2, pinned by a restore job. -/
def pinnedDrop : Snap :=
  { volume := 0, epoch := 1, kind := .manual, created := 0, state := .dropping, keep := false, pinCount := 1,
    inFlight := some 2, holds := [] }

/-- The restore job that has pinned it: its one extent is ordered again, as order 1, after a first failure. -/
def lastCopy : RestoreJob :=
  { state := .active, snapshot := 5, volume := 0, principal := 0, mode := .staff, priority := 0, accepted := 0,
    extents := [⟨0, 1, 0, .ordered, true, .none, some 1⟩], total := 1, remaining := 0 }

/-- Server 0 is UP with the COPY and the DROP_SNAP outstanding, one second short of the silence limit, and one change record
waits in its intake. -/
def unpinningState : State :=
  { State.reset with
    pins := { State.reset.pins with serverCarrier := [0] }
    lu := { State.reset.lu with
      links := [(0, { Link.cold with state := .up, silence := 9, orders := [⟨1, .copy⟩, ⟨2, .dropSnap⟩], counter := 3 })] }
    vt := [(0, { Volume.none with state := .attached, size := 4096, regionBlocks := 4096, regionCount := 1, epoch := 2 })]
    ciu := [(0, { Intake.cold with next := 1, unack := 1, queue := [⟨⟨1, 0, 0, 0, 0, 1, 0, 0⟩, 0, 0, 0, 1, false⟩] })]
    sc := { State.reset.sc with records := [(5, pinnedDrop)], nextId := 6 }
    cca := { State.reset.cca with servers := [(0, { Credit.cold with free := 3, restore := 1 })], acceptance := [0] }
    rsc := { State.reset.rsc with jobs := [(0, lastCopy)] } }

theorem unpinningState_tables : Tables unpinningState := by
  constructor <;> decide

theorem unpinningState_upReceives : UpReceives 0 unpinningState := by
  refine ⟨?_, ?_, ?_⟩ <;> decide

/-- The pin count of record 5 after a command. -/
def pinsAfter (c : Instr) : Option Nat :=
  match exec c unpinningState with
  | .next t => (snap t 5).map Snap.pinCount
  | _ => none

theorem pinsAfter_of_next {c : Instr} {t : State} (h : exec c unpinningState = .next t) :
    pinsAfter c = (snap t 5).map Snap.pinCount := by
  unfold pinsAfter; rw [h]

/-- Where the pin has gone, the DROP_SNAP has not been failed back as OrdersFailedBack has it. -/
theorem not_ordersFailedBack {c : Instr} {t : State} (ht : exec c unpinningState = .next t) (hp : pinsAfter c = some 0) :
    ¬ OrdersFailedBack 0 unpinningState t := by
  intro h
  have hkept : snap t 5 = some { pinnedDrop with inFlight := none } := h.drops 2 5 pinnedDrop (by decide) (by decide) (by decide)
  rw [pinsAfter_of_next ht, hkept] at hp
  exact absurd hp (by decide)

/-- Refutes O5, by the carrier of server 0 lost in `unpinningState`. -/
theorem not_carrierLostTakesTheLinkDown : ¬ Obligations.CarrierLostTakesTheLinkDown := by
  unfold Obligations.CarrierLostTakesTheLinkDown
  intro h
  obtain ⟨t, ht, -, -, -, -, hup, -⟩ := h 0 unpinningState (by decide) (by decide) unpinningState_tables
  exact not_ordersFailedBack ht (by decide +kernel) (hup (by decide)).orders

/-- Refutes O13, by a frame of server 0 that breaks off in `unpinningState`. -/
theorem not_protocolFaultsFaultTheLink : ¬ Obligations.ProtocolFaultsFaultTheLink := by
  unfold Obligations.ProtocolFaultsFaultTheLink
  intro h
  obtain ⟨t, ht, hleft, -⟩ := (h 0 unpinningState unpinningState_upReceives unpinningState_tables).1
    [.byte 0xC3, .missingStop] (by decide) (by decide)
  exact not_ordersFailedBack ht (by decide +kernel) hleft.orders

/-- Refutes O16, by HELLO on the UP link of `unpinningState`, which has a record to drain. -/
theorem not_helloAndResyncReenterUp : ¬ Obligations.HelloAndResyncReenterUp := by
  unfold Obligations.HelloAndResyncReenterUp
  intro h
  obtain ⟨t, ht, -, hdrains, -⟩ := (h 0 .hello unpinningState unpinningState_tables).1 unpinningState_upReceives
  exact not_ordersFailedBack ht (by decide +kernel) (hdrains (by decide)).2.1

/-- Refutes O17, by the second event at which server 0 of `unpinningState` reaches the silence limit. -/
theorem not_secondEventSupervisesSilence : ¬ Obligations.SecondEventSupervisesSilence := by
  unfold Obligations.SecondEventSupervisesSilence
  intro h
  obtain ⟨t, ht, -, hsilent, -⟩ := h unpinningState (by decide) (by decide) unpinningState_tables
  obtain ⟨-, -, halone, -⟩ := hsilent 0 (by decide) (by decide)
  exact not_ordersFailedBack ht (by decide +kernel) (halone (by decide)).orders

/-- Refutes O33, by a DENY_ACK for the DROP_SNAP of `unpinningState`. -/
theorem not_strayCompletions : ¬ Obligations.StrayCompletions := by
  unfold Obligations.StrayCompletions
  intro h
  obtain ⟨t, ht, hleft, -⟩ := (h (.denyAck 0 2) 0 2 .deny unpinningState rfl unpinningState_upReceives unpinningState_tables).2
    .dropSnap (by unfold Outstanding; decide) (by decide)
  exact not_ordersFailedBack ht (by decide +kernel) hleft.orders

end Sys2Proof.Machine
end

