-- ==== Sys2Proof/Proofs/CommandsComplete.lean ====
section
/-! PROOF. Steps and the queue of waiting commands (O1, O2). -/

namespace Sys2Proof.Machine

/-- Settles O1: a step takes the command in front. -/
theorem stepRunsTheCommandInFront : Obligations.StepRunsTheCommandInFront := fun _ _ _ => rfl

/-! ### The queue of waiting commands stands -/

theorem Frame.pending {L : List Part} {s t : State} (h : Frame L s t)
    (hp : Part.pending ∉ Part.replies :: Part.restart :: L := by decide) : t.pending = s.pending := h.same .pending hp

theorem foldl_pending {β : Type} {f : State → β → State} (h : ∀ s b, (f s b).pending = s.pending) (l : List β) (s : State) :
    (l.foldl f s).pending = s.pending := by
  induction l generalizing s with
  | nil => rfl
  | cons b r ih => exact (ih _).trans (h s b)

theorem linkGains_pending (srv : Nat) (s : State) : (linkGains srv s).pending = s.pending := by
  unfold linkGains; split
  · exact (moveLink_frame _ _ _ s).pending
  · rfl

theorem linkLoses_pending (srv : Nat) (s : State) : (linkLoses srv s).pending = s.pending := by
  unfold linkLoses; split
  · rfl
  · exact (dropLink_frame _ _ _ s).pending
  · exact (moveLink_frame _ _ _ _).pending
  · exact (moveLink_frame _ _ _ _).pending

theorem releaseReset_pending (s : State) : (releaseReset s).pending = s.pending :=
  foldl_pending (fun s j => linkGains_pending j s) _ _

theorem carrierGained_pending (srv : Nat) (s : State) : (carrierGained srv s).pending = s.pending := by
  unfold carrierGained; split
  · rfl
  · dsimp only; split
    · rfl
    · exact linkGains_pending _ _

theorem carrierLost_pending (srv : Nat) (s : State) : (carrierLost srv s).pending = s.pending := by
  unfold carrierLost; split
  · dsimp only; split
    · rfl
    · exact linkLoses_pending _ _
  · rfl

theorem txOver_pending (s : State) : (txOver s).pending = s.pending := by
  unfold txOver; split <;> rfl

theorem mgmtGained_pending (s : State) : (mgmtGained s).pending = s.pending := by
  unfold mgmtGained; split
  · rfl
  · exact pump_pending _

theorem mgmtLost_pending (s : State) : (mgmtLost s).pending = s.pending := by
  unfold mgmtLost; split
  · exact (pump_pending _).trans (txOver_pending _)
  · rfl

theorem mgmtChars_pending (chars : List RxChar) (s : State) : (mgmtChars chars s).pending = s.pending := by
  unfold mgmtChars; split
  · dsimp only; split <;> rfl
  · rfl

theorem frameBusy_pending (tag : BitVec 16) (s : State) : (frameBusy tag s).pending = s.pending := by
  unfold frameBusy; split
  · exact answerBusy_pending _ _
  · rfl

theorem mgmtSent_pending (s : State) : (mgmtSent s).pending = s.pending := by
  unfold mgmtSent; split
  · exact (pump_pending _).trans (txOver_pending s)
  · rfl

theorem serverSent_pending (srv : Nat) (s : State) : (serverSent srv s).pending = s.pending := by
  unfold serverSent; split <;> rfl

theorem serverChars_pending (srv : Nat) (chars : List RxChar) (s : State) : (serverChars srv chars s).pending = s.pending := by
  unfold serverChars; split
  · dsimp only; split
    · rfl
    · split
      · exact (protocolFault_frame _ _).pending
      · rfl
  · rfl

theorem serverFrame_pending {srv : Nat} {f : State → State} (s : State) (hf : ∀ s, (f s).pending = s.pending) :
    (serverFrame srv f s).pending = s.pending := by
  unfold serverFrame; split
  · rfl
  · dsimp only; split
    · rfl
    · split
      · exact hf _
      · rfl

theorem completion_pending {srv num : Nat} {k : OrderKind} {f : State → State} (s : State)
    (hf : ∀ s, (f s).pending = s.pending) : (completion srv num k f s).pending = s.pending := by
  unfold completion; split
  · rfl
  · split
    · exact hf _
    · exact (protocolFault_frame _ _).pending

/-- A completion, handed to work of the issuing block. -/
theorem completionFrame_pending {srv num : Nat} {k : OrderKind} {f : State → State} (s : State)
    (hf : ∀ s, (f s).pending = s.pending) : (serverFrame srv (completion srv num k f) s).pending = s.pending :=
  serverFrame_pending s fun s => completion_pending s hf

theorem unusable_pending (srv kind num len : Nat) (s : State) : (unusable srv kind num len s).pending = s.pending := by
  unfold unusable; split
  · exact serverFrame_pending s fun s => (protocolFault_frame _ s).pending
  · rfl

theorem helloArrives_pending (srv : Nat) (s : State) : (helloArrives srv s).pending = s.pending := by
  unfold helloArrives; split
  · rfl
  · dsimp only; split
    · rfl
    · split
      · exact (reenterFromUp_frame _ _ _).pending
      · exact (enterFrom_frame _ _ _).pending
      · rfl
      · rfl

theorem resyncArrives_pending (srv : Nat) (s : State) : (resyncArrives srv s).pending = s.pending := by
  unfold resyncArrives; split
  · rfl
  · dsimp only; split
    · rfl
    · split
      · exact (reenterFromUp_frame _ _ _).pending
      · exact (enterFrom_frame _ _ _).pending
      · exact (enterFrom_frame _ _ _).pending
      · rfl

theorem reEnter_pending (srv : Nat) (s : State) : (reEnter srv s).pending = s.pending := by
  unfold reEnter; split
  · rfl
  · split
    · exact (enterUp_frame _ _ _ s).pending
    · rfl

theorem secondComes_pending (s : State) : (secondComes s).pending = s.pending := by
  unfold secondComes; split
  · rfl
  · exact (secondTick_frame s).pending

theorem intakeNext_pending (srv : Nat) (s : State) : (intakeNext srv s).pending = s.pending := by
  unfold intakeNext; split
  · rfl
  · exact (dealWith_frame _ _ _ s).pending

theorem nightlyTake_pending (a : State × List NightlyItem) (v : Nat) : (nightlyTake a v).1.pending = a.1.pending := by
  unfold nightlyTake; dsimp only; split
  · exact (notify_frame _ _ _).pending
  · split
    · exact (notify_frame _ _ _).pending
    · split
      · exact (notify_frame _ _ _).pending
      · exact (takeSnap_frame _ _ _ _).pending

theorem nightlyTakes_pending (l : List Nat) (a : State × List NightlyItem) : (l.foldl nightlyTake a).1.pending = a.1.pending := by
  induction l generalizing a with
  | nil => rfl
  | cons v r ih => exact (ih _).trans (nightlyTake_pending a v)

theorem nightlyRound_pending (s : State) : (nightlyRound s).pending = s.pending := by
  unfold nightlyRound; split
  · rfl
  · dsimp only; split
    · exact nightlyTakes_pending _ _
    · exact nightlyTakes_pending _ _

theorem linkRestart_pending (s : State) (srv : Nat) : (linkRestart s srv).pending = s.pending := by
  change (match (link s srv).state with
    | .up => leaveUp srv .syncing .restart true s
    | .faulted => changeLink srv .syncing .restart s
    | .down | .syncing => s).pending = s.pending
  split
  · exact (leaveUp_frame _ _ _ _ s).pending
  · rfl
  · rfl
  · rfl

theorem dcRestart_pending (s : State) : (dcRestart s).pending = s.pending := by
  unfold dcRestart
  exact (presentAll_frame _).pending

theorem restartBegun_pending (s : State) : (restartBegun s).pending = s.pending := by
  rw [restartBegun, dcRestart_pending]
  rfl

theorem warmRestart_pending (s : State) : (warmRestart s).pending = s.pending :=
  (warmRestart_rest_work s).pending.trans ((foldl_pending linkRestart_pending _ _).trans (restartBegun_pending s))

theorem ite_pending {p : Prop} [Decidable p] {s a b : State} (ha : a.pending = s.pending) (hb : b.pending = s.pending) :
    (if p then a else b).pending = s.pending := by
  split
  · exact ha
  · exact hb

/-- A request or unknown kind completes. -/
theorem exec_request_pending {c : Instr} {h : ReqHead} (s : State) (hc : reqHead c = some h) :
    ∃ t, exec c s = .next t ∧ t.pending = s.pending := by
  by_cases hk : ∃ x kind, c = .unknownKind x kind ∧ isRequestKind kind = true
  · obtain ⟨x, kind, rfl, hk⟩ := hk
    exact ⟨s, exec_unknownKind_request s hk, rfl⟩
  · refine ⟨_, exec_request s hc fun x kind e => ?_, request_pending h _ (requestEffect_pending c (mgmtHunt s))⟩
    by_contra hne
    exact hk ⟨x, kind, e, by simpa using hne⟩

/-- Settles O2, command by command: what each does lies in the parts of its frame lemma. -/
theorem everyCommandCompletes : Obligations.EveryCommandCompletes := by
  intro c s
  cases hc : reqHead c with
  | some h => exact exec_request_pending s hc
  | none =>
    cases c with
    | coldReset => exact ⟨_, rfl, rfl⟩
    | resetRelease => exact ⟨_, rfl, ite_pending (releaseReset_pending s) rfl⟩
    | carrierGained => exact ⟨_, rfl, carrierGained_pending _ s⟩
    | carrierLost => exact ⟨_, rfl, carrierLost_pending _ s⟩
    | mgmtCarrierGained => exact ⟨_, rfl, mgmtGained_pending s⟩
    | mgmtCarrierLost => exact ⟨_, rfl, mgmtLost_pending s⟩
    | mgmtBadFrame => exact ⟨_, rfl, mgmtChars_pending _ s⟩
    | mgmtFrameBusy => exact ⟨_, rfl, frameBusy_pending _ s⟩
    | mgmtFrameSent => exact ⟨_, rfl, mgmtSent_pending s⟩
    | serverFrameSent => exact ⟨_, rfl, serverSent_pending _ s⟩
    | serverBadFrame => exact ⟨_, rfl, serverChars_pending _ _ s⟩
    | serverUnusableFrame => exact ⟨_, rfl, unusable_pending _ _ _ _ s⟩
    | hello => exact ⟨_, rfl, helloArrives_pending _ s⟩
    | resync => exact ⟨_, rfl, resyncArrives_pending _ s⟩
    | reEnterUp => exact ⟨_, rfl, reEnter_pending _ s⟩
    | idleReceived => exact ⟨_, rfl, serverFrame_pending s fun _ => rfl⟩
    | secondEvent => exact ⟨_, rfl, secondComes_pending s⟩
    | silenceLimitReached => exact ⟨_, rfl, ite_pending (secondComes_pending s) rfl⟩
    | minuteEvent => exact ⟨_, rfl, ite_pending (secondComes_pending s) rfl⟩
    | graceExpired => exact ⟨_, rfl, ite_pending (secondComes_pending s) rfl⟩
    | nightlyTakes => exact ⟨_, rfl, nightlyRound_pending s⟩
    | dupNightlyList => exact ⟨_, rfl, (nightlyList_work s).pending⟩
    | sampleEvent => exact ⟨_, rfl, (sampleComes_work s).pending⟩
    | trendVisit => exact ⟨_, rfl, (visitNext_work s).pending⟩
    | graceSweepVisit => exact ⟨_, rfl, (graceVisitNext_work s).pending⟩
    | changes => exact ⟨_, rfl, serverFrame_pending s fun s => (takeChanges_frame _ _ _ s).pending⟩
    | intakeRecord => exact ⟨_, rfl, intakeNext_pending _ s⟩
    | denyAck => exact ⟨_, rfl, completionFrame_pending s fun s => (takeAck_frame _ _ _ s).pending⟩
    | allowAck => exact ⟨_, rfl, completionFrame_pending s fun s => (takeAck_frame _ _ _ s).pending⟩
    | snapDone => exact ⟨_, rfl, completionFrame_pending s fun s =>
        ((grantAll_work _).after ((dcListen_work _).after (snapLive_work _ _ s))).pending⟩
    | snapFail => exact ⟨_, rfl, completionFrame_pending s fun s =>
        ((grantAll_work _).after ((dcListen_work _).after (snapFails_work _ _ _ s))).pending⟩
    | dropSnapAck => exact ⟨_, rfl, completionFrame_pending s fun s => (dropAcked_work _ _ s).pending⟩
    | copyDone => exact ⟨_, rfl, completionFrame_pending s fun s => ((grantAll_work _).after (copyDone_work _ _ s)).pending⟩
    | copyFail => exact ⟨_, rfl, completionFrame_pending s fun s => ((grantAll_work _).after (copyFail_work _ _ _ s)).pending⟩
    | shipDone => exact ⟨_, rfl, completionFrame_pending s fun s =>
        ((grantAll_work _).after (shipCompletes_work _ _ s)).pending⟩
    | shipFail => exact ⟨_, rfl, completionFrame_pending s fun s => ((grantAll_work _).after (shipFails_work _ _ _ s)).pending⟩
    | warmRestart => exact ⟨_, rfl, ite_pending (warmRestart_pending s) rfl⟩
    | warmRestartEnd => exact ⟨_, rfl, ite_pending rfl rfl⟩
    | _ => cases hc

end Sys2Proof.Machine
end

