-- ==== Sys2Proof/Proofs/ResetAndSettings.lean ====
section
/-! PROOF. Cold reset (O3), the invariants after it (O55), frames sent and IDLE (O12), and two settings (O38). -/

namespace Sys2Proof.Machine

/-! ### Cold reset -/

theorem principal_coldState (s : State) (p : Nat) :
    principal (coldState s) p = if 0 = p then Principal.zeroCold else Principal.undefined := by
  change tgetD Principal.undefined [(0, Principal.zeroCold)] p = _
  unfold tgetD
  by_cases h : 0 = p <;> simp [tget, h]

/-- Settles O3: every block's part of `State.reset`, read off; only principal 0 is listed in a table. -/
theorem coldResetState : Obligations.ColdResetState := by
  intro s
  refine ⟨coldState s, rfl, rfl, rfl, fun _ => ⟨rfl, rfl, rfl, rfl, rfl, rfl, rfl, rfl, rfl, rfl⟩, rfl, rfl, rfl, rfl, rfl,
    rfl, rfl, rfl, rfl, rfl, rfl, rfl, rfl, rfl, rfl, rfl, fun _ => ⟨rfl, rfl⟩,
    fun _ => ⟨rfl, rfl, rfl, rfl, rfl, rfl, rfl, rfl, rfl, rfl⟩, fun _ => ⟨rfl, rfl, rfl, rfl, rfl, rfl, rfl, rfl⟩,
    fun p => ?_, fun _ => ⟨rfl, rfl, rfl⟩, rfl, rfl, rfl, rfl, rfl, rfl, rfl, rfl, rfl, rfl, fun _ => rfl, rfl, rfl,
    fun _ => ⟨rfl, rfl, rfl, rfl, rfl⟩, rfl, rfl, rfl, rfl, rfl, rfl, rfl, rfl, rfl, rfl, fun _ => rfl, rfl, rfl, rfl, rfl, rfl,
    rfl⟩
  rw [principal_coldState]
  by_cases hp : 0 = p
  · subst hp; exact ⟨rfl, rfl, rfl, rfl, rfl, rfl⟩
  · rw [if_neg hp, decide_eq_false fun h => hp h.symm]
    exact ⟨rfl, rfl, rfl, rfl, rfl, rfl⟩

/-! ### The invariants after cold reset -/

theorem reset_clockInv : ClockInv State.reset where
  second := by decide
  partTime := by decide
  minute := by decide
  settings := by unfold WindowSet.inRange; decide
  pendingSet _ h := by cases h
  closed _ := ⟨rfl, rfl⟩
  isOpen _ h := by cases h
  handed := ⟨rfl, rfl⟩
  trend := by decide

theorem reset_mgmtInv : MgmtInv State.reset where
  replies := Nat.zero_le _
  busy := Nat.zero_le _
  free _ := ⟨rfl, rfl, rfl⟩
  head _ h := by cases h
  absent _ := rfl
  taken h := by cases h
  due _ := rfl

theorem reset_noticeInv : NoticeInv State.reset where
  length := Nat.zero_le _
  pairs := List.nodup_nil
  ages := List.Pairwise.nil
  young _ h := by cases h
  priority _ h := by cases h
  priorities k := by show (1 : Nat) ≤ 3; decide
  seen _ h := by cases h
  slot _ h := by cases h
  counts := by decide

theorem reset_tables : Tables State.reset := by constructor <;> decide

theorem reset_innerTables : InnerTables State.reset where
  masks := rfl
  marks _ h := by cases h
  parts _ h := by cases h
  priorities := ⟨rfl, rfl⟩

theorem reset_linkInv : LinkInv State.reset where
  quiet _ _ := ⟨rfl, rfl⟩
  volumes _ h := absurd rfl h
  nightly _ h := by cases h
  records _ h := absurd rfl h
  drained _ _ := rfl
  held _ h := absurd rfl h

/-- Settles O55. -/
theorem invariantsHoldAtReset : Obligations.InvariantsHoldAtReset :=
  ⟨reset_clockInv, fun _ => rfl, reset_mgmtInv, reset_noticeInv, reset_tables, reset_innerTables, reset_linkInv⟩

/-! ### Frames sent, IDLE received -/

theorem setLink_unchanged (i : Nat) (l : Link) (s : State) : Unchanged [.links] s (setLink i l s) := fun p hp => by
  cases p <;> first | rfl | exact ⟨rfl, rfl⟩ | exact ⟨rfl, rfl, rfl⟩ | exact (hp (by decide)).elim

theorem link_setLink_same (s : State) (i : Nat) (l : Link) : link (setLink i l s) i = l := by rw [link_setLink, if_pos rfl]

theorem link_setLink_ne (s : State) {i j : Nat} (l : Link) (h : j ≠ i) : link (setLink i l s) j = link s j := by
  rw [link_setLink, if_neg (Ne.symm h)]

theorem link_frameArrived_same (s : State) (srv : Nat) : link (frameArrived srv s) srv =
    { link s srv with rx := .hunting, silence := if (link s srv).state = .up then 0 else (link s srv).silence } :=
  link_setLink_same ..

theorem serverFrame_up {srv : ServerId} {s : State} (h : UpReceives srv s) (f : State → State) :
    serverFrame srv f s = f (frameArrived srv s) := by
  obtain ⟨hr, hw, hu⟩ := h
  simp [serverFrame, hr, hw, hu]

/-- Settles O12, by what each of the two commands writes to its link. -/
theorem framesSentAndIdle : Obligations.FramesSentAndIdle := by
  refine ⟨fun srv f rest s hq => ?_, fun srv s hup => ?_⟩
  · have he : exec (.serverFrameSent srv) s =
        .next (setLink srv { link s srv with txQueue := rest, sentSince := true } s) := by
      change Host.Outcome.next (serverSent srv s) = _
      rw [serverSent, hq]
    exact ⟨_, he, link_setLink_same .., fun j hj => link_setLink_ne s _ hj, setLink_unchanged _ _ s⟩
  · have he : exec (.idleReceived srv) s = .next (frameArrived srv s) := congrArg Host.Outcome.next (serverFrame_up hup id)
    have hstate : (link s srv).state = .up := of_decide_eq_true hup.2.2
    exact ⟨_, he, by rw [link_frameArrived_same, if_pos hstate], fun j hj => link_setLink_ne s _ hj, setLink_unchanged _ _ s⟩

/-! ### SET_SILENCE and SET_SLOTMASK -/

theorem silenceWrite_frame (n : Nat) (s : State) : Frame [.silenceLimit] s { s with lu := { s.lu with silenceLimit := n } } :=
  ⟨rfl, fun p hp => by cases p <;> first | rfl | exact ⟨rfl, rfl⟩ | exact ⟨rfl, rfl, rfl⟩ | exact (hp (by decide)).elim,
    fun _ => ⟨rfl, rfl⟩⟩

theorem masksWrite_frame (t : Tab SlotMask) (s : State) : Frame [.masks] s { s with cwu := { s.cwu with masks := t } } :=
  ⟨rfl, fun p hp => by cases p <;> first | rfl | exact ⟨rfl, rfl⟩ | exact ⟨rfl, rfl, rfl⟩ | exact (hp (by decide)).elim,
    fun _ => ⟨rfl, rfl⟩⟩

/-- SET_SILENCE clamps exactly when the limit lies outside 1 to 60. -/
theorem clampedFields_silence (n : Nat) :
    clampedFields [(1, decide (clampTo 1 60 n ≠ n))] = if n < 1 ∨ 60 < n then [1] else [] := by
  have h : clampTo 1 60 n ≠ n ↔ n < 1 ∨ 60 < n := by unfold clampTo; omega
  rw [decide_eq_decide.2 h]
  split
  · rw [decide_eq_true ‹_›]; rfl
  · rw [decide_eq_false ‹_›]; rfl

/-- Settles O38: each is one write, answered. -/
theorem setSilenceAndSlotmask : Obligations.SetSilenceAndSlotmask := by
  refine ⟨fun h limit s ht => ?_, fun h g mask s ht => ?_⟩
  · have he : exec (.setSilence h limit) s = .next (answer h.tag (setSilence limit.toNat (mgmtHunt s)).2
        (setSilence limit.toNat (mgmtHunt s)).1) := congrArg Host.Outcome.next (fixedRequest_takes ht _)
    obtain ⟨ha, hu⟩ := answered_of_frame (setSilence limit.toNat (mgmtHunt s)).2 ht
      (silenceWrite_frame (clampTo 1 60 limit.toNat) (mgmtHunt s))
    refine ⟨_, he, ?_, answer_lu_silenceLimit _ _ _, hu⟩
    rw [← clampedFields_silence]
    exact ha
  · have he : exec (.setSlotmask h g mask) s = .next (answer h.tag (setSlotmask g.toNat mask (mgmtHunt s)).2
        (setSlotmask g.toNat mask (mgmtHunt s)).1) := congrArg Host.Outcome.next (fixedRequest_takes ht _)
    refine ⟨_, he, ?_⟩
    unfold setSlotmask
    by_cases hg : 7 < g.toNat
    · rw [if_pos hg, if_pos hg]
      exact refused_takes _ ht
    · rw [if_neg hg, if_neg hg]
      obtain ⟨ha, hu⟩ := answered_of_frame (accept [] .none) ht (masksWrite_frame
        (tsetD { current := 0, pending := none } s.cwu.masks g.toNat { slotMask s.cwu g.toNat with pending := some mask })
        (mgmtHunt s))
      refine ⟨ha, ?_, fun k hk => ?_, hu⟩
      · rw [answer_cwu]
        exact (tgetD_tsetD ..).trans (if_pos rfl)
      · rw [answer_cwu]
        exact (tgetD_tsetD ..).trans (if_neg (Ne.symm hk))

end Sys2Proof.Machine
end

