-- ==== Sys2Proof/Proofs/ManagementFrames.lean ====
section
/-! PROOF. The management link: frames that have no effect (O7, O8), the checks of the Link Unit (O9), every request answered
(O10), the frame sent (O11), and the carrier's comings and goings (O6). -/

namespace Sys2Proof.Machine

/-! ### Frames that are dropped, and BUSY -/

theorem mgmtReceives_iff {s : State} : mgmtReceives s = true ↔ s.pins.resetHeld = false ∧ s.pins.mgmtCarrier = true := by
  simp [mgmtReceives]

theorem mgmtReceives_false {s : State} (h : s.pins.resetHeld = true ∨ s.pins.mgmtCarrier = false) : mgmtReceives s = false := by
  rcases h with h | h <;> simp [mgmtReceives, h]

theorem mgmtBusy_iff {s : State} : mgmtBusy s = true ↔ 8 ≤ s.lu.replies.length ∨ s.lu.restart ≠ .none := by
  simp [mgmtBusy]

theorem request_unreceived (h : ReqHead) (b : Bool) (f : State → State × Reply) {s : State} (hr : mgmtReceives s = false) :
    request h b f s = s := by simp [request, hr]

theorem request_busy (h : ReqHead) (b : Bool) (f : State → State × Reply) {s : State} (hr : mgmtReceives s = true)
    (hb : mgmtBusy s = true) : request h b f s = answerBusy h.tag (mgmtHunt s) := by simp [request, hr, hb]

theorem mgmtRxWrite_unchanged (r : Rx) (s : State) : Unchanged [.mgmtRx] s { s with lu := { s.lu with mgmtRx := r } } :=
  fun p hp => by cases p <;> first | rfl | exact ⟨rfl, rfl⟩ | exact ⟨rfl, rfl, rfl⟩ | exact (hp (by decide)).elim

theorem any_eq_false_of_all_not {l : List RxEvent} (h : (l.all fun e => !e.isGood) = true) : l.any RxEvent.isGood = false := by
  simpa using h

/-- A request, unknown kind or bad frame at a port that receives nothing. -/
theorem exec_unreceived {c : Instr} {x : ReqHead} {s : State} (hc : reqHead c = some x) (hr : mgmtReceives s = false) :
    exec c s = .next s := by
  by_cases hk : ∃ y kind, c = .unknownKind y kind ∧ isRequestKind kind = true
  · obtain ⟨y, kind, rfl, hk⟩ := hk
    exact exec_unknownKind_request s hk
  · rw [exec_request s hc fun y kind e => by
      by_contra hne; exact hk ⟨y, kind, e, by simpa using hne⟩, request_unreceived _ _ _ hr]

/-- Settles O7: the receive side alone moves, and only where bytes are received. -/
theorem badManagementFramesDropped : Obligations.BadManagementFramesDropped := by
  refine ⟨fun chars s hr hc hbad => ?_, fun c s hkind hno => ?_⟩
  · have he : exec (.mgmtBadFrame chars) s =
        .next { s with lu := { s.lu with mgmtRx := (rxRun s.lu.mgmtRx chars).1 } } := by
      change Host.Outcome.next (mgmtChars chars s) = _
      simp [mgmtChars, mgmtReceives_iff.2 ⟨hr, hc⟩, any_eq_false_of_all_not hbad]
    exact ⟨_, he, rfl, mgmtRxWrite_unchanged _ s⟩
  · have hr := mgmtReceives_false hno
    rcases hkind with ⟨chars, rfl⟩ | ⟨tag, rfl⟩ | hreq
    · change Host.Outcome.next (mgmtChars chars s) = _
      simp [mgmtChars, hr]
    · change Host.Outcome.next (frameBusy tag s) = _
      simp [frameBusy, hr]
    · obtain ⟨x, hx⟩ := Option.ne_none_iff_exists'.1 hreq
      exact exec_unreceived hx hr

theorem pump_of_sending {s : State} (h : s.lu.mgmtTx.isSome = true) : pump s = s := by simp [pump, h]

theorem pump_of_free {s : State} (htx : s.lu.mgmtTx = none) (hc : s.pins.mgmtCarrier = true) : pump s = startNext s := by
  simp [pump, htx, hc]

/-- A good frame that is not taken, whichever command it is, is answered BUSY. -/
theorem exec_answeredBusy {c : Instr} {tag : BitVec 16} {s : State}
    (hc : c = .mgmtFrameBusy tag ∨ (c.wf = true ∧ ∃ h, reqHead c = some h ∧ h.tag = tag)) (hr : mgmtReceives s = true)
    (hb : mgmtBusy s = true) : exec c s = .next (answerBusy tag (mgmtHunt s)) := by
  rcases hc with rfl | ⟨hw, h, hh, rfl⟩
  · change Host.Outcome.next (frameBusy tag s) = _
    simp [frameBusy, hr, hb]
  · rw [exec_request s hh (notRequestKind_of_wf hw), request_busy _ _ _ hr hb]

/-- A tag joins the BUSY list. -/
def withBusy (tag : BitVec 16) (s : State) : State := { s with lu := { s.lu with busy := s.lu.busy ++ [tag] } }

theorem withBusy_unchanged (tag : BitVec 16) (s : State) : Unchanged [.busy] s (withBusy tag s) :=
  fun p hp => by cases p <;> first | rfl | exact ⟨rfl, rfl⟩ | exact ⟨rfl, rfl, rfl⟩ | exact (hp (by decide)).elim

theorem answerBusy_full (tag : BitVec 16) {s : State} (h : 8 ≤ s.lu.busy.length) : answerBusy tag s = s := by
  rw [answerBusy, if_neg (by omega)]

theorem answerBusy_room (tag : BitVec 16) {s : State} (h : s.lu.busy.length < 8) : answerBusy tag s = pump (withBusy tag s) := by
  rw [answerBusy, if_pos h]; rfl

/-- With nothing waiting before it a BUSY answer starts at once. -/
theorem answerBusy_starts (tag : BitVec 16) {s : State} (hc : s.pins.mgmtCarrier = true) (htx : s.lu.mgmtTx = none)
    (hslot : s.nq.slot = none) (hb : s.lu.busy = []) :
    answerBusy tag s = { s with lu := { s.lu with mgmtTx := some (.busy tag) } } := by
  rw [answerBusy_room tag (by rw [hb]; decide), pump_of_free (s := withBusy tag s) htx hc]
  simp only [startNext, withBusy, hslot, hb, List.nil_append]

theorem answerBusy_unchanged (tag : BitVec 16) {s : State} (hc : s.pins.mgmtCarrier = true) :
    Unchanged [.mgmtTx, .busy, .slot] s (answerBusy tag s) := by
  by_cases h : s.lu.busy.length < 8
  · rw [answerBusy_room tag h]
    exact ((withBusy_unchanged tag s).mono (by decide)).trans ((pump_frame (withBusy tag s)).unchanged hc)
  · rw [answerBusy_full tag (by omega)]
    exact Unchanged.refl _ s

theorem mgmtHunt_unchanged (s : State) : Unchanged [.mgmtRx] s (mgmtHunt s) := mgmtRxWrite_unchanged _ s

theorem mgmtTxWrite_unchanged (f : Option MgmtFrame) (s : State) : Unchanged [.mgmtTx] s { s with lu := { s.lu with mgmtTx := f } } :=
  fun p hp => by cases p <;> first | rfl | exact ⟨rfl, rfl⟩ | exact ⟨rfl, rfl, rfl⟩ | exact (hp (by decide)).elim

theorem answerBusy_mgmtRx (tag : BitVec 16) (s : State) : (answerBusy tag s).lu.mgmtRx = s.lu.mgmtRx := by
  unfold answerBusy; split
  · exact pump_lu_mgmtRx _
  · rfl

/-- Settles O8, by the cases of a BUSY answer: discarded, listed, or started at once. -/
theorem busyFramesHaveNoEffect : Obligations.BusyFramesHaveNoEffect := by
  intro c tag s hc hr hcar hbusy
  refine ⟨_, exec_answeredBusy hc (mgmtReceives_iff.2 ⟨hr, hcar⟩) (mgmtBusy_iff.2 hbusy), ?_, ?_, ?_, ?_, ?_⟩
  · exact answerBusy_mgmtRx tag (mgmtHunt s)
  · intro hfull
    rw [answerBusy_full tag (s := mgmtHunt s) hfull]
    exact mgmtHunt_unchanged s
  · intro hroom htx
    rw [answerBusy_room tag (s := mgmtHunt s) hroom, pump_of_sending (s := withBusy tag (mgmtHunt s)) htx]
    exact ⟨rfl, ((mgmtHunt_unchanged s).mono (by decide)).trans ((withBusy_unchanged tag _).mono (by decide))⟩
  · intro htx hslot hb
    rw [answerBusy_starts tag (s := mgmtHunt s) hcar htx hslot hb]
    exact ⟨rfl, ((mgmtHunt_unchanged s).mono (by decide)).trans ((mgmtTxWrite_unchanged _ _).mono (by decide))⟩
  · exact ((mgmtHunt_unchanged s).mono (by decide)).trans ((answerBusy_unchanged tag (s := mgmtHunt s) hcar).mono (by decide))

/-! ### Requests taken -/

theorem exec_taken {c : Instr} {h : ReqHead} {n : Nat} {s : State} (hc : reqHead c = some h)
    (hk : ∀ x kind, c = .unknownKind x kind → isRequestKind kind = false) (ht : Takes h n s) :
    exec c s = .next (if lengthSuits c then answer h.tag (requestEffect c (mgmtHunt s)).2 (requestEffect c (mgmtHunt s)).1
      else answer h.tag (refusal .malformed) (mgmtHunt s)) := by
  rw [exec_request s hc hk, request_takes ht]

/-- Settles O9: the length is looked at first, and an unknown kind has none. -/
theorem linkUnitChecksKindAndLength : Obligations.LinkUnitChecksKindAndLength := by
  refine ⟨fun h kind s hkind ht => ?_, fun c h n s hc hlen hne ht => ?_⟩
  · have hno : isRequestKind kind = false := by
      unfold isRequestKind
      rw [Bool.and_eq_false_iff, decide_eq_false_iff_not, decide_eq_false_iff_not]
      omega
    exact ⟨_, exec_taken (c := .unknownKind h kind) rfl (fun _ _ e => by cases e; exact hno) ht, refused_takes _ ht⟩
  · have hk : ∀ x kind, c = .unknownKind x kind → isRequestKind kind = false := by
      rintro x kind rfl; cases hlen
    refine ⟨_, exec_taken hc hk ht, ?_⟩
    rw [lengthSuits_false hc hlen hne]
    exact refused_takes _ ht

theorem raise_replies (n : Notice) {s : State} (hc : s.pins.mgmtCarrier = true) : (raise n s).lu.replies = s.lu.replies :=
  pump_lu_replies _ hc

theorem raiseAll_replies (ns : List Notice) {s : State} (hc : s.pins.mgmtCarrier = true) :
    (raiseAll ns s).lu.replies = s.lu.replies ∧ (raiseAll ns s).pins.mgmtCarrier = true := by
  induction ns generalizing s with
  | nil => exact ⟨rfl, hc⟩
  | cons n ns ih =>
    obtain ⟨hr, hc'⟩ := ih (s := raise n s) (by rw [raise, pump_pins]; exact hc)
    exact ⟨hr.trans (raise_replies n hc), hc'⟩

/-- While the management carrier is present, raising notices leaves the reply list. -/
theorem Speaks.replies {s t : State} (h : Speaks s t) (hc : s.pins.mgmtCarrier = true) :
    t.lu.replies = s.lu.replies ∧ t.pins.mgmtCarrier = true := by
  obtain ⟨ns, hn⟩ := h
  obtain ⟨hcar, -, hrep, -, -, -⟩ := mgmtView_eq_iff.1 hn
  obtain ⟨h1, h2⟩ := raiseAll_replies ns hc
  exact ⟨hrep.trans h1, hcar.trans h2⟩

/-- A request applied leaves the reply list for its own reply. -/
theorem Applied.replies {c : Instr} {s t : State} (h : Applied c s t) (hc : s.pins.mgmtCarrier = true) :
    t.lu.replies = s.lu.replies ∧ t.pins.mgmtCarrier = true := by
  have hn : NoticeRequest s t → t.lu.replies = s.lu.replies ∧ t.pins.mgmtCarrier = true := by
    rintro ⟨he, -⟩
    rw [he]
    exact ⟨rfl, hc⟩
  have hw : Work s t → t.lu.replies = s.lu.replies ∧ t.pins.mgmtCarrier = true := fun h => h.speaks.replies hc
  cases c with
  | attachVolume => exact h.1.speaks.replies hc
  | setVolume =>
    obtain ⟨-, w, l, g, n, hw⟩ := h
    exact ((setVolume_silent _ _ s).speaks.trans hw.speaks).replies hc
  | detachVolume =>
    cases h
    exact (detachRecord_request _ s).1.speaks.replies hc
  | restart =>
    cases h
    exact ⟨rfl, hc⟩
  | setNotice => exact hn h
  | fetchNotices => exact hn h
  | clearNotice => exact hn h
  | _ => exact hw h

theorem accept_status (clamps : List Nat) (r : Results) : (accept clamps r).status ≠ .busy
    ∧ ((accept clamps r).status = .clamped ↔ (accept clamps r).clamps ≠ [])
    ∧ ((accept clamps r).status = .ok ∨ (accept clamps r).status = .clamped) := by
  unfold accept
  cases clamps <;> simp

/-- A request refused with a status that is not OK, CLAMPED or BUSY has been answered as O10 has it. -/
theorem answered_refusal {h : ReqHead} {n : Nat} {s : State} (ht : Takes h n s) {st : Status}
    (hst : st ≠ .ok ∧ st ≠ .clamped ∧ st ≠ .busy) :
    Answered h (refusal st) s (answer h.tag (refusal st) (mgmtHunt s)) ∧ (refusal st).status ≠ .busy
      ∧ ((refusal st).status = .clamped ↔ (refusal st).clamps ≠ [])
      ∧ ((refusal st).status ≠ .ok → (refusal st).status ≠ .clamped →
        refusal st = refusal (refusal st).status ∧ Unchanged answerParts s (answer h.tag (refusal st) (mgmtHunt s))) := by
  obtain ⟨hans, hun⟩ := refused_takes st ht
  exact ⟨hans, hst.2.2, ⟨fun h => absurd h hst.2.1, fun h => absurd rfl h⟩, fun _ _ => ⟨rfl, hun⟩⟩

/-- Settles O10: every effect is a refusal with nothing done, or applied with OK or CLAMPED. -/
theorem everyRequestTakenIsAnswered : Obligations.EveryRequestTakenIsAnswered := by
  intro c h s hw hc ht
  rw [exec_taken hc (notRequestKind_of_wf hw) ht]
  by_cases hlen : lengthSuits c = true
  · rw [if_pos hlen]
    have hh := requestEffect_handled c (mgmtHunt s)
    generalize requestEffect c (mgmtHunt s) = r at hh
    cases hh with
    | refused st hst => exact ⟨_, _, rfl, answered_refusal ht hst⟩
    | @applied t clamps res happ =>
      obtain ⟨hrep, hcar⟩ := happ.replies ht.2.1
      obtain ⟨hbusy, hclamp, hok⟩ := accept_status clamps res
      refine ⟨_, _, rfl, ?_, hbusy, hclamp, fun h1 h2 => (hok.elim h1 h2).elim⟩
      exact (answer_frame_carrier h.tag _ t hcar).1.trans (congrArg (· ++ _) hrep)
  · rw [if_neg hlen]
    exact ⟨_, _, rfl, answered_refusal ht (by decide)⟩

/-! ### The frame in transmission is over -/

/-- The Link Unit when the transmission of a frame is over. -/
def MgmtFrame.over (f : MgmtFrame) (lu : Lu) : Lu :=
  match f with
  | .reply _ => { lu.replyGone with mgmtTx := none }
  | .busy _ | .express _ => { lu with mgmtTx := none }

theorem txOver_of_tx {s : State} {f : MgmtFrame} (h : s.lu.mgmtTx = some f) : txOver s = { s with lu := f.over s.lu } := by
  cases f <;> simp [txOver, h, MgmtFrame.over]

theorem txOver_frame (s : State) (p : Part) (hp : p ∉ [Part.mgmtTx, .replies, .restart]) : Part.same s (txOver s) p := by
  unfold txOver
  split <;> cases p <;> first | rfl | exact ⟨rfl, rfl⟩ | exact ⟨rfl, rfl, rfl⟩ | exact (hp (by decide)).elim

/-- What starts when the transmit side is free, by what waits. -/
theorem startNext_waiting (s : State) (htx : s.lu.mgmtTx = none) :
    match s.nq.slot, s.lu.busy, s.lu.replies with
    | some m, _, _ => (startNext s).lu.mgmtTx = some (.express m) ∧ (startNext s).nq.slot = none
        ∧ (startNext s).lu.busy = s.lu.busy
    | none, tag :: more, _ => (startNext s).lu.mgmtTx = some (.busy tag) ∧ (startNext s).nq.slot = none
        ∧ (startNext s).lu.busy = more
    | none, [], e :: _ => (startNext s).lu.mgmtTx = some (.reply e) ∧ (startNext s).nq.slot = none ∧ (startNext s).lu.busy = []
    | none, [], [] => (startNext s).lu.mgmtTx = none ∧ (startNext s).nq.slot = none ∧ (startNext s).lu.busy = [] := by
  unfold startNext
  cases hslot : s.nq.slot with
  | some m => exact ⟨rfl, rfl, rfl⟩
  | none =>
    cases hb : s.lu.busy with
    | cons tag more => exact ⟨rfl, hslot, rfl⟩
    | nil =>
      cases hr : s.lu.replies with
      | cons e rest => exact ⟨rfl, hslot, hb⟩
      | nil => exact ⟨htx, hslot, hb⟩

/-- Settles O11: the frame gone, the first that waits starts. -/
theorem frameSentStartsTheNext : Obligations.FrameSentStartsTheNext := by
  intro f rs s hc htx hrs
  have he : exec .mgmtFrameSent s = .next (pump (txOver s)) := by
    change Host.Outcome.next (mgmtSent s) = _
    simp [mgmtSent, htx]
  have hcar : (txOver s).pins.mgmtCarrier = true := by rw [txOver_carrier]; exact hc
  have hslot : (txOver s).nq.slot = s.nq.slot := txOver_frame s .slot (by decide)
  have hbusy : (txOver s).lu.busy = s.lu.busy := txOver_frame s .busy (by decide)
  have hrep : (txOver s).lu.replies = rs := by rw [txOver_of_tx htx, hrs]; cases f <;> rfl
  refine ⟨_, he, (pump_lu_replies _ hcar).trans hrep, ?_, ?_, ?_⟩
  · have hnext := startNext_waiting (txOver s) (txOver_tx s)
    rw [hslot, hbusy, hrep] at hnext
    rw [pump_of_free (txOver_tx s) hcar]
    exact hnext
  · rw [pump_lu_restart _ hcar, txOver_of_tx htx]
    cases f with
    | reply e => subst hrs; rfl
    | busy tag => rfl
    | express m => rfl
  · intro p hp
    have h1 := txOver_frame s p (fun h => hp (by revert h; cases p <;> decide))
    have h2 := ((pump_frame (txOver s)).unchanged hcar) p (fun h => hp (by revert h; cases p <;> decide))
    exact Part.same_trans h1 h2

/-! ### The management carrier -/

theorem txOver_mgmtRx (s : State) : (txOver s).lu.mgmtRx = s.lu.mgmtRx := txOver_frame s .mgmtRx (by decide)

/-- A reply to RESTART gone, or discarded with the rest, leaves the warm restart due. -/
theorem discardWaiting_txOver_restart (s : State) :
    (discardWaiting (txOver s)).lu.restart = if s.lu.restart = .taken then .due else s.lu.restart := by
  unfold discardWaiting txOver
  split
  · rfl
  · dsimp only [Lu.replyGone]
    by_cases h : s.lu.restart = .taken
    · by_cases hr : s.lu.replies.tail = [] <;> simp [h, hr]
    · simp [h]
  · rfl
  · rfl

/-- Settles O6, by the two equations of the carrier's loss and gain. -/
theorem managementCarrierComesAndGoes : Obligations.ManagementCarrierComesAndGoes := by
  refine ⟨fun s hc => ?_, fun s hc hinv => congrArg Host.Outcome.next (mgmtGained_eq hinv hc)⟩
  let u : State := mgmtHunt { s with pins := { s.pins with mgmtCarrier := false } }
  have he : exec .mgmtCarrierLost s = .next (discardWaiting (txOver u)) := congrArg Host.Outcome.next (mgmtLost_eq hc)
  refine ⟨_, he, txOver_carrier u, txOver_mgmtRx u, txOver_tx u, rfl, rfl, rfl, discardWaiting_txOver_restart u, ?_⟩
  intro p hp
  have h1 : Part.same s u p := by
    revert hp
    cases p <;> first
      | exact fun _ => rfl
      | exact fun _ => ⟨rfl, rfl⟩
      | exact fun _ => ⟨rfl, rfl, rfl⟩
      | exact fun hp => (hp (by decide)).elim
  have h2 := txOver_frame u p (fun h => hp (by revert h; cases p <;> decide))
  have h3 : Part.same (txOver u) (discardWaiting (txOver u)) p := by
    revert hp
    cases p <;> first
      | exact fun _ => rfl
      | exact fun _ => ⟨rfl, rfl⟩
      | exact fun _ => ⟨rfl, rfl, rfl⟩
      | exact fun hp => (hp (by decide)).elim
  exact Part.same_trans (Part.same_trans h1 h2) h3

end Sys2Proof.Machine
end

