-- ==== Sys2Proof/Proofs/FramesDecoded.lean ====
section
/-! PROOF. Frames as they stand on a link (O53): the receive side collects a frame's bytes unfinished to the last, and what it
reports there is the frame, or one bad frame. -/

namespace Sys2Proof.Machine

/-! ### Numbers in bytes -/

theorem leNat_leBytes (n v : Nat) : leNat (leBytes n v) = v % 256 ^ n := by
  induction n generalizing v with
  | zero => simp [leBytes, leNat, Nat.mod_one]
  | succ n ih =>
    simp only [leBytes, leNat, ih, BitVec.toNat_ofNat]
    rw [pow_succ' 256 n, Nat.mod_mul]

theorem leNat_leBytes_two {v : Nat} (h : v < 65536) : leNat (leBytes 2 v) = v := by
  rw [leNat_leBytes]; exact Nat.mod_eq_of_lt h

theorem length_leBytes (n v : Nat) : (leBytes n v).length = n := by
  induction n generalizing v with
  | zero => rfl
  | succ n ih => simp [leBytes, ih]

/-! ### The receive side, byte by byte -/

/-- The bytes got so far make neither a frame nor a bad one. -/
def Unfinished (got : List Byte) : Prop := rxGot got = (.assembling got, none)

theorem rxRun_assembling {bs : List Byte} {pre : List Byte} (h : ∀ got, got <+: bs → Unfinished (pre ++ got)) (cs : List RxChar) :
    rxRun (.assembling pre) (bs.map RxChar.byte ++ cs) = rxRun (.assembling (pre ++ bs)) cs := by
  induction bs generalizing pre with
  | nil => simp
  | cons b bs ih =>
    have hb : Unfinished (pre ++ [b]) := h [b] ⟨bs, rfl⟩
    have hstep : rxStep (.assembling pre) (.byte b) = (.assembling (pre ++ [b]), none) := hb
    simp only [List.map_cons, List.cons_append, rxRun, hstep, Option.toList_none, List.nil_append]
    rw [ih (pre := pre ++ [b]) fun got hg => by
      simpa using h (b :: got) (List.cons_prefix_cons.2 ⟨rfl, hg⟩)]
    simp

/-- Behind the mark, bytes that are unfinished throughout are collected. -/
theorem rxRun_marked {bs : List Byte} (h : ∀ got, got <+: bs → Unfinished got) (cs : List RxChar) :
    rxRun .hunting ((0xC3#8 :: bs).map RxChar.byte ++ cs) = rxRun (.assembling bs) cs := by
  have := rxRun_assembling (pre := []) (by simpa using h) cs
  simpa [rxRun, rxStep] using this

/-- Bytes that are unfinished until the last one give what they amount to with it. -/
theorem rxRun_ends {w : List Byte} {ev : RxEvent} (h : ∀ got, got <+: w → got.length < w.length → Unfinished got)
    (he : rxGot w = (.hunting, some ev)) : rxRun .hunting ((0xC3#8 :: w).map RxChar.byte) = (.hunting, [ev]) := by
  rcases List.eq_nil_or_concat' w with rfl | ⟨bs, b, rfl⟩
  · cases he
  · have hbs : ∀ got, got <+: bs → Unfinished got := fun got hg =>
      h got (hg.trans (List.prefix_append bs [b])) (by have := hg.length_le; simp; omega)
    have := rxRun_marked hbs [.byte b]
    rw [← List.cons_append, List.map_append]
    exact this.trans (by simp [rxRun, rxStep, he])

/-! ### What the bytes of a frame amount to -/

theorem unfinished_of_short {got : List Byte} (h : got.length < 5) : Unfinished got := if_pos h

theorem length_checked (f : RawFrame) : f.checked.length = 5 + f.payload.length := by
  simp [RawFrame.checked, length_leBytes]; omega

/-- The length field of a header, wherever the bytes go on. -/
theorem lengthField (kind : Byte) (tag : BitVec 16) (len : Nat) (rest : List Byte) :
    ((kind :: leBytes 2 tag.toNat ++ leBytes 2 len ++ rest).drop 3).take 2 = leBytes 2 len := by
  simp [leBytes]

theorem checked_append (f : RawFrame) (rest : List Byte) : f.checked ++ rest
    = f.kind :: leBytes 2 f.tag.toNat ++ leBytes 2 f.payload.length ++ (f.payload ++ rest) := by
  simp [RawFrame.checked]

/-- A frame's bytes, with any check, are unfinished before the last of them. -/
theorem unfinished_of_prefix {f : RawFrame} (hf : f.payload.length ≤ 1024) {check got : List Byte} (hc : check.length = 2)
    (hp : got <+: f.checked ++ check) (hlt : got.length < (f.checked ++ check).length) : Unfinished got := by
  by_cases h5 : got.length < 5
  · exact unfinished_of_short h5
  · have hfield : (got.drop 3).take 2 = leBytes 2 f.payload.length := by
      obtain ⟨rest, hrest⟩ := hp
      rw [← lengthField f.kind f.tag f.payload.length (f.payload ++ check), ← checked_append, ← hrest,
        List.drop_append_of_le_length (by omega), List.take_append_of_le_length (by simp; omega)]
    have hlen : leNat ((got.drop 3).take 2) = f.payload.length := by rw [hfield, leNat_leBytes_two (by omega)]
    rw [List.length_append, length_checked, hc] at hlt
    unfold Unfinished rxGot
    rw [if_neg h5]
    dsimp only
    rw [hlen, if_neg (by omega), if_pos (by omega)]

/-- A frame's bytes with a check: the frame when the check is its own, else a bad frame. -/
theorem rxGot_checked {f : RawFrame} (hf : f.payload.length ≤ 1024) (c : BitVec 16) :
    rxGot (f.checked ++ leBytes 2 c.toNat)
      = (.hunting, some (if crc16 f.checked = c then .good f else .bad)) := by
  have hlen : leNat (((f.checked ++ leBytes 2 c.toNat).drop 3).take 2) = f.payload.length := by
    rw [checked_append, lengthField, leNat_leBytes_two (by omega)]
  have htag : BitVec.ofNat 16 (leNat (((f.checked ++ leBytes 2 c.toNat).drop 1).take 2)) = f.tag := by
    have : ((f.checked ++ leBytes 2 c.toNat).drop 1).take 2 = leBytes 2 f.tag.toNat := by rw [checked_append]; simp [leBytes]
    rw [this, leNat_leBytes_two f.tag.isLt, BitVec.ofNat_toNat, BitVec.setWidth_eq]
  have hkind : (f.checked ++ leBytes 2 c.toNat).getD 0 0 = f.kind := rfl
  have hpay : ((f.checked ++ leBytes 2 c.toNat).drop 5).take f.payload.length = f.payload := by
    rw [checked_append]; simp [leBytes]
  have hcov : (f.checked ++ leBytes 2 c.toNat).take (5 + f.payload.length) = f.checked := by
    rw [← length_checked, List.take_left]
  have hcheck : leNat (((f.checked ++ leBytes 2 c.toNat).drop (5 + f.payload.length)).take 2) = c.toNat := by
    rw [← length_checked, List.drop_left, List.take_of_length_le (by rw [length_leBytes]), leNat_leBytes_two c.isLt]
  have htotal : (f.checked ++ leBytes 2 c.toNat).length = 5 + f.payload.length + 2 := by
    rw [List.length_append, length_checked, length_leBytes]
  unfold rxGot
  dsimp only
  rw [if_neg (by omega), hlen, if_neg (by omega), if_neg (by omega), hcov, hcheck, htag, hkind, hpay]
  by_cases hc : crc16 f.checked = c
  · rw [if_pos (congrArg BitVec.toNat hc), if_pos hc]
  · rw [if_neg (fun h => hc (BitVec.eq_of_toNat_eq h)), if_neg hc]

/-- A header whose length is above 1,024 is a bad frame. -/
theorem rxGot_overlong (kind : Byte) (tag : BitVec 16) {len : Nat} (h : 1024 < len) (hl : len < 65536) :
    rxGot (kind :: leBytes 2 tag.toNat ++ leBytes 2 len) = (.hunting, some .bad) := by
  have hlen : leNat (((kind :: leBytes 2 tag.toNat ++ leBytes 2 len).drop 3).take 2) = len := by
    have := lengthField kind tag len []
    rw [List.append_nil] at this
    rw [this, leNat_leBytes_two hl]
  unfold rxGot
  dsimp only
  rw [if_neg (by simp [length_leBytes]), hlen, if_pos h]

/-- Settles O53: the frame as sent, a check of another value, a character broken off, and a length out of range. -/
theorem framesAreReceivedAsSent : Obligations.FramesAreReceivedAsSent := by
  intro f hf
  refine ⟨?_, fun c hc => ?_, fun pre rest hw hne => ?_, fun kind tag len hlo hhi => ?_⟩
  · refine rxRun_ends (fun got => unfinished_of_prefix hf (length_leBytes _ _)) ?_
    exact (rxGot_checked hf _).trans (by rw [if_pos rfl])
  · refine rxRun_ends (fun got => unfinished_of_prefix hf (length_leBytes _ _)) ?_
    exact (rxGot_checked hf c).trans (by rw [if_neg hc.symm])
  · rw [rxRun_marked fun got hg => unfinished_of_prefix hf (length_leBytes _ _) (hw ▸ hg.trans (List.prefix_append pre rest)) ?_]
    · rfl
    · have := List.length_pos_iff.2 hne
      have := hg.length_le
      rw [hw, List.length_append]; omega
  · refine rxRun_ends (fun got _ hlt => unfinished_of_short ?_) (rxGot_overlong kind tag hlo hhi)
    simpa [length_leBytes] using hlt

end Sys2Proof.Machine
end

