-- ==== Sys2Proof/Proofs/UntakenFrames.lean ====
section
/-! PROOF. Frames on a server link that its state does not take (O14). -/

namespace Sys2Proof.Machine

theorem linkUp_iff {s : State} {srv : Nat} : linkUp s srv = true ↔ (link s srv).state = .up := decide_eq_true_iff

theorem linkUp_eq_false_iff {s : State} {srv : Nat} : linkUp s srv = false ↔ (link s srv).state ≠ .up := decide_eq_false_iff_not

theorem linkUp_of_state {s : State} {srv : Nat} {st : LinkState} (h : (link s srv).state = st) (hst : st ≠ .up) :
    linkUp s srv = false := linkUp_eq_false_iff.2 (h ▸ hst)

theorem serverFrame_unreceived {srv : Nat} {f : State → State} {s : State} (h : serverReceives s srv = false) :
    serverFrame srv f s = s := by simp [serverFrame, h]

theorem serverFrame_discards {srv : Nat} {f : State → State} {s : State} (hr : serverReceives s srv = true)
    (h : s.lu.restart = .inProgress ∨ linkUp s srv = false) : serverFrame srv f s = frameArrived srv s := by
  unfold serverFrame
  rcases h with h | h
  · simp [hr, h]
  · simp [hr, h]

/-- What a command that brings a frame to a server link does: a frame that only an UP link takes, one that is not usable,
HELLO, or RESYNC. -/
theorem exec_of_arrivesOn {c : Instr} {srv : ServerId} {how : Option Reentry} (h : arrivesOn c = some (srv, how)) :
    (how = none ∧ ∃ f : State → State, ∀ s, exec c s = .next (serverFrame srv f s))
    ∨ (how = none ∧ ∃ kind tag len, c = .serverUnusableFrame srv kind tag len)
    ∨ (how = some .hello ∧ c = .hello srv) ∨ (how = some .resync ∧ c = .resync srv) := by
  cases c with
  | serverUnusableFrame _ kind tag len => cases h; exact .inr (.inl ⟨rfl, kind, tag, len, rfl⟩)
  | hello => cases h; exact .inr (.inr (.inl ⟨rfl, rfl⟩))
  | resync => cases h; exact .inr (.inr (.inr ⟨rfl, rfl⟩))
  | idleReceived | changes | denyAck | allowAck | snapDone | snapFail | dropSnapAck | copyDone | copyFail | shipDone | shipFail =>
    cases h; exact .inl ⟨rfl, _, fun _ => rfl⟩
  | _ => cases h

/-- A frame that arrives at a port that receives nothing has no effect. -/
theorem exec_frame_unreceived {c : Instr} {srv : ServerId} {how : Option Reentry} {s : State}
    (h : arrivesOn c = some (srv, how)) (hr : serverReceives s srv = false) : exec c s = .next s := by
  rcases exec_of_arrivesOn h with ⟨-, f, hf⟩ | ⟨-, kind, tag, len, rfl⟩ | ⟨-, rfl⟩ | ⟨-, rfl⟩
  · rw [hf, serverFrame_unreceived hr]
  · change Host.Outcome.next (unusable _ _ _ _ s) = _
    rw [unusable, serverFrame_unreceived hr, ite_self]
  · change Host.Outcome.next (helloArrives _ s) = _
    simp [helloArrives, hr]
  · change Host.Outcome.next (resyncArrives _ s) = _
    simp [resyncArrives, hr]

/-- A frame that its link's state does not take, or that comes during a warm restart, has arrived and nothing more. -/
theorem exec_frame_discarded {c : Instr} {srv : ServerId} {how : Option Reentry} {s : State}
    (h : arrivesOn c = some (srv, how)) (hr : serverReceives s srv = true)
    (hno : s.lu.restart = .inProgress ∨ (linkUp s srv = false ∧ how = none)
      ∨ ((link s srv).state = .faulted ∧ how = some .hello) ∨ (link s srv).state = .down) :
    exec c s = .next (frameArrived srv s)
    ∨ (exec c s = .next s ∧ ∃ kind tag len, c = .serverUnusableFrame srv kind tag len
      ∧ frameUnusable s srv kind.toNat tag.toNat len.toNat = false) := by
  have hup : how = none → s.lu.restart = .inProgress ∨ linkUp s srv = false := by
    rintro rfl
    rcases hno with h | h | h | h
    · exact .inl h
    · exact .inr h.1
    · cases h.2
    · exact .inr (linkUp_of_state h (by decide))
  rcases exec_of_arrivesOn h with ⟨hn, f, hf⟩ | ⟨hn, kind, tag, len, rfl⟩ | ⟨rfl, rfl⟩ | ⟨rfl, rfl⟩
  · exact .inl (by rw [hf, serverFrame_discards hr (hup hn)])
  · change Host.Outcome.next (unusable _ _ _ _ s) = _ ∨ Host.Outcome.next (unusable _ _ _ _ s) = _ ∧ _
    unfold unusable
    cases hu : frameUnusable s srv kind.toNat tag.toNat len.toNat with
    | true => exact .inl (by rw [if_pos rfl, serverFrame_discards hr (hup hn)])
    | false => exact .inr ⟨rfl, kind, tag, len, rfl, hu⟩
  · refine .inl (congrArg Host.Outcome.next ?_)
    rcases hno with hw | ⟨-, hnone⟩ | ⟨hst, -⟩ | hst
    · simp [helloArrives, hr, hw]
    · cases hnone
    · simp [helloArrives, hr, hst]
    · simp [helloArrives, hr, hst]
  · refine .inl (congrArg Host.Outcome.next ?_)
    rcases hno with hw | ⟨-, hnone⟩ | ⟨-, hhello⟩ | hst
    · simp [resyncArrives, hr, hw]
    · cases hnone
    · cases hhello
    · simp [resyncArrives, hr, hst]

/-- Settles O14: each frame has arrived and nothing more; bad characters move the receive side. -/
theorem untakenFramesAreDiscarded : Obligations.UntakenFramesAreDiscarded := by
  refine ⟨fun c srv how s harr => ⟨exec_frame_unreceived harr, fun hr hno => ?_⟩, fun srv chars s => ⟨fun hr => ?_, fun hr hbad hno => ?_⟩⟩
  · rcases exec_frame_discarded harr hr hno with he | ⟨he, hkind⟩
    · refine ⟨_, he, .inl ?_, fun j hj => link_setLink_ne s _ hj, setLink_unchanged _ _ s⟩
      rw [link_frameArrived_same]
      simp only [linkUp_iff]
    · exact ⟨_, he, .inr ⟨rfl, hkind⟩, fun _ _ => rfl, Unchanged.refl _ s⟩
  · change Host.Outcome.next (serverChars _ _ s) = _
    simp [serverChars, hr]
  · have he : exec (.serverBadFrame srv chars) s =
        .next (setLink srv { link s srv with rx := (rxRun (link s srv).rx chars).1 } s) := by
      change Host.Outcome.next (serverChars _ _ s) = _
      rcases hno with hw | hu
      · simp [serverChars, hr, any_eq_false_of_all_not hbad, hw]
      · simp [serverChars, hr, any_eq_false_of_all_not hbad, hu]
    exact ⟨_, he, link_setLink_same .., fun j hj => link_setLink_ne s _ hj, setLink_unchanged _ _ s⟩

end Sys2Proof.Machine
end

