-- ==== Sys2Proof/Proofs/LinkParts.lean ====
section
/-! SUPPORT. The VT's, the CIU's and the LU's parts of a link leaving UP and entering it: what every volume, intake and link is
afterwards (R18, R45, R46, R66, R67). -/

namespace Sys2Proof.Machine

/-! ### Tables that are sorted -/

theorem Tab.above_lt {α : Type} {t : Tab α} {b : Nat} (h : Tab.above (some b) t) : ∀ e ∈ t, b < e.1 := by
  induction t generalizing b with
  | nil => intro e he; cases he
  | cons x r ih =>
    obtain ⟨hx, hr⟩ := h
    have hb : b < x.1 := hx b rfl
    intro e he
    rcases List.mem_cons.1 he with rfl | he
    · exact hb
    · exact hb.trans (ih hr e he)

/-- In a sorted table the record at an index is the one listed. -/
theorem tget_eq_some_iff {α : Type} {t : Tab α} (h : tsorted t = true) {k : Nat} {v : α} : tget t k = some v ↔ (k, v) ∈ t := by
  refine ⟨mem_of_tget, fun hm => ?_⟩
  rw [tsorted_iff] at h
  induction t with
  | nil => cases hm
  | cons x r ih =>
    obtain ⟨-, hr⟩ := h
    rcases List.mem_cons.1 hm with rfl | hm
    · simp [tget]
    · have hne : x.1 ≠ k := fun e => absurd (Tab.above_lt hr _ hm) (by simp [e])
      simp only [tget, if_neg hne]
      refine ih ?_ hm
      exact Tab.above_mono r _ none hr (by simp)

/-! ### Volumes -/

/-- The volumes of a server in a state that is not UNATTACHED. -/
theorem mem_volumesOf {s : State} (hs : tsorted s.vt = true) {srv v : Nat} {st : VolState} (hst : st ≠ .unattached) :
    v ∈ volumesOf s srv st ↔ (volume s v).server = srv ∧ (volume s v).state = st := by
  simp only [volumesOf, List.mem_map, List.mem_filter, Bool.and_eq_true, decide_eq_true_eq, volume, tgetD]
  constructor
  · rintro ⟨⟨k, x⟩, ⟨hm, hsrv, hstate⟩, rfl⟩
    rw [(tget_eq_some_iff hs).2 hm]
    exact ⟨hsrv, hstate⟩
  · cases hget : tget s.vt v with
    | none => rintro ⟨-, h⟩; exact absurd h.symm hst
    | some x => rintro ⟨hsrv, hstate⟩; exact ⟨(v, x), ⟨mem_of_tget hget, hsrv, hstate⟩, rfl⟩

theorem volume_volumeTo (s : State) (v j : Nat) (st : VolState) :
    volume (volumeTo v st s) j = if v = j then { volume s j with state := st } else volume s j := by
  rw [volumeTo, volume_setVolume]
  split
  · rename_i h; subst h; rfl
  · rfl

theorem volume_notify (sub : NoticeSubject) (c : Content) (s : State) (v : Nat) : volume (notify sub c s) v = volume s v := by
  unfold volume notify raise
  rw [pump_vt]

/-- A move of one volume after another to a state, whatever is raised on the way. -/
theorem volume_foldl_volumeTo {f : State → Nat → State} {st : VolState}
    (hf : ∀ s v j, volume (f s v) j = if v = j then { volume s j with state := st } else volume s j) (l : List Nat) (s : State)
    (j : Nat) : volume (l.foldl f s) j = if j ∈ l then { volume s j with state := st } else volume s j := by
  induction l generalizing s with
  | nil => simp
  | cons v r ih =>
    rw [List.foldl_cons, ih, hf]
    by_cases hv : v = j
    · by_cases hr : j ∈ r <;> simp [hv, hr]
    · simp [hv, Ne.symm hv]

theorem volume_volumeStale (q : Bool) (s : State) (v j : Nat) :
    volume (volumeStale q s v) j = if v = j then { volume s j with state := .stale } else volume s j := by
  unfold volumeStale
  dsimp only
  split
  · exact volume_volumeTo s v j .stale
  · exact (volume_notify _ _ _ j).trans (volume_volumeTo s v j .stale)

theorem volume_volumeBack (s : State) (v j : Nat) :
    volume (volumeBack s v) j = if v = j then { volume s j with state := .attached } else volume s j :=
  (volume_notify _ _ _ j).trans (volume_volumeTo s v j .attached)

/-- A link leaving UP: every ATTACHED volume of its server is STALE, and no other volume has moved (R45). -/
theorem volume_volumesLeave {s : State} (hs : tsorted s.vt = true) (srv : Nat) (q : Bool) (v : Nat) :
    volume (volumesLeave srv q s) v = if (volume s v).server = srv ∧ (volume s v).state = .attached
      then { volume s v with state := .stale } else volume s v := by
  rw [volumesLeave, volume_foldl_volumeTo (volume_volumeStale q)]
  simp only [mem_volumesOf hs (st := .attached) (by decide)]

/-- A link entering UP: every STALE volume of its server is ATTACHED, and no other volume has moved (R46). -/
theorem volume_volumesEnter {s : State} (hs : tsorted s.vt = true) (srv v : Nat) :
    volume (volumesEnter srv s) v = if (volume s v).server = srv ∧ (volume s v).state = .stale
      then { volume s v with state := .attached } else volume s v := by
  rw [volumesEnter, volume_foldl_volumeTo volume_volumeBack]
  simp only [mem_volumesOf hs (st := .stale) (by decide)]

theorem sorted_foldl {f : State → Nat → State} (hf : ∀ s v, tsorted s.vt = true → tsorted (f s v).vt = true) (l : List Nat)
    {s : State} (h : tsorted s.vt = true) : tsorted (l.foldl f s).vt = true := by
  induction l generalizing s with
  | nil => exact h
  | cons v r ih => exact ih (hf s v h)

theorem volumeTo_sorted (v : Nat) (st : VolState) (s : State) (h : tsorted s.vt = true) :
    tsorted (volumeTo v st s).vt = true := tsorted_tsetD _ _ _ _ h

theorem notify_sorted (sub : NoticeSubject) (c : Content) (s : State) (h : tsorted s.vt = true) :
    tsorted (notify sub c s).vt = true := by rw [notify, raise, pump_vt]; exact h

theorem volumesLeave_sorted (srv : Nat) (q : Bool) {s : State} (h : tsorted s.vt = true) :
    tsorted (volumesLeave srv q s).vt = true := by
  refine sorted_foldl (fun s v h => ?_) _ h
  unfold volumeStale
  dsimp only
  split
  · exact volumeTo_sorted _ _ s h
  · exact notify_sorted _ _ _ (volumeTo_sorted _ _ s h)

theorem volumesEnter_sorted (srv : Nat) {s : State} (h : tsorted s.vt = true) : tsorted (volumesEnter srv s).vt = true :=
  sorted_foldl (fun s _ h => notify_sorted _ _ _ (volumeTo_sorted _ _ s h)) _ h

theorem volumesLeave_links (srv : Nat) (q : Bool) (s : State) : (volumesLeave srv q s).lu.links = s.lu.links :=
  (volumesLeave_frame srv q s).same .links (by decide)

theorem volumesLeave_ciu (srv : Nat) (q : Bool) (s : State) : (volumesLeave srv q s).ciu = s.ciu :=
  (volumesLeave_frame srv q s).same .intakes (by decide)

theorem volumesEnter_ciu (srv : Nat) (s : State) : (volumesEnter srv s).ciu = s.ciu :=
  (volumesEnter_frame srv s).same .intakes (by decide)

/-! ### Leaving -/

/-- A link's own fields when it has left UP, before orders are failed back (R13, R18). -/
def Link.left (l : Link) (to_ : LinkState) (why : LinkReason) (time : Nat) : Link :=
  { l with state := to_, reason := why, changed := time, txQueue := [], orders := [] }

/-- An intake when its server's link has left UP (R66). -/
def Intake.left (i : Intake) : Intake :=
  if i.queue = [] then { i with draining := false, unack := 0, verdicts := [] } else { i with draining := true, verdicts := [] }

/-- An intake when a warm restart has emptied it (R68). -/
def Intake.restarted (i : Intake) : Intake :=
  { i with queue := [], draining := false, unack := 0, verdicts := [], next := (oldestNew i.queue).getD i.next }

theorem link_emptied (srv : Nat) (a : LinkState) (w : LinkReason) (s : State) (j : Nat) :
    link (changeLink srv a w (emptyLink srv s)) j = if srv = j then (link s j).left a w (now s) else link s j := by
  rw [changeLink, link_setLink]
  split
  · rename_i h
    subst h
    rw [emptyLink, link_setLink_same]
    rfl
  · rename_i h
    rw [emptyLink, link_setLink_ne s _ (Ne.symm h)]

theorem leaveParting_links (srv : Nat) (a : LinkState) (w : LinkReason) (q : Bool) (s : State) :
    (leaveParting srv a w q s).lu.links = (changeLink srv a w (emptyLink srv s)).lu.links := by
  rw [← volumesLeave_links srv q (changeLink srv a w (emptyLink srv s))]
  unfold leaveParting intakeLeave
  dsimp only
  split
  · rfl
  · split <;> rfl

theorem link_leaveParting (srv : Nat) (a : LinkState) (w : LinkReason) (q : Bool) (s : State) (j : Nat) :
    link (leaveParting srv a w q s) j = if srv = j then (link s j).left a w (now s) else link s j := by
  rw [← link_emptied]
  unfold link
  rw [leaveParting_links]

theorem leaveParting_vt (srv : Nat) (a : LinkState) (w : LinkReason) (q : Bool) (s : State) :
    (leaveParting srv a w q s).vt = (volumesLeave srv q (changeLink srv a w (emptyLink srv s))).vt := by
  unfold leaveParting intakeLeave
  dsimp only
  split
  · rfl
  · split <;> rfl

theorem leaveParting_sorted (srv : Nat) (a : LinkState) (w : LinkReason) (q : Bool) {s : State} (h : tsorted s.vt = true) :
    tsorted (leaveParting srv a w q s).vt = true := by
  rw [leaveParting_vt]; exact volumesLeave_sorted srv q h

theorem volume_leaveParting {s : State} (hs : tsorted s.vt = true) (srv : Nat) (a : LinkState) (w : LinkReason) (q : Bool)
    (v : Nat) : volume (leaveParting srv a w q s) v = if (volume s v).server = srv ∧ (volume s v).state = .attached
      then { volume s v with state := .stale } else volume s v := by
  have h := volume_volumesLeave (s := changeLink srv a w (emptyLink srv s)) hs srv q v
  unfold volume at h ⊢
  rw [leaveParting_vt]
  exact h

theorem intake_leaveParting (srv : Nat) (a : LinkState) (w : LinkReason) (q : Bool) (s : State) (j : Nat) :
    intake (leaveParting srv a w q s) j
      = if srv = j then (if q then (intake s j).restarted else (intake s j).left) else intake s j := by
  have h (k : Nat) : intake (resetCredits srv (volumesLeave srv q (changeLink srv a w (emptyLink srv s)))) k = intake s k := by
    unfold intake
    exact congrArg (fun t => tgetD Intake.cold t k) (volumesLeave_ciu srv q _)
  unfold leaveParting
  dsimp only
  split
  · rw [intakeRestart, intake_setIntake, h, h]
    split
    · rename_i hj; subst hj; rfl
    · rfl
  · rw [intakeLeave, h]
    unfold Intake.left
    split
    · rw [intake_setIntake, h]
      split
      · rename_i hq hj; subst hj; rw [if_pos hq]
      · rfl
    · rw [intake_setIntake, h]
      split
      · rename_i hq hj; subst hj; rw [if_neg hq]
      · rfl

/-! ### Entering -/

/-- A link's own fields when it has entered UP, before anything is handed to it (R14). -/
def Link.entered (l : Link) (how : Reentry) (time : Nat) : Link :=
  { l with state := .up, reason := reentryReason how, changed := time, silence := 0, txQueue := [.resyncAck 64], held := none }

/-- An intake when its server's link has entered UP (R67). -/
def Intake.entered (i : Intake) (how : Reentry) : Intake :=
  { i with unack := 0, verdicts := [], next := if how = .hello then 0 else i.next }

theorem link_enterParting_eq (srv : Nat) (how : Reentry) (old : LinkState) (s : State) (j : Nat) :
    link (enterParting srv how old s) j = if srv = j then (link s j).entered how (now s) else link s j := by
  rw [link_enterParting, luEnter, link_setLink]
  split
  · rename_i h; subst h; rfl
  · rfl

/-- The state in which the VT's part of an entry is made. -/
def entering (srv : Nat) (how : Reentry) (old : LinkState) (s : State) : State :=
  intakeEnter srv how (notifyLink srv old .up (reentryReason how) (luEnter srv how s))

theorem enterParting_eq (srv : Nat) (how : Reentry) (old : LinkState) (s : State) :
    enterParting srv how old s = volumesEnter srv (entering srv how old s) := rfl

theorem entering_vt (srv : Nat) (how : Reentry) (old : LinkState) (s : State) : (entering srv how old s).vt = s.vt := pump_vt _

theorem enterParting_sorted (srv : Nat) (how : Reentry) (old : LinkState) {s : State} (h : tsorted s.vt = true) :
    tsorted (enterParting srv how old s).vt = true :=
  volumesEnter_sorted srv ((congrArg tsorted (entering_vt srv how old s)).trans h)

theorem volume_enterParting {s : State} (hs : tsorted s.vt = true) (srv : Nat) (how : Reentry) (old : LinkState) (v : Nat) :
    volume (enterParting srv how old s) v = if (volume s v).server = srv ∧ (volume s v).state = .stale
      then { volume s v with state := .attached } else volume s v := by
  have h := volume_volumesEnter (s := entering srv how old s) (by rw [entering_vt]; exact hs) srv v
  have hv : ∀ j, volume (entering srv how old s) j = volume s j := fun j => by unfold volume; rw [entering_vt]
  rw [enterParting_eq, h, hv]

theorem intake_enterParting (srv : Nat) (how : Reentry) (old : LinkState) (s : State) (j : Nat) :
    intake (enterParting srv how old s) j = if srv = j then (intake s j).entered how else intake s j := by
  have hi : ∀ k, intake (notifyLink srv old .up (reentryReason how) (luEnter srv how s)) k = intake s k := fun k => by
    unfold intake notifyLink notify raise
    rw [pump_ciu]
    rfl
  have : intake (enterParting srv how old s) j = intake (entering srv how old s) j := by
    unfold intake
    rw [enterParting_eq, volumesEnter_ciu]
  rw [this, entering, intakeEnter, intake_setIntake, hi, hi]
  split
  · rename_i h; subst h; rfl
  · rfl

end Sys2Proof.Machine
end

