-- ==== Sys2Proof/Proofs/LinksKept.lean ====
section
/-! PROOF. Every step keeps what a link's state says of its orders, volumes and intake (O60). The blocks' work keeps it as such;
what remains are the links' own moves, the intakes and the volume requests. -/

namespace Sys2Proof.Machine

/-- LinkInv with the volume table in its canonical form, which the moves of volumes rest on. -/
structure Linked (s : State) : Prop where
  sorted : tsorted s.vt = true
  inv : LinkInv s

/-! ### The work of the blocks -/

theorem LinkInv.of_same {s t : State} (h : LinkInv s) (hl : t.lu.links = s.lu.links) (hv : t.vt = s.vt) (hi : t.ciu = s.ciu) :
    LinkInv t := by
  have hlink : ∀ j, link t j = link s j := fun j => by unfold link; rw [hl]
  have hup : ∀ j, linkUp t j = linkUp s j := fun j => by unfold linkUp; rw [hlink]
  have hvol : ∀ v, volume t v = volume s v := fun v => by unfold volume; rw [hv]
  have hint : ∀ j, intake t j = intake s j := fun j => by unfold intake; rw [hi]
  constructor <;> intro j <;> simp only [hlink, hup, hvol, hint]
  · exact h.quiet j
  · exact h.volumes j
  · exact h.nightly j
  · exact h.records j
  · exact h.drained j
  · exact h.held j

theorem Linked.of_same {s t : State} (h : Linked s) (hl : t.lu.links = s.lu.links) (hv : t.vt = s.vt) (hi : t.ciu = s.ciu) :
    Linked t := ⟨by rw [hv]; exact h.sorted, h.inv.of_same hl hv hi⟩

/-- A server whose link is not UP is handed nothing. -/
theorem LinkInv.quietServer {s : State} (h : LinkInv s) {j : Nat} (hu : linkUp s j = false) : QuietServer j s :=
  ⟨hu, fun v hv ha => by
    have := (h.volumes v (by rw [ha]; decide)).1 ha
    rw [hv, hu] at this
    cases this⟩

/-- The blocks' work keeps the links. -/
theorem Work.linked {s t : State} (hw : Work s t) (h : Linked s) : Linked t where
  sorted := hw.sorted h.sorted
  inv :=
    { quiet := fun j hu => by
        rw [hw.linkUp] at hu
        rw [hw.quiet j (h.inv.quietServer hu)]
        exact h.inv.quiet j hu
      volumes := fun v => by
        rw [(hw.volumes v).state, (hw.volumes v).server, hw.linkUp]
        exact h.inv.volumes v
      nightly := fun v => by rw [(hw.volumes v).nightly, (hw.volumes v).state]; exact h.inv.nightly v
      records := fun j => by unfold intake; rw [hw.intakes, hw.linkUp]; exact h.inv.records j
      drained := fun j => by unfold intake; rw [hw.intakes]; exact h.inv.drained j
      held := fun j => by rw [(hw.links j).held, (hw.links j).state]; exact h.inv.held j }

/-! ### A link, an intake or a volume written -/

theorem linkUp_setLink_of_iff {s : State} {srv : Nat} {l : Link} (hstate : l.state = .up ↔ (link s srv).state = .up) (j : Nat) :
    linkUp (setLink srv l s) j = linkUp s j := by
  unfold linkUp
  rw [link_setLink]
  split
  · rename_i h; subst h; exact decide_eq_decide.2 hstate
  · rfl

/-- A link's record is written, and it is UP when it was. -/
theorem Linked.setLink {s : State} (h : Linked s) {srv : Nat} {l : Link} (hstate : l.state = .up ↔ (link s srv).state = .up)
    (hquiet : l.state ≠ .up → l.orders = [] ∧ l.txQueue = []) (hheld : l.held ≠ none → l.state = .syncing) :
    Linked (setLink srv l s) where
  sorted := h.sorted
  inv :=
    { quiet := fun j hu => by
        rw [link_setLink]
        split
        · rename_i hj
          subst hj
          refine hquiet fun he => ?_
          rw [linkUp_setLink_of_iff hstate, linkUp_iff.2 (hstate.1 he)] at hu
          cases hu
        · rw [linkUp_setLink_of_iff hstate] at hu
          exact h.inv.quiet j hu
      volumes := fun v => by rw [linkUp_setLink_of_iff hstate]; exact h.inv.volumes v
      nightly := h.inv.nightly
      records := fun j => by rw [linkUp_setLink_of_iff hstate]; exact h.inv.records j
      drained := h.inv.drained
      held := fun j => by
        rw [link_setLink]
        split
        · exact hheld
        · exact h.inv.held j }

/-- A link's record is written without its state, its orders, what it sends and what is held. -/
theorem Linked.setLink_same {s : State} (h : Linked s) {srv : Nat} {l : Link} (hstate : l.state = (link s srv).state)
    (horders : l.orders = (link s srv).orders) (htx : l.txQueue = (link s srv).txQueue) (hheld : l.held = (link s srv).held) :
    Linked (Machine.setLink srv l s) :=
  h.setLink (by rw [hstate]) (fun hn => by
    rw [horders, htx]
    exact h.inv.quiet srv (linkUp_eq_false_iff.2 (hstate ▸ hn)))
    (by rw [hheld, hstate]; exact h.inv.held srv)

theorem Linked.held_none {s : State} (h : Linked s) {srv : Nat} (hs : (link s srv).state ≠ .syncing) : (link s srv).held = none := by
  by_contra hne
  exact hs (h.inv.held srv hne)

/-- An UP link's record is written, and it stays UP. -/
theorem Linked.setLink_up {s : State} (h : Linked s) {srv : Nat} {l : Link} (hu : linkUp s srv = true) (hstate : l.state = .up)
    (hheld : l.held = (link s srv).held) : Linked (Machine.setLink srv l s) := by
  have hup := linkUp_iff.1 hu
  refine h.setLink (by rw [hstate, hup]) (fun hn => absurd hstate hn) fun hne => absurd ?_ hne
  rw [hheld]
  exact h.held_none (by rw [hup]; decide)

theorem Linked.handFrame {s : State} (h : Linked s) {srv : Nat} (f : TxFrame) (hu : linkUp s srv = true) :
    Linked (handFrame srv f s) := h.setLink_up hu (linkUp_iff.1 hu) rfl

theorem Linked.hold {s : State} (h : Linked s) {srv : Nat} (how : Reentry) (hs : (link s srv).state = .syncing) :
    Linked (Machine.setLink srv { link s srv with held := some how } s) :=
  h.setLink Iff.rfl (fun _ => h.inv.quiet srv (linkUp_of_state hs (by decide))) fun _ => hs

theorem Linked.release {s : State} (h : Linked s) (srv : Nat) :
    Linked (Machine.setLink srv { link s srv with held := none } s) :=
  h.setLink Iff.rfl (fun hn => h.inv.quiet srv (linkUp_eq_false_iff.2 hn)) fun hne => absurd rfl hne

theorem Linked.hunt {s : State} (h : Linked s) (srv : Nat) : Linked (huntServer srv s) := h.setLink_same rfl rfl rfl rfl

theorem Linked.setIntake {s : State} (h : Linked s) {srv : Nat} {i : Intake}
    (hrec : i.queue ≠ [] → (i.draining = true ↔ linkUp s srv = false)) (hdr : i.queue = [] → i.draining = false) :
    Linked (setIntake srv i s) where
  sorted := h.sorted
  inv :=
    { quiet := h.inv.quiet
      volumes := h.inv.volumes
      nightly := h.inv.nightly
      records := fun j => by
        rw [intake_setIntake]
        split
        · rename_i hj; subst hj; exact hrec
        · exact h.inv.records j
      drained := fun j => by
        rw [intake_setIntake]
        split
        · exact hdr
        · exact h.inv.drained j
      held := h.inv.held }

/-- One volume has moved, and is what its server's link says. -/
theorem LinkInv.moveVolume {s t : State} (h : LinkInv s) {v : Nat} (hl : t.lu.links = s.lu.links) (hi : t.ciu = s.ciu)
    (hothers : ∀ j, j ≠ v → volume t j = volume s j)
    (hstate : (volume t v).state ≠ .unattached → ((volume t v).state = .attached ↔ linkUp s (volume t v).server = true))
    (hnight : (volume t v).nightly = true → (volume t v).state ≠ .unattached) : LinkInv t := by
  have hlink : ∀ j, link t j = link s j := fun j => by unfold link; rw [hl]
  have hup : ∀ j, linkUp t j = linkUp s j := fun j => by unfold linkUp; rw [hlink]
  have hint : ∀ j, intake t j = intake s j := fun j => by unfold intake; rw [hi]
  exact
    { quiet := fun j => by rw [hup, hlink]; exact h.quiet j
      volumes := fun j => by
        rw [hup]
        by_cases hj : j = v
        · subst hj; exact hstate
        · rw [hothers j hj]; exact h.volumes j
      nightly := fun j => by
        by_cases hj : j = v
        · subst hj; exact hnight
        · rw [hothers j hj]; exact h.nightly j
      records := fun j => by rw [hup, hint]; exact h.records j
      drained := fun j => by rw [hint]; exact h.drained j
      held := fun j => by rw [hlink]; exact h.held j }

/-! ### Leaving UP -/

theorem Intake.left_records (i : Intake) : (i.left.queue ≠ [] → i.left.draining = true) ∧ (i.left.queue = [] → i.left.draining = false) := by
  unfold Intake.left
  split
  · exact ⟨fun h => absurd ‹_› h, fun _ => rfl⟩
  · exact ⟨fun _ => rfl, fun h => absurd h ‹_›⟩

theorem linkUp_leaveParting (srv : Nat) {a : LinkState} (w : LinkReason) (q : Bool) (s : State) (ha : a ≠ .up) (j : Nat) :
    linkUp (leaveParting srv a w q s) j = (decide (j ≠ srv) && linkUp s j) := by
  unfold linkUp
  rw [link_leaveParting]
  by_cases hj : srv = j
  · subst hj; simp [Link.left, ha]
  · simp [hj, Ne.symm hj]

/-- The parts of a leaving that are its own keep the links, for the link has nothing left and nothing of it is ATTACHED. -/
theorem leaveParting_linked {s : State} (h : Linked s) {srv : Nat} (hu : linkUp s srv = true) {a : LinkState} (w : LinkReason)
    (q : Bool) (ha : a ≠ .up) : Linked (leaveParting srv a w q s) where
  sorted := leaveParting_sorted srv a w q h.sorted
  inv :=
    { quiet := fun j hj => by
        rw [linkUp_leaveParting srv w q s ha] at hj
        rw [link_leaveParting]
        split
        · exact ⟨rfl, rfl⟩
        · rename_i hne
          exact h.inv.quiet j (by simpa [Ne.symm hne] using hj)
      volumes := fun v => by
        rw [linkUp_leaveParting srv w q s ha, volume_leaveParting h.sorted]
        split
        · rename_i hv; simp [hv.1]
        · rename_i hv
          intro hn
          rw [h.inv.volumes v hn]
          by_cases hs : (volume s v).server = srv
          · have := mt (h.inv.volumes v hn).2 fun ha => hv ⟨hs, ha⟩
            rw [hs] at this ⊢
            simp [this]
          · simp [hs]
      nightly := fun v => by
        rw [volume_leaveParting h.sorted]
        split
        · intro _; simp
        · exact h.inv.nightly v
      records := fun j => by
        rw [linkUp_leaveParting srv w q s ha, intake_leaveParting]
        split
        · rename_i hj
          subst hj
          split
          · intro hn; exact absurd rfl hn
          · intro hn; simp [(Intake.left_records _).1 hn]
        · rename_i hj
          simpa [Ne.symm hj] using h.inv.records j
      drained := fun j => by
        rw [intake_leaveParting]
        split
        · split
          · exact fun _ => rfl
          · exact (Intake.left_records _).2
        · exact h.inv.drained j
      held := fun j => by
        rw [link_leaveParting]
        split
        · rename_i hj
          subst hj
          have : (link s srv).held = none := h.held_none (by rw [linkUp_iff.1 hu]; decide)
          exact fun hne => absurd this hne
        · exact h.inv.held j }

theorem leaveUp_linked {s : State} (h : Linked s) {srv : Nat} (hu : linkUp s srv = true) {a : LinkState} (w : LinkReason)
    (q : Bool) (ha : a ≠ .up) : Linked (leaveUp srv a w q s) :=
  (leaveRest_work srv q _ _).linked (leaveParting_linked h hu w q ha)

/-- The link's own state after it has left UP. -/
theorem leaveUp_state (srv : Nat) (a : LinkState) (w : LinkReason) (q : Bool) (s : State) :
    (link (leaveUp srv a w q s) srv).state = a := by
  rw [leaveUp_eq, ((leaveRest_work srv q _ _).links srv).state, link_leaveParting, if_pos rfl]
  rfl

theorem dropLink_linked {s : State} (h : Linked s) {srv : Nat} (hu : linkUp s srv = true) {a : LinkState} (w : LinkReason)
    (ha : a ≠ .up) : Linked (dropLink srv a w s) :=
  (afterLeave_work _).linked ((notifyLink_work _ _ _ _ _).linked (leaveUp_linked h hu w false ha))

theorem protocolFault_linked {s : State} (h : Linked s) {srv : Nat} (hu : linkUp s srv = true) : Linked (protocolFault srv s) :=
  dropLink_linked h hu _ (by decide)

/-! ### Entering UP -/

theorem linkUp_enterParting (srv : Nat) (how : Reentry) (old : LinkState) (s : State) (j : Nat) :
    linkUp (enterParting srv how old s) j = (decide (j = srv) || linkUp s j) := by
  unfold linkUp
  rw [link_enterParting_eq]
  by_cases hj : srv = j
  · subst hj; simp [Link.entered]
  · simp [hj, Ne.symm hj]

/-- The parts of an entry that are its own keep the links, once the intake has drained. -/
theorem enterParting_linked {s : State} (h : Linked s) {srv : Nat} (hu : linkUp s srv = false)
    (hd : (intake s srv).draining = false) (how : Reentry) (old : LinkState) : Linked (enterParting srv how old s) where
  sorted := enterParting_sorted srv how old h.sorted
  inv :=
    { quiet := fun j hj => by
        rw [linkUp_enterParting] at hj
        obtain ⟨hne, hj⟩ := Bool.or_eq_false_iff.1 hj
        rw [link_enterParting_eq, if_neg (Ne.symm (of_decide_eq_false hne))]
        exact h.inv.quiet j hj
      volumes := fun v => by
        rw [linkUp_enterParting, volume_enterParting h.sorted]
        split
        · rename_i hv; simp [hv.1]
        · rename_i hv
          intro hn
          rw [h.inv.volumes v hn]
          by_cases hs : (volume s v).server = srv
          · exfalso
            have hna := (not_congr (h.inv.volumes v hn)).2 (by rw [hs, hu]; decide)
            cases hst : (volume s v).state with
            | unattached => exact hn hst
            | attached => exact hna hst
            | stale => exact hv ⟨hs, hst⟩
          · simp [hs]
      nightly := fun v => by
        rw [volume_enterParting h.sorted]
        split
        · intro _; simp
        · exact h.inv.nightly v
      records := fun j => by
        rw [linkUp_enterParting, intake_enterParting]
        split
        · rename_i hj
          subst hj
          intro hn
          exact absurd ((h.inv.records srv hn).2 hu) (by rw [hd]; decide)
        · rename_i hj
          simpa [Ne.symm hj] using h.inv.records j
      drained := fun j => by
        rw [intake_enterParting]
        split
        · exact h.inv.drained j
        · exact h.inv.drained j
      held := fun j => by
        rw [link_enterParting_eq]
        split
        · exact fun hne => absurd rfl hne
        · exact h.inv.held j }

theorem enterUp_linked {s : State} (h : Linked s) {srv : Nat} (hu : linkUp s srv = false)
    (hd : (intake s srv).draining = false) (how : Reentry) (old : LinkState) : Linked (enterUp srv how old s) :=
  (enterUp_rest_work srv how old s).linked (enterParting_linked h hu hd how old)

theorem enterFrom_linked {s : State} (h : Linked s) {srv : Nat} (hu : linkUp s srv = false) (how : Reentry) :
    Linked (enterFrom srv how s) := by
  unfold enterFrom
  dsimp only
  split
  · exact h
  · rename_i hno
    exact enterUp_linked h hu (by simpa using fun hd => hno (.inl hd)) how _

/-- A link re-entering UP stands in SYNCING between. -/
theorem afterLeave_syncing (srv : Nat) (w : LinkReason) (s : State) :
    (link (afterLeave (leaveUp srv .syncing w false s)) srv).state = .syncing := by
  rw [((afterLeave_work _).links srv).state, leaveUp_state]

theorem reenterFromUp_linked {s : State} (h : Linked s) {srv : Nat} (hu : linkUp s srv = true) (how : Reentry) :
    Linked (reenterFromUp srv how s) := by
  have hl : Linked (afterLeave (leaveUp srv .syncing (reentryReason how) false s)) :=
    (afterLeave_work _).linked (leaveUp_linked h hu _ false (by decide))
  have hst := afterLeave_syncing srv (reentryReason how) s
  have hdown := linkUp_of_state hst (by decide)
  unfold reenterFromUp
  dsimp only
  split
  · exact hl.hold how hst
  · rename_i hd
    exact enterUp_linked hl hdown (by simpa using hd) how _

/-! ### Frames that arrive -/

theorem frameArrived_linked {s : State} (h : Linked s) (srv : Nat) : Linked (frameArrived srv s) :=
  h.setLink_same rfl rfl rfl rfl

theorem linkUp_frameArrived (s : State) (srv j : Nat) : linkUp (frameArrived srv s) j = linkUp s j :=
  linkUp_setLink_of_iff (by rfl) j

theorem serverFrame_linked {s : State} (h : Linked s) {srv : Nat} {f : State → State}
    (hf : ∀ s, Linked s → linkUp s srv = true → Linked (f s)) : Linked (serverFrame srv f s) := by
  have ha := frameArrived_linked h srv
  unfold serverFrame
  split
  · exact h
  · dsimp only
    split
    · exact ha
    · split
      · exact hf _ ha (by rw [linkUp_frameArrived]; assumption)
      · exact ha

theorem completion_linked {s : State} (h : Linked s) {srv num : Nat} {k : OrderKind} {f : State → State}
    (hu : linkUp s srv = true) (hf : ∀ s, linkUp s srv = true → Work s (f s)) : Linked (completion srv num k f s) := by
  unfold completion
  split
  · exact h
  · split
    · exact (hf _ ((linkUp_setLink_of_iff (by rfl) srv).trans hu)).linked (h.setLink_up hu (linkUp_iff.1 hu) rfl)
    · exact protocolFault_linked h hu

theorem completionFrame_linked {s : State} (h : Linked s) {srv num : Nat} {k : OrderKind} {f : State → State}
    (hf : ∀ s, linkUp s srv = true → Work s (f s)) : Linked (serverFrame srv (completion srv num k f) s) :=
  serverFrame_linked h fun _ h hu => completion_linked h hu hf

theorem helloArrives_linked {s : State} (h : Linked s) (srv : Nat) : Linked (helloArrives srv s) := by
  have ha := frameArrived_linked h srv
  unfold helloArrives
  split
  · exact h
  · dsimp only
    split
    · exact ha
    · split
      · rename_i hst; exact reenterFromUp_linked ha (by rw [linkUp_frameArrived]; exact linkUp_iff.2 hst) _
      · rename_i hst; exact enterFrom_linked ha (by rw [linkUp_frameArrived]; exact linkUp_of_state hst (by decide)) _
      · exact ha
      · exact ha

theorem resyncArrives_linked {s : State} (h : Linked s) (srv : Nat) : Linked (resyncArrives srv s) := by
  have ha := frameArrived_linked h srv
  unfold resyncArrives
  split
  · exact h
  · dsimp only
    split
    · exact ha
    · split
      · rename_i hst; exact reenterFromUp_linked ha (by rw [linkUp_frameArrived]; exact linkUp_iff.2 hst) _
      · rename_i hst; exact enterFrom_linked ha (by rw [linkUp_frameArrived]; exact linkUp_of_state hst (by decide)) _
      · rename_i hst; exact enterFrom_linked ha (by rw [linkUp_frameArrived]; exact linkUp_of_state hst (by decide)) _
      · exact ha

theorem reEnter_linked {s : State} (h : Linked s) (srv : Nat) : Linked (reEnter srv s) := by
  unfold reEnter
  split
  · exact h
  · split
    · rename_i hc; exact enterUp_linked h (linkUp_of_state hc.1 (by decide)) hc.2 _ _
    · exact h

theorem unusable_linked {s : State} (h : Linked s) (srv kind num len : Nat) : Linked (unusable srv kind num len s) := by
  unfold unusable
  split
  · exact serverFrame_linked h fun _ h hu => protocolFault_linked h hu
  · exact h

theorem serverChars_linked {s : State} (h : Linked s) (srv : Nat) (chars : List RxChar) : Linked (serverChars srv chars s) := by
  have hrx (r : Rx) : Linked (setLink srv { link s srv with rx := r } s) := h.setLink_same rfl rfl rfl rfl
  unfold serverChars
  split
  · dsimp only
    split
    · exact h
    · split
      · rename_i hc
        refine protocolFault_linked (hrx _) ((linkUp_setLink_of_iff (by rfl) srv).trans ?_)
        simp only [Bool.and_eq_true] at hc
        exact hc.1.2
      · exact hrx _
  · exact h

theorem serverSent_linked {s : State} (h : Linked s) (srv : Nat) : Linked (serverSent srv s) := by
  unfold serverSent
  split
  · exact h
  · rename_i hq
    by_cases hu : linkUp s srv = true
    · exact h.setLink_up hu (linkUp_iff.1 hu) rfl
    · rw [(h.inv.quiet srv (by simpa using hu)).2] at hq
      cases hq

/-! ### Carriers and reset -/

theorem moveLink_linked {s : State} (h : Linked s) {srv : Nat} {a : LinkState} (w : LinkReason)
    (hs : (link s srv).state ≠ .up) (ha : a ≠ .up) (hheld : (link s srv).held = none) : Linked (moveLink srv a w s) :=
  (notifyLink_work _ _ _ _ _).linked (h.setLink ⟨fun e => absurd e ha, fun e => absurd e hs⟩
    (fun _ => h.inv.quiet srv (linkUp_eq_false_iff.2 hs)) fun hne => absurd hheld hne)

theorem linkGains_linked {s : State} (h : Linked s) (srv : Nat) : Linked (linkGains srv s) := by
  unfold linkGains
  split
  · rename_i hst
    exact moveLink_linked h _ (by rw [hst]; decide) (by decide) (h.held_none (by rw [hst]; decide))
  · exact h

theorem linkLoses_linked {s : State} (h : Linked s) (srv : Nat) : Linked (linkLoses srv s) := by
  have hfall (hs : (link s srv).state ≠ .up) :
      Linked (moveLink srv .down .carrierLost (setLink srv { link s srv with held := none } s)) := by
    refine moveLink_linked (h.release srv) _ ?_ (by decide) ?_
    · rw [link_setLink_same]; exact hs
    · rw [link_setLink_same]
  unfold linkLoses
  split
  · exact h
  · exact dropLink_linked h (linkUp_iff.2 ‹_›) _ (by decide)
  · rename_i hst; exact hfall (by rw [hst]; decide)
  · rename_i hst; exact hfall (by rw [hst]; decide)

theorem Linked.foldl {β : Type} {f : State → β → State} (hf : ∀ s b, Linked s → Linked (f s b)) (l : List β) {s : State}
    (h : Linked s) : Linked (l.foldl f s) := by
  induction l generalizing s with
  | nil => exact h
  | cons b r ih => exact ih (hf s b h)

theorem releaseReset_linked {s : State} (h : Linked s) : Linked (releaseReset s) := by
  have h0 : Linked { s with pins := { s.pins with resetHeld := false } } := h.of_same rfl rfl rfl
  exact Linked.foldl (fun s j h => linkGains_linked h j) _ h0

theorem carrierGained_linked {s : State} (h : Linked s) (srv : Nat) : Linked (carrierGained srv s) := by
  have h0 : Linked (setCarrier srv true s) := h.of_same rfl rfl rfl
  unfold carrierGained
  split
  · exact h
  · dsimp only
    split
    · exact h0
    · exact linkGains_linked (h0.hunt srv) srv

theorem carrierLost_linked {s : State} (h : Linked s) (srv : Nat) : Linked (carrierLost srv s) := by
  have h0 : Linked (setCarrier srv false s) := h.of_same rfl rfl rfl
  unfold carrierLost
  split
  · dsimp only
    split
    · exact h0
    · exact linkLoses_linked (h0.hunt srv) srv
  · exact h

theorem coldState_linked (s : State) : Linked (coldState s) := ⟨rfl, reset_linkInv.of_same rfl rfl rfl⟩

/-! ### Seconds -/

theorem silenceTick_linked {s : State} (h : Linked s) (srv : Nat) : Linked (silenceTick s srv) := by
  unfold silenceTick
  split
  · have hs : Linked (setLink srv { link s srv with silence := (link s srv).silence + 1 } s) := h.setLink_same rfl rfl rfl rfl
    dsimp only
    split
    · exact dropLink_linked hs ((linkUp_setLink_of_iff (by rfl) srv).trans ‹_›) _ (by decide)
    · exact hs
  · exact h

theorem idleTick_linked {s : State} (h : Linked s) (srv : Nat) : Linked (idleTick s srv) := by
  unfold idleTick
  dsimp only
  refine Linked.setLink_same ?_ rfl rfl rfl rfl
  split
  · rename_i hc
    have hu : linkUp s srv = true := (Bool.and_eq_true_iff.1 hc).1
    exact h.setLink_up hu (linkUp_iff.1 hu) rfl
  · exact h

theorem secondComes_linked {s : State} (h : Linked s) : Linked (secondComes s) := by
  unfold secondComes
  split
  · exact h
  · rw [secondTick_eq]
    exact Linked.foldl (fun _ _ h => idleTick_linked h _) _ (Linked.foldl (fun _ _ h => silenceTick_linked h _) _
      ((secondCount_work s).linked h))

/-! ### Change intake -/

theorem acceptRecords_draining (tag b n : Nat) (recs : List ChangeRecord) (idx : Nat) (i : Intake) :
    (acceptRecords tag b n idx recs i).1.draining = i.draining := by
  induction recs generalizing idx i with
  | nil => rfl
  | cons r rs ih =>
    unfold acceptRecords
    cases he : acceptRecord tag b n idx r i with
    | none => rfl
    | some j =>
      refine (ih (idx + 1) j).trans ?_
      unfold acceptRecord at he
      split at he
      · cases he
      · cases he; rfl

/-- Nothing drains while the link is UP. -/
theorem LinkInv.not_draining {s : State} (h : LinkInv s) {srv : Nat} (hu : linkUp s srv = true) :
    (intake s srv).draining = false := by
  by_cases hq : (intake s srv).queue = []
  · exact h.drained srv hq
  · have := mt (h.records srv hq).1 (by rw [hu]; decide)
    simpa using this

theorem takeChanges_linked {s : State} (h : Linked s) {srv : Nat} (hu : linkUp s srv = true) (tag : Nat)
    (recs : List ChangeRecord) : Linked (takeChanges srv tag recs s) := by
  unfold takeChanges
  dsimp only
  split
  · exact protocolFault_linked h hu
  · have hi : Linked (setIntake srv (acceptRecords tag (distanceBehind (intake s srv).next tag) recs.length 0 recs
        (intake s srv)).1 s) := h.setIntake
      (fun _ => by rw [acceptRecords_draining, h.inv.not_draining hu, hu]; decide)
      (fun _ => by rw [acceptRecords_draining, h.inv.not_draining hu])
    split
    · exact dropLink_linked hi hu _ (by decide)
    · exact hi

theorem countVerdict_fields (v : Option Verdict) (i : Intake) :
    (countVerdict v i).queue = i.queue ∧ (countVerdict v i).draining = i.draining := by
  unfold countVerdict
  split <;> exact ⟨rfl, rfl⟩

theorem afterRecord_linked {s : State} (h : Linked s) {srv : Nat} (hq : (intake s srv).queue ≠ []) (q : QueuedRecord)
    (rest : List QueuedRecord) (v : Option Verdict) : Linked (afterRecord srv q rest v s) := by
  have hrec := h.inv.records srv hq
  obtain ⟨hqueue, hdrain⟩ := countVerdict_fields v { intake s srv with queue := rest }
  unfold afterRecord
  dsimp only
  generalize countVerdict v { intake s srv with queue := rest } = i at hqueue hdrain ⊢
  have hdrain : i.draining = (intake s srv).draining := hdrain
  split
  · rename_i hd
    split
    · rename_i hr
      exact h.setIntake (fun hn => absurd (hqueue.trans hr) hn) fun _ => rfl
    · rename_i hr
      exact h.setIntake (fun _ => by rw [hdrain]; exact hrec) fun hn => absurd (hqueue.symm.trans hn) hr
  · rename_i hd
    have hd : i.draining = false := by simpa using hd
    have hu : linkUp s srv = true := by
      have := mt hrec.2 (by rw [← hdrain, hd]; decide)
      simpa using this
    have hi (j : Intake) (hj : j.draining = i.draining) : Linked (setIntake srv j s) :=
      h.setIntake (fun _ => by rw [hj, hdrain]; exact hrec) fun _ => hj.trans hd
    split
    · exact (hi _ (by rfl)).handFrame _ hu
    · exact hi _ (by rfl)

theorem intakeNext_linked {s : State} (h : Linked s) (srv : Nat) : Linked (intakeNext srv s) := by
  unfold intakeNext
  split
  · exact h
  · rename_i q rest hq
    have hne : (intake s srv).queue ≠ [] := by rw [hq]; exact List.cons_ne_nil q rest
    unfold dealWith
    dsimp only
    split
    · have hw := takeRecord_work srv q.num q.record s
      exact afterRecord_linked (hw.linked h) (by unfold intake; rw [hw.intakes]; exact hne) q rest _
    · exact afterRecord_linked h hne q rest _

/-! ### The nightly takes -/

theorem nightlyTake_work {a : State × List NightlyItem} {v : Nat} (h : (volume a.1 v).state ≠ .unattached) :
    Work a.1 (nightlyTake a v).1 := by
  unfold nightlyTake
  dsimp only
  split
  · exact notify_work _ _ _
  · rename_i hns
    split
    · exact notify_work _ _ _
    · split
      · exact notify_work _ _ _
      · refine takeSnap_work _ _ ?_
        cases hst : (volume a.1 v).state with
        | unattached => exact absurd hst h
        | attached => rfl
        | stale => exact absurd hst hns

theorem nightlyTakes_work (l : List Nat) {a : State × List NightlyItem} (h : ∀ v ∈ l, (volume a.1 v).state ≠ .unattached) :
    Work a.1 (l.foldl nightlyTake a).1 := by
  induction l generalizing a with
  | nil => exact Work.refl _
  | cons v r ih =>
    have hw : Work a.1 (nightlyTake a v).1 := nightlyTake_work (h v (List.mem_cons_self ..))
    exact hw.trans (ih fun j hj => by rw [(hw.volumes j).state]; exact h j (List.mem_cons_of_mem _ hj))

theorem nightlyRound_linked {s : State} (h : Linked s) : Linked (nightlyRound s) := by
  have hn : ∀ v ∈ nightlyVolumes s, (volume s v).state ≠ .unattached := fun v hv => by
    obtain ⟨⟨k, x⟩, hm, rfl⟩ := List.mem_map.1 hv
    obtain ⟨hm, hx⟩ := List.mem_filter.1 hm
    refine h.inv.nightly k ?_
    unfold volume tgetD
    rw [(tget_eq_some_iff h.sorted).2 hm]
    exact hx
  have hw (s0 : State) (h0 : s0.vt = s.vt) := nightlyTakes_work (nightlyVolumes s) (a := (s0, []))
    fun v hv => by unfold volume; rw [h0]; exact hn v hv
  unfold nightlyRound
  split
  · exact h
  · dsimp only
    have hr := (hw { s with sc := { s.sc with opensDue := s.sc.opensDue - 1 } } rfl).linked (h.of_same rfl rfl rfl)
    split
    · exact hr
    · exact hr.of_same rfl rfl rfl

/-! ### The warm restart -/

theorem intakeRestart_linked {s : State} (h : Linked s) (srv : Nat) : Linked (intakeRestart srv s) :=
  h.setIntake (fun hn => absurd rfl hn) fun _ => rfl

theorem linkRestart_linked {s : State} (h : Linked s) (srv : Nat) : Linked (linkRestart s srv) := by
  have hlast {s1 : State} (h1 : Linked s1) : Linked (intakeRestart srv (setLink srv { link s1 srv with held := none } s1)) :=
    intakeRestart_linked (h1.release srv) srv
  unfold linkRestart
  dsimp only
  split
  · exact hlast (leaveUp_linked h (linkUp_iff.2 ‹_›) _ true (by decide))
  · rename_i hst
    refine hlast (h.setLink ⟨fun e => (by cases e), fun e => ?_⟩ (fun _ => h.inv.quiet srv (linkUp_of_state hst (by decide)))
      fun _ => rfl)
    rw [hst] at e
    cases e
  · exact hlast h
  · exact hlast h

theorem dcRestart_linked {s : State} (h : Linked s) : Linked (dcRestart s) := by
  unfold dcRestart
  exact (presentAll_work _).linked (h.of_same rfl rfl rfl)

theorem warmRestart_linked {s : State} (h : Linked s) : Linked (warmRestart s) := by
  have h0 : Linked (rscRestart (nqRestart { s with lu := { s.lu with restart := .inProgress } })) := h.of_same rfl rfl rfl
  exact (warmRestart_rest_work s).linked (Linked.foldl (fun _ _ h => linkRestart_linked h _) _ (dcRestart_linked h0))

/-! ### Requests -/

theorem answerBusy_linkInv (tag : BitVec 16) {s : State} (h : LinkInv s) : LinkInv (answerBusy tag s) := by
  unfold answerBusy
  split
  · exact h.of_same (pump_lu_links _) (pump_vt _) (pump_ciu _)
  · exact h

theorem answer_linkInv (tag : BitVec 16) (r : Reply) {s : State} (h : LinkInv s) : LinkInv (answer tag r s) :=
  h.of_same (answer_lu_links _ _ _) (answer_vt _ _ _) (answer_ciu _ _ _)

theorem request_linkInv (x : ReqHead) (ok : Bool) {f : State → State × Reply} {s : State} (h : LinkInv s)
    (hf : LinkInv (f (mgmtHunt s)).1) : LinkInv (request x ok f s) := by
  have hh : LinkInv (mgmtHunt s) := h.of_same rfl rfl rfl
  unfold request
  split
  · exact h
  · split
    · exact answerBusy_linkInv _ hh
    · split
      · exact answer_linkInv _ _ hh
      · exact answer_linkInv _ _ hf

theorem setSettings_linked {s : State} (h : Linked s) {v : Nat} (w l g n : Option Nat) (hv : (volume s v).state ≠ .unattached) :
    Linked (setVolume v (withSettings w l g n (volume s v)) s) where
  sorted := tsorted_tsetD _ _ _ _ h.sorted
  inv := by
    have hsame : volume (setVolume v (withSettings w l g n (volume s v)) s) v = withSettings w l g n (volume s v) := by
      rw [volume_setVolume, if_pos rfl]
    refine h.inv.moveVolume (v := v) rfl rfl (fun j hj => ?_) ?_ ?_
    · rw [volume_setVolume, if_neg (Ne.symm hj)]
    · rw [hsame]; exact h.inv.volumes v
    · rw [hsame]; exact fun _ => hv

/-- A request applied keeps the links. -/
theorem Applied.linkInv {c : Instr} {s t : State} (ha : Applied c s t) (h : Linked s) : LinkInv t := by
  have hn : NoticeRequest s t → LinkInv t := by
    rintro ⟨he, -⟩
    rw [he]
    exact h.inv.of_same rfl rfl rfl
  have hw : Work s t → LinkInv t := fun hw => (hw.linked h).inv
  cases c with
  | attachVolume x v srv size w =>
    obtain ⟨hr, hrec⟩ := ha
    refine h.inv.moveVolume hr.links hr.intakes hr.others ?_ ?_
    · rw [hrec]
      intro _
      by_cases hu : linkUp s srv.toNat = true <;> simp [attachedRecord, hu]
    · rw [hrec]
      intro hno
      cases hno
  | setVolume x v w l g n =>
    obtain ⟨hv, w, l, g, n, hw⟩ := ha
    exact (hw.linked (setSettings_linked h w l g n hv)).inv
  | detachVolume x v =>
    cases ha
    obtain ⟨hr, hrec⟩ := detachRecord_request v.toNat s
    refine h.inv.moveVolume hr.links hr.intakes hr.others ?_ ?_
    · rw [hrec]
      intro hno
      exact absurd rfl hno
    · rw [hrec]
      intro hno
      cases hno
  | restart =>
    cases ha
    exact h.inv.of_same rfl rfl rfl
  | setNotice => exact hn ha
  | fetchNotices => exact hn ha
  | clearNotice => exact hn ha
  | _ => exact hw ha

theorem requestEffect_linkInv (c : Instr) {s : State} (h : Linked s) : LinkInv (requestEffect c s).1 :=
  (requestEffect_handled c s).state.elim (fun e => by rw [e]; exact h.inv) fun ha => ha.linkInv h

/-! ### The management link -/

theorem txOver_linkInv {s : State} (h : LinkInv s) : LinkInv (txOver s) :=
  h.of_same (txOver_frame s .links (by decide)) (txOver_frame s .volumes (by decide)) (txOver_frame s .intakes (by decide))

theorem pump_linkInv {s : State} (h : LinkInv s) : LinkInv (pump s) :=
  h.of_same (pump_lu_links _) (pump_vt _) (pump_ciu _)

theorem mgmtGained_linkInv {s : State} (h : LinkInv s) : LinkInv (mgmtGained s) := by
  unfold mgmtGained
  split
  · exact h
  · exact pump_linkInv (h.of_same rfl rfl rfl)

theorem mgmtLost_linkInv {s : State} (h : LinkInv s) : LinkInv (mgmtLost s) := by
  unfold mgmtLost
  split
  · exact pump_linkInv (txOver_linkInv (h.of_same rfl rfl rfl))
  · exact h

theorem mgmtChars_linkInv (chars : List RxChar) {s : State} (h : LinkInv s) : LinkInv (mgmtChars chars s) := by
  unfold mgmtChars
  split
  · dsimp only
    split
    · exact h
    · exact h.of_same rfl rfl rfl
  · exact h

theorem frameBusy_linkInv (tag : BitVec 16) {s : State} (h : LinkInv s) : LinkInv (frameBusy tag s) := by
  unfold frameBusy
  split
  · exact answerBusy_linkInv _ (h.of_same rfl rfl rfl)
  · exact h

theorem mgmtSent_linkInv {s : State} (h : LinkInv s) : LinkInv (mgmtSent s) := by
  unfold mgmtSent
  split
  · exact pump_linkInv (txOver_linkInv h)
  · exact h

/-! ### Every step -/

/-- Every command keeps the links. -/
theorem exec_linkInv {c : Instr} {s t : State} (h : Linked s) (he : exec c s = .next t) : LinkInv t := by
  by_cases hc : ∃ x, reqHead c = some x
  · obtain ⟨x, hx⟩ := hc
    by_cases hk : ∃ y kind, c = .unknownKind y kind ∧ isRequestKind kind = true
    · obtain ⟨y, kind, rfl, hk⟩ := hk
      rw [exec_unknownKind_request s hk] at he
      cases he; exact h.inv
    · rw [exec_request s hx fun y kind e => by
        by_contra hne; exact hk ⟨y, kind, e, by simpa using hne⟩] at he
      cases he
      exact request_linkInv _ _ h.inv (requestEffect_linkInv c (h.of_same rfl rfl rfl))
  · have hite {p : Prop} [Decidable p] {a b : State} (ha : LinkInv a) (hb : LinkInv b) : LinkInv (if p then a else b) := by
      split
      · exact ha
      · exact hb
    cases c with
    | coldReset => cases he; exact (coldState_linked s).inv
    | resetRelease => cases he; exact hite (releaseReset_linked h).inv h.inv
    | carrierGained => cases he; exact (carrierGained_linked h _).inv
    | carrierLost => cases he; exact (carrierLost_linked h _).inv
    | mgmtCarrierGained => cases he; exact mgmtGained_linkInv h.inv
    | mgmtCarrierLost => cases he; exact mgmtLost_linkInv h.inv
    | mgmtBadFrame => cases he; exact mgmtChars_linkInv _ h.inv
    | mgmtFrameBusy => cases he; exact frameBusy_linkInv _ h.inv
    | mgmtFrameSent => cases he; exact mgmtSent_linkInv h.inv
    | serverFrameSent => cases he; exact (serverSent_linked h _).inv
    | serverBadFrame => cases he; exact (serverChars_linked h _ _).inv
    | serverUnusableFrame => cases he; exact (unusable_linked h _ _ _ _).inv
    | hello => cases he; exact (helloArrives_linked h _).inv
    | resync => cases he; exact (resyncArrives_linked h _).inv
    | reEnterUp => cases he; exact (reEnter_linked h _).inv
    | idleReceived => cases he; exact (serverFrame_linked h fun _ h _ => h).inv
    | secondEvent => cases he; exact (secondComes_linked h).inv
    | silenceLimitReached => cases he; exact hite (secondComes_linked h).inv h.inv
    | minuteEvent => cases he; exact hite (secondComes_linked h).inv h.inv
    | graceExpired => cases he; exact hite (secondComes_linked h).inv h.inv
    | nightlyTakes => cases he; exact (nightlyRound_linked h).inv
    | dupNightlyList => cases he; exact ((nightlyList_work s).linked h).inv
    | sampleEvent => cases he; exact ((sampleComes_work s).linked h).inv
    | trendVisit => cases he; exact ((visitNext_work s).linked h).inv
    | graceSweepVisit => cases he; exact ((graceVisitNext_work s).linked h).inv
    | changes => cases he; exact (serverFrame_linked h fun _ h hu => takeChanges_linked h hu _ _).inv
    | intakeRecord => cases he; exact (intakeNext_linked h _).inv
    | denyAck => cases he; exact (completionFrame_linked h fun _ hu => takeAck_work _ _ hu).inv
    | allowAck => cases he; exact (completionFrame_linked h fun _ hu => takeAck_work _ _ hu).inv
    | snapDone => cases he; exact (completionFrame_linked h fun s _ =>
        (grantAll_work _).after ((dcListen_work _).after (snapLive_work _ _ s))).inv
    | snapFail => cases he; exact (completionFrame_linked h fun s _ =>
        (grantAll_work _).after ((dcListen_work _).after (snapFails_work _ _ _ s))).inv
    | dropSnapAck => cases he; exact (completionFrame_linked h fun s _ => dropAcked_work _ _ s).inv
    | copyDone => cases he; exact (completionFrame_linked h fun s _ => (grantAll_work _).after (copyDone_work _ _ s)).inv
    | copyFail => cases he; exact (completionFrame_linked h fun s _ => (grantAll_work _).after (copyFail_work _ _ _ s)).inv
    | shipDone => cases he; exact (completionFrame_linked h fun s _ => (grantAll_work _).after (shipCompletes_work _ _ s)).inv
    | shipFail => cases he; exact (completionFrame_linked h fun s _ => (grantAll_work _).after (shipFails_work _ _ _ s)).inv
    | warmRestart => cases he; exact hite (warmRestart_linked h).inv h.inv
    | warmRestartEnd => cases he; exact hite (h.inv.of_same rfl rfl rfl) h.inv
    | _ => exact absurd ⟨_, rfl⟩ hc

/-- Settles O60: a step is a command on the queue's rest, and every command keeps the links. -/
theorem everyStepKeepsTheLinks : Obligations.EveryStepKeepsTheLinks := by
  intro s t htab h he
  have hl : Linked s := ⟨htab.volumes.1, h⟩
  unfold step at he
  split at he
  · cases he; exact h
  · rename_i c rest _
    have hrest : Linked (s.withPending rest) := hl.of_same rfl rfl rfl
    exact exec_linkInv hrest he

end Sys2Proof.Machine
end

