-- ==== Sys2Proof/Proofs/NoticeArrival.lean ====
section
/-! PROOF. CLEAR_NOTICE, and the arrival of a notice (O51): what the Notice Queue's operations make of a queue in its form. -/

namespace Sys2Proof.Machine

/-! ### CLEAR_NOTICE -/

theorem ofCode_eq_none {n : Nat} (h : n < 1 ∨ 13 < n) : NoticeKind.ofCode n = none := by
  unfold NoticeKind.ofCode
  split <;> first | omega | rfl

theorem queueWrite_frame (l : List Entry) (s : State) : Frame [.queue] s { s with nq := { s.nq with queue := l } } :=
  ⟨rfl, fun p hp => by cases p <;> first | rfl | exact ⟨rfl, rfl⟩ | exact ⟨rfl, rfl, rfl⟩ | exact (hp (by decide)).elim,
    fun _ => ⟨rfl, rfl⟩⟩

/-- CLEAR_NOTICE refuses, or removes the entry. -/
theorem clearNotice_cases (kind : Nat) (w : WireSubject) (s : State) :
    (∃ st, clearNotice kind w s = (s, refusal st))
    ∨ ∃ k sub, clearNotice kind w s = ({ s with nq := s.nq.remove k sub }, accept [] .none) := by
  unfold clearNotice
  split
  · split
    · exact .inl ⟨_, rfl⟩
    · split
      · exact .inr ⟨_, _, rfl⟩
      · exact .inl ⟨_, rfl⟩
  · exact .inl ⟨_, rfl⟩

theorem clearNotice_malformed {kind : Nat} {w : WireSubject} (h : kind < 1 ∨ 13 < kind ∨ noticeSubject w = none) (s : State) :
    clearNotice kind w s = (s, refusal .malformed) := by
  unfold clearNotice
  split
  · rename_i k sub hk hsub
    rcases h with h | h | h
    · rw [ofCode_eq_none (.inl h)] at hk; cases hk
    · rw [ofCode_eq_none (.inr h)] at hk; cases hk
    · rw [h] at hsub; cases hsub
  · rfl

theorem clearNotice_of_codes {kind : Nat} {w : WireSubject} {k : NoticeKind} {sub : NoticeSubject}
    (hk : NoticeKind.ofCode kind = some k) (hsub : noticeSubject w = some sub) (s : State) :
    clearNotice kind w s = match s.nq.entryFor k sub with
      | none => (s, refusal .noSuch)
      | some e => if e.clearable then ({ s with nq := s.nq.remove k sub }, accept [] .none) else (s, refusal .state) := by
  unfold clearNotice
  rw [hk, hsub] <;> rfl

theorem clearable_eq_false {e : Entry} (h : e.content.kind.isCondition = false ∨ e.seen = false ∨ e.content.standing = true) :
    e.clearable = false := by
  rcases h with h | h | h <;> simp [Entry.clearable, h]

theorem clearable_eq_true {e : Entry} (h : ¬(e.content.kind.isCondition = false ∨ e.seen = false ∨ e.content.standing = true)) :
    e.clearable = true := by
  simp only [not_or] at h
  simpa [Entry.clearable, and_assoc] using h

theorem isFor_iff {e : Entry} {k : NoticeKind} {sub : NoticeSubject} :
    e.isFor k sub = true ↔ e.content.kind = k ∧ e.subject = sub := by simp [Entry.isFor]

/-- The clause of O51 on CLEAR_NOTICE. -/
theorem clearNotice_checks (h : ReqHead) (kind : BitVec 8) (w : WireSubject) (s : State) (ht : Takes h 4 s) :
    ∃ t, exec (.clearNotice h kind w) s = .next t
      ∧ (kind.toNat < 1 ∨ 13 < kind.toNat ∨ noticeSubject w = none → Refused h .malformed s t)
      ∧ (∀ k sub, NoticeKind.ofCode kind.toNat = some k → noticeSubject w = some sub →
          ((∀ e ∈ s.nq.queue, e.content.kind = k → e.subject ≠ sub) → Refused h .noSuch s t)
          ∧ (∀ e, s.nq.queue.find? (fun x => x.content.kind = k && x.subject = sub) = some e →
              if k.isCondition = false ∨ e.seen = false ∨ e.content.standing = true then Refused h .state s t
              else Answered h (accept [] .none) s t
                ∧ t.nq.queue = s.nq.queue.filter fun x => !(decide (x.content.kind = k) && decide (x.subject = sub))))
      ∧ Unchanged (.queue :: answerParts) s t := by
  have he : exec (.clearNotice h kind w) s = .next (answer h.tag (clearNotice kind.toNat w (mgmtHunt s)).2
      (clearNotice kind.toNat w (mgmtHunt s)).1) := congrArg Host.Outcome.next (fixedRequest_takes ht _)
  refine ⟨_, he, fun hbad => ?_, fun k sub hk hsub => ⟨fun hno => ?_, fun e hfind => ?_⟩, ?_⟩
  · rw [clearNotice_malformed hbad]
    exact refused_takes _ ht
  · have hnone : (mgmtHunt s).nq.entryFor k sub = none :=
      List.find?_eq_none.2 fun e hm hfor => hno e hm (isFor_iff.1 hfor).1 (isFor_iff.1 hfor).2
    rw [clearNotice_of_codes hk hsub, hnone]
    exact refused_takes _ ht
  · have hsome : (mgmtHunt s).nq.entryFor k sub = some e := hfind
    have hkind : e.content.kind = k := (isFor_iff.1 (List.find?_some (p := Entry.isFor k sub) hfind)).1
    rw [clearNotice_of_codes hk hsub, hsome]
    dsimp only
    split
    · rename_i hno
      rw [clearable_eq_false (by rw [hkind]; exact hno)]
      exact refused_takes _ ht
    · rename_i hyes
      rw [clearable_eq_true (by rw [hkind]; exact hyes), if_pos rfl]
      exact ⟨(answered_of_frame (accept [] .none) ht (queueWrite_frame _ (mgmtHunt s))).1, answer_nq_queue _ _ _⟩
  · rcases clearNotice_cases kind.toNat w (mgmtHunt s) with ⟨st, hc⟩ | ⟨k, sub, hc⟩
    · rw [hc]
      exact (refused_takes st ht).2.mono fun p hp => List.mem_cons_of_mem _ hp
    · rw [hc]
      exact (answered_of_frame (accept [] .none) ht (queueWrite_frame _ (mgmtHunt s))).2

/-! ### The order of age -/

theorem insertBy_last {α : Type} (f : α → Nat) (x : α) {l : List α} (h : ∀ y ∈ l, f y ≤ f x) : insertBy f x l = l ++ [x] := by
  induction l with
  | nil => rfl
  | cons y r ih =>
    have hy : ¬f x < f y := Nat.not_lt.2 (h y (List.mem_cons_self ..))
    rw [insertBy, if_neg hy, ih fun z hz => h z (List.mem_cons_of_mem _ hz)]
    rfl

theorem mem_insertBy {α : Type} (f : α → Nat) (x y : α) (l : List α) : y ∈ insertBy f x l ↔ y ∈ l ∨ y = x := by
  induction l with
  | nil => simp [insertBy]
  | cons z r ih =>
    unfold insertBy
    split
    · simp only [List.mem_cons]; tauto
    · simp only [List.mem_cons, ih]; tauto

theorem insertBy_pairwise {α : Type} (f : α → Nat) (x : α) {l : List α} (hl : (l.map f).Pairwise (· < ·))
    (hx : ∀ y ∈ l, f y ≠ f x) : ((insertBy f x l).map f).Pairwise (· < ·) := by
  induction l with
  | nil => simp [insertBy]
  | cons y r ih =>
    obtain ⟨hy, hr⟩ := List.pairwise_cons.1 hl
    have hyr : ∀ z ∈ r, f y < f z := fun z hz => hy _ (List.mem_map_of_mem hz)
    have hne : f y ≠ f x := hx y (List.mem_cons_self ..)
    unfold insertBy
    split
    · rename_i hlt
      refine List.pairwise_cons.2 ⟨fun b hb => ?_, hl⟩
      obtain ⟨z, hz, rfl⟩ := List.mem_map.1 hb
      rcases List.mem_cons.1 hz with rfl | hz
      · exact hlt
      · exact hlt.trans (hyr z hz)
    · refine List.pairwise_cons.2 ⟨fun b hb => ?_, ih hr fun z hz => hx z (List.mem_cons_of_mem _ hz)⟩
      obtain ⟨z, hz, rfl⟩ := List.mem_map.1 hb
      rcases (mem_insertBy f x z r).1 hz with hz | rfl
      · exact hyr z hz
      · omega

/-! ### The entry that gives way -/

theorem foldl_min_le {l : List Entry} {a n : Nat} (ha : n ≤ a) (hl : ∀ e ∈ l, n ≤ e.priority) :
    n ≤ l.foldl (fun a e => min a e.priority) a := by
  induction l generalizing a with
  | nil => exact ha
  | cons e r ih => exact ih (le_min ha (hl e (List.mem_cons_self ..))) fun x hx => hl x (List.mem_cons_of_mem _ hx)

theorem foldl_min_le_mem {l : List Entry} {a : Nat} : l.foldl (fun a e => min a e.priority) a ≤ a
    ∧ ∀ e ∈ l, l.foldl (fun a e => min a e.priority) a ≤ e.priority := by
  induction l generalizing a with
  | nil => exact ⟨le_refl _, fun e he => by cases he⟩
  | cons x r ih =>
    obtain ⟨h1, h2⟩ := ih (a := min a x.priority)
    refine ⟨h1.trans (min_le_left _ _), fun e he => ?_⟩
    rcases List.mem_cons.1 he with rfl | he
    · exact h1.trans (min_le_right _ _)
    · exact h2 e he

/-- The lowest priority is that of the oldest entry of lowest priority. -/
theorem lowest_eq {q : Nq} {pre post : List Entry} {e : Entry} (hq : q.queue = pre ++ e :: post) (h3 : e.priority ≤ 3)
    (hpre : ∀ x ∈ pre, e.priority < x.priority) (hpost : ∀ x ∈ post, e.priority ≤ x.priority) : q.lowest = e.priority := by
  refine le_antisymm (foldl_min_le_mem.2 e (by rw [hq]; simp)) (foldl_min_le h3 fun x hx => ?_)
  rw [hq, List.mem_append, List.mem_cons] at hx
  rcases hx with hx | rfl | hx
  · exact (hpre x hx).le
  · exact le_refl _
  · exact hpost x hx

theorem removeOldest_append {pre post : List Entry} {e : Entry} (hpre : ∀ x ∈ pre, x.priority ≠ e.priority) :
    removeOldest e.priority (pre ++ e :: post) = pre ++ post := by
  induction pre with
  | nil => simp [removeOldest]
  | cons x r ih =>
    rw [List.cons_append, removeOldest, if_neg (hpre x (List.mem_cons_self ..)), ih fun y hy => hpre y (List.mem_cons_of_mem _ hy)]
    rfl

/-! ### Arrival -/

theorem holds_iff {q : Nq} {k : NoticeKind} {sub : NoticeSubject} :
    q.holds k sub = true ↔ ∃ e ∈ q.queue, e.content.kind = k ∧ e.subject = sub := by
  simp [Nq.holds, isFor_iff]

theorem holds_eq_false {q : Nq} {k : NoticeKind} {sub : NoticeSubject} (h : ∀ e ∈ q.queue, ¬(e.content.kind = k ∧ e.subject = sub)) :
    q.holds k sub = false := by
  rw [← Bool.not_eq_true, holds_iff]
  rintro ⟨e, he, hp⟩
  exact h e he hp

theorem arrive_of_held {q : Nq} {n : Notice} (h : q.holds n.content.kind n.subject = true) : q.arrive n = q.coalesce n := by
  simp [Nq.arrive, Nq.arriveExpress, Nq.arriveQueue, h]

/-- A new entry of priority `p`. -/
def Nq.entryOf (q : Nq) (n : Notice) : Entry :=
  { subject := n.subject, content := n.content, priority := q.priority n.content.kind, seq := q.seq, age := q.age, seen := false }

theorem arrive_ordinary {q : Nq} {n : Notice} (hx : q.express ≠ some n.content.kind) (h : q.holds n.content.kind n.subject = false) :
    q.arrive n = if q.hasPlace (q.priority n.content.kind) then (q.lodge (q.entryOf n)).bump else q.lodge (q.entryOf n) := by
  unfold Nq.arrive
  rw [if_neg hx, Nq.arriveQueue, h]
  rfl

theorem arrive_express {q : Nq} {n : Notice} (hx : q.express = some n.content.kind) (h : q.holds n.content.kind n.subject = false) :
    q.arrive n = match q.slot with
      | none => q.takeSlot n
      | some m => if m.content.kind = n.content.kind ∧ m.subject = n.subject then { q with slot := some { m with content := n.content } }
        else (q.demote m).takeSlot n := by
  unfold Nq.arrive
  rw [if_pos hx, Nq.arriveExpress, h]
  rfl

theorem lodge_room {q : Nq} {e : Entry} (h : q.queue.length < 128) : q.lodge e = { q with queue := insertBy Entry.age e q.queue } :=
  if_pos h

theorem lodge_displaces {q : Nq} {e : Entry} (h : q.queue.length = 128) (hlow : q.lowest < e.priority) :
    q.lodge e = { q with queue := insertBy Entry.age e (removeOldest q.lowest q.queue), overflow := true,
                         lost := min 65535 (q.lost + 1) } := by
  rw [Nq.lodge, if_neg (by omega), if_pos hlow]
  rfl

theorem lodge_dropped {q : Nq} {e : Entry} (h : q.queue.length = 128) (hlow : ¬q.lowest < e.priority) :
    q.lodge e = { q with overflow := true, lost := min 65535 (q.lost + 1) } := by
  rw [Nq.lodge, if_neg (by omega), if_neg hlow]
  rfl

theorem lodge_counts (q : Nq) (e : Entry) : (q.lodge e).seq = q.seq ∧ (q.lodge e).age = q.age := by
  unfold Nq.lodge
  split
  · exact ⟨rfl, rfl⟩
  · split <;> exact ⟨rfl, rfl⟩

theorem demote_counts (q : Nq) (m : SlotNotice) : (q.demote m).seq = q.seq ∧ (q.demote m).age = q.age := by
  unfold Nq.demote
  split
  · exact ⟨rfl, rfl⟩
  · exact lodge_counts _ _

theorem lowest_ge {q : Nq} {p : Nat} (h3 : p ≤ 3) (h : ∀ e ∈ q.queue, p ≤ e.priority) : ¬q.lowest < p :=
  Nat.not_lt.2 (foldl_min_le h3 h)

/-- With an empty express slot the transmit side takes nothing of the queue. -/
theorem pump_nq_of_empty_slot {s : State} (h : s.nq.slot = none) : (pump s).nq = s.nq := by
  unfold pump
  split
  · rfl
  · split
    · unfold startNext
      rw [h]
      dsimp only
      split
      · rfl
      · split <;> rfl
    · unfold discardWaiting
      rw [← h]

/-- A notice that leaves the express slot as it is arrives, and nothing starts that would empty the slot. -/
theorem raise_nq {n : Notice} {s : State} (h : s.lu.mgmtTx.isSome = true ∨ s.nq.slot = none)
    (hslot : (s.nq.arrive n).slot = s.nq.slot) : (raise n s).nq = s.nq.arrive n := by
  rcases h with h | h
  · exact congrArg State.nq (pump_of_sending (s := { s with nq := s.nq.arrive n }) h)
  · exact pump_nq_of_empty_slot (s := { s with nq := s.nq.arrive n }) (hslot.trans h)

theorem raise_nq_of_sending {n : Notice} {s : State} (h : s.lu.mgmtTx.isSome = true) : (raise n s).nq = s.nq.arrive n :=
  congrArg State.nq (pump_of_sending (s := { s with nq := s.nq.arrive n }) h)

theorem lodge_slot (q : Nq) (e : Entry) : (q.lodge e).slot = q.slot := by
  unfold Nq.lodge
  split
  · rfl
  · split <;> rfl

theorem arrive_ordinary_slot {q : Nq} {n : Notice} (hx : q.express ≠ some n.content.kind)
    (h : q.holds n.content.kind n.subject = false) : (q.arrive n).slot = q.slot := by
  rw [arrive_ordinary hx h]
  split
  · exact lodge_slot q _
  · exact lodge_slot q _

/-! ### An ordinary notice -/

section
variable {q : Nq} {n : Notice} (hx : q.express ≠ some n.content.kind) (h : q.holds n.content.kind n.subject = false)
include hx h

theorem arrive_room (hyoung : ∀ e ∈ q.queue, e.age < q.age) (hlen : q.queue.length < 128) : q.arrive n = { q with
    queue := q.queue ++ [q.entryOf n], seq := (q.seq + 1) % 4294967296, age := q.age + 1 } := by
  rw [arrive_ordinary hx h, lodge_room hlen, insertBy_last _ _ fun e he => (hyoung e he).le, if_pos (by simp [Nq.hasPlace, hlen])]
  rfl

theorem arrive_displaces (hyoung : ∀ e ∈ q.queue, e.age < q.age) {pre post : List Entry} {e : Entry}
    (hlen : q.queue.length = 128) (hq : q.queue = pre ++ e :: post) (h3 : e.priority ≤ 3) (hp : e.priority < q.priority n.content.kind)
    (hpre : ∀ x ∈ pre, e.priority < x.priority) (hpost : ∀ x ∈ post, e.priority ≤ x.priority) : q.arrive n = { q with
      queue := pre ++ post ++ [q.entryOf n], seq := (q.seq + 1) % 4294967296, age := q.age + 1
      overflow := true, lost := min 65535 (q.lost + 1) } := by
  have hlow := lowest_eq hq h3 hpre hpost
  have hremove : removeOldest q.lowest q.queue = pre ++ post := by
    rw [hlow, hq, removeOldest_append fun x hx => (hpre x hx).ne']
  have hold : ∀ x ∈ pre ++ post, x.age ≤ (q.entryOf n).age := fun x hx => by
    refine (hyoung x ?_).le
    rw [hq, List.mem_append, List.mem_cons]
    exact (List.mem_append.1 hx).imp id .inr
  rw [arrive_ordinary hx h, lodge_displaces (e := q.entryOf n) hlen (hlow ▸ hp), hremove, insertBy_last _ _ hold,
    if_pos (by simp [Nq.hasPlace, hlow, hp])]
  rfl

theorem arrive_dropped (hlen : q.queue.length = 128) (h3 : q.priority n.content.kind ≤ 3)
    (hall : ∀ e ∈ q.queue, q.priority n.content.kind ≤ e.priority) :
    q.arrive n = { q with overflow := true, lost := min 65535 (q.lost + 1) } := by
  have hlow := lowest_ge h3 hall
  rw [arrive_ordinary hx h, lodge_dropped (e := q.entryOf n) hlen hlow, if_neg (by simp [Nq.hasPlace, hlen]; omega)]

end

/-! ### The express slot's notice, sent to the queue -/

/-- The entry that a demoted notice becomes. -/
def Nq.entryOfSlot (q : Nq) (m : SlotNotice) : Entry :=
  { subject := m.subject, content := m.content, priority := q.priority m.content.kind, seq := m.seq, age := m.age, seen := false }

theorem demote_held {q : Nq} {m : SlotNotice} (h : q.holds m.content.kind m.subject = true) :
    q.demote m = q.coalesce ⟨m.subject, m.content⟩ := if_pos h

theorem demote_new {q : Nq} {m : SlotNotice} (h : q.holds m.content.kind m.subject = false) :
    q.demote m = q.lodge (q.entryOfSlot m) := by
  rw [Nq.demote, h]; rfl

theorem coalesce_queue (n : Notice) (q : Nq) : (q.coalesce n).queue = q.queue.map fun e =>
    if e.content.kind = n.content.kind ∧ e.subject = n.subject then { e with content := n.content, seen := false } else e := by
  refine List.map_congr_left fun e _ => ?_
  by_cases he : e.content.kind = n.content.kind ∧ e.subject = n.subject
  · rw [if_pos he, if_pos (isFor_iff.2 he)]
  · rw [if_neg he, if_neg (mt isFor_iff.1 he)]

/-! ### The three clauses of arrival -/

/-- The clause of O51 on a notice whose pair has an entry. -/
theorem raise_coalesces {n : Notice} {s : State} {pair : Entry → Bool} (hopen : s.lu.mgmtTx.isSome = true ∨ s.nq.slot = none)
    (hpair : ∀ e, pair e = (decide (e.content.kind = n.content.kind) && decide (e.subject = n.subject)))
    (h : ∃ e ∈ s.nq.queue, pair e = true) : (raise n s).nq = { s.nq with
      queue := s.nq.queue.map fun e => if pair e = true then { e with content := n.content, seen := false } else e } := by
  have heq : pair = Entry.isFor n.content.kind n.subject := funext hpair
  subst heq
  obtain ⟨e, he, hfor⟩ := h
  have harr := arrive_of_held (holds_iff.2 ⟨e, he, isFor_iff.1 hfor⟩)
  rw [raise_nq hopen (by rw [harr]; rfl), harr]
  rfl

/-- The clause of O51 on a notice of the express kind that meets another pair's notice in the slot. -/
theorem arrive_takes_slot {q : Nq} {n : Notice} {m : SlotNotice} (hx : q.express = some n.content.kind)
    (h : q.holds n.content.kind n.subject = false) (hm : q.slot = some m)
    (hne : m.content.kind ≠ n.content.kind ∨ m.subject ≠ n.subject) : q.arrive n = (q.demote m).takeSlot n := by
  rw [arrive_express hx h, hm]
  exact if_neg fun hsame => hne.elim (absurd hsame.1) (absurd hsame.2)

theorem takeSlot_demote (q : Nq) (n : Notice) (m : SlotNotice) :
    ((q.demote m).takeSlot n).slot = some ⟨n.subject, n.content, q.seq, q.age⟩
    ∧ ((q.demote m).takeSlot n).seq = (q.seq + 1) % 4294967296 ∧ ((q.demote m).takeSlot n).queue = (q.demote m).queue
    ∧ ((q.demote m).takeSlot n).overflow = (q.demote m).overflow ∧ ((q.demote m).takeSlot n).lost = (q.demote m).lost := by
  obtain ⟨hseq, hage⟩ := demote_counts q m
  refine ⟨?_, ?_, rfl, rfl, rfl⟩
  · change some _ = some _
    rw [hseq, hage]
  · change (_ + 1) % _ = _
    rw [hseq]

/-- Settles O51: CLEAR_NOTICE, then each clause by the operation of the queue that it is about. -/
theorem clearNoticeChecksInOrder : Obligations.ClearNoticeChecksInOrder := by
  refine ⟨clearNotice_checks, ?_, ?_⟩
  · rintro n s t pair p entry hinv rfl hopen hpair rfl rfl
    have hfresh : (∀ e ∈ s.nq.queue, pair e = false) → s.nq.holds n.content.kind n.subject = false := fun h =>
      holds_eq_false fun e he hsame => by
        have := h e he
        rw [hpair, hsame.1, hsame.2] at this
        simp at this
    refine ⟨raise_coalesces hopen hpair, fun hno hx => ?_, fun htx hno hx => ?_⟩
    · have hh := hfresh hno
      rw [raise_nq hopen (arrive_ordinary_slot hx hh)]
      refine ⟨arrive_room hx hh hinv.young, fun pre e post hlen hq hp hpre hpost => ?_, fun hlen hall => ?_⟩
      · have h3 : e.priority ≤ 3 := by
          rw [hinv.priority e (by rw [hq]; simp)]; exact hinv.priorities _
        exact arrive_displaces hx hh hinv.young hlen hq h3 hp hpre hpost
      · exact arrive_dropped hx hh hlen (hinv.priorities _) hall
    · have hh := hfresh hno
      rw [raise_nq_of_sending htx]
      refine ⟨fun hs => ?_, fun m hs hk hsub => ?_, fun m hs hne => ?_⟩
      · rw [arrive_express hx hh, hs]; rfl
      · rw [arrive_express hx hh, hs]; exact if_pos ⟨hk, hsub⟩
      · rw [arrive_takes_slot hx hh hs hne]
        obtain ⟨hslot, hseq, hqueue, hover, hlost⟩ := takeSlot_demote s.nq n m
        rw [hslot, hseq, hqueue, hover, hlost]
        refine ⟨rfl, rfl, fun hheld => ?_, fun hnew hlen => ?_, fun hnew hlen hall => ?_⟩
        · rw [demote_held (holds_iff.2 hheld), coalesce_queue]
        · rw [demote_new (holds_eq_false hnew), lodge_room hlen]
          exact ⟨insertBy_pairwise _ _ hinv.ages fun e he => (hinv.slot m hs).2 e he, fun e => mem_insertBy _ _ e _⟩
        · rw [demote_new (holds_eq_false hnew), lodge_dropped (e := s.nq.entryOfSlot m) hlen (lowest_ge (hinv.priorities _) hall)]
          exact ⟨rfl, rfl, rfl⟩
  · rintro n s t hinv rfl htx hx hno
    obtain ⟨hslot, hbusy, hrep⟩ := hinv.free htx
    have harr : s.nq.arrive n = s.nq.takeSlot n := by
      rw [arrive_express hx (holds_eq_false fun e he h => hno e he h.1 h.2), hslot]
    have hn : ∀ q : Nq, q.slot = none → { q with slot := none } = q := fun q h => by rw [← h]
    unfold raise
    rw [harr]
    cases hc : s.pins.mgmtCarrier with
    | true =>
      rw [pump_of_free (s := { s with nq := s.nq.takeSlot n }) htx hc]
      exact ⟨rfl, by simp [startNext, Nq.takeSlot, Nq.bump, hslot]⟩
    | false =>
      have hp : pump { s with nq := s.nq.takeSlot n } = discardWaiting { s with nq := s.nq.takeSlot n } := by
        simp [pump, htx, hc]
      rw [hp]
      exact ⟨by simp [discardWaiting, htx], by simp [discardWaiting, Nq.takeSlot, Nq.bump, hslot]⟩

end Sys2Proof.Machine
end

