-- ==== Sys2Proof/Proofs/CarriersGained.lean ====
section
/-! PROOF. Carriers gained, and the reset line released (O4). -/

namespace Sys2Proof.Machine

/-! ### The carriers -/

theorem mem_setAdd (n j : Nat) (l : List Nat) : j ∈ setAdd n l ↔ j = n ∨ j ∈ l := by
  induction l with
  | nil => simp [setAdd]
  | cons m r ih =>
    unfold setAdd
    split
    · simp only [List.mem_cons]
    · split
      · rename_i h; subst h; simp only [List.mem_cons]; tauto
      · simp only [List.mem_cons, ih]; tauto

theorem carrier_setCarrier_true (srv j : Nat) (s : State) : carrier (setCarrier srv true s) j = (decide (j = srv) || carrier s j) := by
  change (setAdd srv s.pins.serverCarrier).contains j = (_ || s.pins.serverCarrier.contains j)
  simp [mem_setAdd]

theorem carrier_setCarrier_false (srv j : Nat) (s : State) : carrier (setCarrier srv false s) j = (decide (j ≠ srv) && carrier s j) := by
  change (setDel srv s.pins.serverCarrier).contains j = (_ && s.pins.serverCarrier.contains j)
  rw [setDel, Bool.eq_iff_iff]
  simp [and_comm]

theorem setCarrier_unchanged (srv : Nat) (b : Bool) (s : State) : Unchanged [.pins] s (setCarrier srv b s) :=
  fun p hp => by cases p <;> first | rfl | exact ⟨rfl, rfl⟩ | exact ⟨rfl, rfl, rfl⟩ | exact (hp (by decide)).elim

theorem resetWrite_unchanged (b : Bool) (s : State) : Unchanged [.pins] s { s with pins := { s.pins with resetHeld := b } } :=
  fun p hp => by cases p <;> first | rfl | exact ⟨rfl, rfl⟩ | exact ⟨rfl, rfl, rfl⟩ | exact (hp (by decide)).elim

/-- A write to the pins, and then work in the parts of `L`. -/
theorem Frame.spares_pins {L : List Part} {s u t : State} (hu : Unchanged [.pins] s u) (h : Frame L u t)
    (hc : u.pins.mgmtCarrier = s.pins.mgmtCarrier) : Spares (.pins :: L) s t := by
  refine ⟨(hu.mono (by simp)).trans (h.parts.mono fun p hp => ?_), fun hcar => ?_⟩
  · simp only [List.mem_cons] at hp ⊢; tauto
  · obtain ⟨hr, hw⟩ := h.steady (hc.trans hcar)
    exact ⟨hr.trans (hu .replies (by decide)), hw.trans (hu .restart (by decide))⟩

/-! ### A carrier-gained event -/

/-- A link that a carrier-gained event has found DOWN. -/
def Link.gained (l : Link) (time : Nat) : Link := { l with state := .syncing, reason := .carrierGained, changed := time }

/-- The notice of a carrier-gained event at a link that was DOWN. -/
def gainedNotice (time k : Nat) : Notice := ⟨.server k, .linkState .down .syncing .carrierGained time⟩

theorem link_moveLink (srv : Nat) (a : LinkState) (w : LinkReason) (s : State) (j : Nat) :
    link (moveLink srv a w s) j = if srv = j then { link s j with state := a, reason := w, changed := now s } else link s j := by
  have hn (t : State) (o : LinkState) : link (notifyLink srv o a w t) j = link t j := by
    unfold link notifyLink notify raise
    rw [pump_lu_links]
  rw [moveLink, hn, changeLink, link_setLink]
  split
  · rename_i h; subst h; rfl
  · rfl

theorem link_linkGains (srv : Nat) (s : State) (j : Nat) :
    link (linkGains srv s) j = if srv = j ∧ (link s j).state = .down then (link s j).gained (now s) else link s j := by
  unfold linkGains
  split
  · rename_i hd
    rw [link_moveLink]
    by_cases hj : srv = j
    · subst hj; rw [if_pos rfl, if_pos ⟨rfl, hd⟩]; rfl
    · rw [if_neg hj, if_neg fun h => hj h.1]
  · rename_i hd
    rw [if_neg]
    rintro ⟨rfl, h⟩
    exact hd h

theorem linkGains_noticed (srv : Nat) (s : State) :
    Noticed (if (link s srv).state = .down then [gainedNotice (now s) srv] else []) s (linkGains srv s) := by
  unfold linkGains
  split
  · rename_i hd
    have h := moveLink_noticed srv .syncing .carrierGained s
    rw [hd] at h
    exact h
  · exact Noticed.refl s

theorem linkGains_frame (srv : Nat) (s : State) : Frame (.links :: raiseParts) s (linkGains srv s) := by
  unfold linkGains
  split
  · exact moveLink_frame _ _ _ s
  · exact Frame.refl _ s

theorem Frame.now {L : List Part} {s t : State} (h : Frame L s t)
    (hp : Part.clock ∉ Part.replies :: Part.restart :: L := by decide) : Machine.now t = Machine.now s := (h.same .clock hp).2.1

/-- Carrier-gained events at several ports, one after another. -/
def gainAll (l : List Nat) (s : State) : State := l.foldl (fun s k => linkGains k s) s

theorem gainAll_frame (l : List Nat) (s : State) : Frame (.links :: raiseParts) s (gainAll l s) :=
  Frame.foldl (fun s k => linkGains_frame k s) l s

theorem link_gainAll {l : List Nat} (hl : l.Nodup) (s : State) (j : Nat) :
    link (gainAll l s) j = if j ∈ l ∧ (link s j).state = .down then (link s j).gained (now s) else link s j := by
  induction l generalizing s with
  | nil => simp [gainAll]
  | cons k r ih =>
    obtain ⟨hk, hr⟩ := List.nodup_cons.1 hl
    change link (gainAll r (linkGains k s)) j = _
    rw [ih hr, (linkGains_frame k s).now, link_linkGains]
    by_cases hj : k = j
    · subst hj
      by_cases hd : (link s k).state = .down <;> simp [hk, hd]
    · simp [hj, Ne.symm hj]

theorem gainAll_noticed {l : List Nat} (hl : l.Nodup) (s : State) :
    Noticed ((l.filter fun k => decide ((link s k).state = .down)).map (gainedNotice (now s))) s (gainAll l s) := by
  induction l generalizing s with
  | nil => exact Noticed.refl s
  | cons k r ih =>
    obtain ⟨hk, hr⟩ := List.nodup_cons.1 hl
    have hrest : (r.filter fun j => decide ((link (linkGains k s) j).state = .down))
        = r.filter fun j => decide ((link s j).state = .down) := by
      refine List.filter_congr fun j hj => ?_
      have hne : k ≠ j := fun h => hk (h ▸ hj)
      rw [link_linkGains, if_neg fun h => hne h.1]
    have h := (linkGains_noticed k s).trans (ih hr (linkGains k s))
    rw [hrest, (linkGains_frame k s).now] at h
    change Noticed _ s (gainAll r (linkGains k s))
    rw [List.filter_cons]
    by_cases hd : (link s k).state = .down
    · simpa [hd] using h
    · simpa [hd] using h

/-! ### The three clauses -/

/-- The reset line released. -/
theorem resetRelease_gains (s : State) (hr : s.pins.resetHeld = true) : ∃ t, exec .resetRelease s = .next t
    ∧ t.pins = { s.pins with resetHeld := false }
    ∧ (∀ srv : ServerId, link t srv =
        if carrier s srv = true ∧ (link s srv).state = .down then
          { link s srv with state := .syncing, reason := .carrierGained, changed := now s }
        else link s srv)
    ∧ Raises ((serverList.filter fun k => carrier s k && decide ((link s k).state = .down)).map fun k =>
        ⟨.server k, .linkState .down .syncing .carrierGained (now s)⟩) s t
    ∧ Spares (.pins :: .links :: raiseParts) s t := by
  have hnodup : (serverList.filter (carrier s)).Nodup := List.Nodup.filter _ (by decide)
  let u : State := { s with pins := { s.pins with resetHeld := false } }
  have he : exec .resetRelease s = .next (gainAll (serverList.filter (carrier s)) u) := by
    change Host.Outcome.next (if s.pins.resetHeld = true then releaseReset s else s) = _
    rw [if_pos hr]
    rfl
  have hf := gainAll_frame (serverList.filter (carrier s)) u
  refine ⟨_, he, hf.pins, fun srv => ?_, ?_, Frame.spares_pins (resetWrite_unchanged _ s) hf rfl⟩
  · rw [link_gainAll hnodup]
    have hmem : srv.val ∈ serverList.filter (carrier s) ↔ carrier s srv = true := by
      rw [List.mem_filter]
      have : srv.val ∈ serverList := by simp [serverList]; omega
      simp [this]
    simp only [hmem]
    rfl
  · have hn : Noticed _ u _ := gainAll_noticed hnodup u
    rw [List.filter_filter] at hn
    have hswap : (fun k => carrier s k && decide ((link s k).state = .down))
        = fun k => decide ((link u k).state = .down) && carrier s k := funext fun k => Bool.and_comm _ _
    rw [hswap]
    exact ((Noticed.nil (s := s) (t := u) (by rfl)).silent_trans hn).raises

/-- A port's carrier gained. -/
theorem carrierGained_gains (srv : ServerId) (s : State) (hr : s.pins.resetHeld = false) (hc : carrier s srv = false) :
    ∃ t, exec (.carrierGained srv) s = .next t
      ∧ (∀ j, carrier t j = (decide (j = srv.val) || carrier s j)) ∧ t.pins.mgmtCarrier = s.pins.mgmtCarrier
      ∧ link t srv =
          (if (link s srv).state = .down then
            { link s srv with state := .syncing, reason := .carrierGained, changed := now s, rx := .hunting }
          else { link s srv with rx := .hunting })
      ∧ (∀ j, j ≠ srv.val → link t j = link s j)
      ∧ Raises (if (link s srv).state = .down then [⟨.server srv, .linkState .down .syncing .carrierGained (now s)⟩] else []) s t
      ∧ Spares (.pins :: .links :: raiseParts) s t := by
  let u : State := setCarrier srv true s
  let w : State := huntServer srv u
  have he : exec (.carrierGained srv) s = .next (linkGains srv w) := by
    change Host.Outcome.next (carrierGained srv s) = _
    unfold carrierGained
    rw [hc]
    change Host.Outcome.next (if s.pins.resetHeld = true then u else linkGains srv w) = _
    rw [hr]
    rfl
  have hlink : link w srv = { link s srv with rx := .hunting } := link_setLink_same u srv _
  have hstate : (link w srv).state = (link s srv).state := by rw [hlink]
  have hf : Frame (.links :: raiseParts) u (linkGains srv w) :=
    (linkGains_frame srv w).after (by decide) ((setLink_frame _ _ u).into (by decide))
  refine ⟨_, he, fun j => ?_, (congrArg Pins.mgmtCarrier hf.pins).trans rfl, ?_, fun j hj => ?_, ?_,
    Frame.spares_pins (setCarrier_unchanged _ _ s) hf rfl⟩
  · rw [← carrier_setCarrier_true]
    unfold carrier
    rw [hf.pins]
  · rw [link_linkGains, hstate, hlink]
    split
    · rename_i h; rw [if_pos h.2]; rfl
    · rename_i h; rw [if_neg fun hd => h ⟨rfl, hd⟩]
  · rw [link_linkGains, if_neg fun h => hj h.1.symm]
    exact link_setLink_ne u _ hj
  · have hn := (Noticed.nil (s := s) (t := w) (by rfl)).silent_trans (linkGains_noticed srv w)
    rw [hstate] at hn
    exact hn.raises

/-- Settles O4. -/
theorem carriersGainedSync : Obligations.CarriersGainedSync := by
  refine ⟨resetRelease_gains, carrierGained_gains, fun srv s hr => ⟨?_, ?_⟩⟩
  · by_cases hc : carrier s srv = true
    · refine ⟨s, ?_, fun j => ?_, hr, rfl, Unchanged.refl _ s⟩
      · change Host.Outcome.next (carrierGained srv s) = _
        simp [carrierGained, hc]
      · by_cases hj : j = srv.val
        · subst hj; simp [hc]
        · simp [hj]
    · refine ⟨setCarrier srv true s, ?_, fun j => carrier_setCarrier_true srv j s, hr, rfl, setCarrier_unchanged _ _ s⟩
      change Host.Outcome.next (carrierGained srv s) = _
      unfold carrierGained
      rw [if_neg hc]
      exact congrArg Host.Outcome.next (if_pos hr)
  · by_cases hc : carrier s srv = true
    · refine ⟨setCarrier srv false s, ?_, fun j => carrier_setCarrier_false srv j s, hr, rfl, setCarrier_unchanged _ _ s⟩
      change Host.Outcome.next (carrierLost srv s) = _
      unfold carrierLost
      rw [if_pos hc]
      exact congrArg Host.Outcome.next (if_pos hr)
    · refine ⟨s, ?_, fun j => ?_, hr, rfl, Unchanged.refl _ s⟩
      · change Host.Outcome.next (carrierLost srv s) = _
        simp [carrierLost, hc]
      · by_cases hj : j = srv.val
        · subst hj; simpa using hc
        · simp [hj]

end Sys2Proof.Machine
end

