-- ==== Sys2Proof/Proofs/SilentWork.lean ====
section
/-! SUPPORT. Work that raises no notice: the grants, orders handed over, and the Enforcement Table with nothing in it. -/

namespace Sys2Proof.Machine

theorem Noticed.foldl_silent {β : Type} {f : State → β → State} (h : ∀ s b, Noticed [] s (f s b)) (l : List β) (s : State) :
    Noticed [] s (l.foldl f s) := by
  induction l generalizing s with
  | nil => exact Noticed.refl s
  | cons b r ih => exact (h s b).trans (ih _)

theorem setCredit_silent (i : Nat) (r : Credit) (s : State) : Noticed [] s (setCredit i r s) := rfl
theorem setRestoreJob_silent (i : Nat) (r : RestoreJob) (s : State) : Noticed [] s (setRestoreJob i r s) := rfl
theorem setDupJob_silent (i : Nat) (r : DupJob) (s : State) : Noticed [] s (setDupJob i r s) := rfl
theorem setSnap_silent (i : Nat) (r : Snap) (s : State) : Noticed [] s (setSnap i r s) := rfl
theorem issue_silent (srv : Nat) (b : OrderBody) (s : State) : Noticed [] s (issue srv b s).1 := rfl

theorem presentAll_silent (s : State) : Noticed [] s (presentAll s) :=
  Noticed.foldl_silent (fun _ _ => setCredit_silent _ _ _) _ s

theorem returnShip_silent (srv : Nat) (s : State) : Noticed [] s (returnShip srv s) := by
  unfold returnShip
  dsimp only
  split
  · exact Noticed.refl s
  · exact setCredit_silent _ _ s

theorem grantRestore_silent (srv id : Nat) (j : RestoreJob) (s : State) : Noticed [] s (grantRestore srv id j s) := by
  unfold grantRestore
  split
  · exact Noticed.refl s
  · exact (setCredit_silent _ _ s).trans ((issue_silent _ _ _).trans (setRestoreJob_silent _ _ _))

theorem formBatch_silent (srv v : Nat) (j : DupJob) (s : State) : Noticed [] s (formBatch srv v j s) := by
  have h1 (m : Nat) (x : Option Nat) (t : State) : Noticed [] t { t with dc := { t.dc with remaining := m, turn := x } } := rfl
  unfold formBatch
  exact (issue_silent _ _ s).trans ((setDupJob_silent _ _ _).trans (h1 _ _ _))

theorem grantDup_silent (srv : Nat) (s : State) : Noticed [] s (grantDup srv s) := by
  unfold grantDup
  dsimp only
  have h := setCredit_silent srv { credit s srv with ship := (credit s srv).ship + 1, free := (credit s srv).free - 1 } s
  split
  · exact h.trans ((returnShip_silent _ _).trans (presentAll_silent _))
  · split
    · exact h.trans ((returnShip_silent _ _).trans (presentAll_silent _))
    · exact h.trans ((formBatch_silent _ _ _ _).trans (presentAll_silent _))

theorem grantLoop_silent (srv n : Nat) (s : State) : Noticed [] s (grantLoop srv n s) := by
  induction n generalizing s with
  | zero => exact Noticed.refl s
  | succ n ih =>
    rw [grantLoop]
    split
    · exact Noticed.refl s
    · split
      · exact (grantRestore_silent _ _ _ s).trans (ih _)
      · split
        · exact (grantDup_silent _ s).trans (ih _)
        · exact Noticed.refl s

theorem grantAll_silent (s : State) : Noticed [] s (grantAll s) :=
  (presentAll_silent s).trans (Noticed.foldl_silent (fun _ _ => grantLoop_silent _ _ _) _ _)

theorem handDrop_silent (id : Nat) (s : State) : Noticed [] s (handDrop id s) := by
  unfold handDrop
  split
  · exact Noticed.refl s
  · dsimp only
    split
    · exact (issue_silent _ _ s).trans (setSnap_silent _ _ _)
    · exact Noticed.refl s

theorem resendDrops_silent (srv : Nat) (s : State) : Noticed [] s (resendDrops srv s) :=
  Noticed.foldl_silent (fun _ _ => handDrop_silent _ _) _ s

/-! ### The Enforcement Table with nothing in it -/

theorem handWants_of_empty {s : State} (h : s.et.table = []) : handWants s = s := by
  unfold handWants
  rw [h]
  rfl

theorem testRemovals_of_empty {s : State} (h : s.et.table = []) : testRemovals s = s := by
  unfold testRemovals
  rw [h]
  rfl

theorem enforceEnter_of_empty {s : State} (h : s.et.table = []) (srv : Nat) :
    enforceEnter srv s = { s with et := { s.et with table := [] } } := by
  have ht : (s.et.table.map fun e =>
      if e.2.want = .allow then (e.1, withPart srv { status := .confirmed, inFlight := none, mark := none } e.2) else e) = [] := by
    rw [h]; rfl
  unfold enforceEnter
  dsimp only
  rw [ht, testRemovals_of_empty (by rfl), handWants_of_empty (by rfl)]

theorem enforceEnter_silent {s : State} (h : s.et.table = []) (srv : Nat) : Noticed [] s (enforceEnter srv s) := by
  rw [enforceEnter_of_empty h]
  exact Noticed.nil (by rfl)

end Sys2Proof.Machine
end

