-- ==== Sys2Proof/Proofs/DeniedSetResent.lean ====
section
/-! SUPPORT. The denied set sent again to a link that enters UP (R105, R108, R112): an account of one server's parts of the deny
table, which every test of R108 and R110 keeps, and of the DROP_SNAP orders sent with it (R130). -/

namespace Sys2Proof.Machine

/-! ### What handing over an order leaves -/

theorem Link.Grown.orders {l m : Link} (h : l.Grown m) {o : Order} (ho : o ∈ l.orders) : o ∈ m.orders := by
  obtain ⟨_, _, _, rfl, -⟩ := h
  exact List.mem_append_left _ ho

theorem Link.Grown.txQueue {l m : Link} (h : l.Grown m) {f : TxFrame} (hf : f ∈ l.txQueue) : f ∈ m.txQueue := by
  obtain ⟨_, _, _, rfl, -⟩ := h
  exact List.mem_append_left _ hf

theorem Link.Grown.head {l m : Link} (h : l.Grown m) {f : TxFrame} (hf : l.txQueue.head? = some f) : m.txQueue.head? = some f := by
  obtain ⟨_, _, _, rfl, -⟩ := h
  obtain ⟨x, hx⟩ : ∃ x, l.txQueue = f :: x := List.head?_eq_some_iff.1 hf
  simp [hx]

theorem issue_orders (srv : Nat) (b : OrderBody) (s : State) :
    ⟨(link s srv).counter, b.kind⟩ ∈ (link (issue srv b s).1 srv).orders
      ∧ .order (link s srv).counter b ∈ (link (issue srv b s).1 srv).txQueue := by
  simp only [issue]
  rw [link_setLink_same]
  exact ⟨List.mem_append_right _ (List.mem_singleton.2 rfl), List.mem_append_right _ (List.mem_singleton.2 rfl)⟩

theorem tget_map {α : Type} (f : α → α) (t : Tab α) (k : Nat) : tget (t.map fun e => (e.1, f e.2)) k = (tget t k).map f := by
  induction t with
  | nil => rfl
  | cons x r ih =>
    simp only [List.map_cons, tget]
    split
    · rfl
    · exact ih

theorem mem_tkeys_of_tget {α : Type} {t : Tab α} {k : Nat} {v : α} (h : tget t k = some v) : k ∈ tkeys t :=
  List.mem_map_of_mem (f := Prod.fst) (mem_of_tget h)

theorem denyPart_withPart (srv j : Nat) (p : ServerPart) (e : DenyEntry) :
    denyPart (withPart srv p e) j = if srv = j then p else denyPart e j := tgetD_tsetD _ _ _ _ _

theorem wantOrder_deny (s : State) (sub : Subject) : wantOrder s sub .deny = .deny sub (userOf s sub) := by
  cases sub <;> rfl

/-! ### One server's parts of the deny table -/

/-- The DENY of the entry at a key is in flight on the server, as the entry's part says. -/
def DenySent (srv : Nat) (ref : State) (key : Nat) (e : DenyEntry) (s : State) : Prop :=
  ∃ n, denyPart e srv = ⟨.sent, some ⟨n, .deny⟩, none⟩ ∧ ⟨n, .deny⟩ ∈ (link s srv).orders
    ∧ .order n (.deny (subjectOfKey key) (userOf ref (subjectOfKey key))) ∈ (link s srv).txQueue

/-- A link that is entering UP: every entry wanting ALLOW is confirmed for the server, every other one has its DENY in flight
or is about to have it handed over. The userNumbers are those of a state. -/
structure Resending (srv : Nat) (ref s : State) : Prop where
  up : linkUp s srv = true
  users : ∀ sub, userOf s sub = userOf ref sub
  allowed : ∀ k e, tget s.et.table k = some e → e.want = .allow → denyPart e srv = ⟨.confirmed, none, none⟩
  denied : ∀ k e, tget s.et.table k = some e → e.want = .deny → denyPart e srv = ServerPart.fresh ∨ DenySent srv ref k e s

/-- The order of the entry at a key has been handed over. -/
def NoneFresh (srv : Nat) (k : Nat) (s : State) : Prop := ∀ e, tget s.et.table k = some e → denyPart e srv ≠ ServerPart.fresh

theorem DenySent.grown {srv key : Nat} {ref s t : State} {e : DenyEntry} (h : DenySent srv ref key e s)
    (hg : (link s srv).Grown (link t srv)) : DenySent srv ref key e t := by
  obtain ⟨n, hp, ho, hf⟩ := h
  exact ⟨n, hp, hg.orders ho, hg.txQueue hf⟩

theorem userOf_congr {s t : State} (h : t.book.principals = s.book.principals) (sub : Subject) : userOf t sub = userOf s sub := by
  cases sub with
  | principal i => simp only [userOf, principal, h]
  | group i => rfl

/-- The result of the test of R108 for an entry and a server. -/
theorem handWant_cases (key j : Nat) (s : State) : handWant key j s = s ∧ (∀ e, tget s.et.table key = some e →
      ¬(linkUp s j = true ∧ (denyPart e j).status = .notSent ∧ (denyPart e j).inFlight = none))
    ∨ ∃ e, tget s.et.table key = some e ∧ linkUp s j = true ∧ (denyPart e j).status = .notSent ∧ (denyPart e j).inFlight = none
      ∧ handWant key j s = setDeny key (withPart j { denyPart e j with status := .sent, inFlight := some ⟨(link s j).counter, e.want⟩ } e)
          (issue j (wantOrder s (subjectOfKey key) e.want) s).1 := by
  unfold handWant
  split
  · rename_i hn
    exact .inl ⟨rfl, fun e he => by rw [hn] at he; cases he⟩
  · rename_i e he
    dsimp only
    split
    · rename_i hc
      exact .inr ⟨e, he, hc.1, hc.2.1, hc.2.2, rfl⟩
    · rename_i hc
      refine .inl ⟨rfl, fun e' he' => ?_⟩
      rw [he] at he'
      cases he'
      exact hc

theorem handWant_table {key j : Nat} {s : State} {e : DenyEntry} {p : ServerPart} {b : OrderBody} (k : Nat) :
    tget (setDeny key (withPart j p e) (issue j b s).1).et.table k = if key = k then some (withPart j p e) else tget s.et.table k :=
  tget_tput _ _ _ _

theorem handWant_resending {srv : Nat} {ref s : State} (h : Resending srv ref s) (key j : Nat) :
    Resending srv ref (handWant key j s) := by
  have hw := handWant_work key j s
  have hf := handWant_frame key j s
  refine ⟨(hw.linkUp srv).trans h.up, fun sub => (userOf_congr (hf.same .principals (by decide)) sub).trans (h.users sub), ?_, ?_⟩
  all_goals
    intro k e he hwant
    obtain ⟨heq, -⟩ | ⟨old, hold, hup, hst, hnone, heq⟩ := handWant_cases key j s
  · rw [heq] at he; exact h.allowed k e he hwant
  · rw [heq, handWant_table] at he
    split at he
    · cases he
      have hc := h.allowed key old hold hwant
      rw [denyPart_withPart]
      split
      · rename_i hj; subst hj; rw [hc] at hst; cases hst
      · exact hc
    · exact h.allowed k e he hwant
  · rw [heq] at he ⊢; exact h.denied k e he hwant
  · have hsent : ∀ x : DenyEntry, DenySent srv ref k x s → DenySent srv ref k x (handWant key j s) := fun _ hx => hx.grown (hw.links srv)
    rw [heq, handWant_table] at he
    split at he
    · rename_i hk
      subst hk
      cases he
      have hwant' : old.want = .deny := hwant
      have hp := h.denied key old hold hwant
      by_cases hj : j = srv
      · subst hj
        have hfresh : denyPart old j = ServerPart.fresh := hp.resolve_right fun ⟨n, hn, _⟩ => by rw [hn] at hst; cases hst
        refine .inr ⟨(link s j).counter, ?_, ?_, ?_⟩
        · rw [denyPart_withPart, if_pos rfl, hfresh, hwant']
          rfl
        · rw [heq, hwant', wantOrder_deny]
          exact (issue_orders j (.deny (subjectOfKey key) (userOf s (subjectOfKey key))) s).1
        · rw [heq, hwant', wantOrder_deny, ← h.users]
          exact (issue_orders j (.deny (subjectOfKey key) (userOf s (subjectOfKey key))) s).2
      · have hpart (p : ServerPart) : denyPart (withPart j p old) srv = denyPart old srv := by rw [denyPart_withPart, if_neg hj]
        rw [hpart]
        refine hp.imp_right fun hs => ?_
        obtain ⟨n, hn, ho, hfr⟩ := hsent old hs
        exact ⟨n, (hpart _).trans hn, ho, hfr⟩
    · exact (h.denied k e he hwant).imp_right (hsent e)

theorem handWant_noneFresh {srv k : Nat} {s : State} (h : NoneFresh srv k s) (key j : Nat) : NoneFresh srv k (handWant key j s) := by
  intro e he
  obtain ⟨heq, -⟩ | ⟨old, hold, -, -, -, heq⟩ := handWant_cases key j s
  · rw [heq] at he; exact h e he
  · rw [heq, handWant_table] at he
    split at he
    · rename_i hk
      subst hk
      cases he
      rw [denyPart_withPart]
      split
      · exact fun hn => by cases congrArg ServerPart.status hn
      · exact h old hold
    · exact h e he

/-- After the test for its server no entry is about to have its order handed over. -/
theorem handWant_hands {srv : Nat} {s : State} (h : linkUp s srv = true) (key : Nat) : NoneFresh srv key (handWant key srv s) := by
  intro e he
  obtain ⟨heq, hno⟩ | ⟨old, hold, -, -, -, heq⟩ := handWant_cases key srv s
  · rw [heq] at he
    exact fun hn => hno e he ⟨h, by rw [hn]; rfl, by rw [hn]; rfl⟩
  · rw [heq, handWant_table, if_pos rfl] at he
    cases he
    rw [denyPart_withPart, if_pos rfl]
    exact fun hn => by cases congrArg ServerPart.status hn

theorem handWant_absent {key j k : Nat} {s : State} (h : tget s.et.table k = none) : tget (handWant key j s).et.table k = none := by
  obtain ⟨heq, -⟩ | ⟨old, hold, -, -, -, heq⟩ := handWant_cases key j s
  · rw [heq]; exact h
  · rw [heq, handWant_table, if_neg, h]
    rintro rfl
    rw [h] at hold
    cases hold

/-- A property that one operation keeps is kept by a series of them. -/
theorem foldl_keeps {β : Type} {f : State → β → State} {P : State → Prop} (hf : ∀ s b, P s → P (f s b)) (l : List β) {s : State}
    (h : P s) : P (l.foldl f s) := by
  induction l generalizing s with
  | nil => exact h
  | cons b r ih => exact ih (hf s b h)

/-- What an operation brings about for its own item, and every other one keeps, holds for every item of a series. -/
theorem foldl_brings {β : Type} {f : State → β → State} {I : State → Prop} {P : β → State → Prop} (hI : ∀ s b, I s → I (f s b))
    (hb : ∀ s b, I s → P b (f s b)) (hk : ∀ s b c, P b s → P b (f s c)) {l : List β} {s : State} (h : I s) {b : β}
    (hm : b ∈ l) : P b (l.foldl f s) := by
  induction l generalizing s with
  | nil => cases hm
  | cons c r ih =>
    rcases List.mem_cons.1 hm with rfl | hm
    · exact foldl_keeps (fun s c hp => hk s b c hp) r (hb s b h)
    · exact ih (hI s c h) hm

theorem mem_serverList (srv : ServerId) : srv.val ∈ serverList := List.mem_range.2 srv.isLt

theorem handWant_up {srv : Nat} (s : State) (key j : Nat) (h : linkUp s srv = true) : linkUp (handWant key j s) srv = true :=
  ((handWant_work key j s).linkUp srv).trans h

/-- The tests of R108 for one entry. -/
def handRow (key : Nat) (s : State) : State := serverList.foldl (fun s srv => handWant key srv s) s

theorem handWants_eq (s : State) : handWants s = (tkeys s.et.table).foldl (fun s key => handRow key s) s := rfl

theorem handRow_keeps {P : State → Prop} (hP : ∀ s key j, P s → P (handWant key j s)) {key : Nat} {s : State} (h : P s) :
    P (handRow key s) := foldl_keeps (f := fun s j => handWant key j s) (fun s j hp => hP s key j hp) _ h

theorem handRow_keepsFresh {srv k : Nat} {s : State} (h : NoneFresh srv k s) (key : Nat) : NoneFresh srv k (handRow key s) :=
  handRow_keeps (P := NoneFresh srv k) (fun _ a j hp => handWant_noneFresh hp a j) h

theorem handRow_up {srv : Nat} (s : State) (key : Nat) (h : linkUp s srv = true) : linkUp (handRow key s) srv = true :=
  handRow_keeps (P := fun s => linkUp s srv = true) handWant_up h

theorem handWants_keeps {P : State → Prop} (hP : ∀ s key j, P s → P (handWant key j s)) {s : State} (h : P s) :
    P (handWants s) := foldl_keeps (f := fun s key => handRow key s) (fun _ _ hp => handRow_keeps hP hp) _ h

theorem handWants_resending {srv : Nat} {ref s : State} (h : Resending srv ref s) : Resending srv ref (handWants s) :=
  handWants_keeps (P := Resending srv ref) (fun _ key j h => handWant_resending h key j) h

theorem handRow_noneFresh {srv : ServerId} {s : State} (h : linkUp s srv = true) (key : Nat) :
    NoneFresh srv key (handRow key s) :=
  foldl_brings (f := fun s j => handWant key j s) (I := fun s => linkUp s srv = true)
    (P := fun j s => j = srv.val → NoneFresh srv key s) (fun s j hu => handWant_up s key j hu)
    (fun s j hu hj => by subst hj; exact handWant_hands hu key)
    (fun _ _ c hp hj => handWant_noneFresh (hp hj) key c) h (mem_serverList srv) rfl

/-- The tests of R108 leave no entry about to have its order handed over to a link that is UP. -/
theorem handWants_noneFresh {srv : ServerId} {s : State} (h : linkUp s srv = true) (k : Nat) : NoneFresh srv k (handWants s) := by
  cases hk : tget s.et.table k with
  | some v =>
    exact foldl_brings (f := fun s key => handRow key s) (I := fun s => linkUp s srv = true)
      (P := fun key s => NoneFresh srv key s) handRow_up (fun _ key hu => handRow_noneFresh hu key)
      (fun _ _ c hp => handRow_keepsFresh hp c) h (mem_tkeys_of_tget hk)
  | none =>
    have hn : tget (handWants s).et.table k = none :=
      handWants_keeps (P := fun s => tget s.et.table k = none) (fun _ _ _ hp => handWant_absent hp) hk
    intro e he
    rw [hn] at he
    cases he

theorem Resending.of_same {srv : Nat} {ref s t : State} (h : Resending srv ref s) (hl : t.lu.links = s.lu.links)
    (hp : t.book.principals = s.book.principals)
    (ht : ∀ k e, tget t.et.table k = some e → tget s.et.table k = some e ∨ e = newDeny) : Resending srv ref t := by
  have hlink : ∀ j, link t j = link s j := fun j => by unfold link; rw [hl]
  refine ⟨by unfold linkUp; rw [hlink]; exact h.up, fun sub => (userOf_congr hp sub).trans (h.users sub), fun k e he hw => ?_,
    fun k e he hw => ?_⟩
  · rcases ht k e he with he | rfl
    · exact h.allowed k e he hw
    · cases hw
  · rcases ht k e he with he | rfl
    · exact (h.denied k e he hw).imp_right fun hs => hs.grown (by rw [hlink]; exact Link.Grown.refl _)
    · exact .inl rfl

theorem admitBacklog_resending {srv : Nat} {ref s : State} (h : Resending srv ref s) : Resending srv ref (admitBacklog s) := by
  unfold admitBacklog
  split
  · exact h
  · rename_i sub rest _
    have h1 : Resending srv ref (setDeny (subjectKey sub) newDeny { s with et := { s.et with backlog := rest } }) :=
      h.of_same rfl rfl fun k e he => by
        rw [show tget (setDeny (subjectKey sub) newDeny { s with et := { s.et with backlog := rest } }).et.table k
          = if subjectKey sub = k then some newDeny else tget s.et.table k from tget_tput _ _ _ _] at he
        split at he
        · cases he; exact .inr rfl
        · exact .inl he
    dsimp only
    split
    · have hf := notifyBacklog_frame false (setDeny (subjectKey sub) newDeny { s with et := { s.et with backlog := rest } })
      exact h1.of_same (hf.same .links (by decide)) (hf.same .principals (by decide)) fun k e he => .inl (by
        rw [show (notifyBacklog false _).et.table = _ from hf.same .denyTable (by decide)] at he; exact he)
    · exact h1

theorem testRemoval_resending {srv : Nat} {ref s : State} (h : Resending srv ref s) (key : Nat) :
    Resending srv ref (testRemoval key s) := by
  unfold testRemoval
  split
  · exact h
  · split
    · refine admitBacklog_resending (h.of_same rfl rfl fun k e he => .inl ?_)
      have he : tget (tdel s.et.table key) k = some e := he
      rw [tget_tdel] at he
      split at he
      · cases he
      · exact he
    · exact h

theorem testRemovals_resending {srv : Nat} {ref s : State} (h : Resending srv ref s) : Resending srv ref (testRemovals s) :=
  foldl_keeps (f := fun s key => testRemoval key s) (P := fun s => Resending srv ref s)
    (fun _ key h => testRemoval_resending h key) _ h

/-- An entry when the link of a server enters UP: one wanting ALLOW is confirmed for it (R112). -/
def DenyEntry.entered (srv : Nat) (e : DenyEntry) : DenyEntry :=
  if e.want = .allow then withPart srv { status := .confirmed, inFlight := none, mark := none } e else e

theorem enforceEnter_eq (srv : Nat) (s : State) : enforceEnter srv s =
    handWants (testRemovals { s with et := { s.et with table := s.et.table.map fun e => (e.1, e.2.entered srv) } }) := by
  have hmap : (s.et.table.map fun e =>
        if e.2.want = .allow then (e.1, withPart srv { status := .confirmed, inFlight := none, mark := none } e.2) else e)
      = s.et.table.map fun e => (e.1, e.2.entered srv) := by
    refine List.map_congr_left fun e _ => ?_
    unfold DenyEntry.entered
    split <;> rfl
  unfold enforceEnter
  dsimp only
  rw [hmap]

/-- What the ET leaves for a server whose link has entered UP with no part of the table sent or confirmed (R112). -/
theorem enforceEnter_resends {srv : ServerId} {ref s : State} (hup : linkUp s srv = true)
    (husers : s.book.principals = ref.book.principals)
    (hfresh : ∀ k e, tget s.et.table k = some e → denyPart e srv = ServerPart.fresh) :
    ∀ k e, tget (enforceEnter srv s).et.table k = some e →
      (e.want = .allow → denyPart e srv = ⟨.confirmed, none, none⟩)
      ∧ (e.want = .deny → DenySent srv ref k e (enforceEnter srv s)) := by
  have hstart : Resending srv ref { s with et := { s.et with table := s.et.table.map fun e => (e.1, e.2.entered srv) } } := by
    refine ⟨hup, userOf_congr husers, fun k e he hw => ?_, fun k e he hw => .inl ?_⟩
    all_goals
      obtain ⟨x, hx, rfl⟩ := Option.map_eq_some_iff.1 ((tget_map (DenyEntry.entered srv) s.et.table k).symm.trans he)
      unfold DenyEntry.entered at hw ⊢
      split at hw
    · rw [if_pos ‹_›, denyPart_withPart, if_pos rfl]
    · exact absurd hw ‹_›
    · rename_i ha
      rw [show (withPart srv _ x).want = x.want from rfl, ha] at hw
      cases hw
    · rw [if_neg ‹_›]
      exact hfresh k x hx
  rw [enforceEnter_eq]
  have htests := testRemovals_resending hstart
  have hend := handWants_resending htests
  intro k e he
  exact ⟨hend.allowed k e he, fun hw => (hend.denied k e he hw).resolve_left (handWants_noneFresh htests.up k e he)⟩

end Sys2Proof.Machine
end

