-- ==== Sys2Proof/Proofs/LinksBroughtUp.lean ====
section
/-! PROOF. HELLO and RESYNC bring a link UP (O15): what every part of an entry leaves, put together. -/

namespace Sys2Proof.Machine

/-! ### The DROP_SNAP of the DROPPING records (R130) -/

/-- A DROPPING record's DROP_SNAP has been handed over to the server. -/
def DropSent (srv id : Nat) (x : Snap) (s : State) : Prop :=
  ∃ n, snap s id = some { x with inFlight := some n } ∧ ⟨n, .dropSnap⟩ ∈ (link s srv).orders
    ∧ .order n (.dropSnap x.volume id x.epoch) ∈ (link s srv).txQueue

theorem handDrop_cases (id : Nat) (s : State) : handDrop id s = s ∧ (∀ x, snap s id = some x →
      ¬(x.state = .dropping ∧ x.inFlight = none ∧ linkUp s (volume s x.volume).server = true))
    ∨ ∃ x, snap s id = some x ∧ x.state = .dropping ∧ x.inFlight = none
      ∧ handDrop id s = setSnap id { x with inFlight := some (link s (volume s x.volume).server).counter }
          (issue (volume s x.volume).server (.dropSnap x.volume id x.epoch) s).1 := by
  unfold handDrop
  split
  · rename_i hn
    exact .inl ⟨rfl, fun x hx => by rw [hn] at hx; cases hx⟩
  · rename_i x hx
    dsimp only
    split
    · rename_i hc
      exact .inr ⟨x, hx, hc.1, hc.2.1, rfl⟩
    · rename_i hc
      exact .inl ⟨rfl, fun y hy => by rw [hx] at hy; cases hy; exact hc⟩

theorem snap_setSnap_issue {id srv : Nat} {r : Snap} {b : OrderBody} {s : State} (k : Nat) :
    snap (setSnap id r (issue srv b s).1) k = if id = k then some r else snap s k := tget_tput _ _ _ _

/-- While the DROP_SNAP of a server's records are sent again: the server's link is UP, each record that waited for one still
waits or has it in flight, and a record with nothing in flight is as it was at first. -/
structure Redropping (srv : Nat) (s0 s : State) : Prop where
  up : linkUp s srv = true
  volumes : s.vt = s0.vt
  waiting : ∀ id x, snap s0 id = some x → x.state = .dropping → x.inFlight = none → (volume s0 x.volume).server = srv →
    snap s id = some x ∨ DropSent srv id x s
  idle : ∀ id x, snap s id = some x → x.inFlight = none → snap s0 id = some x

theorem handDrop_dropSent {srv id k : Nat} {x : Snap} {s : State} (h : DropSent srv id x s) : DropSent srv id x (handDrop k s) := by
  obtain ⟨n, hx, ho, hf⟩ := h
  have hg := (handDrop_work k s).links srv
  refine ⟨n, ?_, hg.orders ho, hg.txQueue hf⟩
  obtain ⟨heq, -⟩ | ⟨y, hy, -, hnone, heq⟩ := handDrop_cases k s
  · rw [heq]; exact hx
  · rw [heq, snap_setSnap_issue, if_neg, hx]
    rintro rfl
    rw [hy] at hx
    cases hx
    cases hnone

theorem handDrop_redropping {srv : Nat} {s0 s : State} (h : Redropping srv s0 s) (k : Nat) : Redropping srv s0 (handDrop k s) := by
  have hv := (handDrop_frame k s).same .volumes (by decide)
  refine ⟨((handDrop_work k s).linkUp srv).trans h.up, hv.trans h.volumes, fun id x hx hd hn hs => ?_, fun id x hx hn => ?_⟩
  · rcases h.waiting id x hx hd hn hs with hw | hw
    · obtain ⟨heq, -⟩ | ⟨y, hy, -, -, heq⟩ := handDrop_cases k s
      · rw [heq]; exact .inl hw
      · by_cases hk : k = id
        · subst hk
          rw [hy] at hw
          cases hw
          have hsrv : (volume s x.volume).server = srv := by unfold volume at hs ⊢; rw [h.volumes]; exact hs
          have ho := issue_orders srv (.dropSnap x.volume k x.epoch) s
          rw [heq, hsrv]
          exact .inr ⟨(link s srv).counter, by rw [snap_setSnap_issue, if_pos rfl], ho.1, ho.2⟩
        · rw [heq, snap_setSnap_issue, if_neg hk]
          exact .inl hw
    · exact .inr (handDrop_dropSent hw)
  · obtain ⟨heq, -⟩ | ⟨y, hy, -, -, heq⟩ := handDrop_cases k s
    · rw [heq] at hx; exact h.idle id x hx hn
    · rw [heq, snap_setSnap_issue] at hx
      split at hx
      · cases hx; cases hn
      · exact h.idle id x hx hn

/-- The records of a server that wait for their DROP_SNAP. -/
theorem mem_waitingDrops {srv id : Nat} {x : Snap} {s : State} (hs : tsorted s.sc.records = true) (hx : snap s id = some x)
    (hd : x.state = .dropping) (hn : x.inFlight = none) (hv : (volume s x.volume).server = srv) :
    id ∈ (s.sc.records.filter fun e => decide (e.2.state = .dropping) && decide (e.2.inFlight = none)
      && decide ((volume s e.2.volume).server = srv)).map Prod.fst :=
  List.mem_map.2 ⟨(id, x), List.mem_filter.2 ⟨(tget_eq_some_iff hs).1 hx, by simp [hd, hn, hv]⟩, rfl⟩

/-- Every DROPPING record of a server whose link is UP has a DROP_SNAP in flight once they are sent again. -/
theorem resendDrops_sends {srv : Nat} {s : State} (hu : linkUp s srv = true) (hs : tsorted s.sc.records = true) :
    (∀ id x, snap s id = some x → x.state = .dropping → x.inFlight = none → (volume s x.volume).server = srv →
        DropSent srv id x (resendDrops srv s))
      ∧ ∀ id x, snap (resendDrops srv s) id = some x → x.state = .dropping → (volume s x.volume).server = srv → x.inFlight ≠ none := by
  have h0 : Redropping srv s s := ⟨hu, rfl, fun _ _ hx _ _ _ => .inl hx, fun _ _ hx _ => hx⟩
  have hsent : ∀ id x, snap s id = some x → x.state = .dropping → x.inFlight = none → (volume s x.volume).server = srv →
      DropSent srv id x (resendDrops srv s) := fun id x hx hd hn hv =>
    foldl_brings (f := fun s id => handDrop id s) (I := Redropping srv s)
      (P := fun k t => k = id → DropSent srv id x t)
      (fun _ k h => handDrop_redropping h k)
      (fun t k h hk => by
        subst hk
        rcases (handDrop_redropping h k).waiting k x hx hd hn hv with hw | hw
        · exfalso
          obtain ⟨heq, hno⟩ | ⟨y, hy, -, -, heq⟩ := handDrop_cases k t
          · rw [heq] at hw
            refine hno x hw ⟨hd, hn, ?_⟩
            unfold volume at hv ⊢
            rw [h.volumes, hv]
            exact h.up
          · rw [heq, snap_setSnap_issue, if_pos rfl] at hw
            cases hw
            cases hn
        · exact hw)
      (fun _ _ _ hp hk => handDrop_dropSent (hp hk)) h0 (mem_waitingDrops hs hx hd hn hv) rfl
  have hend : Redropping srv s (resendDrops srv s) :=
    foldl_keeps (f := fun s id => handDrop id s) (P := Redropping srv s) (fun _ k h => handDrop_redropping h k) _ h0
  refine ⟨hsent, fun id x hx hd hv hn => ?_⟩
  obtain ⟨n, hx', -⟩ := hsent id x (hend.idle id x hx hn) hd hn hv
  rw [hx] at hx'
  have := congrArg Snap.inFlight (Option.some.inj hx')
  rw [hn] at this
  cases this

/-! ### What an entry leaves -/

/-- The state in which the grants that follow an entry are made. -/
def entered (srv : Nat) (how : Reentry) (old : LinkState) (s : State) : State :=
  resendDrops srv (enforceEnter srv (enterParting srv how old s))

theorem enterUp_grants (srv : Nat) (how : Reentry) (old : LinkState) (s : State) :
    enterUp srv how old s = grantAll (entered srv how old s) := rfl

theorem enterParting_frame (srv : Nat) (how : Reentry) (old : LinkState) (s : State) :
    Frame (.volumes :: .intakes :: .links :: raiseParts) s (enterParting srv how old s) :=
  (volumesEnter_frame _ _).after (by decide) ((setIntake_frame _ _ _).after (by decide)
    ((notifyLink_frame _ _ _ _ _).after (by decide) ((setLink_frame _ _ s).into (by decide))))

theorem enterUp_rest_frame (srv : Nat) (how : Reentry) (old : LinkState) (s : State) :
    Frame (.snaps :: grantParts) (enforceEnter srv (enterParting srv how old s)) (enterUp srv how old s) :=
  (grantAll_frame _).after (by decide) ((resendDrops_frame srv (enforceEnter srv (enterParting srv how old s))).into (by decide))

theorem volume_server_enterParting {s : State} (hs : tsorted s.vt = true) (srv : Nat) (how : Reentry) (old : LinkState) (v : Nat) :
    (volume (enterParting srv how old s) v).server = (volume s v).server := by
  rw [volume_enterParting hs]
  split <;> rfl

/-- Entries of the deny table after an entry into UP (R112), with the orders handed over in the link's table and queue. -/
theorem enterUp_resends {srv : ServerId} (how : Reentry) (old : LinkState) {s : State}
    (hfresh : ∀ k e, tget s.et.table k = some e → denyPart e srv = ServerPart.fresh) (k : Nat) (e : DenyEntry)
    (he : tget (enterUp srv how old s).et.table k = some e) :
    (e.want = .allow → denyPart e srv = ⟨.confirmed, none, none⟩)
      ∧ (e.want = .deny → DenySent srv s k e (enterUp srv how old s)) := by
  let p := enterParting srv how old s
  have hp := enterParting_frame srv how old s
  have hrest : Work (enforceEnter srv p) (enterUp srv how old s) := (grantAll_work _).after (resendDrops_work _ _)
  have htable : (enterUp srv how old s).et.table = (enforceEnter srv p).et.table :=
    (enterUp_rest_frame srv how old s).same .denyTable (by decide)
  rw [htable] at he
  obtain ⟨ha, hd⟩ := enforceEnter_resends (srv := srv) (ref := s) (enterParting_up srv how old s) (hp.same .principals (by decide))
    (fun k e he => hfresh k e (by rw [show p.et.table = s.et.table from hp.same .denyTable (by decide)] at he; exact he)) k e he
  exact ⟨ha, fun hw => (hd hw).grown (hrest.links srv)⟩

theorem snap_grantAll (s : State) (id : Nat) : snap (grantAll s) id = snap s id := by
  unfold snap
  rw [show (grantAll s).sc.records = s.sc.records from (grantAll_frame s).same .snaps (by decide)]

theorem volume_grantAll (s : State) (v : Nat) : volume (grantAll s) v = volume s v := by
  unfold volume
  rw [show (grantAll s).vt = s.vt from (grantAll_frame s).same .volumes (by decide)]

theorem volume_resendDrops (srv : Nat) (s : State) (v : Nat) : volume (resendDrops srv s) v = volume s v := by
  unfold volume
  rw [show (resendDrops srv s).vt = s.vt from (resendDrops_frame srv s).same .volumes (by decide)]

theorem DropSent.grantAll {srv id : Nat} {x : Snap} {s : State} (h : DropSent srv id x s) : DropSent srv id x (grantAll s) := by
  obtain ⟨n, hx, ho, hf⟩ := h
  have hg := (grantAll_work s).links srv
  exact ⟨n, by rw [snap_grantAll]; exact hx, hg.orders ho, hg.txQueue hf⟩

/-- DROPPING records after an entry into UP (R130). -/
theorem enterUp_redrops {srv : Nat} (how : Reentry) (old : LinkState) {s : State} (hv : tsorted s.vt = true)
    (hs : tsorted s.sc.records = true) :
    (∀ id x, snap s id = some x → x.state = .dropping → x.inFlight = none → (volume s x.volume).server = srv →
        DropSent srv id x (enterUp srv how old s))
      ∧ ∀ id x, snap (enterUp srv how old s) id = some x → x.state = .dropping →
          (volume (enterUp srv how old s) x.volume).server = srv → x.inFlight ≠ none := by
  have hup0 := enterParting_up srv how old s
  have hsc : (enforceEnter srv (enterParting srv how old s)).sc.records = s.sc.records :=
    ((enforceEnter_frame srv (enterParting srv how old s)).same .snaps (by decide)).trans
      ((enterParting_frame srv how old s).same .snaps (by decide))
  have hserver : ∀ v, (volume (enforceEnter srv (enterParting srv how old s)) v).server = (volume s v).server := fun v =>
    (((enforceEnter_work hup0).volumes v).server).trans (volume_server_enterParting hv srv how old v)
  have hup := ((enforceEnter_work hup0).linkUp srv).trans hup0
  rw [enterUp_eq]
  generalize enforceEnter srv (enterParting srv how old s) = e at hsc hserver hup ⊢
  have hsnap : ∀ id, snap e id = snap s id := fun id => by unfold snap; rw [hsc]
  obtain ⟨hsent, hall⟩ := resendDrops_sends (srv := srv) hup (by rw [hsc]; exact hs)
  refine ⟨fun id x hx hd hn hsrv => ?_, fun id x hx hd hsrv => ?_⟩
  · exact (hsent id x (by rw [hsnap]; exact hx) hd hn (by rw [hserver]; exact hsrv)).grantAll
  · rw [snap_grantAll] at hx
    rw [volume_grantAll, volume_resendDrops] at hsrv
    exact hall id x hx hd hsrv

/-- What an entry into UP leaves of its own server (R14, R46, R67, R112, R130). -/
theorem enterUp_entered {srv : ServerId} (how : Reentry) (old : LinkState) {s : State} (ht : Tables s) (hu : linkUp s srv = false) :
    HasEntered srv how s (enterUp srv how old s) := by
  have hw := enterUp_rest_work srv how old s
  have hl : link (enterParting srv how old s) srv = (link s srv).entered how (now s) := by
    rw [link_enterParting_eq, if_pos rfl]
  obtain ⟨os, fs, c, hgrown, hidle⟩ := hw.links srv
  have hvol := volume_enterParting ht.volumes.1 srv how old
  have hint : intake (enterUp srv how old s) srv = (intake s srv).entered how := by
    have h := intake_enterParting srv how old s srv
    unfold intake at h ⊢
    rw [hw.intakes, h, if_pos rfl]
  refine
    { link := ?_
      silence := ?_
      ack := (hw.links srv).head (by rw [hl]; rfl)
      intake := ?_
      volumes := fun v hv => ?_
      enforcement := fun hfresh => enterUp_resends how old (hfresh hu)
      drops := (enterUp_redrops how old ht.volumes.1 ht.snaps).2 }
  · rw [hgrown, hl]; exact ⟨rfl, rfl, rfl⟩
  · rw [hgrown, hl]; exact ⟨rfl, rfl⟩
  · rw [hint]; exact ⟨rfl, rfl⟩
  · rw [(hw.volumes v).state, hvol]
    by_cases hst : (volume s v).state = .stale
    · rw [if_pos ⟨hv, hst⟩, if_pos hst]
    · rw [if_neg fun h => hst h.2, if_neg hst]

/-- What an entry into UP leaves of the other servers. -/
theorem enterUp_others (srv : Nat) (how : Reentry) (old : LinkState) {s : State} (hs : tsorted s.vt = true) :
    OthersStay srv s (enterUp srv how old s) := by
  have hw := enterUp_rest_work srv how old s
  refine ⟨fun j hj => ?_, fun j hj => ?_, fun v hv => ?_⟩
  · obtain ⟨_, _, _, hgrown, -⟩ := hw.links j
    rw [hgrown, link_enterParting_eq, if_neg (Ne.symm hj)]
    exact ⟨rfl, rfl, rfl, rfl, rfl, rfl⟩
  · have h := intake_enterParting srv how old s j
    unfold intake at h ⊢
    rw [hw.intakes, h, if_neg (Ne.symm hj)]
  · rw [(hw.volumes v).state, volume_enterParting hs, if_neg fun h => hv h.1]

/-! ### What an entry raises -/

theorem volumeBack_server (s : State) (v j : Nat) : (volume (volumeBack s v) j).server = (volume s j).server := by
  rw [volume_volumeBack]; split <;> rfl

theorem volumeBack_frame (s : State) (v : Nat) : Frame (.volumes :: raiseParts) s (volumeBack s v) :=
  (notifyStale_frame _ _ _ _ _).after (by decide) ((setVolume_frame _ _ _).into (by decide))

theorem volumeBack_noticed (s : State) (v : Nat) :
    Noticed [⟨.volume v, .volumeStale false (volume s v).server .attached .link (now s)⟩] s (volumeBack s v) := by
  have hs : (volume (volumeTo v .attached s) v).server = (volume s v).server := by rw [volume_volumeTo, if_pos rfl]
  have h : Noticed [_] s (volumeBack s v) := (setVolume_silent v _ s).silent_trans (notify_noticed _ _ (volumeTo v .attached s))
  rw [hs] at h
  exact h

theorem volumesEnter_noticed {s : State} (hs : tsorted s.vt = true) (srv : Nat) :
    Noticed ((volumesOf s srv .stale).map fun v => ⟨.volume v, .volumeStale false srv .attached .link (now s)⟩) s (volumesEnter srv s) := by
  have hall : ∀ v ∈ volumesOf s srv .stale, (volume s v).server = srv := fun v hv =>
    ((mem_volumesOf hs (st := .stale) (by decide)).1 hv).1
  have key : ∀ (l : List Nat) (t : State), now t = now s → (∀ v ∈ l, (volume t v).server = srv) →
      Noticed (l.map fun v => ⟨.volume v, .volumeStale false srv .attached .link (now s)⟩) t (l.foldl volumeBack t) := by
    intro l
    induction l with
    | nil => exact fun t _ _ => Noticed.refl t
    | cons v r ih =>
      intro t hnow hserver
      have h1 := volumeBack_noticed t v
      rw [hserver v (List.mem_cons_self ..), hnow] at h1
      exact h1.trans (ih _ (by rw [(volumeBack_frame t v).now]; exact hnow) fun j hj => by
        rw [volumeBack_server]; exact hserver j (List.mem_cons_of_mem _ hj))
  exact key _ s rfl hall

theorem enterUp_noticed {srv : Nat} (how : Reentry) (old : LinkState) {s : State} (hs : tsorted s.vt = true)
    (he : s.et.table = []) :
    Noticed (⟨.server srv, .linkState old .up (reentryReason how) (now s)⟩
      :: (volumesOf s srv .stale).map fun v => ⟨.volume v, .volumeStale false srv .attached .link (now s)⟩) s (enterUp srv how old s) := by
  have h1 : Noticed [⟨.server srv, .linkState old .up (reentryReason how) (now s)⟩] s (entering srv how old s) :=
    (setLink_silent srv _ s).silent_trans ((notify_noticed _ _ (luEnter srv how s)).trans_silent (setIntake_silent _ _ _))
  have hnow : now (entering srv how old s) = now s :=
    Frame.now (L := .intakes :: .links :: raiseParts) ((setIntake_frame _ _ _).after (by decide)
      ((notifyLink_frame _ _ _ _ _).after (by decide) ((setLink_frame _ _ s).into (by decide))))
  have hvt := entering_vt srv how old s
  have hvols : volumesOf (entering srv how old s) srv .stale = volumesOf s srv .stale := by unfold volumesOf; rw [hvt]
  have h2 := volumesEnter_noticed (s := entering srv how old s) (by rw [hvt]; exact hs) srv
  rw [hnow, hvols] at h2
  have hempty : (enterParting srv how old s).et.table = [] := by
    rw [show (enterParting srv how old s).et.table = s.et.table from (enterParting_frame srv how old s).same .denyTable (by decide)]
    exact he
  exact (h1.trans h2).trans_silent ((enforceEnter_silent hempty srv).trans ((resendDrops_silent _ _).trans (grantAll_silent _)))

/-! ### HELLO and RESYNC -/

theorem Tables.frameArrived {s : State} (h : Tables s) (srv : Nat) : Tables (frameArrived srv s) :=
  { h with links := ⟨tsorted_tsetD _ _ _ _ h.links.1, tnoDefault_tsetD _ _ _ _ h.links.2⟩ }

/-- The command is what a frame that could bring the link up does. -/
theorem exec_reentry {srv : ServerId} {how : Reentry} {c : Instr} {s : State} (hc : c = (match how with
      | .hello => .hello srv
      | .resync => .resync srv)) (hr : serverReceives s srv = true) (hw : s.lu.restart ≠ .inProgress)
    (hst : (link s srv).state = .syncing ∨ ((link s srv).state = .faulted ∧ how = .resync)) : exec c s = .next (enterFrom srv how (frameArrived srv s)) := by
  subst hc
  cases how with
  | hello =>
    have hs : (link s srv).state = .syncing := hst.resolve_right fun h => by cases h.2
    change Host.Outcome.next (helloArrives srv s) = _
    unfold helloArrives
    simp [hr, hw, hs]
  | resync =>
    change Host.Outcome.next (resyncArrives srv s) = _
    unfold resyncArrives
    rcases hst with hs | ⟨hs, -⟩ <;> simp [hr, hw, hs]

/-- Settles O15. -/
theorem helloAndResyncBringTheLinkUp : Obligations.HelloAndResyncBringTheLinkUp := by
  intro srv how c s hr hw hst hc
  have hdown : linkUp s srv = false := hst.elim (fun h => linkUp_of_state h (by decide)) fun h => linkUp_of_state h.1 (by decide)
  have hne : (link s srv).state ≠ .up := linkUp_eq_false_iff.1 hdown
  let u := frameArrived srv s
  have hu : link u srv = { link s srv with rx := .hunting } := by rw [link_frameArrived_same, if_neg hne]
  have hup : linkUp u srv = false := by unfold linkUp at hdown ⊢; rw [hu]; exact hdown
  have hothers : ∀ j, j ≠ srv.val → link u j = link s j := fun j hj => link_setLink_ne s _ hj
  rw [exec_reentry hc hr hw hst]
  constructor
  · intro hd hh ht
    have htu : Tables u := ht.frameArrived srv
    have he : enterFrom srv how u = enterUp srv how (link s srv).state u := by
      have hstate : (link u srv).state = (link s srv).state := by rw [hu]
      have hno : ¬((intake u srv).draining = true ∨ (link u srv).held.isSome = true) := by
        rw [hu]
        change ¬((intake s srv).draining = true ∨ (link s srv).held.isSome = true)
        simp [hd, hh]
      unfold enterFrom
      dsimp only
      rw [if_neg hno, hstate]
    have hent := enterUp_entered how (link s srv).state htu hup
    have ho := enterUp_others srv how (link s srv).state htu.volumes.1
    refine ⟨_, congrArg _ he, ⟨hent.link, hent.silence, hent.ack, hent.intake, hent.volumes,
      fun hf => hent.enforcement fun _ => hf hdown, hent.drops⟩,
      (enterUp_redrops how _ htu.volumes.1 htu.snaps).1, fun hemp => ?_, ⟨fun j hj => ?_, ho.intakes, ho.volumes⟩, ?_⟩
    · exact ((setLink_silent srv _ s).silent_trans (enterUp_noticed how (link s srv).state htu.volumes.1 hemp)).raises
    · have := ho.links j hj
      rw [hothers j hj] at this
      exact this
    · exact ((enterUp_frame srv how (link s srv).state u).after (by decide) ((setLink_frame _ _ s).into (by decide))).spares
  · intro hd
    refine ⟨u, congrArg _ ?_, hu, hothers, setLink_unchanged _ _ s⟩
    unfold enterFrom
    dsimp only
    rw [if_pos]
    rw [hu]
    exact hd.imp id Option.isSome_iff_ne_none.2

end Sys2Proof.Machine
end

