-- ==== Sys2Proof/Proofs/LinksRestarted.lean ====
section
/-! SUPPORT. The links' part of a warm restart (R14, R20, R48, R68), one server after another. -/

namespace Sys2Proof.Machine

/-! ### What a link's restart leaves of the rest -/

/-- The parts that the links move when they restart with every job aborted. -/
abbrev quietLeaveParts : List Part :=
  [.mgmtTx, .busy, .slot, .queue, .sequence, .lostMark, .links, .denyTable, .backlog, .snaps, .volumes, .reserveOver, .credits,
    .intakes]

/-- Every job is aborted. -/
def NoJobs (s : State) : Prop := s.rsc.jobs = [] ∧ s.dc.jobs = []

theorem NoJobs.kept {L : List Part} {s t : State} (h : NoJobs s) (hf : Frame L s t)
    (hr : Part.restoreJobs ∉ Part.replies :: Part.restart :: L := by decide)
    (hd : Part.dupJobs ∉ Part.replies :: Part.restart :: L := by decide) : NoJobs t :=
  ⟨(show t.rsc.jobs = _ from hf.same .restoreJobs hr).trans h.1, (show t.dc.jobs = _ from hf.same .dupJobs hd).trans h.2⟩

/-- Orders failed back through a warm restart: only the catalog has anything to do. -/
theorem failBack_frame_of_noJobs {s : State} (h : NoJobs s) (srv : Nat) (o : Order) : Frame catalogParts s (failBack srv true s o) := by
  unfold failBack
  split
  · unfold snapFailedBack
    split
    · exact (cascade_frame _ _ _ s).into (by decide)
    · split
      · exact (setSnap_frame _ _ s).into (by decide)
      · exact Frame.refl _ s
  · unfold copyFailedBack
    rw [show findExtent s srv o.num = none by unfold findExtent; rw [h.1]; rfl]
    exact Frame.refl _ s
  · unfold shipFailedBack
    rw [show findBatch s srv o.num = none by unfold findBatch; rw [h.2]; rfl]
    exact Frame.refl _ s
  · exact Frame.refl _ s

theorem failBacks_frame_of_noJobs (srv : Nat) (os : List Order) {s : State} (h : NoJobs s) :
    Frame catalogParts s (os.foldl (failBack srv true) s) := by
  induction os generalizing s with
  | nil => exact Frame.refl _ s
  | cons o r ih =>
    have h1 := failBack_frame_of_noJobs h srv o
    exact h1.trans (ih (h.kept h1))

/-- The parts that a link's leaving moves before its orders are failed back. -/
abbrev partingParts : List Part := .volumes :: .links :: .credits :: .intakes :: raiseParts

theorem leaveParting_frame (srv : Nat) (a : LinkState) (w : LinkReason) (q : Bool) (s : State) :
    Frame partingParts s (leaveParting srv a w q s) := by
  have h : Frame partingParts s (resetCredits srv (volumesLeave srv q (changeLink srv a w (emptyLink srv s)))) :=
    (resetCredits_frame _ _).after (by decide) ((volumesLeave_frame _ _ _).after (by decide)
      ((changeLink_frame _ _ _ _).after (by decide) ((setLink_frame _ _ s).into (by decide))))
  unfold leaveParting
  dsimp only
  split
  · exact (setIntake_frame _ _ _).after (by decide) h
  · exact (intakeLeave_frame _ _).after (by decide) h

theorem quietLeave_frame {s : State} (h : NoJobs s) (srv : Nat) : Frame quietLeaveParts s (leaveUp srv .syncing .restart true s) := by
  have hp := leaveParting_frame srv .syncing .restart true s
  rw [leaveUp_eq]
  exact (enforceLeave_frame _ _).after (by decide)
    ((failBacks_frame_of_noJobs srv _ (h.kept hp)).after (by decide) (hp.into (by decide)))

/-- A link's own move in a warm restart. -/
def linkRestarts (srv : Nat) (s : State) : State :=
  match (link s srv).state with
  | .up => leaveUp srv .syncing .restart true s
  | .faulted => changeLink srv .syncing .restart s
  | .down | .syncing => s

theorem linkRestart_eq (s : State) (srv : Nat) : linkRestart s srv =
    intakeRestart srv (setLink srv { link (linkRestarts srv s) srv with held := none } (linkRestarts srv s)) := rfl

theorem linkRestart_frame {s : State} (h : NoJobs s) (srv : Nat) : Frame quietLeaveParts s (linkRestart s srv) := by
  have h1 : Frame quietLeaveParts s (linkRestarts srv s) := by
    unfold linkRestarts
    split
    · exact quietLeave_frame h srv
    · exact (setLink_frame _ _ s).into (by decide)
    · exact Frame.refl _ s
    · exact Frame.refl _ s
  rw [linkRestart_eq]
  exact (setIntake_frame _ _ _).after (by decide) ((setLink_frame _ _ _).after (by decide) h1)

/-! ### One server's turn -/

/-- What a turn leaves of a link that is not its own. -/
structure OtherTurn (j : Nat) (s t : State) : Prop where
  link : (link s j).Grown (link t j)
  quiet : QuietServer j s → Machine.link t j = Machine.link s j ∧ QuietServer j t

/-- A link that has had its turn. -/
structure Restarted (j : Nat) (s t : State) : Prop where
  moved : (link s j).state = .up ∨ (link s j).state = .faulted →
    (link t j).state = .syncing ∧ (link t j).reason = .restart ∧ (link t j).changed = now s
  stood : (link s j).state = .down ∨ (link s j).state = .syncing →
    (link t j).state = (link s j).state ∧ (link t j).reason = (link s j).reason
  emptied : linkUp s j = true → (link t j).orders = [] ∧ (link t j).txQueue = [] ∧ QuietServer j t
  held : (link t j).held = none

theorem OtherTurn.refl (j : Nat) (s : State) : OtherTurn j s s := ⟨Link.Grown.refl _, fun h => ⟨rfl, h⟩⟩

theorem OtherTurn.trans {j : Nat} {s t u : State} (h1 : OtherTurn j s t) (h2 : OtherTurn j t u) : OtherTurn j s u :=
  ⟨h1.link.trans h2.link, fun h => by
    obtain ⟨hl, hq⟩ := h1.quiet h
    obtain ⟨hl', hq'⟩ := h2.quiet hq
    exact ⟨hl'.trans hl, hq'⟩⟩

theorem Link.Grown.reason {l m : Link} (h : l.Grown m) : m.reason = l.reason := by obtain ⟨_, _, _, rfl, -⟩ := h; rfl
theorem Link.Grown.changed {l m : Link} (h : l.Grown m) : m.changed = l.changed := by obtain ⟨_, _, _, rfl, -⟩ := h; rfl

theorem Work.otherTurn {s t : State} (h : Work s t) (j : Nat) : OtherTurn j s t :=
  ⟨h.links j, fun hq => ⟨h.quiet j hq, h.quietServer hq⟩⟩

/-- Later turns and work leave a link restarted. -/
theorem Restarted.after {j : Nat} {s t u : State} (h : Restarted j s t) (h2 : OtherTurn j t u) : Restarted j s u where
  moved hs := by rw [h2.link.state, h2.link.reason, h2.link.changed]; exact h.moved hs
  stood hs := by rw [h2.link.state, h2.link.reason]; exact h.stood hs
  emptied hu := by
    obtain ⟨ho, hf, hq⟩ := h.emptied hu
    obtain ⟨hl, hq'⟩ := h2.quiet hq
    rw [hl]
    exact ⟨ho, hf, hq'⟩
  held := by rw [h2.link.held]; exact h.held

/-- Turns of other links come before a link's own. -/
theorem Restarted.before {j : Nat} {s t u : State} (h : Restarted j t u) (h1 : OtherTurn j s t) (hn : now t = now s) :
    Restarted j s u where
  moved hs := by rw [← hn]; exact h.moved (by rw [h1.link.state]; exact hs)
  stood hs := by rw [← h1.link.state, ← h1.link.reason]; exact h.stood (by rw [h1.link.state]; exact hs)
  emptied hu := h.emptied (by unfold linkUp at hu ⊢; rw [h1.link.state]; exact hu)
  held := h.held

/-- A server's volumes, when the link has had its turn. -/
def Volume.restarted (leaves : Bool) (x : Volume) : VolState := if x.state = .attached ∧ leaves = true then .stale else x.state

/-- A server's turn of a warm restart. -/
structure Turn (srv : Nat) (s t : State) : Prop where
  own : Restarted srv s t
  others : ∀ j, j ≠ srv → OtherTurn j s t
  intakes : ∀ j, intake t j = if srv = j then (intake s j).restarted else intake s j
  volumes : ∀ v, (volume t v).state = (volume s v).restarted (decide ((volume s v).server = srv) && linkUp s srv)
    ∧ (volume t v).server = (volume s v).server
  sorted : tsorted t.vt = true

theorem Intake.restarted_restarted (i : Intake) : i.restarted.restarted = i.restarted := rfl

/-- What a link's own move in a warm restart leaves, before its entry is dropped and its intake emptied. -/
structure Move (srv : Nat) (s t : State) : Prop where
  own : Restarted srv s (setLink srv { link t srv with held := none } t)
  others : ∀ j, j ≠ srv → OtherTurn j s t
  intakes : ∀ j, intake t j = intake s j ∨ (srv = j ∧ intake t j = (intake s j).restarted)
  volumes : ∀ v, (volume t v).state = (volume s v).restarted (decide ((volume s v).server = srv) && linkUp s srv)
    ∧ (volume t v).server = (volume s v).server
  sorted : tsorted t.vt = true

theorem volume_restarted_of_not_up {s : State} {srv : Nat} (hu : linkUp s srv = false) (x : Volume) :
    x.restarted (decide (x.server = srv) && linkUp s srv) = x.state := by
  simp [Volume.restarted, hu]

/-- A link that leaves UP for a warm restart. -/
theorem quietLeave_move {s : State} (hs : tsorted s.vt = true) {srv : Nat} (hu : linkUp s srv = true) :
    Move srv s (leaveUp srv .syncing .restart true s) := by
  have hw := leaveRest_work srv true (link s srv).orders (leaveParting srv .syncing .restart true s)
  rw [← leaveUp_eq] at hw
  have hup := linkUp_iff.1 hu
  have hvol := volume_leaveParting hs srv .syncing .restart true
  have hserver : ∀ v, (volume (leaveParting srv .syncing .restart true s) v).server = (volume s v).server := fun v => by
    rw [hvol]; split <;> rfl
  have hlink := link_leaveParting srv .syncing .restart true s
  have hquiet : QuietServer srv (leaveParting srv .syncing .restart true s) := by
    refine ⟨by rw [linkUp_leaveParting _ _ _ _ (by decide)]; simp, fun v hv => ?_⟩
    rw [hserver] at hv
    rw [hvol]
    split
    · exact fun h => by cases h
    · rename_i hno; exact fun h => hno ⟨hv, h⟩
  have hown : link (leaveUp srv .syncing .restart true s) srv = (link s srv).left .syncing .restart (now s) := by
    rw [hw.quiet srv hquiet, hlink, if_pos rfl]
  refine ⟨⟨fun _ => ?_, fun h => ?_, fun _ => ?_, ?_⟩, fun j hj => ?_, fun j => ?_, fun v => ?_, ?_⟩
  · rw [link_setLink_same, hown]; exact ⟨rfl, rfl, rfl⟩
  · rw [hup] at h; rcases h with h | h <;> cases h
  · rw [link_setLink_same]
    refine ⟨by rw [hown]; rfl, by rw [hown]; rfl, ?_, (hw.quietServer hquiet).2⟩
    unfold linkUp
    rw [link_setLink_same, hown]
    rfl
  · rw [link_setLink_same]
  · refine OtherTurn.trans ⟨?_, fun hq => ⟨?_, ?_, fun v hv => ?_⟩⟩ (hw.otherTurn j)
    · rw [hlink, if_neg (Ne.symm hj)]; exact Link.Grown.refl _
    · rw [hlink, if_neg (Ne.symm hj)]
    · rw [linkUp_leaveParting _ _ _ _ (by decide), hq.1]; simp
    · rw [hserver] at hv
      rw [hvol]
      split
      · exact fun h => by cases h
      · exact hq.2 v hv
  · have h := intake_leaveParting srv .syncing .restart true s j
    unfold intake at h ⊢
    rw [hw.intakes, h]
    split
    · exact .inr ⟨‹_›, rfl⟩
    · exact .inl rfl
  · refine ⟨?_, ((hw.volumes v).server).trans (hserver v)⟩
    rw [(hw.volumes v).state, hvol, Volume.restarted, hu]
    by_cases h1 : (volume s v).server = srv <;> by_cases h2 : (volume s v).state = .attached <;> simp [h1, h2]
  · exact hw.sorted (leaveParting_sorted srv _ _ _ hs)

/-- A FAULTED link that goes to SYNCING. -/
theorem changeLink_move {s : State} (hs : tsorted s.vt = true) {srv : Nat} (hf : (link s srv).state = .faulted) :
    Move srv s (changeLink srv .syncing .restart s) := by
  have hu : linkUp s srv = false := linkUp_of_state hf (by decide)
  have hother : ∀ j, j ≠ srv → link (changeLink srv .syncing .restart s) j = link s j := fun j hj => link_setLink_ne s _ hj
  refine ⟨⟨fun _ => ?_, fun h => ?_, fun h => ?_, ?_⟩, fun j hj => ?_, fun j => .inl rfl, fun v => ?_, hs⟩
  · rw [link_setLink_same, changeLink, link_setLink_same]; exact ⟨rfl, rfl, rfl⟩
  · rw [hf] at h; rcases h with h | h <;> cases h
  · rw [hu] at h; cases h
  · rw [link_setLink_same]
  · refine ⟨by rw [hother j hj]; exact Link.Grown.refl _, fun hq => ⟨hother j hj, ?_, hq.2⟩⟩
    unfold linkUp
    rw [hother j hj]
    exact hq.1
  · exact ⟨(volume_restarted_of_not_up hu _).symm, rfl⟩

/-- A link that is DOWN or SYNCING stays as it is. -/
theorem still_move {s : State} (hs : tsorted s.vt = true) {srv : Nat}
    (hst : (link s srv).state = .down ∨ (link s srv).state = .syncing) : Move srv s s := by
  have hne : ∀ st, (link s srv).state = st → st ≠ .up ∧ st ≠ .faulted := fun st h => by
    subst h; rcases hst with h | h <;> rw [h] <;> decide
  have hu : linkUp s srv = false := linkUp_eq_false_iff.2 (hne _ rfl).1
  refine ⟨⟨fun h => ?_, fun _ => ?_, fun h => ?_, ?_⟩, fun j _ => .refl j s, fun j => .inl rfl, fun v => ?_, hs⟩
  · exact h.elim (fun h => absurd h (hne _ rfl).1) fun h => absurd h (hne _ rfl).2
  · rw [link_setLink_same]; exact ⟨rfl, rfl⟩
  · rw [hu] at h; cases h
  · rw [link_setLink_same]
  · exact ⟨(volume_restarted_of_not_up hu _).symm, rfl⟩

theorem linkRestarts_move {s : State} (hs : tsorted s.vt = true) (srv : Nat) : Move srv s (linkRestarts srv s) := by
  unfold linkRestarts
  split
  · exact quietLeave_move hs (linkUp_iff.2 ‹_›)
  · exact changeLink_move hs ‹_›
  · exact still_move hs (.inl ‹_›)
  · exact still_move hs (.inr ‹_›)

/-- A server's turn of a warm restart. -/
theorem linkRestart_turn {s : State} (hs : tsorted s.vt = true) (srv : Nat) : Turn srv s (linkRestart s srv) := by
  have hm := linkRestarts_move hs srv
  rw [linkRestart_eq]
  generalize linkRestarts srv s = u at hm ⊢
  refine ⟨?_, fun j hj => ?_, fun j => ?_, hm.volumes, hm.sorted⟩
  · exact hm.own.after ⟨Link.Grown.refl _, fun h => ⟨rfl, h⟩⟩
  · refine (hm.others j hj).trans ⟨?_, fun hq => ⟨link_setLink_ne u _ hj, ?_, hq.2⟩⟩
    · rw [show link (intakeRestart srv (setLink srv { link u srv with held := none } u)) j = link u j from link_setLink_ne u _ hj]
      exact Link.Grown.refl _
    · unfold linkUp
      rw [show link (intakeRestart srv (setLink srv { link u srv with held := none } u)) j = link u j from link_setLink_ne u _ hj]
      exact hq.1
  · have hj : intake (intakeRestart srv (setLink srv { link u srv with held := none } u)) j
        = if srv = j then (intake u srv).restarted else intake u j := intake_setIntake _ _ _ _
    rw [hj]
    split
    · rename_i h
      subst h
      rcases hm.intakes srv with h | ⟨-, h⟩
      · rw [h]
      · rw [h]; rfl
    · rename_i h
      rcases hm.intakes j with h' | ⟨h', -⟩
      · exact h'
      · exact absurd h' h

/-! ### Every server's turn -/

/-- Every listed server has had its turn. -/
structure Turns (l : List Nat) (s t : State) : Prop where
  own : ∀ j ∈ l, Restarted j s t
  others : ∀ j, j ∉ l → OtherTurn j s t
  intakes : ∀ j, intake t j = if j ∈ l then (intake s j).restarted else intake s j
  volumes : ∀ v, (volume t v).state = (volume s v).restarted (decide ((volume s v).server ∈ l) && linkUp s (volume s v).server)
    ∧ (volume t v).server = (volume s v).server
  sorted : tsorted t.vt = true
  frame : Frame quietLeaveParts s t
  jobs : NoJobs t

theorem linkRestarts_turns {l : List Nat} (hl : l.Nodup) {s : State} (hs : tsorted s.vt = true) (hj : NoJobs s) :
    Turns l s (l.foldl linkRestart s) := by
  induction l generalizing s with
  | nil => exact ⟨by simp, fun j _ => .refl j s, by simp, by simp [Volume.restarted], hs, .refl _ s, hj⟩
  | cons k r ih =>
    obtain ⟨hk, hr⟩ := List.nodup_cons.1 hl
    have h1 := linkRestart_turn hs k
    have hf := linkRestart_frame hj k
    have h2 := ih hr h1.sorted (hj.kept hf)
    rw [List.foldl_cons]
    generalize linkRestart s k = u at h1 hf h2
    refine ⟨fun j hm => ?_, fun j hm => ?_, fun j => ?_, fun v => ?_, h2.sorted, hf.trans h2.frame, h2.jobs⟩
    · by_cases hjk : j = k
      · subst hjk
        exact h1.own.after (h2.others j hk)
      · exact (h2.own j ((List.mem_cons.1 hm).resolve_left hjk)).before (h1.others j hjk) hf.now
    · obtain ⟨hjk, hjr⟩ := not_or.1 (mt List.mem_cons.2 hm)
      exact (h1.others j hjk).trans (h2.others j hjr)
    · rw [h2.intakes, h1.intakes]
      by_cases hjk : k = j
      · subst hjk; simp [hk]
      · simp [hjk, Ne.symm hjk]
    · obtain ⟨hst, hsrv⟩ := h1.volumes v
      refine ⟨?_, (h2.volumes v).2.trans hsrv⟩
      rw [(h2.volumes v).1]
      by_cases hv : (volume s v).server = k
      · rw [Volume.restarted, hst, Volume.restarted, Volume.restarted]
        simp [hv, hsrv, hk]
      · have hup : linkUp u (volume s v).server = linkUp s (volume s v).server := by
          unfold linkUp
          rw [(h1.others _ hv).link.state]
        rw [Volume.restarted, hst, Volume.restarted, Volume.restarted, hsrv, hup]
        simp [hv]

end Sys2Proof.Machine
end

