-- ==== Sys2Proof/Proofs/NoticesShown.lean ====
section
/-! SUPPORT. What notices leave in the Notice Queue when nothing is lost, and what evaluations leave of the accounts. -/

namespace Sys2Proof.Machine

/-! ### The ages of what waits -/

/-- Everything that waits came at or after an age. -/
structure Since (a : Nat) (q : Nq) : Prop where
  next : a ≤ q.age
  queue : ∀ e ∈ q.queue, a ≤ e.age
  slot : ∀ m, q.slot = some m → a ≤ m.age

theorem mem_removeOldest {p : Nat} {e : Entry} {l : List Entry} (h : e ∈ removeOldest p l) : e ∈ l := by
  induction l with
  | nil => cases h
  | cons x r ih =>
    unfold removeOldest at h
    split at h
    · exact List.mem_cons_of_mem _ h
    · rcases List.mem_cons.1 h with rfl | h
      · exact List.mem_cons_self ..
      · exact List.mem_cons_of_mem _ (ih h)

theorem Since.lodge {a : Nat} {q : Nq} (h : Since a q) {e : Entry} (he : a ≤ e.age) : Since a (q.lodge e) := by
  have hmem : ∀ (l : List Entry), (∀ x ∈ l, a ≤ x.age) → ∀ x ∈ insertBy Entry.age e l, a ≤ x.age := fun l hl x hx =>
    ((mem_insertBy _ _ _ _).1 hx).elim (hl x) fun h => h ▸ he
  unfold Nq.lodge
  split
  · exact ⟨h.next, hmem _ h.queue, h.slot⟩
  · split
    · exact ⟨h.next, hmem _ fun x hx => h.queue x (mem_removeOldest hx), h.slot⟩
    · exact ⟨h.next, h.queue, h.slot⟩

theorem Since.coalesce {a : Nat} {q : Nq} (h : Since a q) (n : Notice) : Since a (q.coalesce n) := by
  refine ⟨h.next, fun e he => ?_, h.slot⟩
  obtain ⟨x, hx, rfl⟩ := List.mem_map.1 he
  split
  · exact h.queue x hx
  · exact h.queue x hx

theorem Since.bump {a : Nat} {q : Nq} (h : Since a q) : Since a q.bump := ⟨h.next.trans (Nat.le_succ _), h.queue, h.slot⟩

theorem Since.demote {a : Nat} {q : Nq} (h : Since a q) {m : SlotNotice} (hm : a ≤ m.age) : Since a (q.demote m) := by
  unfold Nq.demote
  split
  · exact h.coalesce _
  · exact h.lodge hm

theorem Since.takeSlot {a : Nat} {q : Nq} (h : Since a q) (n : Notice) : Since a (q.takeSlot n) :=
  Since.bump ⟨h.next, h.queue, fun _ hm => by cases hm; exact h.next⟩

theorem Since.arrive {a : Nat} {q : Nq} (h : Since a q) (n : Notice) : Since a (q.arrive n) := by
  by_cases hheld : q.holds n.content.kind n.subject = true
  · rw [arrive_of_held hheld]; exact h.coalesce n
  · rw [Bool.not_eq_true] at hheld
    by_cases hx : q.express = some n.content.kind
    · rw [arrive_express hx hheld]
      split
      · exact h.takeSlot n
      · rename_i m hm
        split
        · exact ⟨h.next, h.queue, fun x hx => by cases hx; exact h.slot m hm⟩
        · exact (h.demote (h.slot m hm)).takeSlot n
    · rw [arrive_ordinary hx hheld]
      split
      · exact (h.lodge h.next).bump
      · exact h.lodge h.next

/-- What the transmit side takes of the queue. -/
theorem pump_nq_cases (s : State) : (pump s).nq = s.nq ∨ (pump s).nq = { s.nq with slot := none } := by
  cases hm : s.nq.slot with
  | none => exact .inl (pump_nq_of_empty_slot hm)
  | some m =>
    unfold pump
    split
    · exact .inl rfl
    · split
      · unfold startNext
        rw [hm]
        exact .inr rfl
      · exact .inr rfl

theorem Since.raise {a : Nat} {s : State} (h : Since a s.nq) (n : Notice) : Since a (raise n s).nq := by
  have ha := h.arrive n
  rcases pump_nq_cases { s with nq := s.nq.arrive n } with he | he
  · rw [Machine.raise, he]; exact ha
  · rw [Machine.raise, he]
    exact ⟨ha.next, ha.queue, fun _ hm => by cases hm⟩

/-- A property that every notice raised keeps is kept by work that raises some. -/
theorem Speaks.keeps {P : Nq → Prop} (hP : ∀ s n, P s.nq → P (raise n s).nq) {s t : State} (h : Speaks s t) (hs : P s.nq) :
    P t.nq := by
  obtain ⟨ns, hn⟩ := h
  have hq : t.nq = (raiseAll ns s).nq := (mgmtView_eq_iff.1 hn).2.2.2.2.2
  rw [hq]
  clear hn hq
  induction ns generalizing s with
  | nil => exact hs
  | cons n r ih => exact ih (hP s n hs)

/-! ### With no express kind, and nothing lost -/

/-- No express kind is set and the slot is empty. -/
def Ordinary (q : Nq) : Prop := q.express = none ∧ q.slot = none

theorem lodge_settings (q : Nq) (e : Entry) : (q.lodge e).express = q.express ∧ (q.lodge e).slot = q.slot :=
  ⟨by unfold Nq.lodge; split; · rfl
      · split <;> rfl, lodge_slot q e⟩

/-- A notice's arrival with no express kind: its content stands in its pair's entry, it has a new one behind all others, or
something is lost. -/
theorem arrive_cases {q : Nq} (h : Ordinary q) (n : Notice) :
    (q.holds n.content.kind n.subject = true ∧ q.arrive n = q.coalesce n)
    ∨ (q.holds n.content.kind n.subject = false ∧ q.arrive n = { q with
        queue := insertBy Entry.age (q.entryOf n) q.queue, seq := (q.seq + 1) % 4294967296, age := q.age + 1 })
    ∨ (Ordinary (q.arrive n) ∧ (q.arrive n).overflow = true) := by
  by_cases hheld : q.holds n.content.kind n.subject = true
  · exact .inl ⟨hheld, arrive_of_held hheld⟩
  · rw [Bool.not_eq_true] at hheld
    have ha := arrive_ordinary (n := n) (by rw [h.1]; exact fun hx => by cases hx) hheld
    by_cases hlen : q.queue.length < 128
    · refine .inr (.inl ⟨hheld, ?_⟩)
      rw [ha, lodge_room hlen, if_pos (by simp [Nq.hasPlace, hlen])]
      rfl
    · obtain ⟨hx, hs⟩ := lodge_settings q (q.entryOf n)
      have hover : (q.lodge (q.entryOf n)).overflow = true := by
        unfold Nq.lodge
        rw [if_neg hlen]
        split <;> rfl
      refine .inr (.inr ?_)
      rw [ha]
      split
      · exact ⟨⟨hx.trans h.1, hs.trans h.2⟩, hover⟩
      · exact ⟨⟨hx.trans h.1, hs.trans h.2⟩, hover⟩

theorem Ordinary.arrive {q : Nq} (h : Ordinary q) (n : Notice) : Ordinary (q.arrive n) := by
  rcases arrive_cases h n with ⟨-, ha⟩ | ⟨-, ha⟩ | ⟨ho, -⟩
  · rw [ha]; exact h
  · rw [ha]; exact h
  · exact ho

theorem Ordinary.raise_nq {s : State} (h : Ordinary s.nq) (n : Notice) : (raise n s).nq = s.nq.arrive n :=
  pump_nq_of_empty_slot (s := { s with nq := s.nq.arrive n }) (h.arrive n).2

/-- The overflow mark stays set. -/
theorem arrive_overflow {q : Nq} (h : Ordinary q) (n : Notice) (ho : q.overflow = true) : (q.arrive n).overflow = true := by
  rcases arrive_cases h n with ⟨-, ha⟩ | ⟨-, ha⟩ | ⟨-, ha⟩
  · rw [ha]; exact ho
  · rw [ha]; exact ho
  · exact ha

/-- While nothing is lost, the sequence counter counts the entries from a start on. -/
structure Counting (start : Nat) (q : Nq) : Prop where
  ordinary : Ordinary q
  lost : q.overflow = false → q.lost = 0
  seq : q.overflow = false → q.seq = (start + q.queue.length) % 4294967296

theorem length_insertBy {α : Type} (f : α → Nat) (x : α) (l : List α) : (insertBy f x l).length = l.length + 1 := by
  induction l with
  | nil => rfl
  | cons y r ih =>
    unfold insertBy
    split
    · rfl
    · simp [ih]

theorem Counting.raise {start : Nat} {s : State} (h : Counting start s.nq) (n : Notice) : Counting start (raise n s).nq := by
  rw [h.ordinary.raise_nq]
  refine ⟨h.ordinary.arrive n, ?_, ?_⟩
  all_goals
    intro ho
    rcases arrive_cases h.ordinary n with ⟨-, ha⟩ | ⟨-, ha⟩ | ⟨-, ha⟩
  · rw [ha] at ho ⊢; exact h.lost ho
  · rw [ha] at ho ⊢; exact h.lost ho
  · rw [ha] at ho; cases ho
  · rw [ha] at ho ⊢
    rw [coalesce_queue, List.length_map]
    exact h.seq ho
  · rw [ha] at ho ⊢
    have := h.seq ho
    change (_ + 1) % _ = _
    rw [length_insertBy, this]
    omega
  · rw [ha] at ho; cases ho

/-- Some entry's pair and content are as a predicate says, unless something was lost. -/
structure Shows (p : Notice → Prop) (q : Nq) : Prop where
  ordinary : Ordinary q
  shown : q.overflow = true ∨ ∃ e ∈ q.queue, p ⟨e.subject, e.content⟩

/-- A notice of the predicate's own, or of another pair than all of those, leaves one shown. -/
theorem Shows.raise {p : Notice → Prop} {s : State} (h : Shows p s.nq) {n : Notice}
    (hn : p n ∨ ∀ m, p m → ¬(m.content.kind = n.content.kind ∧ m.subject = n.subject)) : Shows p (raise n s).nq := by
  rw [h.ordinary.raise_nq]
  refine ⟨h.ordinary.arrive n, ?_⟩
  rcases h.shown with ho | ⟨e, he, hp⟩
  · exact .inl (arrive_overflow h.ordinary n ho)
  · rcases arrive_cases h.ordinary n with ⟨-, ha⟩ | ⟨-, ha⟩ | ⟨-, ha⟩
    · refine .inr ?_
      rw [ha, coalesce_queue]
      refine ⟨_, List.mem_map_of_mem he, ?_⟩
      split
      · rename_i hpair
        exact hn.elim (fun hn => by rw [hpair.2]; exact hn) fun hno => absurd hpair (hno _ hp)
      · exact hp
    · refine .inr ⟨e, ?_, hp⟩
      rw [ha]
      exact (mem_insertBy _ _ _ _).2 (.inl he)
    · exact .inl ha

/-- A notice of the predicate's own is shown. -/
theorem shows_raise {p : Notice → Prop} {s : State} (h : Ordinary s.nq) {n : Notice} (hn : p n) : Shows p (Machine.raise n s).nq := by
  rw [h.raise_nq]
  refine ⟨h.arrive n, ?_⟩
  rcases arrive_cases h n with ⟨hheld, ha⟩ | ⟨-, ha⟩ | ⟨-, ha⟩
  · obtain ⟨e, he, hpair⟩ := holds_iff.1 hheld
    refine .inr ?_
    rw [ha, coalesce_queue]
    refine ⟨_, List.mem_map_of_mem he, ?_⟩
    rw [if_pos hpair, hpair.2]
    exact hn
  · refine .inr ⟨s.nq.entryOf n, ?_, hn⟩
    rw [ha]
    exact (mem_insertBy _ _ _ _).2 (.inr rfl)
  · exact .inl ha

/-! ### Accounts -/

/-- Two states with the same accounts but for what `f` says of each subject's. -/
theorem acct_congr {s t : State} (hp : t.book.principals = s.book.principals) (hg : t.book.groups = s.book.groups) (sub : Subject) :
    acct t sub = acct s sub := by
  cases sub with
  | principal i => simp only [acct, principal, hp]
  | group i => simp only [acct, group, hg]

theorem Frame.acct {L : List Part} {s t : State} (h : Frame L s t) (sub : Subject)
    (hp : Part.principals ∉ Part.replies :: Part.restart :: L := by decide)
    (hg : Part.groups ∉ Part.replies :: Part.restart :: L := by decide) : Machine.acct t sub = Machine.acct s sub :=
  acct_congr (h.same .principals hp) (h.same .groups hg) sub

/-- An evaluation moves its subject's state, and no other account (R100, R101). -/
theorem acct_evaluate (cause : QuotaCause) (sub : Subject) (s : State) (x : Subject) :
    acct (evaluate cause sub s) x = if sub = x then { acct s x with state := nextState (acct s x) } else acct s x := by
  unfold evaluate
  dsimp only
  split
  · rename_i h
    split
    · rename_i hx; subst hx; rw [h]
    · rfl
  · rw [((notify_frame _ _ _).acct x), ((reportBlocking_frame _ _ _ _).acct x),
      ((softWrite_frame _ _).acct x), acct_setAcct]
    split
    · rename_i hx; subst hx; rfl
    · rfl

end Sys2Proof.Machine
end

