-- ==== Sys2Proof/Proofs/RestartNotices.lean ====
section
/-! PROOF. RESTART, the warm restart with the notices it leaves, and its end (O34). -/

namespace Sys2Proof.Machine

/-! ### The notices of the five series -/

/-- VOLUME_STALE, RESERVE_OVER, RESTORE_DONE and DUP_STATE as a warm restart raises them. -/
def staleNote (s : State) (v : Nat) : Notice := ⟨.volume v, .volumeStale true (volume s v).server .stale .restart (now s)⟩

def reserveNote (s : State) (v : Nat) : Notice :=
  ⟨.volume v, .reserveOver true (volume s v).heldTotal (volume s v).reserveLimit
    (s.sc.records.filter fun e => decide (e.2.volume = v) && (decide (0 < e.2.pinCount) || e.2.keep)).length (now s)⟩

def doneNote (s : State) (e : Nat × RestoreJob) : Notice :=
  ⟨.job e.1, .restoreDone e.1 e.2.principal e.2.volume e.2.snapshot .aborted e.2.copied (e.2.countStatus .done)
    (e.2.countStatus .failed) e.2.failCounts e.2.remaining (now s)⟩

def dupNote (s : State) (e : Nat × DupJob) : Notice :=
  ⟨.volume e.1, .dupState .halted .restart e.2.target e.2.targetEpoch (baseEpoch s e.1) (baseEpoch s e.1) e.2.regions e.2.mib
    e.2.batches e.2.failures e.2.lastFailure (now s)⟩

/-- A series of notices, each read from the state in which it is raised. -/
def raiseSeries {β : Type} (note : State → β → Notice) (l : List β) (s : State) : State :=
  l.foldl (fun s b => raise (note s b) s) s

theorem restartStales_eq (s : State) :
    restartStales s = raiseSeries staleNote ((s.vt.filter fun e => e.2.state = .stale).map Prod.fst) s := rfl
theorem restartReserves_eq (s : State) : restartReserves s = raiseSeries reserveNote s.sc.reserveOver s := rfl
theorem restartDones_eq (jobs : Tab RestoreJob) (s : State) : restartDones jobs s = raiseSeries doneNote jobs s := rfl
theorem restartDups_eq (dups : Tab DupJob) (s : State) : restartDups dups s = raiseSeries dupNote dups s := rfl

/-! ### Series of notices -/

/-- A series of notices that shows what a predicate says: one of them is of that kind, and none of another content is of a pair
of those. `I` is what the notices' contents are read from. -/
theorem shows_series {β : Type} {note : State → β → Notice} {p : Notice → Prop} {I : State → Prop}
    (hI : ∀ s b, I s → I (raise (note s b) s)) {l : List β}
    (hp : ∀ b ∈ l, ∀ s, I s → p (note s b) ∨ ∀ m, p m → ¬(m.content.kind = (note s b).content.kind ∧ m.subject = (note s b).subject))
    {s : State} (hs : I s) (ho : Ordinary s.nq) (h : Shows p s.nq ∨ ∃ b ∈ l, ∀ s, I s → p (note s b)) :
    Shows p (raiseSeries note l s).nq := by
  induction l generalizing s with
  | nil => exact h.resolve_right fun ⟨b, hb, _⟩ => by cases hb
  | cons b r ih =>
    have hstep : Shows p (raise (note s b) s).nq ∨ ∃ b ∈ r, ∀ s, I s → p (note s b) := by
      rcases h with h | ⟨c, hc, hpc⟩
      · exact .inl (h.raise (hp b (List.mem_cons_self ..) s hs))
      · rcases List.mem_cons.1 hc with rfl | hc
        · exact .inl (shows_raise ho (hpc s hs))
        · exact .inr ⟨c, hc, hpc⟩
    exact ih (fun b hb => hp b (List.mem_cons_of_mem _ hb)) (hI s b hs) (by rw [ho.raise_nq]; exact ho.arrive _) hstep

/-- Notices of another kind leave what is shown. -/
theorem Shows.series_kind {β : Type} {note : State → β → Notice} {p : Notice → Prop} {k : NoticeKind}
    (hk : ∀ m, p m → m.content.kind = k) (hne : ∀ s b, (note s b).content.kind ≠ k) (l : List β) {s : State} (h : Shows p s.nq) :
    Shows p (raiseSeries note l s).nq :=
  shows_series (I := fun _ => True) (fun _ _ _ => trivial)
    (fun b _ s _ => .inr fun m hm hpair => hne s b (hpair.1.symm.trans (hk m hm))) trivial h.ordinary (.inl h)

section
variable {p : Notice → Prop} {k : NoticeKind} (hk : ∀ m, p m → m.content.kind = k) {s : State} (h : Shows p s.nq)
include hk h

theorem Shows.restartBacklog (hne : k ≠ .enforceBacklog) : Shows p (restartBacklog s).nq := by
  unfold Machine.restartBacklog
  split
  · exact h
  · exact h.raise (.inr fun m hm hpair => hne ((hk m hm).symm.trans hpair.1))

theorem Shows.restartReserves (hne : k ≠ .reserveOver) : Shows p (restartReserves s).nq := by
  rw [restartReserves_eq]
  exact Shows.series_kind hk (fun _ _ e => hne (e.symm.trans rfl)) _ h

theorem Shows.restartDones (jobs : Tab RestoreJob) (hne : k ≠ .restoreDone) : Shows p (restartDones jobs s).nq := by
  rw [restartDones_eq]
  exact Shows.series_kind hk (fun _ _ e => hne (e.symm.trans rfl)) _ h

theorem Shows.restartDups (dups : Tab DupJob) (hne : k ≠ .dupState) : Shows p (restartDups dups s).nq := by
  rw [restartDups_eq]
  exact Shows.series_kind hk (fun _ _ e => hne (e.symm.trans rfl)) _ h

end

/-! ### The notices of a warm restart -/

theorem raiseSeries_frame {β : Type} (note : State → β → Notice) (l : List β) (s : State) :
    Frame raiseParts s (raiseSeries note l s) := Frame.foldl (fun _ _ => raise_frame _ _) l s

theorem restartStales_frame (s : State) : Frame raiseParts s (restartStales s) := raiseSeries_frame _ _ s
theorem restartReserves_frame (s : State) : Frame raiseParts s (restartReserves s) := raiseSeries_frame _ _ s
theorem restartDones_frame (jobs : Tab RestoreJob) (s : State) : Frame raiseParts s (restartDones jobs s) := raiseSeries_frame _ _ s
theorem restartDups_frame (dups : Tab DupJob) (s : State) : Frame raiseParts s (restartDups dups s) := raiseSeries_frame _ _ s

theorem restartBacklog_frame (s : State) : Frame raiseParts s (restartBacklog s) := by
  unfold restartBacklog
  split
  · exact Frame.refl _ s
  · exact notifyBacklog_frame _ s

theorem restartNotices_frame (jobs : Tab RestoreJob) (dups : Tab DupJob) (s : State) :
    Frame raiseParts s (restartNotices jobs dups s) :=
  (restartStales_frame s).trans ((restartBacklog_frame _).trans ((restartReserves_frame _).trans
    ((restartDones_frame jobs _).trans (restartDups_frame dups _))))

theorem Ordinary.speaks {s t : State} (h : Ordinary s.nq) (hs : Speaks s t) : Ordinary t.nq :=
  hs.keeps (P := Ordinary) (fun s n ho => by rw [ho.raise_nq]; exact ho.arrive n) h

theorem Frame.volume {L : List Part} {s t : State} (h : Frame L s t)
    (hv : Part.volumes ∉ Part.replies :: Part.restart :: L := by decide) (v : Nat) : Machine.volume t v = Machine.volume s v := by
  unfold Machine.volume
  rw [show t.vt = s.vt from h.same .volumes hv]

/-- VOLUME_STALE for every STALE volume. -/
theorem restartStales_shows {s : State} (hs : tsorted s.vt = true) (ho : Ordinary s.nq) {v : Nat} (hv : (volume s v).state = .stale) :
    Shows (fun m => m = staleNote s v) (restartStales s).nq := by
  have hnote : ∀ u w, ((∀ x, volume u x = volume s x) ∧ now u = now s) → staleNote u w = staleNote s w := fun u w h => by
    unfold staleNote; rw [h.1, h.2]
  rw [restartStales_eq]
  refine shows_series (I := fun u => (∀ w, volume u w = volume s w) ∧ now u = now s) (fun u w h => ?_) (fun w _ u h => ?_)
    ⟨fun _ => rfl, rfl⟩ ho (.inr ⟨v, ?_, fun u h => hnote u v h⟩)
  · have hf := raise_frame (staleNote u w) u
    exact ⟨fun x => (hf.volume (by decide) x).trans (h.1 x), hf.now.trans h.2⟩
  · by_cases hw : w = v
    · subst hw; exact .inl (hnote u w h)
    · refine .inr fun m hm hpair => hw ?_
      subst hm
      exact (NoticeSubject.volume.inj hpair.2).symm
  · have hget : tget s.vt v = some (volume s v) := by
      unfold volume tgetD at hv ⊢
      cases hg : tget s.vt v with
      | none => rw [hg] at hv; cases hv
      | some x => rfl
    exact List.mem_map.2 ⟨(v, volume s v), List.mem_filter.2 ⟨(tget_eq_some_iff hs).1 hget, by simpa using hv⟩, rfl⟩

/-- ENFORCE_BACKLOG for a backlog that is not empty. -/
theorem restartBacklog_shows {s : State} (ho : Ordinary s.nq) (hb : s.et.backlog ≠ []) :
    Shows (fun m => m = ⟨.device, .enforceBacklog true s.et.backlog.length s.et.table.length (now s)⟩) (restartBacklog s).nq := by
  unfold restartBacklog
  rw [if_neg hb]
  exact shows_raise ho rfl

/-- RESERVE_OVER for every flag set. -/
theorem restartReserves_shows {s : State} (ho : Ordinary s.nq) {v : Nat} (hv : reserveFlag s v = true) :
    Shows (fun m => ∃ held limit n, m = ⟨.volume v, .reserveOver true held limit n (now s)⟩) (restartReserves s).nq := by
  have hown : ∀ u, now u = now s → ∃ held limit n, reserveNote u v = ⟨.volume v, .reserveOver true held limit n (now s)⟩ :=
    fun u h => ⟨_, _, _, by unfold reserveNote; rw [h]⟩
  have hmem : v ∈ s.sc.reserveOver := by simpa [reserveFlag] using hv
  rw [restartReserves_eq]
  refine shows_series (I := fun u => now u = now s) (fun u w h => (raise_frame (reserveNote u w) u).now.trans h) (fun w _ u h => ?_)
    rfl ho (.inr ⟨v, hmem, hown⟩)
  by_cases hw : w = v
  · subst hw; exact .inl (hown u h)
  · refine .inr fun m hm hpair => hw ?_
    obtain ⟨_, _, _, rfl⟩ := hm
    exact (NoticeSubject.volume.inj hpair.2).symm

theorem eq_of_mem_sorted {α : Type} {t : Tab α} (h : tsorted t = true) {k : Nat} {a b : α} (ha : (k, a) ∈ t) (hb : (k, b) ∈ t) :
    a = b := Option.some.inj (((tget_eq_some_iff h).2 ha).symm.trans ((tget_eq_some_iff h).2 hb))

/-- RESTORE_DONE for every aborted restore job. -/
theorem restartDones_shows {jobs : Tab RestoreJob} (hj : tsorted jobs = true) {s : State} (ho : Ordinary s.nq) {id : Nat}
    {j : RestoreJob} (hm : (id, j) ∈ jobs) : Shows (fun m => m = doneNote s (id, j)) (restartDones jobs s).nq := by
  have hnote : ∀ u e, now u = now s → doneNote u e = doneNote s e := fun u e h => by unfold doneNote; rw [h]
  rw [restartDones_eq]
  refine shows_series (I := fun u => now u = now s) (fun u e h => (raise_frame (doneNote u e) u).now.trans h) (fun e he u h => ?_)
    rfl ho (.inr ⟨(id, j), hm, fun u h => hnote u _ h⟩)
  obtain ⟨k, x⟩ := e
  by_cases hw : k = id
  · subst hw
    rw [eq_of_mem_sorted hj he hm]
    exact .inl (hnote u _ h)
  · refine .inr fun m hm hpair => hw ?_
    subst hm
    exact (NoticeSubject.job.inj hpair.2).symm

/-- DUP_STATE for every aborted duplication job. -/
theorem restartDups_shows {dups : Tab DupJob} (hj : tsorted dups = true) {s : State} (ho : Ordinary s.nq) {v : Nat}
    {j : DupJob} (hm : (v, j) ∈ dups) :
    Shows (fun m => ∃ base, m = ⟨.volume v, .dupState .halted .restart j.target j.targetEpoch base base j.regions j.mib j.batches
      j.failures j.lastFailure (now s)⟩) (restartDups dups s).nq := by
  have hown : ∀ u, now u = now s → ∃ base, dupNote u (v, j) = ⟨.volume v, .dupState .halted .restart j.target j.targetEpoch base
      base j.regions j.mib j.batches j.failures j.lastFailure (now s)⟩ := fun u h => ⟨_, by unfold dupNote; rw [h]⟩
  rw [restartDups_eq]
  refine shows_series (I := fun u => now u = now s) (fun u e h => (raise_frame (dupNote u e) u).now.trans h) (fun e he u h => ?_)
    rfl ho (.inr ⟨(v, j), hm, hown⟩)
  obtain ⟨k, x⟩ := e
  by_cases hw : k = v
  · subst hw
    rw [eq_of_mem_sorted hj he hm]
    exact .inl (hown u h)
  · refine .inr fun m hm hpair => hw ?_
    obtain ⟨_, rfl⟩ := hm
    exact (NoticeSubject.volume.inj hpair.2).symm

end Sys2Proof.Machine
end

