-- ==== Sys2Proof/Proofs/WarmRestarts.lean ====
section
/-! PROOF. RESTART, the warm restart, and its end (O34). -/

namespace Sys2Proof.Machine

/-! ### RESTART taken -/

/-- The clause of O34 on RESTART. -/
theorem restart_taken (h : ReqHead) (s : State) (ht : Takes h 0 s) : ∃ t, exec (.restart h) s = .next t
    ∧ Answered h (accept [] .none) s t ∧ t.lu.restart = .taken ∧ Unchanged (.restart :: answerParts) s t := by
  let u : State := (takeRestart (mgmtHunt s)).1
  have he : exec (.restart h) s = .next (answer h.tag (accept [] .none) u) := by
    change Host.Outcome.next (fixedRequest h 0 takeRestart s) = _
    rw [fixedRequest_takes ht]
    rfl
  have hu : Unchanged [.mgmtRx, .restart] s u := fun p hp => by
    cases p <;> first | rfl | exact ⟨rfl, rfl⟩ | exact ⟨rfl, rfl, rfl⟩ | exact (hp (by decide)).elim
  obtain ⟨hr, ha⟩ := answer_frame_carrier h.tag (accept [] .none) u ht.2.1
  exact ⟨_, he, hr, ha .restart (by decide), (hu.mono (by decide)).trans (ha.mono (by decide))⟩

/-! ### The state in which the links restart -/

theorem restartBegun_unchanged (s : State) : Unchanged [.restart, .queue, .slot, .lostMark, .restoreJobs, .restoreEnds, .acceptance,
    .dupJobs, .dupEnds, .credits, .replies] s (restartBegun s) := by
  let ends := s.dc.jobs.foldl (fun t e => tput t e.1 (dupEndOf s .halted (baseEpoch s e.1) (baseEpoch s e.1) e.2)) s.dc.lastEnd
  let u : State := rscRestart (nqRestart { s with lu := { s.lu with restart := .inProgress } })
  have h1 : Unchanged [.restart, .queue, .slot, .lostMark, .restoreJobs, .restoreEnds, .acceptance, .dupJobs, .dupEnds]
      s { u with dc := { u.dc with jobs := [], lastEnd := ends } } := fun p hp => by
    cases p <;> first | rfl | exact ⟨rfl, rfl⟩ | exact ⟨rfl, rfl, rfl⟩ | exact (hp (by decide)).elim
  exact (h1.mono (by decide)).trans ((presentAll_frame _).parts.mono (by decide))

theorem presentAll_rsc (s : State) : (presentAll s).rsc.jobs = s.rsc.jobs ∧ (presentAll s).rsc.lastEnd = s.rsc.lastEnd :=
  ⟨(presentAll_frame s).same .restoreJobs (by decide), (presentAll_frame s).same .restoreEnds (by decide)⟩

theorem presentAll_dc (s : State) : (presentAll s).dc.jobs = s.dc.jobs ∧ (presentAll s).dc.lastEnd = s.dc.lastEnd :=
  ⟨(presentAll_frame s).same .dupJobs (by decide), (presentAll_frame s).same .dupEnds (by decide)⟩

theorem presentAll_acceptance (s : State) : (presentAll s).cca.acceptance = s.cca.acceptance :=
  (presentAll_frame s).same .acceptance (by decide)

theorem restartBegun_noJobs (s : State) : NoJobs (restartBegun s) := by
  unfold restartBegun dcRestart
  exact ⟨(presentAll_rsc _).1, (presentAll_dc _).1⟩

theorem restartBegun_ends (s : State) :
    (restartBegun s).rsc.lastEnd = s.rsc.jobs.foldl (fun t e => tput t e.1 (endRecord s e.2 .aborted)) s.rsc.lastEnd
    ∧ (restartBegun s).dc.lastEnd =
      s.dc.jobs.foldl (fun t e => tput t e.1 (dupEndOf s .halted (baseEpoch s e.1) (baseEpoch s e.1) e.2)) s.dc.lastEnd
    ∧ (restartBegun s).cca.acceptance = [] := by
  unfold restartBegun dcRestart
  exact ⟨(presentAll_rsc _).2, (presentAll_dc _).2, presentAll_acceptance _⟩

/-- A table written with a record of each item holds the record of the one item with an index. -/
theorem tget_foldl_tput {α β : Type} {f : Nat × β → α} {l : Tab β} {k : Nat} {v : α} (hf : ∀ e ∈ l, e.1 = k → f e = v) {t : Tab α}
    (h : tget t k = some v ∨ ∃ e ∈ l, e.1 = k) : tget (l.foldl (fun t e => tput t e.1 (f e)) t) k = some v := by
  induction l generalizing t with
  | nil => exact h.resolve_right fun ⟨e, he, _⟩ => by cases he
  | cons x r ih =>
    refine ih (fun e he => hf e (List.mem_cons_of_mem _ he)) ?_
    rw [tget_tput]
    by_cases hx : x.1 = k
    · rw [if_pos hx, hf x (List.mem_cons_self ..) hx]
      exact .inl rfl
    · rw [if_neg hx]
      refine h.imp_right fun ⟨e, he, hk⟩ => ⟨e, (List.mem_cons.1 he).resolve_left fun h => hx (h ▸ hk), hk⟩

theorem tget_foldl_ends {α β : Type} (f : Nat × β → α) {l : Tab β} (hl : tsorted l = true) {k : Nat} {x : β} (hx : tget l k = some x)
    (t : Tab α) : tget (l.foldl (fun t e => tput t e.1 (f e)) t) k = some (f (k, x)) := by
  have hm := mem_of_tget hx
  refine tget_foldl_tput (fun e he hk => ?_) (.inr ⟨_, hm, rfl⟩)
  obtain ⟨j, y⟩ := e
  cases hk
  rw [eq_of_mem_sorted hl he hm]

/-! ### The phase -/

theorem pump_restart {s : State} (h : s.lu.restart ≠ .taken) : (pump s).lu.restart = s.lu.restart := by
  by_cases hc : s.pins.mgmtCarrier = true
  · exact pump_lu_restart s hc
  · unfold pump
    split
    · rfl
    · exact if_neg h

theorem Speaks.restart {s t : State} (h : Speaks s t) (hs : s.lu.restart ≠ .taken) : t.lu.restart = s.lu.restart := by
  obtain ⟨ns, hn⟩ := h
  have ht : t.lu.restart = (raiseAll ns s).lu.restart := (mgmtView_eq_iff.1 hn).2.2.2.2.1
  rw [ht]
  clear hn ht
  induction ns generalizing s with
  | nil => rfl
  | cons n r ih =>
    have h1 : (raise n s).lu.restart = s.lu.restart := pump_restart (s := { s with nq := s.nq.arrive n }) hs
    exact (ih (s := raise n s) (by rw [h1]; exact hs)).trans h1

/-! ### Reservations released -/

theorem acct_changeReservation (f : Account → Account) (p : Nat) (s : State) (x : Subject) :
    acct (changeReservation f p s) x = acct s x ∨ acct (changeReservation f p s) x = f (acct s x) := by
  have h1 : acct (onPrincipal p f s) x = acct s x ∨ (x = .principal p ∧ acct (onPrincipal p f s) x = f (acct s x)) := by
    have := acct_setAcct s (.principal p) x (f (acct s (.principal p)))
    rw [show onPrincipal p f s = setAcct (.principal p) (f (acct s (.principal p))) s from rfl, this]
    split
    · rename_i h; subst h; exact .inr ⟨rfl, rfl⟩
    · exact .inl rfl
  unfold changeReservation onGroup
  split
  · exact h1.imp_right And.right
  · rename_i g _
    rw [show ∀ u : State, setGroupRec g { group u g with acct := f (group u g).acct } u = setAcct (.group g) (f (acct u (.group g))) u
      from fun _ => rfl, acct_setAcct]
    split
    · rename_i hx
      subst hx
      rcases h1 with h | ⟨h, -⟩
      · rw [h]; exact .inr rfl
      · cases h
    · exact h1.imp_right And.right

/-- The account stands but for reservation and state. -/
def Account.Stands (a b : Account) : Prop := b.usage = a.usage ∧ b.grace = a.grace

theorem acct_release (p r : Nat) (s : State) (x : Subject) : (acct s x).Stands (acct (release p r s) x) := by
  have heval (c : QuotaCause) (sub : Subject) (u : State) : (acct u x).Stands (acct (evaluate c sub u) x) := by
    rw [acct_evaluate]; split <;> exact ⟨rfl, rfl⟩
  have hgroup (c : QuotaCause) (g : Option Nat) (u : State) : (acct u x).Stands (acct (evaluateGroup c g u) x) := by
    unfold evaluateGroup
    split
    · exact ⟨rfl, rfl⟩
    · exact heval _ _ u
  unfold release
  split
  · exact ⟨rfl, rfl⟩
  · have h1 : (acct s x).Stands (acct (changeReservation (reserveDown r) p s) x) := by
      rcases acct_changeReservation (reserveDown r) p s x with h | h <;> rw [h] <;> exact ⟨rfl, rfl⟩
    have h2 := heval .reservation (.principal p) (changeReservation (reserveDown r) p s)
    have h3 := hgroup .reservation (principal (changeReservation (reserveDown r) p s) p).group
      (evaluate .reservation (.principal p) (changeReservation (reserveDown r) p s))
    exact ⟨(h3.1.trans h2.1).trans h1.1, (h3.2.trans h2.2).trans h1.2⟩

theorem acct_restartReleases (jobs : Tab RestoreJob) (s : State) (x : Subject) : (acct s x).Stands (acct (restartReleases jobs s) x) := by
  unfold restartReleases
  induction jobs generalizing s with
  | nil => exact ⟨rfl, rfl⟩
  | cons e r ih =>
    have h1 := acct_release e.2.principal e.2.remaining s x
    have h2 := ih (release e.2.principal e.2.remaining s)
    exact ⟨h2.1.trans h1.1, h2.2.trans h1.2⟩

/-! ### The whole of a warm restart -/

/-- What a warm restart moves once it has begun. -/
abbrev restartParts : List Part := quietLeaveParts ++ [.principals, .groups, .softList]

/-- The state when every link has restarted. -/
def linksRestarted (s : State) : State := serverList.foldl linkRestart (restartBegun s)

/-- The state in which the notices of a warm restart are raised. -/
def restartSettled (s : State) : State := restartUnpins s.rsc.jobs s.dc.jobs (restartReleases s.rsc.jobs (linksRestarted s))

theorem warmRestart_settled (s : State) : warmRestart s = presentAll (restartNotices s.rsc.jobs s.dc.jobs (restartSettled s)) := rfl

theorem restartUnpins_frame (jobs : Tab RestoreJob) (dups : Tab DupJob) (s : State) : Frame catalogParts s (restartUnpins jobs dups s) :=
  (Frame.foldl (fun _ _ => unpin_frame _ _) _ s).trans (Frame.foldl (fun _ _ => unpin_frame _ _) _ _)

theorem restartReleases_frame (jobs : Tab RestoreJob) (s : State) : Frame evalParts s (restartReleases jobs s) :=
  Frame.foldl (fun _ _ => release_frame _ _ _) _ s

section
variable {s : State} (ht : Tables s)
include ht

theorem linksRestarted_turns : Turns serverList (restartBegun s) (linksRestarted s) :=
  linkRestarts_turns (by decide) (by
    rw [show (restartBegun s).vt = s.vt from restartBegun_unchanged s .volumes (by decide)]; exact ht.volumes.1)
    (restartBegun_noJobs s)

theorem restartSettled_frame : Frame restartParts (restartBegun s) (restartSettled s) :=
  (restartUnpins_frame _ _ _).after (by decide) ((restartReleases_frame _ _).after (by decide)
    ((linksRestarted_turns ht).frame.into (by decide)))

theorem warmRestart_frame : Frame restartParts (restartBegun s) (warmRestart s) := by
  rw [warmRestart_settled]
  exact (presentAll_frame _).after (by decide) ((restartNotices_frame _ _ _).after (by decide) (restartSettled_frame ht))

omit ht in
theorem restartNow (u : State) (h : Frame restartParts (restartBegun s) u) : now u = now s :=
  h.now.trans (restartBegun_unchanged s .clock (by decide)).2.1

/-- Each server's link after a warm restart. -/
theorem warmRestart_link (srv : ServerId) : Restarted srv s (warmRestart s) := by
  have h0 := restartBegun_unchanged s
  have hbegun : OtherTurn srv s (restartBegun s) := by
    have hl : ∀ j, link (restartBegun s) j = link s j := fun j => by
      unfold link; rw [show (restartBegun s).lu.links = s.lu.links from h0 .links (by decide)]
    have hv : ∀ v, volume (restartBegun s) v = volume s v := fun v => by
      unfold volume; rw [show (restartBegun s).vt = s.vt from h0 .volumes (by decide)]
    refine ⟨by rw [hl]; exact Link.Grown.refl _, fun hq => ⟨hl _, ?_, fun v => by rw [hv]; exact hq.2 v⟩⟩
    unfold linkUp
    rw [hl]
    exact hq.1
  exact ((((linksRestarted_turns ht).own srv (mem_serverList srv)).before hbegun (h0 .clock (by decide)).2.1)).after
    ((warmRestart_rest_work s).otherTurn srv)

theorem warmRestart_intake (srv : ServerId) : intake (warmRestart s) srv = (intake s srv).restarted := by
  have h := (linksRestarted_turns ht).intakes srv
  rw [if_pos (mem_serverList srv)] at h
  unfold intake at h ⊢
  rw [(warmRestart_rest_work s).intakes]
  exact h.trans (by rw [show (restartBegun s).ciu = s.ciu from restartBegun_unchanged s .intakes (by decide)])

theorem warmRestart_volume (v : Nat) : (volume (warmRestart s) v).state =
    if (volume s v).state = .attached ∧ (volume s v).server < 8 ∧ linkUp s (volume s v).server = true then .stale
    else (volume s v).state := by
  have hl : ∀ j, linkUp (restartBegun s) j = linkUp s j := fun j => by
    unfold linkUp link; rw [show (restartBegun s).lu.links = s.lu.links from restartBegun_unchanged s .links (by decide)]
  have hv : volume (restartBegun s) v = volume s v := by
    unfold volume; rw [show (restartBegun s).vt = s.vt from restartBegun_unchanged s .volumes (by decide)]
  have hmem : ∀ n : Nat, n ∈ serverList ↔ n < 8 := fun n => by simp [serverList]; omega
  rw [((warmRestart_rest_work s).volumes v).state]
  refine ((linksRestarted_turns ht).volumes v).1.trans ?_
  rw [hv, hl, Volume.restarted]
  simp [hmem]

/-- The job places and last end records after a warm restart. -/
theorem warmRestart_jobs : (warmRestart s).rsc.jobs = [] ∧ (warmRestart s).cca.acceptance = [] ∧ (warmRestart s).dc.jobs = []
    ∧ (∀ id j, restoreJob s id = some j → tget (warmRestart s).rsc.lastEnd id = some (endRecord s j .aborted))
    ∧ (∀ v j, dupJob s v = some j →
        tget (warmRestart s).dc.lastEnd v = some (dupEndOf s .halted (baseEpoch s v) (baseEpoch s v) j)) := by
  have hf := warmRestart_frame ht
  obtain ⟨hends, hdups, hacc⟩ := restartBegun_ends s
  obtain ⟨hjobs, hdjobs⟩ := (restartBegun_noJobs s).kept hf
  refine ⟨hjobs, (show (warmRestart s).cca.acceptance = _ from hf.same .acceptance (by decide)).trans hacc, hdjobs,
    fun id j hj => ?_, fun v j hj => ?_⟩
  · rw [show (warmRestart s).rsc.lastEnd = _ from hf.same .restoreEnds (by decide), hends]
    exact tget_foldl_ends (fun e => endRecord s e.2 .aborted) ht.restoreJobs.1 hj _
  · rw [show (warmRestart s).dc.lastEnd = _ from hf.same .dupEnds (by decide), hdups]
    exact tget_foldl_ends (fun e => dupEndOf s .halted (baseEpoch s e.1) (baseEpoch s e.1) e.2) ht.dupJobs.1 hj _

theorem warmRestart_acct (x : Subject) : (acct s x).Stands (acct (warmRestart s) x) := by
  have h1 : acct (linksRestarted s) x = acct s x :=
    ((linksRestarted_turns ht).frame.acct x).trans
      (acct_congr (restartBegun_unchanged s .principals (by decide)) (restartBegun_unchanged s .groups (by decide)) x)
  have h2 := acct_restartReleases s.rsc.jobs (linksRestarted s) x
  have h3 : acct (warmRestart s) x = acct (restartReleases s.rsc.jobs (linksRestarted s)) x := by
    rw [warmRestart_settled]
    exact ((presentAll_frame _).acct x).trans (((restartNotices_frame _ _ _).acct x).trans ((restartUnpins_frame _ _ _).acct x))
  rw [h3, ← h1]
  exact h2

end

theorem restarted_next {i : Intake} : ((∀ q ∈ i.queue, q.dup = true) → i.restarted.next = i.next)
    ∧ ∀ pre q rest, i.queue = pre ++ q :: rest → (∀ x ∈ pre, x.dup = true) → q.dup = false → i.restarted.next = q.num := by
  have hnone : ∀ l : List QueuedRecord, (∀ q ∈ l, q.dup = true) → oldestNew l = none := fun l => by
    induction l with
    | nil => exact fun _ => rfl
    | cons q r ih =>
      intro h
      rw [oldestNew, if_pos (h q (List.mem_cons_self ..))]
      exact ih fun x hx => h x (List.mem_cons_of_mem _ hx)
  have hsome : ∀ (pre rest : List QueuedRecord) (q : QueuedRecord), (∀ x ∈ pre, x.dup = true) → q.dup = false →
      oldestNew (pre ++ q :: rest) = some q.num := fun pre rest q hpre hq => by
    induction pre with
    | nil => simp [oldestNew, hq]
    | cons x r ih =>
      rw [List.cons_append, oldestNew, if_pos (hpre x (List.mem_cons_self ..))]
      exact ih fun y hy => hpre y (List.mem_cons_of_mem _ hy)
  refine ⟨fun h => ?_, fun pre q rest hq hpre hd => ?_⟩
  · change (oldestNew i.queue).getD i.next = i.next
    rw [hnone _ h]
    rfl
  · change (oldestNew i.queue).getD i.next = q.num
    rw [hq, hsome pre rest q hpre hd]
    rfl

/-! ### The notices a warm restart leaves -/

/-- The Notice Queue as a warm restart begins. -/
theorem restartBegun_nq (s : State) :
    (restartBegun s).nq = { s.nq with queue := [], slot := none, overflow := false, lost := 0 } :=
  congrArg MgmtView.nq (restartBegun_view s)

theorem restartSettled_speaks (s : State) : Speaks (restartBegun s) (restartSettled s) :=
  ((restartUnpins_work _ _ _).after (restartReleases_work _ _)).speaks.after (Speaks.foldl linkRestart_speaks _ _)

theorem warmRestart_nq (s : State) : (warmRestart s).nq = (restartNotices s.rsc.jobs s.dc.jobs (restartSettled s)).nq := by
  rw [warmRestart_settled]
  exact (mgmtView_eq_iff.1 (presentAll_silent _)).2.2.2.2.2

/-- What is shown stands in an entry when nothing was lost. -/
theorem Shows.entry {p : Notice → Prop} {q : Nq} (h : Shows p q) (ho : q.overflow = false) : ∃ e ∈ q.queue, p ⟨e.subject, e.content⟩ :=
  h.shown.resolve_left (by rw [ho]; decide)

theorem warmRestart_counts {s : State} (hx : s.nq.express = none) (hseq : s.nq.seq < 4294967296) :
    Counting s.nq.seq (warmRestart s).nq := by
  refine (warmRestart_speaks s).keeps (P := Counting s.nq.seq) (fun _ n h => h.raise n) ?_
  rw [restartBegun_nq]
  exact ⟨⟨hx, rfl⟩, fun _ => rfl, fun _ => (Nat.mod_eq_of_lt hseq).symm⟩

section
variable (jobs : Tab RestoreJob) (dups : Tab DupJob) {u : State} (ho : Ordinary u.nq)
include ho

theorem restartNotices_stale (hs : tsorted u.vt = true) {v : Nat} (hv : (volume u v).state = .stale) :
    Shows (fun m => m = staleNote u v) (restartNotices jobs dups u).nq := by
  have hk : ∀ m, m = staleNote u v → m.content.kind = .volumeStale := by rintro _ rfl; rfl
  have h1 := (restartStales_shows hs ho hv).restartBacklog hk (by decide)
  have h2 := (h1.restartReserves hk (by decide)).restartDones hk jobs (by decide)
  exact h2.restartDups hk dups (by decide)

theorem restartStales_ordinary : Ordinary (restartStales u).nq :=
  ho.speaks (Work.foldl (fun _ _ => notifyStale_work _ _ _ _ _) _ u).speaks

theorem restartNotices_backlog (hb : u.et.backlog ≠ []) :
    Shows (fun m => m = ⟨.device, .enforceBacklog true u.et.backlog.length u.et.table.length (now u)⟩)
      (restartNotices jobs dups u).nq := by
  have hf := restartStales_frame u
  have hback : (restartStales u).et.backlog = u.et.backlog := hf.same .backlog (by decide)
  have htable : (restartStales u).et.table = u.et.table := hf.same .denyTable (by decide)
  have h1 := restartBacklog_shows (restartStales_ordinary ho) (by rw [hback]; exact hb)
  rw [hback, htable, hf.now] at h1
  have hk : ∀ m, m = (⟨.device, .enforceBacklog true u.et.backlog.length u.et.table.length (now u)⟩ : Notice) →
      m.content.kind = .enforceBacklog := by rintro _ rfl; rfl
  exact ((h1.restartReserves hk (by decide)).restartDones hk jobs (by decide)).restartDups hk dups (by decide)

theorem restartBacklog_ordinary : Ordinary (restartBacklog (restartStales u)).nq := by
  refine (restartStales_ordinary ho).speaks ?_
  unfold restartBacklog
  split
  · exact Speaks.refl _
  · exact (notifyBacklog_work _ _).speaks

theorem restartNotices_reserve {v : Nat} (hv : reserveFlag u v = true) :
    Shows (fun m => ∃ held limit n, m = ⟨.volume v, .reserveOver true held limit n (now u)⟩) (restartNotices jobs dups u).nq := by
  have hf := (restartStales_frame u).trans (restartBacklog_frame _)
  have h1 := restartReserves_shows (restartBacklog_ordinary ho) (v := v) (by
    unfold reserveFlag at hv ⊢
    rw [show (restartBacklog (restartStales u)).sc.reserveOver = u.sc.reserveOver from hf.same .reserveOver (by decide)]
    exact hv)
  rw [hf.now] at h1
  have hk : ∀ m, (∃ held limit n, m = (⟨.volume v, .reserveOver true held limit n (now u)⟩ : Notice)) →
      m.content.kind = .reserveOver := by rintro _ ⟨_, _, _, rfl⟩; rfl
  exact (h1.restartDones hk jobs (by decide)).restartDups hk dups (by decide)

theorem restartReserves_ordinary : Ordinary (restartReserves (restartBacklog (restartStales u))).nq :=
  (restartBacklog_ordinary ho).speaks (Work.foldl (fun _ _ => notifyReserve_work _ _ _) _ _).speaks

theorem restartNotices_done (hj : tsorted jobs = true) {id : Nat} {j : RestoreJob} (hm : (id, j) ∈ jobs) :
    Shows (fun m => m = doneNote u (id, j)) (restartNotices jobs dups u).nq := by
  have hf := ((restartStales_frame u).trans (restartBacklog_frame _)).trans (restartReserves_frame _)
  have h1 := restartDones_shows hj (restartReserves_ordinary ho) hm
  have hnote : doneNote (restartReserves (restartBacklog (restartStales u))) (id, j) = doneNote u (id, j) := by
    unfold doneNote; rw [hf.now]
  rw [hnote] at h1
  exact h1.restartDups (by rintro _ rfl; rfl) dups (k := .restoreDone) (by decide)

theorem restartNotices_dup (hj : tsorted dups = true) {v : Nat} {j : DupJob} (hm : (v, j) ∈ dups) :
    Shows (fun m => ∃ base, m = ⟨.volume v, .dupState .halted .restart j.target j.targetEpoch base base j.regions j.mib j.batches
      j.failures j.lastFailure (now u)⟩) (restartNotices jobs dups u).nq := by
  have hf := (((restartStales_frame u).trans (restartBacklog_frame _)).trans (restartReserves_frame _)).trans
    (restartDones_frame jobs _)
  have hw : Work (restartReserves (restartBacklog (restartStales u)))
      (restartDones jobs (restartReserves (restartBacklog (restartStales u)))) :=
    Work.foldl (fun _ _ => restoreDone_work _ _ _ _ _) _ _
  have h1 := restartDups_shows hj ((restartReserves_ordinary ho).speaks hw.speaks) hm
  rw [hf.now] at h1
  exact h1

end

theorem warmRestart_settled_frame (s : State) : Frame (.credits :: raiseParts) (restartSettled s) (warmRestart s) := by
  rw [warmRestart_settled]
  exact (presentAll_frame _).after (by decide) ((restartNotices_frame _ _ _).into (by decide))

section
variable {s : State} (ht : Tables s)
include ht

/-- What the Notice Queue holds after a warm restart, when no express kind is set and nothing was lost (R203). -/
theorem warmRestart_shows (hn : NoticeInv s) (hx : s.nq.express = none) (hover : (warmRestart s).nq.overflow = false) :
    (warmRestart s).nq.lost = 0 ∧ (warmRestart s).nq.slot = none
      ∧ (warmRestart s).nq.seq = (s.nq.seq + (warmRestart s).nq.queue.length) % 4294967296
      ∧ (∀ v, (volume (warmRestart s) v).state = .stale → ∃ e ∈ (warmRestart s).nq.queue, e.subject = .volume v
          ∧ e.content = .volumeStale true (volume (warmRestart s) v).server .stale .restart (now s))
      ∧ ((warmRestart s).et.backlog ≠ [] → ∃ e ∈ (warmRestart s).nq.queue, e.subject = .device
          ∧ e.content = .enforceBacklog true (warmRestart s).et.backlog.length (warmRestart s).et.table.length (now s))
      ∧ (∀ v, reserveFlag (warmRestart s) v = true → ∃ e ∈ (warmRestart s).nq.queue, ∃ held limit n, e.subject = .volume v
          ∧ e.content = .reserveOver true held limit n (now s))
      ∧ (∀ id j, restoreJob s id = some j → ∃ e ∈ (warmRestart s).nq.queue, e.subject = .job id
          ∧ e.content = .restoreDone id j.principal j.volume j.snapshot .aborted j.copied (j.countStatus .done)
              (j.countStatus .failed) j.failCounts j.remaining (now s))
      ∧ (∀ v j, dupJob s v = some j → ∃ e ∈ (warmRestart s).nq.queue, ∃ base, e.subject = .volume v
          ∧ e.content = .dupState .halted .restart j.target j.targetEpoch base base j.regions j.mib j.batches j.failures
              j.lastFailure (now s)) := by
  have hc := warmRestart_counts hx hn.counts.1
  have hf := warmRestart_settled_frame s
  have ho : Ordinary (restartSettled s).nq := by
    refine Ordinary.speaks ?_ (restartSettled_speaks s)
    rw [restartBegun_nq]
    exact ⟨hx, rfl⟩
  have hnow : now (restartSettled s) = now s := restartNow _ (restartSettled_frame ht)
  have hsorted : tsorted (restartSettled s).vt = true :=
    ((restartUnpins_work _ _ _).after (restartReleases_work _ _)).sorted (linksRestarted_turns ht).sorted
  have hnq := warmRestart_nq s
  refine ⟨hc.lost hover, hc.ordinary.2, hc.seq hover, fun v hv => ?_, fun hb => ?_, fun v hv => ?_, fun id j hj => ?_, fun v j hj => ?_⟩
  · rw [hf.volume (by decide)] at hv ⊢
    have h := restartNotices_stale s.rsc.jobs s.dc.jobs ho hsorted hv
    rw [← hnq] at h
    obtain ⟨e, he, hp⟩ := h.entry hover
    refine ⟨e, he, congrArg Notice.subject hp, (congrArg Notice.content hp).trans ?_⟩
    rw [← hnow]
    rfl
  · have hback : (warmRestart s).et.backlog = (restartSettled s).et.backlog := hf.same .backlog (by decide)
    have htable : (warmRestart s).et.table = (restartSettled s).et.table := hf.same .denyTable (by decide)
    rw [hback] at hb
    have h := restartNotices_backlog s.rsc.jobs s.dc.jobs ho hb
    rw [← hnq] at h
    obtain ⟨e, he, hp⟩ := h.entry hover
    rw [hback, htable, ← hnow]
    exact ⟨e, he, congrArg Notice.subject hp, congrArg Notice.content hp⟩
  · have h := restartNotices_reserve s.rsc.jobs s.dc.jobs ho (v := v) (by
      unfold reserveFlag at hv ⊢
      rw [← show (warmRestart s).sc.reserveOver = (restartSettled s).sc.reserveOver from hf.same .reserveOver (by decide)]
      exact hv)
    rw [← hnq] at h
    obtain ⟨e, he, held, limit, n, hp⟩ := h.entry hover
    rw [← hnow]
    exact ⟨e, he, held, limit, n, congrArg Notice.subject hp, congrArg Notice.content hp⟩
  · have h := restartNotices_done s.rsc.jobs s.dc.jobs ho ht.restoreJobs.1 (mem_of_tget hj)
    rw [← hnq] at h
    obtain ⟨e, he, hp⟩ := h.entry hover
    refine ⟨e, he, congrArg Notice.subject hp, (congrArg Notice.content hp).trans ?_⟩
    rw [← hnow]
    rfl
  · have h := restartNotices_dup s.rsc.jobs s.dc.jobs ho ht.dupJobs.1 (mem_of_tget hj)
    rw [← hnq] at h
    obtain ⟨e, he, base, hp⟩ := h.entry hover
    rw [← hnow]
    exact ⟨e, he, base, congrArg Notice.subject hp, congrArg Notice.content hp⟩

end

/-- Settles O34. -/
theorem warmRestart_holds : Obligations.WarmRestart := by
  refine ⟨restart_taken, fun s hdue ht => ?_, fun s hp => congrArg Host.Outcome.next (if_pos hp)⟩
  have hspeaks := warmRestart_speaks s
  have hsince : Since s.nq.age (warmRestart s).nq := by
    refine hspeaks.keeps (P := Since s.nq.age) (fun _ n h => h.raise n) ?_
    rw [restartBegun_nq]
    exact ⟨le_refl _, (fun _ h => by cases h), (fun _ h => by cases h)⟩
  have hbegun : (restartBegun s).lu.restart = .inProgress := congrArg MgmtView.restart (restartBegun_view s)
  have hreplies : (restartBegun s).lu.replies = s.lu.replies := congrArg MgmtView.replies (restartBegun_view s)
  have hpins : (restartBegun s).pins = s.pins := restartBegun_unchanged s .pins (by decide)
  obtain ⟨hjobs, hacc, hdups, hends, hdends⟩ := warmRestart_jobs ht
  refine ⟨warmRestart s, congrArg Host.Outcome.next (if_pos hdue), (hspeaks.restart (by rw [hbegun]; decide)).trans hbegun,
    fun srv => ?_, warmRestart_volume ht, hjobs, hacc, hdups, fun id j hj => ?_, fun v j hj => ?_,
    fun p => warmRestart_acct ht (.principal p), hsince.queue, hsince.slot, warmRestart_shows ht,
    ((restartBegun_unchanged s).mono (by decide)).trans ((warmRestart_frame ht).parts.mono (by decide)), fun hc => ?_⟩
  · have hr := warmRestart_link ht srv
    have hi := warmRestart_intake ht srv
    obtain ⟨hdup, hold⟩ := restarted_next (i := intake s srv)
    rw [hi]
    exact ⟨hr.moved, hr.stood, fun hu => ⟨(hr.emptied hu).1, (hr.emptied hu).2.1⟩, hr.held, rfl, rfl, rfl, hdup, hold⟩
  · exact ⟨_, hends id j hj, rfl, rfl, rfl, rfl⟩
  · exact ⟨_, hdends v j hj, rfl, rfl, rfl⟩
  · exact (hspeaks.replies (by rw [hpins]; exact hc)).1.trans hreplies

end Sys2Proof.Machine
end

