-- ==== Sys2Proof/Proofs/QuietCredits.lean ====
section
/-! SUPPORT. Credits of a server to which nothing is handed, and what one server's comings and goings leave of another (R15, R18,
R143). -/

namespace Sys2Proof.Machine

/-! ### Credits of a quiet server -/

/-- All four credits of a server are free. -/
def AllFree (j : Nat) (s : State) : Prop := (credit s j).free = 4 ∧ (credit s j).restore = 0 ∧ (credit s j).ship = 0

/-- All four credits of a server are free, and it presents no duplication candidate. -/
def Unasked (j : Nat) (s : State) : Prop := AllFree j s ∧ (credit s j).dupCandidate = false

theorem eligibleOn_quiet {j : Nat} {s : State} (h : QuietServer j s) : eligibleOn s j = [] := by
  refine List.eq_nil_iff_forall_not_mem.2 fun v hv => ?_
  obtain ⟨_, -, hsrv, he⟩ := mem_eligibleOn hv
  exact h.2 v hsrv (dupEligible_iff.1 he).2.2.2.2.1

theorem restoreCandidates_quiet {j : Nat} {s : State} (h : QuietServer j s) : restoreCandidates s j = [] := by
  refine List.eq_nil_iff_forall_not_mem.2 fun c hc => ?_
  have := (isCandidate_iff.1 (mem_restoreCandidates hc).2).2.2.2
  rw [h.1] at this
  cases this

theorem setCredit_of_ne {i j : Nat} (r : Credit) (s : State) (h : i ≠ j) : credit (setCredit i r s) j = credit s j := by
  rw [credit_setCredit, if_neg h]

theorem setCredit_quiet {i j : Nat} {r : Credit} {s : State} (h : QuietServer j s) : QuietServer j (setCredit i r s) :=
  (setCredit_work i r s).quietServer h

theorem present_allFree {i j : Nat} {s : State} (h : AllFree j s) : AllFree j (present i s) := by
  unfold present AllFree
  rw [credit_setCredit]
  split
  · rename_i hi; subst hi; exact h
  · exact h

theorem presentAll_allFree {j : Nat} {s : State} (h : AllFree j s) : AllFree j (presentAll s) :=
  foldl_keeps (f := fun s srv => present srv s) (P := AllFree j) (fun _ _ h => present_allFree h) _ h

/-- A quiet server presents no candidate. -/
theorem presentAll_quiet {j : ServerId} {s : State} (h : QuietServer j s) (hf : AllFree j s) : Unasked j (presentAll s) := by
  have hone (i : Nat) (u : State) (hu : QuietServer j u) (hc : i = j.val ∨ (credit u j).dupCandidate = false) :
      (credit (present i u) j).dupCandidate = false := by
    rw [present, credit_setCredit]
    split
    · rename_i hi; subst hi; simp [eligibleOn_quiet hu]
    · exact hc.resolve_left ‹_›
  refine ⟨presentAll_allFree hf, (foldl_brings (f := fun s srv => present srv s) (I := QuietServer j)
    (P := fun i u => i = j.val → QuietServer j u ∧ (credit u j).dupCandidate = false) (fun _ _ h => setCredit_quiet h)
    (fun u i hu hi => ⟨setCredit_quiet hu, hone i u hu (.inl hi)⟩) (fun u i c hp hi => ?_) h (mem_serverList j) rfl).2⟩
  obtain ⟨hq, hc⟩ := hp hi
  exact ⟨setCredit_quiet hq, hone c u hq (.inr hc)⟩

theorem Unasked.of_credit {j : Nat} {s t : State} (h : Unasked j s) (hc : credit t j = credit s j) : Unasked j t := by
  unfold Unasked AllFree at h ⊢
  rw [hc]
  exact h

theorem Frame.credit {L : List Part} {s t : State} (h : Frame L s t) (j : Nat)
    (hc : Part.credits ∉ Part.replies :: Part.restart :: L := by decide) : Machine.credit t j = Machine.credit s j := by
  unfold Machine.credit
  rw [show t.cca.servers = s.cca.servers from h.same .credits hc]

theorem grantRestore_credit {i j : Nat} (id : Nat) (x : RestoreJob) (s : State) (h : i ≠ j) :
    credit (grantRestore i id x s) j = credit s j := by
  unfold grantRestore
  split
  · rfl
  · exact setCredit_of_ne _ s h

theorem returnShip_credit {i j : Nat} (s : State) (h : i ≠ j) : credit (returnShip i s) j = credit s j := by
  unfold returnShip
  dsimp only
  split
  · rfl
  · exact setCredit_of_ne _ s h

theorem formBatch_credit (i v : Nat) (x : DupJob) (s : State) (j : Nat) : credit (formBatch i v x s) j = credit s j := rfl

/-- A credit for another server's duplication candidate leaves a quiet server's credits. -/
theorem grantDup_unasked {i : Nat} {j : ServerId} {s : State} (h : QuietServer j s) (hf : Unasked j s) (hij : i ≠ j.val) :
    Unasked j (grantDup i s) := by
  have hs1 (c : Credit) : Unasked j (setCredit i c s) := hf.of_credit (setCredit_of_ne _ s hij)
  have hq1 (c : Credit) : QuietServer j (setCredit i c s) := setCredit_quiet h
  unfold grantDup
  dsimp only
  split
  · exact presentAll_quiet ((returnShip_work _ _).quietServer (hq1 _)) ((hs1 _).of_credit (returnShip_credit _ hij)).1
  · rename_i v hv
    split
    · exact presentAll_quiet ((returnShip_work _ _).quietServer (hq1 _)) ((hs1 _).of_credit (returnShip_credit _ hij)).1
    · refine presentAll_quiet ((formBatch_work _ fun hq => ?_).quietServer (hq1 _)) ((hs1 _).of_credit (formBatch_credit _ _ _ _ _)).1
      obtain ⟨k, -, hs, he⟩ := mem_eligibleOn (pickVolume_mem hv)
      exact hq.2 v hs (dupEligible_iff.1 he).2.2.2.2.1

/-- The grants of any server leave a quiet server's credits. -/
theorem grantLoop_unasked {j : ServerId} (i n : Nat) {s : State} (h : QuietServer j s) (hf : Unasked j s) :
    Unasked j (grantLoop i n s) := by
  induction n generalizing s with
  | zero => exact hf
  | succ n ih =>
    rw [grantLoop]
    split
    · exact hf
    · split
      · rename_i c hc
        have hmem : c ∈ restoreCandidates s i := by
          split at hc
          · exact bestCandidate_mem hc
          · cases hc
        have hij : i ≠ j.val := by
          rintro rfl
          rw [restoreCandidates_quiet h] at hmem
          cases hmem
        have hup := (isCandidate_iff.1 (mem_restoreCandidates hmem).2).2.2.2
        exact ih ((grantRestore_work _ _ hup).quietServer h) (hf.of_credit (grantRestore_credit _ _ s hij))
      · split
        · rename_i hcand
          have hij : i ≠ j.val := by
            rintro rfl
            rw [hf.2] at hcand
            cases hcand
          exact ih ((grantDup_work i s).quietServer h) (grantDup_unasked h hf hij)
        · exact hf

theorem grantAll_allFree {j : ServerId} {s : State} (h : QuietServer j s) (hf : AllFree j s) : AllFree j (grantAll s) :=
  (foldl_keeps (f := fun s srv => grantLoop srv 4 s) (P := fun u => QuietServer j u ∧ Unasked j u)
    (fun _ i hu => ⟨(grantLoop_work i 4 _).quietServer hu.1, grantLoop_unasked i 4 hu.1 hu.2⟩) _
    ⟨(presentAll_work s).quietServer h, presentAll_quiet h hf⟩).2.1

end Sys2Proof.Machine
end

