-- ==== Sys2Proof/Proofs/SilenceTurns.lean ====
section
/-! SUPPORT. Silence supervision of every link at a second event (R15), and the IDLE frames: each server's own turn, and what the
others' turns leave of it. -/

namespace Sys2Proof.Machine

/-! ### What a server is left by the others -/

/-- Between two states only work has been done for a server, while it was not its turn. -/
structure Untouched (j : ServerId) (s t : State) : Prop where
  link : (link s j).Grown (link t j)
  intake : intake t j = intake s j
  servers : ∀ v, (volume t v).server = (volume s v).server
  volumes : ∀ v, (volume s v).server = j → (volume t v).state = (volume s v).state

/-- Another server's turn, or work: a server to which nothing is handed keeps its link, its free credits and its want of parts in
the deny table. -/
structure Elsewhere (j : ServerId) (s t : State) : Prop extends Untouched j s t where
  quiet : QuietServer j s → Machine.link t j = Machine.link s j
  credits : QuietServer j s → AllFree j s → AllFree j t
  noPart : linkUp s j = false → NoPart j s → NoPart j t

theorem Untouched.linkUp {j : ServerId} {s t : State} (h : Untouched j s t) : linkUp t j = linkUp s j := by
  unfold Machine.linkUp; rw [h.link.state]

theorem Untouched.quietServer {j : ServerId} {s t : State} (h : Untouched j s t) (hq : QuietServer j s) : QuietServer j t :=
  ⟨by rw [h.linkUp]; exact hq.1, fun v hv => by
    rw [h.servers] at hv
    rw [h.volumes v hv]
    exact hq.2 v hv⟩

theorem Untouched.trans {j : ServerId} {s t u : State} (h1 : Untouched j s t) (h2 : Untouched j t u) : Untouched j s u :=
  ⟨h1.link.trans h2.link, h2.intake.trans h1.intake, fun v => (h2.servers v).trans (h1.servers v),
    fun v hv => (h2.volumes v ((h1.servers v).trans hv)).trans (h1.volumes v hv)⟩

theorem Untouched.refl (j : ServerId) (s : State) : Untouched j s s := ⟨Link.Grown.refl _, rfl, fun _ => rfl, fun _ _ => rfl⟩

theorem Elsewhere.trans {j : ServerId} {s t u : State} (h1 : Elsewhere j s t) (h2 : Elsewhere j t u) : Elsewhere j s u where
  toUntouched := h1.toUntouched.trans h2.toUntouched
  quiet h := (h2.quiet (h1.quietServer h)).trans (h1.quiet h)
  credits h hf := h2.credits (h1.quietServer h) (h1.credits h hf)
  noPart hu hn := h2.noPart (by rw [h1.linkUp]; exact hu) (h1.noPart hu hn)

theorem Elsewhere.refl (j : ServerId) (s : State) : Elsewhere j s s := ⟨Untouched.refl j s, fun _ => rfl, fun _ h => h, fun _ h => h⟩

theorem Work.untouched {s t : State} (h : Work s t) (j : ServerId) : Untouched j s t :=
  ⟨h.links j, by unfold intake; rw [h.intakes], fun v => (h.volumes v).server, fun v _ => (h.volumes v).state⟩

theorem Work.elsewhere {s t : State} (h : Work s t) {j : ServerId} (hc : QuietServer j s → AllFree j s → AllFree j t) : Elsewhere j s t :=
  ⟨h.untouched j, h.quiet j, hc, h.noPart j⟩

theorem AllFree.of_credit {j : Nat} {s t : State} (h : AllFree j s) (hc : credit t j = credit s j) : AllFree j t := by
  unfold AllFree; rw [hc]; exact h

theorem grantAll_elsewhere (j : ServerId) (s : State) : Elsewhere j s (grantAll s) := (grantAll_work s).elsewhere grantAll_allFree

theorem Elsewhere.foldl {β : Type} {f : State → β → State} {j : ServerId} (hf : ∀ s b, Elsewhere j s (f s b)) (l : List β) (s : State) :
    Elsewhere j s (l.foldl f s) := by
  induction l generalizing s with
  | nil => exact .refl j s
  | cons b r ih => exact (hf s b).trans (ih _)

/-! ### A link that leaves UP -/

/-- The parts that the orders failed back and what follows them can move, up to the grants. -/
abbrev settleParts : List Part := .toDc :: .dupJobs :: .dupEnds :: restoreEndParts

theorem failBack_settles (srv : Nat) (q : Bool) (s : State) (o : Order) : Frame settleParts s (failBack srv q s o) := by
  unfold failBack
  split
  · unfold snapFailedBack
    split
    · exact (failTake_frame _ _ _ _ s).into (by decide)
    · split
      · exact (setSnap_frame _ _ s).into (by decide)
      · exact Frame.refl _ s
  · unfold copyFailedBack
    split
    · exact Frame.refl _ s
    · exact (testRestoreEnd_frame _ _).after (by decide) ((setRestoreJob_frame _ _ s).into (by decide))
  · unfold shipFailedBack
    split
    · exact Frame.refl _ s
    · exact (batchFailed_frame _ _ _ s).into (by decide)
  · exact Frame.refl _ s

/-- A link's leaving, from the orders failed back to what the DC hears of it. -/
def leavingRest (srv : Nat) (a : LinkState) (w : LinkReason) (os : List Order) (p : State) : State :=
  dcListen (notifyLink srv .up a w (enforceLeave srv (os.foldl (failBack srv false) p)))

theorem dropLink_eq (srv : Nat) (a : LinkState) (w : LinkReason) (s : State) :
    dropLink srv a w s = grantAll (leavingRest srv a w (link s srv).orders (leaveParting srv a w false s)) := rfl

theorem leavingRest_work (srv : Nat) (a : LinkState) (w : LinkReason) (os : List Order) (p : State) :
    Work p (leavingRest srv a w os p) :=
  (dcListen_work _).after ((notifyLink_work _ _ _ _ _).after (leaveRest_work srv false os p))

theorem leavingRest_frame (srv : Nat) (a : LinkState) (w : LinkReason) (os : List Order) (p : State) :
    Frame settleParts p (leavingRest srv a w os p) :=
  (dcListen_frame _).after (by decide) ((notifyLink_frame _ _ _ _ _).after (by decide) ((enforceLeave_frame _ _).after (by decide)
    (Frame.foldl (failBack_settles srv false) os p)))

theorem credit_leaveParting (srv : Nat) (a : LinkState) (w : LinkReason) (s : State) (j : Nat) :
    credit (leaveParting srv a w false s) j
      = if srv = j then { credit s j with free := 4, restore := 0, ship := 0 } else credit s j := by
  have hvol : ∀ k, credit (volumesLeave srv false (changeLink srv a w (emptyLink srv s))) k = credit s k := fun k =>
    Frame.credit (L := .links :: .volumes :: raiseParts) ((volumesLeave_frame _ _ _).after (by decide)
      ((changeLink_frame _ _ _ _).after (by decide) ((setLink_frame _ _ s).into (by decide)))) k
  have h : credit (leaveParting srv a w false s) j
      = credit (resetCredits srv (volumesLeave srv false (changeLink srv a w (emptyLink srv s)))) j := (intakeLeave_frame _ _).credit j
  rw [h, resetCredits, credit_setCredit, hvol, hvol]
  split
  · rename_i hj; subst hj; rfl
  · rfl

theorem leaveParting_server {s : State} (hs : tsorted s.vt = true) (srv : Nat) (a : LinkState) (w : LinkReason) (q : Bool) (v : Nat) :
    (volume (leaveParting srv a w q s) v).server = (volume s v).server := by
  rw [volume_leaveParting hs]; split <;> rfl

theorem leaveParting_quiet {s : State} (hs : tsorted s.vt = true) (srv : Nat) {a : LinkState} (w : LinkReason) (q : Bool)
    (ha : a ≠ .up) : QuietServer srv (leaveParting srv a w q s) := by
  refine ⟨by rw [linkUp_leaveParting _ _ _ _ ha]; simp, fun v hv => ?_⟩
  rw [leaveParting_server hs] at hv
  rw [volume_leaveParting hs]
  split
  · exact fun h => by cases h
  · rename_i hno; exact fun h => hno ⟨hv, h⟩

theorem leaveParting_elsewhere {s : State} (hs : tsorted s.vt = true) {srv : Nat} {a : LinkState} (w : LinkReason)
    {j : ServerId} (hj : j.val ≠ srv) : Elsewhere j s (leaveParting srv a w false s) := by
  have hlink : link (leaveParting srv a w false s) j = link s j := by rw [link_leaveParting, if_neg (Ne.symm hj)]
  refine ⟨⟨by rw [hlink]; exact Link.Grown.refl _, by rw [intake_leaveParting, if_neg (Ne.symm hj)],
    fun v => leaveParting_server hs _ _ _ _ v, fun v hv => ?_⟩, fun _ => hlink, fun _ hf => ?_, fun _ hn => ?_⟩
  · rw [volume_leaveParting hs, if_neg fun h => hj (hv.symm.trans h.1)]
  · exact hf.of_credit (by rw [credit_leaveParting, if_neg (Ne.symm hj)])
  · unfold NoPart
    rw [show (leaveParting srv a w false s).et.table = s.et.table from (leaveParting_frame srv a w false s).same .denyTable (by decide)]
    exact hn

theorem leavingRest_elsewhere (srv : Nat) (a : LinkState) (w : LinkReason) (os : List Order) (p : State) (j : ServerId) :
    Elsewhere j p (leavingRest srv a w os p) :=
  (leavingRest_work srv a w os p).elsewhere fun _ hf => hf.of_credit ((leavingRest_frame srv a w os p).credit j)

theorem dropLink_elsewhere {s : State} (hs : tsorted s.vt = true) {srv : Nat} {a : LinkState} (w : LinkReason) {j : ServerId} (hj : j.val ≠ srv) : Elsewhere j s (dropLink srv a w s) := by
  rw [dropLink_eq]
  exact ((leaveParting_elsewhere hs w hj).trans (leavingRest_elsewhere _ _ _ _ _ _)).trans (grantAll_elsewhere _ _)

theorem dropLink_sorted {s : State} (hs : tsorted s.vt = true) (srv : Nat) (a : LinkState) (w : LinkReason) :
    tsorted (dropLink srv a w s).vt = true := by
  rw [dropLink_eq]
  exact (grantAll_work _).sorted ((leavingRest_work _ _ _ _ _).sorted (leaveParting_sorted srv a w false hs))

/-- The ET's part of a leaving leaves the server in no part of the deny table (R112). -/
theorem enforceLeave_noPart {srv : Nat} {s : State} (hu : linkUp s srv = false) : NoPart srv (enforceLeave srv s) := by
  have h0 : NoPart srv { s with et := { s.et with table := s.et.table.map fun e => (e.1, withPart srv ServerPart.fresh e.2) } } := by
    intro x hx
    obtain ⟨e, -, rfl⟩ := List.mem_map.1 hx
    change tget (tsetD ServerPart.fresh e.2.parts srv ServerPart.fresh) srv = none
    rw [tsetD, if_pos rfl, tget_tdel, if_pos rfl]
  exact ((testRemovals_work _).trans (handWants_work _)).noPart srv hu h0

/-- A server whose link has left UP: what `HasLeft` says of it, and that nothing is handed to it from then on. -/
structure Gone (srv : ServerId) (dest : LinkState) (why : LinkReason) (s t : State) : Prop where
  left : HasLeft srv dest why s t
  quiet : QuietServer srv t
  noPart : NoPart srv t
  servers : ∀ v, (volume t v).server = (volume s v).server

theorem NoPart.fresh {j : Nat} {s : State} (h : NoPart j s) {k : Nat} {e : DenyEntry} (he : tget s.et.table k = some e) :
    denyPart e j = ServerPart.fresh := by
  unfold denyPart tgetD
  rw [h (k, e) (mem_of_tget he)]
  rfl

theorem dropLink_gone {s : State} (hs : tsorted s.vt = true) (srv : ServerId) {a : LinkState} (w : LinkReason) (ha : a ≠ .up) :
    Gone srv a w s (dropLink srv a w s) := by
  have hq := leaveParting_quiet hs srv w false ha
  have hel : Elsewhere srv (leaveParting srv a w false s) (dropLink srv a w s) := by
    rw [dropLink_eq]
    exact (leavingRest_elsewhere _ _ _ _ _ srv).trans (grantAll_elsewhere srv _)
  have hlink : link (dropLink srv a w s) srv = (link s srv).left a w (now s) := by
    rw [hel.quiet hq, link_leaveParting, if_pos rfl]
  have hfree : AllFree srv (dropLink srv a w s) := by
    refine hel.credits hq ?_
    unfold AllFree
    rw [credit_leaveParting, if_pos rfl]
    exact ⟨rfl, rfl, rfl⟩
  have hint : intake (dropLink srv a w s) srv = (intake s srv).left := by
    rw [hel.intake, intake_leaveParting, if_pos rfl]
    rfl
  have hnone : NoPart srv (dropLink srv a w s) := by
    have hw := leaveRest_work srv false (link s srv).orders (leaveParting srv a w false s)
    have hd : linkUp ((link s srv).orders.foldl (failBack srv false) (leaveParting srv a w false s)) srv = false :=
      ((Work.foldl (failBack_work srv false) _ _).linkUp srv).trans hq.1
    rw [dropLink_eq]
    exact ((grantAll_work _).after ((dcListen_work _).after (notifyLink_work _ _ _ _ _))).noPart srv
      ((hw.linkUp srv).trans hq.1) (enforceLeave_noPart hd)
  refine ⟨⟨by rw [hlink]; exact ⟨rfl, rfl, rfl⟩, by rw [hlink]; exact ⟨rfl, rfl⟩, hfree, ?_, fun v hv => ?_,
    fun k e he => hnone.fresh he⟩, hel.quietServer hq, hnone,
    fun v => (hel.servers v).trans (leaveParting_server hs _ _ _ _ v)⟩
  · rw [hint]
    unfold Intake.left
    split
    · rename_i he; simp [he]
    · rename_i he; simp [he]
  · rw [hel.volumes v ((leaveParting_server hs _ _ _ _ v).trans hv), volume_leaveParting hs]
    by_cases hst : (volume s v).state = .attached
    · rw [if_pos ⟨hv, hst⟩, if_pos hst]
    · rw [if_neg fun h => hst h.2, if_neg hst]

/-- What follows leaves a server that is gone as it is. -/
theorem Gone.after {srv : ServerId} {a : LinkState} {w : LinkReason} {s t u : State} (h : Gone srv a w s t) (h2 : Elsewhere srv t u) :
    Gone srv a w s u := by
  have hn := h2.noPart h.quiet.1 h.noPart
  have hlink := h2.quiet h.quiet
  refine ⟨⟨?_, ?_, h2.credits h.quiet h.left.credits, ?_, fun v hv => ?_, fun k e he => hn.fresh he⟩, h2.quietServer h.quiet, hn,
    fun v => (h2.servers v).trans (h.servers v)⟩
  · rw [hlink]; exact h.left.link
  · rw [hlink]; exact h.left.orders
  · rw [h2.intake]; exact h.left.intake
  · rw [h2.volumes v ((h.servers v).trans hv)]; exact h.left.volumes v hv

/-- What came before a server's turn. -/
theorem Gone.before {srv : ServerId} {a : LinkState} {w : LinkReason} {s t u : State} (h : Gone srv a w t u)
    (h1 : Untouched srv s t) (hn : now t = now s) : Gone srv a w s u := by
  refine ⟨⟨?_, h.left.orders, h.left.credits, ?_, fun v hv => ?_, h.left.enforcement⟩, h.quiet, h.noPart,
    fun v => (h.servers v).trans (h1.servers v)⟩
  · rw [← hn]; exact h.left.link
  · rw [← h1.intake]; exact h.left.intake
  · rw [← h1.volumes v hv]; exact h.left.volumes v ((h1.servers v).trans hv)

/-! ### One server's turn -/

/-- A link whose silence count has risen. -/
def Link.silent (l : Link) : Link := { l with silence := l.silence + 1 }

/-- A server's turn of silence supervision. -/
structure SilenceTurn (j : ServerId) (s t : State) : Prop where
  faulted : linkUp s j = true → s.lu.silenceLimit ≤ (link s j).silence + 1 → Gone j .faulted .silence s t
  counted : linkUp s j = true → (link s j).silence + 1 < s.lu.silenceLimit → (link s j).silent.Grown (link t j)
  still : linkUp s j = false → (link s j).Grown (link t j)

theorem Link.Grown.silent {l m : Link} (h : l.Grown m) : l.silent.Grown m.silent := by
  obtain ⟨os, fs, c, rfl, hf⟩ := h
  exact ⟨os, fs, c, rfl, hf⟩

theorem Link.Grown.silence {l m : Link} (h : l.Grown m) : m.silence = l.silence := by obtain ⟨_, _, _, rfl, -⟩ := h; rfl

theorem SilenceTurn.after {j : ServerId} {s t u : State} (h : SilenceTurn j s t) (h2 : Elsewhere j t u) : SilenceTurn j s u :=
  ⟨fun hu hl => (h.faulted hu hl).after h2, fun hu hl => (h.counted hu hl).trans h2.link, fun hu => (h.still hu).trans h2.link⟩

theorem SilenceTurn.before {j : ServerId} {s t u : State} (h : SilenceTurn j t u) (h1 : Untouched j s t) (hn : now t = now s)
    (hlimit : t.lu.silenceLimit = s.lu.silenceLimit) : SilenceTurn j s u := by
  have hs := h1.link.silence
  have hu := h1.linkUp
  refine ⟨fun hup hl => (h.faulted (by rw [hu]; exact hup) (by rw [hlimit, hs]; exact hl)).before h1 hn, fun hup hl => ?_, fun hup => ?_⟩
  · exact h1.link.silent.trans (h.counted (by rw [hu]; exact hup) (by rw [hlimit, hs]; exact hl))
  · exact h1.link.trans (h.still (by rw [hu]; exact hup))

theorem link_silent (s : State) (srv : Nat) (j : Nat) :
    link (setLink srv (link s srv).silent s) j = if srv = j then (link s j).silent else link s j := by
  rw [link_setLink]
  split
  · rename_i h; subst h; rfl
  · rfl

theorem linkUp_silent (s : State) (srv j : Nat) : linkUp (setLink srv (link s srv).silent s) j = linkUp s j := by
  unfold linkUp
  rw [link_silent]
  split <;> rfl

theorem silenceTick_eq (s : State) (srv : Nat) : silenceTick s srv = if linkUp s srv = true then
    (if s.lu.silenceLimit ≤ (link s srv).silence + 1 then dropLink srv .faulted .silence (setLink srv (link s srv).silent s)
      else setLink srv (link s srv).silent s)
    else s := rfl

theorem silenceTick_turn {s : State} (hs : tsorted s.vt = true) (srv : ServerId) : SilenceTurn srv s (silenceTick s srv) := by
  rw [silenceTick_eq]
  have hs1 : tsorted (setLink srv (link s srv).silent s).vt = true := hs
  split
  · rename_i hu
    split
    · rename_i hl
      refine ⟨fun _ _ => ?_, fun _ hl' => absurd hl (by omega), fun hu' => by rw [hu] at hu'; cases hu'⟩
      have hg := dropLink_gone hs1 srv (a := .faulted) .silence (by decide)
      exact ⟨⟨hg.left.link, hg.left.orders, hg.left.credits, hg.left.intake, hg.left.volumes, hg.left.enforcement⟩, hg.quiet,
        hg.noPart, hg.servers⟩
    · rename_i hl
      refine ⟨fun _ hl' => absurd hl' hl, fun _ _ => ?_, fun hu' => by rw [hu] at hu'; cases hu'⟩
      rw [link_silent, if_pos rfl]
      exact Link.Grown.refl _
  · rename_i hu
    exact ⟨fun h => absurd h hu, fun h => absurd h hu, fun _ => Link.Grown.refl _⟩

theorem silenceTick_elsewhere {s : State} (hs : tsorted s.vt = true) {srv : Nat} {j : ServerId} (hj : j.val ≠ srv) :
    Elsewhere j s (silenceTick s srv) := by
  have h1 : Elsewhere j s (setLink srv (link s srv).silent s) := by
    have hl : link (setLink srv (link s srv).silent s) j = link s j := by rw [link_silent, if_neg (Ne.symm hj)]
    exact ⟨⟨by rw [hl]; exact Link.Grown.refl _, rfl, fun _ => rfl, fun _ _ => rfl⟩, fun _ => hl, fun _ h => h, fun _ h => h⟩
  have hs1 : tsorted (setLink srv (link s srv).silent s).vt = true := hs
  rw [silenceTick_eq]
  split
  · split
    · exact h1.trans (dropLink_elsewhere hs1 .silence hj)
    · exact h1
  · exact .refl j s

theorem silenceTick_sorted {s : State} (hs : tsorted s.vt = true) (srv : Nat) : tsorted (silenceTick s srv).vt = true := by
  rw [silenceTick_eq]
  split
  · split
    · exact dropLink_sorted (s := setLink srv (link s srv).silent s) hs srv _ _
    · exact hs
  · exact hs

/-! ### Every server's turn -/

/-- The supervision of some servers, one after another. -/
theorem silenceTicks_turns {l : List Nat} (hl : l.Nodup) {s : State} (hs : tsorted s.vt = true) (j : ServerId) :
    (j.val ∈ l → SilenceTurn j s (l.foldl silenceTick s)) ∧ (j.val ∉ l → Elsewhere j s (l.foldl silenceTick s)) := by
  induction l generalizing s with
  | nil => exact ⟨fun h => (by cases h), fun _ => .refl j s⟩
  | cons k r ih =>
    obtain ⟨hk, hr⟩ := List.nodup_cons.1 hl
    have hf := silenceTick_frame s k
    obtain ⟨hin, hout⟩ := ih hr (silenceTick_sorted hs k)
    rw [List.foldl_cons]
    refine ⟨fun hm => ?_, fun hm => ?_⟩
    · by_cases hj : j.val = k
      · subst hj
        exact (silenceTick_turn hs j).after (hout hk)
      · exact (hin ((List.mem_cons.1 hm).resolve_left hj)).before (silenceTick_elsewhere hs hj).toUntouched hf.now
          (hf.same .silenceLimit (by decide))
    · obtain ⟨hj, hjr⟩ := not_or.1 (mt List.mem_cons.2 hm)
      exact (silenceTick_elsewhere hs hj).trans (hout hjr)

/-! ### IDLE frames -/

/-- A link that has had its turn of IDLE frames. -/
def Link.idled (l : Link) : Link :=
  { l with txQueue := if l.state = .up ∧ l.sentSince = false then l.txQueue ++ [.idle] else l.txQueue, sentSince := false }

theorem link_idleTick (s : State) (srv j : Nat) : link (idleTick s srv) j = if srv = j then (link s j).idled else link s j := by
  unfold idleTick
  dsimp only
  have hup : linkUp s srv = decide ((link s srv).state = .up) := rfl
  split
  · rename_i h
    have h' : (link s srv).state = .up ∧ (link s srv).sentSince = false := by simpa [hup] using h
    rw [link_setLink, handFrame, link_setLink_same]
    split
    · rename_i hj; subst hj; simp [Link.idled, h']
    · rename_i hj; exact link_setLink_ne s _ (Ne.symm hj)
  · rename_i h
    have h' : ¬((link s srv).state = .up ∧ (link s srv).sentSince = false) := by simpa [hup] using h
    rw [link_setLink]
    split
    · rename_i hj; subst hj; simp [Link.idled, h']
    · rfl

theorem idleTicks_frame (l : List Nat) (s : State) : Frame [.links] s (l.foldl idleTick s) := Frame.foldl idleTick_frame l s

theorem link_idleTicks {l : List Nat} (hl : l.Nodup) (s : State) (j : Nat) :
    link (l.foldl idleTick s) j = if j ∈ l then (link s j).idled else link s j := by
  induction l generalizing s with
  | nil => simp
  | cons k r ih =>
    obtain ⟨hk, hr⟩ := List.nodup_cons.1 hl
    rw [List.foldl_cons, ih hr, link_idleTick]
    by_cases hj : k = j
    · subst hj; simp [hk]
    · simp [hj, Ne.symm hj]

/-- The IDLE frames handed to a link that has grown. -/
theorem count_idle_idled {l m : Link} (h : l.Grown m) (hup : l.state = .up) :
    m.idled.txQueue.count .idle = l.txQueue.count .idle + (if l.sentSince = true then 0 else 1) := by
  obtain ⟨os, fs, c, rfl, hf⟩ := h
  have hfs : fs.count .idle = 0 := List.count_eq_zero.2 hf
  unfold Link.idled
  dsimp only
  cases hsent : l.sentSince with
  | true => simp [hfs]
  | false => simp [hup, hfs]

end Sys2Proof.Machine
end

