-- ==== Sys2Proof/Proofs/GraceWalk.lean ====
section
/-! SUPPORT. The grace walk (R103), and that nothing else of a second event moves a subject's grace or makes it SOFT again. -/

namespace Sys2Proof.Machine

theorem nextState_ne_soft {a : Account} (h : a.grace = 0) : nextState a ≠ .soft := by
  have hs : softOrSpent a = .spent := by simp [softOrSpent, h]
  unfold nextState
  rw [hs]
  split
  · decide
  · split <;> split <;> first | decide | (split <;> decide)

/-! ### Grace kept -/

/-- No subject's grace has moved, and none whose grace is spent has become SOFT. -/
def GraceKept (s t : State) : Prop := ∀ x, (acct t x).grace = (acct s x).grace
  ∧ ((acct s x).grace = 0 → (acct s x).state ≠ .soft → (acct t x).state ≠ .soft)

theorem GraceKept.refl (s : State) : GraceKept s s := fun _ => ⟨rfl, fun _ h => h⟩

theorem GraceKept.trans {s t u : State} (h1 : GraceKept s t) (h2 : GraceKept t u) : GraceKept s u := fun x =>
  ⟨(h2 x).1.trans (h1 x).1, fun hg hs => (h2 x).2 ((h1 x).1.trans hg) ((h1 x).2 hg hs)⟩

theorem GraceKept.after {s t u : State} (h2 : GraceKept t u) (h1 : GraceKept s t) : GraceKept s u := h1.trans h2

theorem GraceKept.foldl {β : Type} {f : State → β → State} (h : ∀ s b, GraceKept s (f s b)) (l : List β) (s : State) :
    GraceKept s (l.foldl f s) := by
  induction l generalizing s with
  | nil => exact .refl s
  | cons b r ih => exact (h s b).trans (ih _)

theorem Frame.graceKept {L : List Part} {s t : State} (h : Frame L s t)
    (hp : Part.principals ∉ Part.replies :: Part.restart :: L := by decide)
    (hg : Part.groups ∉ Part.replies :: Part.restart :: L := by decide) : GraceKept s t := fun x => by
  rw [h.acct x hp hg]; exact ⟨rfl, fun _ h => h⟩

theorem evaluate_graceKept (c : QuotaCause) (sub : Subject) (s : State) : GraceKept s (evaluate c sub s) := fun x => by
  rw [acct_evaluate]
  split
  · exact ⟨rfl, fun hg _ => nextState_ne_soft hg⟩
  · exact ⟨rfl, fun _ h => h⟩

theorem evaluateGroup_graceKept (c : QuotaCause) (g : Option Nat) (s : State) : GraceKept s (evaluateGroup c g s) := by
  unfold evaluateGroup
  split
  · exact .refl s
  · exact evaluate_graceKept _ _ s

theorem release_graceKept (p r : Nat) (s : State) : GraceKept s (release p r s) := by
  unfold release
  split
  · exact .refl s
  · have h1 : GraceKept s (changeReservation (reserveDown r) p s) := fun x => by
      rcases acct_changeReservation (reserveDown r) p s x with h | h <;> rw [h] <;> exact ⟨rfl, fun _ h => h⟩
    exact h1.trans ((evaluate_graceKept _ _ _).trans (evaluateGroup_graceKept _ _ _))

theorem freeSlot_graceKept (id : Nat) (j : RestoreJob) (o : RestoreOutcome) (s : State) : GraceKept s (freeSlot id j o s) :=
  fun _ => ⟨rfl, fun _ h => h⟩

theorem testRestoreEnd_graceKept (id : Nat) (s : State) : GraceKept s (testRestoreEnd id s) := by
  have hend (j : RestoreJob) : GraceKept s (endRestore id j s) :=
    (restoreDone_frame _ _ _ _ _).graceKept.after ((unpin_frame _ _).graceKept.after ((release_graceKept _ _ _).after
      (freeSlot_graceKept id j j.outcome s)))
  unfold testRestoreEnd
  split
  · exact .refl s
  · split
    · exact hend _
    · exact .refl s

theorem failBack_graceKept (srv : Nat) (q : Bool) (s : State) (o : Order) : GraceKept s (failBack srv q s o) := by
  unfold failBack
  split
  · unfold snapFailedBack
    split
    · exact (failTake_frame _ _ _ _ s).graceKept
    · split
      · exact (setSnap_frame _ _ s).graceKept
      · exact .refl s
  · unfold copyFailedBack
    split
    · exact .refl s
    · exact (testRestoreEnd_graceKept _ _).after (setRestoreJob_frame _ _ s).graceKept
  · unfold shipFailedBack
    split
    · exact .refl s
    · exact (batchFailed_frame _ _ _ s).graceKept
  · exact .refl s

theorem dropLink_graceKept (srv : Nat) (a : LinkState) (w : LinkReason) (s : State) : GraceKept s (dropLink srv a w s) := by
  rw [dropLink_eq, leavingRest]
  exact (grantAll_frame _).graceKept.after ((dcListen_frame _).graceKept.after ((notifyLink_frame _ _ _ _ _).graceKept.after
    ((enforceLeave_frame _ _).graceKept.after ((GraceKept.foldl (failBack_graceKept srv false) _ _).after
      (leaveParting_frame srv a w false s).graceKept))))

theorem silenceTick_graceKept (s : State) (srv : Nat) : GraceKept s (silenceTick s srv) := by
  have h1 : GraceKept s (setLink srv (link s srv).silent s) := (setLink_frame _ _ s).graceKept
  rw [silenceTick_eq]
  split
  · split
    · exact h1.trans (dropLink_graceKept _ _ _ _)
    · exact h1
  · exact .refl s

/-! ### The walk -/

/-- A listed subject's account after its tick of the grace walk (R103). -/
def Account.ticked (a : Account) : Account :=
  let b := { a with grace := a.grace - 1 }
  { b with state := if b.grace = 0 then nextState b else b.state }

theorem acct_graceTick (s : State) (sub x : Subject) : acct (graceTick s sub) x = if sub = x then (acct s x).ticked else acct s x := by
  unfold graceTick
  dsimp only
  split
  · rename_i h
    rw [acct_evaluate, acct_setAcct]
    split
    · rename_i hx; subst hx; simp [Account.ticked, h]
    · rfl
  · rename_i h
    rw [acct_setAcct]
    split
    · rename_i hx; subst hx; simp [Account.ticked, h]
    · rfl

theorem acct_graceTicks_of_not_mem {l : List Subject} {x : Subject} (hx : x ∉ l) (s : State) :
    acct (l.foldl graceTick s) x = acct s x := by
  induction l generalizing s with
  | nil => rfl
  | cons y r ih =>
    obtain ⟨hy, hr⟩ := not_or.1 (mt List.mem_cons.2 hx)
    rw [List.foldl_cons, ih hr, acct_graceTick, if_neg (Ne.symm hy)]

theorem acct_graceTicks {l : List Subject} (hl : l.Nodup) (s : State) (x : Subject) :
    acct (l.foldl graceTick s) x = if x ∈ l then (acct s x).ticked else acct s x := by
  induction l generalizing s with
  | nil => simp
  | cons y r ih =>
    obtain ⟨hy, hr⟩ := List.nodup_cons.1 hl
    rw [List.foldl_cons, ih hr, acct_graceTick]
    by_cases hxy : y = x
    · subst hxy; simp [hy]
    · simp [hxy, Ne.symm hxy]

/-- An account whose grace is spent and that is not SOFT. -/
def Account.Spent (a : Account) : Prop := a.grace = 0 ∧ a.state ≠ .soft

theorem ticked_spent {a : Account} (h : a.grace ≤ 1) : a.ticked.Spent := by
  have h0 : a.grace - 1 = 0 := by omega
  refine ⟨h0, ?_⟩
  change (if a.grace - 1 = 0 then nextState { a with grace := a.grace - 1 } else a.state) ≠ .soft
  rw [if_pos h0]
  exact nextState_ne_soft h0

/-- A subject whose last minute the walk takes is no longer SOFT, however often it is listed. -/
theorem graceTicks_spent {l : List Subject} {x : Subject} (hx : x ∈ l) {s : State} (h : (acct s x).grace ≤ 1) :
    (acct (l.foldl graceTick s) x).Spent := by
  have hspent (u : State) (y : Subject) (hu : (acct u x).Spent) : (acct (graceTick u y) x).Spent := by
    rw [acct_graceTick]
    split
    · exact ticked_spent (by rw [hu.1]; omega)
    · exact hu
  refine foldl_brings (I := fun u => (acct u x).grace ≤ 1) (P := fun y u => y = x → (acct u x).Spent) (fun u y hu => ?_)
    (fun u y hu hy => ?_) (fun u y z hp hy => hspent u z (hp hy)) h hx rfl
  · rw [acct_graceTick]
    split
    · change (acct u x).grace - 1 ≤ 1
      omega
    · exact hu
  · subst hy
    rw [acct_graceTick, if_pos rfl]
    exact ticked_spent hu

/-! ### The walk's notices -/

theorem evaluate_changes {c : QuotaCause} {sub : Subject} {s : State} (h : nextState (acct s sub) ≠ (acct s sub).state) :
    ∃ u, Speaks s u ∧ Noticed [⟨subjectNotice sub, .quotaState sub (acct s sub).state (nextState (acct s sub))
      (loadOf (acct s sub)) ((acct s sub).soft * 16) ((acct s sub).hard * 16) (acct s sub).grace c (now s)⟩] u (evaluate c sub s) := by
  let s1 := setAcct sub { acct s sub with state := nextState (acct s sub) } s
  let s2 : State := { s1 with qm := { s1.qm with softList := softListAfter sub (acct s sub).state (nextState (acct s sub)) s1.qm.softList } }
  have hw : Speaks s (reportBlocking sub (acct s sub).state (nextState (acct s sub)) s2) :=
    (reportBlocking_work _ _ _ _).speaks.after ((Noticed.nil (s := s1) (t := s2) (by rfl)).speaks.after (setAcct_work _ _ s).speaks)
  refine ⟨_, hw, ?_⟩
  have he : evaluate c sub s = notify (subjectNotice sub) (.quotaState sub (acct s sub).state (nextState (acct s sub))
      (loadOf (acct s sub)) (s16Of (acct s sub)) (h16Of (acct s sub)) (acct s sub).grace c (now s))
      (reportBlocking sub (acct s sub).state (nextState (acct s sub)) s2) := by
    unfold evaluate
    dsimp only
    exact if_neg h
  rw [he]
  exact notify_noticed _ _ _

/-- QUOTA_STATE for a listed subject whose last minute the walk takes and whose state that changes (R103). -/
theorem graceTicks_notice {l : List Subject} (hl : l.Nodup) {sub : Subject} (hm : sub ∈ l) {s : State} (hg : (acct s sub).grace = 1)
    {a : Account} (ha : a = { acct s sub with grace := 0 }) (hn : nextState a ≠ a.state) :
    ∃ u v, Speaks s u ∧ Noticed [⟨subjectNotice sub, .quotaState sub a.state (nextState a) (loadOf a) (a.soft * 16) (a.hard * 16) 0
      .graceExpired (now s)⟩] u v ∧ Speaks v (l.foldl graceTick s) := by
  induction l generalizing s with
  | nil => cases hm
  | cons y r ih =>
    obtain ⟨hy, hr⟩ := List.nodup_cons.1 hl
    have hrest (t : State) : Speaks t (r.foldl graceTick t) := (Work.foldl graceTick_work r t).speaks
    by_cases hys : y = sub
    · subst hys
      have ha1 : acct (setAcct y a s) y = a := by rw [acct_setAcct, if_pos rfl]
      have htick : graceTick s y = evaluate .graceExpired y (setAcct y a s) := by
        unfold graceTick
        dsimp only
        rw [if_pos (by omega), ha, hg]
      obtain ⟨u, hu, hnoticed⟩ := evaluate_changes (c := .graceExpired) (sub := y) (s := setAcct y a s) (by rw [ha1]; exact hn)
      rw [ha1, (setAcct_frame y a s).now] at hnoticed
      have hzero : a.grace = 0 := by rw [ha]
      rw [hzero] at hnoticed
      refine ⟨u, graceTick s y, hu.after (setAcct_work y a s).speaks, ?_, hrest _⟩
      rw [htick]
      exact hnoticed
    · have hacct : acct (graceTick s y) sub = acct s sub := by rw [acct_graceTick, if_neg hys]
      have hms : sub ∈ r := (List.mem_cons.1 hm).resolve_left (Ne.symm hys)
      obtain ⟨u, v, h1, h2, h3⟩ := ih hr hms (s := graceTick s y) (by rw [hacct]; exact hg) (by rw [hacct]; exact ha)
      rw [(graceTick_frame s y).now] at h2
      exact ⟨u, v, h1.after (graceTick_work s y).speaks, h2, h3⟩

end Sys2Proof.Machine
end

