-- ==== Sys2Proof/Proofs/CatalogKept.lean ====
section
/-! SUPPORT. The catalog through a second event (R128, R134 to R137): what a release does to every record, what pressure and failed
orders leave, and age retention. -/

namespace Sys2Proof.Machine

/-! ### Records of a volume -/

theorem mem_sortBy {α : Type} (f : α → Nat) (x : α) (l : List α) : x ∈ sortBy f l ↔ x ∈ l := by
  induction l with
  | nil => simp [sortBy]
  | cons y r ih => rw [sortBy, mem_insertBy, ih, List.mem_cons]; tauto

theorem mem_volumeSnaps {s : State} (hs : tsorted s.sc.records = true) {v : Nat} {e : Nat × Snap} :
    e ∈ volumeSnaps s v ↔ snap s e.1 = some e.2 ∧ e.2.volume = v := by
  rw [volumeSnaps, mem_sortBy, List.mem_filter]
  simp only [decide_eq_true_eq]
  exact and_congr (tget_eq_some_iff hs).symm Iff.rfl

theorem Frame.snap {L : List Part} {s t : State} (h : Frame L s t) (id : Nat)
    (hc : Part.snaps ∉ Part.replies :: Part.restart :: L := by decide) : Machine.snap t id = Machine.snap s id := by
  unfold Machine.snap
  rw [show t.sc.records = s.sc.records from h.same .snaps hc]

/-! ### One release -/

theorem olderHolder_some {s : State} (hs : tsorted s.sc.records = true) {id : Nat} {x : Snap} {p : Nat × Snap}
    (h : olderHolder s id x = some p) : snap s p.1 = some p.2 ∧ p.2.holder = true ∧ p.1 ≠ id := by
  obtain ⟨hm, hp⟩ := List.mem_filter.1 (List.mem_of_getLast? h)
  simp only [Bool.and_eq_true, decide_eq_true_eq] at hp
  exact ⟨((mem_volumeSnaps hs).1 hm).1, hp.1.1, hp.1.2⟩

/-- A record whose holds may have moved, if it can hold any. -/
def Snap.Passed (x y : Snap) : Prop := ∃ h, y = { x with holds := h } ∧ (x.holder = false → h = x.holds)

theorem Snap.Passed.refl (x : Snap) : x.Passed x := ⟨x.holds, rfl, fun _ => rfl⟩

theorem Snap.Passed.trans {x y z : Snap} (h1 : x.Passed y) (h2 : y.Passed z) : x.Passed z := by
  obtain ⟨h, rfl, hh⟩ := h1
  obtain ⟨k, rfl, hk⟩ := h2
  exact ⟨k, rfl, fun hx => (hk hx).trans (hh hx)⟩

/-- What a release of a record leaves of the catalog. -/
structure Releases (id : Nat) (s t : State) : Prop where
  sorted : tsorted t.sc.records = true
  others : ∀ j, j ≠ id → ∀ x, snap s j = some x → ∃ y, snap t j = some y ∧ x.Passed y

theorem passHolds_snap {s : State} (hs : tsorted s.sc.records = true) {id : Nat} {x : Snap} (l : List Hold) :
    Releases id s (passHolds (olderHolder s id x) l s)
      ∧ snap (passHolds (olderHolder s id x) l s) id = snap s id := by
  unfold passHolds
  cases hp : olderHolder s id x with
  | none => exact ⟨⟨hs, fun _ _ y hy => ⟨y, hy, .refl y⟩⟩, rfl⟩
  | some p =>
    obtain ⟨hget, hholder, hne⟩ := olderHolder_some hs hp
    dsimp only
    refine ⟨⟨tsorted_tput _ _ _ hs, fun j _ y hy => ?_⟩, by rw [snap_setSnap, if_neg hne]⟩
    rw [snap_setSnap]
    split
    · rename_i hj
      subst hj
      rw [hget] at hy
      cases hy
      exact ⟨_, rfl, _, rfl, fun hno => by rw [hholder] at hno; cases hno⟩
    · exact ⟨y, hy, .refl y⟩

theorem handDrop_snap (id : Nat) (s : State) : (∀ j, j ≠ id → snap (handDrop id s) j = snap s j)
    ∧ (∀ x, snap s id = some x → ∃ f, snap (handDrop id s) id = some { x with inFlight := f })
    ∧ (tsorted s.sc.records = true → tsorted (handDrop id s).sc.records = true) := by
  obtain ⟨heq, -⟩ | ⟨x, hx, -, -, heq⟩ := handDrop_cases id s
  · rw [heq]; exact ⟨fun _ _ => rfl, fun x hx => ⟨x.inFlight, hx⟩, fun h => h⟩
  · rw [heq]
    refine ⟨fun j hj => by rw [snap_setSnap_issue, if_neg (Ne.symm hj)], fun y hy => ?_, fun h => tsorted_tput _ _ _ h⟩
    rw [hx] at hy
    cases hy
    exact ⟨_, by rw [snap_setSnap_issue, if_pos rfl]⟩

/-- A released record (R130). -/
def Snap.dropped (x : Snap) (f : Option Nat) : Snap := { x with holds := [], state := .dropping, inFlight := f }

theorem cascade_snap {s : State} (hs : tsorted s.sc.records = true) (id : Nat) (x : Snap) (failed : Bool) :
    Releases id s (cascade id x failed s).1 ∧ (failed = false → ∃ f, snap (cascade id x failed s).1 id = some (x.dropped f)) := by
  obtain ⟨⟨hsorted, hothers⟩, -⟩ := passHolds_snap hs (id := id) (x := x) x.holds
  generalize hp : passHolds (olderHolder s id x) x.holds s = p at hsorted hothers
  let q := lowerHeld x.volume (cascadeAmounts (olderHolder s id x) x.holds).freed p
  have hq : ∀ j, snap q j = snap p j := fun _ => rfl
  have hqs : tsorted q.sc.records = true := hsorted
  let w := if failed then delSnap id q
    else handDrop id (setSnap id { x with holds := [], state := .dropping, inFlight := none } q)
  have hw : Releases id s w ∧ (failed = false → ∃ f, snap w id = some (x.dropped f)) := by
    cases failed with
    | true =>
      refine ⟨⟨tsorted_tdel _ _ hqs, fun j hj y hy => ?_⟩, fun h => by cases h⟩
      change ∃ z, snap (delSnap id q) j = some z ∧ _
      rw [snap_delSnap, if_neg (Ne.symm hj)]
      exact hothers j hj y hy
    | false =>
      obtain ⟨ho, hown, hsort⟩ := handDrop_snap id (setSnap id { x with holds := [], state := .dropping, inFlight := none } q)
      refine ⟨⟨hsort (tsorted_tput _ _ _ hqs), fun j hj y hy => ?_⟩, fun _ => ?_⟩
      · change ∃ z, snap (handDrop id _) j = some z ∧ _
        rw [ho j hj, snap_setSnap, if_neg (Ne.symm hj)]
        exact hothers j hj y hy
      · exact hown _ (by rw [snap_setSnap, if_pos rfl])
  have hf : Frame (.reserveOver :: raiseParts) w (cascade id x failed s).1 := by
    unfold cascade
    dsimp only
    rw [hp]
    split
    · exact testReserveFall_frame _ _
    · exact Frame.refl _ _
  refine ⟨⟨?_, fun j hj y hy => ?_⟩, fun hfail => ?_⟩
  · rw [show (cascade id x failed s).1.sc.records = w.sc.records from hf.same .snaps (by decide)]
    exact hw.1.sorted
  · rw [hf.snap]; exact hw.1.others j hj y hy
  · rw [hf.snap]; exact hw.2 hfail

theorem releaseSnap_snap {s : State} (hs : tsorted s.sc.records = true) (why : ReleaseReason) (id : Nat) :
    Releases id s (releaseSnap why id s).1
      ∧ ∀ x, snap s id = some x → ∃ f, snap (releaseSnap why id s).1 id = some (x.dropped f) := by
  unfold releaseSnap
  split
  · rename_i hn
    exact ⟨⟨hs, fun _ _ y hy => ⟨y, hy, .refl y⟩⟩, fun x hx => by rw [hn] at hx; cases hx⟩
  · rename_i x hx
    obtain ⟨⟨hsorted, hothers⟩, hown⟩ := cascade_snap hs id x false
    dsimp only
    refine ⟨⟨?_, fun j hj y hy => ?_⟩, fun y hy => ?_⟩
    · rw [show (notify _ _ (cascade id x false s).1).sc.records = _ from (notify_frame _ _ _).same .snaps (by decide)]
      exact hsorted
    · rw [(notify_frame _ _ _).snap]; exact hothers j hj y hy
    · rw [hx] at hy
      cases hy
      rw [(notify_frame _ _ _).snap]
      exact hown rfl

/-! ### What pressure and orders failed back keep -/

/-- A record that pressure never releases: LIVE, and kept or of a volume without a limit. -/
def Snap.Spared (s : State) (x : Snap) : Prop := x.state = .live ∧ (x.keep = true ∨ (Machine.volume s x.volume).reserveLimit = 0)

/-- The catalog is in its form, an unpinned DROPPING record stands but for its order, and a record that pressure spares is LIVE
still. -/
structure Kept (s t : State) : Prop where
  limits : ∀ v, (volume t v).reserveLimit = (volume s v).reserveLimit
  sorted : tsorted s.sc.records = true → tsorted t.sc.records = true
  dropping : tsorted s.sc.records = true → ∀ id x, snap s id = some x → x.state = .dropping → x.pinCount = 0 →
    ∃ f, snap t id = some { x with inFlight := f }
  spared : tsorted s.sc.records = true → ∀ id x, snap s id = some x → x.Spared s →
    ∃ y, snap t id = some y ∧ y.state = .live ∧ y.keep = x.keep ∧ y.volume = x.volume

theorem Work.limits {s t : State} (h : Work s t) (v : Nat) : (volume t v).reserveLimit = (volume s v).reserveLimit :=
  (h.volumes v).reserveLimit

theorem Kept.of_records {s t : State} (hl : ∀ v, (volume t v).reserveLimit = (volume s v).reserveLimit)
    (hr : t.sc.records = s.sc.records) : Kept s t := by
  have hs : ∀ id, snap t id = snap s id := fun id => by unfold snap; rw [hr]
  exact ⟨hl, fun h => by rw [hr]; exact h, fun _ id x hx _ _ => ⟨x.inFlight, by rw [hs]; exact hx⟩,
    fun _ id x hx hsp => ⟨x, by rw [hs]; exact hx, hsp.1, rfl, rfl⟩⟩

theorem Kept.refl (s : State) : Kept s s := .of_records (fun _ => rfl) rfl

theorem Kept.trans {s t u : State} (h1 : Kept s t) (h2 : Kept t u) : Kept s u where
  limits v := (h2.limits v).trans (h1.limits v)
  sorted h := h2.sorted (h1.sorted h)
  dropping hs id x hx hd hp := by
    obtain ⟨f, hf⟩ := h1.dropping hs id x hx hd hp
    obtain ⟨g, hg⟩ := h2.dropping (h1.sorted hs) id _ hf hd hp
    exact ⟨g, hg⟩
  spared hs id x hx hsp := by
    obtain ⟨y, hy, hlive, hkeep, hvol⟩ := h1.spared hs id x hx hsp
    obtain ⟨z, hz, hz1, hz2, hz3⟩ := h2.spared (h1.sorted hs) id y hy
      ⟨hlive, hsp.2.imp (fun h => hkeep.trans h) fun h => by rw [hvol, h1.limits]; exact h⟩
    exact ⟨z, hz, hz1, hz2.trans hkeep, hz3.trans hvol⟩

theorem Kept.after {s t u : State} (h2 : Kept t u) (h1 : Kept s t) : Kept s u := h1.trans h2

theorem Kept.foldl {β : Type} {f : State → β → State} (h : ∀ s b, Kept s (f s b)) (l : List β) (s : State) :
    Kept s (l.foldl f s) := by
  induction l generalizing s with
  | nil => exact .refl s
  | cons b r ih => exact (h s b).trans (ih _)

theorem Frame.kept {L : List Part} {s t : State} (h : Frame L s t) (hw : Work s t)
    (hc : Part.snaps ∉ Part.replies :: Part.restart :: L := by decide) : Kept s t :=
  .of_records hw.limits (h.same .snaps hc)

/-- A release of a record that is neither DROPPING nor spared keeps the catalog. -/
theorem Releases.kept {s t : State} {id : Nat} (h : tsorted s.sc.records = true → Releases id s t)
    (hl : ∀ v, (volume t v).reserveLimit = (volume s v).reserveLimit)
    (hid : ∀ x, snap s id = some x → x.state ≠ .dropping ∧ ¬x.Spared s) : Kept s t where
  limits := hl
  sorted hs := (h hs).sorted
  dropping hs j x hx hd _ := by
    have hj : j ≠ id := fun e => (hid x (e ▸ hx)).1 hd
    obtain ⟨y, hy, k, rfl, hk⟩ := (h hs).others j hj x hx
    have hno : x.holder = false := by simp [Snap.holder, hd]
    rw [hk hno] at hy
    exact ⟨x.inFlight, hy⟩
  spared hs j x hx hsp := by
    have hj : j ≠ id := fun e => (hid x (e ▸ hx)).2 hsp
    obtain ⟨y, hy, k, rfl, -⟩ := (h hs).others j hj x hx
    exact ⟨_, hy, hsp.1, rfl, rfl⟩

theorem releasable_iff {x : Snap} : x.releasable = true ↔ x.state = .live ∧ x.pinCount = 0 ∧ x.keep = false := by
  simp [Snap.releasable, and_assoc]

theorem Kept.of_sorted {s t : State} (hl : ∀ v, (volume t v).reserveLimit = (volume s v).reserveLimit)
    (h : tsorted s.sc.records = true → Kept s t) : Kept s t :=
  ⟨hl, fun hs => (h hs).sorted hs, fun hs => (h hs).dropping hs, fun hs => (h hs).spared hs⟩

theorem pressureLoop_kept (v n : Nat) (s : State) : Kept s (pressureLoop v n s) := by
  induction n generalizing s with
  | zero => exact .refl s
  | succ n ih =>
    unfold pressureLoop
    split
    · exact .refl s
    · rename_i hwithin
      split
      · exact .refl s
      · rename_i e r he
        obtain ⟨hm, hrel⟩ := List.mem_filter.1 (he ▸ List.mem_cons_self : e ∈ (volumeSnaps s v).filter fun e => e.2.releasable)
        obtain ⟨hlive, -, hkeep⟩ := releasable_iff.1 hrel
        refine Kept.trans (.of_sorted (releaseSnap_work _ _ s).limits fun hs => ?_) (ih _)
        obtain ⟨hget, hvol⟩ := (mem_volumeSnaps hs).1 hm
        refine Releases.kept (fun hs => (releaseSnap_snap hs .pressure e.1).1) (releaseSnap_work _ _ s).limits fun x hx => ?_
        rw [hget] at hx
        cases hx
        refine ⟨by rw [hlive]; decide, fun hsp => ?_⟩
        rcases hsp.2 with h | h
        · rw [hkeep] at h; cases h
        · rw [hvol] at h
          exact hwithin (by simp [withinReserve, h])

theorem pressureTest_kept (v : Nat) (s : State) : Kept s (pressureTest v s) := by
  have hd (u : State) : Kept u (decideReserve v u) := by
    have hf : Frame (.reserveOver :: raiseParts) u (decideReserve v u) := by
      unfold decideReserve
      split
      · exact testReserveFall_frame _ _
      · split
        · exact Frame.refl _ _
        · exact setReserve_frame _ _
    exact hf.kept (decideReserve_work _ _)
  exact (pressureLoop_kept v _ s).trans (hd _)

/-- A record is written without its state, its keep value and its volume, DROPPING ones with pin counts of 0 as they are but for
their order. -/
theorem setSnap_kept {id : Nat} {x y : Snap} {s : State} (hx : tsorted s.sc.records = true → snap s id = some x)
    (hstate : y.state = x.state) (hkeep : y.keep = x.keep) (hvol : y.volume = x.volume)
    (hd : x.state = .dropping → x.pinCount = 0 → ∃ f, y = { x with inFlight := f }) : Kept s (setSnap id y s) where
  limits _ := rfl
  sorted hs := tsorted_tput _ _ _ hs
  dropping hs j z hz hdz hp := by
    rw [snap_setSnap]
    split
    · rename_i hj
      subst hj
      rw [hx hs] at hz
      cases hz
      obtain ⟨f, rfl⟩ := hd hdz hp
      exact ⟨f, rfl⟩
    · exact ⟨z.inFlight, hz⟩
  spared hs j z hz hsp := by
    rw [snap_setSnap]
    split
    · rename_i hj
      subst hj
      rw [hx hs] at hz
      cases hz
      exact ⟨y, rfl, hstate.trans hsp.1, hkeep, hvol⟩
    · exact ⟨z, hz, hsp.1, rfl, rfl⟩

theorem unpin_kept (id : Nat) (s : State) : Kept s (unpin id s) := by
  unfold unpin
  split
  · exact .refl s
  · rename_i x hx
    have h1 : Kept s (setSnap id { x with pinCount := x.pinCount - 1 } s) :=
      setSnap_kept (fun _ => hx) rfl rfl rfl fun _ hp => ⟨x.inFlight, by rw [hp, Nat.zero_sub, ← hp]⟩
    dsimp only
    split
    · exact h1.trans (pressureTest_kept _ _)
    · exact h1

/-! ### What the ends of jobs and a link's leaving keep -/

theorem failTake_kept {id : Nat} {x : Snap} (why : SnapFailReason) (q : Bool) {s : State}
    (hx : tsorted s.sc.records = true → snap s id = some x) (hstate : x.state = .taking) : Kept s (failTake id x why q s) := by
  have h1 : Kept s (cascade id x true s).1 :=
    .of_sorted (cascade_work _ _ _ s).limits fun hs =>
      Releases.kept (fun hs => (cascade_snap hs id x true).1) (cascade_work _ _ _ s).limits fun y hy => by
        rw [hx hs] at hy
        cases hy
        exact ⟨by rw [hstate]; decide, fun hsp => by have h := hsp.1; rw [hstate] at h; cases h⟩
  unfold failTake
  dsimp only
  split
  · exact h1
  · have h2 (u : State) : Kept u (notifySnapFailed x.volume id x.kind why u) := (notify_frame _ _ u).kept (notify_work _ _ u)
    exact (h1.trans (h2 _)).trans (.of_records (fun _ => rfl) rfl)

theorem snapInFlight_some {s : State} {srv num : Nat} {taking : Bool} {e : Nat × Snap} (h : snapInFlight s srv num taking = some e) :
    (tsorted s.sc.records = true → snap s e.1 = some e.2) ∧ e.2.state = if taking then .taking else .dropping := by
  have hp := List.find?_some h
  refine ⟨fun hs => (tget_eq_some_iff hs).2 (List.mem_of_find?_eq_some h), ?_⟩
  cases taking <;> simp_all

theorem snapFailedBack_kept (srv num : Nat) (q : Bool) (s : State) : Kept s (snapFailedBack srv num q s) := by
  unfold snapFailedBack
  split
  · rename_i e he
    obtain ⟨hget, hstate⟩ := snapInFlight_some he
    exact failTake_kept _ _ hget hstate
  · split
    · rename_i e he
      obtain ⟨hget, -⟩ := snapInFlight_some he
      exact setSnap_kept hget rfl rfl rfl fun _ _ => ⟨none, rfl⟩
    · exact .refl s

theorem testRestoreEnd_kept (id : Nat) (s : State) : Kept s (testRestoreEnd id s) := by
  have hend (j : RestoreJob) : Kept s (endRestore id j s) :=
    ((restoreDone_frame _ _ _ _ _).kept (restoreDone_work _ _ _ _ _)).after ((unpin_kept _ _).after
      (((release_frame _ _ _).kept (release_work _ _ _)).after (.of_records (fun _ => rfl) rfl)))
  unfold testRestoreEnd
  split
  · exact .refl s
  · split
    · exact hend _
    · exact .refl s

theorem setDupJob_kept (v : Nat) (j : DupJob) (s : State) : Kept s (setDupJob v j s) := .of_records (fun _ => rfl) rfl

theorem endDup_kept (v : Nat) (r : DupReason) (c : DupCause) (j : DupJob) (s : State) : Kept s (endDup v r c j s) := by
  have hend (u : State) (e : DupEnd) : Kept u (dupNotice v e c j.lastFailure (emptyPlace v e u)) :=
    ((dupNotice_frame _ _ _ _ _).kept (dupNotice_work _ _ _ _ _)).after (.of_records (fun _ => rfl) rfl)
  unfold endDup
  dsimp only
  split
  · exact hend _ _
  · exact (hend _ _).after (unpin_kept _ s)

theorem completeDup_kept (v : Nat) (j : DupJob) (s : State) : Kept s (completeDup v j s) := by
  have hend (u : State) (e : DupEnd) : Kept u (dupNotice v e .none j.lastFailure (emptyPlace v e
      (setVolume v { volume u v with offsiteBase := some j.target } u))) :=
    ((dupNotice_frame _ _ _ _ _).kept (dupNotice_work _ _ _ _ _)).after
      (.of_records (setVolume_work ⟨_, _, _, _, rfl⟩ : Work u (setVolume v _ u)).limits rfl)
  unfold completeDup
  dsimp only
  split
  · exact hend _ _
  · exact (hend _ _).after (unpin_kept _ s)

theorem settleDup_kept (v : Nat) (s : State) : Kept s (settleDup v s) := by
  unfold settleDup
  split
  · exact .refl s
  · dsimp only
    split
    · exact (completeDup_kept _ _ _).after (setDupJob_kept _ _ s)
    · exact setDupJob_kept _ _ s

theorem batchFailed_kept (v : Nat) (w : DupFailure) (j : DupJob) (s : State) : Kept s (batchFailed v w j s) := by
  unfold batchFailed
  split
  · exact .refl s
  · dsimp only
    split
    · exact endDup_kept _ _ _ _ s
    · split
      · exact endDup_kept _ _ _ _ s
      · exact setDupJob_kept _ _ s

theorem failBack_kept (srv : Nat) (q : Bool) (s : State) (o : Order) : Kept s (failBack srv q s o) := by
  unfold failBack
  split
  · exact snapFailedBack_kept _ _ _ s
  · unfold copyFailedBack
    split
    · exact .refl s
    · exact (testRestoreEnd_kept _ _).after ((setRestoreJob_frame _ _ s).kept (setRestoreJob_work _ _ s))
  · unfold shipFailedBack
    split
    · exact .refl s
    · exact batchFailed_kept _ _ _ s
  · exact .refl s

theorem targetDone_kept (v id : Nat) (s : State) : Kept s (targetDone v id s) := by
  unfold targetDone
  split
  · exact .refl s
  · split
    · split
      · exact (settleDup_kept _ _).after (setDupJob_kept _ _ s)
      · exact setDupJob_kept _ _ s
    · exact .refl s

theorem targetFailed_kept (v id : Nat) (s : State) : Kept s (targetFailed v id s) := by
  unfold targetFailed
  split
  · exact .refl s
  · split
    · exact endDup_kept _ _ _ _ s
    · exact .refl s

theorem drainMessages_kept (n : Nat) (s : State) : Kept s (drainMessages n s) := by
  induction n generalizing s with
  | zero => exact .refl s
  | succ n ih =>
    unfold drainMessages
    split
    · exact (ih _).after ((targetDone_kept _ _ _).after (.of_records (fun _ => rfl) rfl))
    · exact (ih _).after ((targetFailed_kept _ _ _).after (.of_records (fun _ => rfl) rfl))
    · exact .refl s

theorem resumeJobs_kept (s : State) : Kept s (resumeJobs s) :=
  (Kept.foldl (fun _ _ => settleDup_kept _ _) _ _).after (.of_records (fun _ => rfl) rfl)

theorem grantAll_kept (s : State) : Kept s (grantAll s) := (grantAll_frame s).kept (grantAll_work s)

theorem windowOpen_kept (j : Nat) (c : WindowCause) (s : State) : Kept s (windowOpen j c s) :=
  ((notify_frame _ _ _).kept (notify_work _ _ _)).after ((resumeJobs_kept _).after (.of_records (fun _ => rfl) rfl))

theorem windowClose_kept (j : Nat) (c : WindowCause) (s : State) : Kept s (windowClose j c s) :=
  ((notify_frame _ _ _).kept (notify_work _ _ _)).after (.of_records (fun _ => rfl) rfl)

theorem slotBoundary_kept (j : Nat) (s : State) : Kept s (slotBoundary j s) := by
  unfold slotBoundary
  dsimp only
  split <;> exact .of_records (fun _ => rfl) rfl

theorem evaluateWindow_kept (c : WindowCause) (s : State) : Kept s (evaluateWindow c s) := by
  unfold evaluateWindow
  split
  · exact .refl s
  · exact windowOpen_kept _ _ s
  · exact windowClose_kept _ _ s
  · split
    · exact .refl s
    · split
      · dsimp only
        split
        · exact windowClose_kept _ _ s
        · exact (windowOpen_kept _ _ _).after ((grantAll_kept _).after (windowClose_kept _ _ s))
      · exact slotBoundary_kept _ s

theorem dropLink_kept {srv : Nat} {s : State} (a : LinkState) (w : LinkReason) (hs : tsorted s.vt = true) :
    Kept s (dropLink srv a w s) := by
  have h1 : Kept s (leaveParting srv a w false s) :=
    .of_records (fun v => by rw [volume_leaveParting hs]; split <;> rfl) ((leaveParting_frame srv a w false s).same .snaps (by decide))
  rw [dropLink_eq, leavingRest]
  exact (grantAll_kept _).after ((drainMessages_kept _ _).after (((notifyLink_frame _ _ _ _ _).kept (notifyLink_work _ _ _ _ _)).after
    (((enforceLeave_frame _ _).kept (enforceLeave_work _ _)).after ((Kept.foldl (failBack_kept srv false) _ _).after h1))))

theorem silenceTick_kept {s : State} (hs : tsorted s.vt = true) (srv : Nat) : Kept s (silenceTick s srv) := by
  have h1 : Kept s (setLink srv (link s srv).silent s) := .of_records (fun _ => rfl) rfl
  rw [silenceTick_eq]
  split
  · split
    · exact h1.trans (dropLink_kept _ _ hs)
    · exact h1
  · exact .refl s

theorem silenceTicks_kept (l : List Nat) {s : State} (hs : tsorted s.vt = true) : Kept s (l.foldl silenceTick s) := by
  induction l generalizing s with
  | nil => exact .refl s
  | cons k r ih => exact (silenceTick_kept hs k).trans (ih (silenceTick_sorted hs k))

end Sys2Proof.Machine
end

