-- ==== Sys2Proof/Proofs/AgeRetention.lean ====
section
/-! SUPPORT. Age retention (R134 to R136): the records over age are released, and no other. -/

namespace Sys2Proof.Machine

theorem volume_eq_of_mem {s : State} (hs : tsorted s.vt = true) {e : Nat × Volume} (he : e ∈ s.vt) : volume s e.1 = e.2 := by
  unfold volume tgetD
  rw [(tget_eq_some_iff hs).2 he]
  rfl

theorem mem_attachedVolumes {s : State} (hs : tsorted s.vt = true) {v : Nat} :
    v ∈ attachedVolumes s ↔ (volume s v).state ≠ .unattached := by
  unfold attachedVolumes
  simp only [List.mem_map, List.mem_filter, decide_eq_true_eq]
  constructor
  · rintro ⟨e, ⟨he, hst⟩, rfl⟩
    rw [volume_eq_of_mem hs he]
    exact hst
  · intro h
    cases hv : tget s.vt v with
    | none => exact absurd (by unfold volume tgetD; rw [hv]; rfl) h
    | some r =>
      have hm := mem_of_tget hv
      exact ⟨(v, r), ⟨hm, by rw [← volume_eq_of_mem hs hm]; exact h⟩, rfl⟩

theorem governingRule_congr {s t : State} (h : t.sc.rules = s.sc.rules) (v : Nat) (k : SnapKind) :
    governingRule t v k = governingRule s v k := by
  unfold governingRule rule
  rw [h]

/-- A LIVE record in the course of age retention: LIVE yet but for its holds, or over age and released. -/
structure Aging (s : State) (id : Nat) (x : Snap) (u : State) : Prop where
  sorted : tsorted u.sc.records = true
  rules : u.sc.rules = s.sc.rules
  time : now u = now s
  record : (∃ h, snap u id = some { x with holds := h }) ∨ (OverAge s (now s) x ∧ ∃ f, snap u id = some (x.dropped f))

/-- A record stands released. -/
def IsDropped (id : Nat) (x : Snap) (u : State) : Prop := ∃ f, snap u id = some (x.dropped f)

theorem releaseSnap_aging {s : State} {id : Nat} {x : Snap} {u : State} (h : Aging s id x u) (why : ReleaseReason) {i : Nat}
    (hi : i = id → OverAge s (now s) x) : Aging s id x (releaseSnap why i u).1
      ∧ (i = id ∨ IsDropped id x u → IsDropped id x (releaseSnap why i u).1) := by
  have hf := releaseSnap_frame why i u
  obtain ⟨⟨hsorted, hothers⟩, hown⟩ := releaseSnap_snap h.sorted why i
  have hrel : i = id ∨ IsDropped id x u → IsDropped id x (releaseSnap why i u).1 := by
    rintro (rfl | ⟨f, hfx⟩)
    · obtain ⟨k, hk⟩ | ⟨-, f, hk⟩ := h.record
      · exact (hown _ hk).imp fun g hg => hg
      · exact (hown _ hk).imp fun g hg => hg
    · by_cases hid : id = i
      · subst hid; exact (hown _ hfx).imp fun g hg => hg
      · obtain ⟨y, hy, k, rfl, hk⟩ := hothers id hid _ hfx
        rw [hk rfl] at hy
        exact ⟨f, hy⟩
  refine ⟨⟨hsorted, (hf.same .rules (by decide)).trans h.rules, hf.now.trans h.time, ?_⟩, hrel⟩
  by_cases hid : id = i
  · exact .inr ⟨hi hid.symm, hrel (.inl hid.symm)⟩
  · rcases h.record with ⟨k, hk⟩ | ⟨ho, hk⟩
    · obtain ⟨y, hy, k', rfl, -⟩ := hothers id hid _ hk
      exact .inl ⟨k', hy⟩
    · exact .inr ⟨ho, hrel (.inr hk)⟩

theorem retire_aging {s : State} {id : Nat} {x : Snap} (l : List (Nat × Snap)) {u : State} (h : Aging s id x u)
    (hl : ∀ e ∈ l, e.1 = id → OverAge s (now s) x) :
    Aging s id x (retire l u) ∧ ((∃ e ∈ l, e.1 = id) ∨ IsDropped id x u → IsDropped id x (retire l u)) := by
  induction l generalizing u with
  | nil => exact ⟨h, fun hr => hr.resolve_left (by simp)⟩
  | cons e r ih =>
    obtain ⟨h1, hr1⟩ := releaseSnap_aging h .retention (hl e List.mem_cons_self)
    obtain ⟨h2, hr2⟩ := ih h1 fun e he => hl e (List.mem_cons_of_mem _ he)
    refine ⟨h2, ?_⟩
    rintro (⟨c, hc, hid⟩ | hr)
    · rcases List.mem_cons.1 hc with rfl | hc
      · exact hr2 (.inr (hr1 (.inl hid)))
      · exact hr2 (.inl ⟨c, hc, hid⟩)
    · exact hr2 (.inr (hr1 (.inr hr)))

theorem mem_overAge {s : State} (hs : tsorted s.sc.records = true) {m v : Nat} {k : SnapKind} {e : Nat × Snap} :
    e ∈ overAge s m (candidates s v k) ↔ snap s e.1 = some e.2 ∧ e.2.volume = v ∧ e.2.kind = k ∧ e.2.state = .live
      ∧ e.2.pinCount = 0 ∧ e.2.keep = false ∧ m ≠ 0 ∧ m < now s - e.2.created := by
  unfold overAge
  split
  · rename_i hm; simp [hm]
  · rename_i hm
    rw [List.mem_filter, candidates, List.mem_filter, mem_volumeSnaps hs]
    simp only [Bool.and_eq_true, decide_eq_true_eq, releasable_iff]
    unfold snapAge
    tauto

theorem ageRetentionOf_aging {s : State} {id : Nat} {x : Snap} {u : State} (h : Aging s id x u) {v : Nat} (k : SnapKind)
    (hv : (volume s v).state ≠ .unattached) : Aging s id x (ageRetentionOf v k u)
      ∧ ((x.volume = v ∧ x.kind = k ∧ OverAge s (now s) x) ∨ IsDropped id x u → IsDropped id x (ageRetentionOf v k u)) := by
  unfold ageRetentionOf
  rw [governingRule_congr h.rules]
  split
  · rename_i hn
    refine ⟨h, fun hr => hr.resolve_left ?_⟩
    rintro ⟨rfl, rfl, -, -, -, -, n, hg, -⟩
    rw [hn] at hg
    cases hg
  · rename_i n hg
    have hrule : rule u n = rule s n := by unfold rule; rw [h.rules]
    rw [hrule]
    obtain ⟨h1, hr1⟩ := retire_aging (overAge u (rule s n).maxAge (candidates u v k)) h fun e he hid => by
      obtain ⟨hget, hvol, hkind, hlive, hpin, hkeep, hm, hage⟩ := (mem_overAge h.sorted).1 he
      rw [hid] at hget
      rcases h.record with ⟨l, hl⟩ | ⟨ho, -⟩
      · rw [hget] at hl
        have hx := Option.some.inj hl
        rw [hx] at hvol hkind hlive hpin hkeep hage
        rw [h.time] at hage
        exact ⟨by rw [hvol]; exact hv, hlive, hpin, hkeep, n, by rw [hvol, hkind]; exact hg, hm, hage⟩
      · exact ho
    refine ⟨h1, ?_⟩
    rintro (⟨rfl, rfl, ho⟩ | hr)
    · rcases h.record with ⟨l, hl⟩ | ⟨-, hr⟩
      · obtain ⟨-, hlive, hpin, hkeep, m, hm, hne, hage⟩ := ho
        rw [hg] at hm
        cases hm
        exact hr1 (.inl ⟨(id, { x with holds := l }), (mem_overAge h.sorted).2
          ⟨hl, rfl, rfl, hlive, hpin, hkeep, hne, by rw [h.time]; exact hage⟩, rfl⟩)
      · exact hr1 (.inr hr)
    · exact hr1 (.inr hr)

/-- The turn of one volume: its HOURLY, NIGHTLY and MANUAL records. -/
theorem ageRetentionTurn_aging {s : State} {id : Nat} {x : Snap} {u : State} (h : Aging s id x u) {v : Nat}
    (hv : (volume s v).state ≠ .unattached) :
    Aging s id x (ageRetentionOf v .manual (ageRetentionOf v .nightly (ageRetentionOf v .hourly u)))
      ∧ ((x.volume = v ∧ OverAge s (now s) x) ∨ IsDropped id x u →
          IsDropped id x (ageRetentionOf v .manual (ageRetentionOf v .nightly (ageRetentionOf v .hourly u)))) := by
  obtain ⟨h1, hr1⟩ := ageRetentionOf_aging h .hourly hv
  obtain ⟨h2, hr2⟩ := ageRetentionOf_aging h1 .nightly hv
  obtain ⟨h3, hr3⟩ := ageRetentionOf_aging h2 .manual hv
  refine ⟨h3, ?_⟩
  rintro (⟨hvol, ho⟩ | hr)
  · cases hk : x.kind with
    | hourly => exact hr3 (.inr (hr2 (.inr (hr1 (.inl ⟨hvol, hk, ho⟩)))))
    | nightly => exact hr3 (.inr (hr2 (.inl ⟨hvol, hk, ho⟩)))
    | manual => exact hr3 (.inl ⟨hvol, hk, ho⟩)
  · exact hr3 (.inr (hr2 (.inr (hr1 (.inr hr)))))

/-- Age retention releases a LIVE record that is over age, and leaves any other LIVE but for its holds. -/
theorem ageRetention_aging {s : State} (hv : tsorted s.vt = true) (hs : tsorted s.sc.records = true) {id : Nat} {x : Snap}
    (hx : snap s id = some x) : Aging s id x (ageRetention s) ∧ (OverAge s (now s) x → IsDropped id x (ageRetention s)) := by
  have hfold (l : List Nat) (hl : ∀ v ∈ l, (volume s v).state ≠ .unattached) (u : State) (h : Aging s id x u) :
      let t := l.foldl (fun s v => ageRetentionOf v .manual (ageRetentionOf v .nightly (ageRetentionOf v .hourly s))) u
      Aging s id x t ∧ ((x.volume ∈ l ∧ OverAge s (now s) x) ∨ IsDropped id x u → IsDropped id x t) := by
    induction l generalizing u with
    | nil => exact ⟨h, fun hr => hr.resolve_left (by simp)⟩
    | cons v r ih =>
      obtain ⟨h1, hr1⟩ := ageRetentionTurn_aging h (hl v List.mem_cons_self)
      obtain ⟨h2, hr2⟩ := ih (fun w hw => hl w (List.mem_cons_of_mem _ hw)) _ h1
      refine ⟨h2, ?_⟩
      rintro (⟨hm, ho⟩ | hr)
      · rcases List.mem_cons.1 hm with hvol | hm
        · exact hr2 (.inr (hr1 (.inl ⟨hvol, ho⟩)))
        · exact hr2 (.inl ⟨hm, ho⟩)
      · exact hr2 (.inr (hr1 (.inr hr)))
  obtain ⟨h, hr⟩ := hfold (attachedVolumes s) (fun v hm => (mem_attachedVolumes hv).1 hm) s ⟨hs, rfl, rfl, .inl ⟨x.holds, hx⟩⟩
  exact ⟨h, fun ho => hr (.inl ⟨(mem_attachedVolumes hv).2 ho.1, ho⟩)⟩

end Sys2Proof.Machine
end

