-- ==== Sys2Proof/Proofs/DuplicationDraws.lean ====
section
/-! SUPPORT. The duplication jobs and the budget through a second event (R170, R173, R178, R181): what becomes of each job, and when
no grant draws on the budget. -/

namespace Sys2Proof.Machine

/-! ### What a job's place can become -/

/-- Every message for the DC is of a failed take. -/
def OnlyFailures (s : State) : Prop := ∀ m ∈ s.sc.toDc, ∃ v id, m = .failed v id

/-- No job of an ATTACHED volume can be given a batch, as `NothingToShip` has it, for every listed job and with failed takes yet to
come. -/
def Unshippable (s : State) : Prop := ∀ e ∈ s.dc.jobs, (volume s e.1).state = .attached →
  (e.2.state = .waitingSnapshot ∧ OnlyFailures s) ∨ e.2.state = .draining ∨ e.2.batch ≠ none

/-- Where a job goes whose take is done (R170). -/
def takenState (s : State) : DupState := if s.cwu.slot.isSome then .shipping else .suspended

/-- Between two states jobs end, take their snapshots, lose their batches with their volumes' links and are given batches. -/
structure Draws (s t : State) : Prop where
  slot : t.cwu.slot = s.cwu.slot
  attached : ∀ v, (volume t v).state = .attached → (volume s v).state = .attached
  messages : OnlyFailures s → OnlyFailures t
  jobs : ∀ e ∈ t.dc.jobs, ∃ x, (e.1, x) ∈ s.dc.jobs
    ∧ (e.2.state = x.state ∨ (x.state = .waitingSnapshot ∧ e.2.state = takenState s ∧ ¬OnlyFailures s))
    ∧ (e.2.batch = none → x.batch = none ∨ (volume t e.1).state ≠ .attached)
  full : t.dc.full = s.dc.full
  falls : t.dc.remaining ≤ s.dc.remaining
  idle : Unshippable s → t.dc.remaining = s.dc.remaining

theorem takenState_ne {s : State} : takenState s ≠ .waitingSnapshot := by unfold takenState; split <;> decide

theorem Draws.unshippable {s t : State} (h : Draws s t) (hs : Unshippable s) : Unshippable t := fun e he ha => by
  obtain ⟨x, hx, hstate, hbatch⟩ := h.jobs e he
  rcases hs _ hx (h.attached _ ha) with ⟨hw, hf⟩ | hd | hb
  · rcases hstate with hst | ⟨-, -, hn⟩
    · exact .inl ⟨hst.trans hw, h.messages hf⟩
    · exact absurd hf hn
  · rcases hstate with hst | ⟨hw, -, -⟩
    · exact .inr (.inl (hst.trans hd))
    · rw [hd] at hw; cases hw
  · exact .inr (.inr fun hn => (hbatch hn).elim hb fun hno => hno ha)

theorem Draws.refl (s : State) : Draws s s :=
  ⟨rfl, fun _ h => h, fun h => h, fun e he => ⟨e.2, he, .inl rfl, fun h => .inl h⟩, rfl, Nat.le_refl _, fun _ => rfl⟩

theorem Draws.trans {s t u : State} (h1 : Draws s t) (h2 : Draws t u) : Draws s u where
  slot := h2.slot.trans h1.slot
  attached v h := h1.attached v (h2.attached v h)
  messages h := h2.messages (h1.messages h)
  jobs e he := by
    obtain ⟨y, hy, hystate, hybatch⟩ := h2.jobs e he
    obtain ⟨x, hx, hxstate, hxbatch⟩ := h1.jobs _ hy
    have ht : takenState t = takenState s := by unfold takenState; rw [h1.slot]
    refine ⟨x, hx, ?_, fun hn => ?_⟩
    · rcases hystate with hst | ⟨hw, hst, hf⟩
      · rw [hst]; exact hxstate
      · rcases hxstate with hst' | ⟨-, hst', -⟩
        · exact .inr ⟨hst'.symm.trans hw, hst.trans ht, fun hs => hf (h1.messages hs)⟩
        · exact absurd (hst'.symm.trans hw) takenState_ne
    · rcases hybatch hn with hy | hno
      · exact (hxbatch hy).imp_right fun hno ha => hno (h2.attached _ ha)
      · exact .inr hno
  full := h2.full.trans h1.full
  falls := Nat.le_trans h2.falls h1.falls
  idle h := (h2.idle (h1.unshippable h)).trans (h1.idle h)

theorem Draws.after {s t u : State} (h2 : Draws t u) (h1 : Draws s t) : Draws s u := h1.trans h2

theorem Draws.foldl {β : Type} {f : State → β → State} {I : State → Prop} (hI : ∀ s b, I s → I (f s b))
    (hf : ∀ s b, I s → Draws s (f s b)) (l : List β) {s : State} (hs : I s) : Draws s (l.foldl f s) := by
  induction l generalizing s with
  | nil => exact .refl s
  | cons b r ih => exact (hf s b hs).trans (ih (hI s b hs))

/-- Jobs in step with the window: none SHIPPING outside it, none SUSPENDED within it (R186). -/
def InStep (s : State) : Prop := ∀ e ∈ s.dc.jobs, e.2.state ≠ if s.cwu.slot.isSome then .suspended else .shipping

theorem Draws.inStep {s t : State} (h : Draws s t) (hs : InStep s) : InStep t := fun e he => by
  obtain ⟨x, hx, hstate, -⟩ := h.jobs e he
  rw [h.slot]
  rcases hstate with hst | ⟨-, hst, -⟩
  · rw [hst]; exact hs _ hx
  · rw [hst, takenState]
    split <;> decide

/-! ### Writes -/

/-- A write of jobs, messages and nothing else that the jobs turn on. -/
theorem Draws.write {s t : State} (hc : t.cwu.slot = s.cwu.slot) (hv : t.vt = s.vt) (hm : OnlyFailures s → OnlyFailures t)
    (hj : ∀ e ∈ t.dc.jobs, ∃ x, (e.1, x) ∈ s.dc.jobs
      ∧ (e.2.state = x.state ∨ (x.state = .waitingSnapshot ∧ e.2.state = takenState s ∧ ¬OnlyFailures s))
      ∧ (e.2.batch = none → x.batch = none ∨ (volume s e.1).state ≠ .attached))
    (hf : t.dc.full = s.dc.full) (hr : t.dc.remaining = s.dc.remaining) : Draws s t := by
  have hvol : ∀ v, volume t v = volume s v := fun v => by unfold volume; rw [hv]
  exact ⟨hc, fun v h => by rw [← hvol]; exact h, hm, fun e he => by rw [hvol]; exact hj e he, hf, Nat.le_of_eq hr, fun _ => hr⟩

theorem Frame.draws {L : List Part} {s t : State} (h : Frame L s t) (hw : Work s t)
    (hj : Part.dupJobs ∉ Part.replies :: Part.restart :: L := by decide)
    (hm : Part.toDc ∉ Part.replies :: Part.restart :: L := by decide)
    (hb : Part.budget ∉ Part.replies :: Part.restart :: L := by decide)
    (hc : Part.window ∉ Part.replies :: Part.restart :: L := by decide) : Draws s t where
  slot := (h.same .window hc).1
  attached v hv := by rw [← (hw.volumes v).state]; exact hv
  messages hf := by
    unfold OnlyFailures
    rw [show t.sc.toDc = s.sc.toDc from h.same .toDc hm]
    exact hf
  jobs e he := by
    rw [show t.dc.jobs = s.dc.jobs from h.same .dupJobs hj] at he
    exact ⟨e.2, he, .inl rfl, fun h => .inl h⟩
  full := (h.same .budget hb).2
  falls := Nat.le_of_eq (h.same .budget hb).1
  idle _ := (h.same .budget hb).1

theorem setDupJob_draws {v : Nat} {j x : DupJob} {s : State} (hx : (v, x) ∈ s.dc.jobs) (hst : j.state = x.state)
    (hb : j.batch = none → x.batch = none ∨ (volume s v).state ≠ .attached) : Draws s (setDupJob v j s) :=
  .write rfl rfl (fun h => h) (fun e he => by
    rcases mem_tput he with rfl | he
    · exact ⟨x, hx, .inl hst, hb⟩
    · exact ⟨e.2, he, .inl rfl, fun h => .inl h⟩) rfl rfl

theorem mem_of_mem_tdel {α : Type} {t : Tab α} {k : Nat} {e : Nat × α} (h : e ∈ tdel t k) : e ∈ t := by
  rw [tdel_eq_filter] at h
  exact List.mem_of_mem_filter h

theorem emptyPlace_draws (v : Nat) (e : DupEnd) (s : State) : Draws s (emptyPlace v e s) :=
  .write rfl rfl (fun h => h) (fun c hc => ⟨c.2, mem_of_mem_tdel hc, .inl rfl, fun h => .inl h⟩) rfl rfl

/-! ### Ends, settlings and messages -/

theorem unpin_draws (id : Nat) (s : State) : Draws s (unpin id s) := (unpin_frame id s).draws (unpin_work id s)

theorem dupNotice_draws (v : Nat) (e : DupEnd) (c : DupCause) (l : DupFailure) (s : State) : Draws s (dupNotice v e c l s) :=
  (dupNotice_frame _ _ _ _ s).draws (dupNotice_work _ _ _ _ s)

theorem endDup_draws (v : Nat) (r : DupReason) (c : DupCause) (j : DupJob) (s : State) : Draws s (endDup v r c j s) := by
  unfold endDup
  dsimp only
  refine (dupNotice_draws _ _ _ _ _).after ((emptyPlace_draws _ _ _).after ?_)
  split
  · exact .refl s
  · exact unpin_draws _ s

theorem completeDup_draws (v : Nat) (j : DupJob) (s : State) : Draws s (completeDup v j s) := by
  have hbase (u : State) : Draws u (setVolume v { volume u v with offsiteBase := some j.target } u) :=
    (setVolume_frame _ _ u).draws (setVolume_work ⟨_, _, _, _, rfl⟩)
  unfold completeDup
  dsimp only
  refine (dupNotice_draws _ _ _ _ _).after ((emptyPlace_draws _ _ _).after ((hbase _).after ?_))
  split
  · exact .refl s
  · exact unpin_draws _ s

theorem settleDup_draws (v : Nat) (s : State) : Draws s (settleDup v s) := by
  unfold settleDup
  split
  · exact .refl s
  · rename_i j hj
    have h1 (k : Nat) : Draws s (setDupJob v { j with cursor := k } s) :=
      setDupJob_draws (mem_of_tget hj) rfl fun h => .inl h
    dsimp only
    split
    · exact (completeDup_draws _ _ _).after (h1 _)
    · exact h1 _

/-- A take done reaches the DC. -/
theorem targetDone_draws {v id : Nat} {r : List ScMessage} {s : State} (h : s.sc.toDc = .done v id :: r) :
    Draws s (targetDone v id { s with sc := { s.sc with toDc := r } }) := by
  have hno : ¬OnlyFailures s := fun hf => by
    obtain ⟨w, i, he⟩ := hf (.done v id) (by rw [h]; exact List.mem_cons_self)
    cases he
  have hstay (e : Nat × DupJob) (he : e ∈ s.dc.jobs) : ∃ x, (e.1, x) ∈ s.dc.jobs
      ∧ (e.2.state = x.state ∨ (x.state = .waitingSnapshot ∧ e.2.state = takenState s ∧ ¬OnlyFailures s))
      ∧ (e.2.batch = none → x.batch = none ∨ (volume s e.1).state ≠ .attached) := ⟨e.2, he, .inl rfl, fun h => .inl h⟩
  have hpop : Draws s { s with sc := { s.sc with toDc := r } } := .write rfl rfl (fun hf => absurd hf hno) hstay rfl rfl
  have htake {j : DupJob} (hj : (v, j) ∈ s.dc.jobs) (hw : j.state = .waitingSnapshot) :
      Draws s (setDupJob v { j with state := takenState s } { s with sc := { s.sc with toDc := r } }) :=
    .write rfl rfl (fun hf => absurd hf hno) (fun e he => by
      rcases mem_tput he with rfl | he
      · exact ⟨j, hj, .inr ⟨hw, rfl, hno⟩, fun h => .inl h⟩
      · exact hstay e he) rfl rfl
  unfold targetDone
  split
  · exact hpop
  · rename_i j hj
    split
    · rename_i hw
      have ht := htake (mem_of_tget hj) hw.1
      unfold takenState at ht
      split
      · rename_i hslot
        rw [if_pos hslot] at ht
        exact (settleDup_draws _ _).after ht
      · rename_i hslot
        rw [if_neg hslot] at ht
        exact ht
    · exact hpop

theorem targetFailed_draws {v id : Nat} {r : List ScMessage} {s : State} (h : s.sc.toDc = .failed v id :: r) :
    Draws s (targetFailed v id { s with sc := { s.sc with toDc := r } }) := by
  have hpop : Draws s { s with sc := { s.sc with toDc := r } } :=
    .write rfl rfl (fun hf m hm => hf m (by rw [h]; exact List.mem_cons_of_mem _ hm))
      (fun e he => ⟨e.2, he, .inl rfl, fun h => .inl h⟩) rfl rfl
  unfold targetFailed
  split
  · exact hpop
  · split
    · exact (endDup_draws _ _ _ _ _).after hpop
    · exact hpop

theorem drainMessages_draws (n : Nat) (s : State) : Draws s (drainMessages n s) := by
  induction n generalizing s with
  | zero => exact .refl s
  | succ n ih =>
    unfold drainMessages
    split
    · rename_i h; exact (ih _).after (targetDone_draws h)
    · rename_i h; exact (ih _).after (targetFailed_draws h)
    · exact .refl s

/-! ### Orders failed back -/

theorem failTake_draws (id : Nat) (x : Snap) (why : SnapFailReason) (q : Bool) (s : State) : Draws s (failTake id x why q s) := by
  have h1 : Draws s (cascade id x true s).1 := (cascade_frame _ _ _ s).draws (cascade_work _ _ _ s)
  unfold failTake
  dsimp only
  split
  · exact h1
  · have h2 (u : State) : Draws u (notifySnapFailed x.volume id x.kind why u) := (notify_frame _ _ u).draws (notify_work _ _ u)
    refine (h1.trans (h2 _)).trans (.write rfl rfl (fun hf m hm => ?_) (fun e he => ⟨e.2, he, .inl rfl, fun h => .inl h⟩) rfl rfl)
    rcases List.mem_append.1 hm with hm | hm
    · exact hf m hm
    · exact ⟨_, _, List.mem_singleton.1 hm⟩

theorem snapFailedBack_draws (srv num : Nat) (q : Bool) (s : State) : Draws s (snapFailedBack srv num q s) := by
  unfold snapFailedBack
  split
  · exact failTake_draws _ _ _ _ s
  · split
    · exact (setSnap_frame _ _ s).draws (setSnap_work _ _ s)
    · exact .refl s

theorem batchFailed_draws {v : Nat} {w : DupFailure} {j : DupJob} {s : State} (hj : (v, j) ∈ s.dc.jobs)
    (hv : (volume s v).state ≠ .attached) : Draws s (batchFailed v w j s) := by
  unfold batchFailed
  split
  · exact .refl s
  · dsimp only
    split
    · exact endDup_draws _ _ _ _ s
    · split
      · exact endDup_draws _ _ _ _ s
      · exact setDupJob_draws hj rfl fun _ => .inr hv

theorem failBack_draws {srv : Nat} (q : Bool) {s : State} (hq : QuietServer srv s) (o : Order) : Draws s (failBack srv q s o) := by
  unfold failBack
  split
  · exact snapFailedBack_draws _ _ _ s
  · unfold copyFailedBack
    split
    · exact .refl s
    · exact ((testRestoreEnd_frame _ _).draws (testRestoreEnd_work _ _)).after
        ((setRestoreJob_frame _ _ s).draws (setRestoreJob_work _ _ s))
  · unfold shipFailedBack
    split
    · exact .refl s
    · rename_i e he
      have hp := List.find?_some he
      simp only [Bool.and_eq_true, decide_eq_true_eq] at hp
      exact batchFailed_draws (List.mem_of_find?_eq_some he) (hq.2 _ hp.1)
  · exact .refl s

theorem leavingRest_draws {srv : Nat} (a : LinkState) (w : LinkReason) (os : List Order) {p : State} (hq : QuietServer srv p) :
    Draws p (leavingRest srv a w os p) := by
  unfold leavingRest
  exact (drainMessages_draws _ _).after (((notifyLink_frame _ _ _ _ _).draws (notifyLink_work _ _ _ _ _)).after
    (((enforceLeave_frame _ _).draws (enforceLeave_work _ _)).after
      (Draws.foldl (I := QuietServer srv) (fun s o h => (failBack_work srv false s o).quietServer h) (fun s o h => failBack_draws false h o) os hq)))

/-! ### Grants -/

theorem Unshippable.eligibleOn {s : State} (h : Unshippable s) (srv : Nat) : eligibleOn s srv = [] := by
  refine List.eq_nil_iff_forall_not_mem.2 fun v hv => ?_
  obtain ⟨j, hj, -, he⟩ := mem_eligibleOn hv
  obtain ⟨hst, -, hb, -, ha, -⟩ := dupEligible_iff.1 he
  rcases h _ hj ha with ⟨hw, -⟩ | hd | hne
  · rw [hst] at hw; cases hw
  · rw [hst] at hd; cases hd
  · exact hne hb

theorem formBatch_draws {srv v : Nat} {j : DupJob} {s : State} (hv : v ∈ eligibleOn s srv) (hj : dupJob s v = some j) :
    Draws s (formBatch srv v j s) where
  slot := rfl
  attached _ h := h
  messages h := h
  jobs e he := by
    rcases mem_tput he with rfl | he
    · exact ⟨j, mem_of_tget hj, .inl rfl, fun h => by cases h⟩
    · exact ⟨e.2, he, .inl rfl, fun h => .inl h⟩
  full := rfl
  falls := by
    change (if fitsOrdinary s v then _ else _) ≤ _
    split
    · exact Nat.sub_le _ _
    · exact Nat.zero_le _
  idle h := by rw [h.eligibleOn] at hv; cases hv

theorem setCredit_draws (i : Nat) (c : Credit) (s : State) : Draws s (setCredit i c s) := (setCredit_frame i c s).draws (setCredit_work i c s)

theorem presentAll_draws (s : State) : Draws s (presentAll s) := (presentAll_frame s).draws (presentAll_work s)

theorem grantDup_draws (srv : Nat) (s : State) : Draws s (grantDup srv s) := by
  have hback (u : State) : Draws u (presentAll (returnShip srv u)) :=
    (presentAll_draws _).after ((returnShip_frame srv u).draws (returnShip_work srv u))
  unfold grantDup
  dsimp only
  split
  · exact (hback _).after (setCredit_draws _ _ s)
  · rename_i v hv
    split
    · exact (hback _).after (setCredit_draws _ _ s)
    · rename_i j hj
      exact (presentAll_draws _).after ((formBatch_draws (pickVolume_mem hv) hj).after (setCredit_draws _ _ s))

theorem grantRestore_draws (srv id : Nat) (j : RestoreJob) (s : State) : Draws s (grantRestore srv id j s) := by
  unfold grantRestore
  split
  · exact .refl s
  · exact .write rfl rfl (fun h => h) (fun e he => ⟨e.2, he, .inl rfl, fun h => .inl h⟩) rfl rfl

theorem grantLoop_draws (srv n : Nat) (s : State) : Draws s (grantLoop srv n s) := by
  induction n generalizing s with
  | zero => exact .refl s
  | succ n ih =>
    rw [grantLoop]
    split
    · exact .refl s
    · split
      · exact (ih _).after (grantRestore_draws _ _ _ s)
      · split
        · exact (ih _).after (grantDup_draws srv s)
        · exact .refl s

theorem grantAll_draws (s : State) : Draws s (grantAll s) :=
  (Draws.foldl (I := fun _ => True) (fun _ _ h => h) (fun s srv _ => grantLoop_draws srv 4 s) _ trivial).after (presentAll_draws s)

/-! ### Silence supervision -/

theorem leaveParting_draws {srv : Nat} {s : State} (a : LinkState) (w : LinkReason) (hs : tsorted s.vt = true) :
    Draws s (leaveParting srv a w false s) := by
  have hf := leaveParting_frame srv a w false s
  refine ⟨(hf.same .window (by decide)).1, fun v hv => ?_, fun h => ?_, fun e he => ?_, (hf.same .budget (by decide)).2,
    Nat.le_of_eq (hf.same .budget (by decide)).1, fun _ => (hf.same .budget (by decide)).1⟩
  · rw [volume_leaveParting hs] at hv
    split at hv
    · cases hv
    · exact hv
  · unfold OnlyFailures
    rw [show (leaveParting srv a w false s).sc.toDc = s.sc.toDc from hf.same .toDc (by decide)]
    exact h
  · rw [show (leaveParting srv a w false s).dc.jobs = s.dc.jobs from hf.same .dupJobs (by decide)] at he
    exact ⟨e.2, he, .inl rfl, fun h => .inl h⟩

theorem dropLink_draws {srv : Nat} {s : State} {a : LinkState} (w : LinkReason) (ha : a ≠ .up) (hs : tsorted s.vt = true) :
    Draws s (dropLink srv a w s) := by
  rw [dropLink_eq]
  exact (grantAll_draws _).after ((leavingRest_draws _ _ _ (leaveParting_quiet hs srv w false ha)).after (leaveParting_draws a w hs))

theorem silenceTick_draws {s : State} (hs : tsorted s.vt = true) (srv : Nat) : Draws s (silenceTick s srv) := by
  have h1 : Draws s (setLink srv (link s srv).silent s) :=
    .write rfl rfl (fun h => h) (fun e he => ⟨e.2, he, .inl rfl, fun h => .inl h⟩) rfl rfl
  rw [silenceTick_eq]
  split
  · split
    · exact h1.trans (dropLink_draws _ (by decide) hs)
    · exact h1
  · exact .refl s

theorem silenceTicks_draws (l : List Nat) {s : State} (hs : tsorted s.vt = true) : Draws s (l.foldl silenceTick s) :=
  .foldl (I := fun u => tsorted u.vt = true) (fun _ srv h => silenceTick_sorted h srv) (fun _ srv h => silenceTick_draws h srv) l hs

theorem idleTicks_draws (l : List Nat) (s : State) : Draws s (l.foldl idleTick s) := by
  have hf := idleTicks_frame l s
  exact .write (hf.same .window (by decide)).1 (hf.same .volumes (by decide))
    (fun h => by unfold OnlyFailures; rw [show (l.foldl idleTick s).sc.toDc = s.sc.toDc from hf.same .toDc (by decide)]; exact h)
    (fun e he => ⟨e.2, by rw [← show (l.foldl idleTick s).dc.jobs = s.dc.jobs from hf.same .dupJobs (by decide)]; exact he, .inl rfl,
      fun h => .inl h⟩) (hf.same .budget (by decide)).2 (hf.same .budget (by decide)).1

end Sys2Proof.Machine
end

