-- ==== Sys2Proof/Proofs/WindowEvaluated.lean ====
section
/-! SUPPORT. The evaluation of the window in a minute event (R25 to R30, R173, R186): the state in which an open, a slot boundary and
a close leave the CWU, the SC and the DC, and what the rest of the second event keeps of it. -/

namespace Sys2Proof.Machine

/-! ### What stands -/

/-- Masks, settings and the window opens due stand. -/
structure WindowKept (s t : State) : Prop where
  masks : t.cwu.masks = s.cwu.masks
  settings : t.cwu.settings = s.cwu.settings
  pendingSet : t.cwu.pendingSet = s.cwu.pendingSet
  opensDue : t.sc.opensDue = s.sc.opensDue

/-- The whole of the window's state stands. -/
structure WindowSame (s t : State) : Prop extends WindowKept s t where
  slot : t.cwu.slot = s.cwu.slot
  visited : t.cwu.visited = s.cwu.visited
  cwuGroups : t.cwu.openGroups = s.cwu.openGroups
  dcGroups : t.dc.openGroups = s.dc.openGroups
  ccaGroups : t.cca.openGroups = s.cca.openGroups

theorem WindowSame.trans {s t u : State} (h1 : WindowSame s t) (h2 : WindowSame t u) : WindowSame s u where
  masks := h2.masks.trans h1.masks
  settings := h2.settings.trans h1.settings
  pendingSet := h2.pendingSet.trans h1.pendingSet
  opensDue := h2.opensDue.trans h1.opensDue
  slot := h2.slot.trans h1.slot
  visited := h2.visited.trans h1.visited
  cwuGroups := h2.cwuGroups.trans h1.cwuGroups
  dcGroups := h2.dcGroups.trans h1.dcGroups
  ccaGroups := h2.ccaGroups.trans h1.ccaGroups

/-- The parts that no step of a second event but the window's own moves. -/
abbrev restParts : List Part := .clock :: .interval :: .samplesDue :: linkParts

theorem Frame.windowSame {s t : State} (h : Frame restParts s t) : WindowSame s t where
  masks := h.same .masks (by decide)
  settings := (h.same .windowSettings (by decide)).1
  pendingSet := (h.same .windowSettings (by decide)).2
  opensDue := h.same .opensDue (by decide)
  slot := (h.same .window (by decide)).1
  visited := (h.same .window (by decide)).2
  cwuGroups := h.same .cwuOpen (by decide)
  dcGroups := h.same .dcOpen (by decide)
  ccaGroups := h.same .ccaOpen (by decide)

theorem NothingToShip.unshippable {s : State} (h : NothingToShip s) (hs : tsorted s.dc.jobs = true) : Unshippable s := fun e he ha => by
  rcases h e.1 e.2 ((tget_eq_some_iff hs).2 he) ha with ⟨hw, hm⟩ | hd | hb
  · exact .inl ⟨hw, fun m hm' => by rw [hm] at hm'; cases hm'⟩
  · exact .inr (.inl hd)
  · exact .inr (.inr hb)

/-! ### Masks -/

theorem slotMask_congr {c d : Cwu} (h : d.masks = c.masks) (g : Nat) : slotMask d g = slotMask c g := by unfold slotMask; rw [h]

theorem groupsOpenIn_congr {c d : Cwu} (h : d.masks = c.masks) (j : Nat) : groupsOpenIn d j = groupsOpenIn c j := by
  unfold groupsOpenIn
  simp only [slotMask_congr h]

theorem slotMask_installMasks (c : Cwu) (g : Nat) (hg : g < 8) :
    slotMask (installMasks c) g = { current := (slotMask c g).pending.getD (slotMask c g).current, pending := none } := by
  have hfold (l : List Nat) (t : Tab SlotMask) :
      tgetD { current := 0, pending := none }
          (l.foldl (fun t g => tsetD { current := 0, pending := none } t g (installMask (slotMask c g))) t) g
        = if g ∈ l then installMask (slotMask c g) else tgetD { current := 0, pending := none } t g := by
    induction l generalizing t with
    | nil => simp
    | cons k r ih =>
      rw [List.foldl_cons, ih, tgetD_tsetD]
      by_cases hk : k = g
      · subst hk; simp
      · simp [hk, Ne.symm hk]
  have hm : g ∈ serverList := by unfold serverList; simp only [List.mem_cons, List.not_mem_nil, or_false]; omega
  rw [slotMask, installMasks, hfold, if_pos hm, installMask]
  cases hp : slotMask c g with
  | mk cur pend => cases pend <;> rfl

/-! ### Open -/

/-- The state of a window open before its jobs are settled. -/
def opened (j : Nat) (s : State) : State :=
  dupStates .suspended .shipping (handOpenGroups (refillBudget
    { s with cwu := cwuOpen j s.cwu, sc := { s.sc with opensDue := s.sc.opensDue + 1 } }))

/-- The jobs that were SUSPENDED are settled. -/
def settled (j : Nat) (s : State) : State := (dupIn s .suspended).foldl (fun s v => settleDup v s) (opened j s)

theorem settled_frame (j : Nat) (s : State) : Frame dupParts (opened j s) (settled j s) := Frame.foldl (fun s v => settleDup_frame v s) _ _

theorem settled_draws (j : Nat) (s : State) : Draws (opened j s) (settled j s) :=
  .foldl (I := fun _ => True) (fun _ _ h => h) (fun s v _ => settleDup_draws v s) _ trivial

theorem windowOpen_same (j : Nat) (c : WindowCause) (s : State) : WindowSame (opened j s) (windowOpen j c s) :=
  Frame.windowSame ((notify_frame _ _ _).after (by decide) ((settled_frame j s).into (by decide)))

theorem windowOpen_draws (j : Nat) (c : WindowCause) (s : State) : Draws (opened j s) (windowOpen j c s) :=
  ((notify_frame _ _ _).draws (notify_work _ _ _)).after (settled_draws j s)

theorem mem_dupStates {a b : DupState} {s : State} {e : Nat × DupJob} (h : e ∈ (dupStates a b s).dc.jobs) :
    ∃ x, (e.1, x) ∈ s.dc.jobs ∧ e.2 = if x.state = a then { x with state := b } else x := by
  obtain ⟨x, hx, rfl⟩ := List.mem_map.1 h
  refine ⟨x.2, ?_, ?_⟩ <;> split <;> first | exact hx | rfl

theorem Unshippable.of_same {s t : State} (h : Unshippable s) (hj : t.dc.jobs = s.dc.jobs) (hm : t.sc.toDc = s.sc.toDc)
    (hv : t.vt = s.vt) : Unshippable t := by
  unfold Unshippable OnlyFailures volume at h ⊢
  rw [hj, hm, hv]
  exact h

/-- Jobs that go between SHIPPING and SUSPENDED stay without a grant. -/
theorem Unshippable.dupStates {a b : DupState} (ha : a ≠ .waitingSnapshot ∧ a ≠ .draining) {s : State} (h : Unshippable s) :
    Unshippable (Machine.dupStates a b s) := fun e he hatt => by
  obtain ⟨x, hx, he⟩ := mem_dupStates he
  rw [he]
  rcases h _ hx hatt with ⟨hw, hf⟩ | hd | hb
  · rw [if_neg fun hst => ha.1 (hst.symm.trans hw)]; exact .inl ⟨hw, hf⟩
  · rw [if_neg fun hst => ha.2 (hst.symm.trans hd)]; exact .inr (.inl hd)
  · refine .inr (.inr ?_)
    split <;> exact hb

theorem dupStates_clears {a b : DupState} (hab : b ≠ a) (s : State) : ∀ e ∈ (dupStates a b s).dc.jobs, e.2.state ≠ a := fun e he => by
  obtain ⟨x, -, he⟩ := mem_dupStates he
  rw [he]
  split
  · exact hab
  · rename_i hst; exact hst

theorem dupIn_eq_nil {s : State} {a : DupState} (h : ∀ e ∈ s.dc.jobs, e.2.state ≠ a) : dupIn s a = [] := by
  rw [dupIn, List.map_eq_nil_iff, List.filter_eq_nil_iff]
  exact fun e he => by simpa using h e he

theorem opened_unshippable {j : Nat} {s : State} (h : Unshippable s) : Unshippable (opened j s) :=
  Unshippable.dupStates (by decide) (h.of_same rfl rfl rfl)

theorem WindowOpens.of {j : Nat} {s u t : State} (h : WindowKept s u) (hn : NothingToShip s → Unshippable u)
    (hs : WindowSame (opened j u) t) (hd : Draws (opened j u) t) : WindowOpens j s t := by
  have hmask : t.cwu.masks = (installMasks { u.cwu with slot := some j, visited := [j] }).masks := hs.masks
  have hstep : InStep (opened j u) := dupStates_clears (by decide) _
  have hslot : t.cwu.slot = some j := hs.slot
  refine ⟨hslot, hs.visited, ⟨fun g hg => ?_, ?_, hs.dcGroups.trans hs.cwuGroups.symm, hs.ccaGroups.trans hs.cwuGroups.symm⟩,
    hs.settings.trans h.settings, hs.pendingSet.trans h.pendingSet, hs.opensDue.trans (congrArg (· + 1) h.opensDue),
    ⟨?_, ?_, fun hship => ?_⟩, dupIn_eq_nil fun e he => ?_⟩
  · rw [slotMask_congr hmask, slotMask_installMasks _ g hg, slotMask_congr (d := { u.cwu with slot := some j, visited := [j] }) h.masks]
  · exact hs.cwuGroups.trans (groupsOpenIn_congr hmask j).symm
  · rw [hd.full, ← h.settings]; rfl
  · rw [hd.full]; exact hd.falls
  · rw [hd.full]
    exact hd.idle (opened_unshippable (hn hship))
  · have := hd.inStep hstep e he
    rw [hslot] at this
    exact this

/-! ### Close -/

/-- The state of a window close before its notice. -/
def closed (s : State) : State := dupStates .shipping .suspended (handOpenGroups { s with cwu := cwuClose s.cwu })

theorem closed_unshippable {s : State} (h : Unshippable s) : Unshippable (closed s) :=
  Unshippable.dupStates (by decide) (h.of_same rfl rfl rfl)

theorem windowClose_same (i : Nat) (c : WindowCause) (s : State) : WindowSame (closed s) (windowClose i c s) :=
  Frame.windowSame ((notify_frame _ _ _).into (by decide))

theorem windowClose_draws (i : Nat) (c : WindowCause) (s : State) : Draws (closed s) (windowClose i c s) :=
  (notify_frame _ _ _).draws (notify_work _ _ _)

theorem BudgetStands.of {s u w t : State} (hu : BudgetStands s u) (hn : NothingToShip s → Unshippable w) (hf : w.dc.full = u.dc.full)
    (hr : w.dc.remaining = u.dc.remaining) (hd : Draws w t) : BudgetStands s t := by
  obtain ⟨hfull, hfalls, hidle⟩ := hu
  exact ⟨hd.full.trans (hf.trans hfull), Nat.le_trans hd.falls (by rw [hr]; exact hfalls),
    fun h => (hd.idle (hn h)).trans (hr.trans (hidle h))⟩

theorem WindowCloses.of {s u t : State} (h : WindowKept s u) (hb : BudgetStands s u) (hn : NothingToShip s → Unshippable u)
    (hs : WindowSame (closed u) t) (hd : Draws (closed u) t) : WindowCloses s t := by
  have hslot : t.cwu.slot = none := hs.slot
  refine ⟨hslot, hs.visited, hs.cwuGroups, hs.dcGroups, hs.ccaGroups, hs.masks.trans h.masks, ?_, hs.pendingSet,
    hs.opensDue.trans h.opensDue, .of hb (fun hship => closed_unshippable (hn hship)) rfl rfl hd,
    dupIn_eq_nil fun e he => ?_⟩
  · rw [hs.settings, ← h.pendingSet, ← h.settings]; rfl
  · have := hd.inStep (dupStates_clears (by decide) _) e he
    rw [hslot] at this
    exact this

/-! ### Slot boundary -/

theorem WindowMoves.of {j : Nat} {s u t : State} (h : WindowSame s u) (hb : BudgetStands s u) (hn : NothingToShip s → Unshippable u)
    (hs : WindowSame (slotBoundary j u) t) (hd : Draws (slotBoundary j u) t) : WindowMoves j s t := by
  have hcwu : (slotBoundary j u).cwu = cwuBoundary j u.cwu := by unfold slotBoundary; dsimp only; split <;> rfl
  have hgroups : (slotBoundary j u).dc.openGroups = (slotBoundary j u).cwu.openGroups
      ∧ (slotBoundary j u).cca.openGroups = (slotBoundary j u).cwu.openGroups := ⟨rfl, rfl⟩
  have hdue : (slotBoundary j u).sc.opensDue = u.sc.opensDue := by unfold slotBoundary; dsimp only; split <;> rfl
  have hmask : t.cwu.masks = (installMasks { u.cwu with slot := some j, visited := setAdd j u.cwu.visited }).masks := by
    rw [hs.masks, hcwu]; rfl
  have hidle : NothingToShip s → Unshippable (slotBoundary j u) := fun hship => by
    refine (hn hship).of_same ?_ ?_ ?_ <;> (unfold slotBoundary; dsimp only; split <;> rfl)
  refine ⟨?_, ?_, ⟨fun g hg => ?_, ?_, ?_, ?_⟩, ?_, ?_, hs.opensDue.trans (hdue.trans h.opensDue), ?_⟩
  · rw [hs.slot, hcwu]; rfl
  · rw [hs.visited, hcwu, ← h.visited]; rfl
  · rw [slotMask_congr hmask, slotMask_installMasks _ g hg,
      slotMask_congr (d := { u.cwu with slot := some j, visited := setAdd j u.cwu.visited }) h.masks]
  · rw [hs.cwuGroups, hcwu]
    exact (groupsOpenIn_congr hmask j).symm
  · rw [hs.dcGroups, hs.cwuGroups, hgroups.1]
  · rw [hs.ccaGroups, hs.cwuGroups, hgroups.2]
  · rw [hs.settings, hcwu, ← h.settings]; rfl
  · rw [hs.pendingSet, hcwu, ← h.pendingSet]; rfl
  · by_cases hv : j ∈ s.cwu.visited
    · have hw : slotBoundary j u = handOpenGroups { u with cwu := cwuBoundary j u.cwu } := by
        unfold slotBoundary
        exact congrArg handOpenGroups (if_pos (by rw [h.visited]; simpa using hv))
      rw [if_pos hv]
      rw [hw] at hidle hd
      exact .of hb hidle rfl rfl hd
    · have hw : slotBoundary j u = handOpenGroups (refillBudget { u with cwu := cwuBoundary j u.cwu }) := by
        unfold slotBoundary
        exact congrArg handOpenGroups (if_neg (by rw [h.visited]; simpa using hv))
      rw [if_neg hv]
      rw [hw] at hidle hd
      refine ⟨?_, ?_, fun hship => ?_⟩
      · rw [hd.full, ← h.settings]; rfl
      · rw [hd.full]; exact hd.falls
      · rw [hd.full]; exact hd.idle (hidle hship)

/-! ### The evaluation -/

/-- A second event from `s` to `t` around the evaluation of the window in `u`. -/
structure Evaluation (s u t : State) : Prop where
  before : WindowSame s u
  draws : Draws s u
  jobs : tsorted s.dc.jobs = true
  after : WindowSame (evaluateWindow .minute u) t
  rest : Draws (evaluateWindow .minute u) t

namespace Evaluation

variable {s u t : State}

theorem unshippable (h : Evaluation s u t) (hn : NothingToShip s) : Unshippable u := h.draws.unshippable (hn.unshippable h.jobs)

theorem budget (h : Evaluation s u t) : BudgetStands s u :=
  ⟨h.draws.full, h.draws.falls, fun hn => h.draws.idle (hn.unshippable h.jobs)⟩

theorem stays (h : Evaluation s u t) (he : evaluateWindow .minute u = u) : WindowStays s t := by
  obtain ⟨hbefore, hd, hj, hafter, hrest⟩ := h
  rw [he] at hafter hrest
  have hw := hbefore.trans hafter
  have hall := hd.trans hrest
  exact ⟨hw.slot, hw.visited, hw.cwuGroups, hw.masks, hw.settings, hw.pendingSet, hw.opensDue,
    ⟨hall.full, hall.falls, fun hn => hall.idle (hn.unshippable hj)⟩, hw.dcGroups, hw.ccaGroups⟩

theorem opens (h : Evaluation s u t) {j : Nat} {c : WindowCause} (he : evaluateWindow .minute u = windowOpen j c u) : WindowOpens j s t := by
  have hafter := h.after
  have hrest := h.rest
  rw [he] at hafter hrest
  exact .of h.before.toWindowKept h.unshippable ((windowOpen_same j c u).trans hafter) ((windowOpen_draws j c u).trans hrest)

theorem closes (h : Evaluation s u t) {i : Nat} {c : WindowCause} (he : evaluateWindow .minute u = windowClose i c u) :
    WindowCloses s t := by
  have hafter := h.after
  have hrest := h.rest
  rw [he] at hafter hrest
  exact .of h.before.toWindowKept h.budget h.unshippable ((windowClose_same i c u).trans hafter) ((windowClose_draws i c u).trans hrest)

theorem moves (h : Evaluation s u t) {j : Nat} (he : evaluateWindow .minute u = slotBoundary j u) : WindowMoves j s t := by
  have hafter := h.after
  have hrest := h.rest
  rw [he] at hafter hrest
  exact .of h.before h.budget h.unshippable hafter hrest

/-- Slot 0 after slot 31 of a window of the whole day: a close, its grants and an open. -/
theorem turns (h : Evaluation s u t) {i j : Nat} (hp : s.cwu.pendingSet = none)
    (he : evaluateWindow .minute u = windowOpen j .minute (grantAll (windowClose i .minute u))) : WindowOpens j s t := by
  have hafter := h.after
  have hrest := h.rest
  rw [he] at hafter hrest
  have hsame : WindowSame (closed u) (grantAll (windowClose i .minute u)) :=
    (windowClose_same i .minute u).trans (Frame.windowSame ((grantAll_frame _).into (by decide)))
  have hdraws : Draws (closed u) (grantAll (windowClose i .minute u)) := (grantAll_draws _).after (windowClose_draws i .minute u)
  have hsettings : (closed u).cwu.settings = s.cwu.settings := by
    change u.cwu.pendingSet.getD u.cwu.settings = _
    rw [h.before.pendingSet, hp, h.before.settings]
    rfl
  refine .of ⟨hsame.masks.trans h.before.masks, hsame.settings.trans hsettings, hsame.pendingSet.trans hp.symm,
    hsame.opensDue.trans h.before.opensDue⟩ (fun hn => hdraws.unshippable (closed_unshippable (h.unshippable hn)))
    ((windowOpen_same _ _ _).trans hafter) ((windowOpen_draws _ _ _).trans hrest)

end Evaluation

/-! ### Its cases -/

theorem evaluateWindow_outside {c : WindowCause} {s : State} (hs : s.cwu.slot = none)
    (hj : slotOf s.cwu.settings s.cwu.minute = none) : evaluateWindow c s = s := by
  unfold evaluateWindow; rw [hs, hj]

theorem evaluateWindow_opens {c : WindowCause} {s : State} {j : Nat} (hs : s.cwu.slot = none)
    (hj : slotOf s.cwu.settings s.cwu.minute = some j) : evaluateWindow c s = windowOpen j c s := by
  unfold evaluateWindow; rw [hs, hj]

theorem evaluateWindow_closes {c : WindowCause} {s : State} {i : Nat} (hs : s.cwu.slot = some i)
    (hj : slotOf s.cwu.settings s.cwu.minute = none) : evaluateWindow c s = windowClose i c s := by
  unfold evaluateWindow; rw [hs, hj]

theorem evaluateWindow_inside {c : WindowCause} {s : State} {i j : Nat} (hs : s.cwu.slot = some i)
    (hj : slotOf s.cwu.settings s.cwu.minute = some j) : evaluateWindow c s =
      if i = j then s
      else if c = .minute ∧ windowLength s.cwu.settings = 1440 ∧ i = 31 ∧ j = 0 then
        if s.cwu.pendingSet.isSome then windowClose i c s else windowOpen j c (grantAll (windowClose i c s))
      else slotBoundary j s := by
  unfold evaluateWindow; rw [hs, hj]

end Sys2Proof.Machine
end

