-- ==== Sys2Proof/Proofs/MinuteNotices.lean ====
section
/-! SUPPORT. What a minute event does in turn, and the notices of each part: of the window, of the links that reach the silence limit,
and of nothing else where nothing else is there to raise them (R15, R19, R23, R26, R28). -/

namespace Sys2Proof.Machine

/-! ### The parts in turn -/

/-- The clock at a minute event. -/
def clockMoved (s : State) : State := { s with cwu := cwuMinute { s.cwu with second := 0 } }

/-- A minute event up to the evaluation of the window. -/
def minuteStart (s : State) : State := trendTick (ageRetention (graceWalk (clockMoved s)))

/-- A minute event with its grants. -/
def minuteDone (s : State) : State := grantAll (evaluateWindow .minute (minuteStart s))

theorem secondTick_minute {s : State} (h : s.cwu.second = 59) :
    secondTick s = serverList.foldl idleTick (serverList.foldl silenceTick (minuteDone s)) := by
  rw [secondTick_eq, secondCount, if_pos (by rw [h])]
  rfl

theorem minuteStart_work (s : State) : Work s (minuteStart s) :=
  (trendTick_work _).after ((ageRetention_work _).after ((graceWalk_work _).after (cwuWrite_work _ s)))

theorem minuteDone_work (s : State) : Work s (minuteDone s) :=
  (grantAll_work _).after ((evaluateWindow_work _ _).after (minuteStart_work s))

/-! ### Silence -/

theorem dropLink_notices (srv : Nat) (a : LinkState) (w : LinkReason) (s : State) :
    ∃ p q, Speaks s p ∧ Noticed [⟨.server srv, .linkState .up a w (now s)⟩] p q ∧ Speaks q (dropLink srv a w s) := by
  have hn : now (leaveUp srv a w false s) = now s := (leaveUp_frame srv a w false s).now
  have hnotice := notify_noticed (.server srv) (.linkState .up a w (now (leaveUp srv a w false s))) (leaveUp srv a w false s)
  rw [hn] at hnotice
  exact ⟨leaveUp srv a w false s, _, leaveUp_speaks _ _ _ _ s, hnotice, by
    rw [dropLink, notifyLink, hn]; exact (afterLeave_work _).speaks⟩

/-- The LINK_STATE of a link that reaches the limit. -/
theorem silenceTicks_notice {l : List Nat} (hl : l.Nodup) {srv : ServerId} (hm : srv.val ∈ l) {s : State} (hs : tsorted s.vt = true)
    (hu : linkUp s srv = true) (hlimit : s.lu.silenceLimit ≤ (link s srv).silence + 1) :
    ∃ p q, Speaks s p ∧ Noticed [⟨.server srv, .linkState .up .faulted .silence (now s)⟩] p q ∧ Speaks q (l.foldl silenceTick s) := by
  induction l generalizing s with
  | nil => cases hm
  | cons k r ih =>
    obtain ⟨hk, hr⟩ := List.nodup_cons.1 hl
    have hf := silenceTick_frame s k
    by_cases hks : k = srv.val
    · subst hks
      obtain ⟨p, q, hp, hnoticed, hq⟩ := dropLink_notices srv .faulted .silence (setLink srv (link s srv).silent s)
      refine ⟨p, q, hp.after (setLink_speaks _ _ s), hnoticed, (Speaks.foldl silenceTick_speaks r _).after ?_⟩
      rw [silenceTick_eq, if_pos hu, if_pos hlimit]
      exact hq
    · have hun := (silenceTick_elsewhere hs (Ne.symm hks) : Elsewhere srv s (silenceTick s k)).toUntouched
      obtain ⟨p, q, hp, hnoticed, hq⟩ := ih hr ((List.mem_cons.1 hm).resolve_left (Ne.symm hks)) (silenceTick_sorted hs k)
        (by rw [hun.linkUp]; exact hu) (by rw [hun.link.silence, hf.same .silenceLimit (by decide)]; exact hlimit)
      rw [hf.now] at hnoticed
      exact ⟨p, q, hp.after (silenceTick_speaks s k), hnoticed, hq⟩

/-- Where no link reaches the limit the silence counts rise and nothing else moves. -/
theorem silenceTicks_quiet {l : List Nat} (hl : l.Nodup) {s : State}
    (h : ∀ k ∈ l, linkUp s k = true → (link s k).silence + 1 < s.lu.silenceLimit) :
    Frame [.links] s (l.foldl silenceTick s) ∧ Noticed [] s (l.foldl silenceTick s) := by
  induction l generalizing s with
  | nil => exact ⟨Frame.refl _ s, Noticed.refl s⟩
  | cons k r ih =>
    obtain ⟨hk, hr⟩ := List.nodup_cons.1 hl
    rw [List.foldl_cons, silenceTick_eq]
    split
    · rename_i hu
      rw [if_neg (by have := h k List.mem_cons_self hu; omega)]
      have hrest : ∀ i ∈ r, linkUp (setLink k (link s k).silent s) i = true →
          (link (setLink k (link s k).silent s) i).silence + 1 < (setLink k (link s k).silent s).lu.silenceLimit := fun i hi hup => by
        rw [linkUp_silent] at hup
        rw [link_silent, if_neg (by rintro rfl; exact hk hi)]
        exact h i (List.mem_cons_of_mem _ hi) hup
      obtain ⟨hf, hn⟩ := ih hr hrest
      exact ⟨(setLink_frame _ _ s).trans hf, (setLink_silent _ _ s).trans hn⟩
    · exact ih hr fun i hi => h i (List.mem_cons_of_mem _ hi)

/-! ### The window's notices -/

/-- WINDOW as a window that opens into slot `j` or closes out of it raises it (R26, R28). -/
def windowNotice (opens : Bool) (j : Nat) (s : State) : Notice := ⟨.device, .window opens j s.cwu.minute (now s) .minute⟩

theorem settled_work (j : Nat) (s : State) : Work s (settled j s) :=
  (Work.foldl (fun _ _ => settleDup_work _ _) _ _).after (.write rfl rfl rfl rfl rfl rfl)

theorem windowOpen_notice (j : Nat) (s : State) : ∃ p, Speaks s p ∧ Noticed [windowNotice true j s] p (windowOpen j .minute s) :=
  ⟨settled j s, (settled_work j s).speaks, notify_noticed _ _ _⟩

theorem windowClose_noticed (i : Nat) (s : State) : Noticed [windowNotice false i s] s (windowClose i .minute s) :=
  Noticed.silent_trans (t := closed s) (Noticed.nil rfl) (notify_noticed _ _ _)

theorem windowOpen_noticed {j : Nat} {s : State} (h : s.dc.jobs = []) : Noticed [windowNotice true j s] s (windowOpen j .minute s) := by
  have hset : settled j s = opened j s := by unfold settled dupIn; rw [h]; rfl
  refine Noticed.silent_trans (t := settled j s) ?_ (notify_noticed _ _ _)
  rw [hset]
  exact Noticed.nil rfl

theorem slotBoundary_silent (j : Nat) (s : State) : Noticed [] s (slotBoundary j s) := by
  unfold slotBoundary
  dsimp only
  split <;> exact Noticed.nil rfl

/-- The notices of the window's evaluation at a minute event. -/
def windowNotices (s : State) : List Notice :=
  match s.cwu.slot, slotOf s.cwu.settings s.cwu.minute with
  | none, none => []
  | none, some j => [windowNotice true j s]
  | some i, none => [windowNotice false i s]
  | some i, some j =>
    if i = 31 ∧ j = 0 ∧ 32 * s.cwu.settings.len = 1440 then
      windowNotice false i s :: (if s.cwu.pendingSet = none then [windowNotice true j s] else [])
    else []

theorem windowNotice_congr {s t : State} (h : Part.same s t .clock) (b : Bool) (j : Nat) : windowNotice b j t = windowNotice b j s := by
  unfold windowNotice now
  rw [h.2.1, h.2.2]

/-- A window of the whole day that passes from slot 31 to slot 0. -/
abbrev WrapsRound (s : State) (i j : Nat) : Prop := i = 31 ∧ j = 0 ∧ 32 * s.cwu.settings.len = 1440

theorem evaluateWindow_turns {s : State} {i j : Nat} (hs : s.cwu.slot = some i) (hj : slotOf s.cwu.settings s.cwu.minute = some j)
    (h : WrapsRound s i j) : (s.cwu.pendingSet ≠ none → evaluateWindow .minute s = windowClose i .minute s)
      ∧ (s.cwu.pendingSet = none → evaluateWindow .minute s = windowOpen j .minute (grantAll (windowClose i .minute s))) := by
  obtain ⟨rfl, rfl, hlen⟩ := h
  rw [evaluateWindow_inside hs hj, if_neg (by decide), if_pos ⟨rfl, hlen, rfl, rfl⟩]
  exact ⟨fun hp => if_pos (Option.isSome_iff_ne_none.2 hp), fun hp => if_neg (by rw [hp]; decide)⟩

theorem evaluateWindow_moves {s : State} {i j : Nat} (hs : s.cwu.slot = some i) (hj : slotOf s.cwu.settings s.cwu.minute = some j)
    (h : ¬WrapsRound s i j) : evaluateWindow .minute s = if i = j then s else slotBoundary j s := by
  rw [evaluateWindow_inside hs hj]
  split
  · rfl
  · rw [if_neg fun hc => h ⟨hc.2.2.1, hc.2.2.2, hc.2.1⟩]

/-- The open of a window of the whole day, behind its close and the grants. -/
theorem reopen_notice (i j : Nat) (s : State) : ∃ p, Speaks (windowClose i .minute s) p
    ∧ Noticed [windowNotice true j s] p (windowOpen j .minute (grantAll (windowClose i .minute s))) := by
  have hclock : Part.same s (grantAll (windowClose i .minute s)) .clock :=
    ((grantAll_frame _).after (L := .credits :: .restoreJobs :: .turn :: windowParts) (by decide)
      ((windowClose_frame i .minute s).into (by decide))).same .clock (by decide)
  obtain ⟨p, hp, hn⟩ := windowOpen_notice j (grantAll (windowClose i .minute s))
  rw [windowNotice_congr hclock] at hn
  exact ⟨p, hp.after (grantAll_work _).speaks, hn⟩

theorem reopen_noticed (i j : Nat) {s : State} (h : s.dc.jobs = []) :
    Noticed [windowNotice false i s, windowNotice true j s] s (windowOpen j .minute (grantAll (windowClose i .minute s))) := by
  have hclock : Part.same s (grantAll (windowClose i .minute s)) .clock :=
    ((grantAll_frame _).after (L := .credits :: .restoreJobs :: .turn :: windowParts) (by decide)
      ((windowClose_frame i .minute s).into (by decide))).same .clock (by decide)
  have hjobs : (grantAll (windowClose i .minute s)).dc.jobs = [] := by
    refine List.eq_nil_iff_forall_not_mem.2 fun e he => ?_
    obtain ⟨x, hx, -⟩ := ((grantAll_draws _).after (windowClose_draws i .minute s)).jobs e he
    obtain ⟨y, hy, -⟩ := mem_dupStates hx
    rw [show (handOpenGroups { s with cwu := cwuClose s.cwu }).dc.jobs = s.dc.jobs from rfl, h] at hy
    cases hy
  have hopen := windowOpen_noticed (j := j) hjobs
  rw [windowNotice_congr hclock] at hopen
  exact (windowClose_noticed i s).trans ((grantAll_silent _).silent_trans hopen)

/-- Each of the window's notices is raised, and no other where there are no jobs to settle. -/
theorem evaluateWindow_notices (s : State) :
    (∀ n ∈ windowNotices s, ∃ p q, Speaks s p ∧ Noticed [n] p q ∧ Speaks q (evaluateWindow .minute s))
      ∧ (s.dc.jobs = [] → Noticed (windowNotices s) s (evaluateWindow .minute s)) := by
  have hopen (j : Nat) : ∃ p q, Speaks s p ∧ Noticed [windowNotice true j s] p q ∧ Speaks q (windowOpen j .minute s) := by
    obtain ⟨p, hp, hn⟩ := windowOpen_notice j s
    exact ⟨p, _, hp, hn, Speaks.refl _⟩
  have hclose (i : Nat) : ∃ p q, Speaks s p ∧ Noticed [windowNotice false i s] p q ∧ Speaks q (windowClose i .minute s) :=
    ⟨s, _, Speaks.refl s, windowClose_noticed i s, Speaks.refl _⟩
  unfold windowNotices
  cases hs : s.cwu.slot with
  | none => cases hj : slotOf s.cwu.settings s.cwu.minute with
    | none =>
      rw [evaluateWindow_outside hs hj]
      exact ⟨fun n hn => (by cases hn), fun _ => Noticed.refl s⟩
    | some j =>
      rw [evaluateWindow_opens hs hj]
      exact ⟨fun n hn => by rw [List.mem_singleton.1 hn]; exact hopen j, fun h => windowOpen_noticed h⟩
  | some i => cases hj : slotOf s.cwu.settings s.cwu.minute with
    | none =>
      rw [evaluateWindow_closes hs hj]
      exact ⟨fun n hn => by rw [List.mem_singleton.1 hn]; exact hclose i, fun _ => windowClose_noticed i s⟩
    | some j =>
      dsimp only
      by_cases ht : WrapsRound s i j
      · obtain ⟨hclosed, hwraps⟩ := evaluateWindow_turns hs hj ht
        rw [if_pos (c := i = 31 ∧ j = 0 ∧ 32 * s.cwu.settings.len = 1440) ht]
        by_cases hp : s.cwu.pendingSet = none
        · rw [if_pos hp, hwraps hp]
          obtain ⟨p, hspeaks, hn⟩ := reopen_notice i j s
          refine ⟨fun n hm => ?_, fun h => reopen_noticed i j h⟩
          rcases List.mem_cons.1 hm with rfl | hm
          · exact ⟨s, _, Speaks.refl s, windowClose_noticed i s, hn.speaks.after hspeaks⟩
          · rw [List.mem_singleton.1 hm]
            exact ⟨p, _, hspeaks.after (windowClose_noticed i s).speaks, hn, Speaks.refl _⟩
        · rw [if_neg hp, hclosed hp]
          exact ⟨fun n hn => by rw [List.mem_singleton.1 hn]; exact hclose i, fun _ => windowClose_noticed i s⟩
      · rw [evaluateWindow_moves hs hj ht, if_neg (c := i = 31 ∧ j = 0 ∧ 32 * s.cwu.settings.len = 1440) ht]
        refine ⟨fun n hn => (by cases hn), fun _ => ?_⟩
        split
        · exact Noticed.refl s
        · exact slotBoundary_silent j s

/-! ### Nothing else to say -/

theorem ageRetention_of_no_rules {s : State} (h : ∀ n, (rule s n).valid = false) : ageRetention s = s := by
  have hgov (v : Nat) (k : SnapKind) : governingRule s v k = none := by
    unfold governingRule
    exact List.find?_eq_none.2 fun n _ => by simp [h]
  have hone (v : Nat) (k : SnapKind) : ageRetentionOf v k s = s := by unfold ageRetentionOf; rw [hgov]
  have hfold (l : List Nat) :
      l.foldl (fun s v => ageRetentionOf v .manual (ageRetentionOf v .nightly (ageRetentionOf v .hourly s))) s = s := by
    induction l with
    | nil => rfl
    | cons v r ih => rw [List.foldl_cons, hone, hone, hone, ih]
  exact hfold _

theorem trendTick_silent (s : State) : Noticed [] s (trendTick s) := by
  unfold trendTick
  split <;> exact Noticed.nil rfl

theorem graceWalk_of_empty {s : State} (h : s.qm.softList = []) : graceWalk s = s := by
  unfold graceWalk; rw [h]; rfl

theorem minuteStart_silent {s : State} (hsoft : s.qm.softList = []) (hr : ∀ n, (rule s n).valid = false) :
    Noticed [] s (minuteStart s) := by
  have hwalk : graceWalk (clockMoved s) = clockMoved s := graceWalk_of_empty hsoft
  have hage : ageRetention (clockMoved s) = clockMoved s := ageRetention_of_no_rules (s := clockMoved s) hr
  rw [minuteStart, hwalk, hage]
  exact Noticed.silent_trans (t := clockMoved s) (Noticed.nil rfl) (trendTick_silent _)

end Sys2Proof.Machine
end

