-- ==== Sys2Proof/Proofs/MinuteEvents.lean ====
section
/-! SETTLED here: the sixtieth second event (O18). Each of its statements is proved for one part of the event and carried through the
others. -/

namespace Sys2Proof.Machine

/-! ### Frames of the parts -/

theorem clockMoved_frame (s : State) : Frame [.clock] s (clockMoved s) :=
  ⟨rfl, fun p hp => by
    cases p <;> first | rfl | exact ⟨rfl, rfl⟩ | exact (hp (by decide)).elim, fun _ => ⟨rfl, rfl⟩⟩

/-- The parts that move up to the window's evaluation, but for the clock. -/
abbrev startParts : List Part := .interval :: .samplesDue :: (evalParts ++ catalogParts)

theorem minuteStart_frame (s : State) : Frame startParts (clockMoved s) (minuteStart s) :=
  (trendTick_frame _).after (by decide) ((ageRetention_frame _).after (by decide) ((graceWalk_frame _).into (by decide)))

theorem minuteDone_frame (s : State) : Frame (.credits :: .restoreJobs :: .turn :: windowParts) (minuteStart s) (minuteDone s) :=
  (grantAll_frame _).after (by decide) (evaluateWindow_frame _ _)

/-- Silence supervision and the IDLE frames. -/
def supervised (s : State) : State := serverList.foldl idleTick (serverList.foldl silenceTick s)

theorem supervised_eq (s : State) : supervised s = serverList.foldl idleTick (serverList.foldl silenceTick s) := rfl

theorem supervised_frame (s : State) : Frame linkParts s (supervised s) :=
  (idleTicks_frame _ _).after (by decide) (Frame.foldl silenceTick_frame _ s)

theorem supervised_speaks (s : State) : Speaks s (supervised s) :=
  (idleTicks_silent _ _).speaks.after (Speaks.foldl silenceTick_speaks _ s)

theorem minute_clock (s : State) : Part.same (clockMoved s) (supervised (minuteDone s)) .clock :=
  Part.same_trans ((minuteStart_frame s).same .clock (by decide))
    (Part.same_trans ((minuteDone_frame s).same .clock (by decide)) ((supervised_frame _).same .clock (by decide)))

theorem minute_now (s : State) : now (supervised (minuteDone s)) = now (clockMoved s) := (minute_clock s).2.1

/-! ### Trend count (R32) -/

theorem trendTick_counts (s : State) : (trendTick s).cwu.trendT = s.cwu.trendT
    ∧ (trendTick s).cwu.trendCount = (if s.cwu.trendCount + 1 = s.cwu.trendT then 0 else s.cwu.trendCount + 1)
    ∧ (trendTick s).ce.due = (if s.cwu.trendCount + 1 = s.cwu.trendT then s.ce.due + 1 else s.ce.due) := by
  unfold trendTick
  split <;> exact ⟨rfl, rfl, rfl⟩

theorem minute_trend (s : State) : (supervised (minuteDone s)).cwu.trendT = s.cwu.trendT
    ∧ (supervised (minuteDone s)).cwu.trendCount = (if s.cwu.trendCount + 1 = s.cwu.trendT then 0 else s.cwu.trendCount + 1)
    ∧ (supervised (minuteDone s)).ce.due = (if s.cwu.trendCount + 1 = s.cwu.trendT then s.ce.due + 1 else s.ce.due) := by
  have hbefore : Frame (evalParts ++ catalogParts) (clockMoved s) (ageRetention (graceWalk (clockMoved s))) :=
    (ageRetention_frame _).after (by decide) ((graceWalk_frame _).into (by decide))
  obtain ⟨hT, hcount⟩ : Part.same (clockMoved s) _ .interval := hbefore.same .interval (by decide)
  have hdue : (ageRetention (graceWalk (clockMoved s))).ce.due = s.ce.due := hbefore.same .samplesDue (by decide)
  have hT' : (ageRetention (graceWalk (clockMoved s))).cwu.trendT = s.cwu.trendT := hT
  have hcount' : (ageRetention (graceWalk (clockMoved s))).cwu.trendCount = s.cwu.trendCount := hcount
  obtain ⟨h1, h2⟩ := Part.same_trans ((minuteDone_frame s).same .interval (by decide)) ((supervised_frame (minuteDone s)).same .interval (by decide))
  have h3 := Part.same_trans ((minuteDone_frame s).same .samplesDue (by decide)) ((supervised_frame (minuteDone s)).same .samplesDue (by decide))
  obtain ⟨k1, k2, k3⟩ := trendTick_counts (ageRetention (graceWalk (clockMoved s)))
  rw [hT', hcount'] at k2
  rw [hT', hcount', hdue] at k3
  exact ⟨h1.trans (k1.trans hT'), h2.trans k2, Eq.trans h3 k3⟩

/-! ### Grace (R103) -/

theorem acct_minuteDone (s : State) (x : Subject) : acct (minuteDone s) x = acct (graceWalk (clockMoved s)) x := by
  rw [(minuteDone_frame s).acct x, minuteStart, (trendTick_frame _).acct x, (ageRetention_frame _).acct x]

theorem supervised_graceKept (s : State) : GraceKept s (supervised s) :=
  (idleTicks_frame _ _).graceKept.after (GraceKept.foldl silenceTick_graceKept _ s)

theorem minute_graceKept (s : State) : GraceKept (graceWalk (clockMoved s)) (supervised (minuteDone s)) := fun x => by
  have h := supervised_graceKept (minuteDone s) x
  rw [acct_minuteDone] at h
  exact h

theorem minute_grace {s : State} (x : Subject) :
    (x ∉ s.qm.softList → (acct (supervised (minuteDone s)) x).grace = (acct s x).grace)
      ∧ (s.qm.softList.Nodup → x ∈ s.qm.softList → (acct (supervised (minuteDone s)) x).grace = (acct s x).grace - 1) := by
  have hw : graceWalk (clockMoved s) = s.qm.softList.foldl graceTick (clockMoved s) := rfl
  refine ⟨fun hx => (minute_graceKept s x).1.trans ?_, fun hl hx => (minute_graceKept s x).1.trans ?_⟩
  · rw [hw, acct_graceTicks_of_not_mem hx]; rfl
  · rw [hw, acct_graceTicks hl, if_pos hx]; rfl

theorem minute_spent {s : State} {x : Subject} (hx : x ∈ s.qm.softList) (hg : (acct s x).grace = 1) :
    (acct (supervised (minuteDone s)) x).grace = 0 ∧ (acct (supervised (minuteDone s)) x).state ≠ .soft := by
  obtain ⟨hgrace, hstate⟩ : (acct (graceWalk (clockMoved s)) x).Spent :=
    graceTicks_spent (s := clockMoved s) hx (Nat.le_of_eq hg)
  obtain ⟨hg2, hs2⟩ := minute_graceKept s x
  exact ⟨hg2.trans hgrace, hs2 hgrace hstate⟩

theorem minute_quotaState {s : State} (hl : s.qm.softList.Nodup) {sub : Subject} {a : Account} (hm : sub ∈ s.qm.softList)
    (hg : (acct s sub).grace = 1) (ha : a = { acct s sub with grace := 0 }) (hn : nextState a ≠ a.state) :
    ∃ before after, Raises (before ++ ⟨subjectNotice sub, .quotaState sub a.state (nextState a) (loadOf a) (a.soft * 16) (a.hard * 16) 0
      .graceExpired (now (supervised (minuteDone s)))⟩ :: after) s (supervised (minuteDone s)) := by
  obtain ⟨u, v, h1, h2, h3⟩ := graceTicks_notice hl hm (s := clockMoved s) hg ha hn
  have hrest : Work (graceWalk (clockMoved s)) (minuteDone s) :=
    (grantAll_work _).after ((evaluateWindow_work _ _).after ((trendTick_work _).after (ageRetention_work _)))
  rw [minute_now]
  exact Raises.among (h1.after (Noticed.nil (s := s) (t := clockMoved s) rfl).speaks) h2
    ((supervised_speaks _).after (hrest.speaks.after h3))

/-! ### Silence (R15) -/

/-- No link reaches the silence limit. -/
def NoneSilent (s : State) : Prop := ∀ srv : ServerId, linkUp s srv = true → (link s srv).silence + 1 < s.lu.silenceLimit

theorem serverList_nodup : serverList.Nodup := by decide

theorem NoneSilent.of_work {s t : State} (h : NoneSilent s) (hw : Work s t) (hl : t.lu.silenceLimit = s.lu.silenceLimit) : NoneSilent t :=
  fun srv hu => by
    rw [hw.linkUp] at hu
    rw [hl, (hw.links srv).silence]
    exact h srv hu

theorem supervised_quiet {s : State} (h : NoneSilent s) : Frame [.links] s (supervised s) ∧ Noticed [] s (supervised s) := by
  obtain ⟨hf, hn⟩ := silenceTicks_quiet serverList_nodup (s := s) fun k hk hu => h ⟨k, List.mem_range.1 hk⟩ hu
  exact ⟨hf.trans (idleTicks_frame _ _), hn.trans (idleTicks_silent _ _)⟩

theorem minuteDone_limit (s : State) : (minuteDone s).lu.silenceLimit = s.lu.silenceLimit :=
  Eq.trans ((minuteDone_frame s).same .silenceLimit (by decide)) ((minuteStart_frame s).same .silenceLimit (by decide))

theorem minute_account {s : State} (hl : s.qm.softList.Nodup) (h : NoneSilent s) {sub : Subject} (hm : sub ∈ s.qm.softList) :
    acct (supervised (minuteDone s)) sub = (acct s sub).ticked := by
  have hw : graceWalk (clockMoved s) = s.qm.softList.foldl graceTick (clockMoved s) := rfl
  rw [(supervised_quiet (h.of_work (minuteDone_work s) (minuteDone_limit s))).1.acct sub, acct_minuteDone, hw, acct_graceTicks hl,
    if_pos hm]
  rfl

theorem link_supervised (s : State) (srv : ServerId) :
    link (supervised s) srv = (link (serverList.foldl silenceTick s) srv).idled := by
  rw [supervised, link_idleTicks serverList_nodup, if_pos (mem_serverList srv)]

theorem Link.idled_state (l : Link) : l.idled.state = l.state := rfl
theorem Link.idled_silence (l : Link) : l.idled.silence = l.silence := rfl
theorem Link.idled_sentSince (l : Link) : l.idled.sentSince = false := rfl

/-- A link that is not UP keeps its state through every other link's leaving. -/
theorem silenceTick_state (s : State) (srv j : Nat) (h : linkUp s j = false) :
    (link (silenceTick s srv) j).state = (link s j).state := by
  rw [silenceTick_eq]
  split
  · rename_i hu
    have hne : srv ≠ j := by rintro rfl; rw [h] at hu; cases hu
    have hsil : link (setLink srv (link s srv).silent s) j = link s j := by rw [link_silent, if_neg hne]
    split
    · have hl : link (leaveParting srv .faulted .silence false (setLink srv (link s srv).silent s)) j = link s j := by
        rw [link_leaveParting, if_neg hne, hsil]
      rw [dropLink_eq, ((grantAll_work _).links j).state, ((leavingRest_work _ _ _ _ _).links j).state, hl]
    · rw [hsil]
  · rfl

theorem silenceTicks_state (l : List Nat) {s : State} {j : Nat} (h : linkUp s j = false) :
    (link (l.foldl silenceTick s) j).state = (link s j).state := by
  induction l generalizing s with
  | nil => rfl
  | cons k r ih =>
    have h1 := silenceTick_state s k j h
    rw [List.foldl_cons, ih (by unfold linkUp at h ⊢; rw [h1]; exact h), h1]

theorem minute_downLink {s : State} {srv : ServerId} (h : linkUp s srv = false) :
    (link (supervised (minuteDone s)) srv).state = (link s srv).state := by
  have hm := minuteDone_work s
  rw [link_supervised, Link.idled_state, silenceTicks_state _ ((hm.linkUp srv).trans h), (hm.links srv).state]

/-- A server's turn of silence supervision, seen from before the minute event but for its clock. -/
theorem minute_turn {s : State} (hs : tsorted s.vt = true) (srv : ServerId) {c : Cwu} (hc : now (minuteDone s) = c.partTime) :
    SilenceTurn srv { s with cwu := c } (serverList.foldl silenceTick (minuteDone s)) := by
  have hm := minuteDone_work s
  obtain ⟨hlink, hintake, hservers, hvolumes⟩ := hm.untouched srv
  have hun : Untouched srv { s with cwu := c } (minuteDone s) := ⟨hlink, hintake, hservers, hvolumes⟩
  exact ((silenceTicks_turns serverList_nodup (hm.sorted hs) srv).1 (mem_serverList srv)).before hun hc (minuteDone_limit s)

theorem HasLeft.idled {srv : ServerId} {a : LinkState} {w : LinkReason} {s t : State} (h : HasLeft srv a w s t) (ha : a ≠ .up) :
    HasLeft srv a w s (serverList.foldl idleTick t) := by
  have hf := idleTicks_frame serverList t
  have hl : Machine.link (serverList.foldl idleTick t) srv = (Machine.link t srv).idled := by
    rw [link_idleTicks serverList_nodup, if_pos (mem_serverList srv)]
  have hqueue : (Machine.link t srv).idled.txQueue = (Machine.link t srv).txQueue :=
    if_neg fun hup => ha (h.link.1.symm.trans hup.1)
  have hint : Machine.intake (serverList.foldl idleTick t) srv = Machine.intake t srv := by
    unfold Machine.intake
    rw [show (serverList.foldl idleTick t).ciu = t.ciu from hf.same .intakes (by decide)]
  have hvol : ∀ v, volume (serverList.foldl idleTick t) v = volume t v := fun v => by
    unfold volume
    rw [show (serverList.foldl idleTick t).vt = t.vt from hf.same .volumes (by decide)]
  refine ⟨by rw [hl]; exact h.link, by rw [hl, hqueue]; exact h.orders, by rw [hf.credit]; exact h.credits, by rw [hint]; exact h.intake,
    fun v hv => by rw [hvol]; exact h.volumes v hv, fun k e he => ?_⟩
  rw [show (serverList.foldl idleTick t).et.table = t.et.table from hf.same .denyTable (by decide)] at he
  exact h.enforcement k e he

theorem minute_leaves {s : State} (hs : tsorted s.vt = true) {srv : ServerId} (hu : linkUp s srv = true)
    (hl : s.lu.silenceLimit ≤ (link s srv).silence + 1) {c : Cwu} (hc : now (minuteDone s) = c.partTime) :
    HasLeft srv .faulted .silence { s with cwu := c } (supervised (minuteDone s)) :=
  ((minute_turn hs srv hc).faulted hu hl).left.idled (by decide)

theorem minute_linkState {s : State} (hs : tsorted s.vt = true) {srv : ServerId} (hu : linkUp s srv = true)
    (hl : s.lu.silenceLimit ≤ (link s srv).silence + 1) :
    ∃ before after, Raises (before ++ ⟨.server srv, .linkState .up .faulted .silence (now (supervised (minuteDone s)))⟩ :: after) s
      (supervised (minuteDone s)) := by
  have hm := minuteDone_work s
  obtain ⟨p, q, hp, hn, hq⟩ := silenceTicks_notice serverList_nodup (mem_serverList srv) (hm.sorted hs) ((hm.linkUp srv).trans hu)
    (by rw [(hm.links srv).silence, minuteDone_limit]; exact hl)
  rw [(supervised_frame (minuteDone s)).now]
  exact Raises.among (hp.after hm.speaks) hn ((idleTicks_silent _ _).speaks.after hq)

theorem minute_counts {s : State} (hs : tsorted s.vt = true) {srv : ServerId} (hu : linkUp s srv = true)
    (hl : (link s srv).silence + 1 < s.lu.silenceLimit) :
    (link (supervised (minuteDone s)) srv).state = .up
      ∧ (link (supervised (minuteDone s)) srv).silence = (link s srv).silence + 1
      ∧ (link (supervised (minuteDone s)) srv).txQueue.count .idle =
          (link s srv).txQueue.count .idle + (if (link s srv).sentSince = true then 0 else 1) := by
  have hup : (link s srv).state = .up := by simpa [linkUp] using hu
  obtain ⟨c, hc⟩ : ∃ c : Cwu, now (minuteDone s) = c.partTime := ⟨(minuteDone s).cwu, rfl⟩
  have hg : (link s srv).silent.Grown (link (serverList.foldl silenceTick (minuteDone s)) srv) := (minute_turn hs srv hc).counted hu hl
  have hcount := count_idle_idled hg hup
  rw [link_supervised, Link.idled_state, Link.idled_silence]
  exact ⟨hg.state.trans hup, hg.silence, hcount⟩

/-! ### The window -/

theorem minute_evaluation {s : State} (hs : Tables s) : Evaluation s (minuteStart s) (supervised (minuteDone s)) := by
  have hrest : Frame linkParts (evaluateWindow .minute (minuteStart s)) (supervised (minuteDone s)) :=
    (supervised_frame _).after (by decide) ((grantAll_frame _).into (by decide))
  have hvt : tsorted (minuteDone s).vt = true := (minuteDone_work s).sorted hs.volumes.1
  refine ⟨Frame.windowSame ((minuteStart_frame s).after (by decide) ((clockMoved_frame s).into (by decide))),
    ((minuteStart_frame s).after (L := .clock :: startParts) (by decide) ((clockMoved_frame s).into (by decide))).draws (minuteStart_work s),
    hs.dupJobs.1, Frame.windowSame (hrest.into (by decide)), ?_⟩
  rw [supervised_eq]
  exact (idleTicks_draws _ _).after ((silenceTicks_draws _ hvt).after (grantAll_draws _))

/-- A minute event inside the window before and after. -/
theorem Evaluation.inside {s u t : State} (h : Evaluation s u t) {i j : Nat} (hi : u.cwu.slot = some i)
    (hj : slotOf u.cwu.settings u.cwu.minute = some j) :
    if i = j then WindowStays s t
    else if 32 * s.cwu.settings.len = 1440 ∧ i = 31 ∧ j = 0 then
      (s.cwu.pendingSet = none → WindowOpens j s t) ∧ (s.cwu.pendingSet ≠ none → WindowCloses s t)
    else WindowMoves j s t := by
  have hpending : u.cwu.pendingSet = s.cwu.pendingSet := h.before.pendingSet
  split
  · rename_i hij
    exact h.stays ((evaluateWindow_inside hi hj).trans (if_pos hij))
  · rename_i hij
    split
    · rename_i hwrap
      obtain ⟨hclosed, hwraps⟩ := evaluateWindow_turns hi hj ⟨hwrap.2.1, hwrap.2.2, by rw [h.before.settings]; exact hwrap.1⟩
      exact ⟨fun hp => h.turns hp (hwraps (hpending.trans hp)), fun hp => h.closes (hclosed (by rw [hpending]; exact hp))⟩
    · rename_i hwrap
      have hno : ¬WrapsRound u i j := fun hw => hwrap ⟨by rw [← h.before.settings]; exact hw.2.2, hw.1, hw.2.1⟩
      exact h.moves ((evaluateWindow_moves hi hj hno).trans (if_neg hij))

/-- The window's notices, from the figures of before and after the minute event. -/
theorem minute_windowNotices (s : State) : (∀ n ∈ windowNotices (minuteStart s),
      ∃ before after, Raises (before ++ n :: after) s (supervised (minuteDone s)))
    ∧ (s.qm.softList = [] → (∀ n, (rule s n).valid = false) → s.dc.jobs = [] → NoneSilent s →
        Raises (windowNotices (minuteStart s)) s (supervised (minuteDone s))) := by
  obtain ⟨hall, honly⟩ := evaluateWindow_notices (minuteStart s)
  refine ⟨fun n hn => ?_, fun hsoft hr hj hq => ?_⟩
  · obtain ⟨p, q, hp, hnoticed, hq⟩ := hall n hn
    exact Raises.among (hp.after (minuteStart_work s).speaks) hnoticed ((supervised_speaks _).after ((grantAll_work _).speaks.after hq))
  · have hjobs : (minuteStart s).dc.jobs = [] := Eq.trans ((minuteStart_frame s).same .dupJobs (by decide)) hj
    have hsilent := (supervised_quiet (hq.of_work (minuteDone_work s) (minuteDone_limit s))).2
    exact ((minuteStart_silent hsoft hr).silent_trans ((honly hjobs).trans_silent ((grantAll_silent _).trans hsilent))).raises

/-! ### The catalog (R134, R136, R137) -/

theorem OverAge.congr {s t : State} (hv : t.vt = s.vt) (hr : t.sc.rules = s.sc.rules) {n : Nat} {x : Snap} :
    OverAge t n x ↔ OverAge s n x := by
  unfold OverAge
  rw [governingRule_congr hr]
  unfold volume rule
  rw [hv, hr]

theorem minute_catalog {s : State} (hs : Tables s) {id : Nat} {x : Snap} (hx : snap s id = some x) :
    (OverAge s (now (clockMoved s)) x →
        ∃ y, snap (supervised (minuteDone s)) id = some y ∧ y = { x with state := .dropping, holds := [], inFlight := y.inFlight })
      ∧ (¬OverAge s (now (clockMoved s)) x → x.state = .live → x.keep = true ∨ (volume s x.volume).reserveLimit = 0 →
        ∃ y, snap (supervised (minuteDone s)) id = some y ∧ y.state = .live) := by
  have hf : Frame evalParts (clockMoved s) (graceWalk (clockMoved s)) := graceWalk_frame _
  have hvt : (graceWalk (clockMoved s)).vt = s.vt := hf.same .volumes (by decide)
  have hover : OverAge (graceWalk (clockMoved s)) (now (graceWalk (clockMoved s))) x ↔ OverAge s (now (clockMoved s)) x := by
    rw [hf.now]
    exact OverAge.congr hvt (hf.same .rules (by decide))
  have hget : snap (graceWalk (clockMoved s)) id = some x := (hf.snap id).trans hx
  have hrecords : tsorted (graceWalk (clockMoved s)).sc.records = true := by
    rw [show (graceWalk (clockMoved s)).sc.records = s.sc.records from hf.same .snaps (by decide)]
    exact hs.snaps
  obtain ⟨haging, hreleased⟩ := ageRetention_aging (by rw [hvt]; exact hs.volumes.1) hrecords hget
  have hkept : Kept (ageRetention (graceWalk (clockMoved s))) (supervised (minuteDone s)) := by
    have hsorted : tsorted (minuteDone s).vt = true := (minuteDone_work s).sorted hs.volumes.1
    have hidle := idleTicks_frame serverList (serverList.foldl silenceTick (minuteDone s))
    have h1 : Kept (ageRetention (graceWalk (clockMoved s))) (minuteDone s) :=
      (grantAll_kept _).after ((evaluateWindow_kept _ _).after ((trendTick_frame _).kept (trendTick_work _)))
    rw [supervised_eq]
    refine (h1.trans (silenceTicks_kept serverList hsorted)).trans (.of_records (fun v => ?_) (hidle.same .snaps (by decide)))
    unfold volume
    rw [show (serverList.foldl idleTick (serverList.foldl silenceTick (minuteDone s))).vt = _ from hidle.same .volumes (by decide)]
  refine ⟨fun ho => ?_, fun ho hlive hspared => ?_⟩
  · obtain ⟨f, hfx⟩ := hreleased (hover.2 ho)
    obtain ⟨g, hg⟩ := hkept.dropping haging.sorted id _ hfx rfl ho.2.2.1
    exact ⟨_, hg, rfl⟩
  · rcases haging.record with ⟨l, hl⟩ | ⟨ho', -⟩
    · have hlimit : (volume (ageRetention (graceWalk (clockMoved s))) x.volume).reserveLimit = (volume s x.volume).reserveLimit :=
        ((ageRetention_work _).limits _).trans ((graceWalk_work (clockMoved s)).limits _)
      obtain ⟨y, hy, hylive, -⟩ := hkept.spared haging.sorted id _ hl ⟨hlive, hspared.imp_right fun h => hlimit.trans h⟩
      exact ⟨y, hy, hylive⟩
    · exact absurd (hover.1 ho') ho

/-! ### The event itself -/

theorem secondComes_minute {s : State} (hr : s.pins.resetHeld = false) (h : s.cwu.second = 59) :
    secondComes s = supervised (minuteDone s) := by
  rw [secondComes, if_neg (by rw [hr]; decide), secondTick_minute h, supervised_eq]

theorem exec_minuteEvent {s : State} (h : s.cwu.second = 59) : exec .minuteEvent s = .next (secondComes s) :=
  congrArg _ (if_pos (by rw [h]))

theorem exec_graceExpired {s : State} (h : s.cwu.second = 59) {sub : Subject} (hm : sub ∈ s.qm.softList) (hg : (acct s sub).grace = 1) :
    exec (.graceExpired sub) s = .next (secondComes s) :=
  congrArg _ (if_pos ⟨by rw [h], by simpa using hm, hg⟩)

theorem exec_silenceLimitReached {s : State} {srv : ServerId} (hu : linkUp s srv = true)
    (hl : s.lu.silenceLimit ≤ (link s srv).silence + 1) : exec (.silenceLimitReached srv) s = .next (secondComes s) :=
  congrArg _ (if_pos (by rw [hu]; simpa using hl))

/-- Settles O18: the parts of the event one after another, each carried through the ones behind it. -/
theorem minuteEventAdvancesTheClock : Obligations.MinuteEventAdvancesTheClock := by
  unfold Obligations.MinuteEventAdvancesTheClock
  intro s hr hsec
  have hcomes := secondComes_minute hr hsec
  have hclock := minute_clock s
  have htrend := minute_trend s
  have hspares : Spares secondParts s (supervised (minuteDone s)) := by
    rw [supervised_eq, ← secondTick_minute hsec]
    exact (secondTick_frame s).spares
  have hminute : (minuteStart s).cwu.minute = (supervised (minuteDone s)).cwu.minute :=
    hclock.2.2.trans ((minuteStart_frame s).same .clock (by decide)).2.2.symm |>.symm
  have hnow : now (minuteStart s) = now (supervised (minuteDone s)) :=
    ((minuteStart_frame s).now).trans (minute_now s).symm
  have hwindow := Frame.windowSame (((minuteStart_frame s).after (L := restParts) (by decide) ((clockMoved_frame s).into (by decide))))
  have hdone : now (minuteDone s) = (supervised (minuteDone s)).cwu.partTime := (supervised_frame (minuteDone s)).now.symm
  refine ⟨supervised (minuteDone s), by rw [← hcomes]; rfl, by rw [← hcomes]; exact exec_minuteEvent hsec,
    fun sub hm hg => ⟨by rw [← hcomes]; exact exec_graceExpired hsec hm hg, minute_spent hm hg⟩,
    fun hl sub a hm hg ha hn => minute_quotaState hl hm hg ha hn, fun hl hq sub a hm ha => ?_,
    fun hl sub hm => (minute_grace sub).2 hl hm, fun sub hm => (minute_grace sub).1 hm, hclock.1, ?_, hclock.2.2, htrend.1, htrend.2.1,
    htrend.2.2, fun hs => ?_, fun windows hw => ?_, fun hs srv hu => ⟨fun hl => ⟨by rw [← hcomes]; exact exec_silenceLimitReached hu hl,
      minute_leaves hs.volumes.1 hu hl hdone, minute_linkState hs.volumes.1 hu hl⟩, fun hl => minute_counts hs.volumes.1 hu hl⟩,
    fun srv => ⟨by rw [link_supervised, Link.idled_sentSince], fun hu => minute_downLink hu⟩, fun hs id x hx => ?_, hspares⟩
  · rw [minute_account hl hq hm, ha]
    rfl
  · rw [hclock.2.1]
    exact Nat.min_comm _ _
  · have he := minute_evaluation hs
    rw [← hminute]
    have hslot {o : Option Nat} (h : s.cwu.slot = o) : (minuteStart s).cwu.slot = o := he.before.slot.trans h
    have hnext {o : Option Nat} (h : slotOf s.cwu.settings (minuteStart s).cwu.minute = o) :
        slotOf (minuteStart s).cwu.settings (minuteStart s).cwu.minute = o := by rw [he.before.settings]; exact h
    split
    · rename_i hi hj; exact he.stays (evaluateWindow_outside (hslot hi) (hnext hj))
    · rename_i hi hj; exact he.opens (evaluateWindow_opens (hslot hi) (hnext hj))
    · rename_i hi hj; exact he.closes (evaluateWindow_closes (hslot hi) (hnext hj))
    · rename_i i j hi hj
      exact he.inside (hslot hi) (hnext hj)
  · have hlist : windows = windowNotices (minuteStart s) := by
      unfold windowNotices windowNotice
      rw [hw, hwindow.slot, hwindow.settings, hwindow.pendingSet, hminute, hnow] <;> rfl
    rw [hlist]
    exact minute_windowNotices s
  · have hpart : (supervised (minuteDone s)).cwu.partTime = now (clockMoved s) := minute_now s
    rw [hpart]
    exact minute_catalog hs hx

end Sys2Proof.Machine
end

