-- ==== Sys2Proof/Proofs/ClockAndCreditsKept.lean ====
section
/-! SUPPORT. What keeps the clock and window in agreement (R22 to R25, R30, R32) and every server's four credits
  (R143): work that
moves neither by its frame, the grants, the links' comings and goings, and the evaluation of the window. -/

namespace Sys2Proof.Machine

/-! ### What keeps the two invariants -/

/-- The parts that the clock's invariant speaks of. -/
abbrev clockParts : List Part := [.clock, .windowSettings, .window, .masks, .cwuOpen, .interval, .dcOpen, .ccaOpen]

/-- What happens between the two states keeps the clock's invariant and every server's four credits. -/
structure Keeps (s t : State) : Prop where
  clock : ClockInv s → ClockInv t
  credits : CreditInv s → CreditInv t

theorem Keeps.refl (s : State) : Keeps s s := ⟨id, id⟩

theorem Keeps.trans {s t u : State} (h1 : Keeps s t) (h2 : Keeps t u) : Keeps s u :=
  ⟨fun h => h2.clock (h1.clock h), fun h => h2.credits (h1.credits h)⟩

theorem Keeps.after {s t u : State} (h2 : Keeps t u) (h1 : Keeps s t) : Keeps s u := h1.trans h2

theorem Keeps.foldl {β : Type} {f : State → β → State} (hf : ∀ s b, Keeps s (f s b)) (l : List β) (s : State) :
    Keeps s (l.foldl f s) := by
  induction l generalizing s with
  | nil => exact Keeps.refl s
  | cons b r ih => exact (hf s b).trans (ih _)

theorem Keeps.ite {p : Prop} [Decidable p] {s a b : State} (ha : Keeps s a) (hb : Keeps s b) : Keeps s
  (if p then a else b) := by
  split
  · exact ha
  · exact hb

theorem ClockInv.of_same {s t : State} (h : ClockInv s) (hs : ∀ p ∈ clockParts, Part.same s t p) : ClockInv t := by
  obtain ⟨hsecond, hpart, hminute⟩ := hs .clock (by decide)
  obtain ⟨hset, hpending⟩ := hs .windowSettings (by decide)
  obtain ⟨hslot, hvisited⟩ := hs .window (by decide)
  have hmasks : t.cwu.masks = s.cwu.masks := hs .masks (by decide)
  have hopen : t.cwu.openGroups = s.cwu.openGroups := hs .cwuOpen (by decide)
  have hdc : t.dc.openGroups = s.dc.openGroups := hs .dcOpen (by decide)
  have hcca : t.cca.openGroups = s.cca.openGroups := hs .ccaOpen (by decide)
  obtain ⟨hT, hcount⟩ := hs .interval (by decide)
  constructor
  · rw [hsecond]; exact h.second
  · rw [hpart]; exact h.partTime
  · rw [hminute]; exact h.minute
  · rw [hset]; exact h.settings
  · rw [hpending]; exact h.pendingSet
  · rw [hslot, hvisited, hopen]; exact h.closed
  · intro j
    rw [hslot, hvisited, hopen, groupsOpenIn_congr hmasks j]
    exact h.isOpen j
  · rw [hdc, hcca, hopen]; exact h.handed
  · rw [hT, hcount]; exact h.trend

theorem CreditInv.of_servers {s t : State} (h : CreditInv s) (ht : t.cca.servers = s.cca.servers) : CreditInv t := fun srv => by
  have hc : credit t srv = credit s srv := by unfold credit; rw [ht]
  rw [hc]
  exact h srv

/-- Work whose parts leave the clock alone. -/
theorem Frame.keepsClock {L : List Part} {s t : State} (h : Frame L s t)
    (hL : ∀ p ∈ clockParts, p ∉ Part.replies :: Part.restart :: L) : ClockInv s → ClockInv t :=
  fun hs => hs.of_same fun p hp => h.same p (hL p hp)

/-- Work whose parts leave the credits alone. -/
theorem Frame.keepsCredits {L : List Part} {s t : State} (h : Frame L s t)
    (hL : Part.credits ∉ Part.replies :: Part.restart :: L) : CreditInv s → CreditInv t :=
  fun hs => hs.of_servers (h.same .credits hL)

theorem Frame.keeps {L : List Part} {s t : State} (h : Frame L s t)
    (hL : ∀ p ∈ Part.credits :: clockParts, p ∉ Part.replies :: Part.restart :: L) : Keeps s t :=
  ⟨h.keepsClock fun p hp => hL p (List.mem_cons_of_mem _ hp), h.keepsCredits (hL _ (List.mem_cons_self ..))⟩

/-- A further piece of work, whose parts leave the clock and the credits alone. -/
theorem Frame.keepsAfter {L : List Part} {s t u : State} (h : Frame L t u)
    (hL : ∀ p ∈ Part.credits :: clockParts, p ∉ Part.replies :: Part.restart :: L) (h0 : Keeps s t) : Keeps s u :=
  h0.trans (h.keeps hL)

/-- A write outside the clock, the open groups and the servers' credits. -/
theorem Keeps.of_blocks {s t : State} (hc : t.cwu = s.cwu) (hd : t.dc.openGroups = s.dc.openGroups)
    (ha : t.cca.openGroups = s.cca.openGroups) (hs : t.cca.servers = s.cca.servers) : Keeps s t where
  clock h := ⟨hc ▸ h.second, hc ▸ h.partTime, hc ▸ h.minute, hc ▸ h.settings, hc ▸ h.pendingSet, hc ▸ h.closed, hc ▸ h.isOpen,
    by rw [hc, hd, ha]; exact h.handed, hc ▸ h.trend⟩
  credits h := h.of_servers hs

/-! ### Credits moved (R143, R146, R148) -/

theorem CreditInv.setCredit {s : State} (h : CreditInv s) {srv : Nat} {c : Credit} (hc : c.free + c.restore + c.ship = 4) :
    CreditInv (setCredit srv c s) := fun j => by
  rw [credit_setCredit]
  split
  · exact hc
  · exact h j

/-- A server's credits are written, and are four as they were. -/
theorem setCredit_keeps {srv : Nat} {c : Credit} {s : State} (hc : CreditInv s → c.free + c.restore + c.ship = 4) :
    Keeps s (setCredit srv c s) :=
  ⟨(setCredit_frame srv c s).keepsClock (by decide), fun h => h.setCredit (hc h)⟩

theorem returnRestore_keeps (srv : Nat) (s : State) : Keeps s (returnRestore srv s) := by
  unfold returnRestore
  dsimp only
  split
  · exact Keeps.refl s
  · refine setCredit_keeps fun h => ?_
    have := h srv
    dsimp only
    omega

theorem returnShip_keeps (srv : Nat) (s : State) : Keeps s (returnShip srv s) := by
  unfold returnShip
  dsimp only
  split
  · exact Keeps.refl s
  · refine setCredit_keeps fun h => ?_
    have := h srv
    dsimp only
    omega

theorem resetCredits_keeps (srv : Nat) (s : State) : Keeps s (resetCredits srv s) := setCredit_keeps fun _ => rfl

theorem presentAll_keeps (s : State) : Keeps s (presentAll s) :=
  Keeps.foldl (f := fun s srv => present srv s) (fun _ srv => setCredit_keeps fun h => h srv) _ s

/-- A free credit goes to a restore job. -/
theorem grantRestore_keeps {srv : Nat} (id : Nat) (j : RestoreJob) {s : State} (hf : (credit s srv).free ≠ 0) :
    Keeps s (grantRestore srv id j s) := by
  unfold grantRestore
  split
  · exact Keeps.refl s
  · refine ((setRestoreJob_frame _ _ _).keepsAfter (by decide) ((issue_frame _ _ _).keeps (by decide))).after
      (setCredit_keeps fun h => ?_)
    have := h srv
    dsimp only
    omega

theorem formBatch_keeps (srv v : Nat) (j : DupJob) (s : State) : Keeps s (formBatch srv v j s) :=
  ⟨(formBatch_frame srv v j s).keepsClock (by decide), fun h i => h i⟩

/-- A free credit goes to the duplication candidate, or comes back. -/
theorem grantDup_keeps {srv : Nat} {s : State} (hf : (credit s srv).free ≠ 0) : Keeps s (grantDup srv s) := by
  have htaken : Keeps s
      (setCredit srv { credit s srv with ship := (credit s srv).ship + 1, free := (credit s srv).free - 1 } s) :=
    setCredit_keeps fun h => by
      have := h srv
      dsimp only
      omega
  unfold grantDup
  dsimp only
  split
  · exact (presentAll_keeps _).after ((returnShip_keeps _ _).after htaken)
  · split
    · exact (presentAll_keeps _).after ((returnShip_keeps _ _).after htaken)
    · exact (presentAll_keeps _).after ((formBatch_keeps _ _ _ _).after htaken)

theorem grantLoop_keeps (srv n : Nat) (s : State) : Keeps s (grantLoop srv n s) := by
  induction n generalizing s with
  | zero => exact Keeps.refl s
  | succ n ih =>
    rw [grantLoop]
    split
    · exact Keeps.refl s
    · rename_i hf
      split
      · exact (ih _).after (grantRestore_keeps _ _ hf)
      · split
        · exact (ih _).after (grantDup_keeps hf)
        · exact Keeps.refl s

theorem grantAll_keeps (s : State) : Keeps s (grantAll s) :=
  (Keeps.foldl (fun s srv => grantLoop_keeps srv 4 s) _ _).after (presentAll_keeps s)

/-! ### Links (R13 to R18) -/

theorem afterLeave_keeps (s : State) : Keeps s (afterLeave s) := (grantAll_keeps _).after ((dcListen_frame s).keeps (by decide))

theorem leaveUp_keeps (srv : Nat) (a : LinkState) (w : LinkReason) (q : Bool) (s : State) : Keeps s (leaveUp srv a w q s) := by
  have hreset : Keeps s (resetCredits srv (volumesLeave srv q (changeLink srv a w (emptyLink srv s)))) :=
    (resetCredits_keeps _ _).after ((volumesLeave_frame _ _ _).keepsAfter (by decide)
      ((changeLink_frame _ _ _ _).keepsAfter (by decide) ((setLink_frame _ _ s).keeps (by decide))))
  have hparting : Keeps s (leaveParting srv a w q s) := by
    unfold leaveParting
    exact Keeps.ite ((setIntake_frame _ _ _).keepsAfter (by decide) hreset)
      ((intakeLeave_frame _ _).keepsAfter (by decide) hreset)
  rw [leaveUp_eq]
  exact (enforceLeave_frame _ _).keepsAfter (by decide)
    ((Frame.foldl (failBack_settles srv q) _ _).keepsAfter (by decide) hparting)

theorem dropLink_keeps (srv : Nat) (a : LinkState) (w : LinkReason) (s : State) : Keeps s (dropLink srv a w s) :=
  (afterLeave_keeps _).after ((notifyLink_frame _ _ _ _ _).keepsAfter (by decide) (leaveUp_keeps srv a w false s))

theorem protocolFault_keeps (srv : Nat) (s : State) : Keeps s (protocolFault srv s) := dropLink_keeps _ _ _ s

theorem enterUp_keeps (srv : Nat) (how : Reentry) (old : LinkState) (s : State) : Keeps s (enterUp srv how old s) := by
  rw [enterUp_eq]
  exact (grantAll_keeps _).after ((resendDrops_frame _ _).keepsAfter (by decide)
    ((enforceEnter_frame _ _).keepsAfter (by decide) ((enterParting_frame srv how old s).keeps (by decide))))

theorem reenterFromUp_keeps (srv : Nat) (how : Reentry) (s : State) : Keeps s (reenterFromUp srv how s) := by
  have hleft := (afterLeave_keeps _).after (leaveUp_keeps srv .syncing (reentryReason how) false s)
  unfold reenterFromUp
  exact Keeps.ite ((setLink_frame _ _ _).keepsAfter (by decide) hleft) ((enterUp_keeps _ _ _ _).after hleft)

theorem enterFrom_keeps (srv : Nat) (how : Reentry) (s : State) : Keeps s (enterFrom srv how s) := by
  unfold enterFrom
  exact Keeps.ite (Keeps.refl s) (enterUp_keeps _ _ _ s)

theorem frameArrived_keeps (srv : Nat) (s : State) : Keeps s (frameArrived srv s) := (setLink_frame _ _ s).keeps (by decide)

theorem serverFrame_keeps {srv : Nat} {f : State → State} (s : State) (hf : ∀ s, Keeps s (f s)) :
    Keeps s (serverFrame srv f s) := by
  have h := frameArrived_keeps srv s
  unfold serverFrame
  exact Keeps.ite (Keeps.refl s) (Keeps.ite h (Keeps.ite ((hf _).after h) h))

theorem completion_keeps {srv num : Nat} {k : OrderKind} {f : State → State} (s : State) (hf : ∀ s, Keeps s (f s)) :
    Keeps s (completion srv num k f s) := by
  unfold completion
  split
  · exact Keeps.refl s
  · exact Keeps.ite ((hf _).after ((setLink_frame _ _ s).keeps (by decide))) (protocolFault_keeps srv s)

/-- A completion that arrives on a server link. -/
theorem completionFrame_keeps {srv num : Nat} {k : OrderKind} {f : State → State} (s : State) (hf : ∀ s, Keeps s (f s)) :
    Keeps s (serverFrame srv (completion srv num k f) s) := serverFrame_keeps s fun s => completion_keeps s hf

theorem helloArrives_keeps (srv : Nat) (s : State) : Keeps s (helloArrives srv s) := by
  have h := frameArrived_keeps srv s
  unfold helloArrives
  refine Keeps.ite (Keeps.refl s) (Keeps.ite h ?_)
  split
  · exact (reenterFromUp_keeps _ _ _).after h
  · exact (enterFrom_keeps _ _ _).after h
  · exact h
  · exact h

theorem resyncArrives_keeps (srv : Nat) (s : State) : Keeps s (resyncArrives srv s) := by
  have h := frameArrived_keeps srv s
  unfold resyncArrives
  refine Keeps.ite (Keeps.refl s) (Keeps.ite h ?_)
  split
  · exact (reenterFromUp_keeps _ _ _).after h
  · exact (enterFrom_keeps _ _ _).after h
  · exact (enterFrom_keeps _ _ _).after h
  · exact h

theorem reEnter_keeps (srv : Nat) (s : State) : Keeps s (reEnter srv s) := by
  unfold reEnter
  split
  · exact Keeps.refl s
  · exact Keeps.ite (enterUp_keeps _ _ _ s) (Keeps.refl s)

theorem unusable_keeps (srv kind num len : Nat) (s : State) : Keeps s (unusable srv kind num len s) :=
  Keeps.ite (serverFrame_keeps s (protocolFault_keeps srv)) (Keeps.refl s)

theorem serverChars_keeps (srv : Nat) (chars : List RxChar) (s : State) : Keeps s (serverChars srv chars s) := by
  have hrx (r : Rx) : Keeps s (setLink srv { link s srv with rx := r } s) := (setLink_frame _ _ s).keeps (by decide)
  unfold serverChars
  exact Keeps.ite (Keeps.ite (Keeps.refl s) (Keeps.ite ((protocolFault_keeps _ _).after (hrx _)) (hrx _))) (Keeps.refl s)

theorem serverSent_keeps (srv : Nat) (s : State) : Keeps s (serverSent srv s) := by
  unfold serverSent
  split
  · exact Keeps.refl s
  · exact (setLink_frame _ _ s).keeps (by decide)

theorem linkLoses_keeps (srv : Nat) (s : State) : Keeps s (linkLoses srv s) := by
  have hfall : Keeps s (moveLink srv .down .carrierLost (setLink srv { link s srv with held := none } s)) :=
    (moveLink_frame _ _ _ _).keepsAfter (by decide) ((setLink_frame _ _ s).keeps (by decide))
  unfold linkLoses
  split
  · exact Keeps.refl s
  · exact dropLink_keeps _ _ _ s
  · exact hfall
  · exact hfall

theorem carrierGained_keeps (srv : Nat) (s : State) : Keeps s (carrierGained srv s) := by
  have h0 : Keeps s (setCarrier srv true s) := Keeps.of_blocks rfl rfl rfl rfl
  unfold carrierGained
  exact Keeps.ite (Keeps.refl s) (Keeps.ite h0 ((linkGains_frame _ _).keepsAfter (by decide)
    ((setLink_frame _ _ _).keepsAfter (by decide) h0)))

theorem carrierLost_keeps (srv : Nat) (s : State) : Keeps s (carrierLost srv s) := by
  have h0 : Keeps s (setCarrier srv false s) := Keeps.of_blocks rfl rfl rfl rfl
  unfold carrierLost
  exact Keeps.ite (Keeps.ite h0 ((linkLoses_keeps _ _).after ((setLink_frame _ _ _).keepsAfter (by decide) h0))) (Keeps.refl s)

theorem releaseReset_keeps (s : State) : Keeps s (releaseReset s) :=
  (gainAll_frame _ _).keepsAfter (by decide) (Keeps.of_blocks rfl rfl rfl rfl)

theorem takeChanges_keeps (srv tag : Nat) (recs : List ChangeRecord) (s : State) : Keeps s (takeChanges srv tag recs s) := by
  unfold takeChanges
  exact Keeps.ite (protocolFault_keeps srv s)
    (Keeps.ite ((dropLink_keeps _ _ _ _).after ((setIntake_frame _ _ s).keeps (by decide)))
      ((setIntake_frame _ _ s).keeps (by decide)))

theorem intakeNext_keeps (srv : Nat) (s : State) : Keeps s (intakeNext srv s) := by
  unfold intakeNext
  split
  · exact Keeps.refl s
  · exact (dealWith_frame _ _ _ s).keeps (by decide)

end Sys2Proof.Machine
end

