-- ==== Sys2Proof/Proofs/WindowAndTimeKept.lean ====
section
/-! SUPPORT. The window's and the clock's own moves keep the clock, the window and the open-group sets in range and in agreement
(R22 to R28, R30, R32). -/

namespace Sys2Proof.Machine

/-! ### The window (R24 to R28) -/

theorem slotOf_lt {w : WindowSet} {t j : Nat} (hw : w.inRange) (h : slotOf w t = some j) : j < 32 := by
  obtain ⟨-, hlen, -⟩ := hw
  unfold slotOf windowLength at h
  split at h
  · rename_i hin
    cases h
    exact (Nat.div_lt_iff_lt_mul hlen).2 hin
  · cases h

/-- The window goes to slot `j`, and the groups open in `j` are handed on. -/
theorem ClockInv.enters {s t : State} {j : Nat} {l : List Nat} (h : ClockInv s) (hj : j < 32) (hl : j ∈ l ∧ ∀ i ∈ l, i < 32)
    (hcwu : t.cwu = { installMasks { s.cwu with slot := some j, visited := l } with
      openGroups := groupsOpenIn (installMasks { s.cwu with slot := some j, visited := l }) j })
    (hdc : t.dc.openGroups = t.cwu.openGroups) (hcca : t.cca.openGroups = t.cwu.openGroups) : ClockInv t := by
  refine ⟨?_, ?_, ?_, ?_, ?_, ?_, ?_, ⟨hdc, hcca⟩, ?_⟩ <;> rw [hcwu]
  · exact h.second
  · exact h.partTime
  · exact h.minute
  · exact h.settings
  · exact h.pendingSet
  · exact nofun
  · intro i hi
    cases hi
    exact ⟨hj, hl.1, hl.2, rfl⟩
  · exact h.trend

theorem windowOpen_keeps {j : Nat} {s : State} (hj : ClockInv s → j < 32) (c : WindowCause) : Keeps s (windowOpen j c s) where
  clock h := by
    have hopened : ClockInv (opened j s) :=
      h.enters (hj h) ⟨List.mem_singleton_self j, fun i hi => by rw [List.mem_singleton.1 hi]; exact hj h⟩ rfl rfl rfl
    exact (notify_frame _ _ _).keepsClock (by decide) ((settled_frame j s).keepsClock (by decide) hopened)
  credits := (windowOpen_frame j c s).keepsCredits (by decide)

theorem slotBoundary_keeps {j : Nat} {s : State} (hj : ClockInv s → j < 32) : Keeps s (slotBoundary j s) where
  clock h := by
    have hvisited : j ∈ setAdd j s.cwu.visited ∧ ∀ i ∈ setAdd j s.cwu.visited, i < 32 := by
      refine ⟨(mem_setAdd _ _ _).2 (.inl rfl), fun i hi => ?_⟩
      rcases (mem_setAdd _ _ _).1 hi with rfl | hi
      · exact hj h
      · cases hs : s.cwu.slot with
        | none => rw [(h.closed hs).1] at hi; cases hi
        | some k =>
          obtain ⟨-, -, hall, -⟩ := h.isOpen k hs
          exact hall i hi
    unfold slotBoundary
    dsimp only
    split
    · exact h.enters (hj h) hvisited rfl rfl rfl
    · exact h.enters (hj h) hvisited rfl rfl rfl
  credits := (slotBoundary_frame j s).keepsCredits (by decide)

theorem windowClose_keeps (i : Nat) (c : WindowCause) (s : State) : Keeps s (windowClose i c s) where
  clock h := by
    have hsettings : (s.cwu.pendingSet.getD s.cwu.settings).inRange := by
      cases hp : s.cwu.pendingSet with
      | none => exact h.settings
      | some w => exact h.pendingSet w hp
    have hclosed : ClockInv (closed s) :=
      ⟨h.second, h.partTime, h.minute, hsettings, nofun, fun _ => ⟨rfl, rfl⟩, nofun, ⟨rfl, rfl⟩, h.trend⟩
    exact (notify_frame _ _ (closed s)).keepsClock (by decide) hclosed
  credits := (windowClose_frame i c s).keepsCredits (by decide)

theorem evaluateWindow_keeps (c : WindowCause) (s : State) : Keeps s (evaluateWindow c s) := by
  unfold evaluateWindow
  split
  · exact Keeps.refl s
  · rename_i hj
    exact windowOpen_keeps (fun h => slotOf_lt h.settings hj) c
  · exact windowClose_keeps _ c s
  · rename_i hj
    refine Keeps.ite (Keeps.refl s) ?_
    split
    · rename_i hturn
      have hclose := windowClose_keeps 31 c s
      obtain ⟨-, -, rfl, rfl⟩ := hturn
      exact Keeps.ite hclose ((windowOpen_keeps (fun _ => by decide) c).after ((grantAll_keeps _).after hclose))
    · exact slotBoundary_keeps fun h => slotOf_lt h.settings hj

/-! ### The clock (R22, R23, R32) -/

/-- The clock and the interval count take values in their ranges. -/
theorem Keeps.of_times {s t : State} {a p m T n : Nat}
    (hc : t.cwu = { s.cwu with second := a, partTime := p, minute := m, trendT := T, trendCount := n })
    (hd : t.dc = s.dc) (ha : t.cca = s.cca)
    (hr : ClockInv s → a < 60 ∧ p ≤ top32 ∧ m < 1440 ∧ 1 ≤ T ∧ T ≤ 1440 ∧ n < T) : Keeps s t where
  clock h := by
    obtain ⟨hsecond, hpart, hminute, htrend⟩ := hr h
    refine ⟨?_, ?_, ?_, ?_, ?_, ?_, ?_, ?_, ?_⟩ <;> rw [hc]
    · exact hsecond
    · exact hpart
    · exact hminute
    · exact h.settings
    · exact h.pendingSet
    · exact h.closed
    · exact h.isOpen
    · rw [hd, ha]; exact h.handed
    · exact htrend
  credits h := h.of_servers (congrArg Cca.servers ha)

theorem clockMoved_keeps (s : State) : Keeps s (clockMoved s) :=
  .of_times rfl rfl rfl fun h => ⟨(by decide : 0 < 60), Nat.min_le_left .., Nat.mod_lt _ (by decide), h.trend⟩

theorem trendTick_keeps (s : State) : Keeps s (trendTick s) := by
  unfold trendTick
  split
  · exact .of_times rfl rfl rfl fun h => ⟨h.second, h.partTime, h.minute, h.trend.1, h.trend.2.1, h.trend.1⟩
  · rename_i hne
    exact .of_times rfl rfl rfl fun h =>
      ⟨h.second, h.partTime, h.minute, h.trend.1, h.trend.2.1, Nat.lt_of_le_of_ne h.trend.2.2 hne⟩

theorem minuteDone_keeps (s : State) : Keeps s (minuteDone s) :=
  (grantAll_keeps _).after ((evaluateWindow_keeps _ _).after ((trendTick_keeps _).after
    ((ageRetention_frame _).keepsAfter (by decide) ((graceWalk_frame _).keepsAfter (by decide) (clockMoved_keeps s)))))

theorem secondCount_keeps (s : State) : Keeps s (secondCount s) := by
  unfold secondCount
  split
  · exact minuteDone_keeps s
  · rename_i hne
    exact .of_times rfl rfl rfl fun h => ⟨Nat.lt_of_le_of_ne h.second hne, h.partTime, h.minute, h.trend⟩

theorem silenceTick_keeps (s : State) (srv : Nat) : Keeps s (silenceTick s srv) := by
  have hcount : Keeps s (setLink srv { link s srv with silence := (link s srv).silence + 1 } s) :=
    (setLink_frame _ _ s).keeps (by decide)
  exact Keeps.ite (Keeps.ite ((dropLink_keeps _ _ _ _).after hcount) hcount) (Keeps.refl s)

theorem secondComes_keeps (s : State) : Keeps s (secondComes s) := by
  have hsecond : Keeps s (secondTick s) := by
    rw [secondTick_eq]
    exact (Keeps.foldl (fun s srv => (idleTick_frame s srv).keeps (by decide)) _ _).after
      ((Keeps.foldl silenceTick_keeps _ _).after (secondCount_keeps s))
  exact Keeps.ite (Keeps.refl s) hsecond

end Sys2Proof.Machine
end

