-- ==== Sys2Proof/Proofs/ClockAndCreditsInvariant.lean ====
section
/-! PROOF. Every step keeps the clock, the window and the open-group sets in range and in agreement, and every server's four
credits (O56). -/

namespace Sys2Proof.Machine

/-! ### What the blocks do of themselves -/

theorem nightlyTake_frame (a : State × List NightlyItem) (v : Nat) :
    Frame (.volumes :: .snaps :: .nextId :: .links :: raiseParts) a.1 (nightlyTake a v).1 := by
  unfold nightlyTake
  dsimp only
  split
  · exact (notify_frame _ _ _).into (by decide)
  · split
    · exact (notify_frame _ _ _).into (by decide)
    · split
      · exact (notify_frame _ _ _).into (by decide)
      · exact (takeSnap_frame _ _ _ _).into (by decide)

theorem nightlyTakes_frame (l : List Nat) (a : State × List NightlyItem) :
    Frame (.volumes :: .snaps :: .nextId :: .links :: raiseParts) a.1 (l.foldl nightlyTake a).1 := by
  induction l generalizing a with
  | nil => exact Frame.refl _ _
  | cons v l ih => exact (nightlyTake_frame a v).trans (ih _)

theorem nightlyRound_keeps (s : State) : Keeps s (nightlyRound s) := by
  have htaken : Keeps s
      ((nightlyVolumes s).foldl nightlyTake ({ s with sc := { s.sc with opensDue := s.sc.opensDue - 1 } }, [])).1 :=
    (nightlyTakes_frame _ _).keepsAfter (by decide) (.of_blocks rfl rfl rfl rfl)
  exact Keeps.ite (Keeps.refl s) (Keeps.ite htaken (htaken.trans (.of_blocks rfl rfl rfl rfl)))

theorem nightlyList_keeps (s : State) : Keeps s (nightlyList s) := by
  refine Keeps.ite (Keeps.refl s) ?_
  split
  · exact (grantAll_keeps _).after ((dcListen_frame _).keepsAfter (by decide)
      ((Frame.foldl nightlyItem_frame _ _).keepsAfter (by decide) ((toDcWrite_frame _ s).keeps (by decide))))
  · exact Keeps.refl s

theorem sampleComes_keeps (s : State) : Keeps s (sampleComes s) := by
  refine Keeps.ite (Keeps.refl s) ?_
  split <;> exact .of_blocks rfl rfl rfl rfl

theorem visitNext_keeps (s : State) : Keeps s (visitNext s) := by
  unfold visitNext
  split
  · exact Keeps.refl s
  · split
    · exact .of_blocks rfl rfl rfl rfl
    · have hvisited (sub : Subject) (a : Account) (w : Option Sweep) :
          Keeps s { setAcct sub a s with ce := { (setAcct sub a s).ce with sweep := w } } :=
        ((setAcct_frame sub a s).keeps (by decide)).trans (.of_blocks rfl rfl rfl rfl)
      exact Keeps.ite ((notify_frame _ _ _).keepsAfter (by decide) (hvisited _ _ _)) (hvisited _ _ _)

theorem graceVisitNext_keeps (s : State) : Keeps s (graceVisitNext s) := by
  unfold graceVisitNext
  split
  · exact Keeps.refl s
  · split
    · exact .of_blocks rfl rfl rfl rfl
    · exact (evaluate_frame _ _ _).keepsAfter (by decide) (((setAcct_frame _ _ s).keeps (by decide)).trans
        (.of_blocks rfl rfl rfl rfl))

/-! ### What the servers report -/

theorem snapLive_keeps (srv num : Nat) (s : State) : Keeps s (snapLive srv num s) := by
  unfold snapLive
  split
  · exact Keeps.refl s
  · exact (pressureTest_frame _ _).keepsAfter (by decide) ((takeRetention_frame _ _ _).keepsAfter (by decide)
      ((toDcWrite_frame _ _).keepsAfter (by decide) ((notify_frame _ _ _).keepsAfter (by decide)
        ((setSnap_frame _ _ s).keeps (by decide)))))

theorem snapFails_keeps (srv num code : Nat) (s : State) : Keeps s (snapFails srv num code s) := by
  unfold snapFails
  split
  · exact Keeps.refl s
  · exact (failTake_frame _ _ _ _ s).keeps (by decide)

theorem dropAcked_keeps (srv num : Nat) (s : State) : Keeps s (dropAcked srv num s) := by
  unfold dropAcked
  split
  · exact Keeps.refl s
  · exact (delSnap_frame _ s).keeps (by decide)

/-- A job's extent moves, and the job is tested for its end. -/
theorem extentMoves_keeps (id : Nat) (j : RestoreJob) (s : State) : Keeps s (testRestoreEnd id (setRestoreJob id j s)) :=
  (testRestoreEnd_frame _ _).keepsAfter (by decide) ((setRestoreJob_frame _ _ s).keeps (by decide))

theorem copyDone_keeps (srv num : Nat) (s : State) : Keeps s (copyDone srv num s) := by
  unfold copyDone
  dsimp only
  split
  · exact returnRestore_keeps srv s
  · exact (extentMoves_keeps _ _ _).after (returnRestore_keeps srv s)

theorem copyFail_keeps (srv num : Nat) (reason : BitVec 8) (s : State) : Keeps s (copyFail srv num reason s) := by
  unfold copyFail
  dsimp only
  split
  · exact returnRestore_keeps srv s
  · exact (extentMoves_keeps _ _ _).after (returnRestore_keeps srv s)

theorem shipCompletes_keeps (srv num : Nat) (s : State) : Keeps s (shipCompletes srv num s) := by
  unfold shipCompletes
  dsimp only
  split
  · exact returnShip_keeps srv s
  · exact (shipDone_frame _ _ _).keepsAfter (by decide) (returnShip_keeps srv s)

theorem shipFails_keeps (srv num code : Nat) (s : State) : Keeps s (shipFails srv num code s) := by
  unfold shipFails
  dsimp only
  split
  · exact returnShip_keeps srv s
  · exact (batchFailed_frame _ _ _ _).keepsAfter (by decide) (returnShip_keeps srv s)

/-! ### The warm restart -/

theorem restartBegun_keeps (s : State) : Keeps s (restartBegun s) := by
  unfold restartBegun dcRestart
  refine (presentAll_keeps _).after ?_
  exact .of_blocks rfl rfl rfl rfl

theorem linkRestart_keeps (s : State) (srv : Nat) : Keeps s (linkRestart s srv) := by
  have hleft : Keeps s (linkRestarts srv s) := by
    unfold linkRestarts
    split
    · exact leaveUp_keeps _ _ _ _ s
    · exact (changeLink_frame _ _ _ s).keeps (by decide)
    · exact Keeps.refl s
    · exact Keeps.refl s
  rw [linkRestart_eq]
  exact (setIntake_frame _ _ _).keepsAfter (by decide) ((setLink_frame _ _ _).keepsAfter (by decide) hleft)

theorem warmRestart_keeps (s : State) : Keeps s (warmRestart s) := by
  rw [warmRestart_eq]
  exact (presentAll_keeps _).after ((restartNotices_frame _ _ _).keepsAfter (by decide)
    ((restartUnpins_frame _ _ _).keepsAfter (by decide) ((restartReleases_frame _ _).keepsAfter (by decide)
      ((Keeps.foldl linkRestart_keeps _ _).after (restartBegun_keeps s)))))

theorem coldState_keeps (s : State) : Keeps s (coldState s) where
  clock _ := (Keeps.of_blocks rfl rfl rfl rfl : Keeps State.reset (coldState s)).clock reset_clockInv
  credits _ _ := rfl

/-! ### The management link -/

theorem pump_keeps (s : State) : Keeps s (pump s) := (pump_frame s).keeps (by decide)

theorem txOver_keeps (s : State) : Keeps s (txOver s) := by
  unfold txOver
  split
  · exact Keeps.refl s
  all_goals exact .of_blocks rfl rfl rfl rfl

theorem mgmtGained_keeps (s : State) : Keeps s (mgmtGained s) :=
  Keeps.ite (Keeps.refl s) ((pump_keeps _).after (.of_blocks rfl rfl rfl rfl))

theorem mgmtLost_keeps (s : State) : Keeps s (mgmtLost s) :=
  Keeps.ite ((pump_keeps _).after ((txOver_keeps _).after (.of_blocks rfl rfl rfl rfl))) (Keeps.refl s)

theorem mgmtChars_keeps (chars : List RxChar) (s : State) : Keeps s (mgmtChars chars s) :=
  Keeps.ite (Keeps.ite (Keeps.refl s) (.of_blocks rfl rfl rfl rfl)) (Keeps.refl s)

theorem answerBusy_keeps (tag : BitVec 16) (s : State) : Keeps s (answerBusy tag s) :=
  Keeps.ite ((pump_keeps _).after (.of_blocks rfl rfl rfl rfl)) (Keeps.refl s)

theorem frameBusy_keeps (tag : BitVec 16) (s : State) : Keeps s (frameBusy tag s) :=
  Keeps.ite ((answerBusy_keeps _ _).after ((mgmtHunt_frame s).keeps (by decide))) (Keeps.refl s)

theorem mgmtSent_keeps (s : State) : Keeps s (mgmtSent s) :=
  Keeps.ite ((pump_keeps _).after (txOver_keeps s)) (Keeps.refl s)

theorem answer_keeps (tag : BitVec 16) (r : Reply) (s : State) : Keeps s (answer tag r s) :=
  (pump_keeps _).after (.of_blocks rfl rfl rfl rfl)

theorem request_keeps (x : ReqHead) (ok : Bool) {f : State → State × Reply} (s : State)
    (hf : Keeps (mgmtHunt s) (f (mgmtHunt s)).1) : Keeps s (request x ok f s) := by
  have hh : Keeps s (mgmtHunt s) := (mgmtHunt_frame s).keeps (by decide)
  exact Keeps.ite (Keeps.refl s) (Keeps.ite ((answerBusy_keeps _ _).after hh)
    (Keeps.ite ((answer_keeps _ _ _).after hh) ((answer_keeps _ _ _).after (hf.after hh))))

/-! ### Requests

Each is refused with nothing done, reads, or does work that keeps both invariants. -/

/-- A check that refuses. -/
theorem Keeps.unless {p : Prop} [Decidable p] {s : State} {r : Reply} {a : State × Reply} (h : Keeps s a.1) :
    Keeps s (if p then (s, r) else a).1 := by
  split
  · exact Keeps.refl s
  · exact h

/-- What is done before a reply. -/
theorem Keeps.reply {s t : State} (r : Reply) (h : Keeps s t) : Keeps s (t, r).1 := h

theorem setWindow_keeps {start len cap : Nat} (s : State) : Keeps s (setWindow start len cap s).1 := by
  unfold setWindow
  split
  · exact Keeps.refl s
  · rename_i hstart
    have hw : WindowSet.inRange { start := start, len := clampTo 1 45 len, capacity := clampTo 1 65535 cap } := by
      unfold WindowSet.inRange clampTo
      dsimp only
      omega
    dsimp only
    split
    · exact ⟨fun h => { h with settings := hw, closed := h.closed, isOpen := h.isOpen }, fun h => h.of_servers rfl⟩
    · exact ⟨fun h => { h with pendingSet := fun _ he => Option.some.inj he ▸ hw, closed := h.closed, isOpen := h.isOpen },
        fun h => h.of_servers rfl⟩

theorem slotMask_tsetD (c : Cwu) (g i : Nat) (m : SlotMask) :
    slotMask { c with masks := tsetD { current := 0, pending := none } c.masks g m } i = if g = i then m else slotMask c i :=
  tgetD_tsetD _ _ _ _ _

/-- A pending mask changes no current one (R30). -/
theorem setSlotmask_keeps {g : Nat} (mask : BitVec 32) (s : State) : Keeps s (setSlotmask g mask s).1 := by
  refine .unless ⟨fun h => { h with isOpen := fun j hj => ?_, closed := h.closed }, fun h => h.of_servers rfl⟩
  obtain ⟨hlt, hvisited, hall, hgroups⟩ := h.isOpen j hj
  refine ⟨hlt, hvisited, hall, hgroups.trans ?_⟩
  unfold groupsOpenIn
  refine List.filter_congr fun i _ => ?_
  rw [slotMask_tsetD]
  split
  · rename_i hi
    rw [hi]
  · rfl

theorem setClock_keeps {part minute : Nat} (hp : part ≤ top32) (s : State) : Keeps s (setClock part minute s).1 := by
  unfold setClock
  split
  · exact Keeps.refl s
  · rename_i hm
    have hset : Keeps s { s with cwu := { s.cwu with partTime := part, minute := minute, second := 0 } } :=
      .of_times rfl rfl rfl fun h => ⟨(by decide : 0 < 60), hp, by omega, h.trend⟩
    exact .reply _ ((grantAll_keeps _).after ((evaluateWindow_keeps _ _).after hset))

theorem setTrend_keeps (t k w : Nat) (s : State) : Keeps s (setTrend t k w s).1 := by
  have hclamp : 1 ≤ clampTo 1 1440 t ∧ clampTo 1 1440 t ≤ 1440 := by unfold clampTo; omega
  unfold setTrend newInterval
  dsimp only
  split
  · exact .of_blocks rfl rfl rfl rfl
  · exact .of_times rfl rfl rfl fun h => ⟨h.second, h.partTime, h.minute, hclamp.1, hclamp.2, hclamp.1⟩

theorem setGroupReq_keeps (p : Nat) (g : BitVec 16) (s : State) : Keeps s (setGroupReq p g s).1 := by
  unfold setGroupReq
  split
  · exact Keeps.refl s
  · exact .unless (.unless (.unless ((evaluateGroup_frame _ _ _).keepsAfter (by decide)
      ((evaluateGroup_frame _ _ _).keepsAfter (by decide) ((moveGroup_frame _ _ s).keeps (by decide))))))

theorem definePrincipal_keeps (p user : Nat) (g : BitVec 16) (s : State) : Keeps s (definePrincipal p user g s).1 := by
  unfold definePrincipal
  split
  · exact Keeps.refl s
  · exact .unless (.unless (.unless ((onMembers_frame _ _ _).keepsAfter (by decide)
      ((setPrincipal_frame _ _ s).keeps (by decide)))))

theorem leaveSoftList_frame (sub : Subject) (s : State) : Frame [.softList] s (leaveSoftList sub s) := softWrite_frame _ s

theorem dropPrincipal_keeps (p : Nat) (s : State) : Keeps s (dropPrincipal p s) := by
  have hmoved : Keeps s (onMembers (principal s p).group (· - 1) (dropUsage p s)) :=
    (onMembers_frame _ _ _).keepsAfter (by decide) ((addCharge_frame _ _ _).keepsAfter (by decide)
      ((onGroup_frame _ _ s).keeps (by decide)))
  have hevaluated := (evaluateBoth_frame .transfer 0 _).keepsAfter (by decide)
    ((setPrincipal_frame p Principal.undefined _).keepsAfter (by decide) ((enforceUnblock_frame (.principal p) _).keepsAfter
      (by decide) ((leaveSoftList_frame (.principal p) _).keepsAfter (by decide) hmoved)))
  exact Keeps.ite hevaluated ((evaluateGroup_frame _ _ _).keepsAfter (by decide) hevaluated)

theorem setLimits_keeps (w : WireSubject) (soft hard band : Nat) (s : State) : Keeps s (setLimits w soft hard band s).1 := by
  unfold setLimits
  split
  · exact Keeps.refl s
  · exact .unless ((evaluate_frame _ _ _).keepsAfter (by decide) ((setAcct_frame _ _ s).keeps (by decide)))

theorem startGraceSweep_keeps (m : Nat) (s : State) : Keeps s (startGraceSweep m s).1 := by
  unfold startGraceSweep
  split
  · exact Keeps.refl s
  · exact .of_blocks rfl rfl rfl rfl

theorem grantGrace_keeps (w : WireSubject) (m : Nat) (s : State) : Keeps s (grantGrace w m s).1 := by
  unfold grantGrace
  split
  · exact Keeps.refl s
  · exact .unless ((evaluate_frame _ _ _).keepsAfter (by decide) ((setAcct_frame _ _ s).keeps (by decide)))

theorem acceptRestore_keeps (slot : Nat) (j : RestoreJob) (s : State) : Keeps s (acceptRestore slot j s) :=
  (grantAll_keeps _).after ((acceptanceWrite_frame _ _).keepsAfter (by decide) ((pin_frame _ _).keepsAfter (by decide)
    ((reserve_frame _ _ _).keepsAfter (by decide) ((setRestoreJob_frame _ _ s).keeps (by decide)))))

theorem startRestore_keeps (id p : Nat) (mode : BitVec 8) (priority n : Nat) (xs : List ExtentField) (s : State) :
    Keeps s (startRestore id p mode priority n xs s).1 := by
  unfold startRestore
  split
  · exact Keeps.refl s
  · split
    · exact Keeps.refl s
    · refine .unless ?_
      unfold startWith
      refine .unless ?_
      split
      · exact Keeps.refl s
      · exact .unless (.unless (.reply _ (acceptRestore_keeps _ _ s)))

theorem cancelRestore_keeps (id : Nat) (s : State) : Keeps s (cancelRestore id s).1 := by
  refine .unless ?_
  split
  · exact Keeps.refl s
  · exact .unless (extentMoves_keeps _ _ s)

theorem beginDup_keeps (v id epoch : Nat) (s : State) : Keeps s (beginDup v id epoch s) := by
  have hmade (st : DupState) : Keeps s (createDup v id epoch st .host s) := (createDup_frame _ _ _ _ _ s).keeps (by decide)
  unfold beginDup
  refine (grantAll_keeps _).after ?_
  split
  · exact (settleDup_frame _ _).keepsAfter (by decide) (hmade _)
  · exact hmade _

theorem startDup_keeps (v : Nat) (s : State) : Keeps s (startDup v s).1 := by
  refine .unless (.unless (.unless ?_))
  split
  · exact Keeps.refl s
  · exact .unless (.reply _ (beginDup_keeps _ _ _ s))

theorem haltDup_keeps (v : Nat) (s : State) : Keeps s (haltDup v s).1 := by
  refine .unless ?_
  split
  · exact Keeps.refl s
  · refine .unless ?_
    split
    · exact .reply _ ((grantAll_keeps _).after ((setDupJob_frame _ _ s).keeps (by decide)))
    · exact .reply _ ((grantAll_keeps _).after ((endDup_frame _ _ _ _ s).keeps (by decide)))

theorem moveBase_keeps (v : Nat) (new : Option Nat) (s : State) : Keeps s (moveBase v new s) := by
  have hpinned : Keeps s (match new with
    | none => s
    | some id => pin id s) := by
    split
    · exact Keeps.refl s
    · exact (pin_frame _ s).keeps (by decide)
  unfold moveBase
  dsimp only
  refine (setVolume_frame _ _ _).keepsAfter (by decide) ?_
  split
  · exact hpinned
  · exact (unpin_frame _ _).keepsAfter (by decide) hpinned

theorem setBase_keeps (v id : Nat) (s : State) : Keeps s (setBase v id s).1 :=
  .unless (.unless (.unless (.unless (.unless (moveBase_keeps _ _ s)))))

theorem takeReq_keeps (v : Nat) (kind keep : BitVec 8) (s : State) : Keeps s (takeReq v kind keep s).1 := by
  unfold takeReq
  split
  · exact .unless (.unless (.unless (.unless ((takeSnap_frame _ _ _ s).keeps (by decide)))))
  · exact Keeps.refl s

theorem releaseReq_keeps (id : Nat) (s : State) : Keeps s (releaseReq id s).1 := by
  refine .unless ?_
  split
  · exact Keeps.refl s
  · exact .unless (.unless ((releaseSnap_frame _ _ s).keeps (by decide)))

theorem keepReq_keeps (id : Nat) (keep : BitVec 8) (s : State) : Keeps s (keepReq id keep s).1 := by
  unfold keepReq
  split
  · exact Keeps.refl s
  · refine .unless ?_
    split
    · exact Keeps.refl s
    · have hset (r : Snap) : Keeps s (setSnap id r s) := (setSnap_frame _ _ s).keeps (by decide)
      exact .unless (Keeps.ite ((pressureTest_frame _ _).keepsAfter (by decide) (hset _)) (hset _))

theorem retentionReq_keeps (n : Nat) (valid : BitVec 8) (value mask : Nat) (kind : BitVec 8) (k m : Nat) (s : State) :
    Keeps s (retentionReq n valid value mask kind k m s).1 := by
  unfold retentionReq
  split
  · exact .unless ((setRule_frame _ _ s).keeps (by decide))
  · exact Keeps.refl s

theorem readSnapshot_keeps (id : Nat) (s : State) : Keeps s (readSnapshot id s).1 := by
  refine .unless ?_
  split <;> exact Keeps.refl s

theorem listSnapshots_keeps (v start : Nat) (s : State) : Keeps s (listSnapshots v start s).1 := by
  refine .unless (Keeps.unless ?_)
  split <;> exact Keeps.refl s

theorem attachVolume_keeps (v srv size w : Nat) (s : State) : Keeps s (attachVolume v srv size w s).1 := by
  have hset (r : Volume) : Keeps s (setVolume v r s) := (setVolume_frame _ _ s).keeps (by decide)
  exact .unless (.unless (Keeps.ite ((notifyStale_frame _ _ _ _ _).keepsAfter (by decide) (hset _)) (hset _)))

theorem setVolumeReq_keeps (v : Nat) (w : Setting 8) (l : Setting 64) (g n : Setting 8) (s : State) :
    Keeps s (setVolumeReq v w l g n s).1 := by
  have hset (r : Volume) : Keeps s (setVolume v r s) := (setVolume_frame _ _ s).keeps (by decide)
  unfold setVolumeReq
  split
  · exact .unless (.unless (.unless (.unless (Keeps.ite ((pressureTest_frame _ _).keepsAfter (by decide) (hset _)) (hset _)))))
  · exact Keeps.refl s

theorem detachRecord_keeps (v : Nat) (s : State) : Keeps s (detachRecord v s) := by
  have hflag : Keeps s (if reserveFlag s v then clearReserve v s else s) :=
    Keeps.ite ((clearReserve_frame v s).keeps (by decide)) (Keeps.refl s)
  have hset (r : List (Nat × Snap)) : Keeps s (setVolume v Volume.none
      { (if reserveFlag s v then clearReserve v s else s) with
        sc := { (if reserveFlag s v then clearReserve v s else s).sc with records := r } }) :=
    (setVolume_frame _ _ _).keepsAfter (by decide) (hflag.trans (.of_blocks rfl rfl rfl rfl))
  exact Keeps.ite ((notify_frame _ _ _).keepsAfter (by decide) (hset _)) (hset _)

theorem clearNotice_keeps (kind : Nat) (w : WireSubject) (s : State) : Keeps s (clearNotice kind w s).1 := by
  obtain ⟨st, he⟩ | ⟨k, sub, he⟩ := clearNotice_cases kind w s
  · rw [he]; exact Keeps.refl s
  · rw [he]; exact .of_blocks rfl rfl rfl rfl

theorem setNotice_keeps (kind priority : Nat) (express : BitVec 8) (s : State) :
    Keeps s (setNotice kind priority express s).1 := by
  unfold setNotice
  split
  · exact .of_blocks rfl rfl rfl rfl
  · exact Keeps.refl s

/-- Every request keeps both invariants, whichever it is. -/
theorem requestEffect_keeps (c : Instr) (s : State) : Keeps s (requestEffect c s).1 := by
  cases c with
  | attachVolume => exact attachVolume_keeps _ _ _ _ s
  | setVolume => exact setVolumeReq_keeps _ _ _ _ _ s
  | detachVolume => exact .unless (.unless (.unless (detachRecord_keeps _ s)))
  | readVolume => exact .unless (Keeps.refl s)
  | setSilence => exact .of_blocks rfl rfl rfl rfl
  | restart => exact .of_blocks rfl rfl rfl rfl
  | setWindow => exact setWindow_keeps s
  | setSlotmask => exact setSlotmask_keeps _ s
  | setClock _ part => exact setClock_keeps (Nat.le_of_lt_succ part.isLt) s
  | setTrend => exact setTrend_keeps _ _ _ s
  | loadUsage => exact .unless (.unless ((evaluateBoth_frame _ _ _).keepsAfter (by decide)
    ((loadUsage_frame _ _ s).keeps (by decide))))
  | definePrincipal => exact definePrincipal_keeps _ _ _ s
  | defineGroup => exact .unless (.unless ((setGroupRec_frame _ _ s).keeps (by decide)))
  | setGroup => exact setGroupReq_keeps _ _ s
  | dropPrincipal => exact .unless (.unless (.unless (.unless (dropPrincipal_keeps _ s))))
  | dropGroup => exact .unless (.unless (.unless ((setGroupRec_frame _ _ _).keepsAfter (by decide)
    ((enforceUnblock_frame _ _).keepsAfter (by decide) ((leaveSoftList_frame _ s).keeps (by decide))))))
  | setLimits => exact setLimits_keeps _ _ _ _ s
  | grantGrace _ target m =>
    change Keeps s ((if target = ⟨0, 0⟩ then startGraceSweep m.toNat else grantGrace target m.toNat) s).1
    split
    · exact startGraceSweep_keeps _ s
    · exact grantGrace_keeps _ _ s
  | grantGraceAll => exact startGraceSweep_keeps _ s
  | readPrincipal => exact .unless (Keeps.refl s)
  | readGroup => exact .unless (Keeps.refl s)
  | takeSnapshot => exact takeReq_keeps _ _ _ s
  | releaseSnapshot => exact releaseReq_keeps _ s
  | setKeep => exact keepReq_keeps _ _ s
  | setRetention => exact retentionReq_keeps _ _ _ _ _ _ _ s
  | readSnapshot => exact readSnapshot_keeps _ s
  | listSnapshots => exact listSnapshots_keeps _ _ s
  | startRestore => exact startRestore_keeps _ _ _ _ _ _ s
  | cancelRestore => exact cancelRestore_keeps _ s
  | readRestore => exact .unless (Keeps.refl s)
  | startDup => exact startDup_keeps _ s
  | haltDup => exact haltDup_keeps _ s
  | setBase => exact setBase_keeps _ _ s
  | readDup => exact .unless (Keeps.refl s)
  | setNotice => exact setNotice_keeps _ _ _ s
  | fetchNotices => exact .of_blocks rfl rfl rfl rfl
  | clearNotice => exact clearNotice_keeps _ _ s
  | _ => exact Keeps.refl s

/-! ### Every step -/

/-- Every command keeps the clock, the window and the credits. -/
theorem exec_keeps {c : Instr} {s t : State} (he : exec c s = .next t) : Keeps s t := by
  by_cases hc : ∃ x, reqHead c = some x
  · obtain ⟨x, hx⟩ := hc
    by_cases hk : ∃ y kind, c = .unknownKind y kind ∧ isRequestKind kind = true
    · obtain ⟨y, kind, rfl, hk⟩ := hk
      rw [exec_unknownKind_request s hk] at he
      cases he; exact Keeps.refl s
    · rw [exec_request s hx fun y kind e => by
        by_contra hne; exact hk ⟨y, kind, e, by simpa using hne⟩] at he
      cases he
      exact request_keeps _ _ _ (requestEffect_keeps c _)
  · cases c with
    | coldReset => cases he; exact coldState_keeps s
    | resetRelease => cases he; exact Keeps.ite (releaseReset_keeps s) (Keeps.refl s)
    | carrierGained => cases he; exact carrierGained_keeps _ s
    | carrierLost => cases he; exact carrierLost_keeps _ s
    | mgmtCarrierGained => cases he; exact mgmtGained_keeps s
    | mgmtCarrierLost => cases he; exact mgmtLost_keeps s
    | mgmtBadFrame => cases he; exact mgmtChars_keeps _ s
    | mgmtFrameBusy => cases he; exact frameBusy_keeps _ s
    | mgmtFrameSent => cases he; exact mgmtSent_keeps s
    | serverFrameSent => cases he; exact serverSent_keeps _ s
    | serverBadFrame => cases he; exact serverChars_keeps _ _ s
    | serverUnusableFrame => cases he; exact unusable_keeps _ _ _ _ s
    | hello => cases he; exact helloArrives_keeps _ s
    | resync => cases he; exact resyncArrives_keeps _ s
    | reEnterUp => cases he; exact reEnter_keeps _ s
    | idleReceived => cases he; exact serverFrame_keeps s Keeps.refl
    | secondEvent => cases he; exact secondComes_keeps s
    | silenceLimitReached => cases he; exact Keeps.ite (secondComes_keeps s) (Keeps.refl s)
    | minuteEvent => cases he; exact Keeps.ite (secondComes_keeps s) (Keeps.refl s)
    | graceExpired => cases he; exact Keeps.ite (secondComes_keeps s) (Keeps.refl s)
    | nightlyTakes => cases he; exact nightlyRound_keeps s
    | dupNightlyList => cases he; exact nightlyList_keeps s
    | sampleEvent => cases he; exact sampleComes_keeps s
    | trendVisit => cases he; exact visitNext_keeps s
    | graceSweepVisit => cases he; exact graceVisitNext_keeps s
    | changes => cases he; exact serverFrame_keeps s (takeChanges_keeps _ _ _)
    | intakeRecord => cases he; exact intakeNext_keeps _ s
    | denyAck => cases he; exact completionFrame_keeps s fun s => (takeAck_frame _ _ _ s).keeps (by decide)
    | allowAck => cases he; exact completionFrame_keeps s fun s => (takeAck_frame _ _ _ s).keeps (by decide)
    | snapDone => cases he; exact completionFrame_keeps s fun s =>
        (grantAll_keeps _).after ((dcListen_frame _).keepsAfter (by decide) (snapLive_keeps _ _ s))
    | snapFail => cases he; exact completionFrame_keeps s fun s =>
        (grantAll_keeps _).after ((dcListen_frame _).keepsAfter (by decide) (snapFails_keeps _ _ _ s))
    | dropSnapAck => cases he; exact completionFrame_keeps s (dropAcked_keeps _ _)
    | copyDone => cases he; exact completionFrame_keeps s fun s => (grantAll_keeps _).after (copyDone_keeps _ _ s)
    | copyFail => cases he; exact completionFrame_keeps s fun s => (grantAll_keeps _).after (copyFail_keeps _ _ _ s)
    | shipDone => cases he; exact completionFrame_keeps s fun s => (grantAll_keeps _).after (shipCompletes_keeps _ _ s)
    | shipFail => cases he; exact completionFrame_keeps s fun s => (grantAll_keeps _).after (shipFails_keeps _ _ _ s)
    | warmRestart => cases he; exact Keeps.ite (warmRestart_keeps s) (Keeps.refl s)
    | warmRestartEnd => cases he; exact Keeps.ite (.of_blocks rfl rfl rfl rfl) (Keeps.refl s)
    | _ => exact absurd ⟨_, rfl⟩ hc

/-- Settles O56: a step is a command on the queue's rest, and every command keeps both invariants. -/
theorem everyStepKeepsClockAndCredits : Obligations.EveryStepKeepsClockAndCredits := by
  intro s t hclock hcredits he
  have hkeeps : Keeps s t := by
    unfold step at he
    split at he
    · cases he; exact Keeps.refl s
    · rename_i c rest _
      exact (exec_keeps he).after (.of_blocks rfl rfl rfl rfl)
  exact ⟨hkeeps.clock hclock, hkeeps.credits hcredits⟩

end Sys2Proof.Machine
end

