-- ==== Sys2Proof/Proofs/WindowSettings.lean ====
section
/-! PROOF. The window's geometry (O19), and SET_WINDOW (O39). -/

namespace Sys2Proof.Machine

/-! ### The slots of a window -/

/-- A minute-of-day `o` minutes past the start has offset `o`. -/
theorem windowOffset_add {w : WindowSet} {o : Nat} (hs : w.start < 1440) (ho : o < 1440) :
    windowOffset w ((w.start + o) % 1440) = o := by
  unfold windowOffset
  omega

/-- Settles O19: the offset of the minute, divided by the slot length, gives the slot. -/
theorem slotsCoverTheWindow : Obligations.SlotsCoverTheWindow := by
  rintro w ⟨hstart, hlen, hmax, -⟩
  refine ⟨fun j i hj hi => ?_, fun o ho hlt => ?_⟩
  · have hin : j * w.len + i < 32 * w.len := by
      calc j * w.len + i < j * w.len + w.len := Nat.add_lt_add_left hi _
        _ = (j + 1) * w.len := (Nat.succ_mul j w.len).symm
        _ ≤ 32 * w.len := Nat.mul_le_mul_right _ hj
    have hoff : windowOffset w ((w.start + j * w.len + i) % 1440) = j * w.len + i := by
      rw [Nat.add_assoc]
      exact windowOffset_add hstart (by omega)
    have hslot : (j * w.len + i) / w.len = j := by
      rw [Nat.add_comm, Nat.add_mul_div_right _ _ hlen, Nat.div_eq_of_lt hi, Nat.zero_add]
    rw [slotOf, hoff, windowLength, if_pos hin, hslot]
  · rw [slotOf, windowOffset_add hstart hlt, windowLength, if_neg (Nat.not_lt.2 ho)]

/-! ### SET_WINDOW -/

theorem settingsWrite_frame (w : WindowSet) (p : Option WindowSet) (s : State) :
    Frame [.windowSettings] s { s with cwu := { s.cwu with settings := w, pendingSet := p } } :=
  ⟨rfl, fun p hp => by cases p <;> first | rfl | exact ⟨rfl, rfl⟩ | exact ⟨rfl, rfl, rfl⟩ | exact (hp (by decide)).elim,
    fun _ => ⟨rfl, rfl⟩⟩

/-- A field is given as clamped when its flag is set. -/
theorem clampedFields_cons (n : Nat) (p : Prop) [Decidable p] (l : List (Nat × Bool)) :
    clampedFields ((n, decide p) :: l) = (if p then [n] else []) ++ clampedFields l := by
  split
  · rw [decide_eq_true ‹p›]; rfl
  · rw [decide_eq_false ‹¬p›]; rfl

theorem clampTo_ne_iff {lo hi v : Nat} (h : lo ≤ hi) : clampTo lo hi v ≠ v ↔ v < lo ∨ hi < v := by unfold clampTo; omega

/-- SET_WINDOW clamps exactly what lies outside its range. -/
theorem clampedFields_window (len cap : Nat) :
    clampedFields [(2, decide (clampTo 1 45 len ≠ len)), (3, decide (clampTo 1 65535 cap ≠ cap))]
      = (if len < 1 ∨ 45 < len then [2] else []) ++ (if cap < 1 ∨ 65535 < cap then [3] else []) := by
  rw [decide_eq_decide.2 (clampTo_ne_iff (by decide)), decide_eq_decide.2 (clampTo_ne_iff (by decide)), clampedFields_cons,
    clampedFields_cons]
  exact congrArg _ (List.append_nil _)

/-- The three values as SET_WINDOW takes them. -/
def windowTaken (start len cap : Nat) : WindowSet :=
  { start := start, len := clampTo 1 45 len, capacity := clampTo 1 65535 cap }

/-- The fields that SET_WINDOW clamps. -/
def windowClamps (len cap : Nat) : List Nat :=
  (if len < 1 ∨ 45 < len then [2] else []) ++ (if cap < 1 ∨ 65535 < cap then [3] else [])

theorem setWindow_refused {start : Nat} (len cap : Nat) (s : State) (h : 1439 < start) :
    setWindow start len cap s = (s, refusal .malformed) := if_pos h

theorem setWindow_closed {start : Nat} (len cap : Nat) {s : State} (h : ¬1439 < start) (hs : s.cwu.slot = none) :
    setWindow start len cap s = ({ s with cwu := { s.cwu with settings := windowTaken start len cap } },
      accept (windowClamps len cap) (.windowSet false)) := by
  unfold setWindow windowTaken windowClamps
  rw [if_neg h]
  dsimp only
  split
  · rw [clampedFields_window]
  · rename_i hj
    rw [hs] at hj
    cases hj

theorem setWindow_open {start : Nat} (len cap : Nat) {s : State} (h : ¬1439 < start) (hs : s.cwu.slot ≠ none) :
    setWindow start len cap s = ({ s with cwu := { s.cwu with pendingSet := some (windowTaken start len cap) } },
      accept (windowClamps len cap) (.windowSet true)) := by
  unfold setWindow windowTaken windowClamps
  rw [if_neg h]
  dsimp only
  split
  · rename_i hno
    exact absurd hno hs
  · rw [clampedFields_window]

/-- Settles O39: SET_WINDOW is refused, or is one write of the settings or of the pending set, answered. -/
theorem setWindowAppliesOrDefers : Obligations.SetWindowAppliesOrDefers := by
  intro h start len cap s ht
  have he : exec (.setWindow h start len cap) s = .next (answer h.tag (setWindow start.toNat len.toNat cap.toNat (mgmtHunt s)).2
      (setWindow start.toNat len.toNat cap.toNat (mgmtHunt s)).1) := congrArg Host.Outcome.next (fixedRequest_takes ht _)
  refine ⟨_, he, ?_⟩
  by_cases hstart : 1439 < start.toNat
  · rw [if_pos hstart, setWindow_refused _ _ _ hstart]
    have hr := refused_takes .malformed ht
    exact ⟨hr, hr.2.mono (by decide)⟩
  · rw [if_neg hstart]
    by_cases hslot : s.cwu.slot = none
    · rw [setWindow_closed _ _ hstart (s := mgmtHunt s) hslot, hslot]
      obtain ⟨ha, hu⟩ := answered_of_frame (accept (windowClamps len.toNat cap.toNat) (.windowSet false)) ht
        (settingsWrite_frame (windowTaken start.toNat len.toNat cap.toNat) s.cwu.pendingSet (mgmtHunt s))
      refine ⟨?_, hu⟩
      rintro _ _ rfl rfl
      exact ⟨ha, fun _ => answer_cwu _ _ _, fun hno => absurd rfl hno⟩
    · rw [setWindow_open _ _ hstart (s := mgmtHunt s) hslot, Option.isSome_iff_ne_none.2 hslot]
      obtain ⟨ha, hu⟩ := answered_of_frame (accept (windowClamps len.toNat cap.toNat) (.windowSet true)) ht
        (settingsWrite_frame s.cwu.settings (some (windowTaken start.toNat len.toNat cap.toNat)) (mgmtHunt s))
      refine ⟨?_, hu⟩
      rintro _ _ rfl rfl
      exact ⟨ha, fun hno => absurd hno hslot, fun _ => answer_cwu _ _ _⟩

end Sys2Proof.Machine
end

