-- ==== Sys2Proof/Proofs/Surveys.lean ====
section
/-! PROOF. The survey requests (O52): each is answered with the state as it stands, and nothing else changes. -/

namespace Sys2Proof.Machine

/-- A request whose effect leaves the state is answered, and changes nothing but the management link's side of it. -/
theorem survey_answered {h : ReqHead} {n : Nat} {r : Reply} {s : State} {c : Instr} {f : State → State × Reply}
    (ht : Takes h n s) (he : exec c s = .next (fixedRequest h n f s)) (hf : f (mgmtHunt s) = (mgmtHunt s, r)) :
    ∃ t, exec c s = .next t ∧ Answered h r s t ∧ Unchanged answerParts s t := by
  refine ⟨_, he, ?_⟩
  rw [fixedRequest_takes ht, hf]
  exact answered_of_frame (L := []) r ht (Frame.refl _ _)

/-- A survey that checks its fields first. -/
theorem checked_survey {p : Prop} [Decidable p] (s : State) (a b : Reply) :
    (if p then (s, a) else (s, b)) = (s, if p then a else b) := (apply_ite (Prod.mk s) p a b).symm

theorem readSnapshot_none {id : Nat} {s : State} (hid : id ≠ 0) (h : snap s id = none) :
    readSnapshot id s = (s, refusal .noSuch) := by rw [readSnapshot, if_neg hid, h]

theorem readSnapshot_some {id : Nat} {s : State} {x : Snap} (hid : id ≠ 0) (h : snap s id = some x) :
    readSnapshot id s = (s, accept [] (.snapshot id { x with inFlight := none } x.inFlight.isSome
      (x.holds.map Hold.blocks).sum (now s - x.created))) := by
  rw [readSnapshot, if_neg hid, h]
  rfl

theorem toNat_ne_zero {n : Nat} {b : BitVec n} (h : b ≠ 0) : b.toNat ≠ 0 := fun hz => h (BitVec.eq_of_toNat_eq hz)

/-! ### LIST_SNAPSHOTS from a record on -/

/-- The record with the id in a volume's list is the catalog's, if it is the volume's. -/
theorem find_volumeSnaps {s : State} (hs : tsorted s.sc.records = true) (v id : Nat) :
    ((volumeSnaps s v).find? fun e => e.1 = id) =
      ((snap s id).filter fun x => decide (x.volume = v)).map (Prod.mk id) := by
  cases hf : (volumeSnaps s v).find? fun e => e.1 = id with
  | some e =>
    obtain ⟨hsnap, hv⟩ := (mem_volumeSnaps hs).1 (List.mem_of_find?_eq_some hf)
    have hid : e.1 = id := by simpa using List.find?_some hf
    rw [← hid, hsnap]
    simp [hv]
  | none =>
    cases hx : snap s id with
    | none => rfl
    | some x =>
      have hv : x.volume ≠ v := fun hv => by
        have := List.find?_eq_none.1 hf (id, x) ((mem_volumeSnaps hs).2 ⟨hx, hv⟩)
        simp at this
      simp [hv]

theorem listSnapshots_noSuch {v start : Nat} {s : State} (hs : tsorted s.sc.records = true) (hv : ¬63 < v) (h0 : start ≠ 0)
    (h : ∀ x, snap s start = some x → x.volume ≠ v) : listSnapshots v start s = (s, refusal .noSuch) := by
  have hnone : ((volumeSnaps s v).find? fun e => e.1 = start) = none := by
    rw [find_volumeSnaps hs]
    cases hx : snap s start with
    | none => rfl
    | some x => simp [h x hx]
  rw [listSnapshots, if_neg hv, if_neg h0, hnone]

theorem listSnapshots_after {v start : Nat} {s : State} {x : Snap} (hs : tsorted s.sc.records = true) (hv : ¬63 < v)
    (h0 : start ≠ 0) (hx : snap s start = some x) (hxv : x.volume = v) :
    listSnapshots v start s = (s, snapPage ((volumeSnaps s v).filter fun e => decide (x.epoch < e.2.epoch))) := by
  have hsome : ((volumeSnaps s v).find? fun e => e.1 = start) = some (start, x) := by
    rw [find_volumeSnaps hs, hx]
    simp [hxv]
  rw [listSnapshots, if_neg hv, if_neg h0, hsome]

/-- Settles O52: each survey's reply is read off the state, and the state is left. -/
theorem surveysGiveTheState : Obligations.SurveysGiveTheState := by
  refine ⟨fun c h n r s ht hc => ?_, fun h v start s ht h0 htab => ?_⟩
  · rcases hc with ⟨rfl, rfl, rfl⟩ | ⟨rfl, rfl, rfl⟩ | ⟨rfl, rfl, rfl⟩ | ⟨rfl, rfl, rfl⟩ | ⟨v, first, count, rfl, rfl, rfl⟩
      | ⟨p, rfl, rfl, rfl⟩ | ⟨g, rfl, rfl, rfl⟩ | ⟨id, rfl, rfl, h0, hx, rfl⟩ | ⟨rfl, rfl, rfl⟩ | ⟨id, x, rfl, rfl, h0, hx, rfl⟩
      | ⟨v, rfl, rfl, rfl⟩ | ⟨j, rfl, rfl, rfl⟩ | ⟨v, rfl, rfl, rfl⟩
    · exact survey_answered (f := readWindow) ht rfl rfl
    · exact survey_answered (f := readRetention) ht rfl rfl
    · exact survey_answered (f := readNotices) ht rfl rfl
    · refine survey_answered (f := readLinks) ht rfl ?_
      rw [readLinks, show (mgmtHunt s).pins.mgmtCarrier = true from ht.2.1]
      rfl
    · exact survey_answered (f := readVolume v.toNat first.toNat count.toNat) ht rfl (checked_survey ..)
    · refine survey_answered (f := readPrincipal p.toNat) ht rfl ?_
      have hp : p = 0 ↔ p.toNat = 0 := ⟨fun e => by rw [e]; rfl, fun e => BitVec.eq_of_toNat_eq e⟩
      rw [if_congr hp rfl rfl]
      exact checked_survey ..
    · exact survey_answered (f := readGroup g.toNat) ht rfl (checked_survey ..)
    · exact survey_answered (f := readSnapshot id.toNat) ht rfl (readSnapshot_none (toNat_ne_zero h0) hx)
    · exact survey_answered (f := readSnapshot 0) ht rfl rfl
    · exact survey_answered (f := readSnapshot id.toNat) ht rfl (readSnapshot_some (toNat_ne_zero h0) hx)
    · exact survey_answered (f := listSnapshots v.toNat 0) ht rfl (checked_survey ..)
    · exact survey_answered (f := readRestore j.toNat) ht rfl (checked_survey ..)
    · exact survey_answered (f := readDup v.toNat) ht rfl (checked_survey ..)
  · have hlist {r : Reply} (hr : listSnapshots v.toNat start.toNat (mgmtHunt s) = (mgmtHunt s, r)) :=
      survey_answered (c := .listSnapshots h v start) ht rfl hr
    have hsorted : tsorted (mgmtHunt s).sc.records = true := htab.snaps
    by_cases hv : 63 < v.toNat
    · obtain ⟨t, he, ha, hu⟩ := hlist (r := refusal .malformed) (if_pos hv)
      exact ⟨t, he, hu, by rw [if_pos hv]; exact ⟨ha, hu⟩⟩
    · have hrefused (hno : ∀ x, snap s start.toNat = some x → x.volume ≠ v.toNat) :=
        hlist (listSnapshots_noSuch hsorted hv (toNat_ne_zero h0) hno)
      cases hx : snap s start.toNat with
      | none =>
        obtain ⟨t, he, ha, hu⟩ := hrefused fun x h => by rw [hx] at h; cases h
        exact ⟨t, he, hu, by rw [if_neg hv]; exact ⟨ha, hu⟩⟩
      | some x =>
        by_cases hxv : x.volume = v.toNat
        · obtain ⟨t, he, ha, hu⟩ := hlist (listSnapshots_after hsorted hv (toNat_ne_zero h0) hx hxv)
          refine ⟨t, he, hu, ?_⟩
          rw [if_neg hv]
          dsimp only
          rw [if_neg (not_not.2 hxv)]
          rintro _ rfl
          exact ha
        · obtain ⟨t, he, ha, hu⟩ := hrefused fun y h => by rw [hx] at h; cases h; exact hxv
          refine ⟨t, he, hu, ?_⟩
          rw [if_neg hv]
          dsimp only
          rw [if_pos hxv]
          exact ⟨ha, hu⟩

end Sys2Proof.Machine
end

