-- ==== Sys2Proof/Proofs/ClockSet.lean ====
section
/-! PROOF. SET_CLOCK sets the clock and evaluates the window at once (O20). -/

namespace Sys2Proof.Machine

/-! ### Notices raised before the reply (R9, log 65) -/

/-- No notice waits in the express slot behind an idle transmit side. -/
abbrev SlotMoves (s : State) : Prop := s.lu.mgmtTx.isSome = true ∨ s.nq.slot = none

theorem pump_slotMoves (s : State) : SlotMoves (pump s) := by
  unfold pump
  split
  · exact .inl ‹_›
  · split
    · unfold startNext
      split
      · exact .inl rfl
      · rename_i hslot
        split
        · exact .inl rfl
        · split
          · exact .inl rfl
          · exact .inr hslot
    · exact .inr rfl

theorem raiseAll_slotMoves (ns : List Notice) {s : State} (h : SlotMoves s) : SlotMoves (raiseAll ns s) := by
  induction ns generalizing s with
  | nil => exact h
  | cons n ns ih => exact ih (pump_slotMoves _)

/-- A reply leaves the notices raised before it. -/
theorem answer_notices (tag : BitVec 16) (r : Reply) {s : State} (h : SlotMoves s) :
    (answer tag r s).nq = s.nq ∧ (s.lu.mgmtTx.isSome = true → (answer tag r s).lu.mgmtTx = s.lu.mgmtTx) := by
  by_cases htx : s.lu.mgmtTx.isSome = true
  · unfold answer pump
    rw [if_pos htx]
    exact ⟨rfl, fun _ => rfl⟩
  · exact ⟨pump_nq_of_empty_slot (h.resolve_left htx), fun hno => absurd hno htx⟩

/-- Notices raised, and then a reply. -/
theorem Noticed.raises_answer {ns : List Notice} {s v : State} (h : Noticed ns s v) (tag : BitVec 16) (r : Reply) :
    Raises ns s (answer tag r v) := by
  intro hmoves
  obtain ⟨-, htx, -, -, -, hn⟩ := mgmtView_eq_iff.1 h
  have hv : SlotMoves v := by
    unfold SlotMoves
    rw [htx, hn]
    exact raiseAll_slotMoves ns hmoves
  obtain ⟨hanq, hatx⟩ := answer_notices tag r hv
  rintro u rfl
  exact ⟨hanq.trans hn, fun hu => (hatx (by rw [htx]; exact hu)).trans htx⟩

/-! ### What the reply and the grants leave of the window -/

/-- The parts that make up the Clock and Window Unit. -/
abbrev cwuParts : List Part := [.clock, .windowSettings, .window, .masks, .cwuOpen, .interval]

theorem Frame.cwu {L : List Part} {s t : State} (h : Frame L s t)
    (hL : ∀ p ∈ cwuParts, p ∉ Part.replies :: Part.restart :: L) : t.cwu = s.cwu := by
  have hs := fun p hp => h.same p (hL p hp)
  obtain ⟨hsecond, hpart, hminute⟩ := hs .clock (by decide)
  obtain ⟨hset, hpending⟩ := hs .windowSettings (by decide)
  obtain ⟨hslot, hvisited⟩ := hs .window (by decide)
  have hmasks : t.cwu.masks = s.cwu.masks := hs .masks (by decide)
  have hopen : t.cwu.openGroups = s.cwu.openGroups := hs .cwuOpen (by decide)
  obtain ⟨hT, hcount⟩ := hs .interval (by decide)
  cases hc : t.cwu
  rw [hc] at hsecond hpart hminute hset hpending hslot hvisited hmasks hopen hT hcount
  dsimp only at hsecond hpart hminute hset hpending hslot hvisited hmasks hopen hT hcount
  subst hsecond hpart hminute hset hpending hslot hvisited hmasks hopen hT hcount
  rfl

theorem answer_windowSame (tag : BitVec 16) (r : Reply) (s : State) : WindowSame s (answer tag r s) := by
  have hcwu : (answer tag r s).cwu = s.cwu := answer_cwu _ _ _
  have hdc : (answer tag r s).dc = s.dc := answer_dc _ _ _
  have hcca : (answer tag r s).cca = s.cca := answer_cca _ _ _
  exact ⟨⟨by rw [hcwu], by rw [hcwu], by rw [hcwu], by rw [answer_sc]⟩, by rw [hcwu], by rw [hcwu], by rw [hcwu], by rw [hdc],
    by rw [hcca]⟩

theorem answer_draws (tag : BitVec 16) (r : Reply) (s : State) : Draws s (answer tag r s) :=
  .write (by rw [answer_cwu]) (answer_vt _ _ _) (fun h => by unfold OnlyFailures; rw [answer_sc]; exact h)
    (fun e he => ⟨e.2, by rw [answer_dc] at he; exact he, .inl rfl, fun h => .inl h⟩) (by rw [answer_dc]) (by rw [answer_dc])

/-! ### The clock set -/

/-- SET_CLOCK's write of the clock (R31). -/
def clockSet (part minute : Nat) (s : State) : State :=
  { s with cwu := { s.cwu with partTime := part, minute := minute, second := 0 } }

theorem moveClock_eq (part minute : Nat) (s : State) :
    moveClock part minute s = grantAll (evaluateWindow .setClock (clockSet part minute s)) := rfl

theorem clockSet_frame (part minute : Nat) (s : State) : Frame [.clock] s (clockSet part minute s) :=
  ⟨rfl, fun p hp => by cases p <;> first | rfl | exact ⟨rfl, rfl⟩ | exact (hp (by decide)).elim, fun _ => ⟨rfl, rfl⟩⟩

theorem evaluated_frame (c : WindowCause) (s : State) :
    Frame (.credits :: .restoreJobs :: .turn :: windowParts) s (grantAll (evaluateWindow c s)) :=
  (grantAll_frame _).after (by decide) (evaluateWindow_frame c s)

theorem moveClock_frame (part minute : Nat) (s : State) :
    Frame (.clock :: .credits :: .restoreJobs :: .turn :: windowParts) s (moveClock part minute s) := by
  rw [moveClock_eq]
  exact (evaluated_frame _ _).after (by decide) ((clockSet_frame part minute s).into (by decide))

theorem evaluated_times (c : WindowCause) (s : State) :
    (grantAll (evaluateWindow c s)).cwu.partTime = s.cwu.partTime
      ∧ (grantAll (evaluateWindow c s)).cwu.minute = s.cwu.minute ∧ (grantAll (evaluateWindow c s)).cwu.second = s.cwu.second
      ∧ (grantAll (evaluateWindow c s)).cwu.trendT = s.cwu.trendT
      ∧ (grantAll (evaluateWindow c s)).cwu.trendCount = s.cwu.trendCount := by
  obtain ⟨hsecond, hpart, hminute⟩ := (evaluated_frame c s).same .clock (by decide)
  obtain ⟨hT, hcount⟩ := (evaluated_frame c s).same .interval (by decide)
  exact ⟨hpart, hminute, hsecond, hT, hcount⟩

/-- Away from a minute event the evaluation hands the open groups on whenever the slot changes, and else leaves them. -/
theorem evaluateWindow_hands {c : WindowCause} (hc : c ≠ .minute) (s : State) :
    (evaluateWindow c s).dc.openGroups =
        (if s.cwu.slot = slotOf s.cwu.settings s.cwu.minute then s.dc.openGroups else (evaluateWindow c s).cwu.openGroups)
      ∧ (evaluateWindow c s).cca.openGroups =
        (if s.cwu.slot = slotOf s.cwu.settings s.cwu.minute then s.cca.openGroups else (evaluateWindow c s).cwu.openGroups) := by
  cases hs : s.cwu.slot with
  | none => cases hj : slotOf s.cwu.settings s.cwu.minute with
    | none => rw [evaluateWindow_outside hs hj]; exact ⟨rfl, rfl⟩
    | some j =>
      have hsame := windowOpen_same j c s
      rw [evaluateWindow_opens hs hj]
      exact ⟨hsame.dcGroups.trans hsame.cwuGroups.symm, hsame.ccaGroups.trans hsame.cwuGroups.symm⟩
  | some i => cases hj : slotOf s.cwu.settings s.cwu.minute with
    | none =>
      have hsame := windowClose_same i c s
      rw [evaluateWindow_closes hs hj]
      exact ⟨hsame.dcGroups.trans hsame.cwuGroups.symm, hsame.ccaGroups.trans hsame.cwuGroups.symm⟩
    | some j =>
      rw [evaluateWindow_inside hs hj]
      by_cases hij : i = j
      · rw [if_pos hij, hij, if_pos rfl, if_pos rfl]
        exact ⟨rfl, rfl⟩
      · rw [if_neg hij, if_neg (fun hno => hc hno.1), if_neg (fun hno => hij (Option.some.inj hno)),
          if_neg (fun hno => hij (Option.some.inj hno))]
        exact ⟨rfl, rfl⟩

theorem setClock_refused {part minute : Nat} {s : State} (h : 1439 < minute) : setClock part minute s = (s, refusal .malformed) :=
  if_pos h

theorem setClock_applied {part minute : Nat} {s : State} (h : minute ≤ 1439) :
    setClock part minute s = (moveClock part minute s, accept [] .none) := if_neg (Nat.not_lt.2 h)

/-! ### SET_CLOCK answered -/

section

variable {h : ReqHead} {part minute : Nat} {s t : State}

/-- The state after SET_CLOCK. -/
abbrev SetsClock (h : ReqHead) (part minute : Nat) (s t : State) : Prop :=
  t = answer h.tag (accept [] .none) (moveClock part minute (mgmtHunt s))

/-- The state in which SET_CLOCK evaluates the window. -/
abbrev timeSet (part minute : Nat) (s : State) : State := clockSet part minute (mgmtHunt s)

theorem moveClock_timeSet (part minute : Nat) (s : State) :
    moveClock part minute (mgmtHunt s) = grantAll (evaluateWindow .setClock (timeSet part minute s)) := rfl

theorem timeSet_same (part minute : Nat) (s : State) : WindowSame s (timeSet part minute s) :=
  ⟨⟨rfl, rfl, rfl, rfl⟩, rfl, rfl, rfl, rfl, rfl⟩

theorem timeSet_stands (part minute : Nat) (s : State) : BudgetStands s (timeSet part minute s) :=
  ⟨rfl, Nat.le_refl _, fun _ => rfl⟩

theorem timeSet_unshippable (hs : Tables s) (hn : NothingToShip s) : Unshippable (timeSet part minute s) :=
  (hn.unshippable hs.dupJobs.1).of_same rfl rfl rfl

/-- The grants and the reply leave the window as its evaluation has it. -/
theorem SetsClock.same (ht : SetsClock h part minute s t) : WindowSame (evaluateWindow .setClock (timeSet part minute s)) t := by
  rw [ht]
  exact (Frame.windowSame ((grantAll_frame _).into (by decide))).trans (answer_windowSame _ _ _)

theorem SetsClock.draws (ht : SetsClock h part minute s t) : Draws (evaluateWindow .setClock (timeSet part minute s)) t := by
  rw [ht]
  exact (answer_draws _ _ _).after (grantAll_draws _)

/-- The notices of the evaluation are those of SET_CLOCK. -/
theorem SetsClock.raises (ht : SetsClock h part minute s t) {ns : List Notice}
    (hn : Noticed ns (timeSet part minute s) (evaluateWindow .setClock (timeSet part minute s))) : Raises ns s t := by
  rw [ht]
  have hset : Noticed [] s (timeSet part minute s) := Noticed.nil rfl
  exact ((hset.silent_trans hn).trans_silent (grantAll_silent _)).raises_answer _ _

/-- The evaluation changes nothing. -/
theorem SetsClock.stays (ht : SetsClock h part minute s t) (hs : Tables s)
    (he : evaluateWindow .setClock (timeSet part minute s) = timeSet part minute s) :
    t.cwu = { s.cwu with partTime := part, minute := minute, second := 0 } ∧ BudgetStands s t ∧ Raises [] s t := by
  have hdraws := ht.draws
  have hraises := ht.raises (ns := []) (by rw [he]; exact Noticed.refl _)
  rw [he] at hdraws
  refine ⟨?_, .of (timeSet_stands part minute s) (timeSet_unshippable hs) rfl rfl hdraws, hraises⟩
  have hgrants : (moveClock part minute (mgmtHunt s)).cwu = (timeSet part minute s).cwu := by
    rw [moveClock_timeSet, he]
    exact (grantAll_frame _).cwu (by decide)
  rw [ht, answer_cwu, hgrants]
  rfl

theorem SetsClock.opens (ht : SetsClock h part minute s t) (hs : Tables s) {j : Nat}
    (he : evaluateWindow .setClock (timeSet part minute s) = windowOpen j .setClock (timeSet part minute s)) :
    WindowOpens j s t ∧ ∃ before, Raises (before ++ [⟨.device, .window true j minute part .setClock⟩]) s t := by
  have hsame := ht.same
  have hdraws := ht.draws
  obtain ⟨before, hbefore⟩ := (settled_work j (timeSet part minute s)).speaks
  have hraises := ht.raises (ns := before ++ [⟨.device, .window true j minute part .setClock⟩])
    (by rw [he]; exact hbefore.trans (notify_noticed _ _ _))
  rw [he] at hsame hdraws
  exact ⟨.of (timeSet_same part minute s).toWindowKept (timeSet_unshippable hs) ((windowOpen_same _ _ _).trans hsame)
    (hdraws.after (windowOpen_draws _ _ _)), before, hraises⟩

theorem SetsClock.closes (ht : SetsClock h part minute s t) (hs : Tables s) {i : Nat}
    (he : evaluateWindow .setClock (timeSet part minute s) = windowClose i .setClock (timeSet part minute s)) :
    WindowCloses s t ∧ Raises [⟨.device, .window false i minute part .setClock⟩] s t := by
  have hsame := ht.same
  have hdraws := ht.draws
  have hclosed : Noticed [] (timeSet part minute s) (closed (timeSet part minute s)) := Noticed.nil rfl
  have hraises := ht.raises (ns := [⟨.device, .window false i minute part .setClock⟩])
    (by rw [he]; exact hclosed.silent_trans (notify_noticed _ _ _))
  rw [he] at hsame hdraws
  exact ⟨.of (timeSet_same part minute s).toWindowKept (timeSet_stands part minute s) (timeSet_unshippable hs)
    ((windowClose_same _ _ _).trans hsame) (hdraws.after (windowClose_draws _ _ _)), hraises⟩

theorem SetsClock.moves (ht : SetsClock h part minute s t) (hs : Tables s) {j : Nat}
    (he : evaluateWindow .setClock (timeSet part minute s) = slotBoundary j (timeSet part minute s)) :
    WindowMoves j s t ∧ Raises [] s t := by
  have hsame := ht.same
  have hdraws := ht.draws
  have hraises := ht.raises (ns := []) (by rw [he]; exact slotBoundary_silent _ _)
  rw [he] at hsame hdraws
  exact ⟨.of (timeSet_same part minute s) (timeSet_stands part minute s) (timeSet_unshippable hs) hsame hdraws, hraises⟩

/-- The open groups that the DC and the CCA have. -/
theorem SetsClock.hands (ht : SetsClock h part minute s t) :
    t.dc.openGroups = (if s.cwu.slot = slotOf s.cwu.settings minute then s.dc.openGroups else t.cwu.openGroups)
      ∧ t.cca.openGroups = (if s.cwu.slot = slotOf s.cwu.settings minute then s.cca.openGroups else t.cwu.openGroups) := by
  rw [ht.same.dcGroups, ht.same.ccaGroups, ht.same.cwuGroups]
  exact evaluateWindow_hands (by decide) (timeSet part minute s)

/-- The clock and the interval as SET_CLOCK leaves them. -/
theorem SetsClock.times (ht : SetsClock h part minute s t) : t.cwu.partTime = part ∧ t.cwu.minute = minute ∧ t.cwu.second = 0
    ∧ t.cwu.trendT = s.cwu.trendT ∧ t.cwu.trendCount = s.cwu.trendCount := by
  rw [ht, answer_cwu, moveClock_timeSet]
  exact evaluated_times .setClock (timeSet part minute s)

end

/-- Settles O20: the clock is written, the window evaluated by its four cases, and the grants follow. -/
theorem setClockEvaluatesTheWindow : Obligations.SetClockEvaluatesTheWindow := by
  intro h part minute s htakes
  have he : exec (.setClock h part minute) s = .next (fixedRequest h 6 (setClock part.toNat minute.toNat) s) := rfl
  rw [fixedRequest_takes htakes] at he
  refine ⟨_, he, fun hm => ?_, fun hm => ?_⟩
  · rw [setClock_refused hm]
    exact refused_takes _ htakes
  · rw [setClock_applied hm]
    obtain ⟨hanswered, hunchanged⟩ := answered_of_frame (accept [] .none) htakes (moveClock_frame part.toNat minute.toNat _)
    obtain ⟨t, ht⟩ : ∃ t, SetsClock h part.toNat minute.toNat s t := ⟨_, rfl⟩
    rw [← ht] at hanswered hunchanged ⊢
    obtain ⟨hpart, hminute, hsecond, hT, hcount⟩ := ht.times
    refine ⟨hanswered, hpart, hminute, hsecond, fun hs => ?_, ht.hands.1, ht.hands.2, hT, hcount, hunchanged.mono (by decide)⟩
    have hslotOf : slotOf (timeSet part.toNat minute.toNat s).cwu.settings (timeSet part.toNat minute.toNat s).cwu.minute
        = slotOf s.cwu.settings minute.toNat := rfl
    cases hslot : s.cwu.slot with
    | none => cases hj : slotOf s.cwu.settings minute.toNat with
      | none => exact ht.stays hs (evaluateWindow_outside hslot hj)
      | some j =>
        obtain ⟨⟨hs', hv, ⟨hmasks, hgroups, -, -⟩, hset, -, hdue, hbudget, hdups⟩, hraises⟩ :=
          ht.opens hs (evaluateWindow_opens hslot hj)
        exact ⟨hs', hv, hset, hmasks, hgroups, hdue, hbudget, hdups, hraises⟩
    | some i => cases hj : slotOf s.cwu.settings minute.toNat with
      | none =>
        obtain ⟨⟨hs', hv, hgroups, -, -, -, hset, hpending, hdue, hbudget, hdups⟩, hraises⟩ :=
          ht.closes hs (evaluateWindow_closes hslot hj)
        exact ⟨hs', hv, hgroups, hset, hpending, hdue, hbudget, hdups, hraises⟩
      | some j =>
        have hinside := evaluateWindow_inside (c := .setClock) (s := timeSet part.toNat minute.toNat s) hslot hj
        dsimp only
        by_cases hij : i = j
        · rw [if_pos hij] at hinside ⊢
          exact ht.stays hs hinside
        · rw [if_neg hij, if_neg fun hno => nomatch hno.1] at hinside
          rw [if_neg hij]
          obtain ⟨⟨hs', hv, ⟨hmasks, hgroups, -, -⟩, hset, -, hdue, hbudget⟩, hraises⟩ := ht.moves hs hinside
          exact ⟨hs', hv, hset, hmasks, hgroups, hdue, hbudget, hraises⟩

end Sys2Proof.Machine
end

