-- ==== Sys2Proof/Proofs/SnapshotIds.lean ====
section
/-! SUPPORT. The id that a take assigns is one that no record holds (R119), and what a take makes of the catalog (R43, R121). -/

namespace Sys2Proof.Machine

/-! ### A record put under a new index -/

/-- A record under an index that the table does not hold is one more record. -/
theorem tput_perm {α : Type} {t : Tab α} {k : Nat} (v : α) (h : tget t k = none) : (tput t k v).Perm ((k, v) :: t) := by
  induction t with
  | nil => exact .refl _
  | cons e r ih =>
    obtain ⟨j, w⟩ := e
    rw [tget] at h
    split at h
    · cases h
    · rename_i hj
      rw [tput, if_neg (Ne.symm hj)]
      split
      · exact .refl _
      · exact ((ih h).cons (j, w)).trans (.swap _ _ _)

/-! ### The ids in turn (R119) -/

/-- The `d`-th id after `n`: 0 is passed over and 65,535 wraps to 1. -/
theorem nextIdAfter_iterate {n d : Nat} (h1 : 1 ≤ d) (h2 : d ≤ 65535) : nextIdAfter^[d] n =
    if 65535 ≤ n then d else if n + d ≤ 65535 then n + d else n + d - 65535 := by
  induction d, h1 using Nat.le_induction with
  | base =>
    change nextIdAfter n = _
    unfold nextIdAfter
    split_ifs <;> omega
  | succ d hd ih =>
    rw [Function.iterate_succ_apply', ih (by omega)]
    unfold nextIdAfter
    split_ifs <;> omega

/-- The ids that a take tries are different. -/
theorem nextIdAfter_iterate_inj {n i j : Nat} (hi : i < 65535) (hj : j < 65535) (h : nextIdAfter^[i] n = nextIdAfter^[j] n) :
    i = j := by
  rcases Nat.eq_zero_or_pos i with rfl | hi0 <;> rcases Nat.eq_zero_or_pos j with rfl | hj0
  · rfl
  · rw [nextIdAfter_iterate hj0 (by omega), Function.iterate_zero_apply] at h
    split_ifs at h <;> omega
  · rw [nextIdAfter_iterate hi0 (by omega), Function.iterate_zero_apply] at h
    split_ifs at h <;> omega
  · rw [nextIdAfter_iterate hi0 (by omega), nextIdAfter_iterate hj0 (by omega)] at h
    split_ifs at h <;> omega

/-- The search ends at a free id, unless every id that it tries is taken. -/
theorem firstFreeId_free (s : State) (fuel n : Nat) :
    (firstFreeId s fuel n ≠ 0 ∧ snap s (firstFreeId s fuel n) = none)
      ∨ ∀ i < fuel, nextIdAfter^[i] n = 0 ∨ (snap s (nextIdAfter^[i] n)).isSome = true := by
  induction fuel generalizing n with
  | zero => exact .inr fun i hi => absurd hi (Nat.not_lt_zero i)
  | succ fuel ih =>
    rw [firstFreeId]
    split
    · rename_i htaken
      refine (ih (nextIdAfter n)).imp_right fun hall i hi => ?_
      cases i with
      | zero => exact htaken
      | succ i => exact hall i (by omega)
    · rename_i hfree
      rw [not_or, Option.not_isSome_iff_eq_none] at hfree
      exact .inl hfree

/-- With fewer than 1,024 records a take finds an id that none of them holds. -/
theorem takeId_free {s : State} (h : s.sc.records.length < 1024) : takeId s ≠ 0 ∧ snap s (takeId s) = none := by
  refine (firstFreeId_free s (s.sc.records.length + 2) s.sc.nextId).resolve_right fun hall => ?_
  have hnodup : ((List.range (s.sc.records.length + 2)).map fun i => nextIdAfter^[i] s.sc.nextId).Nodup := by
    refine List.Nodup.map_on (fun i hi j hj he => ?_) List.nodup_range
    rw [List.mem_range] at hi hj
    exact nextIdAfter_iterate_inj (by omega) (by omega) he
  have hsubset : ((List.range (s.sc.records.length + 2)).map fun i => nextIdAfter^[i] s.sc.nextId)
      ⊆ 0 :: s.sc.records.map Prod.fst := fun k hk => by
    obtain ⟨i, hi, rfl⟩ := List.mem_map.1 hk
    rcases hall i (List.mem_range.1 hi) with h0 | hsome
    · exact h0 ▸ List.mem_cons_self
    · obtain ⟨x, hx⟩ := Option.isSome_iff_exists.1 hsome
      exact List.mem_cons_of_mem _ (List.mem_map_of_mem (mem_of_tget hx))
  have hlength := (List.subperm_of_subset hnodup hsubset).length_le
  simp at hlength

/-! ### A take -/

/-- The record that a take makes, with the order in flight (R121). -/
def takenSnap (v : Nat) (kind : SnapKind) (keep : Bool) (s : State) : Snap :=
  { volume := v, epoch := (volume s v).epoch, kind := kind, created := now s, state := .taking, keep := keep, pinCount := 0,
    inFlight := some (link s (volume s v).server).counter, holds := [] }

theorem takeSnap_records (v : Nat) (kind : SnapKind) (keep : Bool) (s : State) :
    (takeSnap v kind keep s).1.sc.records = tput s.sc.records (takeId s) (takenSnap v kind keep s) := rfl

theorem volume_takeSnap (v : Nat) (kind : SnapKind) (keep : Bool) (s : State) (j : Nat) :
    volume (takeSnap v kind keep s).1 j = if v = j then { volume s v with epoch := (volume s v).epoch + 1 } else volume s j :=
  volume_setVolume ..

theorem snap_takeSnap (v : Nat) (kind : SnapKind) (keep : Bool) (s : State) (id : Nat) :
    snap (takeSnap v kind keep s).1 id = if takeId s = id then some (takenSnap v kind keep s) else snap s id := tget_tput ..

theorem takeSnap_silent (v : Nat) (kind : SnapKind) (keep : Bool) (s : State) : Noticed [] s (takeSnap v kind keep s).1 := rfl

end Sys2Proof.Machine
end

