-- ==== Sys2Proof/Proofs/NightlyTakes.lean ====
section
/-! PROOF. The nightly takes of a window open (O21): one volume's turn, and what stands after the turns of some of the volumes. -/

namespace Sys2Proof.Machine

/-! ### One volume's turn (R124) -/

/-- Why a volume gets no id at its turn, if it gets none. -/
def nightlyRefusal (s : State) (v : Nat) : Option SnapFailReason :=
  if (volume s v).state = .stale then some .stale
  else if catalogFull s v then some .full
  else if epochExhausted s v then some .epoch
  else none

theorem nightlyTake_refused {a : State × List NightlyItem} {v : Nat} {why : SnapFailReason}
    (h : nightlyRefusal a.1 v = some why) : nightlyTake a v =
      (notifySnapFailed v 0 .nightly why a.1, a.2 ++ [{ volume := v, result := .error why }]) := by
  unfold nightlyRefusal at h
  unfold nightlyTake
  dsimp only
  split at h
  · rename_i hstale; cases h; rw [if_pos hstale]
  · rename_i hstale
    rw [if_neg hstale]
    split at h
    · rename_i hfull; cases h; rw [if_pos hfull]
    · rename_i hfull
      rw [if_neg hfull]
      split at h
      · rename_i hepoch; cases h; rw [if_pos hepoch]
      · cases h

/-- The result of a volume's turn. -/
def nightlyResult (s : State) (v : Nat) : Except SnapFailReason Nat :=
  match nightlyRefusal s v with
  | some why => .error why
  | none => .ok (takeId s)

theorem nightlyResult_refused {s : State} {v : Nat} {why : SnapFailReason} (h : nightlyRefusal s v = some why) :
    nightlyResult s v = .error why := by rw [nightlyResult, h]

theorem nightlyResult_taken {s : State} {v : Nat} (h : nightlyRefusal s v = none) : nightlyResult s v = .ok (takeId s) := by
  rw [nightlyResult, h]

/-- A volume that gets an id. -/
structure Takeable (s : State) (v : Nat) : Prop where
  state : (volume s v).state ≠ .stale
  room : catalogFull s v = false
  epoch : epochExhausted s v = false

theorem takeable_of_refusal {s : State} {v : Nat} (h : nightlyRefusal s v = none) : Takeable s v := by
  unfold nightlyRefusal at h
  split at h
  · cases h
  · split at h
    · cases h
    · split at h
      · cases h
      · exact ⟨‹_›, Bool.eq_false_iff.2 ‹_›, Bool.eq_false_iff.2 ‹_›⟩

theorem nightlyTake_taken {a : State × List NightlyItem} {v : Nat} (h : Takeable a.1 v) : nightlyTake a v =
    ((takeSnap v .nightly false a.1).1, a.2 ++ [{ volume := v, result := .ok (takeId a.1) }]) := by
  unfold nightlyTake
  dsimp only
  rw [if_neg h.state, h.room, h.epoch]
  rfl

theorem catalogFull_iff {s : State} {v : Nat} : catalogFull s v = true ↔
    1024 ≤ s.sc.records.length ∨ 64 ≤ (s.sc.records.filter fun e => e.2.volume = v).length := by
  simp [catalogFull]

theorem Takeable.id_free {s : State} {v : Nat} (h : Takeable s v) : takeId s ≠ 0 ∧ snap s (takeId s) = none := by
  refine takeId_free (Nat.lt_of_not_le fun hfull => ?_)
  have := (catalogFull_iff (v := v)).2 (.inl hfull)
  rw [h.room] at this
  cases this

/-! ### What an item says -/

/-- An item's result, for a list of items before it (R124). -/
def ItemRule (s : State) (before : List NightlyItem) (item : NightlyItem) : Prop :=
  if (volume s item.volume).state = .stale then item.result = .error .stale
  else if 1024 ≤ s.sc.records.length + (before.filter fun i => i.result.isOk).length
      ∨ 64 ≤ (s.sc.records.filter fun e => e.2.volume = item.volume).length then item.result = .error .full
  else if 4294967295 ≤ (volume s item.volume).epoch then item.result = .error .epoch
  else ∃ id, item.result = .ok id

/-- The record for an id that an item gives (R121). -/
structure NightlyRecord (s : State) (v : Nat) (r : Snap) : Prop where
  volume : r.volume = v
  epoch : r.epoch = (Machine.volume s v).epoch
  kind : r.kind = .nightly
  keep : r.keep = false
  state : r.state = .taking
  created : r.created = now s
  pins : r.pinCount = 0
  holds : r.holds = []
  inFlight : r.inFlight ≠ none

/-- What stands behind an item in the state that follows it. -/
def ItemDone (s t : State) (item : NightlyItem) : Prop :=
  match item.result with
  | .error _ => (volume t item.volume).epoch = (volume s item.volume).epoch
  | .ok id => (volume t item.volume).epoch = (volume s item.volume).epoch + 1 ∧ snap s id = none ∧ 1 ≤ id
    ∧ ∃ r, snap t id = some r ∧ NightlyRecord s item.volume r

/-- SNAP_FAILED for an item without an id (R124, R139). -/
def itemNotice (s : State) (item : NightlyItem) : Option Notice :=
  match item.result with
  | .error why => some ⟨.volume item.volume, .snapFailed 0 .nightly why (now s)⟩
  | .ok _ => none

/-- A later turn of another volume that leaves the records there are leaves what stands behind an item. -/
theorem ItemDone.later {s t u : State} {item : NightlyItem} (h : ItemDone s t item)
    (hv : volume u item.volume = volume t item.volume) (hr : ∀ id x, snap t id = some x → snap u id = some x) :
    ItemDone s u item := by
  unfold ItemDone at h ⊢
  rw [hv]
  split
  · rename_i hresult
    rw [hresult] at h
    exact h
  · rename_i hresult
    rw [hresult] at h
    obtain ⟨hepoch, hfree, hpos, r, hsnap, hrec⟩ := h
    exact ⟨hepoch, hfree, hpos, r, hr _ _ hsnap, hrec⟩

/-! ### After the turns of some volumes -/

/-- The nightly takes of the volumes `vs` have been dealt with. -/
structure NightlyTaken (s : State) (vs : List Nat) (a : State × List NightlyItem) : Prop where
  listed : a.2.map NightlyItem.volume = vs
  time : now a.1 = now s
  count : a.1.sc.records.length = s.sc.records.length + (a.2.filter fun i => i.result.isOk).length
  volumes : ∀ v, v ∉ vs → volume a.1 v = volume s v
  records : ∀ v, v ∉ vs → (a.1.sc.records.filter fun e => e.2.volume = v).length
    = (s.sc.records.filter fun e => e.2.volume = v).length
  older : ∀ id x, snap s id = some x → snap a.1 id = some x
  rules : ∀ before item after, a.2 = before ++ item :: after → ItemRule s before item
  done : ∀ item ∈ a.2, ItemDone s a.1 item
  notices : Noticed (a.2.filterMap (itemNotice s)) s a.1

/-- The item at the end of a list, or one before it. -/
theorem split_concat {α : Type} {l before after : List α} {x item : α} (h : l ++ [x] = before ++ item :: after) :
    (before = l ∧ item = x) ∨ ∃ more, l = before ++ item :: more := by
  rcases List.eq_nil_or_concat after with rfl | ⟨more, y, rfl⟩
  · obtain ⟨hl, hx⟩ := List.append_inj' h rfl
    exact .inl ⟨hl.symm, (List.singleton_inj.1 hx).symm⟩
  · refine .inr ⟨more, ?_⟩
    rw [List.concat_eq_append, ← List.cons_append, ← List.append_assoc] at h
    exact (List.append_inj' h rfl).1

namespace NightlyTaken

variable {s : State} {vs : List Nat} {a : State × List NightlyItem} {v : Nat}

/-- The rule for the next volume is read off the state at its turn. -/
theorem rule_next (h : NightlyTaken s vs a) (hv : v ∉ vs) : ItemRule s a.2 ⟨v, nightlyResult a.1 v⟩ := by
  have hfull : catalogFull a.1 v = true ↔ 1024 ≤ s.sc.records.length + (a.2.filter fun i => i.result.isOk).length
      ∨ 64 ≤ (s.sc.records.filter fun e => e.2.volume = v).length := by
    rw [catalogFull_iff, h.count, h.records v hv]
  have hepoch : epochExhausted a.1 v = true ↔ 4294967295 ≤ (volume s v).epoch := by
    rw [← h.volumes v hv]
    exact decide_eq_true_iff
  unfold ItemRule
  rw [nightlyResult, nightlyRefusal, h.volumes v hv]
  dsimp only
  simp only [hfull, hepoch]
  split
  · rfl
  · split
    · rfl
    · split
      · rfl
      · exact ⟨_, rfl⟩

/-- A further item: what is left is to say of the state after it what the item stands for. -/
theorem append (h : NightlyTaken s vs a) (hv : v ∉ vs) {t : State} {item : NightlyItem} (hitem : item.volume = v)
    (hrule : ItemRule s a.2 item) (htime : now t = now a.1)
    (hcount : t.sc.records.length = a.1.sc.records.length + if item.result.isOk = true then 1 else 0)
    (hvolumes : ∀ j, j ≠ v → volume t j = volume a.1 j)
    (hrecords : ∀ j, j ≠ v → (t.sc.records.filter fun e => e.2.volume = j).length
      = (a.1.sc.records.filter fun e => e.2.volume = j).length)
    (holder : ∀ id x, snap a.1 id = some x → snap t id = some x) (hdone : ItemDone s t item)
    (hnotice : Noticed (itemNotice s item).toList a.1 t) : NightlyTaken s (vs ++ [v]) (t, a.2 ++ [item]) := by
  have hne {j : Nat} (hj : j ∉ vs ++ [v]) : j ∉ vs ∧ j ≠ v := by simpa using hj
  refine ⟨?_, htime.trans h.time, ?_, fun j hj => ?_, fun j hj => ?_, fun id x hx => holder id x (h.older id x hx),
    fun before i after he => ?_, fun i hi => ?_, ?_⟩
  · rw [List.map_append, h.listed, ← hitem]; rfl
  · rw [hcount, h.count, List.filter_append, List.length_append, Nat.add_assoc]
    congr 2
    split
    · rw [List.filter_cons_of_pos ‹_›]; rfl
    · rw [List.filter_cons_of_neg ‹_›]; rfl
  · exact (hvolumes j (hne hj).2).trans (h.volumes j (hne hj).1)
  · exact (hrecords j (hne hj).2).trans (h.records j (hne hj).1)
  · rcases split_concat he with ⟨rfl, rfl⟩ | ⟨more, hmore⟩
    · exact hrule
    · exact h.rules before i more hmore
  · rcases List.mem_append.1 hi with hi | hi
    · have hlisted : i.volume ∈ vs := h.listed ▸ List.mem_map_of_mem hi
      exact (h.done i hi).later (hvolumes _ fun e => hv (e ▸ hlisted)) holder
    · rw [List.mem_singleton.1 hi]
      exact hdone
  · rw [List.filterMap_append]
    refine h.notices.trans ?_
    cases hn : itemNotice s item with
    | none => rw [hn] at hnotice; simpa [hn] using hnotice
    | some n => rw [hn] at hnotice; simpa [hn] using hnotice

/-- A volume that is refused. -/
theorem refused (h : NightlyTaken s vs a) (hv : v ∉ vs) {why : SnapFailReason} (hr : nightlyRefusal a.1 v = some why) :
    NightlyTaken s (vs ++ [v]) (nightlyTake a v) := by
  have hvol (j : Nat) : volume (notifySnapFailed v 0 .nightly why a.1) j = volume a.1 j := volume_notify ..
  have hrec : (notifySnapFailed v 0 .nightly why a.1).sc = a.1.sc := pump_sc _
  have hsnap (id : Nat) : snap (notifySnapFailed v 0 .nightly why a.1) id = snap a.1 id := by unfold snap; rw [hrec]
  rw [nightlyTake_refused hr]
  refine h.append hv rfl (nightlyResult_refused hr ▸ h.rule_next hv) (notify_frame _ _ _).now (by rw [hrec]; rfl)
    (fun j _ => hvol j) (fun j _ => by rw [hrec]) (fun id x hx => by rw [hsnap]; exact hx) ?_ ?_
  · change (volume _ v).epoch = _
    rw [hvol, h.volumes v hv]
  · change Noticed [⟨.volume v, .snapFailed 0 .nightly why (now s)⟩] a.1 _
    rw [← h.time]
    exact notify_noticed _ _ _

/-- A volume that is taken. -/
theorem taken (h : NightlyTaken s vs a) (hv : v ∉ vs) (hr : nightlyRefusal a.1 v = none) :
    NightlyTaken s (vs ++ [v]) (nightlyTake a v) := by
  have htake := takeable_of_refusal hr
  obtain ⟨hid, hfree⟩ := htake.id_free
  have hperm : (takeSnap v .nightly false a.1).1.sc.records.Perm
      ((takeId a.1, takenSnap v .nightly false a.1) :: a.1.sc.records) :=
    tput_perm _ hfree
  have holder (id : Nat) (x : Snap) (hx : snap a.1 id = some x) : snap (takeSnap v .nightly false a.1).1 id = some x := by
    rw [snap_takeSnap, if_neg fun e => ?_]
    · exact hx
    · rw [← e, hfree] at hx
      cases hx
  have hold : snap s (takeId a.1) = none := by
    cases hs : snap s (takeId a.1) with
    | none => rfl
    | some x => rw [h.older _ _ hs] at hfree; cases hfree
  rw [nightlyTake_taken htake]
  refine h.append hv rfl (nightlyResult_taken hr ▸ h.rule_next hv) (takeSnap_frame _ _ _ _).now hperm.length_eq
    (fun j hj => ?_) (fun j hj => ?_) holder ⟨?_, hold, Nat.pos_of_ne_zero hid, takenSnap v .nightly false a.1, ?_, ?_⟩
    (takeSnap_silent _ _ _ _)
  · rw [volume_takeSnap, if_neg (Ne.symm hj)]
  · rw [(hperm.filter _).length_eq, List.filter_cons_of_neg (by simp [takenSnap, Ne.symm hj])]
  · change (volume _ v).epoch = _
    rw [volume_takeSnap, if_pos rfl, h.volumes v hv]
  · rw [snap_takeSnap, if_pos rfl]
  · exact ⟨rfl, by rw [← h.volumes v hv]; rfl, rfl, rfl, rfl, h.time, rfl, rfl, Option.some_ne_none _⟩

theorem next (h : NightlyTaken s vs a) (hv : v ∉ vs) : NightlyTaken s (vs ++ [v]) (nightlyTake a v) := by
  cases hr : nightlyRefusal a.1 v with
  | some why => exact h.refused hv hr
  | none => exact h.taken hv hr

theorem foldl (h : NightlyTaken s vs a) {l : List Nat} (hl : (vs ++ l).Nodup) :
    NightlyTaken s (vs ++ l) (l.foldl nightlyTake a) := by
  induction l generalizing vs a with
  | nil => rw [List.append_nil]; exact h
  | cons v l ih =>
    rw [List.append_cons] at hl ⊢
    have hv : v ∉ vs := fun hmem => List.disjoint_of_nodup_append hl.of_append_left hmem (List.mem_singleton_self v)
    exact ih (h.next hv) hl

end NightlyTaken

/-! ### The round -/

theorem nodup_of_above {α : Type} {t : Tab α} {b : Option Nat} (h : Tab.above b t) : (t.map Prod.fst).Nodup := by
  induction t generalizing b with
  | nil => exact List.nodup_nil
  | cons e r ih =>
    obtain ⟨-, hr⟩ := h
    refine List.nodup_cons.2 ⟨fun hmem => ?_, ih hr⟩
    obtain ⟨x, hx, he⟩ := List.mem_map.1 hmem
    exact absurd he (Tab.above_lt hr x hx).ne'

/-- The state in which the nightly takes begin: one window open fewer is due. -/
def nightlyBegun (s : State) : State := { s with sc := { s.sc with opensDue := s.sc.opensDue - 1 } }

/-- The nightly takes, before their list is handed on. -/
def nightlyTakenAll (s : State) : State × List NightlyItem := (nightlyVolumes s).foldl nightlyTake (nightlyBegun s, [])

theorem nightlyTakenAll_taken {s : State} (hs : Tables s) : NightlyTaken s (nightlyVolumes s) (nightlyTakenAll s) := by
  have hnodup : (nightlyVolumes s).Nodup :=
    (nodup_of_above ((tsorted_iff _).1 hs.volumes.1)).sublist (List.filter_sublist.map _)
  have hbegun : NightlyTaken s [] (nightlyBegun s, []) :=
    { listed := rfl
      time := rfl
      count := rfl
      volumes := fun _ _ => rfl
      records := fun _ _ => rfl
      older := fun _ _ h => h
      rules := fun before item after he => absurd he.symm (List.append_ne_nil_of_right_ne_nil _ (List.cons_ne_nil _ _))
      done := fun _ hi => (by cases hi)
      notices := Noticed.nil rfl }
  exact hbegun.foldl hnodup

/-- The list as it is handed on: an empty one is not. -/
theorem nightlyRound_eq {s : State} (h : 0 < s.sc.opensDue) : nightlyRound s =
    { (nightlyTakenAll s).1 with sc := { (nightlyTakenAll s).1.sc with
      toDc := if (nightlyTakenAll s).2 = [] then (nightlyTakenAll s).1.sc.toDc
        else (nightlyTakenAll s).1.sc.toDc ++ [.list (nightlyTakenAll s).2] } } := by
  unfold nightlyRound
  rw [if_neg (Nat.ne_of_gt h)]
  change (if (nightlyTakenAll s).2 = [] then _ else _) = _
  split
  · rfl
  · rfl

theorem nightlyBegun_frame (s : State) : Frame [.opensDue] s (nightlyBegun s) :=
  ⟨rfl, fun p hp => by
    cases p <;> first | rfl | exact ⟨rfl, rfl⟩ | exact ⟨rfl, rfl, rfl⟩ | exact (hp (by decide)).elim, fun _ => ⟨rfl, rfl⟩⟩

theorem nightlyTakenAll_frame (s : State) :
    Frame (.volumes :: .snaps :: .nextId :: .links :: raiseParts) (nightlyBegun s) (nightlyTakenAll s).1 :=
  nightlyTakes_frame (nightlyVolumes s) (nightlyBegun s, [])

/-- Settles O21: every volume in turn gives an item, and the list is handed on unless it is empty. -/
theorem nightlyTakesOfAWindowOpen : Obligations.NightlyTakesOfAWindowOpen := by
  intro s hdue hs
  have htaken := nightlyTakenAll_taken hs
  have hframe := nightlyTakenAll_frame s
  have hround := nightlyRound_eq hdue
  generalize nightlyTakenAll s = a at htaken hframe hround
  obtain ⟨t, items⟩ := a
  have hspares : Frame (.opensDue :: .volumes :: .snaps :: .nextId :: .links :: .toDc :: raiseParts) s (nightlyRound s) := by
    rw [hround]
    exact (toDcWrite_frame _ _).after (by decide) (hframe.after (by decide) ((nightlyBegun_frame s).into (by decide)))
  have hopens : t.sc.opensDue = s.sc.opensDue - 1 := hframe.same .opensDue (by decide)
  have htoDc : t.sc.toDc = s.sc.toDc := hframe.same .toDc (by decide)
  refine ⟨nightlyRound s, items, rfl, ?_, htaken.listed, ?_, htaken.rules, fun v why hi => ?_, fun v id hi => ?_, ?_,
    hspares.spares⟩
  · rw [hround]; exact hopens
  · rw [hround, ← htoDc]
  · rw [hround]
    exact htaken.done _ hi
  · obtain ⟨hepoch, hfree, hpos, r, hsnap, hr⟩ := htaken.done _ hi
    rw [hround]
    exact ⟨hepoch, hfree, hpos, r, hsnap, hr.volume, hr.epoch, hr.kind, hr.keep, hr.state, hr.created, hr.pins, hr.holds,
      hr.inFlight⟩
  · rw [hround]
    exact (htaken.notices.trans_silent (Noticed.nil rfl)).raises

end Sys2Proof.Machine
end

