-- ==== Sys2Proof/Proofs/VolumesAttached.lean ====
section
/-! PROOF. ATTACH_VOLUME (O35): the region geometry of a size (R36), and the checks, record and notice of an attach (R38, R47). -/

namespace Sys2Proof.Machine

/-! ### Region geometry (R36) -/

theorem ceilDiv_spec (a : Nat) {b : Nat} (hb : 0 < b) : a ≤ ceilDiv a b * b ∧ ceilDiv a b * b < a + b := by
  have hle : (a + b - 1) / b * b ≤ a + b - 1 := Nat.div_mul_le_self _ _
  have hlt : a + b - 1 < (a + b - 1) / b * b + b := Nat.lt_div_mul_add hb
  unfold ceilDiv
  omega

/-- regionBlocks is the first power of two from 256 on at which 4,096 regions hold the volume. -/
theorem regionBlocksFor_eq {size : Nat} (h : size ≤ 17179869184) : ∃ k, regionBlocksFor size = 256 * 2 ^ k
    ∧ size ≤ 256 * 2 ^ k * 4096 ∧ ∀ j < k, 256 * 2 ^ j * 4096 < size := by
  have hfits (i : Nat) : decide (ceilDiv size 4096 ≤ 256 * 2 ^ i) = true ↔ size ≤ 256 * 2 ^ i * 4096 := by
    rw [decide_eq_true_eq, ceilDiv]
    omega
  unfold regionBlocksFor
  rw [List.find?_map]
  cases hf : (List.range 15).find? ((fun b => decide (ceilDiv size 4096 ≤ b)) ∘ fun i => 256 * 2 ^ i) with
  | none =>
    have hlast := List.find?_eq_none.1 hf 14 (by decide)
    exact absurd ((hfits 14).2 (by omega)) hlast
  | some k =>
    obtain ⟨hk, -, hbefore⟩ := List.find?_range_eq_some.1 hf
    refine ⟨k, rfl, (hfits k).1 hk, fun j hj => Nat.lt_of_not_le fun hle => ?_⟩
    have hno := hbefore j hj
    rw [Function.comp_apply, (hfits j).2 hle] at hno
    cases hno

/-- The region geometry that R36 gives a size. -/
structure RegionGeometry (size b k : Nat) : Prop where
  power : ∃ i, b = 2 ^ i
  floor : 256 ≤ b
  holds : size ≤ b * 4096
  least : ∀ i, 256 ≤ 2 ^ i → size ≤ 2 ^ i * 4096 → b ≤ 2 ^ i
  covers : size ≤ k * b
  tight : k * b < size + b

theorem regionGeometry {size : Nat} (h : size ≤ 17179869184) :
    RegionGeometry size (regionBlocksFor size) (regionCountFor size) := by
  obtain ⟨k, hk, hholds, hbefore⟩ := regionBlocksFor_eq h
  have hpow : regionBlocksFor size = 2 ^ (k + 8) := by rw [hk, pow_add, Nat.mul_comm]; rfl
  have hpos : 0 < regionBlocksFor size := by rw [hpow]; exact Nat.two_pow_pos _
  obtain ⟨hcovers, htight⟩ := ceilDiv_spec size hpos
  refine ⟨⟨_, hpow⟩, ?_, by rw [hk]; exact hholds, fun i hi hsize => ?_, hcovers, htight⟩
  · rw [hk]
    exact Nat.le_mul_of_pos_right _ (Nat.two_pow_pos k)
  · have h8 : 8 ≤ i := (Nat.pow_le_pow_iff_right (by decide : 1 < 2)).1 (show 2 ^ 8 ≤ 2 ^ i from hi)
    have hsplit : 2 ^ i = 256 * 2 ^ (i - 8) := by
      rw [show 256 = 2 ^ 8 from rfl, ← pow_add, Nat.add_sub_cancel' h8]
    have hki : k ≤ i - 8 := Nat.le_of_not_lt fun hlt => by
      have := hbefore _ hlt
      rw [← hsplit] at this
      omega
    rw [hpow]
    exact Nat.pow_le_pow_right (by decide) (by omega)

/-! ### The attach (R38) -/

theorem attachInRange_iff {v srv size weight : Nat} : attachInRange v srv size weight = false ↔
    63 < v ∨ 7 < srv ∨ size < 4096 ∨ 17179869184 < size ∨ weight < 16 ∨ 64 < weight := by
  rw [← Bool.not_eq_true]
  simp only [attachInRange, Bool.and_eq_true, decide_eq_true_eq]
  omega

/-- What an attach does: the record is written, and VOLUME_STALE raised for one that is STALE (R38, R47). -/
def attaching (v srv size weight : Nat) (s : State) : State :=
  if (attachedRecord s srv size weight).state = .stale then
    notifyStale v true .stale .link (setVolume v (attachedRecord s srv size weight) s)
  else setVolume v (attachedRecord s srv size weight) s

theorem attachVolume_malformed {v srv size weight : Nat} (s : State)
    (h : 63 < v ∨ 7 < srv ∨ size < 4096 ∨ 17179869184 < size ∨ weight < 16 ∨ 64 < weight) :
    attachVolume v srv size weight s = (s, refusal .malformed) := by
  unfold attachVolume
  rw [attachInRange_iff.2 h]
  rfl

theorem attachVolume_inState {v srv size weight : Nat} {s : State}
    (h : ¬(63 < v ∨ 7 < srv ∨ size < 4096 ∨ 17179869184 < size ∨ weight < 16 ∨ 64 < weight))
    (hs : (volume s v).state ≠ .unattached) : attachVolume v srv size weight s = (s, refusal .state) := by
  unfold attachVolume
  rw [← attachInRange_iff, Bool.not_eq_false] at h
  rw [h]
  exact if_pos hs

theorem attachVolume_applied {v srv size weight : Nat} {s : State}
    (h : ¬(63 < v ∨ 7 < srv ∨ size < 4096 ∨ 17179869184 < size ∨ weight < 16 ∨ 64 < weight))
    (hs : (volume s v).state = .unattached) : attachVolume v srv size weight s = (attaching v srv size weight s,
      accept [] (.attached (attachedRecord s srv size weight).state (regionBlocksFor size) (regionCountFor size) 1)) := by
  unfold attachVolume
  rw [← attachInRange_iff, Bool.not_eq_false] at h
  rw [h]
  exact if_neg (not_not.2 hs)

theorem attaching_frame (v srv size weight : Nat) (s : State) :
    Frame (.volumes :: raiseParts) s (attaching v srv size weight s) := by
  unfold attaching
  split
  · exact (notifyStale_frame _ _ _ _ _).after (by decide) ((setVolume_frame _ _ s).into (by decide))
  · exact (setVolume_frame _ _ s).into (by decide)

theorem volume_attaching (v srv size weight : Nat) (s : State) (j : Nat) :
    volume (attaching v srv size weight s) j = if v = j then attachedRecord s srv size weight else volume s j := by
  unfold attaching
  split
  · rw [(notifyStale_frame _ _ _ _ _).volume, volume_setVolume]
  · exact volume_setVolume ..

theorem attaching_noticed (v srv size weight : Nat) (s : State) :
    Noticed (if (attachedRecord s srv size weight).state = .stale then
      [⟨.volume v, .volumeStale true srv .stale .link (now s)⟩] else []) s (attaching v srv size weight s) := by
  unfold attaching
  split
  · have hserver : (volume (setVolume v (attachedRecord s srv size weight) s) v).server = srv := by
      rw [volume_setVolume, if_pos rfl]
      rfl
    have hnote := notify_noticed (.volume v) (.volumeStale true srv .stale .link (now s))
      (setVolume v (attachedRecord s srv size weight) s)
    rw [notifyStale, hserver]
    exact (setVolume_silent _ _ s).trans hnote
  · exact setVolume_silent _ _ s

/-- Settles O35: ATTACH_VOLUME is refused by its first check that fails, or is one write of the record and its notice. -/
theorem attachVolume_holds : Obligations.AttachVolume := by
  intro h vol srv size weight s ht
  have he : exec (.attachVolume h vol srv size weight) s = .next (fixedRequest h 11
    (attachVolume vol.toNat srv.toNat size.toNat weight.toNat) s) := rfl
  rw [fixedRequest_takes ht] at he
  refine ⟨_, he, ?_⟩
  by_cases hrange : 63 < vol.toNat ∨ 7 < srv.toNat ∨ size.toNat < 4096 ∨ 17179869184 < size.toNat ∨ weight.toNat < 16
      ∨ 64 < weight.toNat
  · rw [if_pos hrange, attachVolume_malformed _ hrange]
    have hr := refused_takes .malformed ht
    exact ⟨hr, hr.2.mono (by decide)⟩
  · rw [if_neg hrange]
    by_cases hstate : (volume s vol.toNat).state ≠ .unattached
    · rw [if_pos hstate, attachVolume_inState (s := mgmtHunt s) hrange hstate]
      have hr := refused_takes .state ht
      exact ⟨hr, hr.2.mono (by decide)⟩
    · rw [if_neg hstate, attachVolume_applied (s := mgmtHunt s) hrange (not_not.1 hstate)]
      obtain ⟨hanswered, hunchanged⟩ := answered_of_frame
        (accept [] (.attached (attachedRecord s srv.toNat size.toNat weight.toNat).state (regionBlocksFor size.toNat)
          (regionCountFor size.toNat) 1)) ht (attaching_frame vol.toNat srv.toNat size.toNat weight.toNat (mgmtHunt s))
      have hgeo := regionGeometry (size := size.toNat) (by omega)
      refine ⟨⟨_, _, _, rfl, hanswered, hgeo.power, hgeo.floor, hgeo.holds, hgeo.least, hgeo.covers, hgeo.tight, ?_,
        fun v hv => ?_, fun hattached => ?_, ?_⟩, hunchanged.mono (by decide)⟩
      · rw [volume_answer, volume_attaching, if_pos rfl]
        rfl
      · rw [volume_answer, volume_attaching, if_neg (Ne.symm hv)]
        rfl
      · have hwrite : attaching vol.toNat srv.toNat size.toNat weight.toNat (mgmtHunt s)
            = setVolume vol.toNat (attachedRecord (mgmtHunt s) srv.toNat size.toNat weight.toNat) (mgmtHunt s) :=
          if_neg (by rw [show (attachedRecord (mgmtHunt s) srv.toNat size.toNat weight.toNat).state = .attached from hattached]
                     decide)
        rw [hwrite]
        exact (answered_of_frame _ ht (setVolume_frame _ _ _)).2
      · exact ((Noticed.nil (s := s) (t := mgmtHunt s) rfl).silent_trans (attaching_noticed ..)).raises_answer _ _

end Sys2Proof.Machine
end

