-- ==== Sys2Proof/Proofs/VolumesDetached.lean ====
section
/-! PROOF. DETACH_VOLUME (O37): the record, the catalog's records of the volume, and the notices of a detach (R41, R42, R47). -/

namespace Sys2Proof.Machine

/-- The records of a sorted table that satisfy a predicate. -/
theorem tget_filter {α : Type} {t : Tab α} (h : tsorted t = true) (p : Nat × α → Bool) {k : Nat} {v : α} :
    tget (t.filter p) k = some v ↔ tget t k = some v ∧ p (k, v) = true := by
  rw [tget_eq_some_iff (tsorted_filter t p h), List.mem_filter, tget_eq_some_iff h]

/-! ### The parts of a detach (R42) -/

/-- The reserveOver flag of a volume that is detached falls (R138). -/
def flagDown (v : Nat) (s : State) : State := if reserveFlag s v then clearReserve v s else s

/-- The catalog without the records of a volume. -/
def withoutSnaps (v : Nat) (s : State) : State :=
  { s with sc := { s.sc with records := s.sc.records.filter fun e => e.2.volume ≠ v } }

/-- The volume's record at its UNATTACHED values, with its flag down and its records gone. -/
def emptied (v : Nat) (s : State) : State := setVolume v Volume.none (withoutSnaps v (flagDown v s))

theorem detachRecord_eq (v : Nat) (s : State) : detachRecord v s = if (volume s v).state = .stale then
    notify (.volume v) (.volumeStale false (volume s v).server .unattached .detached (now s)) (emptied v s)
    else emptied v s := rfl

theorem withoutSnaps_frame (v : Nat) (s : State) : Frame [.snaps] s (withoutSnaps v s) :=
  ⟨rfl, fun p hp => by
    cases p <;> first | rfl | exact ⟨rfl, rfl⟩ | exact ⟨rfl, rfl, rfl⟩ | exact (hp (by decide)).elim, fun _ => ⟨rfl, rfl⟩⟩

theorem flagDown_frame (v : Nat) (s : State) : Frame (.reserveOver :: raiseParts) s (flagDown v s) := by
  unfold flagDown
  split
  · exact clearReserve_frame v s
  · exact Frame.refl _ s

theorem reserveFlag_clearReserve (v : Nat) (s : State) : reserveFlag (clearReserve v s) v = false := by
  have hover : (clearReserve v s).sc.reserveOver = setDel v s.sc.reserveOver :=
    (notifyReserve_frame v false { s with sc := { s.sc with reserveOver := setDel v s.sc.reserveOver } }).same .reserveOver
      (by decide)
  unfold reserveFlag
  rw [hover]
  simp [setDel]

theorem reserveFlag_flagDown (v : Nat) (s : State) : reserveFlag (flagDown v s) v = false := by
  unfold flagDown
  split
  · exact reserveFlag_clearReserve v s
  · exact Bool.not_eq_true _ ▸ ‹_›

/-- The parts that a detach writes. -/
abbrev detachParts : List Part := .volumes :: .snaps :: .reserveOver :: raiseParts

theorem emptied_frame (v : Nat) (s : State) : Frame detachParts s (emptied v s) :=
  (setVolume_frame _ _ _).after (by decide) ((withoutSnaps_frame _ _).after (by decide) ((flagDown_frame v s).into (by decide)))

/-- Only a notice comes after the writes of a detach. -/
theorem detachRecord_after (v : Nat) (s : State) : Frame raiseParts (emptied v s) (detachRecord v s) := by
  rw [detachRecord_eq]
  split
  · exact notify_frame _ _ _
  · exact Frame.refl _ _

theorem detachRecord_frame (v : Nat) (s : State) : Frame detachParts s (detachRecord v s) :=
  (detachRecord_after v s).after (by decide) (emptied_frame v s)

theorem volume_detachRecord (v : Nat) (s : State) (j : Nat) :
    volume (detachRecord v s) j = if v = j then Volume.none else volume s j := by
  have hkept : volume (withoutSnaps v (flagDown v s)) j = volume s j := by
    rw [(withoutSnaps_frame _ _).volume, (flagDown_frame v s).volume]
  rw [(detachRecord_after v s).volume, emptied, volume_setVolume, hkept]

theorem records_detachRecord (v : Nat) (s : State) :
    (detachRecord v s).sc.records = s.sc.records.filter fun e => e.2.volume ≠ v := by
  rw [show (detachRecord v s).sc.records = _ from (detachRecord_after v s).same .snaps (by decide)]
  change (flagDown v s).sc.records.filter _ = _
  rw [show (flagDown v s).sc.records = s.sc.records from (flagDown_frame v s).same .snaps (by decide)]

theorem snap_detachRecord {v : Nat} {s : State} (hs : tsorted s.sc.records = true) {id : Nat} {r : Snap} :
    snap (detachRecord v s) id = some r ↔ snap s id = some r ∧ r.volume ≠ v := by
  unfold snap
  rw [records_detachRecord, tget_filter hs, decide_eq_true_eq]

theorem reserveFlag_detachRecord (v : Nat) (s : State) : reserveFlag (detachRecord v s) v = false := by
  unfold reserveFlag
  rw [show (detachRecord v s).sc.reserveOver = (emptied v s).sc.reserveOver from
    (detachRecord_after v s).same .reserveOver (by decide)]
  exact reserveFlag_flagDown v s

theorem detachRecord_noticed {v : Nat} {s : State} (h : reserveFlag s v = false) :
    Noticed (if (volume s v).state = .stale then
      [⟨.volume v, .volumeStale false (volume s v).server .unattached .detached (now s)⟩] else []) s (detachRecord v s) := by
  have hdown : flagDown v s = s := if_neg (by rw [h]; decide)
  have hsilent : Noticed [] s (emptied v s) := by rw [emptied, hdown]; exact Noticed.nil rfl
  rw [detachRecord_eq]
  split
  · exact hsilent.silent_trans (notify_noticed _ _ _)
  · exact hsilent

/-! ### DETACH_VOLUME (R41) -/

theorem detachVolume_malformed {v : Nat} (s : State) (h : 63 < v) : detachVolume v s = (s, refusal .malformed) := if_pos h

theorem detachVolume_noSuch {v : Nat} {s : State} (h : ¬63 < v) (hs : (volume s v).state = .unattached) :
    detachVolume v s = (s, refusal .noSuch) := by
  rw [detachVolume, if_neg h, if_pos hs]

theorem detachVolume_inUse {v : Nat} {s : State} (h : ¬63 < v) (hs : (volume s v).state ≠ .unattached)
    (hu : hasRestore s v = true ∨ namesDup s v = true) : detachVolume v s = (s, refusal .inUse) := by
  rw [detachVolume, if_neg h, if_neg hs, if_pos (by rw [Bool.or_eq_true]; exact hu)]

theorem detachVolume_applied {v : Nat} {s : State} (h : ¬63 < v) (hs : (volume s v).state ≠ .unattached)
    (hu : ¬(hasRestore s v = true ∨ namesDup s v = true)) : detachVolume v s = (detachRecord v s,
      accept [] (.detachedChargesKept (s.sc.records.filter fun e => e.2.volume = v).length)) := by
  rw [detachVolume, if_neg h, if_neg hs, if_neg (by rw [Bool.or_eq_true]; exact hu)]

/-- Settles O37: DETACH_VOLUME is refused by its first check that fails, or empties the volume's record and its catalog. -/
theorem detachVolume_holds : Obligations.DetachVolume := by
  intro h vol s ht htab
  have he : exec (.detachVolume h vol) s = .next (fixedRequest h 1 (detachVolume vol.toNat) s) := rfl
  rw [fixedRequest_takes ht] at he
  refine ⟨_, he, ?_⟩
  by_cases hrange : 63 < vol.toNat
  · rw [if_pos hrange, detachVolume_malformed _ hrange]
    have hr := refused_takes .malformed ht
    exact ⟨hr, hr.2.mono (by decide)⟩
  · rw [if_neg hrange]
    by_cases hstate : (volume s vol.toNat).state = .unattached
    · rw [if_pos hstate, detachVolume_noSuch (s := mgmtHunt s) hrange hstate]
      have hr := refused_takes .noSuch ht
      exact ⟨hr, hr.2.mono (by decide)⟩
    · rw [if_neg hstate]
      by_cases huse : hasRestore s vol.toNat = true ∨ namesDup s vol.toNat = true
      · rw [if_pos huse, detachVolume_inUse (s := mgmtHunt s) hrange hstate huse]
        have hr := refused_takes .inUse ht
        exact ⟨hr, hr.2.mono (by decide)⟩
      · rw [if_neg huse, detachVolume_applied (s := mgmtHunt s) hrange hstate huse]
        obtain ⟨hanswered, hunchanged⟩ := answered_of_frame
          (accept [] (.detachedChargesKept (s.sc.records.filter fun e => e.2.volume = vol.toNat).length)) ht
          (detachRecord_frame vol.toNat (mgmtHunt s))
        refine ⟨⟨hanswered, ?_, fun v hv => ?_, fun id r => ?_, ?_, fun hflag => ?_⟩, hunchanged.mono (by decide)⟩
        · rw [volume_answer, volume_detachRecord, if_pos rfl]
        · rw [volume_answer, volume_detachRecord, if_neg (Ne.symm hv)]
          rfl
        · rw [snap_answer]
          exact snap_detachRecord (s := mgmtHunt s) htab.snaps
        · rw [reserveFlag_answer]
          exact reserveFlag_detachRecord _ _
        · exact ((Noticed.nil (s := s) (t := mgmtHunt s) rfl).silent_trans
            (detachRecord_noticed (s := mgmtHunt s) hflag)).raises_answer _ _

end Sys2Proof.Machine
end

