-- ==== Sys2Proof/Proofs/SnapshotsTaken.lean ====
section
/-! PROOF. TAKE_SNAPSHOT (O46): the id that a take finds (R119), its checks (R121), and its order (R16, R120). -/

namespace Sys2Proof.Machine

/-! ### The id found (R119) -/

/-- The search ends at one of the ids that it tries, and passes over every one before it. -/
theorem firstFreeId_first (s : State) (fuel n : Nat) : ∃ d ≤ fuel, firstFreeId s fuel n = nextIdAfter^[d] n
    ∧ ∀ i < d, nextIdAfter^[i] n = 0 ∨ snap s (nextIdAfter^[i] n) ≠ none := by
  induction fuel generalizing n with
  | zero => exact ⟨0, Nat.le_refl 0, rfl, fun i hi => absurd hi (Nat.not_lt_zero i)⟩
  | succ fuel ih =>
    rw [firstFreeId]
    split
    · rename_i hheld
      obtain ⟨d, hd, heq, hbefore⟩ := ih (nextIdAfter n)
      refine ⟨d + 1, by omega, heq, fun i hi => ?_⟩
      cases i with
      | zero => exact hheld.imp_right Option.isSome_iff_ne_none.1
      | succ i => exact hbefore i (by omega)
    · exact ⟨0, Nat.zero_le _, rfl, fun i hi => absurd hi (Nat.not_lt_zero i)⟩

/-- Every id from a number up to the id found is 0 or held; a search that wraps passes over the rest up to 65,535 first. -/
theorem takeId_passesOver {s : State} (h : s.sc.records.length < 1024) :
    if s.sc.nextId ≤ takeId s then ∀ i, s.sc.nextId ≤ i → i < takeId s → i = 0 ∨ snap s i ≠ none
    else (∀ i, s.sc.nextId ≤ i → i ≤ 65535 → i = 0 ∨ snap s i ≠ none) ∧ ∀ i, 1 ≤ i → i < takeId s → snap s i ≠ none := by
  obtain ⟨d, hd, heq, hbefore⟩ := firstFreeId_first s (s.sc.records.length + 2) s.sc.nextId
  change takeId s = _ at heq
  generalize s.sc.nextId = n at heq hbefore ⊢
  -- The id `j` tries on, which the search has passed over when `j < d`.
  have htried : ∀ j i, j < d → nextIdAfter^[j] n = i → i = 0 ∨ snap s i ≠ none := fun j i hj hi => hi ▸ hbefore j hj
  have hstart : ∀ i, i = n → 0 < d → i = 0 ∨ snap s i ≠ none := fun i hi hpos => htried 0 i hpos hi.symm
  have hlater : ∀ j i, 1 ≤ j → j < d → (if 65535 ≤ n then j else if n + j ≤ 65535 then n + j else n + j - 65535) = i →
      i = 0 ∨ snap s i ≠ none := fun j i h1 hj hi => htried j i hj ((nextIdAfter_iterate h1 (by omega)).trans hi)
  rcases Nat.eq_zero_or_pos d with rfl | hpos
  · rw [heq, Function.iterate_zero_apply, if_pos (Nat.le_refl n)]
    exact fun i h1 h2 => absurd h1 (by omega)
  · rw [nextIdAfter_iterate hpos (by omega)] at heq
    by_cases htop : 65535 ≤ n
    · rw [if_pos htop] at heq
      rw [if_neg (by omega)]
      refine ⟨fun i h1 h2 => hstart i (by omega) hpos, fun i h1 h2 => ?_⟩
      exact (hlater i i h1 (by omega) (if_pos htop)).resolve_left (by omega)
    · rw [if_neg htop] at heq
      by_cases hwrap : n + d ≤ 65535
      · rw [if_pos hwrap] at heq
        rw [if_pos (by omega)]
        intro i h1 h2
        rcases Nat.eq_or_lt_of_le h1 with hn | hn
        · exact hstart i hn.symm hpos
        · exact hlater (i - n) i (by omega) (by omega) (by rw [if_neg htop, if_pos (by omega)]; omega)
      · rw [if_neg hwrap] at heq
        rw [if_neg (by omega)]
        refine ⟨fun i h1 h2 => ?_, fun i h1 h2 => ?_⟩
        · rcases Nat.eq_or_lt_of_le h1 with hn | hn
          · exact hstart i hn.symm hpos
          · exact hlater (i - n) i (by omega) (by omega) (by rw [if_neg htop, if_pos (by omega)]; omega)
        · refine (hlater (i + 65535 - n) i (by omega) (by omega) ?_).resolve_left (by omega)
          rw [if_neg htop, if_neg (by omega)]
          omega

theorem firstFreeId_congr {s t : State} (h : t.sc.records = s.sc.records) (fuel n : Nat) :
    firstFreeId t fuel n = firstFreeId s fuel n := by
  induction fuel generalizing n with
  | zero => rfl
  | succ fuel ih =>
    unfold firstFreeId snap
    rw [h, ih]

theorem takeId_mgmtHunt (s : State) : takeId (mgmtHunt s) = takeId s := firstFreeId_congr (s := s) (t := mgmtHunt s) rfl _ _

/-! ### The order of a take (R16, R120, R121) -/

theorem link_takeSnap (v : Nat) (kind : SnapKind) (keep : Bool) (s : State) (j : Nat) :
    link (takeSnap v kind keep s).1 j = if (volume s v).server = j then
      link (issue (volume s v).server (.snap v (takeId s) (volume s v).epoch kind) s).1 j else link s j := by
  change link (setLink _ _ _) j = _
  rw [link_setLink]
  split
  · rename_i hj
    subst hj
    exact (link_setLink_same _ _ _).symm
  · rfl

theorem link_issue (srv : Nat) (body : OrderBody) (s : State) :
    (link (issue srv body s).1 srv).orders = (link s srv).orders ++ [⟨(link s srv).counter, body.kind⟩]
      ∧ (link (issue srv body s).1 srv).txQueue = (link s srv).txQueue ++ [.order (link s srv).counter body] := by
  unfold issue
  dsimp only
  rw [link_setLink_same]
  exact ⟨rfl, rfl⟩

/-! ### TAKE_SNAPSHOT (R121) -/

theorem snapKindOf_eq_none {b : BitVec 8} (h : b.toNat < 1 ∨ 3 < b.toNat) : snapKindOf b = none := by
  unfold snapKindOf
  split <;> first | omega | rfl

theorem yesNo_eq_none {b : BitVec 8} (h : 1 < b.toNat) : yesNo b = none := by
  have h1 : b ≠ 1 := fun e => by rw [e] at h; exact absurd h (by decide)
  have h0 : b ≠ 0 := fun e => by rw [e] at h; exact absurd h (by decide)
  rw [yesNo, if_neg h1, if_neg h0]

theorem yesNo_eq_some {b : BitVec 8} (h : b.toNat ≤ 1) : yesNo b = some (decide (b = 1)) := by
  unfold yesNo
  split
  · rename_i h1; rw [decide_eq_true h1]
  · rename_i h1
    have h0 : b = 0 := BitVec.eq_of_toNat_eq (by
      have : b.toNat ≠ 1 := fun e => h1 (BitVec.eq_of_toNat_eq e)
      change b.toNat = 0
      omega)
    rw [if_pos h0, decide_eq_false h1]

theorem takeReq_malformed {v : Nat} {kind keep : BitVec 8} (s : State)
    (h : kind.toNat < 1 ∨ 3 < kind.toNat ∨ 1 < keep.toNat ∨ 63 < v) : takeReq v kind keep s = (s, refusal .malformed) := by
  unfold takeReq
  split
  · rename_i k b hk hb
    have hkind : ¬(kind.toNat < 1 ∨ 3 < kind.toNat) := fun hno => by rw [snapKindOf_eq_none hno] at hk; cases hk
    have hkeep : ¬1 < keep.toNat := fun hno => by rw [yesNo_eq_none hno] at hb; cases hb
    exact if_pos (by omega)
  · rfl

theorem takeFull_iff {s : State} {v : Nat} {k : SnapKind} : takeFull s v k = true ↔
    1024 ≤ s.sc.records.length ∨ 64 ≤ (s.sc.records.filter fun e => e.2.volume = v).length
      ∨ (reserveFlag s v = true ∧ k ≠ .nightly) ∨ 4294967295 ≤ (volume s v).epoch := by
  simp only [takeFull, Bool.or_eq_true, catalogFull_iff, Bool.and_eq_true, decide_eq_true_eq, epochExhausted, or_assoc]
  rfl

theorem takeReq_of_codes {v : Nat} {kind keep : BitVec 8} {k : SnapKind} (s : State) (hk : snapKindOf kind = some k)
    (hkeep : keep.toNat ≤ 1) (hv : v ≤ 63) : takeReq v kind keep s =
      if (volume s v).state = .unattached then (s, refusal .noSuch)
      else if (volume s v).state = .stale then (s, refusal .state)
      else if takeFull s v k then (s, refusal .full)
      else ((takeSnap v k (decide (keep = 1)) s).1, accept [] (.taken (takeId s) (volume s v).epoch)) := by
  unfold takeReq
  rw [hk, yesNo_eq_some hkeep]
  exact if_neg (by omega)

/-- Settles O46: TAKE_SNAPSHOT is refused by its first check that fails, or is a take under the id that the search finds. -/
theorem takeSnapshot : Obligations.TakeSnapshot := by
  intro h vol kind keep s ht
  have he : exec (.takeSnapshot h vol kind keep) s = .next (fixedRequest h 3 (takeReq vol.toNat kind keep) s) := rfl
  rw [fixedRequest_takes ht] at he
  refine ⟨_, he, fun hbad => ?_, ?_, ?_⟩
  · rw [takeReq_malformed _ hbad]
    exact refused_takes _ ht
  · rintro k r hk hkeep hv rfl
    rw [takeReq_of_codes (mgmtHunt s) hk hkeep hv]
    by_cases hnone : (volume s vol.toNat).state = .unattached
    · rw [if_pos hnone, if_pos (show (volume (mgmtHunt s) vol.toNat).state = _ from hnone)]
      exact refused_takes _ ht
    rw [if_neg hnone, if_neg (show (volume (mgmtHunt s) vol.toNat).state ≠ _ from hnone)]
    by_cases hstale : (volume s vol.toNat).state = .stale
    · rw [if_pos hstale, if_pos (show (volume (mgmtHunt s) vol.toNat).state = _ from hstale)]
      exact refused_takes _ ht
    rw [if_neg hstale, if_neg (show (volume (mgmtHunt s) vol.toNat).state ≠ _ from hstale)]
    by_cases hfull : takeFull s vol.toNat k = true
    · rw [if_pos (takeFull_iff.1 hfull), if_pos (show takeFull (mgmtHunt s) vol.toNat k = true from hfull)]
      exact refused_takes _ ht
    rw [if_neg (fun hno => hfull (takeFull_iff.2 hno)), if_neg (show ¬takeFull (mgmtHunt s) vol.toNat k = true from hfull)]
    have hroom : s.sc.records.length < 1024 := Nat.lt_of_not_le fun hno => hfull (takeFull_iff.2 (.inl hno))
    obtain ⟨hpos, hfree⟩ := takeId_free hroom
    obtain ⟨horders, hqueue⟩ := link_issue (volume s vol.toNat).server
      (.snap vol.toNat (takeId s) (volume s vol.toNat).epoch k) (mgmtHunt s)
    rw [takeId_mgmtHunt]
    refine ⟨takeId s, hfree, hpos, (answered_of_frame (accept [] (.taken (takeId s) (volume s vol.toNat).epoch)) ht
        (takeSnap_frame vol.toNat k (decide (keep = 1)) (mgmtHunt s))).1, takeId_passesOver hroom, ?_, fun i hi => ?_, ?_, ?_, fun v hv => ?_, ?_, ?_, fun j hj => ?_⟩
    · rw [snap_answer, snap_takeSnap, takeId_mgmtHunt]
      exact if_pos rfl
    · rw [snap_answer, snap_takeSnap, takeId_mgmtHunt]
      exact if_neg (Ne.symm hi)
    · rw [answer_sc]
      exact congrArg nextIdAfter (takeId_mgmtHunt s)
    · rw [volume_answer, volume_takeSnap]
      exact if_pos rfl
    · rw [volume_answer, volume_takeSnap]
      exact if_neg (Ne.symm hv)
    · rw [link_answer, link_takeSnap, takeId_mgmtHunt, volume_mgmtHunt, if_pos rfl]
      exact horders
    · rw [link_answer, link_takeSnap, takeId_mgmtHunt, volume_mgmtHunt, if_pos rfl]
      exact hqueue
    · rw [link_answer, link_takeSnap]
      exact if_neg (Ne.symm hj)
  · by_cases hbad : kind.toNat < 1 ∨ 3 < kind.toNat ∨ 1 < keep.toNat ∨ 63 < vol.toNat
    · rw [takeReq_malformed _ hbad]
      exact (refused_takes .malformed ht).2.mono (by decide)
    · have hframe : Frame [.volumes, .nextId, .links, .snaps] (mgmtHunt s) (takeReq vol.toNat kind keep (mgmtHunt s)).1 := by
        unfold takeReq
        split
        · split_ifs <;> first | exact Frame.refl _ _ | exact takeSnap_frame _ _ _ _
        · exact Frame.refl _ _
      exact (answered_of_frame _ ht hframe).2.mono (by decide)

end Sys2Proof.Machine
end

