-- ==== Sys2Proof/Proofs/RecordsInOrder.lean ====
section
/-! SUPPORT. The records of a volume, oldest first, while their holds and states move: the list keeps its order, and the newest
record that satisfies a predicate is its last one (R118, R125, R128). -/

namespace Sys2Proof.Machine

/-! ### Lists in order -/

theorem insertBy_perm {α : Type} (f : α → Nat) (x : α) (l : List α) : (insertBy f x l).Perm (x :: l) := by
  induction l with
  | nil => exact .refl _
  | cons y r ih =>
    unfold insertBy
    split
    · exact .refl _
    · exact (ih.cons y).trans (.swap x y r)

theorem sortBy_perm {α : Type} (f : α → Nat) (l : List α) : (sortBy f l).Perm l := by
  induction l with
  | nil => exact .refl _
  | cons x r ih => exact (insertBy_perm f x _).trans (ih.cons x)

theorem insertBy_ordered {α : Type} (f : α → Nat) (x : α) {l : List α} (h : l.Pairwise fun a b => f a ≤ f b) :
    (insertBy f x l).Pairwise fun a b => f a ≤ f b := by
  induction l with
  | nil => exact List.pairwise_singleton _ x
  | cons y r ih =>
    obtain ⟨hy, hr⟩ := List.pairwise_cons.1 h
    unfold insertBy
    split
    · rename_i hlt
      refine List.pairwise_cons.2 ⟨fun z hz => ?_, h⟩
      rcases List.mem_cons.1 hz with rfl | hz
      · exact hlt.le
      · exact hlt.le.trans (hy z hz)
    · rename_i hle
      refine List.pairwise_cons.2 ⟨fun z hz => ?_, ih hr⟩
      rcases (mem_insertBy f x z r).1 hz with hz | rfl
      · exact hy z hz
      · exact Nat.le_of_not_lt hle

theorem sortBy_ordered {α : Type} (f : α → Nat) (l : List α) : (sortBy f l).Pairwise fun a b => f a ≤ f b := by
  induction l with
  | nil => exact .nil
  | cons x r ih => exact insertBy_ordered f x ih

/-- Records that are rewritten with their rank kept stay in their order. -/
theorem sortBy_map {α : Type} (f : α → Nat) (g : α → α) (l : List α) (h : ∀ x ∈ l, f (g x) = f x) :
    sortBy f (l.map g) = (sortBy f l).map g := by
  have hinsert (x : α) (m : List α) (hx : f (g x) = f x) (hm : ∀ y ∈ m, f (g y) = f y) :
      insertBy f (g x) (m.map g) = (insertBy f x m).map g := by
    induction m with
    | nil => rfl
    | cons y r ih =>
      rw [List.map_cons, insertBy, insertBy, hx, hm y List.mem_cons_self]
      split
      · rfl
      · rw [ih fun z hz => hm z (List.mem_cons_of_mem _ hz)]
        rfl
  induction l with
  | nil => rfl
  | cons x r ih =>
    rw [List.map_cons, sortBy, sortBy, ih fun y hy => h y (List.mem_cons_of_mem _ hy)]
    exact hinsert x _ (h x List.mem_cons_self) fun y hy => h y (List.mem_cons_of_mem _ ((mem_sortBy f y r).1 hy))

/-- The last of a list in order that satisfies a predicate has the highest rank of those that do. -/
theorem getLast?_filter_ordered {α : Type} {f : α → Nat} {p : α → Bool} {l : List α} (h : l.Pairwise fun a b => f a ≤ f b)
    {x : α} (hx : (l.filter p).getLast? = some x) : x ∈ l ∧ p x = true ∧ ∀ y ∈ l, p y = true → f y ≤ f x := by
  obtain ⟨hm, hp⟩ := List.mem_filter.1 (List.mem_of_getLast? hx)
  refine ⟨hm, hp, fun y hy hpy => ?_⟩
  obtain ⟨before, hsplit⟩ := List.getLast?_eq_some_iff.1 hx
  have hfilter : y ∈ before ++ [x] := hsplit ▸ List.mem_filter.2 ⟨hy, hpy⟩
  have hordered : (before ++ [x]).Pairwise fun a b => f a ≤ f b := hsplit ▸ h.filter p
  rcases List.mem_append.1 hfilter with hb | hx
  · exact (List.pairwise_append.1 hordered).2.2 y hb x (List.mem_singleton.2 rfl)
  · rw [List.mem_singleton.1 hx]

theorem eq_nil_of_getLast?_filter {α : Type} {p : α → Bool} {l : List α} (h : (l.filter p).getLast? = none) :
    ∀ y ∈ l, p y = false := fun y hy => by
  rw [List.getLast?_eq_none_iff, List.filter_eq_nil_iff] at h
  exact Bool.not_eq_true _ ▸ h y hy

/-! ### Tables with the same indices -/

theorem tkeys_tput {α : Type} {t : Tab α} (hs : tsorted t = true) {k : Nat} {x : α} (h : tget t k = some x) (v : α) :
    tkeys (tput t k v) = tkeys t := by
  rw [tsorted_iff] at hs
  generalize none = b at hs
  induction t generalizing b with
  | nil => cases h
  | cons e r ih =>
    obtain ⟨j, w⟩ := e
    obtain ⟨-, hr⟩ := hs
    by_cases hjk : j = k
    · subst hjk
      rw [tput, if_neg (Nat.lt_irrefl j), if_pos rfl]
      rfl
    · have hrest : tget r k = some x := by rw [tget, if_neg hjk] at h; exact h
      have hlt : j < k := Tab.above_lt hr (k, x) (mem_of_tget hrest)
      rw [tput, if_neg (by omega), if_neg (Ne.symm hjk)]
      exact congrArg (j :: ·) (ih hrest _ hr)

theorem tkeys_nodup {α : Type} {t : Tab α} (hs : tsorted t = true) : (tkeys t).Nodup := nodup_of_above ((tsorted_iff t).1 hs)

/-- Of two tables with the same indices, the second is the first with its records replaced. -/
theorem eq_map_of_tkeys {α : Type} {s t : Tab α} (ht : tsorted t = true) (h : tkeys t = tkeys s) :
    t = s.map fun e => (e.1, (tget t e.1).getD e.2) := by
  have hlen : t.length = s.length := by simpa [tkeys] using congrArg List.length h
  refine List.ext_getElem (by rw [List.length_map, hlen]) fun i h1 h2 => ?_
  rw [List.getElem_map]
  have hi : i < s.length := hlen ▸ h1
  have hkey : t[i].1 = s[i].1 := by
    have := List.getElem_of_eq h (i := i) (by rw [tkeys, List.length_map]; exact h1)
    simpa [tkeys] using this
  have hget : tget t t[i].1 = some t[i].2 := (tget_eq_some_iff ht).2 (List.getElem_mem h1)
  rw [← hkey, hget]
  rfl

theorem exists_of_tkeys {α : Type} {s t : Tab α} (h : tkeys t = tkeys s) {k : Nat} {y : α} (hy : tget t k = some y) :
    ∃ x, tget s k = some x := by
  have hk : k ∈ tkeys s := h ▸ mem_tkeys_of_tget hy
  cases hx : tget s k with
  | some x => exact ⟨x, rfl⟩
  | none =>
    obtain ⟨e, he, hek⟩ := List.mem_map.1 hk
    exact absurd hek (tget_eq_none_iff.1 hx e he)

/-! ### The records of a volume -/

/-- Between two states every record of the catalog has kept its volume, epoch, pins and keep value. -/
structure Relisted (s t : State) : Prop where
  sorted : tsorted t.sc.records = true
  keys : tkeys t.sc.records = tkeys s.sc.records
  records : ∀ id x y, snap s id = some x → snap t id = some y →
    y.volume = x.volume ∧ y.epoch = x.epoch ∧ y.pinCount = x.pinCount ∧ y.keep = x.keep

theorem Relisted.refl {s : State} (h : tsorted s.sc.records = true) : Relisted s s :=
  ⟨h, rfl, fun id x y hx hy => by rw [hx] at hy; cases hy; exact ⟨rfl, rfl, rfl, rfl⟩⟩

theorem Relisted.held {s t : State} (h : Relisted s t) {id : Nat} {y : Snap} (hy : snap t id = some y) :
    ∃ x, snap s id = some x := exists_of_tkeys h.keys hy

theorem Relisted.holds {s t : State} (h : Relisted s t) {id : Nat} {x : Snap} (hx : snap s id = some x) :
    ∃ y, snap t id = some y := exists_of_tkeys h.keys.symm hx

theorem Relisted.trans {s t u : State} (h1 : Relisted s t) (h2 : Relisted t u) : Relisted s u :=
  ⟨h2.sorted, h2.keys.trans h1.keys, fun id x z hx hz => by
    obtain ⟨y, hy⟩ := h1.holds hx
    obtain ⟨hv, he, hp, hk⟩ := h1.records id x y hx hy
    obtain ⟨hv', he', hp', hk'⟩ := h2.records id y z hy hz
    exact ⟨hv'.trans hv, he'.trans he, hp'.trans hp, hk'.trans hk⟩⟩

/-- Every part of the catalog's records that is written is written in place. -/
theorem Relisted.of_same {s t : State} (hs : tsorted s.sc.records = true) (h : t.sc.records = s.sc.records) : Relisted s t := by
  refine ⟨by rw [h]; exact hs, by rw [h], fun id x y hx hy => ?_⟩
  rw [snap, h] at hy
  rw [snap, hy] at hx
  cases hx
  exact ⟨rfl, rfl, rfl, rfl⟩

theorem setSnap_relisted {s : State} (hs : tsorted s.sc.records = true) {id : Nat} {x r : Snap} (hx : snap s id = some x)
    (h : r.volume = x.volume ∧ r.epoch = x.epoch ∧ r.pinCount = x.pinCount ∧ r.keep = x.keep) :
    Relisted s (setSnap id r s) := by
  refine ⟨tsorted_tput _ _ _ hs, tkeys_tput hs hx r, fun j y z hy hz => ?_⟩
  rw [snap_setSnap] at hz
  split at hz
  · rename_i hj
    subst hj
    rw [hx] at hy
    cases hy
    cases hz
    exact h
  · rw [hy] at hz
    cases hz
    exact ⟨rfl, rfl, rfl, rfl⟩

/-- A record of the first state, as it stands in the second. -/
def nowAt (t : State) (e : Nat × Snap) : Nat × Snap := (e.1, (snap t e.1).getD e.2)

theorem Relisted.records_eq {s t : State} (h : Relisted s t) : t.sc.records = s.sc.records.map (nowAt t) :=
  eq_map_of_tkeys h.sorted h.keys

theorem Relisted.nowAt {s t : State} (h : Relisted s t) (hs : tsorted s.sc.records = true) {e : Nat × Snap}
    (he : e ∈ s.sc.records) : (Machine.nowAt t e).2.volume = e.2.volume ∧ (Machine.nowAt t e).2.epoch = e.2.epoch
      ∧ (Machine.nowAt t e).2.pinCount = e.2.pinCount ∧ (Machine.nowAt t e).2.keep = e.2.keep := by
  have hx : snap s e.1 = some e.2 := (tget_eq_some_iff hs).2 he
  obtain ⟨y, hy⟩ := h.holds hx
  unfold Machine.nowAt
  rw [hy]
  exact h.records e.1 e.2 y hx hy

/-- The records of a volume are still listed in the same order. -/
theorem Relisted.volumeSnaps {s t : State} (h : Relisted s t) (hs : tsorted s.sc.records = true) (v : Nat) :
    Machine.volumeSnaps t v = (Machine.volumeSnaps s v).map (Machine.nowAt t) := by
  have hfilter : (s.sc.records.map (Machine.nowAt t)).filter (fun e => e.2.volume = v)
      = (s.sc.records.filter fun e => e.2.volume = v).map (Machine.nowAt t) := by
    rw [List.filter_map]
    refine congrArg (List.map _) (List.filter_congr fun e he => ?_)
    rw [Function.comp_apply, (h.nowAt hs he).1]
  unfold Machine.volumeSnaps
  rw [h.records_eq, hfilter]
  exact sortBy_map _ _ _ fun e he => (h.nowAt hs (List.mem_of_mem_filter he)).2.1

theorem volumeSnaps_nodup {s : State} (hs : tsorted s.sc.records = true) (v : Nat) : ((volumeSnaps s v).map Prod.fst).Nodup := by
  refine (((sortBy_perm _ _).map Prod.fst).nodup_iff).2 ?_
  exact (tkeys_nodup hs).sublist (List.filter_sublist.map _)

theorem volumeSnaps_ordered (s : State) (v : Nat) : (volumeSnaps s v).Pairwise fun a b => a.2.epoch ≤ b.2.epoch :=
  sortBy_ordered _ _

/-- How many records of a volume are pinned or kept, as RESERVE_OVER counts them (R138). -/
def pinnedOrKept (s : State) (v : Nat) : Nat :=
  (s.sc.records.filter fun e => decide (e.2.volume = v) && (decide (0 < e.2.pinCount) || e.2.keep)).length

theorem Relisted.pinnedOrKept {s t : State} (h : Relisted s t) (hs : tsorted s.sc.records = true) (v : Nat) :
    Machine.pinnedOrKept t v = Machine.pinnedOrKept s v := by
  unfold Machine.pinnedOrKept
  rw [h.records_eq, List.filter_map, List.length_map]
  refine congrArg List.length (List.filter_congr fun e he => ?_)
  obtain ⟨hv, -, hp, hk⟩ := h.nowAt hs he
  rw [Function.comp_apply, hv, hp, hk]

end Sys2Proof.Machine
end

