-- ==== Sys2Proof/Proofs/PressureReleases.lean ====
section
/-! SUPPORT. One release by reserve pressure (R128, R137 to R139): what it passes on and frees, what it leaves of every record and of
the volume, how the reserveOver flag falls, and its notices. -/

namespace Sys2Proof.Machine

/-! ### The reserveOver flag (R138) -/

/-- RESERVE_OVER of a volume as it stands. -/
def reserveNotice (v : Nat) (standing : Bool) (s : State) : Notice :=
  ⟨.volume v, .reserveOver standing (volume s v).heldTotal (volume s v).reserveLimit (pinnedOrKept s v) (now s)⟩

theorem reserveNotice_congr {s t : State} {v : Nat} (hv : volume t v = volume s v) (hp : pinnedOrKept t v = pinnedOrKept s v)
    (hn : now t = now s) (b : Bool) : reserveNotice v b t = reserveNotice v b s := by
  unfold reserveNotice
  rw [hv, hp, hn]

theorem withinReserve_congr {s t : State} {v : Nat} (hv : volume t v = volume s v) : withinReserve t v = withinReserve s v := by
  unfold withinReserve
  rw [hv]

theorem reserveFlag_setReserve (v : Nat) (s : State) : reserveFlag (setReserve v s) v = true := by
  have hover : (setReserve v s).sc.reserveOver = setAdd v s.sc.reserveOver :=
    (notifyReserve_frame v true { s with sc := { s.sc with reserveOver := setAdd v s.sc.reserveOver } }).same .reserveOver
      (by decide)
  unfold reserveFlag
  rw [hover, List.contains_iff_mem]
  exact (mem_setAdd _ _ _).2 (.inl rfl)

theorem overWrite_silent (l : List Nat) (s : State) : Noticed [] s { s with sc := { s.sc with reserveOver := l } } :=
  Noticed.nil rfl

theorem clearReserve_noticed (v : Nat) (s : State) : Noticed [reserveNotice v false s] s (clearReserve v s) :=
  (overWrite_silent _ s).silent_trans (notify_noticed _ _ _)

theorem setReserve_noticed (v : Nat) (s : State) : Noticed [reserveNotice v true s] s (setReserve v s) :=
  (overWrite_silent _ s).silent_trans (notify_noticed _ _ _)

theorem reserveFlag_testReserveFall (v : Nat) (s : State) :
    reserveFlag (testReserveFall v s) v = (reserveFlag s v && !withinReserve s v) := by
  unfold testReserveFall
  cases hf : reserveFlag s v <;> cases hw : withinReserve s v
  · exact hf
  · exact hf
  · exact hf
  · exact reserveFlag_clearReserve v s

theorem testReserveFall_noticed (v : Nat) (s : State) :
    Noticed (if reserveFlag s v && withinReserve s v then [reserveNotice v false s] else []) s (testReserveFall v s) := by
  unfold testReserveFall
  split
  · exact clearReserve_noticed v s
  · exact Noticed.refl s

/-! ### The writes of a release (R128, R130) -/

theorem holdTotal_cons (h : Hold) (l : List Hold) : holdTotal (h :: l) = h.blocks + holdTotal l := rfl

/-- A release passes on or frees every block of the hold list. -/
theorem cascadeAmounts_total (older : Option (Nat × Snap)) (l : List Hold) :
    (cascadeAmounts older l).passed + (cascadeAmounts older l).freed = holdTotal l := by
  cases older with
  | none => exact Nat.zero_add _
  | some p =>
    change holdTotal (l.filter fun h => h.birth ≤ p.2.epoch) + holdTotal (l.filter fun h => !decide (h.birth ≤ p.2.epoch)) = _
    induction l with
    | nil => rfl
    | cons h r ih =>
      by_cases hb : h.birth ≤ p.2.epoch
      · rw [List.filter_cons_of_pos (by simpa using hb), List.filter_cons_of_neg (by simpa using hb), holdTotal_cons,
          holdTotal_cons, ← ih, Nat.add_assoc]
      · rw [List.filter_cons_of_neg (by simpa using hb), List.filter_cons_of_pos (by simpa using hb), holdTotal_cons,
          holdTotal_cons, ← ih, Nat.add_left_comm]

/-- What the release of a record passes on and frees. -/
def amountsOf (s : State) (id : Nat) (x : Snap) : Released := cascadeAmounts (olderHolder s id x) x.holds

/-- The state in which a release hands over its DROP_SNAP. -/
def holdsPassed (id : Nat) (x : Snap) (s : State) : State :=
  setSnap id { x with holds := [], state := .dropping, inFlight := none }
    (lowerHeld x.volume (amountsOf s id x).freed (passHolds (olderHolder s id x) x.holds s))

/-- The state in which a release tests the reserveOver flag. -/
def dropping (id : Nat) (x : Snap) (s : State) : State := handDrop id (holdsPassed id x s)

theorem cascade_eq (id : Nat) (x : Snap) (s : State) : cascade id x false s =
    (if 0 < (amountsOf s id x).freed then testReserveFall x.volume (dropping id x s) else dropping id x s, amountsOf s id x) := rfl

theorem dropping_frame (id : Nat) (x : Snap) (s : State) : Frame [.snaps, .volumes, .links] s (dropping id x s) :=
  (handDrop_frame _ _).after (by decide) ((setSnap_frame _ _ _).after (by decide)
    ((setVolume_frame _ _ _).after (by decide) ((passHolds_frame _ _ s).into (by decide))))

theorem passHolds_silent (o : Option (Nat × Snap)) (l : List Hold) (s : State) : Noticed [] s (passHolds o l s) := by
  cases o
  · exact Noticed.refl s
  · exact setSnap_silent _ _ s

theorem dropping_silent (id : Nat) (x : Snap) (s : State) : Noticed [] s (dropping id x s) :=
  (passHolds_silent _ _ s).trans ((setVolume_silent _ _ _).trans ((setSnap_silent _ _ _).trans (handDrop_silent _ _)))

theorem volume_dropping (id : Nat) (x : Snap) (s : State) (j : Nat) : volume (dropping id x s) j =
    if x.volume = j then { volume s j with heldTotal := (volume s j).heldTotal - (amountsOf s id x).freed } else volume s j := by
  have hpassed (k : Nat) : volume (passHolds (olderHolder s id x) x.holds s) k = volume s k := (passHolds_frame _ _ s).volume (v := k)
  rw [dropping, (handDrop_frame _ _).volume, holdsPassed, (setSnap_frame _ _ _).volume, lowerHeld, volume_setVolume, hpassed, hpassed]
  split
  · rename_i hj; rw [hj]
  · rfl

theorem handDrop_relisted {s : State} (hs : tsorted s.sc.records = true) (id : Nat) : Relisted s (handDrop id s) := by
  obtain ⟨heq, -⟩ | ⟨y, hy, -, -, heq⟩ := handDrop_cases id s
  · rw [heq]
    exact .refl hs
  · rw [heq]
    have hissue : Relisted s (issue (volume s y.volume).server (.dropSnap y.volume id y.epoch) s).1 := .of_same hs rfl
    exact hissue.trans (setSnap_relisted hissue.sorted hy ⟨rfl, rfl, rfl, rfl⟩)

section

variable {s : State} (hs : tsorted s.sc.records = true) {id : Nat} {x : Snap} (hx : snap s id = some x)
include hs hx

theorem holdsPassed_relisted : Relisted s (holdsPassed id x s) := by
  have hpass : Relisted s (passHolds (olderHolder s id x) x.holds s) := by
    cases hp : olderHolder s id x with
    | none => exact .refl hs
    | some p => exact setSnap_relisted hs (olderHolder_some hs hp).1 ⟨rfl, rfl, rfl, rfl⟩
  have hown := (passHolds_snap hs (id := id) (x := x) x.holds).2.trans hx
  have hlower : Relisted s (lowerHeld x.volume (amountsOf s id x).freed (passHolds (olderHolder s id x) x.holds s)) :=
    hpass.trans (.of_same hpass.sorted rfl)
  exact hlower.trans (setSnap_relisted hlower.sorted hown ⟨rfl, rfl, rfl, rfl⟩)

theorem dropping_relisted : Relisted s (dropping id x s) :=
  (holdsPassed_relisted hs hx).trans (handDrop_relisted (holdsPassed_relisted hs hx).sorted id)

omit hx in
/-- Holds pass only to a record older than the one released. -/
theorem snap_dropping_of_newer {j : Nat} (hj : j ≠ id) {y : Snap} (hy : snap s j = some y) (he : x.epoch ≤ y.epoch) :
    snap (dropping id x s) j = some y := by
  rw [dropping, (handDrop_snap id _).1 j hj, holdsPassed, snap_setSnap, if_neg (Ne.symm hj)]
  change snap (passHolds (olderHolder s id x) x.holds s) j = some y
  cases hp : olderHolder s id x with
  | none => exact hy
  | some p =>
    obtain ⟨hm, hpred⟩ := List.mem_filter.1 (List.mem_of_getLast? hp)
    have hpsnap := ((mem_volumeSnaps hs).1 hm).1
    simp only [Bool.and_eq_true, decide_eq_true_eq] at hpred
    change snap (setSnap p.1 _ s) j = some y
    rw [snap_setSnap, if_neg, hy]
    rintro rfl
    rw [hy] at hpsnap
    cases hpsnap
    exact absurd hpred.2 (Nat.not_lt.2 he)

end

/-! ### A release by pressure (R137) -/

/-- A release, as a pressure test lists it. -/
def releaseOf (s : State) (id : Nat) (x : Snap) : PressureRelease :=
  { id := id, passed := (amountsOf s id x).passed, freed := (amountsOf s id x).freed,
    held := (volume s x.volume).heldTotal - (amountsOf s id x).freed }

/-- SNAP_RELEASED of a release by pressure (R139). -/
def pressureNotice (x : Snap) (time : Nat) (r : PressureRelease) : Notice :=
  ⟨.snapshot r.id, .snapReleased r.id x.volume x.epoch x.kind .pressure r.passed r.freed r.held time⟩

/-- What a release by pressure leaves. -/
structure PressureStep (id : Nat) (x : Snap) (s t : State) : Prop where
  relisted : Relisted s t
  own : ∃ f, snap t id = some (x.dropped f)
  others : ∀ j, j ≠ id → ∀ y, snap s j = some y → ∃ z, snap t j = some z ∧ y.Passed z ∧ (x.epoch ≤ y.epoch → z = y)
  volume : Machine.volume t x.volume = { Machine.volume s x.volume with heldTotal := (releaseOf s id x).held }
  volumes : ∀ j, j ≠ x.volume → Machine.volume t j = Machine.volume s j
  time : now t = now s
  flag : reserveFlag t x.volume = (reserveFlag s x.volume && !withinReserve t x.volume)
  notices : Noticed ((if reserveFlag s x.volume && withinReserve t x.volume then [reserveNotice x.volume false t] else [])
    ++ [pressureNotice x (now s) (releaseOf s id x)]) s t

/-- Above the limit, the flag is tested by a release as if it always were. -/
theorem cascade_of_over {id : Nat} {x : Snap} {s : State} (h : withinReserve s x.volume = false) :
    (cascade id x false s).1 = testReserveFall x.volume (dropping id x s) := by
  rw [cascade_eq]
  dsimp only
  split
  · rfl
  · rename_i hfreed
    have hvol : volume (dropping id x s) x.volume = volume s x.volume := by
      rw [volume_dropping, if_pos rfl, Nat.eq_zero_of_not_pos hfreed]
      rfl
    rw [testReserveFall, withinReserve_congr hvol, h, Bool.and_false]
    rfl

theorem releaseSnap_step {s : State} (hs : tsorted s.sc.records = true) {id : Nat} {x : Snap} (hx : snap s id = some x)
    (hover : withinReserve s x.volume = false) : PressureStep id x s (releaseSnap .pressure id s).1 := by
  let d := dropping id x s
  let c := testReserveFall x.volume d
  have hcascade := cascade_of_over (id := id) hover
  have heq : (releaseSnap .pressure id s).1 = notify (.snapshot id) (.snapReleased id x.volume x.epoch x.kind .pressure
      (amountsOf s id x).passed (amountsOf s id x).freed (volume c x.volume).heldTotal (now s)) c := by
    rw [releaseSnap, hx]
    dsimp only
    rw [hcascade]
    rfl
  obtain ⟨hrel, hown⟩ := releaseSnap_snap hs .pressure id
  have hfall : Frame (.reserveOver :: raiseParts) d c := testReserveFall_frame _ _
  have hnotify : Frame raiseParts c (releaseSnap .pressure id s).1 := by rw [heq]; exact notify_frame _ _ _
  have hafter : Frame (.reserveOver :: raiseParts) d (releaseSnap .pressure id s).1 := hnotify.after (by decide) hfall
  have hsnap (j : Nat) : snap (releaseSnap .pressure id s).1 j = snap d j := hafter.snap j
  have hvolume (j : Nat) : volume (releaseSnap .pressure id s).1 j = volume d j := hafter.volume (v := j)
  have hvol : volume d x.volume = { volume s x.volume with heldTotal := (releaseOf s id x).held } := by
    rw [volume_dropping, if_pos rfl]
    rfl
  have hdropped := dropping_relisted hs hx
  have hrelisted : Relisted s (releaseSnap .pressure id s).1 :=
    hdropped.trans (.of_same hdropped.sorted (hafter.same .snaps (by decide)))
  have hpinned := hrelisted.pinnedOrKept hs x.volume
  have htime : now (releaseSnap .pressure id s).1 = now d := hafter.now
  have hnote : reserveNotice x.volume false d = reserveNotice x.volume false (releaseSnap .pressure id s).1 :=
    (reserveNotice_congr (hvolume _) (hpinned.trans (hdropped.pinnedOrKept hs x.volume).symm) htime false).symm
  have hflag : reserveFlag d x.volume = reserveFlag s x.volume := by
    unfold reserveFlag
    rw [show d.sc.reserveOver = s.sc.reserveOver from (dropping_frame id x s).same .reserveOver (by decide)]
  refine ⟨hrelisted, hown x hx, fun j hj y hy => ?_, (hvolume _).trans hvol, fun j hj => ?_,
    htime.trans (dropping_frame id x s).now, ?_, ?_⟩
  · obtain ⟨z, hz, hpassed⟩ := hrel.others j hj y hy
    refine ⟨z, hz, hpassed, fun he => ?_⟩
    rw [hsnap, snap_dropping_of_newer hs hj hy he] at hz
    exact (Option.some.inj hz).symm
  · rw [hvolume, volume_dropping, if_neg (Ne.symm hj)]
  · have hkept : reserveFlag (releaseSnap .pressure id s).1 x.volume = reserveFlag c x.volume := by
      unfold reserveFlag
      rw [show (releaseSnap .pressure id s).1.sc.reserveOver = c.sc.reserveOver from hnotify.same .reserveOver (by decide)]
    rw [hkept, reserveFlag_testReserveFall, hflag, withinReserve_congr (hvolume _)]
  · have hheld : (volume c x.volume).heldTotal = (releaseOf s id x).held := by rw [hfall.volume, hvol]
    have hfallen := testReserveFall_noticed x.volume d
    rw [hflag, hnote, ← withinReserve_congr (hvolume x.volume)] at hfallen
    have hlast : Noticed [pressureNotice x (now s) (releaseOf s id x)] c (releaseSnap .pressure id s).1 := by
      rw [heq, hheld]
      exact notify_noticed _ _ _
    exact ((dropping_silent id x s).silent_trans hfallen).trans hlast

end Sys2Proof.Machine
end

