-- ==== Sys2Proof/Proofs/PressureTests.lean ====
section
/-! SUPPORT. The pressure test of a volume (R137 to R139): its releases one after another, the notices they raise, and the
reserveOver flag decided at the end. -/

namespace Sys2Proof.Machine

/-! ### The releases so far -/

/-- The need for a release after others: the holds lay above the limit (R137). -/
def NeededAfter (s : State) (v : Nat) (pre : List PressureRelease) (r : PressureRelease) : Prop :=
  (volume s v).reserveLimit ≠ 0 ∧ (volume s v).reserveLimit < heldAfter s v pre ∧ r.held = heldAfter s v pre - r.freed

/-- What a release after others has made of its record's holds (R128). -/
def CascadedAfter (s : State) (v : Nat) (pre : List PressureRelease) (r : PressureRelease) : Prop :=
  ∀ x, snap s r.id = some x → r.passed + r.freed = holdTotal x.holds
    ∧ ∀ older : Nat → Snap → Prop, (∀ o y, older o y ↔ snap s o = some y ∧ y.volume = v ∧ y.holder = true
        ∧ y.epoch < x.epoch ∧ o ∉ pre.map PressureRelease.id) →
      ((∀ o y, ¬older o y) → r.passed = 0)
      ∧ ∀ o y, older o y → (∀ k z, older k z → k ≠ o → z.epoch < y.epoch) →
          r.passed = holdTotal (x.holds.filter fun e => e.birth ≤ y.epoch)

/-- SNAP_RELEASED for a release, told by the record as it was before the test. -/
def releasedNotice (s : State) (v : Nat) (r : PressureRelease) : Option Notice := (snap s r.id).map fun x =>
  ⟨.snapshot r.id, .snapReleased r.id v x.epoch x.kind .pressure r.passed r.freed r.held (now s)⟩

/-- The notices of some releases, the last of which has left `u`. -/
def releasedNotices (v : Nat) (rel : List PressureRelease) (s u : State) : List Notice :=
  rel.dropLast.filterMap (releasedNotice s v)
    ++ (if !rel.isEmpty && reserveFlag s v && withinReserve u v then [reserveNotice v false u] else [])
    ++ rel.getLast?.toList.filterMap (releasedNotice s v)

/-- A pressure test of `v` begun in `s` has made some releases and stands in `u`. -/
structure Pressing (v : Nat) (rel : List PressureRelease) (s u : State) : Prop where
  relisted : Relisted s u
  waiting : ∃ done, releasables s v = done ++ releasables u v ∧ done.map Prod.fst = rel.map PressureRelease.id
  records : ∀ id x, snap s id = some x → ∃ y, snap u id = some y
    ∧ if id ∈ rel.map PressureRelease.id then ∃ f, y = x.dropped f else x.Passed y
  volume : Machine.volume u v = { Machine.volume s v with heldTotal := heldAfter s v rel }
  volumes : ∀ j, j ≠ v → Machine.volume u j = Machine.volume s j
  time : now u = now s
  needed : ∀ pre r post, rel = pre ++ r :: post → NeededAfter s v pre r
  blocks : ∀ pre r post, rel = pre ++ r :: post → CascadedAfter s v pre r
  flag : reserveFlag u v = (reserveFlag s v && (rel.isEmpty || !withinReserve u v))
  notices : Noticed (releasedNotices v rel s u) s u

theorem mem_releasables {s : State} (hs : tsorted s.sc.records = true) {v : Nat} {e : Nat × Snap} :
    e ∈ releasables s v ↔ snap s e.1 = some e.2 ∧ e.2.volume = v ∧ e.2.releasable = true := by
  rw [releasables, List.mem_filter, mem_volumeSnaps hs, and_assoc]

theorem Pressing.nil {s : State} (hs : tsorted s.sc.records = true) (v : Nat) : Pressing v [] s s where
  relisted := .refl hs
  waiting := ⟨[], rfl, rfl⟩
  records _ x hx := ⟨x, hx, .refl x⟩
  volume := rfl
  volumes _ _ := rfl
  time := rfl
  needed pre _ _ h := absurd h.symm (List.append_ne_nil_of_right_ne_nil pre (List.cons_ne_nil _ _))
  blocks pre _ _ h := absurd h.symm (List.append_ne_nil_of_right_ne_nil pre (List.cons_ne_nil _ _))
  flag := (Bool.and_true _).symm
  notices := Noticed.refl s

/-! ### One more release -/

theorem Snap.Passed.releasable {x y : Snap} (h : x.Passed y) : y.releasable = x.releasable := by
  obtain ⟨_, rfl, -⟩ := h
  rfl

theorem Snap.Passed.holder {x y : Snap} (h : x.Passed y) : y.holder = x.holder := by
  obtain ⟨_, rfl, -⟩ := h
  rfl

theorem Snap.Passed.listed {x y : Snap} (h : x.Passed y) : y.volume = x.volume ∧ y.epoch = x.epoch := by
  obtain ⟨_, rfl, -⟩ := h
  exact ⟨rfl, rfl⟩

/-- A released record stands as the release left it. -/
theorem Snap.Passed.of_dropped {x y : Snap} {f : Option Nat} (h : (x.dropped f).Passed y) : y = x.dropped f := by
  obtain ⟨k, rfl, hk⟩ := h
  rw [hk rfl]

/-- After the release of the oldest, the rest can still be released, and nothing else. -/
theorem PressureStep.releasables {e : Nat × Snap} {rest : List (Nat × Snap)} {s t : State} (h : PressureStep e.1 e.2 s t)
    (hs : tsorted s.sc.records = true) {v : Nat} (hl : Machine.releasables s v = e :: rest) :
    Machine.releasables t v = rest := by
  have hsublist : (e :: rest).Sublist (volumeSnaps s v) := hl ▸ List.filter_sublist
  obtain ⟨holdest, -⟩ := List.pairwise_cons.1 ((volumeSnaps_ordered s v).sublist hsublist)
  have hnodup := (volumeSnaps_nodup hs v).sublist (hsublist.map Prod.fst)
  rw [List.map_cons, List.nodup_cons] at hnodup
  have hne : ∀ a ∈ rest, a.1 ≠ e.1 := fun a ha hae => hnodup.1 (hae ▸ List.mem_map_of_mem ha)
  have hnow : ∀ a ∈ volumeSnaps s v, (nowAt t a).2.releasable = (a.2.releasable && decide (a.1 ≠ e.1)) := fun a ha => by
    have hsnap := ((mem_volumeSnaps hs).1 ha).1
    by_cases hae : a.1 = e.1
    · obtain ⟨f, hf⟩ := h.own
      rw [nowAt, hae, hf, decide_eq_false (not_not.2 rfl), Bool.and_false]
      rfl
    · obtain ⟨z, hz, hpassed, -⟩ := h.others a.1 hae a.2 hsnap
      rw [nowAt, hz, decide_eq_true hae, Bool.and_true]
      exact hpassed.releasable
  have hstays : ∀ a ∈ rest, nowAt t a = a := fun a ha => by
    have hsnap := ((mem_volumeSnaps hs).1 (hsublist.subset (List.mem_cons_of_mem _ ha))).1
    obtain ⟨z, hz, -, hexact⟩ := h.others a.1 (hne a ha) a.2 hsnap
    rw [nowAt, hz, hexact (holdest a ha)]
    rfl
  calc Machine.releasables t v
      = ((volumeSnaps s v).filter fun a => (nowAt t a).2.releasable).map (nowAt t) := by
        rw [Machine.releasables, h.relisted.volumeSnaps hs, List.filter_map]
        rfl
    _ = ((Machine.releasables s v).filter fun a => decide (a.1 ≠ e.1)).map (nowAt t) := by
        rw [List.filter_congr hnow, Machine.releasables, List.filter_filter]
        simp only [Bool.and_comm]
    _ = rest.map (nowAt t) := by
        rw [hl, List.filter_cons_of_neg (by simp), List.filter_eq_self.2 fun a ha => decide_eq_true (hne a ha)]
    _ = rest := (List.map_congr_left hstays).trans (List.map_id' rest)

/-- The next older holder, among the records that earlier releases have left, is the one that R128 names. -/
theorem Pressing.cascaded {v : Nat} {rel : List PressureRelease} {s u : State} (h : Pressing v rel s u) {id : Nat} {x : Snap}
    (hx : snap s id = some x) (hxu : snap u id = some x) (hv : x.volume = v) :
    CascadedAfter s v rel (releaseOf u id x) := by
  intro y hy
  rw [show (releaseOf u id x).id = id from rfl, hx] at hy
  cases hy
  refine ⟨cascadeAmounts_total _ _, fun older holder => ?_⟩
  -- A record is an older holder before the test, and not released since, when it is one now.
  have hnow : ∀ o y, older o y → ∃ z, (o, z) ∈ volumeSnaps u x.volume ∧ z.epoch = y.epoch
      ∧ (z.holder && decide (o ≠ id) && decide (z.epoch < x.epoch)) = true := fun o y hoy => by
    obtain ⟨hsnap, hvol, hhold, hlt, hnot⟩ := (holder o y).1 hoy
    obtain ⟨z, hz, hcase⟩ := h.records o y hsnap
    rw [if_neg hnot] at hcase
    obtain ⟨hzv, hze⟩ := hcase.listed
    have hne : o ≠ id := by
      rintro rfl
      rw [hx] at hsnap
      cases hsnap
      exact Nat.lt_irrefl _ hlt
    refine ⟨z, (mem_volumeSnaps h.relisted.sorted).2 ⟨hz, hzv.trans (hvol.trans hv.symm)⟩, hze, ?_⟩
    rw [hcase.holder, hhold, hze]
    simp [hne, hlt]
  unfold releaseOf amountsOf
  dsimp only
  cases hp : olderHolder u id x with
  | none =>
    have hno := eq_nil_of_getLast?_filter hp
    refine ⟨fun _ => rfl, fun o y hoy => ?_⟩
    obtain ⟨z, hmem, -, htrue⟩ := hnow o y hoy
    have := hno _ hmem
    dsimp only at this
    rw [htrue] at this
    cases this
  | some p =>
    obtain ⟨hmem, hpred, hnewest⟩ := getLast?_filter_ordered (volumeSnaps_ordered u x.volume) hp
    simp only [Bool.and_eq_true, decide_eq_true_eq] at hpred
    obtain ⟨⟨hhold, -⟩, hlt⟩ := hpred
    obtain ⟨hpu, hpv⟩ := (mem_volumeSnaps h.relisted.sorted).1 hmem
    obtain ⟨y, hy⟩ := h.relisted.held hpu
    obtain ⟨z, hz, hcase⟩ := h.records p.1 y hy
    rw [hpu] at hz
    cases hz
    have hnot : p.1 ∉ rel.map PressureRelease.id := fun hin => by
      rw [if_pos hin] at hcase
      obtain ⟨f, hf⟩ := hcase
      rw [hf] at hhold
      cases hhold
    rw [if_neg hnot] at hcase
    obtain ⟨hyv, hye⟩ := hcase.listed
    have hpolder : older p.1 y := (holder p.1 y).2
      ⟨hy, hyv.symm.trans (hpv.trans hv), hcase.holder.symm.trans hhold, hye ▸ hlt, hnot⟩
    refine ⟨fun hnone => absurd hpolder (hnone _ _), fun o w how hstrict => ?_⟩
    obtain ⟨z, hzmem, hze, hztrue⟩ := hnow o w how
    have hle := hnewest _ hzmem hztrue
    have hpo : p.1 = o := not_not.1 fun hne => absurd (hstrict p.1 y hpolder hne) (by rw [← hye, ← hze]; exact Nat.not_lt.2 hle)
    subst hpo
    have hwy : w = y := by
      have := ((holder _ _).1 how).1
      rw [hy] at this
      exact (Option.some.inj this).symm
    change holdTotal (x.holds.filter fun e => e.birth ≤ p.2.epoch) = _
    rw [hwy, hye]

theorem heldAfter_concat (s : State) (v : Nat) (rel : List PressureRelease) (r : PressureRelease) :
    heldAfter s v (rel ++ [r]) = r.held := by
  rw [heldAfter, List.getLast?_append]
  rfl

theorem dropLast_append_getLast? {α : Type} (l : List α) : l.dropLast ++ l.getLast?.toList = l := by
  cases l using List.reverseRecOn with
  | nil => rfl
  | append_singleton l x => simp

theorem releasedNotices_concat {s u w : State} {v : Nat} {rel : List PressureRelease} (r : PressureRelease)
    (hw : withinReserve u v = false) : releasedNotices v (rel ++ [r]) s w = releasedNotices v rel s u
      ++ ((if reserveFlag s v && withinReserve w v then [reserveNotice v false w] else [])
        ++ (releasedNotice s v r).toList) := by
  have hall : releasedNotices v rel s u = rel.filterMap (releasedNotice s v) := by
    rw [releasedNotices, hw, Bool.and_false, if_neg Bool.false_ne_true, List.append_nil, ← List.filterMap_append,
      dropLast_append_getLast?]
  have hlast : ((rel ++ [r]).getLast?.toList.filterMap (releasedNotice s v)) = (releasedNotice s v r).toList := by
    rw [List.getLast?_append]
    change [r].filterMap _ = _
    cases hr : releasedNotice s v r <;> simp [hr]
  rw [hall, releasedNotices, hlast, List.dropLast_concat]
  simp

theorem Pressing.step {v : Nat} {rel : List PressureRelease} {s u : State} (h : Pressing v rel s u)
    (hs : tsorted s.sc.records = true) (hover : withinReserve u v = false) {e : Nat × Snap} {rest : List (Nat × Snap)}
    (hl : releasables u v = e :: rest) :
    Pressing v (rel ++ [releaseOf u e.1 e.2]) s (releaseSnap .pressure e.1 u).1 := by
  obtain ⟨done, hdone, hids⟩ := h.waiting
  obtain ⟨hxu, hv, -⟩ := (mem_releasables h.relisted.sorted).1 (hl ▸ List.mem_cons_self : e ∈ releasables u v)
  obtain ⟨hx, -, -⟩ := (mem_releasables hs).1 (hdone ▸ List.mem_append_right _ (hl ▸ List.mem_cons_self) : e ∈ releasables s v)
  obtain ⟨id, x⟩ := e
  dsimp only at hxu hx hv ⊢
  subst hv
  have hstep := releaseSnap_step h.relisted.sorted hxu hover
  generalize (releaseSnap .pressure id u).1 = w at hstep ⊢
  have hflag : reserveFlag u x.volume = reserveFlag s x.volume := by rw [h.flag, hover, Bool.not_false, Bool.or_true, Bool.and_true]
  have hlimit : (Machine.volume u x.volume).reserveLimit = (Machine.volume s x.volume).reserveLimit := by rw [h.volume]
  have hheld : (Machine.volume u x.volume).heldTotal = heldAfter s x.volume rel := by rw [h.volume]
  have hneeded : NeededAfter s x.volume rel (releaseOf u id x) := by
    simp only [withinReserve, Bool.or_eq_false_iff, decide_eq_false_iff_not, hlimit, hheld] at hover
    exact ⟨hover.1, Nat.lt_of_not_le hover.2, congrArg (· - (amountsOf u id x).freed) hheld⟩
  refine ⟨h.relisted.trans hstep.relisted, ⟨done ++ [(id, x)], ?_, ?_⟩, fun j y hy => ?_, ?_, fun j hj => ?_,
    hstep.time.trans h.time, fun pre r post hsplit => ?_, fun pre r post hsplit => ?_, ?_, ?_⟩
  · rw [hdone, hl, hstep.releasables h.relisted.sorted hl, List.append_assoc]
    rfl
  · rw [List.map_append, hids, List.map_append]
    rfl
  · rw [List.map_append]
    by_cases hj : j = id
    · subst hj
      rw [hx] at hy
      cases hy
      obtain ⟨f, hf⟩ := hstep.own
      have hin : j ∈ rel.map PressureRelease.id ++ [releaseOf u j x].map PressureRelease.id :=
        List.mem_append_right _ (List.mem_singleton.2 rfl)
      exact ⟨_, hf, by rw [if_pos hin]; exact ⟨f, rfl⟩⟩
    · obtain ⟨z, hz, hcase⟩ := h.records j y hy
      obtain ⟨w', hw', hpassed, -⟩ := hstep.others j hj z hz
      refine ⟨w', hw', ?_⟩
      have hmem : j ∈ rel.map PressureRelease.id ++ [releaseOf u id x].map PressureRelease.id
          ↔ j ∈ rel.map PressureRelease.id := by
        rw [List.mem_append]
        exact or_iff_left fun hin => hj (List.mem_singleton.1 hin)
      rw [if_congr hmem rfl rfl]
      split
      · rename_i hin
        rw [if_pos hin] at hcase
        obtain ⟨f, rfl⟩ := hcase
        exact ⟨f, hpassed.of_dropped⟩
      · rename_i hin
        rw [if_neg hin] at hcase
        exact hcase.trans hpassed
  · rw [hstep.volume, heldAfter_concat, h.volume]
  · exact (hstep.volumes j hj).trans (h.volumes j hj)
  · rcases split_concat hsplit with ⟨rfl, rfl⟩ | ⟨more, hmore⟩
    · exact hneeded
    · exact h.needed pre r more hmore
  · rcases split_concat hsplit with ⟨rfl, rfl⟩ | ⟨more, hmore⟩
    · exact h.cascaded hx hxu rfl
    · exact h.blocks pre r more hmore
  · have hnonempty : (rel ++ [releaseOf u id x]).isEmpty = false := by cases rel <;> rfl
    rw [hstep.flag, hflag, hnonempty]
    rfl
  · have hnotice : releasedNotice s x.volume (releaseOf u id x) = some (pressureNotice x (now u) (releaseOf u id x)) := by
      rw [releasedNotice, show (releaseOf u id x).id = id from rfl, hx, h.time]
      rfl
    have hmore := hstep.notices
    rw [hflag] at hmore
    rw [releasedNotices_concat _ hover, hnotice]
    exact h.notices.trans hmore

/-! ### The whole test -/

theorem pressureLoop_of_within {v : Nat} {s : State} (h : withinReserve s v = true) (fuel : Nat) : pressureLoop v fuel s = s := by
  cases fuel with
  | zero => rfl
  | succ n => rw [pressureLoop, if_pos h]

/-- The loop ends within the limit or with nothing left to release. -/
theorem Pressing.loop {v : Nat} {s : State} (hs : tsorted s.sc.records = true) (fuel : Nat) {rel : List PressureRelease} {u : State}
    (h : Pressing v rel s u) (hfuel : (releasables u v).length ≤ fuel) : ∃ rel', Pressing v rel' s (pressureLoop v fuel u)
      ∧ (withinReserve (pressureLoop v fuel u) v = true ∨ releasables (pressureLoop v fuel u) v = []) := by
  induction fuel generalizing rel u with
  | zero => exact ⟨rel, h, .inr (List.length_eq_zero_iff.1 (Nat.le_zero.1 hfuel))⟩
  | succ n ih =>
    cases hw : withinReserve u v with
    | true =>
      rw [pressureLoop_of_within hw]
      exact ⟨rel, h, .inl hw⟩
    | false =>
      rw [pressureLoop, hw, if_neg Bool.false_ne_true]
      split
      · rename_i hnil
        exact ⟨rel, h, .inr hnil⟩
      · rename_i e rest hl
        have hl : releasables u v = e :: rest := hl
        have hrest : releasables (releaseSnap .pressure e.1 u).1 v = rest := by
          obtain ⟨hxu, hv, -⟩ := (mem_releasables h.relisted.sorted).1 (hl ▸ List.mem_cons_self : e ∈ releasables u v)
          exact (releaseSnap_step h.relisted.sorted hxu (hv ▸ hw)).releasables h.relisted.sorted hl
        refine ih (h.step hs hw hl) ?_
        have hlen : (e :: rest).length ≤ n + 1 := hl ▸ hfuel
        rw [hrest]
        exact Nat.le_of_succ_le_succ hlen

theorem decideReserve_frame (v : Nat) (s : State) : Frame (.reserveOver :: raiseParts) s (decideReserve v s) := by
  unfold decideReserve
  split
  · exact testReserveFall_frame v s
  · split
    · exact Frame.refl _ s
    · exact setReserve_frame v s

/-- At the end of a pressure test the flag stands when and only when the holds are above the limit (R138). -/
theorem reserveFlag_decideReserve (v : Nat) (s : State) : reserveFlag (decideReserve v s) v = !withinReserve s v := by
  unfold decideReserve
  cases hw : withinReserve s v with
  | true =>
    rw [if_pos rfl, reserveFlag_testReserveFall, hw]
    exact Bool.and_false _
  | false =>
    rw [if_neg Bool.false_ne_true]
    split
    · assumption
    · exact reserveFlag_setReserve v s

theorem reserveFlag_pressureTest (v : Nat) (s : State) :
    reserveFlag (pressureTest v s) v = !withinReserve (pressureTest v s) v := by
  rw [pressureTest, reserveFlag_decideReserve, withinReserve_congr ((decideReserve_frame v _).volume (v := v))]

theorem decideReserve_noticed (v : Nat) (s : State) : Noticed ((if reserveFlag s v && withinReserve s v then
    [reserveNotice v false s] else []) ++ (if reserveFlag s v || withinReserve s v then [] else [reserveNotice v true s]))
      s (decideReserve v s) := by
  unfold decideReserve
  cases hw : withinReserve s v with
  | true =>
    have := testReserveFall_noticed v s
    rw [hw] at this
    simpa using this
  | false =>
    cases hf : reserveFlag s v with
    | true => exact Noticed.refl s
    | false => exact setReserve_noticed v s

/-- A pressure test, from the state in which it is made to the one that it leaves. -/
structure PressureTested (v : Nat) (rel : List PressureRelease) (s t : State) : Prop where
  pressured : Pressured v rel s t
  notices : Noticed (pressureNotices v rel s t) s t
  volume : Machine.volume t v = { Machine.volume s v with heldTotal := heldAfter s v rel }
  volumes : ∀ j, j ≠ v → Machine.volume t j = Machine.volume s j

theorem pressureNotices_eq {v : Nat} {rel : List PressureRelease} {s u t : State} (h : Pressing v rel s u)
    (hs : tsorted s.sc.records = true) (hv : volume t v = volume u v) : pressureNotices v rel s t =
      releasedNotices v rel s u ++ ((if reserveFlag u v && withinReserve u v then [reserveNotice v false u] else [])
        ++ (if reserveFlag u v || withinReserve u v then [] else [reserveNotice v true u])) := by
  have hnote (b : Bool) : reserveNotice v b u = ⟨.volume v, .reserveOver b (volume t v).heldTotal (volume s v).reserveLimit
      (pinnedOrKept s v) (now s)⟩ := by
    rw [reserveNotice, hv, h.relisted.pinnedOrKept hs, h.time, h.volume]
  have hwithin : withinReserve t v = withinReserve u v := withinReserve_congr hv
  have hreleased : (fun r : PressureRelease => (snap s r.id).map fun x => (⟨.snapshot r.id, .snapReleased r.id v x.epoch x.kind
      .pressure r.passed r.freed r.held (now s)⟩ : Notice)) = releasedNotice s v := rfl
  unfold pressureNotices releasedNotices
  rw [hwithin, h.flag, hnote false, hnote true, hreleased]
  cases rel with
  | nil => cases reserveFlag s v <;> cases withinReserve u v <;> rfl
  | cons r rest => cases reserveFlag s v <;> cases withinReserve u v <;> simp [pinnedOrKept]

theorem pressureTest_tested {s : State} (hs : tsorted s.sc.records = true) (v : Nat) :
    ∃ rel, PressureTested v rel s (pressureTest v s) := by
  obtain ⟨rel, h, hend⟩ := (Pressing.nil hs v).loop hs (volumeSnaps s v).length (List.length_filter_le _ _)
  have hframe := decideReserve_frame v (pressureLoop v (volumeSnaps s v).length s)
  have hdecided := decideReserve_noticed v (pressureLoop v (volumeSnaps s v).length s)
  rw [← pressureTest] at hframe hdecided
  generalize pressureLoop v (volumeSnaps s v).length s = u at h hend hframe hdecided
  have hvol (j : Nat) : volume (pressureTest v s) j = volume u j := hframe.volume (v := j)
  obtain ⟨done, hdone, hids⟩ := h.waiting
  refine ⟨rel, ?_, ?_, (hvol v).trans h.volume, fun j hj => (hvol j).trans (h.volumes j hj)⟩
  · refine ⟨?_, h.needed, ?_, ?_, fun pre r post x hsplit hx => h.blocks pre r post hsplit x hx, fun r hr => ?_,
      fun id x hx hnot => ?_⟩
    · rw [hdone, List.map_append, hids]
      exact List.prefix_append _ _
    · rw [withinReserve_congr (hvol v)]
      refine hend.imp_right fun hnil => ?_
      rw [hdone, hnil, List.append_nil, ← List.length_map (f := Prod.fst), hids, List.length_map]
    · rw [hvol, h.volume]
      exact ⟨rfl, rfl⟩
    · have hid : r.id ∈ done.map Prod.fst := hids ▸ List.mem_map_of_mem hr
      obtain ⟨e, he, hek⟩ := List.mem_map.1 hid
      obtain ⟨hx, -, -⟩ := (mem_releasables hs).1 (hdone ▸ List.mem_append_left _ he : e ∈ releasables s v)
      obtain ⟨y, hy, hcase⟩ := h.records e.1 e.2 hx
      rw [if_pos (hek ▸ List.mem_map_of_mem hr)] at hcase
      obtain ⟨f, rfl⟩ := hcase
      exact ⟨_, by rw [hframe.snap, ← hek]; exact hy, rfl, rfl⟩
    · obtain ⟨y, hy, hcase⟩ := h.records id x hx
      rw [if_neg hnot] at hcase
      obtain ⟨k, rfl, -⟩ := hcase
      exact ⟨{ x with holds := k }, by rw [hframe.snap]; exact hy, rfl, rfl, rfl⟩
  · rw [pressureNotices_eq h hs (hvol v)]
    exact h.notices.trans hdecided

/-! ### What a pressure test reads -/

/-- A pressure test told from a state, or to a state, with the same records and the same holds and limit. -/
theorem Pressured.congr {v : Nat} {rel : List PressureRelease} {s t s' t' : State} (h : Pressured v rel s t)
    (hs : s'.sc.records = s.sc.records) (ht : t'.sc.records = t.sc.records)
    (hsv : (volume s' v).heldTotal = (volume s v).heldTotal ∧ (volume s' v).reserveLimit = (volume s v).reserveLimit)
    (htv : (volume t' v).heldTotal = (volume t v).heldTotal ∧ (volume t' v).reserveLimit = (volume t v).reserveLimit) :
    Pressured v rel s' t' := by
  have hsnap : ∀ id, snap s' id = snap s id := fun id => by unfold snap; rw [hs]
  have hsnap' : ∀ id, snap t' id = snap t id := fun id => by unfold snap; rw [ht]
  have hheld : ∀ pre, heldAfter s' v pre = heldAfter s v pre := fun pre => by unfold heldAfter; rw [hsv.1]
  have hrel : releasables s' v = releasables s v := by unfold releasables volumeSnaps; rw [hs]
  refine ⟨by rw [hrel]; exact h.oldestFirst, fun pre r post hr => ?_, ?_, ?_, fun pre r post x hr hx => ?_, fun r hr => ?_,
    fun id x hx hnot => ?_⟩
  · rw [hsv.2, hheld]
    exact h.needed pre r post hr
  · have hwithin : withinReserve t' v = withinReserve t v := by unfold withinReserve; rw [htv.1, htv.2]
    rw [hwithin, hrel]
    exact h.enough
  · rw [htv.1, htv.2, hsv.2, hheld]
    exact h.total
  · rw [hsnap] at hx
    simp only [hsnap]
    exact h.blocks pre r post x hr hx
  · rw [hsnap']
    exact h.released r hr
  · rw [hsnap'] at *
    rw [hsnap] at hx
    exact h.kept id x hx hnot

theorem pressureNotices_congr (v : Nat) (rel : List PressureRelease) {s t s' t' : State} (hs : s'.sc.records = s.sc.records)
    (hn : now s' = now s) (hf : reserveFlag s' v = reserveFlag s v)
    (hl : (volume s' v).reserveLimit = (volume s v).reserveLimit)
    (htv : (volume t' v).heldTotal = (volume t v).heldTotal ∧ (volume t' v).reserveLimit = (volume t v).reserveLimit) :
    pressureNotices v rel s' t' = pressureNotices v rel s t := by
  unfold pressureNotices snap withinReserve
  rw [hs, hn, hf, hl, htv.1, htv.2]

end Sys2Proof.Machine
end

