-- ==== Sys2Proof/Proofs/VolumeSettings.lean ====
section
/-! PROOF. SET_VOLUME (O36): the checks and settings of R39, and the pressure test of a changed limit (R40, R137, R138). -/

namespace Sys2Proof.Machine

/-! ### The settings of the request (R11, R39) -/

theorem settingOf_of_present {w : Nat} {x : Setting w} (h : 1 < x.present.toNat) : settingOf x = none := by
  have h1 : x.present ≠ 1 := by rintro h1; rw [h1] at h; exact absurd h (by decide)
  have h0 : x.present ≠ 0 := by rintro h0; rw [h0] at h; exact absurd h (by decide)
  rw [settingOf, yesNo, if_neg h1, if_neg h0]

theorem setVolumeReq_of_present {weight : Setting 8} {limit : Setting 64} {grp nightly : Setting 8} (v : Nat) (s : State)
    (h : 1 < weight.present.toNat ∨ 1 < limit.present.toNat ∨ 1 < grp.present.toNat ∨ 1 < nightly.present.toNat) :
    setVolumeReq v weight limit grp nightly s = (s, refusal .malformed) := by
  unfold setVolumeReq
  split
  · rename_i hw hl hg hn
    rcases h with h | h | h | h
    · rw [settingOf_of_present h] at hw; cases hw
    · rw [settingOf_of_present h] at hl; cases hl
    · rw [settingOf_of_present h] at hg; cases hg
    · rw [settingOf_of_present h] at hn; cases hn
  · rfl

theorem weightInRange_iff (w : Option Nat) : weightInRange w = false ↔ ∃ x ∈ w.toList, x < 16 ∨ 64 < x := by
  cases w with
  | none => simp [weightInRange]
  | some n =>
    rw [← Bool.not_eq_true, weightInRange, Bool.and_eq_true, decide_eq_true_eq, decide_eq_true_eq]
    simp only [Option.toList_some, List.mem_singleton, exists_eq_left]
    omega

theorem atMost_iff (top : Nat) (x : Option Nat) : atMost top x = false ↔ ∃ y ∈ x.toList, top < y := by
  cases x <;> simp [atMost]

theorem changes_iff (x : Option Nat) (current : Nat) : changes x current = true ↔ x.getD current ≠ current := by
  cases x <;> simp [changes]

theorem limitClamps (l : Option Nat) :
    clampedFields [(3, !atMost top40 l)] = if 1099511627775 < l.getD 0 then [3] else [] := by
  cases l with
  | none => rfl
  | some n =>
    rw [atMost, Option.getD_some, ← decide_not]
    by_cases hn : 1099511627775 < n
    · rw [if_pos hn, decide_eq_true (show ¬n ≤ top40 from Nat.not_le.2 hn)]
      rfl
    · rw [if_neg hn, decide_eq_false (not_not.2 (show n ≤ top40 from Nat.not_lt.1 hn))]
      rfl

/-! ### The cases of a request whose settings are read (R39) -/

/-- Check 1 of R39. -/
abbrev SettingsOut (v : Nat) (w g n : Option Nat) : Prop :=
  63 < v ∨ (∃ x ∈ w.toList, x < 16 ∨ 64 < x) ∨ (∃ x ∈ g.toList, 7 < x) ∨ (∃ x ∈ n.toList, 1 < x)

/-- Check 3 of R39. -/
abbrev WeightInUse (v : Nat) (w : Option Nat) (s : State) : Prop :=
  w.getD (volume s v).weight ≠ (volume s v).weight ∧ (hasSnaps s v = true ∨ hasRestore s v = true ∨ namesDup s v = true)

/-- Check 4 of R39. -/
abbrev GroupInUse (v : Nat) (g : Option Nat) (s : State) : Prop :=
  g.getD (volume s v).dupGroup ≠ (volume s v).dupGroup ∧ (dupJob s v).map DupJob.state = some .shipping

/-- The record written, and the pressure test where the limit is another one (R40). -/
def resettled (v : Nat) (r : Volume) (s : State) : State :=
  if r.reserveLimit ≠ (volume s v).reserveLimit then pressureTest v (setVolume v r s) else setVolume v r s

section

variable {v : Nat} {w l g n : Option Nat} {s : State}

theorem applySettings_eq : applySettings v w l g n s =
    if SettingsOut v w g n then (s, refusal .malformed)
    else if (volume s v).state = .unattached then (s, refusal .noSuch)
    else if WeightInUse v w s then (s, refusal .inUse)
    else if GroupInUse v g s then (s, refusal .inUse)
    else (resettled v (withSettings w l g n (volume s v)) s, accept (if 1099511627775 < l.getD 0 then [3] else [])
      (.settings (w.getD (volume s v).weight) (min 1099511627775 (l.getD (volume s v).reserveLimit))
        (g.getD (volume s v).dupGroup) (withSettings w l g n (volume s v)).nightly)) := by
  have hout : SettingsOut v w g n ↔ (63 < v ∨ weightInRange w = false ∨ atMost 7 g = false ∨ atMost 1 n = false) := by
    rw [weightInRange_iff, atMost_iff, atMost_iff]
  have hweight : WeightInUse v w s
      ↔ (changes w (volume s v).weight && (hasSnaps s v || hasRestore s v || namesDup s v)) = true := by
    simp only [Bool.and_eq_true, Bool.or_eq_true, changes_iff, or_assoc]
  have hgroup : GroupInUse v g s
      ↔ (changes g (volume s v).dupGroup && decide ((dupJob s v).map DupJob.state = some .shipping)) = true := by
    rw [Bool.and_eq_true, changes_iff, decide_eq_true_eq]
  rw [if_congr hout rfl rfl, if_congr hweight rfl rfl, if_congr hgroup rfl rfl, ← limitClamps]
  rfl

end

/-! ### The pressure test of a changed limit (R40) -/

/-- The state in which the volume's limit alone is another one. -/
abbrev relimited (v lim : Nat) (s : State) : State := setVolume v { volume s v with reserveLimit := lim } s

theorem resettled_frame (v : Nat) (r : Volume) (s : State) : Frame catalogParts s (resettled v r s) := by
  unfold resettled
  split
  · exact (pressureTest_frame v _).after (by decide) ((setVolume_frame _ _ s).into (by decide))
  · exact (setVolume_frame _ _ s).into (by decide)

section

variable {v : Nat} {r : Volume} {s : State}

theorem resettled_of_same (h : r.reserveLimit = (volume s v).reserveLimit) : resettled v r s = setVolume v r s :=
  if_neg (not_not.2 h)

theorem resettled_of_changed (h : r.reserveLimit ≠ (volume s v).reserveLimit) :
    resettled v r s = pressureTest v (setVolume v r s) := if_pos h

variable (hs : tsorted s.sc.records = true)
include hs

/-- Apart from what it holds, the volume's record is the one written; no other volume's record changes. -/
theorem volume_resettled : (∃ k, volume (resettled v r s) v = { r with heldTotal := k })
    ∧ ∀ j, j ≠ v → volume (resettled v r s) j = volume s j := by
  have hown : volume (setVolume v r s) v = r := by rw [volume_setVolume, if_pos rfl]
  have hother : ∀ j, j ≠ v → volume (setVolume v r s) j = volume s j := fun j hj => by
    rw [volume_setVolume, if_neg (Ne.symm hj)]
  by_cases h : r.reserveLimit = (volume s v).reserveLimit
  · rw [resettled_of_same h]
    exact ⟨⟨r.heldTotal, hown⟩, hother⟩
  · rw [resettled_of_changed h]
    obtain ⟨rel, htested⟩ := pressureTest_tested (s := setVolume v r s) hs v
    exact ⟨⟨_, by rw [htested.volume, hown]⟩, fun j hj => (htested.volumes j hj).trans (hother j hj)⟩

/-- The pressure test of a changed limit, told from the state in which the limit alone is another one. -/
theorem resettled_pressured (h : r.reserveLimit ≠ (volume s v).reserveLimit) (hheld : r.heldTotal = (volume s v).heldTotal) :
    ∃ rel, Pressured v rel (relimited v r.reserveLimit s) (resettled v r s)
      ∧ Noticed (pressureNotices v rel (relimited v r.reserveLimit s) (resettled v r s)) s (resettled v r s) := by
  rw [resettled_of_changed h]
  obtain ⟨rel, htested⟩ := pressureTest_tested (s := setVolume v r s) hs v
  have hvol (r' : Volume) : volume (setVolume v r' s) v = r' := by rw [volume_setVolume, if_pos rfl]
  have hread : (volume (relimited v r.reserveLimit s) v).heldTotal = (volume (setVolume v r s) v).heldTotal
      ∧ (volume (relimited v r.reserveLimit s) v).reserveLimit = (volume (setVolume v r s) v).reserveLimit := by
    rw [hvol, hvol]
    exact ⟨hheld.symm, rfl⟩
  refine ⟨rel, htested.pressured.congr rfl rfl hread ⟨rfl, rfl⟩, ?_⟩
  rw [pressureNotices_congr v rel (s := setVolume v r s) (s' := relimited v r.reserveLimit s)
    (t := pressureTest v (setVolume v r s)) rfl rfl rfl hread.2 ⟨rfl, rfl⟩]
  exact (setVolume_silent v r s).silent_trans htested.notices

omit hs in
/-- With nothing to release, the test only decides the reserveOver flag. -/
theorem decideReserve_of_idle {u : State} (h : releasables u v = []) : pressureTest v u = decideReserve v u := by
  have hloop (fuel : Nat) : pressureLoop v fuel u = u := by
    cases fuel with
    | zero => rfl
    | succ k =>
      rw [pressureLoop]
      split
      · rfl
      · rw [show (volumeSnaps u v).filter (fun e => e.2.releasable) = [] from h]
  rw [pressureTest, hloop]

omit hs in
theorem releasables_nil (h : ∀ e ∈ s.sc.records, e.2.volume = v → e.2.releasable = false) : releasables s v = [] := by
  refine List.filter_eq_nil_iff.2 fun e he => ?_
  obtain ⟨hmem, hv⟩ := List.mem_filter.1 ((mem_sortBy _ _ _).1 he)
  rw [h e hmem (of_decide_eq_true hv)]
  decide

omit hs in
theorem resettled_idle_noticed (h : r.reserveLimit ≠ (volume s v).reserveLimit) (hheld : r.heldTotal = (volume s v).heldTotal)
    (hnone : ∀ e ∈ s.sc.records, e.2.volume = v → e.2.releasable = false) {isOver : Bool}
    (hover : isOver = (decide (r.reserveLimit ≠ 0) && decide (r.reserveLimit < (volume s v).heldTotal))) :
    Noticed (if isOver = reserveFlag s v then [] else [⟨.volume v, .reserveOver isOver (volume s v).heldTotal r.reserveLimit
      (pinnedOrKept s v) (now s)⟩]) s (resettled v r s) := by
  have hvol : volume (setVolume v r s) v = r := by rw [volume_setVolume, if_pos rfl]
  have hnote (b : Bool) : reserveNotice v b (setVolume v r s)
      = ⟨.volume v, .reserveOver b (volume s v).heldTotal r.reserveLimit (pinnedOrKept s v) (now s)⟩ := by
    rw [reserveNotice, hvol, hheld]
    rfl
  have hwithin : withinReserve (setVolume v r s) v = !isOver := by
    simp only [hover, withinReserve, hvol, hheld, Bool.not_and, ← decide_not, not_not, Nat.not_lt]
  have hflag : reserveFlag (setVolume v r s) v = reserveFlag s v := rfl
  have hdecided := decideReserve_noticed v (setVolume v r s)
  rw [hwithin, hflag, hnote, hnote] at hdecided
  rw [resettled_of_changed h, decideReserve_of_idle (u := setVolume v r s) (releasables_nil hnone)]
  refine (setVolume_silent v r s).silent_trans ?_
  cases isOver <;> cases hf : reserveFlag s v <;> rw [hf] at hdecided <;> exact hdecided

end

/-! ### SET_VOLUME -/

theorem setVolumeReq_frame (v : Nat) (weight : Setting 8) (limit : Setting 64) (grp nightly : Setting 8) (s : State) :
    Frame catalogParts s (setVolumeReq v weight limit grp nightly s).1 := by
  unfold setVolumeReq
  split
  · rename_i w l g n _ _ _ _
    have happlied := resettled_frame v (withSettings w l g n (volume s v)) s
    rw [applySettings_eq]
    split
    · exact Frame.refl _ s
    · split
      · exact Frame.refl _ s
      · split
        · exact Frame.refl _ s
        · split
          · exact Frame.refl _ s
          · exact happlied
  · exact Frame.refl _ s

/-- Settles O36: SET_VOLUME is refused by its first check that fails, or writes the settings that are present and tests the
holds against a limit that is another one. -/
theorem setVolume_holds : Obligations.SetVolume := by
  intro h vol weight limit grp nightly s ht htab
  have he : exec (.setVolume h vol weight limit grp nightly) s
      = .next (fixedRequest h 16 (setVolumeReq vol.toNat weight limit grp nightly) s) := rfl
  rw [fixedRequest_takes ht] at he
  refine ⟨_, he, fun hpresent => ?_, ?_, ?_⟩
  · rw [setVolumeReq_of_present vol.toNat _ hpresent]
    exact refused_takes .malformed ht
  · intro w l g n r hw hl hg hn hr
    subst hr
    have hreq : setVolumeReq vol.toNat weight limit grp nightly (mgmtHunt s)
        = applySettings vol.toNat w l g n (mgmtHunt s) := by rw [setVolumeReq, hw, hl, hg, hn]
    rw [hreq, applySettings_eq]
    by_cases hout : SettingsOut vol.toNat w g n
    · rw [if_pos hout, if_pos hout]
      exact refused_takes .malformed ht
    rw [if_neg hout, if_neg hout]
    by_cases hstate : (volume s vol.toNat).state = .unattached
    · rw [if_pos hstate, if_pos (show (volume (mgmtHunt s) vol.toNat).state = .unattached from hstate)]
      exact refused_takes .noSuch ht
    rw [if_neg hstate, if_neg (show ¬(volume (mgmtHunt s) vol.toNat).state = .unattached from hstate)]
    by_cases hweight : WeightInUse vol.toNat w s
    · rw [if_pos hweight, if_pos (show WeightInUse vol.toNat w (mgmtHunt s) from hweight)]
      exact refused_takes .inUse ht
    rw [if_neg hweight, if_neg (show ¬WeightInUse vol.toNat w (mgmtHunt s) from hweight)]
    by_cases hgroup : GroupInUse vol.toNat g s
    · rw [if_pos hgroup, if_pos (show GroupInUse vol.toNat g (mgmtHunt s) from hgroup)]
      exact refused_takes .inUse ht
    rw [if_neg hgroup, if_neg (show ¬GroupInUse vol.toNat g (mgmtHunt s) from hgroup)]
    rintro lim on rfl rfl
    obtain ⟨⟨k, hown⟩, hother⟩ := volume_resettled (s := mgmtHunt s) htab.snaps (v := vol.toNat)
      (r := withSettings w l g n (volume s vol.toNat))
    have hframe := resettled_frame vol.toNat (withSettings w l g n (volume s vol.toNat)) (mgmtHunt s)
    have hanswered := (answered_of_frame (accept (if 1099511627775 < l.getD 0 then [3] else [])
      (.settings (w.getD (volume s vol.toNat).weight) (min 1099511627775 (l.getD (volume s vol.toNat).reserveLimit))
        (g.getD (volume s vol.toNat).dupGroup) (withSettings w l g n (volume s vol.toNat)).nightly)) ht hframe).1
    have hhunt : Noticed [] s (mgmtHunt s) := Noticed.nil rfl
    refine ⟨hanswered, ?_⟩
    simp only [volume_answer, reserveFlag_answer, withinReserve_answer]
    have hread : volume (mgmtHunt s) vol.toNat = volume s vol.toNat := rfl
    rw [hread, hown]
    refine ⟨rfl, rfl, rfl, rfl, rfl, rfl, rfl, rfl, hother, fun hsame => ?_, fun hnew => ?_, fun s1 hnew hs1 => ?_,
      fun isOver holders hnew hidle hover hholders => ?_⟩
    · have hwritten := resettled_of_same (s := mgmtHunt s) (r := withSettings w l g n (volume s vol.toNat)) hsame
      rw [hwritten, volume_setVolume, if_pos rfl] at hown
      have hheld : k = (volume s vol.toNat).heldTotal := (congrArg Volume.heldTotal hown).symm
      rw [hwritten]
      exact ⟨hheld, (answered_of_frame _ ht (setVolume_frame _ _ _)).2⟩
    · rw [resettled_of_changed (s := mgmtHunt s) hnew, reserveFlag_pressureTest]
      exact Bool.not_eq_true' _ ▸ Iff.rfl
    · subst hs1
      obtain ⟨rel, hpressured, hnoticed⟩ := resettled_pressured (s := mgmtHunt s) htab.snaps
        (r := withSettings w l g n (volume s vol.toNat)) hnew rfl
      refine ⟨rel, hpressured.congr rfl (by rw [answer_sc]) ⟨rfl, rfl⟩ (by rw [volume_answer]; exact ⟨rfl, rfl⟩), ?_⟩
      have hvol (r : Reply) (u : State) : (volume (answer h.tag r u) vol.toNat).heldTotal = (volume u vol.toNat).heldTotal
          ∧ (volume (answer h.tag r u) vol.toNat).reserveLimit = (volume u vol.toNat).reserveLimit := by
        rw [volume_answer]
        exact ⟨rfl, rfl⟩
      exact (congrArg (Raises · s _) (pressureNotices_congr vol.toNat rel rfl rfl rfl rfl (hvol _ _))).mpr
        ((hhunt.silent_trans hnoticed).raises_answer _ _)
    · rw [hholders]
      exact (hhunt.silent_trans (resettled_idle_noticed (s := mgmtHunt s) (r := withSettings w l g n (volume s vol.toNat))
        hnew rfl hidle hover)).raises_answer _ _
  · exact (answered_of_frame _ ht (setVolumeReq_frame _ _ _ _ _ _)).2

end Sys2Proof.Machine
end

