-- ==== Sys2Proof/Proofs/RecordHolds.lean ====
section
/-! SUPPORT. What becomes of a FREE's blocks (R62, R125): the hold entry, the pressure test that follows, and what they leave of the
Volume Table; the marking of a record's region (R44). -/

namespace Sys2Proof.Machine

/-! ### Volumes whose holds alone move -/

/-- No volume's record differs but in what the volume holds. -/
def HoldsMoved (s t : State) : Prop := ∀ j, ∃ k, volume t j = { volume s j with heldTotal := k }

theorem HoldsMoved.refl (s : State) : HoldsMoved s s := fun j => ⟨(volume s j).heldTotal, rfl⟩

theorem HoldsMoved.trans {s t u : State} (h1 : HoldsMoved s t) (h2 : HoldsMoved t u) : HoldsMoved s u := fun j => by
  obtain ⟨_, ht⟩ := h1 j
  obtain ⟨l, hu⟩ := h2 j
  exact ⟨l, by rw [hu, ht]⟩

theorem HoldsMoved.of_same {s t : State} (h : ∀ j, volume t j = volume s j) : HoldsMoved s t := fun j =>
  ⟨(volume s j).heldTotal, h j⟩

theorem HoldsMoved.geometry {s t : State} (h : HoldsMoved s t) (j : Nat) : (volume t j).marks = (volume s j).marks
    ∧ (volume t j).epoch = (volume s j).epoch ∧ (volume t j).regionBlocks = (volume s j).regionBlocks := by
  obtain ⟨k, hk⟩ := h j
  rw [hk]
  exact ⟨rfl, rfl, rfl⟩

theorem setVolume_holdsMoved (v k : Nat) (s : State) : HoldsMoved s (setVolume v { volume s v with heldTotal := k } s) := fun j => by
  rw [volume_setVolume]
  split
  · rename_i hj
    subst hj
    exact ⟨k, rfl⟩
  · exact ⟨_, rfl⟩

theorem dropping_holdsMoved (id : Nat) (x : Snap) (s : State) : HoldsMoved s (dropping id x s) := fun j => by
  rw [volume_dropping]
  split
  · exact ⟨_, rfl⟩
  · exact ⟨_, rfl⟩

theorem releaseSnap_holdsMoved (why : ReleaseReason) (id : Nat) (s : State) : HoldsMoved s (releaseSnap why id s).1 := by
  unfold releaseSnap
  split
  · exact .refl s
  · rename_i x _
    have hcascade : HoldsMoved s (cascade id x false s).1 := by
      rw [cascade_eq]
      dsimp only
      split
      · exact (dropping_holdsMoved id x s).trans (.of_same fun j => (testReserveFall_frame _ _).volume (v := j))
      · exact dropping_holdsMoved id x s
    exact hcascade.trans (.of_same fun j => (notify_frame _ _ _).volume (v := j))

theorem pressureLoop_holdsMoved (v fuel : Nat) (s : State) : HoldsMoved s (pressureLoop v fuel s) := by
  induction fuel generalizing s with
  | zero => exact .refl s
  | succ n ih =>
    rw [pressureLoop]
    split
    · exact .refl s
    · split
      · exact .refl s
      · exact (releaseSnap_holdsMoved _ _ s).trans (ih _)

theorem pressureTest_holdsMoved (v : Nat) (s : State) : HoldsMoved s (pressureTest v s) :=
  (pressureLoop_holdsMoved v _ s).trans (.of_same fun j => (decideReserve_frame v _).volume (v := j))

/-! ### The hold of a FREE (R125) -/

/-- A record and its volume hold a FREE's blocks. -/
def holding (v birth n : Nat) (x : Nat × Snap) (s : State) : State :=
  setVolume v { volume s v with heldTotal := (volume s v).heldTotal + n }
    (setSnap x.1 { x.2 with holds := addHold x.2.holds ⟨birth, n⟩ } s)

theorem attributeHold_of_no_holder {v birth n : Nat} {s : State}
    (h : ∀ x, newestHolder s v = some x → x.2.epoch < birth) : attributeHold v birth n s = s := by
  unfold attributeHold
  split
  · rfl
  · exact if_neg (Nat.not_le.2 (h _ ‹_›))

theorem attributeHold_of_holder {v birth n : Nat} {s : State} {x : Nat × Snap} (hx : newestHolder s v = some x)
    (hb : birth ≤ x.2.epoch) : attributeHold v birth n s = pressureTest v (holding v birth n x s) := by
  unfold attributeHold
  rw [hx]
  exact if_pos hb

theorem attributeHold_holdsMoved (v birth n : Nat) (s : State) : HoldsMoved s (attributeHold v birth n s) := by
  unfold attributeHold
  split
  · exact .refl s
  · split
    · rename_i x _ _
      exact (setVolume_holdsMoved v _ (setSnap x.1 _ s)).trans (pressureTest_holdsMoved v _)
    · exact .refl s

theorem holdPart_holdsMoved (r : ChangeRecord) (s : State) : HoldsMoved s (holdPart r s) := by
  unfold holdPart
  split
  · exact attributeHold_holdsMoved _ _ _ s
  · exact .refl s

theorem newestHolder_congr {s t : State} (h : t.sc.records = s.sc.records) (v : Nat) : newestHolder t v = newestHolder s v := by
  unfold newestHolder volumeSnaps
  rw [h]

theorem volume_holding (v birth n : Nat) (x : Nat × Snap) (s : State) :
    volume (holding v birth n x s) v = { volume s v with heldTotal := (volume s v).heldTotal + n } := by
  rw [holding, volume_setVolume, if_pos rfl]

theorem holding_silent (v birth n : Nat) (x : Nat × Snap) (s : State) : Noticed [] s (holding v birth n x s) :=
  (setSnap_silent _ _ s).trans (setVolume_silent _ _ _)

theorem holding_sorted {s : State} (hs : tsorted s.sc.records = true) (v birth n : Nat) (x : Nat × Snap) :
    tsorted (holding v birth n x s).sc.records = true := tsorted_tput s.sc.records x.1 _ hs

/-- The pressure test that follows the hold, told from another state with the same catalog and volumes. -/
theorem holding_pressured {s u : State} (hs : tsorted s.sc.records = true) (hrec : u.sc.records = s.sc.records)
    (hvt : u.vt = s.vt) (hnow : now u = now s) (hover : u.sc.reserveOver = s.sc.reserveOver) (v birth n : Nat) (x : Nat × Snap) :
    ∃ rel, Pressured v rel (holding v birth n x s) (pressureTest v (holding v birth n x u))
      ∧ Noticed (pressureNotices v rel (holding v birth n x s) (pressureTest v (holding v birth n x u))) u
          (pressureTest v (holding v birth n x u)) := by
  have hrec' : (holding v birth n x s).sc.records = (holding v birth n x u).sc.records := by
    change tput s.sc.records x.1 _ = tput u.sc.records x.1 _
    rw [hrec]
  have hvol : volume (holding v birth n x s) v = volume (holding v birth n x u) v := by
    have hsame : volume u v = volume s v := by unfold volume; rw [hvt]
    rw [volume_holding, volume_holding, hsame]
  have hflag : reserveFlag (holding v birth n x s) v = reserveFlag (holding v birth n x u) v := by
    change s.sc.reserveOver.contains v = u.sc.reserveOver.contains v
    rw [hover]
  have hsorted : tsorted (holding v birth n x u).sc.records = true := holding_sorted (hrec.symm ▸ hs) v birth n x
  obtain ⟨rel, htested⟩ := pressureTest_tested hsorted v
  refine ⟨rel, htested.pressured.congr hrec' rfl (by rw [hvol]; exact ⟨rfl, rfl⟩) ⟨rfl, rfl⟩, ?_⟩
  have hnotes := pressureNotices_congr v rel (t := pressureTest v (holding v birth n x u)) hrec' hnow.symm hflag
    (congrArg Volume.reserveLimit hvol) ⟨rfl, rfl⟩
  rw [hnotes]
  exact (holding_silent v birth n x u).silent_trans htested.notices

/-- Within the limit, the hold stands as it was made. -/
theorem pressureTest_of_within {v : Nat} {s : State} (h : withinReserve s v = true) :
    (pressureTest v s).sc.records = s.sc.records ∧ ∀ j, volume (pressureTest v s) j = volume s j := by
  rw [pressureTest, pressureLoop_of_within h]
  exact ⟨(decideReserve_frame v s).same .snaps (by decide), fun j => (decideReserve_frame v s).volume (v := j)⟩

/-! ### The region of a record (R44) -/

theorem volume_markRegion (v block : Nat) (s : State) (j : Nat) : volume (markRegion v block s) j =
    if v = j then { volume s v with marks := tsetD 0 (volume s v).marks (regionOf (volume s v) block) (volume s v).epoch }
    else volume s j := volume_setVolume ..

theorem heldTotal_markRegion (v block : Nat) (s : State) (j : Nat) :
    (volume (markRegion v block s) j).heldTotal = (volume s j).heldTotal
      ∧ (volume (markRegion v block s) j).reserveLimit = (volume s j).reserveLimit := by
  rw [volume_markRegion]
  split
  · rename_i hj
    subst hj
    exact ⟨rfl, rfl⟩
  · exact ⟨rfl, rfl⟩

theorem markRegion_silent (v block : Nat) (s : State) : Noticed [] s (markRegion v block s) := setVolume_silent _ _ s

end Sys2Proof.Machine
end

