-- ==== Sys2Proof/Proofs/AmountsCharged.lean ====
section
/-! SUPPORT. The amounts that a change record moves (R72 to R79): usage, reservation and outcome of the principals and groups that it
charges, before any of them is evaluated. -/

namespace Sys2Proof.Machine

/-! ### Readers after the writers of the books -/

theorem group_onGroup (x : Option Nat) (f : Account → Account) (s : State) (g : Nat) : group (onGroup x f s) g =
    if x = some g then { group s g with acct := f (group s g).acct } else group s g := by
  cases x with
  | none => rfl
  | some i =>
    rw [onGroup, group_setGroupRec]
    by_cases hi : i = g
    · subst hi
      rw [if_pos rfl, if_pos rfl]
    · rw [if_neg hi, if_neg fun h => hi (Option.some.inj h)]

theorem principal_onGroup (x : Option Nat) (f : Account → Account) (s : State) (k : Nat) :
    principal (onGroup x f s) k = principal s k := by
  cases x <;> rfl

theorem principal_addCharge (p c : Nat) (s : State) (k : Nat) : principal (addCharge p c s) k = if p = k then
    { principal s p with acct := { (principal s p).acct with usage := addUsage (principal s p).acct.usage c },
                         outcome := addOutcome (principal s p).acct.usage c } else principal s k := by
  rw [addCharge, principal_onGroup, principal_setPrincipal]

theorem group_addCharge (p c : Nat) (s : State) (g : Nat) : group (addCharge p c s) g = if (principal s p).group = some g then
    { group s g with acct := usageUp (addedAmount (principal s p).acct.usage c) (group s g).acct } else group s g :=
  group_onGroup _ _ (setPrincipal p _ s) g

theorem reservation_addCharge (p c : Nat) (s : State) (g : Nat) :
    (group (addCharge p c s) g).acct.reservation = (group s g).acct.reservation := by
  rw [group_addCharge]
  split <;> rfl

theorem principal_subCharge (p c : Nat) (s : State) (k : Nat) : principal (subCharge p c s) k = if p = k then
    { principal s p with
      acct := { (principal s p).acct with usage := (principal s p).acct.usage - takenAmount (principal s p).acct.usage c },
      outcome := subOutcome (principal s p).acct.usage c } else principal s k := by
  rw [subCharge, principal_onGroup, principal_setPrincipal]

theorem group_subCharge (p c : Nat) (s : State) (g : Nat) : group (subCharge p c s) g = if (principal s p).group = some g then
    { group s g with acct := usageDown (takenAmount (principal s p).acct.usage c) (group s g).acct } else group s g :=
  group_onGroup _ _ (setPrincipal p _ s) g

theorem principal_changeReservation (f : Account → Account) (p : Nat) (s : State) (k : Nat) :
    principal (changeReservation f p s) k =
      if p = k then { principal s p with acct := f (principal s p).acct } else principal s k := by
  rw [changeReservation, principal_onGroup, onPrincipal, principal_setPrincipal]

theorem group_changeReservation (f : Account → Account) (p : Nat) (s : State) (g : Nat) :
    group (changeReservation f p s) g =
      if (principal s p).group = some g then { group s g with acct := f (group s g).acct } else group s g :=
  group_onGroup _ _ (onPrincipal p f s) g

/-! ### The conversion of a restore tag (R79) -/

theorem convert_of_other {tag p : Nat} {s : State} (h : ∀ j, restoreJob s tag = some j → j.principal ≠ p) (c : Nat) :
    convert tag p c s = s := by
  unfold convert
  split
  · rfl
  · exact if_neg (h _ ‹_›)

theorem convert_of_job {tag p : Nat} {s : State} {j : RestoreJob} (hj : restoreJob s tag = some j) (hp : j.principal = p) (c : Nat) :
    convert tag p c s = changeReservation (reserveDown (min c j.remaining)) p
      (setRestoreJob tag { j with remaining := j.remaining - min c j.remaining } s) := by
  rw [convert, hj]
  exact if_pos hp

/-! ### What a charge leaves -/

/-- Two accounts that differ at most in usage and reservation. -/
def Account.Moved (a b : Account) : Prop := b = { a with usage := b.usage, reservation := b.reservation }

theorem Account.Moved.trans {a b c : Account} (h1 : a.Moved b) (h2 : b.Moved c) : a.Moved c := by
  unfold Account.Moved at *
  rw [h2, h1]

/-- Amounts have moved on the listed subjects only: nothing else of their accounts, and no account or record but theirs. -/
structure AmountsMoved (l : List Subject) (s t : State) : Prop where
  accts : ∀ sub, (acct s sub).Moved (acct t sub)
  principals : ∀ k, .principal k ∉ l → principal t k = principal s k
  groups : ∀ g, .group g ∉ l → group t g = group s g
  members : ∀ k, (principal t k).group = (principal s k).group
  breaches : ∀ k, (principal t k).breachCount = (principal s k).breachCount

theorem AmountsMoved.refl (l : List Subject) (s : State) : AmountsMoved l s s :=
  ⟨fun _ => rfl, fun _ _ => rfl, fun _ _ => rfl, fun _ => rfl, fun _ => rfl⟩

theorem AmountsMoved.trans {l : List Subject} {s t u : State} (h1 : AmountsMoved l s t) (h2 : AmountsMoved l t u) :
    AmountsMoved l s u where
  accts sub := (h1.accts sub).trans (h2.accts sub)
  principals k hk := (h2.principals k hk).trans (h1.principals k hk)
  groups g hg := (h2.groups g hg).trans (h1.groups g hg)
  members k := (h2.members k).trans (h1.members k)
  breaches k := (h2.breaches k).trans (h1.breaches k)

/-- The form of every movement of amounts: a principal's record with its account and outcome replaced, and a change of its group's
account. -/
theorem amountsMoved_write {l : List Subject} {p : Nat} {s : State} {r : Principal} {x : Option Nat} {f : Account → Account}
    (hp : .principal p ∈ l) (hx : ∀ g, x = some g → .group g ∈ l)
    (hr : (principal s p).acct.Moved r.acct ∧ r.group = (principal s p).group ∧ r.breachCount = (principal s p).breachCount)
    (hf : ∀ a : Account, a.Moved (f a)) : AmountsMoved l s (onGroup x f (setPrincipal p r s)) := by
  obtain ⟨hacct, hgroup, hbreach⟩ := hr
  have hprincipal (k : Nat) : principal (onGroup x f (setPrincipal p r s)) k = if p = k then r else principal s k := by
    rw [principal_onGroup, principal_setPrincipal]
  have hgrp (g : Nat) : group (onGroup x f (setPrincipal p r s)) g
      = if x = some g then { group s g with acct := f (group s g).acct } else group s g := group_onGroup x f (setPrincipal p r s) g
  refine ⟨fun sub => ?_, fun k hk => ?_, fun g hg => ?_, fun k => ?_, fun k => ?_⟩
  · cases sub with
    | principal k =>
      rw [acct, acct, hprincipal]
      split
      · rename_i hpk
        subst hpk
        exact hacct
      · rfl
    | group g =>
      rw [acct, acct, hgrp]
      split
      · exact hf _
      · rfl
  · rw [hprincipal, if_neg]
    rintro rfl
    exact hk hp
  · rw [hgrp, if_neg fun h => hg (hx g h)]
  · rw [hprincipal]
    split
    · rename_i hpk
      rw [← hpk, hgroup]
    · rfl
  · rw [hprincipal]
    split
    · rename_i hpk
      rw [← hpk, hbreach]
    · rfl

section

variable {l : List Subject} {p : Nat} {s : State} (hp : .principal p ∈ l) (hg : ∀ g, (principal s p).group = some g → .group g ∈ l)
include hp hg

theorem addCharge_moved (c : Nat) : AmountsMoved l s (addCharge p c s) :=
  amountsMoved_write hp hg ⟨rfl, rfl, rfl⟩ fun _ => rfl

theorem subCharge_moved (c : Nat) : AmountsMoved l s (subCharge p c s) :=
  amountsMoved_write hp hg ⟨rfl, rfl, rfl⟩ fun _ => rfl

theorem convert_moved (tag c : Nat) : AmountsMoved l s (convert tag p c s) := by
  unfold convert
  split
  · exact .refl l s
  · split
    · rename_i j _ _
      have hwrite : AmountsMoved l (setRestoreJob tag { j with remaining := j.remaining - min c j.remaining } s)
          (changeReservation (reserveDown (min c j.remaining)) p
            (setRestoreJob tag { j with remaining := j.remaining - min c j.remaining } s)) :=
        amountsMoved_write hp hg ⟨rfl, rfl, rfl⟩ fun _ => rfl
      exact ⟨hwrite.accts, hwrite.principals, hwrite.groups, hwrite.members, hwrite.breaches⟩
    · exact .refl l s

omit hg in
theorem setOutcome_moved (o : ChargeOutcome) : AmountsMoved l s (setOutcome p o s) :=
  amountsMoved_write (x := none) (f := id) hp (fun _ h => by cases h) ⟨rfl, rfl, rfl⟩ fun _ => rfl

end

/-- A subtraction takes less than the charge when the usage is below it (R74, R76). -/
theorem subOutcome_eq (u c : Nat) :
    subOutcome u c = { saturated := false, borrow := decide (u < c), zero := decide (u - min c u = 0) } := by
  have hless : takenAmount u c < c ↔ u < c := by unfold takenAmount; omega
  rw [subOutcome, decide_eq_decide.2 hless]
  rfl

/-! ### The amounts of a record -/

/-- The subjects that a record charges, in the order in which they are evaluated (R77, log 43, log 49). -/
def chargedSubjects (r : ChangeRecord) (p q : Nat) (s : State) : List Subject :=
  .principal p :: (if r.op = 3 ∧ p = q then [] else
    ((principal s p).group.map Subject.group).toList ++ (if r.op ≠ 3 then [] else
      .principal q :: (if (principal s q).group = (principal s p).group then [] else
        ((principal s q).group.map Subject.group).toList)))

/-- The state in which the subjects of a record are evaluated. -/
def amountsCharged (r : ChangeRecord) (p q c : Nat) (s : State) : State :=
  if isAlloc r then addCharge p c (convert r.restoreTag.toNat p c s)
  else if isFree r then subCharge p c s
  else if p = q then setOutcome p ChargeOutcome.empty s
  else addCharge q c (subCharge p c s)

section

variable {r : ChangeRecord} {p q : Nat} {s : State}

theorem mem_groupSubjects {x : Option Nat} {g : Nat} : Subject.group g ∈ (x.map Subject.group).toList ↔ x = some g := by
  cases x <;> simp [eq_comm]

theorem not_mem_groupSubjects {x : Option Nat} {k : Nat} : Subject.principal k ∉ (x.map Subject.group).toList := by
  cases x <;> simp

/-- A MOVE between one principal and itself charges the principal only (R75). -/
theorem chargedSubjects_self (h : r.op = 3) : chargedSubjects r p p s = [.principal p] := by
  rw [chargedSubjects, if_pos ⟨h, rfl⟩]

theorem chargedSubjects_one (h : r.op ≠ 3) :
    chargedSubjects r p q s = .principal p :: ((principal s p).group.map Subject.group).toList := by
  rw [chargedSubjects, if_neg fun h3 => h h3.1, if_pos h, List.append_nil]

theorem chargedSubjects_two (h : r.op = 3) (hpq : p ≠ q) : chargedSubjects r p q s = .principal p ::
    (((principal s p).group.map Subject.group).toList ++ .principal q :: (if (principal s q).group = (principal s p).group then []
      else ((principal s q).group.map Subject.group).toList)) := by
  rw [chargedSubjects, if_neg fun h3 => hpq h3.2, if_neg (not_not.2 h)]

theorem principal_mem_charged {k : Nat} : .principal k ∈ chargedSubjects r p q s ↔ k = p ∨ r.op = 3 ∧ k = q := by
  by_cases h3 : r.op = 3
  · by_cases hpq : p = q
    · subst hpq
      rw [chargedSubjects_self h3]
      simp [h3]
    · rw [chargedSubjects_two h3 hpq]
      have hrest : Subject.principal k ∉ (if (principal s q).group = (principal s p).group then []
          else ((principal s q).group.map Subject.group).toList) := by
        split
        · exact List.not_mem_nil
        · exact not_mem_groupSubjects
      simp [h3, hrest]
  · rw [chargedSubjects_one h3, List.mem_cons, or_iff_left not_mem_groupSubjects, or_iff_left fun h => h3 h.1]
    exact ⟨Subject.principal.inj, congrArg _⟩

theorem group_mem_charged {g : Nat} : .group g ∈ chargedSubjects r p q s
    ↔ ¬(r.op = 3 ∧ p = q) ∧ ((principal s p).group = some g ∨ r.op = 3 ∧ (principal s q).group = some g) := by
  by_cases h3 : r.op = 3
  · by_cases hpq : p = q
    · subst hpq
      rw [chargedSubjects_self h3]
      simp [h3]
    · rw [chargedSubjects_two h3 hpq]
      by_cases hsame : (principal s q).group = (principal s p).group
      · simp [h3, hpq, hsame]
      · simp [h3, hpq, hsame]
  · rw [chargedSubjects_one h3, List.mem_cons, or_iff_right Subject.noConfusion, mem_groupSubjects, or_iff_left fun h => h3 h.1]
    exact ⟨fun h => ⟨fun hm => h3 hm.1, h⟩, And.right⟩

theorem chargedSubjects_nodup : (chargedSubjects r p q s).Nodup := by
  have hone (x : Option Nat) : (x.map Subject.group).toList.Nodup := by cases x <;> simp
  by_cases h3 : r.op = 3
  · by_cases hpq : p = q
    · subst hpq
      rw [chargedSubjects_self h3]
      exact List.nodup_singleton _
    · rw [chargedSubjects_two h3 hpq]
      split
      · refine List.nodup_cons.2 ⟨by simp [hpq], ?_⟩
        exact (hone _).append (List.nodup_singleton _) (List.disjoint_singleton.2 not_mem_groupSubjects)
      · rename_i hother
        refine List.nodup_cons.2 ⟨by simp [hpq], ?_⟩
        refine (hone _).append (List.nodup_cons.2 ⟨not_mem_groupSubjects, hone _⟩) fun sub h1 h2 => ?_
        rcases List.mem_cons.1 h2 with rfl | h2
        · exact not_mem_groupSubjects h1
        · cases sub with
          | principal k => exact not_mem_groupSubjects h1
          | group g => exact hother ((mem_groupSubjects.1 h2).trans (mem_groupSubjects.1 h1).symm)
  · rw [chargedSubjects_one h3]
    exact List.nodup_cons.2 ⟨not_mem_groupSubjects, hone _⟩

end

/-- The ops that a record of a good format has (R51, R60). -/
theorem isAlloc_iff (r : ChangeRecord) : isAlloc r = true ↔ r.op = 1 := decide_eq_true_iff
theorem isFree_iff (r : ChangeRecord) : isFree r = true ↔ r.op = 2 := decide_eq_true_iff
theorem isMove_iff (r : ChangeRecord) : isMove r = true ↔ r.op = 3 := decide_eq_true_iff

section

variable {r : ChangeRecord} {p q c : Nat} {s : State}

theorem amountsCharged_alloc (h : r.op = 1) : amountsCharged r p q c s = addCharge p c (convert r.restoreTag.toNat p c s) :=
  if_pos ((isAlloc_iff r).2 h)

theorem amountsCharged_free (h : r.op = 2) : amountsCharged r p q c s = subCharge p c s := by
  rw [amountsCharged, if_neg (by rw [isAlloc_iff, h]; decide), if_pos ((isFree_iff r).2 h)]

theorem amountsCharged_self (h : r.op = 3) : amountsCharged r p p c s = setOutcome p ChargeOutcome.empty s := by
  rw [amountsCharged, if_neg (by rw [isAlloc_iff, h]; decide), if_neg (by rw [isFree_iff, h]; decide), if_pos rfl]

theorem amountsCharged_two (h : r.op = 3) (hpq : p ≠ q) : amountsCharged r p q c s = addCharge q c (subCharge p c s) := by
  rw [amountsCharged, if_neg (by rw [isAlloc_iff, h]; decide), if_neg (by rw [isFree_iff, h]; decide), if_neg hpq]

theorem amountsCharged_moved (hop : r.op = 1 ∨ r.op = 2 ∨ r.op = 3) :
    AmountsMoved (chargedSubjects r p q s) s (amountsCharged r p q c s) := by
  have hp : .principal p ∈ chargedSubjects r p q s := principal_mem_charged.2 (.inl rfl)
  rcases hop with h | h | h
  · have hg : ∀ g, (principal s p).group = some g → .group g ∈ chargedSubjects r p q s := fun g hg =>
      group_mem_charged.2 ⟨fun h3 => absurd (h.symm.trans h3.1) (by decide), .inl hg⟩
    rw [amountsCharged_alloc h]
    have hconvert := convert_moved hp hg r.restoreTag.toNat c
    exact hconvert.trans (addCharge_moved hp (fun g hgc => hg g ((hconvert.members p).symm.trans hgc)) c)
  · rw [amountsCharged_free h]
    exact subCharge_moved hp (fun g hg => group_mem_charged.2 ⟨fun h3 => absurd (h.symm.trans h3.1) (by decide), .inl hg⟩) c
  · by_cases hpq : p = q
    · subst hpq
      rw [amountsCharged_self h]
      exact setOutcome_moved hp _
    · rw [amountsCharged_two h hpq]
      have hsub := subCharge_moved hp (fun g hg => group_mem_charged.2 ⟨fun h3 => hpq h3.2, .inl hg⟩) c
      refine hsub.trans (addCharge_moved (principal_mem_charged.2 (.inr ⟨h, rfl⟩)) (fun g hg => ?_) c)
      exact group_mem_charged.2 ⟨fun h3 => hpq h3.2, .inr ⟨h, (hsub.members q).symm.trans hg⟩⟩

/-! ### The amounts, op by op (R73 to R76, R79) -/

theorem usage_convert (tag : Nat) : (∀ k, (principal (convert tag p c s) k).acct.usage = (principal s k).acct.usage)
    ∧ (∀ k, (principal (convert tag p c s) k).group = (principal s k).group)
    ∧ ∀ g, (group (convert tag p c s) g).acct.usage = (group s g).acct.usage := by
  by_cases h : ∀ j, restoreJob s tag = some j → j.principal ≠ p
  · rw [convert_of_other h]
    exact ⟨fun _ => rfl, fun _ => rfl, fun _ => rfl⟩
  · obtain ⟨j, hj, hjp⟩ : ∃ j, restoreJob s tag = some j ∧ j.principal = p := by simpa using h
    rw [convert_of_job hj hjp]
    refine ⟨fun k => ?_, fun k => ?_, fun g => ?_⟩
    · rw [principal_changeReservation]
      split
      · rename_i hk; subst hk; rfl
      · rfl
    · rw [principal_changeReservation]
      split
      · rename_i hk; subst hk; rfl
      · rfl
    · rw [group_changeReservation]
      split <;> rfl

theorem alloc_amounts (h : r.op = 1) {u : Nat} (hu : u = (principal s p).acct.usage) :
    (principal (amountsCharged r p q c s) p).acct.usage = min 17592186044415 (u + c)
    ∧ (principal (amountsCharged r p q c s) p).outcome =
        { saturated := decide (min 17592186044415 (u + c) - u < c ∨ u = 17592186044415), borrow := false, zero := false }
    ∧ (∀ g, (principal s p).group = some g → (group (amountsCharged r p q c s) g).acct.usage
        = (group s g).acct.usage + (min 17592186044415 (u + c) - u)) := by
  obtain ⟨husage, hgroup, hgroups⟩ := usage_convert (p := p) (c := c) (s := s) r.restoreTag.toNat
  rw [amountsCharged_alloc h, principal_addCharge, if_pos rfl]
  refine ⟨?_, ?_, fun g hg => ?_⟩
  · rw [husage, ← hu]
    rfl
  · rw [husage, ← hu, addOutcome, Bool.decide_or]
    rfl
  · rw [group_addCharge, hgroup, if_pos hg, husage, ← hu, usageUp, hgroups]
    rfl

theorem alloc_untagged (h : r.op = 1) (hj : ∀ j, restoreJob s r.restoreTag.toNat = some j → j.principal ≠ p) :
    (principal (amountsCharged r p q c s) p).acct.reservation = (principal s p).acct.reservation
    ∧ (amountsCharged r p q c s).rsc.jobs = s.rsc.jobs
    ∧ ∀ g, (group (amountsCharged r p q c s) g).acct.reservation = (group s g).acct.reservation := by
  rw [amountsCharged_alloc h, convert_of_other hj, principal_addCharge, if_pos rfl]
  refine ⟨rfl, (addCharge_frame p c s).same .restoreJobs (by decide),
    reservation_addCharge p c s⟩

theorem alloc_tagged (h : r.op = 1) {j : RestoreJob} (hj : restoreJob s r.restoreTag.toNat = some j) (hp : j.principal = p) :
    (principal (amountsCharged r p q c s) p).acct.reservation = (principal s p).acct.reservation - min c j.remaining
    ∧ restoreJob (amountsCharged r p q c s) r.restoreTag.toNat = some { j with remaining := j.remaining - min c j.remaining }
    ∧ ∀ g, (principal s p).group = some g → (group (amountsCharged r p q c s) g).acct.reservation
        = (group s g).acct.reservation - min c j.remaining := by
  rw [amountsCharged_alloc h, convert_of_job hj hp]
  refine ⟨?_, ?_, fun g hg => ?_⟩
  · rw [principal_addCharge, if_pos rfl, principal_changeReservation, if_pos rfl]
    rfl
  · have hjobs := (((changeReservation_frame (reserveDown (min c j.remaining)) p
      (setRestoreJob r.restoreTag.toNat { j with remaining := j.remaining - min c j.remaining } s)).trans
        (addCharge_frame p c _)).same .restoreJobs (by decide))
    unfold restoreJob
    rw [hjobs]
    exact (tget_tput _ _ _ _).trans (if_pos rfl)
  · rw [reservation_addCharge, group_changeReservation, if_pos (show (principal (setRestoreJob _ _ s) p).group = some g from hg)]
    rfl

theorem free_amounts (h : r.op = 2) {u : Nat} (hu : u = (principal s p).acct.usage) :
    (principal (amountsCharged r p q c s) p).acct.usage = u - min c u
    ∧ (principal (amountsCharged r p q c s) p).outcome =
        { saturated := false, borrow := decide (u < c), zero := decide (u - min c u = 0) }
    ∧ (∀ g, (principal s p).group = some g →
        (group (amountsCharged r p q c s) g).acct.usage = (group s g).acct.usage - min c u) := by
  rw [amountsCharged_free h, principal_subCharge, if_pos rfl, ← hu]
  refine ⟨rfl, ?_, fun g hg => ?_⟩
  · rw [subOutcome_eq]
  · rw [group_subCharge, if_pos hg, ← hu]
    rfl

/-- The two sides of a MOVE (R75). -/
theorem move_amounts (h : r.op = 3) (hpq : p ≠ q) {u w : Nat} (hu : u = (principal s p).acct.usage)
    (hw : w = (principal s q).acct.usage) :
    (principal (amountsCharged r p q c s) p).acct.usage = u - min c u
    ∧ (principal (amountsCharged r p q c s) q).acct.usage = min 17592186044415 (w + c)
    ∧ (principal (amountsCharged r p q c s) p).outcome =
        { saturated := false, borrow := decide (u < c), zero := decide (u - min c u = 0) }
    ∧ (principal (amountsCharged r p q c s) q).outcome =
        { saturated := decide (min 17592186044415 (w + c) - w < c ∨ w = 17592186044415), borrow := false, zero := false }
    ∧ ∀ g, (group (amountsCharged r p q c s) g).acct.usage = (group s g).acct.usage
        - (if (principal s p).group = some g then min c u else 0)
        + (if (principal s q).group = some g then min 17592186044415 (w + c) - w else 0) := by
  have hq : principal (subCharge p c s) q = principal s q := by rw [principal_subCharge, if_neg hpq]
  rw [amountsCharged_two h hpq, principal_addCharge, if_neg (Ne.symm hpq), principal_addCharge, if_pos rfl, hq, ← hw,
    principal_subCharge, if_pos rfl, ← hu, subOutcome_eq, addOutcome, ← Bool.decide_or]
  refine ⟨rfl, rfl, rfl, rfl, fun g => ?_⟩
  rw [group_addCharge, hq, ← hw, group_subCharge, ← hu]
  split
  · split <;> rfl
  · split <;> rfl

theorem self_amounts (h : r.op = 3) : (principal (amountsCharged r p p c s) p).acct.usage = (principal s p).acct.usage
    ∧ (principal (amountsCharged r p p c s) p).outcome = { saturated := false, borrow := false, zero := false }
    ∧ ∀ g, (group (amountsCharged r p p c s) g).acct.usage = (group s g).acct.usage := by
  rw [amountsCharged_self h, setOutcome, principal_setPrincipal, if_pos rfl]
  exact ⟨rfl, rfl, fun _ => rfl⟩

end

end Sys2Proof.Machine
end

