-- ==== Sys2Proof/Proofs/EvaluationsInTurn.lean ====
section
/-! SUPPORT. Subjects evaluated one after another (R77, R100 to R102): their states, the soft list, and, while the deny table has room
for all of them (R106, R107), its wants and the QUOTA_STATE notices. -/

namespace Sys2Proof.Machine

/-- The subjects of a charge are evaluated (R77). -/
def evaluateAll (l : List Subject) (s : State) : State := l.foldl (fun s sub => evaluate .charge sub s) s

theorem evaluateAll_cons (sub : Subject) (l : List Subject) (s : State) :
    evaluateAll (sub :: l) s = evaluateAll l (evaluate .charge sub s) := rfl

theorem evaluateAll_append (l m : List Subject) (s : State) : evaluateAll (l ++ m) s = evaluateAll m (evaluateAll l s) :=
  List.foldl_append

theorem evaluateGroup_eq (x : Option Nat) (s : State) :
    evaluateGroup .charge x s = evaluateAll (x.map Subject.group).toList s := by cases x <;> rfl

theorem evaluateAll_frame (l : List Subject) (s : State) : Frame evalParts s (evaluateAll l s) :=
  Frame.foldl (fun _ _ => evaluate_frame _ _ _) l s

theorem evaluateAll_speaks (l : List Subject) (s : State) : Speaks s (evaluateAll l s) :=
  Speaks.foldl (fun _ _ => (evaluate_work _ _ _).speaks) l s

/-! ### Accounts, records and the soft list (R100, R102) -/

theorem evaluate_of_steady {c : QuotaCause} {sub : Subject} {s : State} (h : nextState (acct s sub) = (acct s sub).state) :
    evaluate c sub s = s := if_pos h

/-- Where no state changes, nothing follows. -/
theorem evaluateAll_of_steady {l : List Subject} {s : State} (h : ∀ sub ∈ l, nextState (acct s sub) = (acct s sub).state) :
    evaluateAll l s = s := by
  induction l with
  | nil => rfl
  | cons sub r ih =>
    rw [evaluateAll_cons, evaluate_of_steady (h sub List.mem_cons_self)]
    exact ih fun x hx => h x (List.mem_cons_of_mem _ hx)

theorem setAcct_records (sub : Subject) (a : Account) (s : State) :
    (∀ k, principal (setAcct sub a s) k = { principal s k with acct := acct (setAcct sub a s) (.principal k) })
    ∧ ∀ g, group (setAcct sub a s) g = { group s g with acct := acct (setAcct sub a s) (.group g) } := by
  cases sub with
  | principal i =>
    refine ⟨fun k => ?_, fun g => rfl⟩
    rw [acct_setAcct, setAcct, principal_setPrincipal]
    by_cases hk : i = k
    · subst hk
      rw [if_pos rfl, if_pos rfl]
    · rw [if_neg hk, if_neg fun h => hk (Subject.principal.inj h)]
      rfl
  | group i =>
    refine ⟨fun k => rfl, fun g => ?_⟩
    rw [acct_setAcct, setAcct, group_setGroupRec]
    by_cases hg : i = g
    · subst hg
      rw [if_pos rfl, if_pos rfl]
    · rw [if_neg hg, if_neg fun h => hg (Subject.group.inj h)]
      rfl

/-- The soft list when a subject's account is evaluated. -/
def softListBy (a : Subject → Account) (l : List Subject) (sub : Subject) : List Subject :=
  if nextState (a sub) = (a sub).state then l else softListAfter sub (a sub).state (nextState (a sub)) l

/-- Some subjects have been evaluated: their states are the comparator's, and nothing else of the records of the books moves. -/
structure Evaluated (l : List Subject) (s t : State) : Prop where
  accts : ∀ x, acct t x = if x ∈ l then { acct s x with state := nextState (acct s x) } else acct s x
  principals : ∀ k, principal t k = { principal s k with acct := acct t (.principal k) }
  groups : ∀ g, group t g = { group s g with acct := acct t (.group g) }
  soft : t.qm.softList = l.foldl (softListBy (acct s)) s.qm.softList

theorem evaluate_evaluated (c : QuotaCause) (sub : Subject) (s : State) : Evaluated [sub] s (evaluate c sub s) := by
  have haccts : ∀ x, acct (evaluate c sub s) x
      = if x ∈ [sub] then { acct s x with state := nextState (acct s x) } else acct s x := fun x => by
    rw [acct_evaluate]
    exact if_congr (by rw [List.mem_singleton, eq_comm]) rfl rfl
  by_cases h : nextState (acct s sub) = (acct s sub).state
  · refine ⟨haccts, ?_, ?_, ?_⟩ <;> rw [evaluate_of_steady h]
    · exact fun _ => rfl
    · exact fun _ => rfl
    · exact (if_pos h).symm
  · have he : evaluate c sub s = notify _ _ (reportBlocking sub _ _ _) := if_neg h
    have hframe (s2 : State) : Frame enforceParts s2 (notify (subjectNotice sub) (.quotaState sub (acct s sub).state
        (nextState (acct s sub)) (loadOf (acct s sub)) (s16Of (acct s sub)) (h16Of (acct s sub)) (acct s sub).grace c (now s))
        (reportBlocking sub (acct s sub).state (nextState (acct s sub)) s2)) :=
      (notify_frame _ _ _).after (by decide) (reportBlocking_frame _ _ _ s2)
    have hprincipals : (evaluate c sub s).book.principals = _ := he ▸ (hframe _).same .principals (by decide)
    have hgroups : (evaluate c sub s).book.groups = _ := he ▸ (hframe _).same .groups (by decide)
    have hsoft : (evaluate c sub s).qm.softList = _ := he ▸ (hframe _).same .softList (by decide)
    obtain ⟨hprec, hgrec⟩ := setAcct_records sub { acct s sub with state := nextState (acct s sub) } s
    refine ⟨haccts, fun k => ?_, fun g => ?_, ?_⟩
    · have hsame : principal (evaluate c sub s) k = principal (setAcct sub { acct s sub with state := nextState (acct s sub) } s) k := by
        unfold principal; rw [hprincipals]
      rw [acct, hsame]
      exact hprec k
    · have hsame : group (evaluate c sub s) g = group (setAcct sub { acct s sub with state := nextState (acct s sub) } s) g := by
        unfold group; rw [hgroups]
      rw [acct, hsame]
      exact hgrec g
    · rw [hsoft]
      have hqm : (setAcct sub { acct s sub with state := nextState (acct s sub) } s).qm = s.qm := by cases sub <;> rfl
      change softListAfter _ _ _ (setAcct sub _ s).qm.softList = softListBy _ _ _
      rw [hqm, softListBy, if_neg h]

theorem evaluateAll_evaluated {l : List Subject} (hl : l.Nodup) (s : State) : Evaluated l s (evaluateAll l s) := by
  induction l generalizing s with
  | nil => exact ⟨fun _ => rfl, fun _ => rfl, fun _ => rfl, rfl⟩
  | cons sub r ih =>
    obtain ⟨hsub, hr⟩ := List.nodup_cons.1 hl
    have hone := evaluate_evaluated .charge sub s
    have hrest := ih hr (evaluate .charge sub s)
    rw [evaluateAll_cons]
    have hsame : ∀ x, x ≠ sub → acct (evaluate .charge sub s) x = acct s x := fun x hx => by
      rw [hone.accts, if_neg (List.mem_singleton.not.2 hx)]
    refine ⟨fun x => ?_, fun k => ?_, fun g => ?_, ?_⟩
    · rw [hrest.accts]
      by_cases hx : x = sub
      · subst hx
        rw [if_neg hsub, hone.accts, if_pos (List.mem_singleton.2 rfl), if_pos List.mem_cons_self]
      · rw [hsame x hx]
        exact if_congr (by rw [List.mem_cons, or_iff_right hx]) rfl rfl
    · rw [hrest.principals, hone.principals]
    · rw [hrest.groups, hone.groups]
    · rw [hrest.soft, hone.soft, List.foldl_cons]
      refine List.foldl_ext _ _ _ fun w x hx => ?_
      unfold softListBy
      rw [hsame x fun h => hsub (h ▸ hx)]

/-! ### The wants of the deny table (R106 to R108) -/

/-- What the entry at a key wants, if there is one. -/
def wantAt (k : Nat) (s : State) : Option Want := (tget s.et.table k).map DenyEntry.want

/-- Between two states no entry has come, gone or changed its want, and no notice was raised. -/
structure SameWants (s t : State) : Prop where
  sorted : tsorted t.et.table = true
  length : t.et.table.length = s.et.table.length
  wants : ∀ k, wantAt k t = wantAt k s
  backlog : t.et.backlog = s.et.backlog
  silent : Noticed [] s t

theorem SameWants.refl {s : State} (hs : tsorted s.et.table = true) : SameWants s s := ⟨hs, rfl, fun _ => rfl, rfl, Noticed.refl s⟩

theorem SameWants.trans {s t u : State} (h1 : SameWants s t) (h2 : SameWants t u) : SameWants s u :=
  ⟨h2.sorted, h2.length.trans h1.length, fun k => (h2.wants k).trans (h1.wants k), h2.backlog.trans h1.backlog,
    h1.silent.trans h2.silent⟩

theorem wantAt_setDeny (key k : Nat) (e : DenyEntry) (s : State) :
    wantAt k (setDeny key e s) = if key = k then some e.want else wantAt k s := by
  unfold wantAt
  rw [setDeny, tget_tput]
  split <;> rfl

theorem setDeny_silent (key : Nat) (e : DenyEntry) (s : State) : Noticed [] s (setDeny key e s) := rfl

theorem handWant_sameWants {s : State} (hs : tsorted s.et.table = true) (key j : Nat) : SameWants s (handWant key j s) := by
  obtain ⟨heq, -⟩ | ⟨e, he, -, -, -, heq⟩ := handWant_cases key j s
  · rw [heq]
    exact .refl hs
  · rw [heq]
    have hlen (x : DenyEntry) : (tput s.et.table key x).length = s.et.table.length := by
      have hkeys := congrArg List.length (tkeys_tput hs he x)
      rwa [tkeys, tkeys, List.length_map, List.length_map] at hkeys
    refine ⟨tsorted_tput _ _ _ hs, hlen _, fun k => ?_, rfl, (issue_silent _ _ s).trans (setDeny_silent _ _ _)⟩
    rw [wantAt_setDeny]
    split
    · rename_i hk
      subst hk
      rw [wantAt, he]
      rfl
    · rfl

theorem handWants_sameWants {s : State} (hs : tsorted s.et.table = true) : SameWants s (handWants s) :=
  handWants_keeps (P := SameWants s) (fun _ key j h => h.trans (handWant_sameWants h.sorted key j)) (.refl hs)

theorem length_tput {α : Type} (t : Tab α) (k : Nat) (x : α) : (tput t k x).length ≤ t.length + 1 := by
  induction t with
  | nil => exact Nat.le_refl _
  | cons e r ih =>
    rw [tput]
    split
    · exact Nat.le_refl _
    · split
      · exact Nat.le_succ _
      · exact Nat.succ_le_succ ih

/-- One subject has been blocked or unblocked while the deny table had room. -/
structure Enforced (sub : Subject) (s t : State) : Prop where
  sorted : tsorted t.et.table = true
  length : t.et.table.length ≤ s.et.table.length + 1
  backlog : t.et.backlog = []
  others : ∀ k, k ≠ subjectKey sub → wantAt k t = wantAt k s
  silent : Noticed [] s t

theorem Enforced.same {sub : Subject} {s t u : State} (h : Enforced sub s t) (hw : SameWants t u) : Enforced sub s u :=
  ⟨hw.sorted, hw.length ▸ h.length, hw.backlog.trans h.backlog, fun k hk => (hw.wants k).trans (h.others k hk),
    h.silent.trans hw.silent⟩

section

variable {s : State} (hs : tsorted s.et.table = true) (hb : s.et.backlog = []) (sub : Subject)
include hs hb

theorem setDeny_enforced (e : DenyEntry) : Enforced sub s (setDeny (subjectKey sub) e s) :=
  ⟨tsorted_tput _ _ _ hs, length_tput _ _ _, hb, fun k hk => by rw [wantAt_setDeny, if_neg (Ne.symm hk)], setDeny_silent _ _ s⟩

theorem enforceBlock_enforced (hroom : s.et.table.length < 4096) :
    Enforced sub s (enforceBlock sub s) ∧ wantAt (subjectKey sub) (enforceBlock sub s) = some .deny := by
  have hset (e : DenyEntry) (he : e.want = .deny) : Enforced sub s (handWants (setDeny (subjectKey sub) e s))
      ∧ wantAt (subjectKey sub) (handWants (setDeny (subjectKey sub) e s)) = some .deny := by
    have hset := setDeny_enforced hs hb sub e
    have hhand := handWants_sameWants hset.sorted
    refine ⟨hset.same hhand, ?_⟩
    rw [hhand.wants, wantAt_setDeny, if_pos rfl, he]
  unfold enforceBlock
  dsimp only
  split
  · exact hset _ rfl
  · rw [if_pos hroom]
    exact hset _ rfl

/-- With nobody backlogged, a removal only takes the entry away. -/
theorem testRemoval_enforced {s0 : State} (h : Enforced sub s0 s) :
    Enforced sub s0 (testRemoval (subjectKey sub) s)
    ∧ ∀ w, wantAt (subjectKey sub) (testRemoval (subjectKey sub) s) = some w → wantAt (subjectKey sub) s = some w := by
  unfold testRemoval
  split
  · exact ⟨h, fun _ hw => hw⟩
  · split
    · have hadmit : admitBacklog { s with et := { s.et with table := tdel s.et.table (subjectKey sub) } }
          = { s with et := { s.et with table := tdel s.et.table (subjectKey sub) } } := by
        unfold admitBacklog
        dsimp only
        rw [hb]
      rw [hadmit]
      refine ⟨⟨tsorted_tdel _ _ hs, ?_, hb, fun k hk => ?_, h.silent.trans (Noticed.nil rfl)⟩, fun w hw => ?_⟩
      · dsimp only
        rw [tdel_eq_filter]
        exact (List.length_filter_le _ _).trans h.length
      · rw [← h.others k hk]
        unfold wantAt
        dsimp only
        rw [tget_tdel, if_neg (Ne.symm hk)]
      · unfold wantAt at hw
        dsimp only at hw
        rw [tget_tdel, if_pos rfl] at hw
        cases hw
    · exact ⟨h, fun _ hw => hw⟩

theorem enforceUnblock_enforced : Enforced sub s (enforceUnblock sub s)
    ∧ ∀ w, wantAt (subjectKey sub) (enforceUnblock sub s) = some w → w = .allow := by
  unfold enforceUnblock
  dsimp only
  rw [hb, List.contains_nil, if_neg Bool.false_ne_true]
  split
  · rename_i hnone
    refine ⟨⟨hs, Nat.le_succ _, hb, fun _ _ => rfl, Noticed.refl s⟩, fun w hw => ?_⟩
    rw [wantAt, hnone] at hw
    cases hw
  · rename_i e _
    have hset := setDeny_enforced hs hb sub { want := .allow, parts := resetParts e.parts }
    obtain ⟨hremoved, hallow⟩ := testRemoval_enforced hset.sorted hset.backlog sub hset
    have hhand := handWants_sameWants hremoved.sorted
    refine ⟨hremoved.same hhand, fun w hw => ?_⟩
    rw [hhand.wants] at hw
    have hw := hallow w hw
    rw [wantAt_setDeny, if_pos rfl] at hw
    exact (Option.some.inj hw).symm

theorem reportBlocking_enforced (hroom : s.et.table.length < 4096) (old new : QuotaState) :
    Enforced sub s (reportBlocking sub old new s)
    ∧ (old.blocked = false → new.blocked = true → wantAt (subjectKey sub) (reportBlocking sub old new s) = some .deny)
    ∧ (old.blocked = true → new.blocked = false →
        ∀ w, wantAt (subjectKey sub) (reportBlocking sub old new s) = some w → w = .allow) := by
  unfold reportBlocking
  split
  · rename_i hsame
    refine ⟨⟨hs, Nat.le_succ _, hb, fun _ _ => rfl, Noticed.refl s⟩, fun ho hn => ?_, fun ho hn => ?_⟩
    · rw [ho, hn] at hsame; cases hsame
    · rw [ho, hn] at hsame; cases hsame
  · split
    · rename_i hnew
      obtain ⟨henf, hdeny⟩ := enforceBlock_enforced hs hb sub hroom
      exact ⟨henf, fun _ _ => hdeny, fun _ hn => by rw [hnew] at hn; cases hn⟩
    · rename_i hnew
      obtain ⟨henf, hallow⟩ := enforceUnblock_enforced hs hb sub
      exact ⟨henf, fun _ hn => absurd hn hnew, fun _ _ => hallow⟩

end

/-! ### The evaluations of a charge with room for all (R101, R106, R107) -/

/-- QUOTA_STATE of a subject whose state a charge changes. -/
def quotaNote (s : State) (sub : Subject) : Notice :=
  ⟨subjectNotice sub, .quotaState sub (acct s sub).state (nextState (acct s sub)) (loadOf (acct s sub)) ((acct s sub).soft * 16)
    ((acct s sub).hard * 16) (acct s sub).grace .charge (now s)⟩

/-- The subject's state changes when it is evaluated. -/
def isChanged (s : State) (sub : Subject) : Bool := decide (nextState (acct s sub) ≠ (acct s sub).state)

/-- Some subjects have been evaluated while the deny table had room for all of them. -/
structure EnforcedAll (l : List Subject) (s t : State) : Prop where
  sorted : tsorted t.et.table = true
  length : t.et.table.length ≤ s.et.table.length + l.length
  backlog : t.et.backlog = []
  others : ∀ k, k ∉ l.map subjectKey → wantAt k t = wantAt k s
  denied : ∀ sub ∈ l, (acct s sub).state.blocked = false → (nextState (acct s sub)).blocked = true →
    wantAt (subjectKey sub) t = some .deny
  allowed : ∀ sub ∈ l, (acct s sub).state.blocked = true → (nextState (acct s sub)).blocked = false →
    ∀ w, wantAt (subjectKey sub) t = some w → w = .allow
  notices : Noticed ((l.filter (isChanged s)).map (quotaNote s)) s t

theorem evaluate_enforced {s : State} (hs : tsorted s.et.table = true) (hb : s.et.backlog = [])
    (hroom : s.et.table.length < 4096) (sub : Subject) : EnforcedAll [sub] s (evaluate .charge sub s) := by
  by_cases h : nextState (acct s sub) = (acct s sub).state
  · rw [evaluate_of_steady h]
    refine ⟨hs, Nat.le_succ _, hb, fun _ _ => rfl, fun x hx ho hn => ?_, fun x hx ho hn => ?_, ?_⟩
    · rw [List.mem_singleton.1 hx] at ho hn; rw [h, ho] at hn; cases hn
    · rw [List.mem_singleton.1 hx] at ho hn; rw [h, ho] at hn; cases hn
    · rw [List.filter_cons_of_neg (by simp [isChanged, h])]
      exact Noticed.refl s
  · obtain ⟨s2, het, hsilent, heq⟩ : ∃ s2 : State, s2.et = s.et ∧ Noticed [] s s2 ∧ evaluate .charge sub s =
        notify (subjectNotice sub) (quotaNote s sub).content (reportBlocking sub (acct s sub).state (nextState (acct s sub)) s2) := by
      refine ⟨_, ?_, ?_, if_neg h⟩
      · cases sub <;> rfl
      · cases sub <;> rfl
    have hs2 : tsorted s2.et.table = true := by rw [het]; exact hs
    obtain ⟨henf, hdeny, hallow⟩ := reportBlocking_enforced hs2 (by rw [het]; exact hb) sub (by rw [het]; exact hroom)
      (acct s sub).state (nextState (acct s sub))
    have hnote : Frame raiseParts (reportBlocking sub (acct s sub).state (nextState (acct s sub)) s2) (evaluate .charge sub s) :=
      heq ▸ notify_frame _ _ _
    have htable : (evaluate .charge sub s).et.table = _ := hnote.same .denyTable (by decide)
    have hbacklog : (evaluate .charge sub s).et.backlog = _ := hnote.same .backlog (by decide)
    have hwant (k : Nat) : wantAt k (evaluate .charge sub s)
        = wantAt k (reportBlocking sub (acct s sub).state (nextState (acct s sub)) s2) := by unfold wantAt; rw [htable]
    have hwant2 (k : Nat) : wantAt k s2 = wantAt k s := by unfold wantAt; rw [het]
    refine ⟨htable ▸ henf.sorted, ?_, hbacklog.trans henf.backlog, fun k hk => ?_, fun x hx ho hn => ?_, fun x hx ho hn => ?_, ?_⟩
    · rw [htable, ← het]
      exact henf.length
    · rw [hwant, henf.others k fun hk' => hk (List.mem_singleton.2 hk'), hwant2]
    · rw [List.mem_singleton.1 hx] at ho hn ⊢
      rw [hwant]
      exact hdeny ho hn
    · rw [List.mem_singleton.1 hx] at ho hn ⊢
      rw [hwant]
      exact hallow ho hn
    · rw [List.filter_cons_of_pos (by simp [isChanged, h]), heq]
      exact (hsilent.trans henf.silent).silent_trans (notify_noticed _ _ _)

theorem evaluateAll_enforced {l : List Subject} (hl : (l.map subjectKey).Nodup) {s : State} (hs : tsorted s.et.table = true)
    (hb : s.et.backlog = []) (hroom : s.et.table.length + l.length ≤ 4096) : EnforcedAll l s (evaluateAll l s) := by
  induction l generalizing s with
  | nil => exact ⟨hs, Nat.le_refl _, hb, fun _ _ => rfl, fun _ h => absurd h List.not_mem_nil,
      fun _ h => absurd h List.not_mem_nil, Noticed.refl s⟩
  | cons sub r ih =>
    rw [List.map_cons, List.nodup_cons] at hl
    obtain ⟨hkey, hr⟩ := hl
    rw [List.length_cons] at hroom
    have hone := evaluate_enforced hs hb (by omega) sub
    have hlen := hone.length
    rw [List.length_singleton] at hlen
    have hrest := ih hr hone.sorted hone.backlog (by omega)
    rw [evaluateAll_cons]
    have hsame : ∀ x ∈ r, acct (evaluate .charge sub s) x = acct s x := fun x hx => by
      rw [acct_evaluate, if_neg]
      rintro rfl
      exact hkey (List.mem_map_of_mem hx)
    have hnow : now (evaluate .charge sub s) = now s := (evaluate_frame _ _ s).now
    refine ⟨hrest.sorted, ?_, hrest.backlog, fun k hk => ?_, fun x hx ho hn => ?_, fun x hx ho hn => ?_, ?_⟩
    · have := hrest.length
      rw [List.length_cons]
      omega
    · rw [List.map_cons, List.mem_cons, not_or] at hk
      rw [hrest.others k hk.2, hone.others k fun h => hk.1 (List.mem_singleton.1 h)]
    · rcases List.mem_cons.1 hx with rfl | hx
      · rw [hrest.others _ hkey]
        exact hone.denied x (List.mem_singleton.2 rfl) ho hn
      · exact hrest.denied x hx (by rw [hsame x hx]; exact ho) (by rw [hsame x hx]; exact hn)
    · rcases List.mem_cons.1 hx with rfl | hx
      · rw [hrest.others _ hkey]
        exact hone.allowed x (List.mem_singleton.2 rfl) ho hn
      · exact hrest.allowed x hx (by rw [hsame x hx]; exact ho) (by rw [hsame x hx]; exact hn)
    · have hfilter : r.filter (isChanged (evaluate .charge sub s)) = r.filter (isChanged s) :=
        List.filter_congr fun x hx => by unfold isChanged; rw [hsame x hx]
      have hmap : (r.filter (isChanged s)).map (quotaNote (evaluate .charge sub s)) = (r.filter (isChanged s)).map (quotaNote s) :=
        List.map_congr_left fun x hx => by unfold quotaNote; rw [hsame x (List.mem_of_mem_filter hx), hnow]
      have hnotices := hone.notices.trans hrest.notices
      rw [hfilter, hmap, ← List.map_append, ← List.filter_append] at hnotices
      exact hnotices

/-! ### The charge of a record (R72, R77) -/

/-- A record's charge moves its amounts and then evaluates the subjects charged. -/
theorem chargePart_eq {r : ChangeRecord} (hop : r.op = 1 ∨ r.op = 2 ∨ r.op = 3) (p q c : Nat) (s : State) :
    chargePart r p q c s = evaluateAll (chargedSubjects r p q s) (amountsCharged r p q c s) := by
  have hmembers := (amountsCharged_moved (p := p) (q := q) (c := c) (s := s) hop).members
  have hboth (m : State) (hm : (principal m p).group = (principal s p).group) : evaluateBoth .charge p m
      = evaluateAll (.principal p :: ((principal s p).group.map Subject.group).toList) m := by
    rw [evaluateBoth, hm, evaluateGroup_eq]
    rfl
  rcases hop with h | h | h
  · have hmp := hmembers p
    rw [amountsCharged_alloc h] at hmp ⊢
    rw [chargePart, if_pos ((isAlloc_iff r).2 h), chargeAlloc, hboth _ hmp, chargedSubjects_one (by rw [h]; decide)]
  · have hmp := hmembers p
    rw [amountsCharged_free h] at hmp ⊢
    rw [chargePart, if_neg (by rw [isAlloc_iff, h]; decide), if_pos ((isFree_iff r).2 h), chargeFree, hboth _ hmp,
      chargedSubjects_one (by rw [h]; decide)]
  · rw [chargePart, if_neg (by rw [isAlloc_iff, h]; decide), if_neg (by rw [isFree_iff, h]; decide), chargeMove]
    by_cases hpq : p = q
    · subst hpq
      rw [if_pos rfl, amountsCharged_self h, chargedSubjects_self h]
      rfl
    · rw [if_neg hpq, amountsCharged_two h hpq, chargedSubjects_two h hpq, evaluateAll_cons, evaluateAll_append, evaluateAll_cons]
      dsimp only
      rw [evaluateGroup_eq]
      split
      · rfl
      · exact evaluateGroup_eq _ _

end Sys2Proof.Machine
end

