-- ==== Sys2Proof/Proofs/RecordsTaken.lean ====
section
/-! SUPPORT. A record that is taken (R61, R62, log 7), part by part: what each part leaves of the books, the volumes, the deny table and
the notices. -/

namespace Sys2Proof.Machine

/-! ### The parts of a taken record -/

/-- The count of reassigned records becomes `n`. -/
def withReassigned (n : Nat) (s : State) : State := { s with book := { s.book with reassigned := n } }

/-- The count of reassigned records after a record (R61). -/
def reassignedAfter (r : ChangeRecord) (s : State) : Nat :=
  if isReassigned s r then satAdd top32 s.book.reassigned 1 else s.book.reassigned

theorem takeRecord_eq (srv num : Nat) (r : ChangeRecord) (s : State) : takeRecord srv num r s =
    breachPart srv num r (chargedTo s r.principal.toNat) (chargedTo s r.toPrincipal.toNat)
      (markRegion r.volume.toNat r.block.toNat (holdPart r (chargePart r (chargedTo s r.principal.toNat)
        (chargedTo s r.toPrincipal.toNat) (r.count.toNat * (volume s r.volume.toNat).weight)
          (withReassigned (reassignedAfter r s) s)))) := by
  have hcount : (if isReassigned s r then { s with book := { s.book with reassigned := satAdd top32 s.book.reassigned 1 } } else s)
      = withReassigned (reassignedAfter r s) s := by
    unfold reassignedAfter
    split <;> rfl
  unfold takeRecord
  dsimp only
  rw [hcount]
  rfl

theorem withReassigned_frame (n : Nat) (s : State) : Frame [.reassigned] s (withReassigned n s) :=
  ⟨rfl, fun p hp => by
    cases p <;> first | rfl | exact ⟨rfl, rfl⟩ | exact ⟨rfl, rfl, rfl⟩ | exact (hp (by decide)).elim, fun _ => ⟨rfl, rfl⟩⟩

theorem afterRecord_frame (srv : Nat) (q : QueuedRecord) (rest : List QueuedRecord) (v : Option Verdict) (s : State) :
    Frame [.links, .intakes] s (afterRecord srv q rest v s) := by
  unfold afterRecord
  dsimp only
  split
  · split
    · exact (setIntake_frame _ _ s).into (by decide)
    · exact (setIntake_frame _ _ s).into (by decide)
  · split
    · exact (handFrame_frame _ _ _).after (by decide) ((setIntake_frame _ _ s).into (by decide))
    · exact (setIntake_frame _ _ s).into (by decide)

/-- What the checks of R60 say of the op and the principals of a record that passes them. -/
theorem recordVerdict_none {s : State} {r : ChangeRecord} (h : recordVerdict s r = none) :
    (r.op = 1 ∨ r.op = 2 ∨ r.op = 3) ∧ r.principal.toNat ≤ 32767 ∧ (r.op = 3 → r.toPrincipal.toNat ≤ 32767) := by
  have hformat : badFormat r = false := by
    unfold recordVerdict at h
    dsimp only at h
    split at h
    · cases h
    · exact Bool.not_eq_true _ ▸ ‹_›
  simp only [badFormat, Bool.or_eq_false_iff, Bool.not_eq_false', Bool.or_eq_true, Bool.and_eq_false_iff, isAlloc_iff, isFree_iff,
    isMove_iff, decide_eq_false_iff_not, Nat.not_lt] at hformat
  obtain ⟨⟨⟨⟨hop, -⟩, hp⟩, hq⟩, -⟩ := hformat
  refine ⟨or_assoc.1 hop, hp, fun h3 => hq.resolve_left fun hmove => ?_⟩
  rw [(isMove_iff r).2 h3] at hmove
  cases hmove

/-- The turn of a record that is taken. -/
theorem dealWith_taken {srv : Nat} {qr : QueuedRecord} {s : State} (hdup : qr.dup = false)
    (hv : recordVerdict s qr.record = none) (rest : List QueuedRecord) : dealWith srv qr rest s =
      afterRecord srv qr rest (verdictOf s qr) (takeRecord srv qr.num qr.record s) := by
  have htaken : isTaken (verdictOf s qr) = true := by
    rw [verdictOf, hdup, if_neg Bool.false_ne_true, hv]
    dsimp only
    split <;> rfl
  rw [dealWith, htaken]
  rfl

/-! ### The amounts raise no notice -/

theorem onGroup_silent (x : Option Nat) (f : Account → Account) (s : State) : Noticed [] s (onGroup x f s) := by
  cases x <;> exact Noticed.nil rfl

theorem setPrincipal_silent (p : Nat) (r : Principal) (s : State) : Noticed [] s (setPrincipal p r s) := Noticed.nil rfl

theorem addCharge_silent (p c : Nat) (s : State) : Noticed [] s (addCharge p c s) :=
  (setPrincipal_silent _ _ s).trans (onGroup_silent _ _ _)

theorem subCharge_silent (p c : Nat) (s : State) : Noticed [] s (subCharge p c s) :=
  (setPrincipal_silent _ _ s).trans (onGroup_silent _ _ _)

theorem convert_silent (tag p c : Nat) (s : State) : Noticed [] s (convert tag p c s) := by
  unfold convert
  split
  · exact Noticed.refl s
  · split
    · rename_i j _ _
      have hjob : Noticed [] s (setRestoreJob tag { j with remaining := j.remaining - min c j.remaining } s) := Noticed.nil rfl
      exact hjob.trans ((setPrincipal_silent p _ _).trans (onGroup_silent _ _ _))
    · exact Noticed.refl s

theorem amountsCharged_silent (r : ChangeRecord) (p q c : Nat) (s : State) : Noticed [] s (amountsCharged r p q c s) := by
  unfold amountsCharged
  split
  · exact (convert_silent _ _ _ s).trans (addCharge_silent _ _ _)
  · split
    · exact subCharge_silent _ _ s
    · split
      · exact setPrincipal_silent _ _ s
      · exact (subCharge_silent _ _ s).trans (addCharge_silent _ _ _)

theorem amountsCharged_frame (r : ChangeRecord) (p q c : Nat) (s : State) :
    Frame [.principals, .groups, .restoreJobs] s (amountsCharged r p q c s) := by
  unfold amountsCharged
  split
  · exact (addCharge_frame _ _ _).after (by decide) (convert_frame _ _ _ s)
  · split
    · exact (subCharge_frame _ _ s).into (by decide)
    · split
      · exact (setPrincipal_frame _ _ s).into (by decide)
      · exact (addCharge_frame _ _ _).after (by decide) ((subCharge_frame _ _ s).into (by decide))

/-! ### Holds and breaches, by op (R62) -/

theorem holdPart_frame (r : ChangeRecord) (s : State) : Frame catalogParts s (holdPart r s) := by
  unfold holdPart
  split
  · exact attributeHold_frame _ _ _ s
  · exact Frame.refl _ s

theorem holdPart_of_other {r : ChangeRecord} (h : r.op ≠ 2) (s : State) : holdPart r s = s :=
  if_neg fun hf => h ((isFree_iff r).1 hf)

theorem holdPart_of_free {r : ChangeRecord} (h : r.op = 2) (s : State) :
    holdPart r s = attributeHold r.volume.toNat r.birthEpoch.toNat r.count.toNat s := if_pos ((isFree_iff r).2 h)

theorem breachPart_of_alloc {r : ChangeRecord} (h : r.op = 1) (srv num p q : Nat) (s : State) :
    breachPart srv num r p q s = detectBreach p srv num r.volume.toNat r.count.toNat false s := if_pos ((isAlloc_iff r).2 h)

theorem breachPart_of_free {r : ChangeRecord} (h : r.op = 2) (srv num p q : Nat) (s : State) : breachPart srv num r p q s = s := by
  rw [breachPart, if_neg (by rw [isAlloc_iff, h]; decide), if_neg (by rw [isMove_iff, h]; decide)]

theorem breachPart_of_move {r : ChangeRecord} (h : r.op = 3) (srv num p q : Nat) (s : State) :
    breachPart srv num r p q s = detectBreach q srv num r.volume.toNat r.count.toNat true s := by
  rw [breachPart, if_neg (by rw [isAlloc_iff, h]; decide), if_pos ((isMove_iff r).2 h)]

theorem breachPart_frame (srv num : Nat) (r : ChangeRecord) (p q : Nat) (s : State) :
    Frame (.principals :: .breachTotal :: raiseParts) s (breachPart srv num r p q s) := by
  unfold breachPart
  split
  · exact detectBreach_frame _ _ _ _ _ _ s
  · split
    · exact detectBreach_frame _ _ _ _ _ _ s
    · exact Frame.refl _ s

/-! ### A breach (R114, R115) -/

theorem detectBreach_of_none {p srv num : Nat} {s : State} (h : breachHeld s p srv num = none) (vol n : Nat) (m : Bool) :
    detectBreach p srv num vol n m s = s := by
  rw [detectBreach, h]

/-- The breach is counted at the principal. -/
def breachCounted (p : Nat) (s : State) : State :=
  setPrincipal p { principal s p with breachCount := min 255 ((principal s p).breachCount + 1) } s

/-- The breach is counted in the total. -/
def breachTotalled (s : State) : State :=
  { s with et := { s.et with breachTotal := min 4294967295 (s.et.breachTotal + 1) } }

/-- BREACH of a record. -/
def breachNotice (s : State) (p srv vol n : Nat) (m : Bool) (held : BreachOf) : Notice :=
  ⟨.principal p, .breach srv vol m n held (min 255 ((principal s p).breachCount + 1)) (now s)⟩

theorem detectBreach_of_some {p srv num : Nat} {s : State} {held : BreachOf} (h : breachHeld s p srv num = some held)
    (vol n : Nat) (m : Bool) : (∀ k, principal (detectBreach p srv num vol n m s) k = principal (breachCounted p s) k)
      ∧ (detectBreach p srv num vol n m s).et.breachTotal = min 4294967295 (s.et.breachTotal + 1)
      ∧ Noticed [breachNotice s p srv vol n m held] s (detectBreach p srv num vol n m s) := by
  have heq : detectBreach p srv num vol n m s = raise (breachNotice s p srv vol n m held) (breachTotalled (breachCounted p s)) := by
    rw [detectBreach, h]
    rfl
  have hframe : Frame raiseParts (breachTotalled (breachCounted p s)) (detectBreach p srv num vol n m s) := heq ▸ raise_frame _ _
  refine ⟨fun k => ?_, hframe.same .breachTotal (by decide), ?_⟩
  · unfold principal
    rw [hframe.same .principals (by decide)]
    rfl
  · rw [heq]
    have hsilent : Noticed [] s (breachTotalled (breachCounted p s)) := Noticed.nil rfl
    exact hsilent.silent_trans (Eq.refl _)

theorem principal_breachCounted (p : Nat) (s : State) (k : Nat) : principal (breachCounted p s) k =
    if p = k then { principal s p with breachCount := min 255 ((principal s p).breachCount + 1) } else principal s k :=
  principal_setPrincipal ..

theorem principal_detectBreach (p srv num vol n : Nat) (m : Bool) (s : State) :
    (∀ k, ∃ i, principal (detectBreach p srv num vol n m s) k = { principal s k with breachCount := i })
    ∧ ∀ k, k ≠ p → principal (detectBreach p srv num vol n m s) k = principal s k := by
  cases h : breachHeld s p srv num with
  | none =>
    rw [detectBreach_of_none h]
    exact ⟨fun _ => ⟨_, rfl⟩, fun _ _ => rfl⟩
  | some held =>
    obtain ⟨hprincipal, -, -⟩ := detectBreach_of_some h vol n m
    refine ⟨fun k => ?_, fun k hk => ?_⟩
    · rw [hprincipal, principal_breachCounted]
      split
      · rename_i hpk
        subst hpk
        exact ⟨_, rfl⟩
      · exact ⟨_, rfl⟩
    · rw [hprincipal, principal_breachCounted, if_neg (Ne.symm hk)]

/-- A record counts a breach of the principal charged with more at most. -/
theorem principal_breachPart (srv num : Nat) (r : ChangeRecord) (p q : Nat) (s : State) :
    (∀ k, ∃ i, principal (breachPart srv num r p q s) k = { principal s k with breachCount := i })
    ∧ ∀ k, k ≠ p → (r.op = 3 → k ≠ q) → principal (breachPart srv num r p q s) k = principal s k := by
  unfold breachPart
  split
  · obtain ⟨hall, hothers⟩ := principal_detectBreach p srv num r.volume.toNat r.count.toNat false s
    exact ⟨hall, fun k hk _ => hothers k hk⟩
  · split
    · rename_i hmove
      obtain ⟨hall, hothers⟩ := principal_detectBreach q srv num r.volume.toNat r.count.toNat true s
      exact ⟨hall, fun k _ hk => hothers k (hk ((isMove_iff r).1 hmove))⟩
    · exact ⟨fun _ => ⟨_, rfl⟩, fun _ _ _ => rfl⟩

/-- Whose denial is breached, told by two answers. -/
theorem breachHeld_eq {s : State} {p srv num : Nat} {own grp : Bool} (ho : own = confirmedDenial s (.principal p) srv num)
    (hg : grp = true ↔ ∃ g, (principal s p).group = some g ∧ confirmedDenial s (.group g) srv num = true) :
    breachHeld s p srv num = if own && grp then some .both else if own then some .own else if grp then some .group else none := by
  unfold breachHeld
  dsimp only
  rw [← ho]
  cases hx : (principal s p).group with
  | none =>
    have hno : grp = false := Bool.eq_false_iff.2 fun h => by
      obtain ⟨g, hsome, -⟩ := hg.1 h
      rw [hx] at hsome
      cases hsome
    rw [hno]
  | some g =>
    have hsame : grp = confirmedDenial s (.group g) srv num := by
      rw [Bool.eq_iff_iff, hg, hx]
      exact ⟨fun ⟨_, hsome, h⟩ => Option.some.inj hsome ▸ h, fun h => ⟨g, rfl, h⟩⟩
    rw [hsame]

theorem breachHeld_congr {s t : State} (ht : t.et.table = s.et.table) {p : Nat}
    (hp : (principal t p).group = (principal s p).group) (srv num : Nat) : breachHeld t p srv num = breachHeld s p srv num := by
  unfold breachHeld confirmedDenial denyEntry
  rw [ht, hp]

end Sys2Proof.Machine
end

