-- ==== Sys2Proof/Proofs/RecordsInTheBooks.lean ====
section
/-! SUPPORT. A taken record from before to after: the books, the region map, the deny table, the catalog and the notices (R61 to R64,
R72 to R79, R100, R114, R125). -/

namespace Sys2Proof.Machine

/-- The state in which a record's breach is looked for (log 7). -/
def recordMarked (r : ChangeRecord) (e : State) : State := markRegion r.volume.toNat r.block.toNat (holdPart r e)

theorem recordMarked_frame (r : ChangeRecord) (e : State) : Frame catalogParts e (recordMarked r e) :=
  (setVolume_frame _ _ _).after (by decide) (holdPart_frame r e)

/-- A record that charges `c` to `p`, or from `p` to `q`, has been taken: `m` is the state with its amounts moved, `e` the one with the
subjects charged evaluated, `x` the one after its breach. -/
structure Taken (srv num : Nat) (r : ChangeRecord) (p q c : Nat) (s m e x t : State) : Prop where
  op : r.op = 1 ∨ r.op = 2 ∨ r.op = 3
  amounts : m = amountsCharged r p q c (withReassigned (reassignedAfter r s) s)
  charge : e = evaluateAll (chargedSubjects r p q s) m
  breach : x = breachPart srv num r p q (recordMarked r e)
  frame : Frame [.links, .intakes] x t
  silent : Noticed [] x t

/-- The parts that a record's hold, mark, breach and end may change. -/
abbrev heldParts : List Part :=
  [.mgmtTx, .busy, .slot, .queue, .sequence, .lostMark, .links, .snaps, .volumes, .reserveOver, .principals, .breachTotal, .intakes]

section

variable {srv num : Nat} {r : ChangeRecord} {p q c : Nat} {s m e x t : State} (h : Taken srv num r p q c s m e x t)
include h

/-! ### The frames -/

theorem Taken.moved : AmountsMoved (chargedSubjects r p q s) s m := by
  have hm := amountsCharged_moved (p := p) (q := q) (c := c) (s := withReassigned (reassignedAfter r s) s) h.op
  rw [← h.amounts] at hm
  exact ⟨hm.accts, hm.principals, hm.groups, hm.members, hm.breaches⟩

theorem Taken.evaluated : Evaluated (chargedSubjects r p q s) m e := h.charge ▸ evaluateAll_evaluated chargedSubjects_nodup m

theorem Taken.amounts_frame : Frame [.principals, .groups, .restoreJobs, .reassigned] s m := by
  rw [h.amounts]
  exact (amountsCharged_frame r p q c _).after (by decide) ((withReassigned_frame _ s).into (by decide))

theorem Taken.charge_frame : Frame evalParts m e := h.charge ▸ evaluateAll_frame _ m

theorem Taken.breach_frame : Frame (.principals :: .breachTotal :: raiseParts) (recordMarked r e) x :=
  h.breach ▸ breachPart_frame srv num r p q _

theorem Taken.held_frame : Frame heldParts e t :=
  h.frame.after (by decide) (h.breach_frame.after (by decide) ((recordMarked_frame r e).into (by decide)))

/-! ### The books (R61, R72 to R79) -/

theorem Taken.reassigned : t.book.reassigned = reassignedAfter r s := by
  have hend := h.held_frame.same .reassigned (by decide)
  have hcharge := h.charge_frame.same .reassigned (by decide)
  have hamounts := (amountsCharged_frame r p q c (withReassigned (reassignedAfter r s) s)).same .reassigned (by decide)
  rw [← h.amounts] at hamounts
  exact hend.trans (hcharge.trans hamounts)

theorem Taken.principal_t : (∀ k, ∃ i, principal t k = { principal e k with breachCount := i })
    ∧ ∀ k, k ≠ p → (r.op = 3 → k ≠ q) → principal t k = principal e k := by
  obtain ⟨hall, hothers⟩ := principal_breachPart srv num r p q (recordMarked r e)
  rw [← h.breach] at hall hothers
  have hmarked (k : Nat) : principal (recordMarked r e) k = principal e k := by
    unfold principal
    rw [(recordMarked_frame r e).same .principals (by decide)]
  have hend (k : Nat) : principal t k = principal x k := by
    unfold principal
    rw [h.frame.same .principals (by decide)]
  simp only [hmarked, ← hend] at hall hothers
  exact ⟨hall, hothers⟩

theorem Taken.group_t (g : Nat) : group t g = group e g := by
  unfold group
  rw [h.held_frame.same .groups (by decide)]

theorem Taken.acct_t (sub : Subject) : acct t sub = acct e sub := by
  cases sub with
  | principal k =>
    obtain ⟨i, hi⟩ := h.principal_t.1 k
    rw [acct, hi]
    rfl
  | group g => rw [acct, h.group_t]; rfl

/-- The account of a subject charged, after the record. -/
theorem Taken.acct_charged (sub : Subject) (hsub : sub ∈ chargedSubjects r p q s) :
    acct t sub = { acct m sub with state := nextState (acct m sub) } := by
  rw [h.acct_t, h.evaluated.accts, if_pos hsub]

theorem Taken.acct_others (sub : Subject) (hsub : sub ∉ chargedSubjects r p q s) : acct t sub = acct s sub := by
  rw [h.acct_t, h.evaluated.accts, if_neg hsub]
  cases sub with
  | principal k => exact congrArg Principal.acct (h.moved.principals k hsub)
  | group g => exact congrArg Group.acct (h.moved.groups g hsub)

theorem Taken.state_m (sub : Subject) : (acct m sub).state = (acct s sub).state := by
  have hmoved := congrArg Account.state (h.moved.accts sub)
  exact hmoved

theorem Taken.acct_evaluated (sub : Subject) (hsub : sub ∈ chargedSubjects r p q s) {a : Account}
    (ha : a = { acct s sub with usage := (acct t sub).usage, reservation := (acct t sub).reservation }) :
    acct t sub = { a with state := nextState a } := by
  have hacct := h.acct_charged sub hsub
  have hm : a = acct m sub := by rw [ha, hacct]; exact (h.moved.accts sub).symm
  rw [hacct, hm]

theorem Taken.principal_others {k : Nat} (hp : k ≠ p) (hq : r.op = 3 → k ≠ q) : principal t k = principal s k := by
  have hsub : .principal k ∉ chargedSubjects r p q s := fun hin =>
    (principal_mem_charged.1 hin).elim hp fun h3 => hq h3.1 h3.2
  rw [h.principal_t.2 k hp hq, h.evaluated.principals, h.evaluated.accts, if_neg hsub]
  exact h.moved.principals k hsub

theorem Taken.group_others {g : Nat} (hp : (principal s p).group ≠ some g)
    (hq : r.op = 3 → p ≠ q → (principal s q).group ≠ some g) : group t g = group s g := by
  have hsub : .group g ∉ chargedSubjects r p q s := fun hin => by
    obtain ⟨hself, hin⟩ := group_mem_charged.1 hin
    exact hin.elim hp fun h3 => hq h3.1 (fun hpq => hself ⟨h3.1, hpq⟩) h3.2
  rw [h.group_t, h.evaluated.groups, h.evaluated.accts, if_neg hsub]
  exact h.moved.groups g hsub

/-- The evaluations and what follows leave the amounts and the outcomes. -/
theorem Taken.principal_amounts (k : Nat) : (principal t k).acct.usage = (principal m k).acct.usage
    ∧ (principal t k).acct.reservation = (principal m k).acct.reservation ∧ (principal t k).outcome = (principal m k).outcome := by
  obtain ⟨i, hi⟩ := h.principal_t.1 k
  rw [hi, h.evaluated.principals, h.evaluated.accts]
  split <;> exact ⟨rfl, rfl, rfl⟩

theorem Taken.group_amounts (g : Nat) : (group t g).acct.usage = (group m g).acct.usage
    ∧ (group t g).acct.reservation = (group m g).acct.reservation := by
  rw [h.group_t, h.evaluated.groups, h.evaluated.accts]
  split <;> exact ⟨rfl, rfl⟩

theorem Taken.jobs : t.rsc.jobs = m.rsc.jobs :=
  (h.held_frame.same .restoreJobs (by decide)).trans (h.charge_frame.same .restoreJobs (by decide))

/-! ### The soft list and the deny table (R101, R102, R106, R107) -/

theorem Taken.softList : t.qm.softList = (chargedSubjects r p q s).foldl (fun l sub =>
    if (acct t sub).state = (acct s sub).state then l
    else if (acct s sub).state = .soft then l.filter (· ≠ sub)
    else if (acct t sub).state = .soft then l ++ [sub] else l) s.qm.softList := by
  have hend : t.qm.softList = e.qm.softList := h.held_frame.same .softList (by decide)
  have hstart : m.qm.softList = s.qm.softList := h.amounts_frame.same .softList (by decide)
  rw [hend, h.evaluated.soft, hstart]
  refine List.foldl_ext _ _ _ fun l sub hsub => ?_
  have hstate : (acct t sub).state = nextState (acct m sub) := congrArg Account.state (h.acct_charged sub hsub)
  rw [softListBy, softListAfter, hstate, ← h.state_m]

theorem Taken.enforced (hs : tsorted s.et.table = true) (hb : s.et.backlog = []) (hroom : s.et.table.length ≤ 4092)
    (hp : p < 32768) (hq : r.op = 3 → q < 32768) : EnforcedAll (chargedSubjects r p q s) m e := by
  have hlow : ∀ k, .principal k ∈ chargedSubjects r p q s → k < 32768 := fun k hk => by
    rcases principal_mem_charged.1 hk with rfl | ⟨h3, rfl⟩
    · exact hp
    · exact hq h3
  have hkeys : ((chargedSubjects r p q s).map subjectKey).Nodup := by
    refine chargedSubjects_nodup.map_on fun a ha b hb hab => ?_
    cases a with
    | principal i =>
      cases b with
      | principal j => exact congrArg _ hab
      | group j => exact absurd (hab ▸ hlow i ha : subjectKey (.group j) < 32768) (by simp [subjectKey])
    | group i =>
      cases b with
      | principal j => exact absurd (hab.symm ▸ hlow j hb : subjectKey (.group i) < 32768) (by simp [subjectKey])
      | group j => exact congrArg _ (Nat.add_left_cancel hab)
  have htable : m.et.table = s.et.table := h.amounts_frame.same .denyTable (by decide)
  have hbacklog : m.et.backlog = s.et.backlog := h.amounts_frame.same .backlog (by decide)
  have hlen : (chargedSubjects r p q s).length ≤ 4 := by
    have hone (x : Option Nat) : (x.map Subject.group).toList.length ≤ 1 := by cases x <;> simp
    have h1 := hone (principal s p).group
    have h2 := hone (principal s q).group
    unfold chargedSubjects
    split_ifs <;> simp only [List.length_cons, List.length_append, List.length_nil] <;> omega
  rw [h.charge]
  exact evaluateAll_enforced hkeys (by rw [htable]; exact hs) (by rw [hbacklog]; exact hb) (by rw [htable]; omega)

theorem Taken.wantAt_t (k : Nat) : (tget t.et.table k).map DenyEntry.want = wantAt k e := by
  rw [h.held_frame.same .denyTable (by decide)]
  rfl

/-! ### Notices -/

theorem Taken.amounts_silent : Noticed [] s m := by
  rw [h.amounts]
  have hcount : Noticed [] s (withReassigned (reassignedAfter r s) s) := Noticed.nil rfl
  exact hcount.trans (amountsCharged_silent r p q c _)

theorem Taken.charge_speaks : Speaks s e := by
  rw [h.charge]
  exact h.amounts_silent.speaks.trans (evaluateAll_speaks _ m)

theorem Taken.held_speaks : Speaks e t := by
  have hbreach : Speaks (recordMarked r e) x := h.breach ▸ (breachPart_work srv num r p q _).speaks
  exact ((holdPart_work r e).speaks.trans (markRegion_silent _ _ _).speaks).trans (hbreach.trans h.silent.speaks)

/-- A FREE raises nothing behind its hold. -/
theorem Taken.free_silent (hop : r.op = 2) : Noticed [] (holdPart r e) t := by
  have hx : x = recordMarked r e := h.breach.trans (breachPart_of_free hop _ _ _ _ _)
  exact (markRegion_silent _ _ _).trans (hx ▸ h.silent)

/-- QUOTA_STATE of the subjects charged whose states change, in the order of the evaluations. -/
theorem Taken.quotaNotes : ((chargedSubjects r p q s).filter (isChanged m)).map (quotaNote m)
    = ((chargedSubjects r p q s).filter fun sub => decide ((acct t sub).state ≠ (acct s sub).state)).map fun sub =>
        ⟨subjectNotice sub, .quotaState sub (acct s sub).state (acct t sub).state (loadOf (acct t sub))
          ((acct t sub).soft * 16) ((acct t sub).hard * 16) (acct t sub).grace .charge (now s)⟩ := by
  have hnow : now m = now s := h.amounts_frame.now
  have hchanged : ∀ sub ∈ chargedSubjects r p q s,
      isChanged m sub = decide ((acct t sub).state ≠ (acct s sub).state) := fun sub hsub => by
    rw [isChanged, h.acct_charged sub hsub, h.state_m]
  rw [List.filter_congr hchanged]
  refine List.map_congr_left fun sub hsub => ?_
  rw [quotaNote, h.acct_charged sub (List.mem_of_mem_filter hsub), h.state_m, hnow]
  rfl

/-! ### The region map and the catalog (R44, R125) -/

theorem Taken.volume_t (j : Nat) : volume t j = volume (recordMarked r e) j := by
  rw [h.frame.volume, h.breach_frame.volume]

theorem Taken.records_t : t.sc.records = (holdPart r e).sc.records := by
  rw [h.frame.same .snaps (by decide), h.breach_frame.same .snaps (by decide)]
  rfl

theorem Taken.reserveFlag_t (v : Nat) : reserveFlag t v = reserveFlag (holdPart r e) v := by
  unfold reserveFlag
  rw [h.frame.same .reserveOver (by decide), h.breach_frame.same .reserveOver (by decide)]
  rfl

theorem Taken.volume_e (j : Nat) : volume e j = volume s j := by
  rw [h.charge_frame.volume, h.amounts_frame.volume]

theorem Taken.records_e : e.sc.records = s.sc.records := by
  rw [h.charge_frame.same .snaps (by decide), h.amounts_frame.same .snaps (by decide)]

theorem Taken.heldTotal_t (v : Nat) : (volume t v).heldTotal = (volume (holdPart r e) v).heldTotal
    ∧ (volume t v).reserveLimit = (volume (holdPart r e) v).reserveLimit := by
  rw [h.volume_t]
  exact heldTotal_markRegion _ _ _ v

theorem Taken.withinReserve_t (v : Nat) : withinReserve t v = withinReserve (holdPart r e) v := by
  obtain ⟨hheld, hlimit⟩ := h.heldTotal_t v
  unfold withinReserve
  rw [hheld, hlimit]

/-- The region of the record's block carries the volume's epoch, and no other mark moves. -/
theorem Taken.marks : (volume t r.volume.toNat).marks = tsetD 0 (volume s r.volume.toNat).marks
      (r.block.toNat / (volume s r.volume.toNat).regionBlocks) (volume s r.volume.toNat).epoch
    ∧ (volume t r.volume.toNat).epoch = (volume s r.volume.toNat).epoch := by
  obtain ⟨hmarks, hepoch, hblocks⟩ := (holdPart_holdsMoved r e).geometry r.volume.toNat
  rw [h.volume_t, recordMarked, volume_markRegion, if_pos rfl, regionOf]
  dsimp only
  rw [hmarks, hepoch, hblocks, h.volume_e]
  exact ⟨rfl, rfl⟩

/-- Without a hold, the catalog and the volume's holds stay. -/
theorem Taken.unheld (hold : holdPart r e = e) (v : Nat) :
    t.sc.records = s.sc.records ∧ (volume t v).heldTotal = (volume s v).heldTotal := by
  rw [h.records_t, (h.heldTotal_t v).1, hold, h.records_e, h.volume_e]
  exact ⟨rfl, rfl⟩

theorem Taken.unheld_of_free (hop : r.op = 2)
    (hnone : ∀ y, newestHolder s r.volume.toNat = some y → y.2.epoch < r.birthEpoch.toNat) : holdPart r e = e := by
  rw [holdPart_of_free hop]
  exact attributeHold_of_no_holder fun y hy => hnone y (newestHolder_congr h.records_e _ ▸ hy)

/-! ### The hold of a FREE (R125, R137, R138) -/

theorem Taken.held (hop : r.op = 2) {y : Nat × Snap} (hy : newestHolder s r.volume.toNat = some y)
    (hb : r.birthEpoch.toNat ≤ y.2.epoch) : holdPart r e = pressureTest r.volume.toNat
      (holding r.volume.toNat r.birthEpoch.toNat r.count.toNat y e) := by
  rw [holdPart_of_free hop]
  exact attributeHold_of_holder ((newestHolder_congr h.records_e _).trans hy) hb

theorem Taken.held_flag (hop : r.op = 2) {y : Nat × Snap} (hy : newestHolder s r.volume.toNat = some y)
    (hb : r.birthEpoch.toNat ≤ y.2.epoch) :
    reserveFlag t r.volume.toNat = true ↔ withinReserve t r.volume.toNat = false := by
  rw [h.reserveFlag_t, h.withinReserve_t, h.held hop hy hb, reserveFlag_pressureTest, Bool.not_eq_true']

theorem Taken.held_pressured (hs : tsorted s.sc.records = true) (hop : r.op = 2) {y : Nat × Snap}
    (hy : newestHolder s r.volume.toNat = some y) (hb : r.birthEpoch.toNat ≤ y.2.epoch) :
    ∃ rel before, Pressured r.volume.toNat rel (holding r.volume.toNat r.birthEpoch.toNat r.count.toNat y s) t
      ∧ Noticed (before ++ pressureNotices r.volume.toNat rel
          (holding r.volume.toNat r.birthEpoch.toNat r.count.toNat y s) t) s t := by
  have hvt : e.vt = s.vt := (h.charge_frame.same .volumes (by decide)).trans (h.amounts_frame.same .volumes (by decide))
  have hover : e.sc.reserveOver = s.sc.reserveOver :=
    (h.charge_frame.same .reserveOver (by decide)).trans (h.amounts_frame.same .reserveOver (by decide))
  have hnow : now e = now s := h.charge_frame.now.trans h.amounts_frame.now
  obtain ⟨rel, hpressured, hnoticed⟩ := holding_pressured hs h.records_e hvt hnow hover r.volume.toNat r.birthEpoch.toNat
    r.count.toNat y
  rw [← h.held hop hy hb] at hpressured hnoticed
  obtain ⟨before, hbefore⟩ := h.charge_speaks
  refine ⟨rel, before, hpressured.congr rfl h.records_t ⟨rfl, rfl⟩ (h.heldTotal_t _), ?_⟩
  rw [pressureNotices_congr _ _ rfl rfl rfl rfl (h.heldTotal_t _)]
  exact (hbefore.trans hnoticed).trans_silent (h.free_silent hop)

theorem Taken.held_within (hop : r.op = 2) {y : Nat × Snap} (hy : newestHolder s r.volume.toNat = some y)
    (hb : r.birthEpoch.toNat ≤ y.2.epoch) {held : Nat} (hheld : held = (volume s r.volume.toNat).heldTotal + r.count.toNat)
    (hlimit : (volume s r.volume.toNat).reserveLimit = 0 ∨ held ≤ (volume s r.volume.toNat).reserveLimit) :
    (volume t r.volume.toNat).heldTotal = held
      ∧ snap t y.1 = some { y.2 with holds := addHold y.2.holds ⟨r.birthEpoch.toNat, r.count.toNat⟩ } := by
  have hvol := volume_holding r.volume.toNat r.birthEpoch.toNat r.count.toNat y e
  rw [h.volume_e] at hvol
  have hwithin : withinReserve (holding r.volume.toNat r.birthEpoch.toNat r.count.toNat y e) r.volume.toNat = true := by
    rw [withinReserve, hvol, Bool.or_eq_true, decide_eq_true_eq, decide_eq_true_eq, ← hheld]
    exact hlimit
  obtain ⟨hrecords, hvolumes⟩ := pressureTest_of_within hwithin
  refine ⟨?_, ?_⟩
  · rw [(h.heldTotal_t _).1, h.held hop hy hb, hvolumes, hvol, hheld]
  · unfold snap
    rw [h.records_t, h.held hop hy hb, hrecords]
    exact (tget_tput _ _ _ _).trans (if_pos rfl)

/-! ### Breaches (R114, R115) -/

theorem Taken.free_breaches (hop : r.op = 2) :
    t.et.breachTotal = s.et.breachTotal ∧ (principal t p).breachCount = (principal s p).breachCount := by
  have hx : x = recordMarked r e := h.breach.trans (breachPart_of_free hop _ _ _ _ _)
  have hend : t.et.breachTotal = x.et.breachTotal := h.frame.same .breachTotal (by decide)
  have hmarked : (recordMarked r e).et.breachTotal = e.et.breachTotal := (recordMarked_frame r e).same .breachTotal (by decide)
  have hcharge : e.et.breachTotal = m.et.breachTotal := h.charge_frame.same .breachTotal (by decide)
  have hamounts : m.et.breachTotal = s.et.breachTotal := h.amounts_frame.same .breachTotal (by decide)
  have hprincipal : principal t p = principal e p := by
    unfold principal
    rw [h.frame.same .principals (by decide), hx, (recordMarked_frame r e).same .principals (by decide)]
  refine ⟨by rw [hend, hx, hmarked, hcharge, hamounts], ?_⟩
  rw [hprincipal, h.evaluated.principals]
  exact h.moved.breaches p

/-- Where no quota state changes, the evaluations leave everything as it is. -/
theorem Taken.charge_steady (hsteady : ∀ sub, (acct t sub).state = (acct s sub).state) : e = m := by
  rw [h.charge]
  refine evaluateAll_of_steady fun sub hsub => ?_
  have hstate : (acct t sub).state = nextState (acct m sub) := congrArg Account.state (h.acct_charged sub hsub)
  rw [← hstate, hsteady, h.state_m]

/-- The breach of a record that changes no quota state, by whose denial it breaches. -/
theorem Taken.breached (hsteady : ∀ sub, (acct t sub).state = (acct s sub).state) {who : Nat} {isMove : Bool}
    (hwho : (r.op = 1 ∧ who = p ∧ isMove = false) ∨ (r.op = 3 ∧ who = q ∧ isMove = true)) :
    match breachHeld s who srv num with
    | none => (principal t who).breachCount = (principal s who).breachCount ∧ t.et.breachTotal = s.et.breachTotal ∧ Noticed [] s t
    | some held => (principal t who).breachCount = min 255 ((principal s who).breachCount + 1)
      ∧ t.et.breachTotal = min 4294967295 (s.et.breachTotal + 1)
      ∧ Noticed [breachNotice s who srv r.volume.toNat r.count.toNat isMove held] s t := by
  have hop : r.op ≠ 2 := by rcases hwho with ⟨h1, -⟩ | ⟨h3, -⟩ <;> simp_all
  have hmarked : recordMarked r e = markRegion r.volume.toNat r.block.toNat m := by
    rw [recordMarked, holdPart_of_other hop, h.charge_steady hsteady]
  have hx : x = detectBreach who srv num r.volume.toNat r.count.toNat isMove (markRegion r.volume.toNat r.block.toNat m) := by
    rw [h.breach, hmarked]
    rcases hwho with ⟨h1, rfl, rfl⟩ | ⟨h3, rfl, rfl⟩
    · exact breachPart_of_alloc h1 _ _ _ _ _
    · exact breachPart_of_move h3 _ _ _ _ _
  have htable : (markRegion r.volume.toNat r.block.toNat m).et.table = s.et.table := h.amounts_frame.same .denyTable (by decide)
  have hcount : (principal (markRegion r.volume.toNat r.block.toNat m) who).breachCount = (principal s who).breachCount :=
    h.moved.breaches who
  have htotal : (markRegion r.volume.toNat r.block.toNat m).et.breachTotal = s.et.breachTotal :=
    h.amounts_frame.same .breachTotal (by decide)
  have hnow : now (markRegion r.volume.toNat r.block.toNat m) = now s := h.amounts_frame.now
  have hheld : breachHeld (markRegion r.volume.toNat r.block.toNat m) who srv num = breachHeld s who srv num :=
    breachHeld_congr htable (h.moved.members who) srv num
  have hsilent : Noticed [] s (markRegion r.volume.toNat r.block.toNat m) := h.amounts_silent.trans (markRegion_silent _ _ m)
  have hend : principal t who = principal x who := by
    unfold principal
    rw [h.frame.same .principals (by decide)]
  have hendTotal : t.et.breachTotal = x.et.breachTotal := h.frame.same .breachTotal (by decide)
  rw [hend, hendTotal]
  cases hcase : breachHeld s who srv num with
  | none =>
    have hnone := detectBreach_of_none (hheld.trans hcase) r.volume.toNat r.count.toNat isMove
    have hxm := hx.trans hnone
    rw [hxm]
    exact ⟨hcount, htotal, hsilent.trans (hxm ▸ h.silent)⟩
  | some held =>
    obtain ⟨hprincipal, hbreachTotal, hnoticed⟩ :=
      detectBreach_of_some (hheld.trans hcase) r.volume.toNat r.count.toNat isMove
    rw [← hx] at hprincipal hbreachTotal hnoticed
    refine ⟨?_, by rw [hbreachTotal, htotal], ?_⟩
    · rw [hprincipal, principal_breachCounted, if_pos rfl, hcount]
    · rw [breachNotice, hcount, hnow] at hnoticed
      exact hsilent.silent_trans (hnoticed.trans_silent h.silent)

end

end Sys2Proof.Machine
end

