-- ==== Sys2Proof/Proofs/RecordsChargeAndMark.lean ====
section
/-! PROOF. INTAKE_RECORD on a record that is taken (O27): the books, the map, the catalog and the breach counts (R61, R62, R72 to R79,
R100, R114, R125). -/

namespace Sys2Proof.Machine

theorem chargedTo_le {s : State} {n : Nat} (h : n ≤ 32767) : chargedTo s n < 32768 := by
  unfold chargedTo
  split <;> omega

theorem isReassigned_iff (s : State) (r : ChangeRecord) : isReassigned s r = true ↔
    (principal s r.principal.toNat).defined = false ∨ (r.op = 3 ∧ (principal s r.toPrincipal.toNat).defined = false) := by
  simp only [isReassigned, Bool.or_eq_true, Bool.and_eq_true, Bool.not_eq_true', isMove_iff]

/-- INTAKE_RECORD on a record that passes the checks takes it. -/
theorem intakeRecord_taken {srv : ServerId} {qr : QueuedRecord} {rest : List QueuedRecord} {s : State}
    (hq : (intake s srv).queue = qr :: rest) (hdup : qr.dup = false) (hv : recordVerdict s qr.record = none) :
    ∃ m e x t, exec (.intakeRecord srv) s = .next t
      ∧ Taken srv qr.num qr.record (chargedTo s qr.record.principal.toNat) (chargedTo s qr.record.toPrincipal.toNat)
          (qr.record.count.toNat * (volume s qr.record.volume.toNat).weight) s m e x t
      ∧ Spares recordParts s t := by
  have hop := (recordVerdict_none hv).1
  have hexec : exec (.intakeRecord srv) s = .next (dealWith srv qr rest s) := by
    change Host.Outcome.next (intakeNext srv.val s) = _
    rw [intakeNext, show (intake s srv.val).queue = qr :: rest from hq]
  have hspares := (dealWith_frame srv qr rest s).spares
  rw [dealWith_taken hdup hv rest] at hexec hspares
  refine ⟨_, _, _, _, hexec, ⟨hop, rfl, rfl, ?_, afterRecord_frame _ _ _ _ _, afterRecord_silent _ _ _ _ _⟩, hspares⟩
  rw [takeRecord_eq, chargePart_eq hop]
  rfl

section

variable {srv num : Nat} {r : ChangeRecord} {p q c : Nat} {s m e x t : State} (h : Taken srv num r p q c s m e x t)
include h

/-- While the deny table has room: its wants, and the notices with the QUOTA_STATEs first. -/
theorem Taken.enforcement (hs : Tables s) (hb : s.et.backlog = []) (hroom : s.et.table.length ≤ 4092) (hp : p < 32768)
    (hq : r.op = 3 → q < 32768) :
    (∀ sub ∈ chargedSubjects r p q s, (acct s sub).state.blocked = false → (acct t sub).state.blocked = true →
      ∃ e, tget t.et.table (subjectKey sub) = some e ∧ e.want = .deny)
    ∧ (∀ sub ∈ chargedSubjects r p q s, (acct s sub).state.blocked = true → (acct t sub).state.blocked = false →
      ∀ e, tget t.et.table (subjectKey sub) = some e → e.want = .allow)
    ∧ ∃ after, Noticed (((chargedSubjects r p q s).filter (isChanged m)).map (quotaNote m) ++ after) s t
      ∧ (r.op = 2 → (∀ y, newestHolder s r.volume.toNat = some y → y.2.epoch < r.birthEpoch.toNat) → after = []) := by
  have henforced := h.enforced hs.denyTable hb hroom hp hq
  have hstate : ∀ sub ∈ chargedSubjects r p q s, (acct t sub).state = nextState (acct m sub) := fun sub hsub =>
    congrArg Account.state (h.acct_charged sub hsub)
  refine ⟨fun sub hsub ho hn => ?_, fun sub hsub ho hn e he => ?_, ?_⟩
  · have hwant := henforced.denied sub hsub (by rw [h.state_m]; exact ho) (by rw [← hstate sub hsub]; exact hn)
    rw [← h.wantAt_t] at hwant
    exact Option.map_eq_some_iff.1 hwant
  · refine henforced.allowed sub hsub (by rw [h.state_m]; exact ho) (by rw [← hstate sub hsub]; exact hn) _ ?_
    rw [← h.wantAt_t, he]
    rfl
  · have hquota := h.amounts_silent.silent_trans henforced.notices
    by_cases hidle : r.op = 2 ∧ ∀ y, newestHolder s r.volume.toNat = some y → y.2.epoch < r.birthEpoch.toNat
    · have hend := h.free_silent hidle.1
      rw [h.unheld_of_free hidle.1 hidle.2] at hend
      exact ⟨[], hquota.trans hend, fun _ _ => rfl⟩
    · obtain ⟨after, hafter⟩ := h.held_speaks
      exact ⟨after, hquota.trans hafter, fun hop hnone => absurd ⟨hop, hnone⟩ hidle⟩

/-- The marks of the volume's regions (R44). -/
theorem Taken.region : tgetD 0 (volume t r.volume.toNat).marks (r.block.toNat / (volume s r.volume.toNat).regionBlocks)
      = (volume s r.volume.toNat).epoch
    ∧ ∀ i, i ≠ r.block.toNat / (volume s r.volume.toNat).regionBlocks →
        tgetD 0 (volume t r.volume.toNat).marks i = tgetD 0 (volume s r.volume.toNat).marks i := by
  rw [h.marks.1]
  refine ⟨?_, fun i hi => ?_⟩
  · rw [tgetD_tsetD, if_pos rfl]
  · rw [tgetD_tsetD, if_neg (Ne.symm hi)]

/-! ### The amounts, from before to after the record (R73 to R76, R79) -/

theorem Taken.alloc (hop : r.op = 1) {u : Nat} (hu : u = (principal s p).acct.usage) :
    (principal t p).acct.usage = min 17592186044415 (u + c)
    ∧ (principal t p).outcome =
        { saturated := decide (min 17592186044415 (u + c) - u < c ∨ u = 17592186044415), borrow := false, zero := false }
    ∧ (∀ g, (principal s p).group = some g →
        (group t g).acct.usage = (group s g).acct.usage + (min 17592186044415 (u + c) - u))
    ∧ ((∀ j, restoreJob s r.restoreTag.toNat = some j → j.principal ≠ p) →
        (principal t p).acct.reservation = (principal s p).acct.reservation ∧ t.rsc.jobs = s.rsc.jobs
        ∧ ∀ g, (group t g).acct.reservation = (group s g).acct.reservation)
    ∧ (∀ j, restoreJob s r.restoreTag.toNat = some j → j.principal = p →
        (principal t p).acct.reservation = (principal s p).acct.reservation - min c j.remaining
        ∧ restoreJob t r.restoreTag.toNat = some { j with remaining := j.remaining - min c j.remaining }
        ∧ ∀ g, (principal s p).group = some g →
          (group t g).acct.reservation = (group s g).acct.reservation - min c j.remaining) := by
  obtain ⟨husage, hreservation, houtcome⟩ := h.principal_amounts p
  obtain ⟨musage, moutcome, mgroups⟩ := alloc_amounts (q := q) (c := c) (s := withReassigned (reassignedAfter r s) s) hop hu
  rw [← h.amounts] at musage moutcome mgroups
  refine ⟨husage.trans musage, houtcome.trans moutcome, fun g hg => (h.group_amounts g).1.trans (mgroups g hg), fun hnone => ?_,
    fun j hj hjp => ?_⟩
  · obtain ⟨mres, mjobs, mgres⟩ := alloc_untagged (q := q) (c := c) (s := withReassigned (reassignedAfter r s) s) hop hnone
    rw [← h.amounts] at mres mjobs mgres
    exact ⟨hreservation.trans mres, h.jobs.trans mjobs, fun g => (h.group_amounts g).2.trans (mgres g)⟩
  · obtain ⟨mres, mjob, mgres⟩ := alloc_tagged (q := q) (c := c) (s := withReassigned (reassignedAfter r s) s) hop hj hjp
    rw [← h.amounts] at mres mjob mgres
    refine ⟨hreservation.trans mres, ?_, fun g hg => (h.group_amounts g).2.trans (mgres g hg)⟩
    unfold restoreJob
    rw [h.jobs]
    exact mjob

theorem Taken.free (hop : r.op = 2) {u : Nat} (hu : u = (principal s p).acct.usage) :
    (principal t p).acct.usage = u - min c u
    ∧ (principal t p).outcome =
        { saturated := false, borrow := decide (u < c), zero := decide ((principal t p).acct.usage = 0) }
    ∧ (∀ g, (principal s p).group = some g → (group t g).acct.usage = (group s g).acct.usage - min c u) := by
  obtain ⟨husage, -, houtcome⟩ := h.principal_amounts p
  obtain ⟨musage, moutcome, mgroups⟩ := free_amounts (q := q) (c := c) (s := withReassigned (reassignedAfter r s) s) hop hu
  rw [← h.amounts] at musage moutcome mgroups
  refine ⟨husage.trans musage, ?_, fun g hg => (h.group_amounts g).1.trans (mgroups g hg)⟩
  rw [husage, musage]
  exact houtcome.trans moutcome

theorem Taken.move (hop : r.op = 3) (hpq : p ≠ q) {u w : Nat} (hu : u = (principal s p).acct.usage)
    (hw : w = (principal s q).acct.usage) :
    (principal t p).acct.usage = u - min c u ∧ (principal t q).acct.usage = min 17592186044415 (w + c)
    ∧ (principal t p).outcome =
        { saturated := false, borrow := decide (u < c), zero := decide ((principal t p).acct.usage = 0) }
    ∧ (principal t q).outcome =
        { saturated := decide (min 17592186044415 (w + c) - w < c ∨ w = 17592186044415), borrow := false, zero := false }
    ∧ (∀ g, (principal s p).group = some g ∨ (principal s q).group = some g → (group t g).acct.usage =
        (group s g).acct.usage - (if (principal s p).group = some g then min c u else 0)
          + (if (principal s q).group = some g then min 17592186044415 (w + c) - w else 0)) := by
  obtain ⟨pusage, -, poutcome⟩ := h.principal_amounts p
  obtain ⟨qusage, -, qoutcome⟩ := h.principal_amounts q
  obtain ⟨mpusage, mqusage, mpoutcome, mqoutcome, mgroups⟩ :=
    move_amounts (c := c) (s := withReassigned (reassignedAfter r s) s) hop hpq hu hw
  rw [← h.amounts] at mpusage mqusage mpoutcome mqoutcome mgroups
  refine ⟨pusage.trans mpusage, qusage.trans mqusage, ?_, qoutcome.trans mqoutcome,
    fun g _ => (h.group_amounts g).1.trans (mgroups g)⟩
  rw [pusage, mpusage]
  exact poutcome.trans mpoutcome

theorem Taken.self (hop : r.op = 3) (hpq : p = q) : (principal t p).acct.usage = (principal s p).acct.usage
    ∧ (principal t p).outcome = { saturated := false, borrow := false, zero := false }
    ∧ ∀ g, (group t g).acct.usage = (group s g).acct.usage := by
  subst hpq
  obtain ⟨husage, -, houtcome⟩ := h.principal_amounts p
  obtain ⟨musage, moutcome, mgroups⟩ := self_amounts (p := p) (c := c) (s := withReassigned (reassignedAfter r s) s) hop
  rw [← h.amounts] at musage moutcome mgroups
  exact ⟨husage.trans musage, houtcome.trans moutcome, fun g => (h.group_amounts g).1.trans (mgroups g)⟩

/-- The breach of a record that changes no quota state (R114, R115). -/
theorem Taken.breachNoted (hsteady : ∀ sub, (acct t sub).state = (acct s sub).state) {who : Nat} {isMove own grp : Bool}
    (hwho : (r.op = 1 ∧ who = p ∧ isMove = false) ∨ (r.op = 3 ∧ who = q ∧ isMove = true))
    (hown : own = confirmedDenial s (.principal who) srv num)
    (hgrp : grp = true ↔ ∃ g, (principal s who).group = some g ∧ confirmedDenial s (.group g) srv num = true) :
    if own = true ∨ grp = true then
      (principal t who).breachCount = min 255 ((principal s who).breachCount + 1)
      ∧ t.et.breachTotal = min 4294967295 (s.et.breachTotal + 1)
      ∧ Noticed [breachNotice s who srv r.volume.toNat r.count.toNat isMove
          (if own = true ∧ grp = true then .both else if own = true then .own else .group)] s t
    else (principal t who).breachCount = (principal s who).breachCount ∧ t.et.breachTotal = s.et.breachTotal ∧ Noticed [] s t := by
  have hbreached := h.breached hsteady hwho
  rw [breachHeld_eq hown hgrp] at hbreached
  cases own with
  | true => cases grp <;> exact hbreached
  | false => cases grp <;> exact hbreached

end

/-- Settles O27: the amounts of a taken record move first, its subjects are evaluated in turn, and its hold, its mark and its breach
follow. -/
theorem takenRecordsChargeAndMark : Obligations.TakenRecordsChargeAndMark := by
  rintro srv qr rest s hqueue hdup hv r p q v c u rfl hp hq rfl hc hu
  obtain ⟨m, e, x, t, hexec, h, hspares⟩ := intakeRecord_taken hqueue hdup hv
  obtain ⟨hop, hplow, hqlow⟩ := recordVerdict_none hv
  have hplow : p < 32768 := hp ▸ chargedTo_le hplow
  have hqlow : qr.record.op = 3 → q < 32768 := fun h3 => hq ▸ chargedTo_le (hqlow h3)
  rw [← show p = chargedTo s qr.record.principal.toNat from hp, ← show q = chargedTo s qr.record.toPrincipal.toNat from hq,
    ← hc] at h
  refine ⟨t, hexec, ?_, h.region.1, h.region.2, h.marks.2, fun k => h.principal_others, fun g => h.group_others,
    fun charged hcharged => ?_, fun h1 => ?_, fun h2 => ?_, fun h3 hpq => ?_, fun h3 hpq => ?_, fun h2 => ?_, fun h2 hnone => ?_,
    fun h2 y held hy hb hheld => ⟨h.held_flag h2 hy hb, fun s1 htab hs1 => ?_, h.held_within h2 hy hb hheld⟩,
    h.free_breaches, fun hsteady who isMove own grp hwho hown hgrp => ?_, hspares⟩
  · rw [h.reassigned, reassignedAfter, if_congr (isReassigned_iff s qr.record) rfl rfl]
    rfl
  · subst hcharged
    refine ⟨h.acct_others, fun sub hsub a => h.acct_evaluated sub hsub, h.softList, fun hb hroom htab => ?_⟩
    obtain ⟨hdenied, hallowed, after, hnoticed, hafter⟩ := h.enforcement htab hb hroom hplow hqlow
    rw [h.quotaNotes] at hnoticed
    exact ⟨hdenied, hallowed, after, hnoticed.raises, hafter⟩
  · exact h.alloc h1 (hu p)
  · exact h.free h2 (hu p)
  · exact h.move h3 hpq (hu p) (hu q)
  · rw [hu]
    exact h.self h3 hpq
  · exact h.unheld (holdPart_of_other h2 e) _
  · exact h.unheld (h.unheld_of_free h2 hnone) _
  · subst hs1 hheld
    obtain ⟨rel, before, hpressured, hnoticed⟩ := h.held_pressured htab.snaps h2 hy hb
    exact ⟨rel, before, hpressured, hnoticed.raises⟩
  · have hnoted := h.breachNoted hsteady hwho hown hgrp
    split at hnoted
    · rename_i hdenied
      obtain ⟨hcount, htotal, hnotice⟩ := hnoted
      rw [if_pos hdenied]
      exact ⟨hcount, htotal, hnotice.raises⟩
    · rename_i hdenied
      obtain ⟨hcount, htotal, hnotice⟩ := hnoted
      rw [if_neg hdenied]
      exact ⟨hcount, htotal, hnotice.raises⟩

end Sys2Proof.Machine
end

