-- ==== Sys2Proof/Proofs/ChangesPlaced.lean ====
section
/-! PROOF. CHANGES frames: one that is placed within its credit (O24), and the orders failed back by one that is not placed (O25). -/

namespace Sys2Proof.Machine

/-! ### The records of a frame within its credit (R55, R57) -/

/-- The records of a frame of `n` records, from index `idx` on, as they stand in the intake queue: placed at distance `b`, those of
an index below `b` are duplicates. -/
def placedRecords (tag b n idx : Nat) (recs : List ChangeRecord) : List QueuedRecord :=
  recs.mapIdx fun k r => ⟨r, (tag + (idx + k)) % 65536, tag, idx + k, n, decide (idx + k < b)⟩

theorem placedRecords_cons (tag b n idx : Nat) (r : ChangeRecord) (recs : List ChangeRecord) :
    placedRecords tag b n idx (r :: recs) =
      ⟨r, (tag + idx) % 65536, tag, idx, n, decide (idx < b)⟩ :: placedRecords tag b n (idx + 1) recs := by
  simp only [placedRecords, List.mapIdx_cons, Nat.add_zero, Nat.add_assoc, Nat.add_comm 1]

theorem placedRecords_record (tag b n idx : Nat) (recs : List ChangeRecord) :
    (placedRecords tag b n idx recs).map QueuedRecord.record = recs := by
  refine List.ext_getElem (by simp [placedRecords]) fun k _ _ => ?_
  simp [placedRecords]

theorem placedRecords_getElem? {tag b n idx i : Nat} {recs : List ChangeRecord} {q : QueuedRecord}
    (h : (placedRecords tag b n idx recs)[i]? = some q) :
    q.num = (tag + (idx + i)) % 65536 ∧ q.tag = tag ∧ q.idx = idx + i ∧ q.frameLen = n ∧ q.dup = decide (idx + i < b) := by
  rw [placedRecords, List.getElem?_mapIdx, Option.map_eq_some_iff] at h
  obtain ⟨r, -, rfl⟩ := h
  exact ⟨rfl, rfl, rfl, rfl, rfl⟩

theorem acceptRecord_of_room {i : Intake} (h : i.unack < 64) (tag b n idx : Nat) (r : ChangeRecord) :
    acceptRecord tag b n idx r i = some { i with
      next := if idx < b then i.next else (i.next + 1) % 65536
      unack := i.unack + 1
      queue := i.queue ++ [⟨r, (tag + idx) % 65536, tag, idx, n, decide (idx < b)⟩] } := by
  rw [acceptRecord, if_neg (by omega)]
  simp only [decide_eq_true_eq]

/-- Records that fit within the 64 unacknowledged are all accepted; the next number advances over those that are not duplicates. -/
theorem acceptRecords_of_room (tag b n : Nat) (recs : List ChangeRecord) (idx : Nat) (i : Intake) (hnext : i.next < 65536)
    (h : i.unack + recs.length ≤ 64) : acceptRecords tag b n idx recs i =
      ({ i with
        next := (i.next + (recs.length - min (b - idx) recs.length)) % 65536
        unack := i.unack + recs.length
        queue := i.queue ++ placedRecords tag b n idx recs }, false) := by
  induction recs generalizing idx i with
  | nil => simp [acceptRecords, placedRecords, Nat.mod_eq_of_lt hnext]
  | cons r rs ih =>
    rw [List.length_cons] at h
    have hsteps : (if idx < b then i.next else (i.next + 1) % 65536) < 65536 := by split <;> omega
    have hnumber : ((if idx < b then i.next else (i.next + 1) % 65536) + (rs.length - min (b - (idx + 1)) rs.length)) % 65536
        = (i.next + (rs.length + 1 - min (b - idx) (rs.length + 1))) % 65536 := by split <;> omega
    rw [acceptRecords, acceptRecord_of_room (by omega)]
    dsimp only
    rw [ih (idx + 1) _ hsteps (by dsimp only; omega)]
    simp only [hnumber, placedRecords_cons, List.length_cons, List.append_assoc, List.singleton_append, Nat.add_assoc,
      Nat.add_comm 1]

/-! ### The frame -/

theorem distanceBehind_eq (next : Nat) (tag : BitVec 16) :
    distanceBehind next tag.toNat = (next + 65536 - tag.toNat) % 65536 := by
  rw [distanceBehind, Nat.mod_eq_of_lt tag.isLt]

/-- A placed frame within its credit writes the intake and nothing else. -/
theorem takeChanges_of_room {srv tag b : Nat} {recs : List ChangeRecord} {s : State} (h1 : 1 ≤ recs.length) (h16 : recs.length ≤ 16)
    (hnext : (intake s srv).next < 65536) (hb : distanceBehind (intake s srv).next tag = b) (h64 : b ≤ 64)
    (hroom : (intake s srv).unack + recs.length ≤ 64) : takeChanges srv tag recs s =
      setIntake srv { intake s srv with
        next := ((intake s srv).next + (recs.length - min b recs.length)) % 65536
        unack := (intake s srv).unack + recs.length
        queue := (intake s srv).queue ++ placedRecords tag b recs.length 0 recs } s := by
  unfold takeChanges
  dsimp only
  rw [hb, if_neg (by omega), acceptRecords_of_room _ _ _ _ _ _ hnext hroom]
  rfl

theorem setIntake_unchanged (i : Nat) (r : Intake) (s : State) : Unchanged [.intakes] s (setIntake i r s) := fun p hp => by
  cases p <;> first | rfl | exact ⟨rfl, rfl⟩ | exact ⟨rfl, rfl, rfl⟩ | exact (hp (by decide)).elim

/-- Settles O24: the frame has arrived on its link, and its records stand in the intake. -/
theorem changesAreAccepted : Obligations.ChangesAreAccepted := by
  intro srv tag recs b s hup h1 h16 hnext hb h64 hroom
  have hexec : exec (.changes srv tag recs) s = .next (takeChanges srv tag.toNat recs (frameArrived srv s)) :=
    congrArg Host.Outcome.next (serverFrame_up hup _)
  have harrived : takeChanges srv tag.toNat recs (frameArrived srv s) = setIntake srv _ (frameArrived srv s) :=
    takeChanges_of_room h1 h16 hnext ((distanceBehind_eq _ tag).trans hb.symm) h64 hroom
  rw [harrived] at hexec
  refine ⟨_, hexec, ⟨placedRecords tag.toNat b recs.length 0 recs, placedRecords_record _ _ _ _ _, fun i q hq => ?_, ?_⟩, ?_,
    fun j hj => ⟨link_setLink_ne s _ hj, ?_⟩, ?_⟩
  · have hplaced := placedRecords_getElem? hq
    rwa [Nat.zero_add] at hplaced
  · rw [intake_setIntake, if_pos rfl]
    rfl
  · exact (link_frameArrived_same s srv).trans (by rw [if_pos (linkUp_iff.1 hup.2.2)])
  · rw [intake_setIntake, if_neg (Ne.symm hj)]
    rfl
  · exact ((setLink_unchanged _ _ s).mono (by decide)).trans ((setIntake_unchanged _ _ _).mono (by decide))

/-! ### A frame that is not placed -/

/-- Refutes O25, by a frame in `unpinningState` whose tag is 99 ahead of the next number, so a sequence fault: what is said there of
the orders failed back is false of that state, as it is for O13. -/
theorem not_changesThatFaultTheLink : ¬ Obligations.ChangesThatFaultTheLink := by
  unfold Obligations.ChangesThatFaultTheLink
  intro h
  obtain ⟨t, ht, hleft, -⟩ := (h 0 100 [⟨1, 0, 0, 0, 0, 1, 0, 0⟩] 65437 unpinningState unpinningState_upReceives
    unpinningState_tables (by decide) (by decide) (by decide)).1 (by decide)
  exact not_ordersFailedBack ht (by decide +kernel) hleft.orders

end Sys2Proof.Machine
end

