-- ==== Sys2Proof/Proofs/OrdersJoin.lean ====
section
/-! SUPPORT. A record that is taken hands over nothing but orders (R62, R108, R130): what its parts leave of the transmit queues. -/

namespace Sys2Proof.Machine

/-! ### Orders behind a transmit queue -/

/-- Between `s` and `t` only orders have joined the transmit queues of the server links, behind what stood there. -/
def OrdersJoin (s t : State) : Prop :=
  ∀ j, ∃ orders : List TxFrame, (∀ f ∈ orders, ∃ num body, f = .order num body)
    ∧ (link t j).txQueue = (link s j).txQueue ++ orders

theorem OrdersJoin.refl (s : State) : OrdersJoin s s := fun _ => ⟨[], by simp, by simp⟩

theorem OrdersJoin.trans {s t u : State} (h1 : OrdersJoin s t) (h2 : OrdersJoin t u) : OrdersJoin s u := fun j => by
  obtain ⟨a, ha, hqa⟩ := h1 j
  obtain ⟨b, hb, hqb⟩ := h2 j
  refine ⟨a ++ b, fun f hf => ?_, by rw [hqb, hqa, List.append_assoc]⟩
  exact (List.mem_append.1 hf).elim (ha f) (hb f)

/-- A further operation, read from the outside in. -/
theorem OrdersJoin.after {s t u : State} (h2 : OrdersJoin t u) (h1 : OrdersJoin s t) : OrdersJoin s u := h1.trans h2

theorem OrdersJoin.foldl {β : Type} {f : State → β → State} (h : ∀ s b, OrdersJoin s (f s b)) (l : List β) (s : State) :
    OrdersJoin s (l.foldl f s) := by
  induction l generalizing s with
  | nil => exact OrdersJoin.refl s
  | cons b r ih => exact (h s b).trans (ih _)

/-- What leaves the links alone hands over nothing. -/
theorem Frame.ordersJoin {L : List Part} {s t : State} (h : Frame L s t)
    (hl : Part.links ∉ Part.replies :: Part.restart :: L := by decide) : OrdersJoin s t := fun j => by
  have hlinks : t.lu.links = s.lu.links := h.same .links hl
  exact ⟨[], by simp, by rw [link, link, hlinks, List.append_nil]⟩

theorem issue_ordersJoin (srv : Nat) (body : OrderBody) (s : State) : OrdersJoin s (issue srv body s).1 := fun j => by
  by_cases hj : srv = j
  · subst hj
    exact ⟨[.order (link s srv).counter body], by simp, (link_issue srv body s).2⟩
  · exact ⟨[], by simp, by rw [List.append_nil]; exact congrArg Link.txQueue (link_setLink_ne s _ (Ne.symm hj))⟩

/-! ### Enforcement -/

theorem handWant_ordersJoin (key srv : Nat) (s : State) : OrdersJoin s (handWant key srv s) := by
  unfold handWant
  split
  · exact OrdersJoin.refl s
  · dsimp only
    split
    · exact (issue_ordersJoin _ _ s).trans (setDeny_frame _ _ _).ordersJoin
    · exact OrdersJoin.refl s

theorem handWants_ordersJoin (s : State) : OrdersJoin s (handWants s) :=
  OrdersJoin.foldl (fun _ _ => OrdersJoin.foldl (fun _ _ => handWant_ordersJoin _ _ _) _ _) _ s

theorem admitBacklog_ordersJoin (s : State) : OrdersJoin s (admitBacklog s) := by
  unfold admitBacklog
  split
  · exact OrdersJoin.refl s
  · dsimp only
    split
    · exact (notifyBacklog_frame _ _).ordersJoin.after ((setDeny_frame _ _ _).ordersJoin.after (backlogWrite_frame _ s).ordersJoin)
    · exact (setDeny_frame _ _ _).ordersJoin.after (backlogWrite_frame _ s).ordersJoin

theorem testRemoval_ordersJoin (key : Nat) (s : State) : OrdersJoin s (testRemoval key s) := by
  unfold testRemoval
  split
  · exact OrdersJoin.refl s
  · split
    · exact (admitBacklog_ordersJoin _).after (tableWrite_frame _ s).ordersJoin
    · exact OrdersJoin.refl s

theorem enforceBlock_ordersJoin (sub : Subject) (s : State) : OrdersJoin s (enforceBlock sub s) := by
  unfold enforceBlock
  dsimp only
  split
  · exact (handWants_ordersJoin _).after (setDeny_frame _ _ s).ordersJoin
  · split
    · exact (handWants_ordersJoin _).after (setDeny_frame _ _ s).ordersJoin
    · split
      · exact (notifyBacklog_frame _ _).ordersJoin.after (backlogWrite_frame _ s).ordersJoin
      · exact (backlogWrite_frame _ s).ordersJoin

theorem enforceUnblock_ordersJoin (sub : Subject) (s : State) : OrdersJoin s (enforceUnblock sub s) := by
  unfold enforceUnblock
  dsimp only
  split
  · split
    · exact (notifyBacklog_frame _ _).ordersJoin.after (backlogWrite_frame _ s).ordersJoin
    · exact (backlogWrite_frame _ s).ordersJoin
  · split
    · exact OrdersJoin.refl s
    · exact (handWants_ordersJoin _).after ((testRemoval_ordersJoin _ _).after (setDeny_frame _ _ s).ordersJoin)

/-! ### Evaluations -/

theorem reportBlocking_ordersJoin (sub : Subject) (a b : QuotaState) (s : State) :
    OrdersJoin s (reportBlocking sub a b s) := by
  unfold reportBlocking
  split
  · exact OrdersJoin.refl s
  · split
    · exact enforceBlock_ordersJoin sub s
    · exact enforceUnblock_ordersJoin sub s

theorem evaluate_ordersJoin (cause : QuotaCause) (sub : Subject) (s : State) : OrdersJoin s (evaluate cause sub s) := by
  unfold evaluate
  dsimp only
  split
  · exact OrdersJoin.refl s
  · exact (notify_frame _ _ _).ordersJoin.after ((reportBlocking_ordersJoin _ _ _ _).after
      ((softWrite_frame _ _).ordersJoin.after (setAcct_frame _ _ s).ordersJoin))

theorem evaluateAll_ordersJoin (l : List Subject) (s : State) : OrdersJoin s (evaluateAll l s) :=
  OrdersJoin.foldl (fun _ _ => evaluate_ordersJoin _ _ _) l s

/-! ### Releases -/

theorem handDrop_ordersJoin (id : Nat) (s : State) : OrdersJoin s (handDrop id s) := by
  unfold handDrop
  split
  · exact OrdersJoin.refl s
  · dsimp only
    split
    · exact (setSnap_frame _ _ _).ordersJoin.after (issue_ordersJoin _ _ s)
    · exact OrdersJoin.refl s

theorem cascade_ordersJoin (id : Nat) (x : Snap) (s : State) : OrdersJoin s (cascade id x false s).1 := by
  have hheld : OrdersJoin s (lowerHeld x.volume (cascadeAmounts (olderHolder s id x) x.holds).freed
      (passHolds (olderHolder s id x) x.holds s)) :=
    (setVolume_frame _ _ _).ordersJoin.after (passHolds_frame _ _ s).ordersJoin
  have hdropped := (handDrop_ordersJoin id _).after
    ((setSnap_frame id { x with holds := [], state := .dropping, inFlight := none } _).ordersJoin.after hheld)
  unfold cascade
  dsimp only
  split
  · exact (testReserveFall_frame _ _).ordersJoin.after hdropped
  · exact hdropped

theorem releaseSnap_ordersJoin (why : ReleaseReason) (id : Nat) (s : State) : OrdersJoin s (releaseSnap why id s).1 := by
  unfold releaseSnap
  split
  · exact OrdersJoin.refl s
  · exact (notify_frame _ _ _).ordersJoin.after (cascade_ordersJoin _ _ s)

theorem pressureLoop_ordersJoin (v n : Nat) (s : State) : OrdersJoin s (pressureLoop v n s) := by
  induction n generalizing s with
  | zero => exact OrdersJoin.refl s
  | succ n ih =>
    unfold pressureLoop
    split
    · exact OrdersJoin.refl s
    · split
      · exact OrdersJoin.refl s
      · exact (releaseSnap_ordersJoin _ _ s).trans (ih _)

theorem decideReserve_ordersJoin (v : Nat) (s : State) : OrdersJoin s (decideReserve v s) := by
  unfold decideReserve
  split
  · exact (testReserveFall_frame _ _).ordersJoin
  · split
    · exact OrdersJoin.refl s
    · exact (setReserve_frame _ _).ordersJoin

theorem attributeHold_ordersJoin (v b n : Nat) (s : State) : OrdersJoin s (attributeHold v b n s) := by
  unfold attributeHold
  split
  · exact OrdersJoin.refl s
  · split
    · exact ((decideReserve_ordersJoin _ _).after (pressureLoop_ordersJoin _ _ _)).after
        ((setVolume_frame _ _ _).ordersJoin.after (setSnap_frame _ _ s).ordersJoin)
    · exact OrdersJoin.refl s

/-! ### A record that is taken -/

theorem holdPart_ordersJoin (r : ChangeRecord) (s : State) : OrdersJoin s (holdPart r s) := by
  unfold holdPart
  split
  · exact attributeHold_ordersJoin _ _ _ s
  · exact OrdersJoin.refl s

theorem takeRecord_ordersJoin {s : State} {r : ChangeRecord} (h : recordVerdict s r = none) (srv num : Nat) :
    OrdersJoin s (takeRecord srv num r s) := by
  rw [takeRecord_eq, chargePart_eq (recordVerdict_none h).1]
  exact (breachPart_frame _ _ _ _ _ _).ordersJoin.after ((setVolume_frame _ _ _).ordersJoin.after ((holdPart_ordersJoin _ _).after
    ((evaluateAll_ordersJoin _ _).after ((amountsCharged_frame _ _ _ _ _).ordersJoin.after (withReassigned_frame _ s).ordersJoin))))

end Sys2Proof.Machine
end

