-- ==== Sys2Proof/Proofs/RecordsDealtWith.lean ====
section
/-! PROOF. The record at the head of an intake queue is dealt with (O26): its verdict, what its turn leaves of the intake and of its
link, and what a taken record's orders put ahead of the CHG_ACK. -/

namespace Sys2Proof.Machine

/-! ### The checks and the verdict (R59, R60) -/

theorem badFormat_iff (r : ChangeRecord) : badFormat r = true ↔ (r.op ≠ 1 ∧ r.op ≠ 2 ∧ r.op ≠ 3) ∨ 63 < r.volume.toNat
    ∨ 32767 < r.principal.toNat ∨ (r.op = 3 ∧ 32767 < r.toPrincipal.toNat)
    ∨ (r.op = 1 ∧ 16 ≤ r.restoreTag.toNat ∧ r.restoreTag.toNat ≤ 254) := by
  simp only [badFormat, isAlloc, isFree, isMove, Bool.or_eq_true, Bool.and_eq_true, Bool.not_eq_true', Bool.or_eq_false_iff,
    decide_eq_true_eq, decide_eq_false_iff_not, or_assoc, and_assoc, ne_eq]

theorem crosses_iff (v : Volume) (r : ChangeRecord) : crosses v r = true ↔
    r.block.toNat / v.regionBlocks ≠ (r.block.toNat + r.count.toNat - 1) / v.regionBlocks := decide_eq_true_iff

theorem badBirth_iff (v : Volume) (r : ChangeRecord) :
    badBirth v r = true ↔ r.op = 2 ∧ (r.birthEpoch = 0 ∨ v.epoch < r.birthEpoch.toNat) := by
  have hzero : r.birthEpoch.toNat = 0 ↔ r.birthEpoch = 0 := (BitVec.toNat_eq (y := 0)).symm
  simp only [badBirth, Bool.and_eq_true, Bool.or_eq_true, isFree_iff, decide_eq_true_eq, hzero]

/-- The checks in their order. -/
theorem recordVerdict_eq (s : State) (r : ChangeRecord) : recordVerdict s r =
    if (r.op ≠ 1 ∧ r.op ≠ 2 ∧ r.op ≠ 3) ∨ 63 < r.volume.toNat ∨ 32767 < r.principal.toNat
        ∨ (r.op = 3 ∧ 32767 < r.toPrincipal.toNat) ∨ (r.op = 1 ∧ 16 ≤ r.restoreTag.toNat ∧ r.restoreTag.toNat ≤ 254) then
      some .format
    else if r.count.toNat = 0 ∨ 65535 < r.count.toNat then some .count
    else if (volume s r.volume.toNat).state = .unattached then some .noVolume
    else if (volume s r.volume.toNat).size < r.block.toNat + r.count.toNat then some .range
    else if r.block.toNat / (volume s r.volume.toNat).regionBlocks
        ≠ (r.block.toNat + r.count.toNat - 1) / (volume s r.volume.toNat).regionBlocks then some .crosses
    else if r.op = 2 ∧ (r.birthEpoch = 0 ∨ (volume s r.volume.toNat).epoch < r.birthEpoch.toNat) then some .birth
    else none := by
  simp only [recordVerdict, badFormat_iff, badBirth_iff, crosses_iff, badCount, badRange, Bool.or_eq_true, decide_eq_true_eq]

/-- A check that fails gives a verdict of a record that is rejected. -/
theorem recordVerdict_rejects {s : State} {r : ChangeRecord} {v : Verdict} (h : recordVerdict s r = some v) :
    v ≠ .duplicate ∧ v ≠ .reassigned := by
  rw [recordVerdict_eq] at h
  split_ifs at h <;> cases h <;> decide

/-- A record is taken, is a duplicate, or fails a check. -/
theorem verdictOf_cases (s : State) (q : QueuedRecord) :
    (q.dup = false ∧ recordVerdict s q.record = none ∧ (verdictOf s q = none ∨ verdictOf s q = some .reassigned))
    ∨ (q.dup = true ∧ verdictOf s q = some .duplicate)
    ∨ ∃ v, q.dup = false ∧ recordVerdict s q.record = some v ∧ verdictOf s q = some v ∧ v ≠ .duplicate ∧ v ≠ .reassigned := by
  unfold verdictOf
  cases hdup : q.dup with
  | true => exact .inr (.inl ⟨rfl, rfl⟩)
  | false =>
    cases hv : recordVerdict s q.record with
    | none =>
      refine .inl ⟨rfl, rfl, ?_⟩
      by_cases hr : isReassigned s q.record
      · exact .inr (by simp [hr])
      · exact .inl (by simp [hr])
    | some v => exact .inr (.inr ⟨v, rfl, rfl, rfl, recordVerdict_rejects hv⟩)

theorem isTaken_iff (v : Option Verdict) : isTaken v = true ↔ v = none ∨ v = some .reassigned := by
  rcases v with - | v
  · decide
  · cases v <;> decide

theorem isTaken_verdictOf (s : State) (q : QueuedRecord) :
    isTaken (verdictOf s q) = true ↔ q.dup = false ∧ recordVerdict s q.record = none := by
  rw [isTaken_iff]
  rcases verdictOf_cases s q with ⟨hdup, hv, h⟩ | ⟨hdup, h⟩ | ⟨v, hdup, hv, h, -, hne⟩
  · simp [h, hdup, hv]
  · simp [h, hdup]
  · simp [h, hv, hne]

/-! ### What a turn leaves of the intake and of the links (R58, R66) -/

/-- The intake after the turn of the record in front of `rest`. -/
def Intake.dealt (q : QueuedRecord) (rest : List QueuedRecord) (v : Option Verdict) (i : Intake) : Intake :=
  let c := countVerdict v { i with queue := rest }
  if i.draining then if rest = [] then { c with draining := false, unack := 0 } else c
  else if q.idx + 1 = q.frameLen then { c with unack := c.unack - q.frameLen, verdicts := [] }
  else { c with verdicts := gathered c q v }

/-- The record's turn hands over a CHG_ACK: it is the last of its frame, in an intake that is not draining (R58). -/
def Intake.acks (q : QueuedRecord) (i : Intake) : Bool := !i.draining && decide (q.idx + 1 = q.frameLen)

theorem acks_iff {q : QueuedRecord} {i : Intake} : i.acks q = true ↔ i.draining = false ∧ q.idx + 1 = q.frameLen := by
  rw [Intake.acks, Bool.and_eq_true, Bool.not_eq_true', decide_eq_true_iff]

/-- A verdict moves the counts alone. -/
theorem countVerdict_stands (v : Option Verdict) (i : Intake) : (countVerdict v i).next = i.next
    ∧ (countVerdict v i).unack = i.unack ∧ (countVerdict v i).verdicts = i.verdicts := by
  unfold countVerdict
  split <;> exact ⟨rfl, rfl, rfl⟩

section

variable (srv : Nat) (q : QueuedRecord) (rest : List QueuedRecord) (v : Option Verdict) (s : State) (i : Intake)

theorem dealt_counts : (i.dealt q rest v).taken = (countVerdict v { i with queue := rest }).taken
    ∧ (i.dealt q rest v).rejected = (countVerdict v { i with queue := rest }).rejected
    ∧ (i.dealt q rest v).duplicates = (countVerdict v { i with queue := rest }).duplicates := by
  unfold Intake.dealt
  dsimp only
  split
  · split <;> exact ⟨rfl, rfl, rfl⟩
  · split <;> exact ⟨rfl, rfl, rfl⟩

theorem dealt_queue : (i.dealt q rest v).queue = rest ∧ (i.dealt q rest v).next = i.next := by
  have hqueue := (countVerdict_fields v { i with queue := rest }).1
  have hnext := (countVerdict_stands v { i with queue := rest }).1
  unfold Intake.dealt
  dsimp only
  split
  · split <;> exact ⟨hqueue, hnext⟩
  · split <;> exact ⟨hqueue, hnext⟩

/-- The last record of a frame acknowledges it. -/
theorem dealt_last {q : QueuedRecord} {i : Intake} (h : i.acks q = true) :
    (i.dealt q rest v).unack = i.unack - q.frameLen ∧ (i.dealt q rest v).verdicts = []
      ∧ (i.dealt q rest v).draining = false := by
  obtain ⟨hd, hlast⟩ := acks_iff.1 h
  have hdrain := (countVerdict_fields v { i with queue := rest }).2
  obtain ⟨-, hunack, -⟩ := countVerdict_stands v { i with queue := rest }
  rw [Intake.dealt, if_neg (Bool.not_eq_true _ ▸ hd), if_pos hlast]
  exact ⟨congrArg (· - q.frameLen) hunack, rfl, hdrain.trans hd⟩

/-- Any other record of a frame leaves its verdict with those gathered. -/
theorem dealt_within {q : QueuedRecord} {i : Intake} (hd : i.draining = false) (h : i.acks q ≠ true) :
    (i.dealt q rest v).unack = i.unack ∧ (i.dealt q rest v).verdicts = i.verdicts ++ (v.map fun x => (q.idx, x)).toList
      ∧ (i.dealt q rest v).draining = false := by
  have hdrain := (countVerdict_fields v { i with queue := rest }).2
  obtain ⟨-, hunack, hverdicts⟩ := countVerdict_stands v { i with queue := rest }
  rw [Intake.dealt, if_neg (Bool.not_eq_true _ ▸ hd), if_neg fun hlast => h (acks_iff.2 ⟨hd, hlast⟩)]
  exact ⟨hunack, congrArg (· ++ _) hverdicts, hdrain.trans hd⟩

/-- A draining intake gathers no verdict, and is drained with its last record. -/
theorem dealt_draining {i : Intake} (hd : i.draining = true) : (i.dealt q rest v).verdicts = i.verdicts
    ∧ (rest = [] → (i.dealt q rest v).draining = false ∧ (i.dealt q rest v).unack = 0)
    ∧ (rest ≠ [] → (i.dealt q rest v).draining = true ∧ (i.dealt q rest v).unack = i.unack) := by
  have hdrain := (countVerdict_fields v { i with queue := rest }).2
  obtain ⟨-, hunack, hverdicts⟩ := countVerdict_stands v { i with queue := rest }
  rw [Intake.dealt, if_pos hd]
  split
  · rename_i hr
    exact ⟨hverdicts, fun _ => ⟨rfl, rfl⟩, fun hne => absurd hr hne⟩
  · rename_i hr
    exact ⟨hverdicts, fun h => absurd h hr, fun _ => ⟨hdrain.trans hd, hunack⟩⟩

/-- A record's turn writes its intake, and hands over a CHG_ACK with the verdicts of its frame behind its last record. -/
theorem afterRecord_eq : afterRecord srv q rest v s =
    if (intake s srv).acks q then
      handFrame srv (.chgAck q.tag q.frameLen ((intake s srv).verdicts ++ (v.map fun x => (q.idx, x)).toList))
        (setIntake srv ((intake s srv).dealt q rest v) s)
    else setIntake srv ((intake s srv).dealt q rest v) s := by
  have hdrain := (countVerdict_fields v { intake s srv with queue := rest }).2
  obtain ⟨-, -, hverdicts⟩ := countVerdict_stands v { intake s srv with queue := rest }
  unfold afterRecord Intake.dealt Intake.acks
  dsimp only at hdrain hverdicts ⊢
  simp only [gathered, hdrain, hverdicts]
  cases (intake s srv).draining with
  | true => simp only [if_true, Bool.not_true, Bool.false_and, Bool.false_eq_true, if_false]; split <;> rfl
  | false => simp only [Bool.false_eq_true, if_false, Bool.not_false, Bool.true_and, decide_eq_true_eq]; split <;> rfl

theorem intake_afterRecord (j : Nat) :
    intake (afterRecord srv q rest v s) j = if srv = j then (intake s srv).dealt q rest v else intake s j := by
  rw [afterRecord_eq]
  split <;> exact intake_setIntake ..

theorem link_afterRecord (j : Nat) : link (afterRecord srv q rest v s) j =
    if j = srv ∧ (intake s srv).acks q = true then { link s j with
      txQueue := (link s j).txQueue ++ [.chgAck q.tag q.frameLen ((intake s srv).verdicts ++ (v.map fun x => (q.idx, x)).toList)] }
    else link s j := by
  rw [afterRecord_eq]
  split
  · rename_i hacks
    rw [handFrame, link_setLink]
    split
    · rename_i hj
      subst hj
      rw [if_pos ⟨rfl, hacks⟩]
      rfl
    · rename_i hj
      rw [if_neg fun h => hj h.1.symm]
      rfl
  · rename_i hacks
    rw [if_neg fun h => hacks h.2]
    rfl

end

/-! ### INTAKE_RECORD -/

theorem exec_intakeRecord {srv : ServerId} {q : QueuedRecord} {rest : List QueuedRecord} {s : State}
    (h : (intake s srv).queue = q :: rest) : exec (.intakeRecord srv) s = .next (dealWith srv q rest s) := by
  change Host.Outcome.next (intakeNext srv.val s) = _
  rw [intakeNext, h]

/-- The state in which the head of the queue is put away: a record that is taken has been. -/
def recordTaken (srv : Nat) (q : QueuedRecord) (s : State) : State :=
  if isTaken (verdictOf s q) then takeRecord srv q.num q.record s else s

theorem dealWith_eq (srv : Nat) (q : QueuedRecord) (rest : List QueuedRecord) (s : State) :
    dealWith srv q rest s = afterRecord srv q rest (verdictOf s q) (recordTaken srv q s) := rfl

theorem recordTaken_of_not {srv : Nat} {q : QueuedRecord} {s : State} (h : ¬(q.dup = false ∧ recordVerdict s q.record = none)) :
    recordTaken srv q s = s := if_neg (mt (isTaken_verdictOf s q).1 h)

theorem intake_recordTaken (srv : Nat) (q : QueuedRecord) (s : State) (j : Nat) : intake (recordTaken srv q s) j = intake s j := by
  unfold recordTaken
  split
  · rw [intake, (takeRecord_work _ _ _ s).intakes]
    rfl
  · rfl

theorem recordTaken_ordersJoin (srv : Nat) (q : QueuedRecord) (s : State) : OrdersJoin s (recordTaken srv q s) := by
  unfold recordTaken
  split
  · rename_i htaken
    exact takeRecord_ordersJoin ((isTaken_verdictOf s q).1 htaken).2 _ _
  · exact OrdersJoin.refl s

theorem intake_dealWith (srv : Nat) (q : QueuedRecord) (rest : List QueuedRecord) (s : State) (j : Nat) :
    intake (dealWith srv q rest s) j = if srv = j then (intake s srv).dealt q rest (verdictOf s q) else intake s j := by
  rw [dealWith_eq, intake_afterRecord, intake_recordTaken, intake_recordTaken]

theorem link_dealWith (srv : Nat) (q : QueuedRecord) (rest : List QueuedRecord) (s : State) (j : Nat) :
    link (dealWith srv q rest s) j = if j = srv ∧ (intake s srv).acks q = true then { link (recordTaken srv q s) j with
        txQueue := (link (recordTaken srv q s) j).txQueue
          ++ [.chgAck q.tag q.frameLen ((intake s srv).verdicts ++ ((verdictOf s q).map fun x => (q.idx, x)).toList)] }
      else link (recordTaken srv q s) j := by
  rw [dealWith_eq, link_afterRecord, intake_recordTaken]

/-- A record that is not taken moves its link and its intake alone. -/
theorem afterRecord_unchanged (srv : Nat) (q : QueuedRecord) (rest : List QueuedRecord) (v : Option Verdict) (s : State) :
    Unchanged [.links, .intakes] s (afterRecord srv q rest v s) := by
  have hintake (i : Intake) : Unchanged [.links, .intakes] s (setIntake srv i s) :=
    (setIntake_unchanged _ _ s).mono (by decide)
  rw [afterRecord_eq]
  split
  · exact (hintake _).trans ((setLink_unchanged _ _ _).mono (by decide))
  · exact hintake _

/-- Settles O26: the head of the queue is judged, taken if nothing fails, and put away. -/
theorem recordsDealtWith : Obligations.RecordsDealtWith := by
  intro srv q rest s hqueue taken last verdicts htaken hlast hverdicts
  have hacks : last ↔ (intake s srv).acks q = true := hlast.trans acks_iff.symm
  have hintake : intake (dealWith srv q rest s) srv = (intake s srv).dealt q rest (verdictOf s q) := by
    rw [intake_dealWith, if_pos rfl]
  refine ⟨fun r v _ hv => hv ▸ recordVerdict_eq s r, _, exec_intakeRecord hqueue, ?_⟩
  rw [hintake]
  obtain ⟨htake, hreject, hdup⟩ := dealt_counts q rest (verdictOf s q) (intake s srv)
  refine ⟨(dealt_queue _ _ _ _).1, (dealt_queue _ _ _ _).2, ?_, fun h => dealt_last _ _ (hacks.1 h), fun hd hn => ?_,
    fun hd => dealt_draining _ _ _ hd, fun j => ?_, fun j hj => ?_, fun hn => ?_, (dealWith_frame _ _ _ s).spares⟩
  · rw [htake, hreject, hdup]
    rcases verdictOf_cases s q with ⟨hd, hv, h | h⟩ | ⟨hd, h⟩ | ⟨v, hd, hv, h, hnd, hnr⟩
    · rw [h]
      exact ⟨htaken.2 ⟨hd, hv⟩, rfl, rfl, rfl⟩
    · rw [h]
      exact ⟨htaken.2 ⟨hd, hv⟩, rfl, rfl, rfl⟩
    · rw [h]
      exact ⟨hd, rfl, rfl, rfl⟩
    · rw [h]
      cases v with
      | duplicate => exact absurd rfl hnd
      | reassigned => exact absurd rfl hnr
      | _ => exact ⟨hd, hv, rfl, rfl, rfl⟩
  · rw [hverdicts]
    exact dealt_within _ _ hd (mt hacks.2 hn)
  · obtain ⟨orders, horders, htx⟩ := recordTaken_ordersJoin srv q s j
    have hlink := link_dealWith srv q rest s j
    refine ⟨orders, horders, fun h => ?_, fun h => ?_, fun hn => ?_⟩
    · rw [hlink, if_pos (h.imp_right hacks.1), hverdicts, htx]
    · rw [hlink, if_neg (mt (And.imp_right hacks.2) h), htx]
    · rw [recordTaken_of_not (mt htaken.2 hn)] at htx hlink
      refine ⟨List.append_cancel_left (htx.symm.trans (List.append_nil _).symm), ?_⟩
      rw [hlink]
      split <;> rfl
  · rw [intake_dealWith, if_neg (Ne.symm hj)]
  · rw [dealWith_eq, recordTaken_of_not (mt htaken.2 hn)]
    exact afterRecord_unchanged _ _ _ _ s

end Sys2Proof.Machine
end

