-- ==== Sys2Proof/Proofs/SubtractionsAndTrend.lean ====
section
/-! PROOF. A subtraction's arithmetic (O28), and SET_TREND (O40). -/

namespace Sys2Proof.Machine

/-! ### Subtraction (R74) -/

/-- Settles O28: the record and the group's account as the subtraction writes them. -/
theorem subtractionStopsAtZero : Obligations.SubtractionStopsAtZero := by
  rintro s p c _ _ _ rfl rfl rfl
  have hp : principal (subCharge p c s) p = _ := (principal_subCharge p c s p).trans (if_pos rfl)
  rw [hp, subOutcome_eq]
  refine ⟨rfl, ?_, decide_eq_true_iff, rfl, fun g hg hle => ?_, fun g hg => ?_, fun k hk => ?_⟩
  · rw [decide_eq_true_iff]
    omega
  · rw [group_subCharge, if_pos hg]
    exact Nat.sub_add_cancel hle
  · rw [group_subCharge, if_neg hg]
  · rw [principal_subCharge, if_neg (Ne.symm hk)]

/-! ### SET_TREND (R88) -/

theorem newInterval_eq (t : Nat) (c : Cwu) :
    newInterval t c = { c with trendT := t, trendCount := if t = c.trendT then c.trendCount else 0 } := by
  unfold newInterval
  split
  · rename_i h
    subst h
    rfl
  · rfl

theorem trendWrite_frame (t k w : Nat) (s : State) :
    Frame [.interval, .trendSettings] s { s with cwu := newInterval t s.cwu, ce := { s.ce with k := k, w := w } } := by
  rw [newInterval_eq]
  exact ⟨rfl, fun p hp => by
    cases p <;> first | rfl | exact ⟨rfl, rfl⟩ | exact ⟨rfl, rfl, rfl⟩ | exact (hp (by decide)).elim, fun _ => ⟨rfl, rfl⟩⟩

/-- A field's number stands in the clamp list unless its value is taken as given. -/
theorem clampedFields_ne (n a b : Nat) (l : List (Nat × Bool)) :
    clampedFields ((n, decide (a ≠ b)) :: l) = (if a = b then [] else [n]) ++ clampedFields l := by
  rw [clampedFields_cons]
  exact congrArg (· ++ _) (ite_not _ _ _)

/-- Settles O40: SET_TREND is one write of the interval and of the trend settings, answered with the three values. -/
theorem setTrendAppliesThreeValues : Obligations.SetTrendAppliesThreeValues := by
  intro h t0 k w s ht
  have he : exec (.setTrend h t0 k w) s = .next (answer h.tag (setTrend t0.toNat k.toNat w.toNat (mgmtHunt s)).2
      (setTrend t0.toNat k.toNat w.toNat (mgmtHunt s)).1) := congrArg Host.Outcome.next (fixedRequest_takes ht _)
  refine ⟨_, he, ?_, ?_⟩
  · rintro tv kv wv clamps rfl rfl rfl rfl
    have hw : clampTo 0 255 w.toNat = min 255 w.toNat := Nat.max_eq_right (Nat.zero_le _)
    unfold setTrend
    dsimp only
    rw [hw, clampedFields_ne, clampedFields_ne, clampedFields_ne, ← List.append_assoc, show clampedFields [] = [] from rfl,
      List.append_nil]
    exact ⟨(answered_of_frame _ ht (trendWrite_frame _ _ _ (mgmtHunt s))).1, (answer_cwu _ _ _).trans (newInterval_eq _ _),
      answer_ce _ _ _⟩
  · exact (answered_of_frame _ ht (trendWrite_frame _ _ _ (mgmtHunt s))).2

end Sys2Proof.Machine
end

