-- ==== Sys2Proof/Proofs/SweepVisits.lean ====
section
/-! PROOF. The sample sweep and the grace sweep (O23): their starts, visits (R85 to R87, R98 to R100) and ends (R84, R99). -/

namespace Sys2Proof.Machine

/-! ### The visited account (R85 to R87) -/

theorem raisesApproach_iff {w p : Nat} {a : Account} : raisesApproach w p a = true ↔
    0 < w ∧ p ≤ w ∧ a.trend.armed = true ∧ (a.state = .under ∨ a.state = .soft) := by
  simp only [raisesApproach, Bool.and_eq_true, Bool.or_eq_true, decide_eq_true_eq, and_assoc]

theorem armedAfter_iff {w p : Nat} {a : Account} : armedAfter w p a = true ↔
    (a.trend.armed = true ∧ ¬(0 < w ∧ p ≤ w ∧ (a.state = .under ∨ a.state = .soft)))
      ∨ (a.trend.armed = false ∧ (2 * w < p ∨ p = 65535)) := by
  unfold armedAfter
  cases ha : a.trend.armed with
  | true =>
    have hraise : raisesApproach w p a = true ↔ 0 < w ∧ p ≤ w ∧ (a.state = .under ∨ a.state = .soft) := by
      rw [raisesApproach_iff, ha]
      tauto
    rw [← hraise]
    cases raisesApproach w p a <;> simp
  | false =>
    have hraise : raisesApproach w p a = false := by
      rw [Bool.eq_false_iff, Ne, raisesApproach_iff, ha]
      tauto
    rw [hraise]
    simp

theorem projection_none {a : Account} {q : Int} (h : a.hard = 0 ∨ q ≤ 0) : projection a q = 65535 := if_pos h

theorem projection_reached {a : Account} {q : Int} (hh : a.hard ≠ 0) (hq : 0 < q) (h : a.hard * 16 ≤ loadOf a) :
    projection a q = 0 := by
  rw [projection, if_neg (not_or.2 ⟨hh, Int.not_le.2 hq⟩)]
  exact if_pos h

theorem projection_ahead {a : Account} {q : Int} (hh : a.hard ≠ 0) (hq : 0 < q) (h : loadOf a < a.hard * 16) :
    projection a q = min ((a.hard * 16 - loadOf a) / q.toNat) 65534 := by
  rw [projection, if_neg (not_or.2 ⟨hh, Int.not_le.2 hq⟩)]
  exact if_neg (Nat.not_le.2 h)

/-! ### The sample sweep (R84) -/

theorem samplesWrite_unchanged (due skipped : Nat) (w : Option Sweep) (s : State) :
    Unchanged [.samplesDue, .sampleSweep, .skipped] s { s with ce := { s.ce with due := due, sweep := w, skipped := skipped } } :=
  fun p hp => by cases p <;> first | rfl | exact ⟨rfl, rfl⟩ | exact ⟨rfl, rfl, rfl⟩ | exact (hp (by decide)).elim

theorem sampleSweepWrite_frame (w : Option Sweep) (s : State) : Frame [.sampleSweep] s { s with ce := { s.ce with sweep := w } } :=
  ⟨rfl, fun p hp => by cases p <;> first | rfl | exact ⟨rfl, rfl⟩ | exact ⟨rfl, rfl, rfl⟩ | exact (hp (by decide)).elim,
    fun _ => ⟨rfl, rfl⟩⟩

theorem sampleComes_starts {s : State} (hd : 0 < s.ce.due) (h : s.ce.sweep = none) : sampleComes s =
    { s with ce := { s.ce with due := s.ce.due - 1, sweep := some { pos := 1, k := s.ce.k, w := s.ce.w } } } := by
  rw [sampleComes, if_neg (Nat.ne_of_gt hd), h]

theorem sampleComes_skips {w : Sweep} {s : State} (hd : 0 < s.ce.due) (h : s.ce.sweep = some w) : sampleComes s =
    { s with ce := { s.ce with due := s.ce.due - 1, skipped := satAdd top16 s.ce.skipped 1 } } := by
  rw [sampleComes, if_neg (Nat.ne_of_gt hd), h]

theorem nextDefined_none {s : State} {pos : Nat} (h : ∀ k ∈ definedKeys s, k < pos) : nextDefined s pos = none :=
  List.find?_eq_none.2 fun k hk hno => Nat.not_le.2 (h k hk) (of_decide_eq_true hno)

theorem visitNext_ends {w : Sweep} {s : State} (hw : s.ce.sweep = some w) (hend : nextDefined s w.pos = none) :
    visitNext s = { s with ce := { s.ce with sweep := none } } := by
  rw [visitNext, hw]
  dsimp only
  rw [hend]

/-- The subject visited has its account, and the sweep its next position. -/
def sampled (w : Sweep) (key : Nat) (s : State) : State :=
  let s1 := setAcct (subjectOfKey key) (visitAccount w.k w.w (acct s (subjectOfKey key))) s
  { s1 with ce := { s1.ce with sweep := if sweepEnd ≤ key + 1 then none else some { w with pos := key + 1 } } }

theorem visitNext_visits {w : Sweep} {key : Nat} {s : State} (hw : s.ce.sweep = some w) (hkey : nextDefined s w.pos = some key) :
    visitNext s = if raisesApproach w.w (visitAccount w.k w.w (acct s (subjectOfKey key))).trend.p (acct s (subjectOfKey key))
      then notifyApproach key (visitAccount w.k w.w (acct s (subjectOfKey key))) (sampled w key s) else sampled w key s := by
  rw [visitNext, hw]
  dsimp only
  rw [hkey]
  rfl

theorem sampled_frame (w : Sweep) (key : Nat) (s : State) : Frame [.principals, .groups, .sampleSweep] s (sampled w key s) :=
  (sampleSweepWrite_frame _ _).after (by decide) ((setAcct_frame _ _ s).into (by decide))

theorem acct_sampled (w : Sweep) (key : Nat) (s : State) (sub : Subject) : acct (sampled w key s) sub =
    if subjectOfKey key = sub then visitAccount w.k w.w (acct s (subjectOfKey key)) else acct s sub :=
  ((sampleSweepWrite_frame _ _).acct sub).trans (acct_setAcct _ _ _ _)

theorem sampled_silent (w : Sweep) (key : Nat) (s : State) : Noticed [] s (sampled w key s) := by
  unfold sampled
  cases subjectOfKey key <;> exact Noticed.nil rfl

theorem visitNext_after {w : Sweep} {key : Nat} {s : State} (hw : s.ce.sweep = some w) (hkey : nextDefined s w.pos = some key) :
    Frame raiseParts (sampled w key s) (visitNext s) := by
  rw [visitNext_visits hw hkey]
  split
  · exact notify_frame _ _ _
  · exact Frame.refl _ _

/-- The notice of a visit. -/
theorem visitNext_noticed {w : Sweep} {key : Nat} {s : State} (hw : s.ce.sweep = some w) (hkey : nextDefined s w.pos = some key)
    {a b : Account} (ha : a = acct s (subjectOfKey key)) (hb : b = visitAccount w.k w.w a) :
    Noticed (if 0 < w.w ∧ b.trend.p ≤ w.w ∧ a.trend.armed = true ∧ (a.state = .under ∨ a.state = .soft) then
        [⟨subjectNotice (subjectOfKey key), .approach b.trend.p b.trend.q (loadOf a) (a.hard * 16) a.state (now s)⟩] else [])
      s (visitNext s) := by
  subst ha hb
  rw [visitNext_visits hw hkey]
  simp only [← raisesApproach_iff]
  split
  · have hnow : now (sampled w key s) = now s := (sampled_frame w key s).now
    have hn := notify_noticed (subjectNotice (subjectOfKey key)) (.approach
      (visitAccount w.k w.w (acct s (subjectOfKey key))).trend.p (visitAccount w.k w.w (acct s (subjectOfKey key))).trend.q
      (loadOf (acct s (subjectOfKey key))) ((acct s (subjectOfKey key)).hard * 16) (acct s (subjectOfKey key)).state
      (now (sampled w key s))) (sampled w key s)
    rw [← hnow]
    exact (sampled_silent w key s).silent_trans hn
  · exact sampled_silent w key s

/-! ### The grace sweep (R98, R99) -/

theorem graceSweepWrite_frame (w : Option GraceSweep) (s : State) : Frame [.graceSweep] s { s with qm := { s.qm with sweep := w } } :=
  ⟨rfl, fun p hp => by cases p <;> first | rfl | exact ⟨rfl, rfl⟩ | exact ⟨rfl, rfl, rfl⟩ | exact (hp (by decide)).elim,
    fun _ => ⟨rfl, rfl⟩⟩

theorem graceVisitNext_ends {w : GraceSweep} {s : State} (hw : s.qm.sweep = some w) (hend : nextDefined s w.pos = none) :
    graceVisitNext s = { s with qm := { s.qm with sweep := none } } := by
  rw [graceVisitNext, hw]
  dsimp only
  rw [hend]

/-- The subject visited has the sweep's minutes, and the sweep its next position. -/
def graced (w : GraceSweep) (key : Nat) (s : State) : State :=
  let s1 := setAcct (subjectOfKey key) { acct s (subjectOfKey key) with grace := w.minutes } s
  { s1 with qm := { s1.qm with sweep := if sweepEnd ≤ key + 1 then none else some { w with pos := key + 1 } } }

theorem graceVisitNext_visits {w : GraceSweep} {key : Nat} {s : State} (hw : s.qm.sweep = some w)
    (hkey : nextDefined s w.pos = some key) : graceVisitNext s = evaluate .grace (subjectOfKey key) (graced w key s) := by
  rw [graceVisitNext, hw]
  dsimp only
  rw [hkey]
  rfl

theorem graced_frame (w : GraceSweep) (key : Nat) (s : State) : Frame [.principals, .groups, .graceSweep] s (graced w key s) :=
  (graceSweepWrite_frame _ _).after (by decide) ((setAcct_frame _ _ s).into (by decide))

theorem acct_graced (w : GraceSweep) (key : Nat) (s : State) (sub : Subject) : acct (graced w key s) sub =
    if subjectOfKey key = sub then { acct s (subjectOfKey key) with grace := w.minutes } else acct s sub :=
  ((graceSweepWrite_frame _ _).acct sub).trans (acct_setAcct _ _ _ _)

/-! ### The sweeps -/

/-- Settles O23: each command of the sweeps is one write, or one visit and what follows it. -/
theorem sweepsVisitTheDefinedSubjects : Obligations.SweepsVisitTheDefinedSubjects := by
  refine ⟨fun s hd => ?_, fun w s hw hend => ?_, fun w key s hw hkey => ?_, fun w s hw hend => ?_, fun w key s hw hkey => ?_⟩
  · cases hsweep : s.ce.sweep with
    | none =>
      exact ⟨_, congrArg Host.Outcome.next (sampleComes_starts hd hsweep), rfl, ⟨rfl, rfl⟩,
        samplesWrite_unchanged (s.ce.due - 1) s.ce.skipped _ s⟩
    | some w =>
      exact ⟨_, congrArg Host.Outcome.next (sampleComes_skips hd hsweep), rfl, ⟨hsweep, rfl⟩,
        samplesWrite_unchanged (s.ce.due - 1) _ s.ce.sweep s⟩
  · exact ⟨_, congrArg Host.Outcome.next (visitNext_ends hw (nextDefined_none hend)), rfl,
      fun p hp => by cases p <;> first | rfl | exact ⟨rfl, rfl⟩ | exact ⟨rfl, rfl, rfl⟩ | exact (hp (by decide)).elim⟩
  · have hafter := visitNext_after hw hkey
    have hacct (sub : Subject) : acct (visitNext s) sub = _ := (hafter.acct sub).trans (acct_sampled w key s sub)
    refine ⟨_, rfl, ?_, fun sub hsub => ?_, hafter.same .sampleSweep (by decide),
      (hafter.after (by decide) ((sampled_frame w key s).into (by decide))).spares⟩
    · rintro sub a rfl rfl
      rw [hacct, if_pos rfl]
      exact ⟨_, _, _, rfl, rfl, projection_none, projection_reached, projection_ahead, rfl, rfl, rfl, armedAfter_iff, rfl,
        (visitNext_noticed hw hkey rfl rfl).raises⟩
    · rw [hacct, if_neg (Ne.symm hsub)]
  · exact ⟨_, congrArg Host.Outcome.next (graceVisitNext_ends hw (nextDefined_none hend)), rfl,
      fun p hp => by cases p <;> first | rfl | exact ⟨rfl, rfl⟩ | exact ⟨rfl, rfl, rfl⟩ | exact (hp (by decide)).elim⟩
  · have heval := evaluate_frame .grace (subjectOfKey key) (graced w key s)
    have he : exec .graceSweepVisit s = .next (evaluate .grace (subjectOfKey key) (graced w key s)) :=
      congrArg Host.Outcome.next (graceVisitNext_visits hw hkey)
    refine ⟨_, he, ?_, fun sub hsub => ?_, heval.same .graceSweep (by decide),
      (heval.after (by decide) ((graced_frame w key s).into (by decide))).spares⟩
    · rintro sub a rfl rfl
      rw [acct_evaluate, if_pos rfl, acct_graced, if_pos rfl]
    · rw [acct_evaluate, if_neg (Ne.symm hsub), acct_graced, if_neg (Ne.symm hsub)]

end Sys2Proof.Machine
end

