-- ==== Sys2Proof/Proofs/BooksCorrected.lean ====
section
/-! PROOF. LOAD_USAGE (O41) and SET_GROUP (O43): the books that they correct, and the subjects that they evaluate. -/

namespace Sys2Proof.Machine

/-! ### Subjects evaluated, whatever the cause (R100) -/

theorem Evaluated.refl (s : State) : Evaluated [] s s := ⟨fun _ => rfl, fun _ => rfl, fun _ => rfl, rfl⟩

theorem Evaluated.trans {l m : List Subject} {s t u : State} (h1 : Evaluated l s t) (h2 : Evaluated m t u)
    (hlm : ∀ x ∈ m, x ∉ l) : Evaluated (l ++ m) s u where
  accts x := by
    rw [h2.accts, h1.accts]
    by_cases hm : x ∈ m
    · rw [if_pos hm, if_neg (hlm x hm), if_pos (List.mem_append_right _ hm)]
    · rw [if_neg hm]
      exact if_congr (by rw [List.mem_append, or_iff_left hm]) rfl rfl
  principals k := by rw [h2.principals, h1.principals]
  groups g := by rw [h2.groups, h1.groups]
  soft := by
    rw [h2.soft, h1.soft, List.foldl_append]
    refine List.foldl_ext _ _ _ fun w x hx => ?_
    unfold softListBy
    rw [h1.accts, if_neg (hlm x hx)]

theorem evaluateGroup_evaluated (c : QuotaCause) (g : Option Nat) (s : State) :
    Evaluated (g.map Subject.group).toList s (evaluateGroup c g s) := by
  cases g with
  | none => exact .refl s
  | some i => exact evaluate_evaluated c (.group i) s

theorem principal_not_mem_group {p : Nat} {g : Option Nat} : Subject.principal p ∉ (g.map Subject.group).toList := by
  cases g <;> simp

theorem evaluateBoth_evaluated (c : QuotaCause) (p : Nat) (s : State) :
    Evaluated (.principal p :: ((principal s p).group.map Subject.group).toList) s (evaluateBoth c p s) := by
  refine (evaluate_evaluated c (.principal p) s).trans (evaluateGroup_evaluated c _ _) fun x hx hno => ?_
  rw [List.mem_singleton.1 hno] at hx
  exact principal_not_mem_group hx

/-- A principal's record with its state the comparator's (R100). -/
def Principal.evaluated (r : Principal) : Principal := { r with acct := { r.acct with state := nextState r.acct } }

/-- A group's record with its state the comparator's (R100). -/
def Group.evaluated (r : Group) : Group := { r with acct := { r.acct with state := nextState r.acct } }

theorem Evaluated.principal_eq {l : List Subject} {s t : State} (h : Evaluated l s t) (k : Nat) : principal t k =
    if .principal k ∈ l then (principal s k).evaluated else principal s k := by
  rw [h.principals, h.accts]
  split <;> rfl

theorem Evaluated.group_eq {l : List Subject} {s t : State} (h : Evaluated l s t) (g : Nat) : group t g =
    if .group g ∈ l then (group s g).evaluated else group s g := by
  rw [h.groups, h.accts]
  split <;> rfl

/-! ### LOAD_USAGE (R82) -/

/-- A principal's account with its usage loaded; principal 0 keeps its trend (R82). -/
def Account.loaded (a : Account) (p new : Nat) : Account :=
  { a with usage := new, trend := { a.trend with uPrev := if p = 0 then a.trend.uPrev else new } }

theorem principal_loadUsage (p b : Nat) (s : State) (k : Nat) : principal (loadUsage p b s) k =
    if p = k then { principal s p with acct := (principal s p).acct.loaded p (b * 16) } else principal s k := by
  unfold loadUsage Account.loaded
  rw [principal_onGroup, principal_setPrincipal]
  split
  · by_cases hp : p = 0
    · rw [if_pos hp, if_pos hp]
    · rw [if_neg hp, if_neg hp]
  · rfl

/-- A group's account when the usage of a member becomes `new` from `old` (R82). -/
def Account.corrected (x : Account) (old new : Nat) : Account :=
  { x with usage := x.usage + new - old, trend := { x.trend with uPrev := x.trend.uPrev + new - old } }

theorem corrected_eq (x : Account) (old new : Nat) :
    uPrevBy ((new : Int) - old) (usageBy ((new : Int) - old) x) = x.corrected old new := by
  have hmove (n : Nat) : ((n : Int) + (new - old)).toNat = n + new - old := by omega
  unfold uPrevBy usageBy Account.corrected
  rw [hmove, hmove]

theorem group_loadUsage (p b : Nat) (s : State) (g : Nat) : group (loadUsage p b s) g =
    if (principal s p).group = some g then
      { group s g with acct := (group s g).acct.corrected (principal s p).acct.usage (b * 16) } else group s g := by
  unfold loadUsage
  rw [group_onGroup, show ∀ r, group (setPrincipal p r s) g = group s g from fun _ => rfl, corrected_eq]

theorem loadReq_malformed {p : Nat} (usage : Nat) (s : State) (h : 32767 < p) : loadReq p usage s = (s, refusal .malformed) :=
  if_pos h

theorem loadReq_noSuch {p : Nat} (usage : Nat) {s : State} (h : ¬32767 < p) (hd : (principal s p).defined = false) :
    loadReq p usage s = (s, refusal .noSuch) := by
  rw [loadReq, if_neg h, if_pos hd]

theorem loadReq_loads {p : Nat} (usage : Nat) {s : State} (h : ¬32767 < p) (hd : ¬(principal s p).defined = false) :
    loadReq p usage s = (evaluateBoth .load p (loadUsage p (min 1099511627775 usage) s),
      accept (if 1099511627775 < usage then [2] else [])
        (.loaded (principal s p).acct.usage (min 1099511627775 usage * 16))) := by
  rw [loadReq, if_neg h, if_neg hd]
  dsimp only
  have hclamp : min usage top40 ≠ usage ↔ 1099511627775 < usage := by unfold top40; omega
  rw [clampedFields_cons, if_congr hclamp rfl rfl, show clampedFields [] = [] from rfl, List.append_nil,
    Nat.min_comm usage, top40]

/-- Settles O41: the books are written as R82 says, and the principal and its group are then evaluated. -/
theorem loadUsageCorrectsTheBooks : Obligations.LoadUsageCorrectsTheBooks := by
  intro h p usage s ht
  have he : exec (.loadUsage h p usage) s = .next (answer h.tag (loadReq p.toNat usage.toNat (mgmtHunt s)).2
      (loadReq p.toNat usage.toNat (mgmtHunt s)).1) := congrArg Host.Outcome.next (fixedRequest_takes ht _)
  refine ⟨_, he, ?_⟩
  by_cases hp : 32767 < p.toNat
  · rw [if_pos hp, loadReq_malformed _ _ hp]
    have hr := refused_takes .malformed ht
    exact ⟨hr, hr.2.mono (by decide)⟩
  by_cases hd : (principal s p.toNat).defined = false
  · rw [if_neg hp, if_pos hd, loadReq_noSuch _ hp (s := mgmtHunt s) hd]
    have hr := refused_takes .noSuch ht
    exact ⟨hr, hr.2.mono (by decide)⟩
  rw [if_neg hp, if_neg hd, loadReq_loads _ hp (s := mgmtHunt s) hd]
  have hframe : Frame evalParts (mgmtHunt s) (evaluateBoth .load p.toNat (loadUsage p.toNat (min 1099511627775 usage.toNat)
      (mgmtHunt s))) := (evaluateBoth_frame _ _ _).after (by decide) ((loadUsage_frame _ _ _).into (by decide))
  obtain ⟨ha, hu⟩ := answered_of_frame (accept (if 1099511627775 < usage.toNat then [2] else [])
      (.loaded (principal s p.toNat).acct.usage (min 1099511627775 usage.toNat * 16))) ht hframe
  refine ⟨?_, hu⟩
  rintro r _ new rfl rfl rfl
  have heval := evaluateBoth_evaluated .load p.toNat (loadUsage p.toNat (min 1099511627775 usage.toNat) (mgmtHunt s))
  have hgroup : (principal (loadUsage p.toNat (min 1099511627775 usage.toNat) (mgmtHunt s)) p.toNat).group
      = (principal s p.toNat).group := by
    rw [principal_loadUsage, if_pos rfl]
    rfl
  rw [hgroup] at heval
  refine ⟨ha, ?_, fun k hk => ?_, ?_, fun g hg => ?_⟩
  · rintro a rfl
    rw [principal_answer, heval.principal_eq, if_pos List.mem_cons_self, principal_loadUsage, if_pos rfl]
    rfl
  · rw [principal_answer, heval.principal_eq, if_neg (by simp [hk]), principal_loadUsage, if_neg (Ne.symm hk)]
    rfl
  · rintro g x a hg rfl rfl
    have hmem : Subject.group g ∈ Subject.principal p.toNat :: ((principal s p.toNat).group.map Subject.group).toList :=
      List.mem_cons_of_mem _ (mem_groupSubjects.2 hg)
    rw [group_answer, heval.group_eq, if_pos hmem, group_loadUsage, principal_mgmtHunt, if_pos hg]
    rfl
  · have hmem : Subject.group g ∉ Subject.principal p.toNat :: ((principal s p.toNat).group.map Subject.group).toList := fun hno =>
      hg (mem_groupSubjects.1 ((List.mem_cons.1 hno).resolve_left fun hno => nomatch hno))
    rw [group_answer, heval.group_eq, if_neg hmem, group_loadUsage, principal_mgmtHunt, if_neg hg]
    rfl

/-! ### SET_GROUP (R81, R94) -/

theorem principal_onMembers (x : Option Nat) (f : Nat → Nat) (s : State) (k : Nat) :
    principal (onMembers x f s) k = principal s k := by
  cases x <;> rfl

theorem group_onMembers (x : Option Nat) (f : Nat → Nat) (s : State) (g : Nat) : group (onMembers x f s) g =
    if x = some g then { group s g with members := f (group s g).members } else group s g := by
  cases x with
  | none => rfl
  | some i =>
    rw [onMembers, group_setGroupRec]
    by_cases hi : i = g
    · subst hi
      rw [if_pos rfl, if_pos rfl]
    · rw [if_neg hi, if_neg fun h => hi (Option.some.inj h)]

/-- A group that a member with this account has left (R81, R91). -/
def Group.left (x : Group) (a : Account) : Group :=
  { x with
    acct := { x.acct with
      usage := x.acct.usage - a.usage, reservation := x.acct.reservation - a.reservation
      trend := { x.acct.trend with uPrev := x.acct.trend.uPrev - a.usage } }
    members := x.members - 1 }

/-- A group that a member with this account has joined (R81, R91). -/
def Group.joined (x : Group) (a : Account) : Group :=
  { x with
    acct := { x.acct with
      usage := x.acct.usage + a.usage, reservation := x.acct.reservation + a.reservation
      trend := { x.acct.trend with uPrev := x.acct.trend.uPrev + a.usage } }
    members := x.members + 1 }

theorem principal_moveGroup (p : Nat) (new : Option Nat) (s : State) (k : Nat) : principal (moveGroup p new s) k =
    if p = k then { principal s p with group := new } else principal s k := by
  unfold moveGroup
  dsimp only
  rw [principal_onMembers, principal_onGroup, principal_onMembers, principal_onGroup, principal_setPrincipal]

theorem group_moveGroup {p : Nat} {new : Option Nat} {s : State} (h : (principal s p).group ≠ new) (g : Nat) :
    group (moveGroup p new s) g =
      if (principal s p).group = some g then (group s g).left (principal s p).acct
      else if new = some g then (group s g).joined (principal s p).acct else group s g := by
  have hminus (n m : Nat) : ((n : Int) + -(m : Int)).toNat = n - m := by omega
  have hplus (n m : Nat) : ((n : Int) + (m : Int)).toNat = n + m := by omega
  unfold moveGroup
  dsimp only
  rw [group_onMembers, group_onGroup, group_onMembers, group_onGroup,
    show ∀ r, group (setPrincipal p r s) g = group s g from fun _ => rfl]
  by_cases hold : (principal s p).group = some g
  · have hnew : new ≠ some g := fun hno => h (hold.trans hno.symm)
    rw [if_pos hold, if_pos hold, if_pos hold, if_neg hnew, if_neg hnew]
    unfold uPrevBy reserveDown usageDown Group.left
    dsimp only
    rw [hminus]
  · rw [if_neg hold, if_neg hold, if_neg hold]
    by_cases hnew : new = some g
    · rw [if_pos hnew, if_pos hnew, if_pos hnew]
      unfold uPrevBy reserveUp usageUp Group.joined
      dsimp only
      rw [hplus]
    · rw [if_neg hnew, if_neg hnew, if_neg hnew]

theorem groupOrNone_eq_none {g : BitVec 16} (h : 1023 < g.toNat ∧ g.toNat ≠ 65535) : groupOrNone g = none := by
  rw [groupOrNone, if_neg h.2, if_neg (Nat.not_le.2 h.1)]

theorem groupOrNone_eq_some {g : BitVec 16} (h : ¬(1023 < g.toNat ∧ g.toNat ≠ 65535)) :
    groupOrNone g = some (if g.toNat = 65535 then none else some g.toNat) := by
  unfold groupOrNone
  split
  · rfl
  · exact if_pos (by omega)

theorem groupOk_eq_false {s : State} {n : Nat} :
    groupOk s (if n = 65535 then none else some n) = false ↔ n ≠ 65535 ∧ (group s n).defined = false := by
  split
  · simp [groupOk, *]
  · simp [groupOk, *]

theorem setGroupReq_malformed {p : Nat} {g : BitVec 16} (s : State) (h : 32767 < p ∨ (1023 < g.toNat ∧ g.toNat ≠ 65535)) :
    setGroupReq p g s = (s, refusal .malformed) := by
  unfold setGroupReq
  split
  · rfl
  · rename_i hg
    exact if_pos (h.resolve_right fun hno => by rw [groupOrNone_eq_none hno] at hg; cases hg)

theorem setGroupReq_of_codes {p : Nat} {g : BitVec 16} (s : State) (h : ¬(32767 < p ∨ (1023 < g.toNat ∧ g.toNat ≠ 65535)))
    {new : Option Nat} (hnew : new = if g.toNat = 65535 then none else some g.toNat) : setGroupReq p g s =
      if (principal s p).defined = false ∨ groupOk s new = false then (s, refusal .noSuch)
      else if (principal s p).group = new then (s, accept [] .none)
      else (evaluateGroup .transfer new (evaluateGroup .transfer (principal s p).group (moveGroup p new s)), accept [] .none) := by
  subst hnew
  unfold setGroupReq
  rw [groupOrNone_eq_some (not_or.1 h).2]
  exact if_neg (not_or.1 h).1

theorem setGroupReq_frame (p : Nat) (g : BitVec 16) (s : State) : Frame evalParts s (setGroupReq p g s).1 := by
  unfold setGroupReq
  split
  · exact Frame.refl _ s
  · split_ifs
    · exact Frame.refl _ s
    · exact Frame.refl _ s
    · exact Frame.refl _ s
    · exact (evaluateGroup_frame _ _ _).after (by decide) ((evaluateGroup_frame _ _ _).after (by decide)
        ((moveGroup_frame _ _ s).into (by decide)))

/-- What SET_GROUP leaves of the books when the group is another (R81, R94, R100). -/
theorem setGroup_books {p : Nat} {new : Option Nat} {s t : State} (h : (principal s p).group ≠ new)
    (ht : t = evaluateGroup .transfer new (evaluateGroup .transfer (principal s p).group (moveGroup p new s))) :
    (∀ k, principal t k = if p = k then { principal s p with group := new } else principal s k)
    ∧ ∀ g, group t g = if (principal s p).group = some g then ((group s g).left (principal s p).acct).evaluated
        else if new = some g then ((group s g).joined (principal s p).acct).evaluated else group s g := by
  have heval : Evaluated (((principal s p).group.map Subject.group).toList ++ (new.map Subject.group).toList)
      (moveGroup p new s) t := by
    rw [ht]
    refine (evaluateGroup_evaluated _ _ _).trans (evaluateGroup_evaluated _ _ _) fun x hx hno => ?_
    cases x with
    | principal k => exact principal_not_mem_group hx
    | group g => exact h ((mem_groupSubjects.1 hno).trans (mem_groupSubjects.1 hx).symm)
  refine ⟨fun k => ?_, fun g => ?_⟩
  · rw [heval.principal_eq, if_neg, principal_moveGroup]
    exact fun hno => (List.mem_append.1 hno).elim principal_not_mem_group principal_not_mem_group
  · rw [heval.group_eq, group_moveGroup h]
    simp only [List.mem_append, mem_groupSubjects]
    by_cases hold : (principal s p).group = some g
    · rw [if_pos (.inl hold), if_pos hold, if_pos hold]
    · rw [if_neg hold, if_neg hold]
      exact if_ctx_congr (or_iff_right hold) (fun hnew => by rw [if_pos hnew]) fun hnew => if_neg hnew

/-- Settles O43: SET_GROUP moves the amounts between the two groups, which are then evaluated, or has nothing to move. -/
theorem setGroupMovesTheCharges : Obligations.SetGroupMovesTheCharges := by
  intro h p g s ht
  have he : exec (.setGroup h p g) s = .next (answer h.tag (setGroupReq p.toNat g (mgmtHunt s)).2
      (setGroupReq p.toNat g (mgmtHunt s)).1) := congrArg Host.Outcome.next (fixedRequest_takes ht _)
  have hframe (r : Reply) := answered_of_frame r ht (setGroupReq_frame p.toNat g (mgmtHunt s))
  refine ⟨_, he, ?_, (hframe _).2⟩
  by_cases hbad : 32767 < p.toNat ∨ (1023 < g.toNat ∧ g.toNat ≠ 65535)
  · rw [if_pos hbad, setGroupReq_malformed _ hbad]
    exact refused_takes _ ht
  obtain ⟨new, hnew⟩ : ∃ new, new = if g.toNat = 65535 then none else some g.toNat := ⟨_, rfl⟩
  rw [if_neg hbad]
  rw [setGroupReq_of_codes _ hbad hnew, principal_mgmtHunt] at hframe ⊢
  have hok : (principal s p.toNat).defined = false ∨ groupOk (mgmtHunt s) new = false ↔
      (principal s p.toNat).defined = false ∨ (g.toNat ≠ 65535 ∧ (group s g.toNat).defined = false) := by
    rw [hnew]
    exact or_congr_right groupOk_eq_false
  by_cases hno : (principal s p.toNat).defined = false ∨ (g.toNat ≠ 65535 ∧ (group s g.toNat).defined = false)
  · rw [if_pos hno, if_pos (hok.2 hno)]
    exact refused_takes _ ht
  rw [if_neg hno, if_neg (mt hok.1 hno)]
  rw [if_neg (mt hok.1 hno)] at hframe
  rintro r _ rfl rfl
  rw [← hnew]
  by_cases hsame : (principal s p.toNat).group = new
  · rw [if_pos hsame]
    obtain ⟨ha, hu⟩ := answered_of_frame (L := []) (accept [] .none) ht (Frame.refl _ _)
    exact ⟨ha, fun _ => hu, fun hne => absurd hsame hne, fun k _ => principal_answer _ _ _ _⟩
  · rw [if_neg hsame] at hframe ⊢
    obtain ⟨t, htransfer⟩ : ∃ t, t = evaluateGroup .transfer new
      (evaluateGroup .transfer (principal (mgmtHunt s) p.toNat).group (moveGroup p.toNat new (mgmtHunt s))) := ⟨_, rfl⟩
    obtain ⟨hprincipals, hgroups⟩ := setGroup_books (s := mgmtHunt s) hsame htransfer
    rw [principal_mgmtHunt] at htransfer
    rw [← htransfer] at hframe ⊢
    have hprincipal (k : Nat) : principal (answer h.tag (accept [] .none) t) k
        = if p.toNat = k then { principal s p.toNat with group := new } else principal s k :=
      (principal_answer _ _ _ _).trans (hprincipals k)
    have hgroup (k : Nat) : group (answer h.tag (accept [] .none) t) k = if (principal s p.toNat).group = some k then
        ((group s k).left (principal s p.toNat).acct).evaluated
        else if new = some k then ((group s k).joined (principal s p.toNat).acct).evaluated else group s k :=
      (group_answer _ _ _ _).trans (hgroups k)
    refine ⟨(hframe _).1, fun hno => absurd hno hsame,
      fun _ => ⟨(hprincipal _).trans (if_pos rfl), ?_, ?_, fun k hk hk' => ?_⟩, fun k hk => ?_⟩
    · rintro k x a hk rfl rfl
      rw [hgroup, if_pos hk]
      rfl
    · rintro k x a hk rfl rfl
      have hold : (principal s p.toNat).group ≠ some k := fun hno => hsame (hno.trans hk.symm)
      rw [hgroup, if_neg hold, if_pos hk]
      rfl
    · rw [hgroup, if_neg hk, if_neg hk']
    · rw [hprincipal, if_neg (Ne.symm hk)]

end Sys2Proof.Machine
end

