-- ==== Sys2Proof/Proofs/WantsHandedOver.lean ====
section
/-! SUPPORT. One subject's entry of the deny table while its want is handed over (R105 to R108, R110): how each server's part comes to
stand, and that the work done for other subjects leaves it so. -/

namespace Sys2Proof.Machine

/-! ### Parts reset (R106, R107) -/

/-- A server's part of an entry whose want is about to be handed over: an order in flight stays. -/
def resetPart (parts : Tab ServerPart) (srv : Nat) : ServerPart := ⟨.notSent, (tgetD ServerPart.fresh parts srv).inFlight, none⟩

theorem tgetD_resetParts {parts : Tab ServerPart} (h : tsorted parts = true) (srv : Nat) :
    tgetD ServerPart.fresh (resetParts parts) srv = resetPart parts srv := by
  unfold tgetD resetPart
  cases hp : tget parts srv with
  | none =>
    rw [tget_resetParts hp, tgetD, hp]
    rfl
  | some p =>
    have hmap := (tget_map (fun q : ServerPart => { q with status := .notSent, mark := none }) parts srv).trans
      (congrArg (Option.map _) hp)
    have hreset (q : ServerPart) : tget (resetParts parts) srv = some q ↔ _ := tget_filter (tsorted_map _ _ h) _
    rw [hmap] at hreset
    rw [tgetD, hp]
    by_cases hfresh : ({ p with status := .notSent, mark := none } : ServerPart) = ServerPart.fresh
    · have hnone : tget (resetParts parts) srv = none := Option.eq_none_iff_forall_ne_some.2 fun q hq => by
        obtain ⟨hq, hkept⟩ := (hreset q).1 hq
        cases hq
        exact of_decide_eq_true hkept hfresh
      rw [hnone]
      exact hfresh.symm
    · rw [(hreset _).2 ⟨rfl, decide_eq_true hfresh⟩]
      rfl

/-! ### An entry whose want is handed over -/

/-- A server to which the order of a want is handed over: its link is UP and nothing is in flight (R108). -/
def HandsTo (parts : Tab ServerPart) (ref : State) (srv : Nat) : Prop :=
  linkUp ref srv = true ∧ (tgetD ServerPart.fresh parts srv).inFlight = none

/-- The order of a subject's want is in flight on a server, as the entry's part says; it carries the userNumber of a state. -/
def WantSent (sub : Subject) (want : Want) (ref : State) (e : DenyEntry) (srv : Nat) (s : State) : Prop :=
  ∃ n, denyPart e srv = ⟨.sent, some ⟨n, want⟩, none⟩ ∧ ⟨n, (wantOrder ref sub want).kind⟩ ∈ (link s srv).orders
    ∧ .order n (wantOrder ref sub want) ∈ (link s srv).txQueue

/-- The entry of a subject has come to a want in a state `ref`: for each server its part stands reset, or the order has been handed
over. One that is still to be handed over will carry the userNumber that `ref` has. -/
structure Handing (sub : Subject) (want : Want) (parts : Tab ServerPart) (ref s : State) (e : DenyEntry) : Prop where
  links : ∀ srv, linkUp s srv = linkUp ref srv
  entry : tget s.et.table (subjectKey sub) = some e
  wants : e.want = want
  parts : ∀ srv ∈ serverList,
    (denyPart e srv = resetPart parts srv ∧ (HandsTo parts ref srv → userOf s sub = userOf ref sub))
      ∨ (HandsTo parts ref srv ∧ WantSent sub want ref e srv s)

/-- The order of the entry's want has been handed over wherever it can be. -/
def Handed (sub : Subject) (want : Want) (parts : Tab ServerPart) (ref s : State) : Prop :=
  ∃ e, Handing sub want parts ref s e ∧ ∀ srv ∈ serverList, linkUp s srv = true → denyPart e srv ≠ ServerPart.fresh

/-- What a subject's orders are made of is in `s` as in `ref`. -/
structure SameEntry (sub : Subject) (ref s : State) : Prop where
  entry : tget s.et.table (subjectKey sub) = tget ref.et.table (subjectKey sub)
  links : ∀ srv, linkUp s srv = linkUp ref srv
  user : userOf s sub = userOf ref sub

theorem SameEntry.of_work {sub : Subject} {ref s t : State} (h : SameEntry sub ref s) (hw : Work s t) (ht : t.et.table = s.et.table)
    (hu : userOf t sub = userOf s sub) : SameEntry sub ref t :=
  ⟨by rw [ht]; exact h.entry, fun srv => (hw.linkUp srv).trans (h.links srv), hu.trans h.user⟩

section

variable {sub : Subject} {want : Want} {parts : Tab ServerPart} {ref s t : State} {e : DenyEntry}

theorem wantOrder_eq (s : State) (sub : Subject) (w : Want) : wantOrder s sub w = match w with
    | .deny => .deny sub (userOf s sub)
    | .allow => .allow sub (userOf s sub) := by
  cases w <;> cases sub <;> rfl

theorem wantOrder_congr (h : userOf t sub = userOf s sub) (w : Want) : wantOrder t sub w = wantOrder s sub w := by
  rw [wantOrder_eq, wantOrder_eq, h]

theorem WantSent.grown {srv : Nat} (h : WantSent sub want ref e srv s) (hg : (link s srv).Grown (link t srv)) :
    WantSent sub want ref e srv t := by
  obtain ⟨n, hp, ho, hf⟩ := h
  exact ⟨n, hp, hg.orders ho, hg.txQueue hf⟩

/-- Work that leaves the entry and the subject's userNumber. -/
theorem Handing.of_work (h : Handing sub want parts ref s e) (hw : Work s t)
    (he : tget t.et.table (subjectKey sub) = tget s.et.table (subjectKey sub)) (hu : userOf t sub = userOf s sub) :
    Handing sub want parts ref t e :=
  ⟨fun srv => (hw.linkUp srv).trans (h.links srv), he.trans h.entry, h.wants, fun srv hsrv => (h.parts srv hsrv).imp
    (fun hp => ⟨hp.1, fun hh => hu.trans (hp.2 hh)⟩) fun hp => ⟨hp.1, hp.2.grown (hw.links srv)⟩⟩

/-- The test of R108 for an entry and a server: the subject's own order is handed over, another's leaves its entry. -/
theorem Handing.handWant (hsub : subjectOfKey (subjectKey sub) = sub) (h : Handing sub want parts ref s e) (key j : Nat) :
    ∃ e', Handing sub want parts ref (handWant key j s) e' := by
  have hw := handWant_work key j s
  have hu : userOf (Machine.handWant key j s) sub = userOf s sub :=
    userOf_congr ((handWant_frame key j s).same .principals (by decide)) sub
  obtain ⟨heq, -⟩ | ⟨old, hold, hup, hst, hnone, heq⟩ := handWant_cases key j s
  · exact ⟨e, heq.symm ▸ h⟩
  have htable (k : Nat) : tget (Machine.handWant key j s).et.table k = _ := (congrArg (fun u => tget u.et.table k) heq).trans
    (handWant_table k)
  by_cases hkey : key = subjectKey sub
  · subst hkey
    obtain rfl : old = e := Option.some.inj (hold.symm.trans h.entry)
    refine ⟨_, fun srv => (hw.linkUp srv).trans (h.links srv), (htable _).trans (if_pos rfl), h.wants, fun srv hsrv => ?_⟩
    by_cases hj : j = srv
    · subst hj
      obtain ⟨hpart, huser⟩ | ⟨-, n, hsent, -⟩ := h.parts j hsrv
      · have hhands : HandsTo parts ref j := ⟨(h.links j).symm.trans hup, by rw [hpart] at hnone; exact hnone⟩
        refine .inr ⟨hhands, (link s j).counter, ?_, ?_⟩
        · rw [denyPart_withPart, if_pos rfl, hpart, h.wants]
          rfl
        · rw [heq, hsub, h.wants, wantOrder_congr (huser hhands)]
          exact issue_orders j (wantOrder ref sub want) s
      · rw [hsent] at hst
        cases hst
    · have hpart (p : ServerPart) : denyPart (withPart j p old) srv = denyPart old srv := by rw [denyPart_withPart, if_neg hj]
      rw [hpart]
      refine (h.parts srv hsrv).imp (fun hp => ⟨hp.1, fun hh => hu.trans (hp.2 hh)⟩) fun hp => ⟨hp.1, ?_⟩
      obtain ⟨n, hn, ho, hf⟩ := hp.2.grown (hw.links srv)
      exact ⟨n, (hpart _).trans hn, ho, hf⟩
  · exact ⟨e, h.of_work hw ((htable _).trans (if_neg hkey)) hu⟩

/-- Once every order has been handed over, work that leaves the entry leaves it so, whatever becomes of the userNumber. -/
theorem Handed.of_work (h : Handed sub want parts ref s) (hw : Work s t)
    (he : tget t.et.table (subjectKey sub) = tget s.et.table (subjectKey sub)) : Handed sub want parts ref t := by
  obtain ⟨e, hh, hfresh⟩ := h
  refine ⟨e, ⟨fun srv => (hw.linkUp srv).trans (hh.links srv), he.trans hh.entry, hh.wants, fun srv hsrv => ?_⟩,
    fun srv hsrv hup => hfresh srv hsrv ((hw.linkUp srv).symm.trans hup)⟩
  refine (hh.parts srv hsrv).imp (fun hp => ⟨hp.1, fun ⟨hup, hnone⟩ => ?_⟩) fun hp => ⟨hp.1, hp.2.grown (hw.links srv)⟩
  refine absurd ?_ (hfresh srv hsrv ((hh.links srv).trans hup))
  rw [hp.1, resetPart, hnone]
  rfl

theorem Handed.handWant (hsub : subjectOfKey (subjectKey sub) = sub) (h : Handed sub want parts ref s) (key j : Nat) :
    Handed sub want parts ref (handWant key j s) := by
  obtain ⟨e, hh, hfresh⟩ := h
  obtain ⟨e', hh'⟩ := hh.handWant hsub key j
  refine ⟨e', hh', fun srv hsrv hup => ?_⟩
  have hnone : NoneFresh srv (subjectKey sub) s := fun x hx => by
    rw [hh.entry] at hx
    cases hx
    exact hfresh srv hsrv (((handWant_work key j s).linkUp srv).symm.trans hup)
  exact handWant_noneFresh hnone key j e' hh'.entry

/-- The tests of R108 hand over every order of the entry that can be handed over. -/
theorem Handing.handWants (hsub : subjectOfKey (subjectKey sub) = sub) (h : Handing sub want parts ref s e) :
    Handed sub want parts ref (handWants s) := by
  obtain ⟨e', hh⟩ := handWants_keeps (P := fun u => ∃ x, Handing sub want parts ref u x)
    (fun _ key j ⟨_, hx⟩ => hx.handWant hsub key j) ⟨e, h⟩
  refine ⟨e', hh, fun srv hsrv hup => ?_⟩
  have hlt : srv < 8 := List.mem_range.1 hsrv
  exact handWants_noneFresh (srv := ⟨srv, hlt⟩) (((handWants_work s).linkUp srv).symm.trans hup) _ e' hh.entry

/-- The entry as the statements have it. -/
theorem Handed.wantHanded (h : Handed sub want parts ref s) :
    ∃ e, tget s.et.table (subjectKey sub) = some e ∧ WantHanded sub want parts e ref s := by
  obtain ⟨e, hh, hfresh⟩ := h
  refine ⟨e, hh.entry, hh.wants, fun srv hsrv => ?_⟩
  split
  · rename_i hhands
    refine (hh.parts srv hsrv).elim (fun hp => absurd ?_ (hfresh srv hsrv ((hh.links srv).trans hhands.1))) fun ⟨_, n, hp, ho, hf⟩ => ?_
    · rw [hp.1, resetPart, hhands.2]
      rfl
    · rw [wantOrder_eq] at ho hf
      refine ⟨n, hp, ?_, ?_⟩
      · cases want <;> exact ho
      · cases want <;> exact hf
  · rename_i hno
    exact (hh.parts srv hsrv).elim (fun hp => hp.1) fun hp => absurd hp.1 hno

/-- The state in which an entry's want is about to be handed over. -/
theorem setDeny_handing (hs : tsorted parts = true) (hs0 : SameEntry sub ref s) :
    Handing sub want parts ref (setDeny (subjectKey sub) { want := want, parts := resetParts parts } s)
      { want := want, parts := resetParts parts } where
  links := hs0.links
  entry := (tget_tput _ _ _ _).trans (if_pos rfl)
  wants := rfl
  parts srv _ := .inl ⟨tgetD_resetParts hs srv, fun _ => hs0.user⟩

end

/-! ### A change of state (R101) -/

/-- A subject's account and the soft list when its state changes. -/
def stateMoved (sub : Subject) (s : State) : State :=
  let s1 := setAcct sub { acct s sub with state := nextState (acct s sub) } s
  { s1 with qm := { s1.qm with softList := softListAfter sub (acct s sub).state (nextState (acct s sub)) s1.qm.softList } }

/-- The QUOTA_STATE of a subject that is evaluated with this account. -/
def quotaNotice (c : QuotaCause) (sub : Subject) (a : Account) (time : Nat) : Notice :=
  ⟨subjectNotice sub, .quotaState sub a.state (nextState a) (loadOf a) (a.soft * 16) (a.hard * 16) a.grace c time⟩

theorem evaluate_of_changed {sub : Subject} {s : State} (c : QuotaCause) (h : nextState (acct s sub) ≠ (acct s sub).state) :
    evaluate c sub s = raise (quotaNotice c sub (acct s sub) (now s))
      (reportBlocking sub (acct s sub).state (nextState (acct s sub)) (stateMoved sub s)) := if_neg h

theorem stateMoved_work (sub : Subject) (s : State) : Work s (stateMoved sub s) := (setAcct_work _ _ s).trans (softWrite_work _ _)

theorem stateMoved_frame (sub : Subject) (s : State) : Frame [.principals, .groups, .softList] s (stateMoved sub s) :=
  (softWrite_frame _ _).after (by decide) ((setAcct_frame _ _ s).into (by decide))

theorem stateMoved_et (sub : Subject) (s : State) : (stateMoved sub s).et = s.et := by
  unfold stateMoved
  cases sub <;> rfl

theorem userOf_setAcct (sub : Subject) (a : Account) (s : State) (x : Subject) : userOf (setAcct sub a s) x = userOf s x := by
  cases x with
  | principal k => rw [userOf, (setAcct_records sub a s).1]; rfl
  | group g => rfl

theorem SameEntry.stateMoved {sub : Subject} {ref s : State} (h : SameEntry sub ref s) :
    SameEntry sub ref (Machine.stateMoved sub s) :=
  h.of_work (stateMoved_work sub s) (congrArg Et.table (stateMoved_et sub s)) (userOf_setAcct sub _ s sub)

theorem stateMoved_silent (sub : Subject) (s : State) : Noticed [] s (stateMoved sub s) := by
  unfold stateMoved
  cases sub <;> exact Noticed.nil rfl

/-! ### What the work for other subjects leaves -/

/-- Every backlogged subject is one of `Q`. -/
def Backlogged (Q : Subject → Prop) (s : State) : Prop := ∀ x ∈ s.et.backlog, Q x

/-- A property that enforcing the subjects of `Q` keeps: orders handed over keep it, and so does all work that leaves the entries
that no subject of `Q` has. -/
structure KeptBy (Q : Subject → Prop) (P : State → Prop) : Prop where
  hand : ∀ s k j, P s → P (handWant k j s)
  work : ∀ s t, Work s t → (∀ key, (∀ x, Q x → subjectKey x ≠ key) → tget t.et.table key = tget s.et.table key) → P s → P t

theorem keptBy_true (Q : Subject → Prop) : KeptBy Q fun _ => True := ⟨fun _ _ _ h => h, fun _ _ _ _ h => h⟩

/-- Every subject but those with a key. -/
abbrev KeyNot (key : Nat) (x : Subject) : Prop := subjectKey x ≠ key

theorem keptBy_absent (key : Nat) : KeptBy (KeyNot key) fun s => tget s.et.table key = none :=
  ⟨fun _ _ _ h => handWant_absent h, fun _ _ _ he h => (he key fun _ hx => hx).trans h⟩

theorem keptBy_handed {sub : Subject} (hsub : subjectOfKey (subjectKey sub) = sub) (want : Want) (parts : Tab ServerPart)
    (ref : State) : KeptBy (KeyNot (subjectKey sub)) (Handed sub want parts ref) :=
  ⟨fun _ k j h => h.handWant hsub k j, fun _ _ hw he h => h.of_work hw (he _ fun _ hx => hx)⟩

section

variable {Q : Subject → Prop} {P : State → Prop} (hP : KeptBy Q P)
include hP

/-- Work that leaves the deny table and the backlog. -/
theorem KeptBy.steady {s t : State} (hw : Work s t) (ht : t.et.table = s.et.table) (hb : t.et.backlog = s.et.backlog)
    (h : P s ∧ Backlogged Q s) : P t ∧ Backlogged Q t :=
  ⟨hP.work s t hw (fun _ _ => by rw [ht]) h.1, fun x hx => h.2 x (hb ▸ hx)⟩

theorem KeptBy.notify {s : State} (n : NoticeSubject) (c : Content) (h : P s ∧ Backlogged Q s) :
    P (notify n c s) ∧ Backlogged Q (notify n c s) :=
  hP.steady (notify_work n c s) ((notify_frame n c s).same .denyTable (by decide)) ((notify_frame n c s).same .backlog (by decide)) h

theorem KeptBy.handWants {s : State} (h : P s ∧ Backlogged Q s) : P (handWants s) ∧ Backlogged Q (handWants s) := by
  refine ⟨handWants_keeps (fun s k j => hP.hand s k j) h.1, fun x hx => h.2 x ?_⟩
  rwa [show (Machine.handWants s).et.backlog = s.et.backlog from (handWants_frame s).same .backlog (by decide)] at hx

theorem KeptBy.backlog {s : State} {l : List Subject} (hl : ∀ x ∈ l, Q x) (h : P s ∧ Backlogged Q s) :
    P { s with et := { s.et with backlog := l } } ∧ Backlogged Q { s with et := { s.et with backlog := l } } :=
  ⟨hP.work _ _ (backlogWrite_work l s) (fun _ _ => rfl) h.1, hl⟩

section

variable {sub : Subject} (hsub : Q sub)
include hsub

theorem KeptBy.setDeny {s : State} {e : DenyEntry} (hw : Work s (setDeny (subjectKey sub) e s)) (h : P s ∧ Backlogged Q s) :
    P (setDeny (subjectKey sub) e s) ∧ Backlogged Q (setDeny (subjectKey sub) e s) :=
  ⟨hP.work _ _ hw (fun _ hkey => (tget_tput _ _ _ _).trans (if_neg (hkey sub hsub))) h.1, h.2⟩

omit hsub in
theorem KeptBy.admitBacklog {s : State} (h : P s ∧ Backlogged Q s) : P (admitBacklog s) ∧ Backlogged Q (admitBacklog s) := by
  unfold Machine.admitBacklog
  split
  · exact h
  · rename_i first rest heq
    have hmem : ∀ x ∈ first :: rest, Q x := fun x hx => h.2 x (heq ▸ hx)
    have hput := hP.setDeny (e := newDeny) (hmem first List.mem_cons_self) (setDeny_work fun _ _ _ => rfl)
      (hP.backlog (fun x hx => hmem x (List.mem_cons_of_mem _ hx)) h)
    dsimp only
    split
    · exact hP.notify _ _ hput
    · exact hput

theorem KeptBy.testRemoval {s : State} (h : P s ∧ Backlogged Q s) :
    P (testRemoval (subjectKey sub) s) ∧ Backlogged Q (testRemoval (subjectKey sub) s) := by
  unfold Machine.testRemoval
  split
  · exact h
  · split
    · refine hP.admitBacklog ⟨hP.work _ _ (tableWrite_work fun e he => ?_)
        (fun _ hkey => (tget_tdel _ _ _).trans (if_neg (hkey sub hsub))) h.1, h.2⟩
      rw [tdel_eq_filter] at he
      exact (List.mem_filter.1 he).1
    · exact h

theorem KeptBy.enforceBlock {s : State} (h : P s ∧ Backlogged Q s) : P (enforceBlock sub s) ∧ Backlogged Q (enforceBlock sub s) := by
  have hjoin : ∀ x ∈ s.et.backlog ++ [sub], Q x := fun x hx =>
    (List.mem_append.1 hx).elim (h.2 x) fun hx => List.mem_singleton.1 hx ▸ hsub
  unfold Machine.enforceBlock
  dsimp only
  split
  · rename_i e he
    exact hP.handWants (hP.setDeny hsub (resetDeny_work _ he) h)
  · split
    · exact hP.handWants (hP.setDeny hsub (setDeny_work fun _ _ _ => rfl) h)
    · split
      · exact hP.notify _ _ (hP.backlog hjoin h)
      · exact hP.backlog hjoin h

theorem KeptBy.enforceUnblock {s : State} (h : P s ∧ Backlogged Q s) :
    P (enforceUnblock sub s) ∧ Backlogged Q (enforceUnblock sub s) := by
  have hleave : ∀ x ∈ s.et.backlog.filter (· ≠ sub), Q x := fun x hx => h.2 x (List.mem_filter.1 hx).1
  unfold Machine.enforceUnblock
  dsimp only
  split
  · split
    · exact hP.notify _ _ (hP.backlog hleave h)
    · exact hP.backlog hleave h
  · split
    · exact h
    · rename_i e he
      exact hP.handWants (hP.testRemoval hsub (hP.setDeny hsub (resetDeny_work _ he) h))

theorem KeptBy.evaluate {s : State} (c : QuotaCause) (h : P s ∧ Backlogged Q s) :
    P (evaluate c sub s) ∧ Backlogged Q (evaluate c sub s) := by
  by_cases hsame : nextState (acct s sub) = (acct s sub).state
  · rwa [evaluate_of_steady hsame]
  · have hmoved := hP.steady (stateMoved_work sub s) (congrArg Et.table (stateMoved_et sub s))
      (congrArg Et.backlog (stateMoved_et sub s)) h
    rw [evaluate_of_changed c hsame]
    refine hP.notify _ _ ?_
    unfold reportBlocking
    split
    · exact hmoved
    · split
      · exact hP.enforceBlock hsub hmoved
      · exact hP.enforceUnblock hsub hmoved

end

theorem KeptBy.evaluateGroup {s : State} (c : QuotaCause) {g : Option Nat} (hg : ∀ i, g = some i → Q (.group i))
    (h : P s ∧ Backlogged Q s) : P (evaluateGroup c g s) ∧ Backlogged Q (evaluateGroup c g s) := by
  cases g with
  | none => exact h
  | some i => exact hP.evaluate (hg i rfl) c h

end

/-! ### A subject blocked, and one unblocked or dropped -/

/-- The servers' parts of a subject's entry; a new one has none. -/
def entryParts (sub : Subject) (s : State) : Tab ServerPart := ((tget s.et.table (subjectKey sub)).map DenyEntry.parts).getD []

/-- A subject with an entry, or with room for one, is blocked: the entry, made or kept, wants DENY, and its orders go out (R106, R108). -/
theorem enforceBlock_enters {sub : Subject} {s : State} (h : tget s.et.table (subjectKey sub) ≠ none ∨ s.et.table.length < 4096) :
    enforceBlock sub s = handWants (setDeny (subjectKey sub) { want := .deny, parts := resetParts (entryParts sub s) } s) := by
  unfold enforceBlock entryParts
  dsimp only
  cases he : tget s.et.table (subjectKey sub) with
  | some e => rfl
  | none => exact if_pos (h.resolve_left fun hno => hno he)

/-- The entry made or kept comes to want DENY (R106, R108). -/
theorem enforceBlock_hands {sub : Subject} (hsub : subjectOfKey (subjectKey sub) = sub) {ref s : State} (hs0 : SameEntry sub ref s)
    (h : tget s.et.table (subjectKey sub) ≠ none ∨ s.et.table.length < 4096) (hs : tsorted (entryParts sub ref) = true) :
    Handed sub .deny (entryParts sub ref) ref (enforceBlock sub s) := by
  have hparts : entryParts sub s = entryParts sub ref := by rw [entryParts, hs0.entry, entryParts]
  rw [enforceBlock_enters h, hparts]
  exact (setDeny_handing hs hs0).handWants hsub

theorem subjectOfKey_subjectKey {sub : Subject} (h : ∀ i, sub = .principal i → i < 32768) :
    subjectOfKey (subjectKey sub) = sub := by
  cases sub with
  | principal i => exact if_pos (h i rfl)
  | group g =>
    rw [subjectKey, subjectOfKey, if_neg (by omega), Nat.add_sub_cancel_left]

/-- With no room the subject joins the backlog, and the backlog's rise raises ENFORCE_BACKLOG (R106, R111). -/
theorem enforceBlock_full {sub : Subject} {s : State} (he : tget s.et.table (subjectKey sub) = none)
    (hfull : 4096 ≤ s.et.table.length) : enforceBlock sub s = if s.et.backlog = [] then
      notifyBacklog true { s with et := { s.et with backlog := s.et.backlog ++ [sub] } }
      else { s with et := { s.et with backlog := s.et.backlog ++ [sub] } } := by
  rw [enforceBlock, he]
  exact if_neg (Nat.not_lt.2 hfull)

/-- A backlogged subject is unblocked: it loses its place, and the backlog's fall raises ENFORCE_BACKLOG (R107, R111). -/
theorem enforceUnblock_waiting {sub : Subject} {s : State} (h : sub ∈ s.et.backlog) : enforceUnblock sub s =
    if s.et.backlog.filter (· ≠ sub) = [] then
      notifyBacklog false { s with et := { s.et with backlog := s.et.backlog.filter (· ≠ sub) } }
    else { s with et := { s.et with backlog := s.et.backlog.filter (· ≠ sub) } } := by
  rw [enforceUnblock, if_pos (List.contains_iff_mem.2 h)]

/-- A removal lets nobody join the backlog (R110). -/
theorem mem_backlog_of_testRemoval {k : Nat} {s : State} {x : Subject} (hx : x ∈ (testRemoval k s).et.backlog) :
    x ∈ s.et.backlog := by
  unfold testRemoval at hx
  split at hx
  · exact hx
  · split at hx
    · exact ((keptBy_true (· ∈ s.et.backlog)).admitBacklog (s := { s with et := { s.et with table := tdel s.et.table k } })
        ⟨trivial, fun _ h => h⟩).2 x hx
    · exact hx

/-- No place in the backlog is left to a subject unblocked or dropped (R107). -/
theorem enforceUnblock_leaves (sub : Subject) (s : State) : sub ∉ (enforceUnblock sub s).et.backlog := by
  by_cases h : sub ∈ s.et.backlog
  · have hgone : sub ∉ s.et.backlog.filter (· ≠ sub) := fun hno => of_decide_eq_true (List.mem_filter.1 hno).2 rfl
    rw [enforceUnblock_waiting h]
    split
    · rwa [show (notifyBacklog false _).et.backlog = _ from (notifyBacklog_frame _ _).same .backlog (by decide)]
    · exact hgone
  · have hout : ¬s.et.backlog.contains sub = true := mt List.contains_iff_mem.1 h
    rw [enforceUnblock, if_neg hout]
    split
    · exact h
    · rw [show (handWants _).et.backlog = _ from (handWants_frame _).same .backlog (by decide)]
      exact fun hno => h (mem_backlog_of_testRemoval (s := setDeny (subjectKey sub) _ s) hno)

/-- What becomes of the entry of a subject unblocked or dropped, if it has one (R107, R108, R110). -/
def EntryAllowed (sub : Subject) (ref t : State) : Prop :=
  (tget ref.et.table (subjectKey sub) = none → tget t.et.table (subjectKey sub) = none)
    ∧ ∀ old, tget ref.et.table (subjectKey sub) = some old → tsorted old.parts = true →
      if ∀ srv ∈ serverList, linkUp ref srv = false then tget t.et.table (subjectKey sub) = none
      else Handed sub .allow old.parts ref t

theorem EntryAllowed.unblocked {sub : Subject} {ref t : State} (h : EntryAllowed sub ref t) : Unblocked sub ref t := by
  refine ⟨h.1, fun old hold hs => ?_⟩
  have hold := h.2 old hold hs
  split
  · rwa [if_pos ‹_›] at hold
  · rw [if_neg ‹_›] at hold
    exact hold.wantHanded

theorem keptBy_allowed {sub : Subject} (hsub : subjectOfKey (subjectKey sub) = sub) (ref : State) :
    KeptBy (KeyNot (subjectKey sub)) (EntryAllowed sub ref) := by
  have habsent := keptBy_absent (subjectKey sub)
  have hhanded (parts : Tab ServerPart) := keptBy_handed hsub .allow parts ref
  refine ⟨fun s k j h => ⟨fun hn => habsent.hand s k j (h.1 hn), fun old ho hs => ?_⟩,
    fun s t hw he h => ⟨fun hn => habsent.work s t hw he (h.1 hn), fun old ho hs => ?_⟩⟩
  all_goals
    have hold := h.2 old ho hs
    split
  · rw [if_pos ‹_›] at hold
    exact habsent.hand s k j hold
  · rw [if_neg ‹_›] at hold
    exact (hhanded _).hand s k j hold
  · rw [if_pos ‹_›] at hold
    exact habsent.work s t hw he hold
  · rw [if_neg ‹_›] at hold
    exact (hhanded _).work s t hw he hold

theorem removable_reset {s : State} {parts : Tab ServerPart} (h : tsorted parts = true) :
    removable s { want := .allow, parts := resetParts parts } = true ↔ ∀ srv ∈ serverList, linkUp s srv = false := by
  have hstatus (srv : Nat) : (denyPart { want := .allow, parts := resetParts parts } srv).status = .notSent := by
    rw [denyPart, tgetD_resetParts h]
    rfl
  simp only [removable, hstatus, decide_true, Bool.true_and, List.all_eq_true, reduceCtorEq, decide_false, Bool.or_false,
    Bool.not_eq_true']

/-- A subject without a backlog place is unblocked: its entry leaves the table, or its ALLOW is handed over. -/
theorem enforceUnblock_allows {sub : Subject} (hsub : subjectOfKey (subjectKey sub) = sub) {ref s : State}
    (hfree : Backlogged (KeyNot (subjectKey sub)) s) (hs0 : SameEntry sub ref s) :
    EntryAllowed sub ref (enforceUnblock sub s) := by
  have hout : ¬s.et.backlog.contains sub = true := fun hno => hfree sub (List.contains_iff_mem.1 hno) rfl
  refine ⟨fun hn => ?_, fun old ho hs => ?_⟩
  · rw [← hs0.entry] at hn
    rw [enforceUnblock, if_neg hout, hn]
    exact hn
  · rw [← hs0.entry] at ho
    rw [enforceUnblock, if_neg hout, ho]
    dsimp only
    have hhanding := setDeny_handing (want := .allow) hs hs0
    have hremovable := removable_reset (s := setDeny (subjectKey sub) { want := .allow, parts := resetParts old.parts } s) hs
    rw [testRemoval, hhanding.entry]
    dsimp only
    have hdown : (∀ srv ∈ serverList, linkUp ref srv = false)
        ↔ ∀ srv ∈ serverList, linkUp (setDeny (subjectKey sub) { want := .allow, parts := resetParts old.parts } s) srv = false :=
      forall₂_congr fun srv _ => by rw [hhanding.links]
    split
    · rename_i hnone
      rw [if_pos (hremovable.2 (hdown.1 hnone))]
      have habsent := keptBy_absent (subjectKey sub)
      have hgone : tget (tdel (setDeny (subjectKey sub) { want := .allow, parts := resetParts old.parts } s).et.table
          (subjectKey sub)) (subjectKey sub) = none := (tget_tdel _ _ _).trans (if_pos rfl)
      exact (habsent.handWants (habsent.admitBacklog (s := { setDeny _ _ s with et := { s.et with table := tdel _ _ } })
        ⟨hgone, hfree⟩)).1
    · rename_i hsome
      rw [if_neg fun hno => hsome (hdown.2 (hremovable.1 hno))]
      exact hhanding.handWants hsub

end Sys2Proof.Machine
end

