-- ==== Sys2Proof/Proofs/LimitsAndGrace.lean ====
section
/-! PROOF. SET_LIMITS, GRANT_GRACE and GRANT_GRACE ALL (O45): the comparator (R100), and what an evaluation makes of the deny table, the
backlog and the notices (R101, R106 to R108, R111). -/

namespace Sys2Proof.Machine

/-! ### The comparator (R100) -/

theorem softReleased_iff {a : Account} :
    softReleased a = true ↔ a.soft = 0 ∨ loadOf a < (a.soft - a.band) * 16 ∨ loadOf a = 0 := by
  unfold softReleased rsOf
  simp only [Bool.or_eq_true, decide_eq_true_eq, or_assoc]

theorem hardReleased_iff {a : Account} :
    hardReleased a = true ↔ a.hard = 0 ∨ loadOf a < (a.hard - a.band) * 16 ∨ loadOf a = 0 := by
  unfold hardReleased rhOf
  simp only [Bool.or_eq_true, decide_eq_true_eq, or_assoc]

theorem nextState_hard {a : Account} (hh : a.hard ≠ 0) (hl : a.hard * 16 ≤ loadOf a) : nextState a = .hard := if_pos ⟨hh, hl⟩

/-- Below the hard limit the state follows from the one before it and from the release points. -/
theorem nextState_below {a : Account} (h : a.hard = 0 ∨ loadOf a < a.hard * 16) {softly released : QuotaState}
    (hsoftly : softly = softOrSpent a)
    (hreleased : released = if a.soft = 0 ∨ loadOf a < (a.soft - a.band) * 16 ∨ loadOf a = 0 then .under else softly) :
    nextState a = match a.state with
      | .hard => if a.hard = 0 ∨ loadOf a < (a.hard - a.band) * 16 ∨ loadOf a = 0 then released else .hard
      | .under => if a.soft ≠ 0 ∧ a.soft * 16 ≤ loadOf a then softly else .under
      | .soft => released
      | .spent => released := by
  have hbelow : ¬(a.hard ≠ 0 ∧ h16Of a ≤ loadOf a) := fun hno => h.elim hno.1 (Nat.not_lt.2 hno.2)
  have hrelease : (if softReleased a then QuotaState.under else softOrSpent a) = released := by
    rw [hreleased, hsoftly]
    exact if_congr softReleased_iff rfl rfl
  rw [nextState, if_neg hbelow]
  cases a.state with
  | hard => exact if_congr hardReleased_iff hrelease rfl
  | under => rw [hsoftly]; rfl
  | soft => exact hrelease
  | spent => exact hrelease

/-! ### What follows a change of state (R101) -/

section

variable {sub : Subject} {s : State}

theorem reportBlocking_steady {old new : QuotaState} (h : old.blocked = new.blocked) : reportBlocking sub old new s = s := if_pos h

theorem reportBlocking_blocks {old new : QuotaState} (ho : old.blocked = false) (hn : new.blocked = true) :
    reportBlocking sub old new s = enforceBlock sub s := by
  rw [reportBlocking, if_neg (by rw [ho, hn]; decide), if_pos hn]

theorem reportBlocking_unblocks {old new : QuotaState} (ho : old.blocked = true) (hn : new.blocked = false) :
    reportBlocking sub old new s = enforceUnblock sub s := by
  rw [reportBlocking, if_neg (by rw [ho, hn]; decide), if_neg (by rw [hn]; decide)]

/-- The notices of an evaluation itself (R101). -/
def quotaNotices (c : QuotaCause) (sub : Subject) (a : Account) (time : Nat) : List Notice :=
  if nextState a = a.state then [] else [quotaNotice c sub a time]

theorem blocks_changed {a : Account} (ho : a.state.blocked = false) (hn : (nextState a).blocked = true) :
    nextState a ≠ a.state := fun h => by
  rw [h, ho] at hn
  cases hn

theorem unblocks_changed {a : Account} (ho : a.state.blocked = true) (hn : (nextState a).blocked = false) :
    nextState a ≠ a.state := fun h => by
  rw [h, ho] at hn
  cases hn

/-- What an evaluation that changes the state leaves is what the ET leaves, and its notice comes behind the ET's (log 7). -/
structure Reported (c : QuotaCause) (sub : Subject) (a : Account) (s u t : State) : Prop where
  frame : Frame raiseParts u t
  work : Work u t
  notices : ∀ ns, Noticed ns (stateMoved sub s) u → Noticed (ns ++ quotaNotices c sub a (now s)) s t

theorem evaluate_reported (c : QuotaCause) {a : Account} (ha : a = acct s sub) (h : nextState a ≠ a.state) {u : State}
    (hu : u = reportBlocking sub a.state (nextState a) (stateMoved sub s)) : Reported c sub a s u (evaluate c sub s) := by
  subst ha hu
  rw [evaluate_of_changed c h]
  refine ⟨raise_frame _ _, raise_work _ _, fun ns hns => ?_⟩
  rw [quotaNotices, if_neg h]
  exact ((stateMoved_silent sub s).silent_trans hns).trans (raise_noticed _ _)

/-- Work that leaves the Enforcement Table's parts leaves the table. -/
theorem Frame.et {L : List Part} {s t : State} (h : Frame L s t) (htable : Part.denyTable ∉ Part.replies :: Part.restart :: L)
    (hbacklog : Part.backlog ∉ Part.replies :: Part.restart :: L) (hbreach : Part.breachTotal ∉ Part.replies :: Part.restart :: L) :
    t.et = s.et := by
  obtain ⟨table, backlog, breachTotal⟩ : (t.et.table = s.et.table) ∧ (t.et.backlog = s.et.backlog)
    ∧ t.et.breachTotal = s.et.breachTotal := ⟨h.same _ htable, h.same _ hbacklog, h.same _ hbreach⟩
  cases hs : s.et
  cases ht : t.et
  rw [hs, ht] at table backlog breachTotal
  cases table
  cases backlog
  cases breachTotal
  rfl

theorem Reported.et {c : QuotaCause} {a : Account} {u t : State} (h : Reported c sub a s u t) : t.et = u.et :=
  h.frame.et (by decide) (by decide) (by decide)

theorem Reported.links {c : QuotaCause} {a : Account} {u t : State} (h : Reported c sub a s u t) : t.lu.links = u.lu.links :=
  h.frame.same .links (by decide)

theorem stateMoved_links (sub : Subject) (s : State) : (stateMoved sub s).lu.links = s.lu.links :=
  (stateMoved_frame sub s).same .links (by decide)

theorem stateMoved_now (sub : Subject) (s : State) : now (stateMoved sub s) = now s := (stateMoved_frame sub s).now

theorem notifyBacklog_et (b : Bool) (s : State) : (notifyBacklog b s).et = s.et :=
  (notifyBacklog_frame b s).et (by decide) (by decide) (by decide)

theorem notifyBacklog_links (b : Bool) (s : State) : (notifyBacklog b s).lu.links = s.lu.links :=
  (notifyBacklog_frame b s).same .links (by decide)

/-- The backlog is written and, where it rises or falls, said so (R111). -/
theorem backlogSaid {l : List Subject} {P : Prop} [Decidable P] (standing : Bool) (s : State) {t : State} (ht : t = if P then
      notifyBacklog standing { s with et := { s.et with backlog := l } } else { s with et := { s.et with backlog := l } }) :
    t.et = { s.et with backlog := l } ∧ t.lu.links = s.lu.links
    ∧ Noticed (if P then [⟨.device, .enforceBacklog standing l.length s.et.table.length (now s)⟩] else []) s t := by
  subst ht
  by_cases hP : P
  · rw [if_pos hP, if_pos hP]
    have hsilent : Noticed [] s { s with et := { s.et with backlog := l } } := Noticed.nil rfl
    exact ⟨notifyBacklog_et _ _, notifyBacklog_links _ _, hsilent.silent_trans (notify_noticed _ _ _)⟩
  · rw [if_neg hP, if_neg hP]
    exact ⟨rfl, rfl, Noticed.nil rfl⟩

section

variable {c : QuotaCause} {a : Account} (ha : a = acct s sub)
include ha

/-- The subject does not pass between blocked and unblocked: nothing is asked of the ET. -/
theorem evaluate_asksNothing (h : a.state.blocked = (nextState a).blocked) : (evaluate c sub s).et = s.et
    ∧ (evaluate c sub s).lu.links = s.lu.links ∧ Noticed (quotaNotices c sub a (now s)) s (evaluate c sub s) := by
  by_cases hsame : nextState a = a.state
  · rw [evaluate_of_steady (ha ▸ hsame), quotaNotices, if_pos hsame]
    exact ⟨rfl, rfl, Noticed.refl s⟩
  · have hr := evaluate_reported c ha hsame rfl
    rw [reportBlocking_steady h] at hr
    exact ⟨hr.et.trans (stateMoved_et sub s), hr.links.trans (stateMoved_links sub s), hr.notices [] (Noticed.refl _)⟩

section

variable (ho : a.state.blocked = false) (hn : (nextState a).blocked = true)
include ho hn

/-- A subject with an entry, or with room for one, is blocked (R106, R108). -/
theorem evaluate_blocks (hsub : subjectOfKey (subjectKey sub) = sub) {ref : State} (hs0 : SameEntry sub ref s)
    (hs : tsorted s.et.table = true) (hroom : tget s.et.table (subjectKey sub) ≠ none ∨ s.et.table.length < 4096) :
    (tsorted (entryParts sub ref) = true → Handed sub .deny (entryParts sub ref) ref (evaluate c sub s))
    ∧ (evaluate c sub s).et.backlog = s.et.backlog ∧ Noticed (quotaNotices c sub a (now s)) s (evaluate c sub s) := by
  have hr := evaluate_reported c ha (blocks_changed ho hn) rfl
  rw [reportBlocking_blocks ho hn] at hr
  rw [← stateMoved_et sub s] at hroom hs
  have hsame := handWants_sameWants (s := setDeny (subjectKey sub)
    { want := .deny, parts := resetParts (entryParts sub (stateMoved sub s)) } (stateMoved sub s)) (tsorted_tput _ _ _ hs)
  rw [← enforceBlock_enters hroom] at hsame
  refine ⟨fun hp => ?_, ?_, hr.notices [] ((setDeny_silent _ _ _).trans hsame.silent)⟩
  · exact (enforceBlock_hands hsub hs0.stateMoved hroom hp).of_work hr.work (by rw [hr.et])
  · rw [hr.et]
    exact hsame.backlog.trans (show (stateMoved sub s).et.backlog = _ by rw [stateMoved_et])

/-- With the table full the subject joins the backlog (R106, R111). -/
theorem evaluate_joins (he : tget s.et.table (subjectKey sub) = none) (hfull : 4096 ≤ s.et.table.length) :
    (evaluate c sub s).et = { s.et with backlog := s.et.backlog ++ [sub] } ∧ (evaluate c sub s).lu.links = s.lu.links
    ∧ Noticed ((if s.et.backlog = [] then [⟨.device, .enforceBacklog true 1 s.et.table.length (now s)⟩] else [])
        ++ quotaNotices c sub a (now s)) s (evaluate c sub s) := by
  have hr := evaluate_reported c ha (blocks_changed ho hn) rfl
  rw [reportBlocking_blocks ho hn] at hr
  rw [← stateMoved_et sub s] at he hfull
  obtain ⟨het, hlinks, hnotices⟩ := backlogSaid true _ (enforceBlock_full he hfull)
  rw [stateMoved_now] at hnotices
  rw [stateMoved_et] at het hnotices
  refine ⟨hr.et.trans het, hr.links.trans (hlinks.trans (stateMoved_links sub s)), hr.notices _ ?_⟩
  by_cases hb : s.et.backlog = []
  · rw [if_pos hb, hb] at hnotices
    rw [if_pos hb]
    exact hnotices
  · rw [if_neg hb] at hnotices ⊢
    exact hnotices

end

section

variable (ho : a.state.blocked = true) (hn : (nextState a).blocked = false)
include ho hn

/-- A backlogged subject is unblocked (R107, R111). -/
theorem evaluate_leaves (hmem : sub ∈ s.et.backlog) :
    (evaluate c sub s).et = { s.et with backlog := s.et.backlog.filter (· ≠ sub) } ∧ (evaluate c sub s).lu.links = s.lu.links
    ∧ Noticed ((if s.et.backlog.filter (· ≠ sub) = [] then [⟨.device, .enforceBacklog false 0 s.et.table.length (now s)⟩] else [])
        ++ quotaNotices c sub a (now s)) s (evaluate c sub s) := by
  have hr := evaluate_reported c ha (unblocks_changed ho hn) rfl
  rw [reportBlocking_unblocks ho hn] at hr
  rw [← stateMoved_et sub s] at hmem
  obtain ⟨het, hlinks, hnotices⟩ := backlogSaid false _ (enforceUnblock_waiting hmem)
  rw [stateMoved_now] at hnotices
  rw [stateMoved_et] at het hnotices
  refine ⟨hr.et.trans het, hr.links.trans (hlinks.trans (stateMoved_links sub s)), hr.notices _ ?_⟩
  by_cases hb : s.et.backlog.filter (· ≠ sub) = []
  · rw [if_pos hb, hb] at hnotices
    rw [if_pos hb]
    exact hnotices
  · rw [if_neg hb] at hnotices ⊢
    exact hnotices

/-- A subject without a backlog place is unblocked (R107, R108, R110). -/
theorem evaluate_allows (hsub : subjectOfKey (subjectKey sub) = sub) {ref : State} (hs0 : SameEntry sub ref s)
    (hfree : Backlogged (KeyNot (subjectKey sub)) s) : EntryAllowed sub ref (evaluate c sub s)
    ∧ (tsorted s.et.table = true → s.et.backlog = [] → Noticed (quotaNotices c sub a (now s)) s (evaluate c sub s)) := by
  have hr := evaluate_reported c ha (unblocks_changed ho hn) rfl
  rw [reportBlocking_unblocks ho hn] at hr
  refine ⟨?_, fun hs hb => hr.notices [] ?_⟩
  · have hfree' : Backlogged (KeyNot (subjectKey sub)) (stateMoved sub s) := fun x hx =>
      hfree x (by rwa [stateMoved_et] at hx)
    exact (keptBy_allowed hsub ref).work _ _ hr.work (fun _ _ => by rw [hr.et]) (enforceUnblock_allows hsub hfree' hs0.stateMoved)
  · rw [← stateMoved_et sub s] at hs hb
    exact (enforceUnblock_enforced hs hb sub).1.silent

end

end

end

/-! ### The requests' effects (R97 to R99) -/

theorem softTaken_eq (soft hard : Nat) : softTaken soft hard =
    if min 1099511627775 hard = 0 then min 1099511627775 soft else min soft (min 1099511627775 hard) := by
  unfold softTaken top40
  split_ifs <;> omega

theorem quotaSubject_key {w : WireSubject} {sub : Subject} (h : quotaSubject w = some sub) :
    subjectOfKey (subjectKey sub) = sub := by
  refine subjectOfKey_subjectKey fun i hi => ?_
  subst hi
  unfold quotaSubject at h
  split at h
  · split at h
    · cases h
      omega
    · cases h
  · split at h <;> cases h
  · cases h

theorem setLimits_malformed {w : WireSubject} (soft hard band : Nat) (s : State) (h : quotaSubject w = none) :
    setLimits w soft hard band s = (s, refusal .malformed) := by
  rw [setLimits, h]

theorem setLimits_noSuch {w : WireSubject} {sub : Subject} (soft hard band : Nat) {s : State} (h : quotaSubject w = some sub)
    (hd : subjectDefined s sub = false) : setLimits w soft hard band s = (s, refusal .noSuch) := by
  rw [setLimits, h]
  exact if_pos hd

theorem setLimits_evaluates {w : WireSubject} {sub : Subject} (soft hard band : Nat) {s : State} (h : quotaSubject w = some sub)
    (hd : ¬subjectDefined s sub = false) {sv hv bv : Nat} (hhv : hv = min 1099511627775 hard)
    (hsv : sv = if hv = 0 then min 1099511627775 soft else min soft hv) (hbv : bv = min 65535 band) :
    setLimits w soft hard band s = (evaluate .limits sub (setAcct sub { acct s sub with soft := sv, hard := hv, band := bv } s),
      accept ((if sv = soft then [] else [2]) ++ (if hv = hard then [] else [3]) ++ (if bv = band then [] else [4])) .none) := by
  have hsv : softTaken soft hard = sv := by rw [softTaken_eq, hsv, hhv]
  have hhv : min hard top40 = hv := (Nat.min_comm _ _).trans hhv.symm
  have hbv : min band top16 = bv := (Nat.min_comm _ _).trans hbv.symm
  rw [setLimits, h]
  dsimp only
  rw [if_neg hd, hsv, hhv, hbv, clampedFields_ne, clampedFields_ne, clampedFields_ne, show clampedFields [] = [] from rfl,
    List.append_nil, List.append_assoc]

theorem grantGrace_malformed {w : WireSubject} (minutes : Nat) (s : State) (h : quotaSubject w = none) :
    grantGrace w minutes s = (s, refusal .malformed) := by
  rw [grantGrace, h]

theorem grantGrace_noSuch {w : WireSubject} {sub : Subject} (minutes : Nat) {s : State} (h : quotaSubject w = some sub)
    (hd : subjectDefined s sub = false) : grantGrace w minutes s = (s, refusal .noSuch) := by
  rw [grantGrace, h]
  exact if_pos hd

/-- The field of the minutes stands in the clamp list when it lies above its range (R98, R99). -/
theorem clampedFields_minutes (minutes : Nat) :
    clampedFields [(2, decide (min minutes top16 ≠ minutes))] = if 65535 < minutes then [2] else [] := by
  have hclamp : min minutes top16 ≠ minutes ↔ 65535 < minutes := by unfold top16; omega
  rw [clampedFields_cons, if_congr hclamp rfl rfl]
  exact List.append_nil _

theorem grantGrace_evaluates {w : WireSubject} {sub : Subject} (minutes : Nat) {s : State} (h : quotaSubject w = some sub)
    (hd : ¬subjectDefined s sub = false) : grantGrace w minutes s =
      (evaluate .grace sub (setAcct sub { acct s sub with grace := min 65535 minutes } s),
        accept (if 65535 < minutes then [2] else []) .none) := by
  rw [grantGrace, h]
  dsimp only
  rw [if_neg hd, clampedFields_minutes, Nat.min_comm]
  rfl

theorem startGraceSweep_eq (minutes : Nat) (s : State) : startGraceSweep minutes s =
    if s.qm.sweep ≠ none then (s, refusal .state)
    else ({ s with qm := { s.qm with sweep := some { pos := 0, minutes := min 65535 minutes } } },
      accept (if 65535 < minutes then [2] else []) .none) := by
  unfold startGraceSweep
  cases s.qm.sweep with
  | some w => rfl
  | none =>
    dsimp only
    rw [clampedFields_minutes, Nat.min_comm]
    rfl

/-! ### The answer behind them -/

theorem WantHanded.congr {sub : Subject} {want : Want} {parts : Tab ServerPart} {e : DenyEntry} {ref t u : State}
    (h : WantHanded sub want parts e ref t) (hl : ∀ i, link u i = link t i) : WantHanded sub want parts e ref u :=
  ⟨h.1, fun srv hsrv => by rw [hl]; exact h.2 srv hsrv⟩

theorem Blocked.answer {sub : Subject} {ref t : State} (h : Blocked sub ref t) (tag : BitVec 16) (r : Reply) :
    Blocked sub ref (answer tag r t) := fun parts hparts hs => by
  obtain ⟨e, he, hw⟩ := h parts hparts hs
  exact ⟨e, by rwa [answer_et], hw.congr fun i => link_answer _ _ _ i⟩

theorem Unblocked.answer {sub : Subject} {ref t : State} (h : Unblocked sub ref t) (tag : BitVec 16) (r : Reply) :
    Unblocked sub ref (answer tag r t) := by
  refine ⟨fun hn => by rw [answer_et]; exact h.1 hn, fun old ho hs => ?_⟩
  have hold := h.2 old ho hs
  rw [answer_et]
  split
  · rwa [if_pos ‹_›] at hold
  · rw [if_neg ‹_›] at hold
    obtain ⟨e, he, hw⟩ := hold
    exact ⟨e, he, hw.congr fun i => link_answer _ _ _ i⟩

/-! ### A subject's account written and evaluated -/

section

variable {sub : Subject} {s : State}

theorem setAcct_et (sub : Subject) (a : Account) (s : State) : (setAcct sub a s).et = s.et := by
  cases sub <;> rfl

theorem setAcct_links (sub : Subject) (a : Account) (s : State) : (setAcct sub a s).lu.links = s.lu.links := by
  cases sub <;> rfl

theorem setAcct_silent (sub : Subject) (a : Account) (s : State) : Noticed [] s (setAcct sub a s) := by
  cases sub <;> exact Noticed.nil rfl

theorem setAcct_silent_of_hunt (sub : Subject) (a : Account) (s : State) : Noticed [] s (setAcct sub a (mgmtHunt s)) :=
  (Noticed.nil rfl : Noticed [] s (mgmtHunt s)).silent_trans (setAcct_silent sub a _)

theorem acct_judged (c : QuotaCause) (a : Account) (x : Subject) : acct (evaluate c sub (setAcct sub a s)) x =
    if sub = x then { a with state := nextState a } else acct s x := by
  rw [acct_evaluate, acct_setAcct]
  split <;> rfl

theorem judged_frame (c : QuotaCause) (a : Account) : Frame evalParts s (evaluate c sub (setAcct sub a s)) :=
  (evaluate_frame _ _ _).after (by decide) ((setAcct_frame sub a s).into (by decide))

theorem sameEntry_setAcct (a : Account) : SameEntry sub s (setAcct sub a (mgmtHunt s)) :=
  (⟨rfl, fun _ => rfl, rfl⟩ : SameEntry sub s (mgmtHunt s)).of_work (setAcct_work _ _ _) (congrArg Et.table (setAcct_et _ _ _))
    (userOf_setAcct _ _ _ _)

/-- What an evaluation with a new account makes of the ET and the notices, and what the reply leaves of it: clause by clause, as
SET_LIMITS has it. -/
theorem judged_enforces (c : QuotaCause) {a : Account} (tag : BitVec 16) (r : Reply) {t : State}
    (ht : t = answer tag r (evaluate c sub (setAcct sub a (mgmtHunt s)))) (hsub : subjectOfKey (subjectKey sub) = sub)
    {new : QuotaState} (hnew : new = nextState a) {quota : List Notice} (hquota : quota = quotaNotices c sub a (now s)) (hs : Tables s)
    (hfree : ∀ x ∈ s.et.backlog, subjectKey x = subjectKey sub → x = sub) :
    (a.state.blocked = new.blocked → t.et = s.et ∧ t.lu.links = s.lu.links ∧ Raises quota s t)
    ∧ (a.state.blocked = false → new.blocked = true → tget s.et.table (subjectKey sub) ≠ none ∨ s.et.table.length < 4096 →
        Blocked sub s t ∧ t.et.backlog = s.et.backlog ∧ Raises quota s t)
    ∧ (a.state.blocked = false → new.blocked = true → tget s.et.table (subjectKey sub) = none → 4096 ≤ s.et.table.length →
        t.et.table = s.et.table ∧ t.lu.links = s.lu.links ∧ t.et.backlog = s.et.backlog ++ [sub]
        ∧ Raises ((if s.et.backlog = [] then [⟨.device, .enforceBacklog true 1 s.et.table.length (now s)⟩] else []) ++ quota) s t)
    ∧ (a.state.blocked = true → new.blocked = false → sub ∈ s.et.backlog →
        t.et.table = s.et.table ∧ t.lu.links = s.lu.links ∧ t.et.backlog = s.et.backlog.filter (· ≠ sub)
        ∧ Raises ((if t.et.backlog = [] then [⟨.device, .enforceBacklog false 0 s.et.table.length (now s)⟩] else []) ++ quota) s t)
    ∧ (a.state.blocked = true → new.blocked = false → sub ∉ s.et.backlog →
        Unblocked sub s t ∧ (s.et.backlog = [] → Raises quota s t)) := by
  subst hnew hquota
  have ha : a = acct (setAcct sub a (mgmtHunt s)) sub := ((acct_setAcct _ _ _ _).trans (if_pos rfl)).symm
  have het : (setAcct sub a (mgmtHunt s)).et = s.et := setAcct_et sub a (mgmtHunt s)
  have hnow : now (setAcct sub a (mgmtHunt s)) = now s := (setAcct_frame sub a (mgmtHunt s)).now
  have hlinks : (setAcct sub a (mgmtHunt s)).lu.links = s.lu.links := setAcct_links sub a (mgmtHunt s)
  have hs0 := sameEntry_setAcct (sub := sub) (s := s) a
  have htet : t.et = (evaluate c sub (setAcct sub a (mgmtHunt s))).et := by rw [ht, answer_et]
  have htlinks : t.lu.links = (evaluate c sub (setAcct sub a (mgmtHunt s))).lu.links := by rw [ht, answer_lu_links]
  have hraises {ns : List Notice} (hn : Noticed ns (setAcct sub a (mgmtHunt s)) (evaluate c sub (setAcct sub a (mgmtHunt s)))) :
      Raises ns s t := by
    rw [ht]
    exact ((setAcct_silent_of_hunt sub a s).silent_trans hn).raises_answer tag r
  rw [← hnow, htlinks, htet, ← het, ← hlinks]
  refine ⟨fun hsteady => ?_, fun ho hn hroom => ?_, fun ho hn hnone hfull => ?_, fun ho hn hmem => ?_, fun ho hn hmem => ?_⟩
  · obtain ⟨hsame, hl, hnotices⟩ := evaluate_asksNothing (c := c) ha hsteady
    exact ⟨hsame, hl, hraises hnotices⟩
  · obtain ⟨hhanded, hbacklog, hnotices⟩ := evaluate_blocks (c := c) ha ho hn hsub hs0 (het ▸ hs.denyTable) hroom
    refine ⟨?_, hbacklog, hraises hnotices⟩
    rw [ht]
    refine Blocked.answer (fun parts hparts hsorted => ?_) tag r
    subst hparts
    exact (hhanded hsorted).wantHanded
  · obtain ⟨hjoined, hl, hnotices⟩ := evaluate_joins (c := c) ha ho hn hnone hfull
    exact ⟨by rw [hjoined], hl, by rw [hjoined], hraises hnotices⟩
  · obtain ⟨hleft, hl, hnotices⟩ := evaluate_leaves (c := c) ha ho hn hmem
    exact ⟨by rw [hleft], hl, by rw [hleft], by rw [hleft]; exact hraises hnotices⟩
  · obtain ⟨hallowed, hnotices⟩ := evaluate_allows (c := c) ha ho hn hsub hs0
      fun x hx hkey => hmem (hfree x (het ▸ hx) hkey ▸ hx)
    refine ⟨?_, fun hb => hraises (hnotices (het ▸ hs.denyTable) hb)⟩
    rw [ht]
    exact hallowed.unblocked.answer tag r

/-- The evaluation's own notice comes last (log 7). -/
theorem judged_raises (c : QuotaCause) {a : Account} (tag : BitVec 16) (r : Reply) (h : nextState a ≠ a.state) :
    ∃ before, Raises (before ++ [quotaNotice c sub a (now s)]) s (answer tag r (evaluate c sub (setAcct sub a (mgmtHunt s)))) := by
  have ha : a = acct (setAcct sub a (mgmtHunt s)) sub := ((acct_setAcct _ _ _ _).trans (if_pos rfl)).symm
  have hnow : now (setAcct sub a (mgmtHunt s)) = now s := (setAcct_frame sub a (mgmtHunt s)).now
  obtain ⟨before, hbefore⟩ := (reportBlocking_work sub a.state (nextState a) (stateMoved sub (setAcct sub a (mgmtHunt s)))).speaks
  have hnotices := (evaluate_reported c ha h rfl).notices _ hbefore
  rw [quotaNotices, if_neg h, hnow] at hnotices
  exact ⟨before, ((setAcct_silent_of_hunt sub a s).silent_trans hnotices).raises_answer tag r⟩

end

/-- GRANT_GRACE ALL, in either form (R99, R11). -/
theorem startGraceSweep_answers {h : ReqHead} {s : State} (ht : Takes h 7 s) (minutes : BitVec 32) {t : State}
    (heq : t = answer h.tag (startGraceSweep minutes.toNat (mgmtHunt s)).2 (startGraceSweep minutes.toNat (mgmtHunt s)).1) :
    if s.qm.sweep ≠ none then Refused h .state s t
    else Answered h (accept (if 65535 < minutes.toNat then [2] else []) .none) s t
      ∧ t.qm.sweep = some { pos := 0, minutes := min 65535 minutes.toNat } ∧ Unchanged (.graceSweep :: answerParts) s t := by
  subst heq
  rw [startGraceSweep_eq]
  by_cases hsweep : s.qm.sweep ≠ none
  · rw [if_pos hsweep, if_pos (show (mgmtHunt s).qm.sweep ≠ none from hsweep)]
    exact refused_takes _ ht
  · rw [if_neg hsweep, if_neg (show ¬(mgmtHunt s).qm.sweep ≠ none from hsweep)]
    obtain ⟨ha, hu⟩ := answered_of_frame (accept (if 65535 < minutes.toNat then [2] else []) .none) ht
      (graceSweepWrite_frame (some { pos := 0, minutes := min 65535 minutes.toNat }) (mgmtHunt s))
    exact ⟨ha, congrArg Qm.sweep (answer_qm _ _ _), hu⟩

/-- Settles O45: the comparator, the three requests, and what the evaluation of a subject's new limits makes of the ET. -/
theorem limitsAndGraceAreEvaluated : Obligations.LimitsAndGraceAreEvaluated := by
  refine ⟨?_, fun h w soft hard band s ht => ?_, fun h w minutes s ht hw => ?_, fun h minutes c s ht hc => ?_⟩
  · rintro a _ released softly rfl hsoftly hreleased
    exact ⟨nextState_hard, fun hbelow => nextState_below hbelow hsoftly hreleased⟩
  · have he : exec (.setLimits h w soft hard band) s = .next (answer h.tag
        (setLimits w soft.toNat hard.toNat band.toNat (mgmtHunt s)).2
        (setLimits w soft.toNat hard.toNat band.toNat (mgmtHunt s)).1) := congrArg Host.Outcome.next (fixedRequest_takes ht _)
    refine ⟨_, he, ?_⟩
    cases hsub : quotaSubject w with
    | none =>
      rw [setLimits_malformed _ _ _ _ hsub]
      have hr := refused_takes .malformed ht
      exact ⟨fun _ => hr, fun _ hno => (nomatch hno), hr.2.mono (by decide)⟩
    | some sub =>
      by_cases hd : subjectDefined s sub = false
      · rw [setLimits_noSuch _ _ _ (s := mgmtHunt s) hsub hd]
        have hr := refused_takes .noSuch ht
        exact ⟨fun hno => (nomatch hno), fun x hx => by rw [← Option.some.inj hx, if_pos hd]; exact hr, hr.2.mono (by decide)⟩
      · rw [setLimits_evaluates (s := mgmtHunt s) _ _ _ hsub hd rfl rfl rfl]
        obtain ⟨ha, hu⟩ := answered_of_frame _ ht (judged_frame .limits _)
        refine ⟨fun hno => (nomatch hno), fun x hx => ?_, hu⟩
        cases hx
        rw [if_neg hd]
        rintro _ _ _ a _ _ rfl rfl rfl rfl rfl rfl
        refine ⟨?_, fun k hk => ?_, ha, ?_⟩
        · rw [acct_answer, acct_judged, if_pos rfl]
          rfl
        · rw [acct_answer, acct_judged, if_neg (Ne.symm hk)]
          rfl
        · rintro _ _ quota rfl rfl hquota hs hfree
          exact judged_enforces .limits _ _ rfl (quotaSubject_key hsub) rfl hquota hs hfree
  · have he : exec (.grantGrace h w minutes) s = .next (answer h.tag (grantGrace w minutes.toNat (mgmtHunt s)).2
        (grantGrace w minutes.toNat (mgmtHunt s)).1) := by
      refine congrArg Host.Outcome.next ((fixedRequest_takes ht _).trans ?_)
      rw [if_neg hw]
    refine ⟨_, he, ?_⟩
    cases hsub : quotaSubject w with
    | none =>
      rw [grantGrace_malformed _ _ hsub]
      have hr := refused_takes .malformed ht
      exact ⟨fun _ => hr, fun _ hno => (nomatch hno), hr.2.mono (by decide)⟩
    | some sub =>
      by_cases hd : subjectDefined s sub = false
      · rw [grantGrace_noSuch _ (s := mgmtHunt s) hsub hd]
        have hr := refused_takes .noSuch ht
        exact ⟨fun hno => (nomatch hno), fun x hx => by rw [← Option.some.inj hx, if_pos hd]; exact hr, hr.2.mono (by decide)⟩
      · rw [grantGrace_evaluates (s := mgmtHunt s) _ hsub hd]
        obtain ⟨ha, hu⟩ := answered_of_frame _ ht (judged_frame .grace _)
        refine ⟨fun hno => (nomatch hno), fun x hx => ?_, hu⟩
        cases hx
        rw [if_neg hd]
        rintro a rfl
        refine ⟨?_, fun k hk => ?_, fun hchanged => judged_raises .grace _ _ hchanged, ha⟩
        · rw [acct_answer, acct_judged, if_pos rfl]
          rfl
        · rw [acct_answer, acct_judged, if_neg (Ne.symm hk)]
          rfl
  · have hboth : exec c s = .next (answer h.tag (startGraceSweep minutes.toNat (mgmtHunt s)).2
        (startGraceSweep minutes.toNat (mgmtHunt s)).1) := by
      rcases hc with rfl | rfl
      · exact congrArg Host.Outcome.next (fixedRequest_takes ht _)
      · refine congrArg Host.Outcome.next ((fixedRequest_takes ht _).trans ?_)
        rw [if_pos rfl]
    exact ⟨_, hboth, startGraceSweep_answers ht minutes rfl⟩

end Sys2Proof.Machine
end

