-- ==== Sys2Proof/Proofs/SubjectsDropped.lean ====
section
/-! PROOF. DROP_PRINCIPAL and DROP_GROUP (O44): the books that a drop leaves, and the entry, the backlog place and the soft list place
that the subject loses (R81, R95, R96, R102, R107). -/

namespace Sys2Proof.Machine

/-! ### The subject's places (R102, R107) -/

theorem mem_softListAfter {sub x : Subject} {old new : QuotaState} {l : List Subject} (h : x ∈ softListAfter sub old new l) :
    x ∈ l ∨ x = sub := by
  unfold softListAfter at h
  split_ifs at h
  · exact .inl (List.mem_filter.1 h).1
  · exact (List.mem_append.1 h).imp_right List.mem_singleton.1
  · exact .inl h

/-- Only a subject that is evaluated can join the soft list. -/
theorem Evaluated.mem_softList {l : List Subject} {s t : State} (h : Evaluated l s t) {x : Subject} (hx : x ∈ t.qm.softList) :
    x ∈ s.qm.softList ∨ x ∈ l := by
  have hfold : ∀ (l w : List Subject), x ∈ l.foldl (softListBy (acct s)) w → x ∈ w ∨ x ∈ l := fun l => by
    induction l with
    | nil => exact fun _ hw => .inl hw
    | cons y r ih =>
      refine fun w hw => (ih _ hw).elim (fun hby => ?_) fun hr => .inr (List.mem_cons_of_mem _ hr)
      unfold softListBy at hby
      split at hby
      · exact .inl hby
      · exact (mem_softListAfter hby).imp_right fun (hy : x = y) => by rw [hy]; exact List.mem_cons_self
  exact hfold l _ (h.soft ▸ hx)

/-- Nobody joins the backlog when a subject is unblocked. -/
theorem mem_backlog_of_enforceUnblock {sub x : Subject} {s : State} (hx : x ∈ (enforceUnblock sub s).et.backlog) :
    x ∈ s.et.backlog := by
  by_cases h : sub ∈ s.et.backlog
  · exact ((keptBy_true (· ∈ s.et.backlog)).enforceUnblock h ⟨trivial, fun _ h => h⟩).2 x hx
  · have hout : ¬s.et.backlog.contains sub = true := mt List.contains_iff_mem.1 h
    rw [enforceUnblock, if_neg hout] at hx
    split at hx
    · exact hx
    · rw [show (handWants _).et.backlog = _ from (handWants_frame _).same .backlog (by decide)] at hx
      exact mem_backlog_of_testRemoval (s := setDeny (subjectKey sub) _ s) hx

/-! ### The books (R81, R95) -/

/-- The usage of principal `p` given to principal 0, and its group's member count lowered. -/
def usageDropped (p : Nat) (s : State) : State := onMembers (principal s p).group (· - 1) (dropUsage p s)

/-- The record of principal `p` dropped, before anything is evaluated. -/
def recordDropped (p : Nat) (s : State) : State :=
  setPrincipal p Principal.undefined (enforceUnblock (.principal p) (leaveSoftList (.principal p) (usageDropped p s)))

/-- The subjects evaluated at a drop of `p`: principal 0, its group, and the old group if it is another (log 49). -/
def dropJudges (r z : Principal) : List Subject :=
  (.principal 0 :: (z.group.map Subject.group).toList) ++ if r.group = z.group then [] else (r.group.map Subject.group).toList

/-- Principal 0's record with the charge of a drop added (R73, R81). -/
def Principal.gains (z : Principal) (c : Nat) : Principal :=
  { z with acct := { z.acct with usage := addUsage z.acct.usage c }, outcome := addOutcome z.acct.usage c }

/-- A group's record as a drop leaves it: a member's usage gone, and what principal 0 gained (R73, R81). -/
def Group.afterDrop (x : Group) (g : Nat) (r z : Principal) : Group :=
  { x with
    acct := { x.acct with
      usage := (if r.group = some g then x.acct.usage - r.acct.usage else x.acct.usage)
        + if z.group = some g then addedAmount z.acct.usage r.acct.usage else 0 }
    members := if r.group = some g then x.members - 1 else x.members }

theorem principal_usageDropped (p : Nat) (s : State) (k : Nat) : principal (usageDropped p s) k =
    if 0 = k then (principal s 0).gains (principal s p).acct.usage else principal s k := by
  rw [usageDropped, principal_onMembers, dropUsage, principal_addCharge, principal_onGroup, principal_onGroup]
  rfl

theorem group_usageDropped (p : Nat) (s : State) (g : Nat) :
    group (usageDropped p s) g = (group s g).afterDrop g (principal s p) (principal s 0) := by
  rw [usageDropped, group_onMembers, dropUsage, group_addCharge, principal_onGroup, group_onGroup]
  unfold Group.afterDrop usageUp usageDown
  split_ifs <;> rfl

theorem unblockedBooks (sub : Subject) (s : State) : (∀ k, principal (enforceUnblock sub (leaveSoftList sub s)) k = principal s k)
    ∧ ∀ g, group (enforceUnblock sub (leaveSoftList sub s)) g = group s g := by
  have hframe := enforceUnblock_frame sub (leaveSoftList sub s)
  exact ⟨fun k => by rw [principal, hframe.same .principals (by decide)]; rfl,
    fun g => by rw [group, hframe.same .groups (by decide)]; rfl⟩

theorem principal_recordDropped (p : Nat) (s : State) (k : Nat) : principal (recordDropped p s) k =
    if p = k then Principal.undefined
    else if 0 = k then (principal s 0).gains (principal s p).acct.usage else principal s k := by
  rw [recordDropped, principal_setPrincipal, (unblockedBooks _ _).1, principal_usageDropped]

theorem group_recordDropped (p : Nat) (s : State) (g : Nat) :
    group (recordDropped p s) g = (group s g).afterDrop g (principal s p) (principal s 0) :=
  ((unblockedBooks (.principal p) (usageDropped p s)).2 g).trans (group_usageDropped p s g)

theorem dropPrincipal_eq (p : Nat) (s : State) : dropPrincipal p s =
    if (principal s p).group = (principal s 0).group then evaluateBoth .transfer 0 (recordDropped p s)
    else evaluateGroup .transfer (principal s p).group (evaluateBoth .transfer 0 (recordDropped p s)) := rfl

theorem dropPrincipal_evaluated {p : Nat} (hp : p ≠ 0) (s : State) :
    Evaluated (dropJudges (principal s p) (principal s 0)) (recordDropped p s) (dropPrincipal p s) := by
  have hboth := evaluateBoth_evaluated .transfer 0 (recordDropped p s)
  rw [principal_recordDropped, if_neg hp, if_pos rfl] at hboth
  rw [dropPrincipal_eq, dropJudges]
  split
  · rw [List.append_nil]
    exact hboth
  · rename_i hother
    refine hboth.trans (evaluateGroup_evaluated _ _ _) fun x hx hno => ?_
    cases x with
    | principal k => exact principal_not_mem_group hx
    | group g =>
      have hzero := (List.mem_cons.1 hno).resolve_left fun hno => nomatch hno
      exact hother ((mem_groupSubjects.1 hx).trans (mem_groupSubjects.1 hzero).symm)

theorem principal_mem_dropJudges {r z : Principal} {k : Nat} : .principal k ∈ dropJudges r z ↔ k = 0 := by
  unfold dropJudges
  split <;> simp

theorem group_mem_dropJudges {r z : Principal} {g : Nat} : .group g ∈ dropJudges r z ↔ z.group = some g ∨ r.group = some g := by
  unfold dropJudges
  split
  · rename_i h
    simp [h]
  · simp

theorem principal_dropPrincipal {p : Nat} (hp : p ≠ 0) (s : State) (k : Nat) : principal (dropPrincipal p s) k =
    if p = k then Principal.undefined
    else if 0 = k then ((principal s 0).gains (principal s p).acct.usage).evaluated else principal s k := by
  rw [(dropPrincipal_evaluated hp s).principal_eq, principal_recordDropped, if_congr principal_mem_dropJudges rfl rfl]
  by_cases hk : p = k
  · rw [if_pos hk, if_neg (hk ▸ hp), if_pos hk]
  · rw [if_neg hk, if_neg hk]
    by_cases h0 : 0 = k
    · rw [if_pos h0.symm, if_pos h0, if_pos h0]
    · rw [if_neg (Ne.symm h0), if_neg h0, if_neg h0]

theorem group_dropPrincipal {p : Nat} (hp : p ≠ 0) (s : State) (g : Nat) : group (dropPrincipal p s) g =
    if (principal s 0).group = some g ∨ (principal s p).group = some g then
      ((group s g).afterDrop g (principal s p) (principal s 0)).evaluated else group s g := by
  rw [(dropPrincipal_evaluated hp s).group_eq, group_recordDropped, if_congr group_mem_dropJudges rfl rfl]
  split
  · rfl
  · rename_i hno
    obtain ⟨hz, hr⟩ := not_or.1 hno
    rw [Group.afterDrop, if_neg hr, if_neg hz, if_neg hr]
    rfl

/-! ### The Enforcement Table (R107, R110) -/

theorem usageDropped_work (p : Nat) (s : State) : Work s (usageDropped p s) :=
  (onMembers_work _ _ _).after ((addCharge_work _ _ _).after (onGroup_work _ _ s))

theorem usageDropped_frame (p : Nat) (s : State) : Frame [.principals, .groups] s (usageDropped p s) :=
  (onMembers_frame _ _ _).after (by decide) ((addCharge_frame _ _ _).after (by decide) ((onGroup_frame _ _ s).into (by decide)))

theorem recordDropped_frame (p : Nat) (s : State) : Frame evalParts s (recordDropped p s) :=
  (setPrincipal_frame _ _ _).after (by decide) ((enforceUnblock_frame _ _).after (by decide) ((leaveSoftList_frame _ _).after (by decide)
    ((usageDropped_frame p s).into (by decide))))

theorem dropPrincipal_frame (p : Nat) (s : State) : Frame evalParts s (dropPrincipal p s) := by
  have hboth : Frame evalParts s (evaluateBoth .transfer 0 (recordDropped p s)) :=
    (evaluateBoth_frame _ _ _).after (by decide) (recordDropped_frame p s)
  rw [dropPrincipal_eq]
  split
  · exact hboth
  · exact (evaluateGroup_frame _ _ _).after (by decide) hboth

/-- The evaluations of a drop keep what enforcing other subjects keeps. -/
theorem KeptBy.dropPrincipal {Q : Subject → Prop} {P : State → Prop} (hP : KeptBy Q P) (h0 : Q (.principal 0))
    (hg : ∀ i, Q (.group i)) {p : Nat} {s : State} (h : P (recordDropped p s) ∧ Backlogged Q (recordDropped p s)) :
    P (dropPrincipal p s) ∧ Backlogged Q (dropPrincipal p s) := by
  have hboth : P (evaluateBoth .transfer 0 (recordDropped p s)) ∧ Backlogged Q (evaluateBoth .transfer 0 (recordDropped p s)) :=
    hP.evaluateGroup .transfer (fun i _ => hg i) (hP.evaluate h0 .transfer h)
  rw [dropPrincipal_eq]
  split
  · exact hboth
  · exact hP.evaluateGroup .transfer (fun i _ => hg i) hboth

theorem dropPrincipal_leaves {p : Nat} (hp : p ≠ 0) (s : State) : .principal p ∉ (dropPrincipal p s).et.backlog := fun hno =>
  ((keptBy_true (· ≠ Subject.principal p)).dropPrincipal (fun h => hp (Subject.principal.inj h).symm) (fun _ h => nomatch h)
    ⟨trivial, fun _ hx hxp => enforceUnblock_leaves (.principal p) _ (hxp ▸ hx)⟩).2 _ hno rfl

theorem dropPrincipal_softList {p : Nat} (hp : p ≠ 0) (s : State) : .principal p ∉ (dropPrincipal p s).qm.softList := fun hno =>
  ((dropPrincipal_evaluated hp s).mem_softList hno).elim (fun hmem => by
    have hsoft : (recordDropped p s).qm.softList = _ := (enforceUnblock_frame _ _).same .softList (by decide)
    rw [hsoft] at hmem
    exact of_decide_eq_true (List.mem_filter.1 hmem).2 rfl) fun hmem => hp (principal_mem_dropJudges.1 hmem)

theorem dropPrincipal_allows {p : Nat} (hp : p ≠ 0) (hle : ¬32767 < p) {ref s : State} (hs0 : SameEntry (.principal p) ref s)
    (hfree : ∀ x ∈ s.et.backlog, subjectKey x ≠ p) : EntryAllowed (.principal p) ref (dropPrincipal p s) := by
  have hkey : subjectOfKey (subjectKey (.principal p)) = .principal p :=
    subjectOfKey_subjectKey fun i hi => by cases hi; omega
  have het : (usageDropped p s).et = s.et := (usageDropped_frame p s).et (by decide) (by decide) (by decide)
  have hentry : SameEntry (.principal p) ref (leaveSoftList (.principal p) (usageDropped p s)) :=
    hs0.of_work ((leaveSoftList_work _ _).after (usageDropped_work p s)) (congrArg Et.table het) (by
      rw [userOf, userOf, show ∀ u, principal (leaveSoftList (.principal p) u) p = principal u p from fun _ => rfl,
        principal_usageDropped, if_neg (Ne.symm hp)])
  have hbacklog : Backlogged (KeyNot p) (leaveSoftList (.principal p) (usageDropped p s)) := fun x hx => hfree x (het ▸ hx)
  have hkept := keptBy_allowed hkey ref
  exact (hkept.dropPrincipal (fun h => hp (h : (0 : Nat) = p).symm) (fun i (h : 32768 + i = p) => hle (by omega))
    (hkept.steady (setPrincipal_work _ _ _) rfl rfl ⟨enforceUnblock_allows hkey hbacklog hentry,
      fun x hx => hbacklog x (mem_backlog_of_enforceUnblock hx)⟩)).1

/-! ### DROP_PRINCIPAL (R95) -/

theorem gains_evaluated {z : Principal} {c u : Nat} (hu : u = min 17592186044415 (z.acct.usage + c))
    (hz : z.acct.usage ≤ 17592186044415) : (z.gains c).evaluated = { z with
      acct := { { z.acct with usage := u } with state := nextState { z.acct with usage := u } }
      outcome := ⟨decide (u < z.acct.usage + c ∨ z.acct.usage = 17592186044415), false, false⟩ } := by
  have husage : addUsage z.acct.usage c = u := hu.symm
  have hsaturated : (decide (addedAmount z.acct.usage c < c) || decide (z.acct.usage = top44))
      = decide (u < z.acct.usage + c ∨ z.acct.usage = 17592186044415) := by
    rw [Bool.decide_or, addedAmount, husage]
    congr 1
    exact decide_eq_decide.2 (by omega)
  unfold Principal.gains Principal.evaluated addOutcome
  rw [hsaturated, husage]

section

variable {p : Nat} {s : State}

theorem dropPrincipalReq_malformed (h : 32767 < p) : dropPrincipalReq p s = (s, refusal .malformed) := if_pos h

theorem dropPrincipalReq_noSuch (h : ¬32767 < p) (hd : (principal s p).defined = false) :
    dropPrincipalReq p s = (s, refusal .noSuch) := by
  rw [dropPrincipalReq, if_neg h, if_pos hd]

theorem dropPrincipalReq_ofZero (h : ¬32767 < p) (hd : ¬(principal s p).defined = false) (hp : p = 0) :
    dropPrincipalReq p s = (s, refusal .state) := by
  rw [dropPrincipalReq, if_neg h, if_neg hd, if_pos hp]

theorem dropPrincipalReq_inUse (h : ¬32767 < p) (hd : ¬(principal s p).defined = false) (hp : p ≠ 0)
    (hr : chargedByRestore s p = true) : dropPrincipalReq p s = (s, refusal .inUse) := by
  rw [dropPrincipalReq, if_neg h, if_neg hd, if_neg hp, if_pos hr]

theorem dropPrincipalReq_drops (h : ¬32767 < p) (hd : ¬(principal s p).defined = false) (hp : p ≠ 0)
    (hr : ¬chargedByRestore s p = true) :
    dropPrincipalReq p s = (dropPrincipal p s, accept [] (.moved (principal s p).acct.usage)) := by
  rw [dropPrincipalReq, if_neg h, if_neg hd, if_neg hp, if_neg hr]

theorem dropPrincipalReq_frame (p : Nat) (s : State) : Frame evalParts s (dropPrincipalReq p s).1 := by
  unfold dropPrincipalReq
  split_ifs
  · exact Frame.refl _ s
  · exact Frame.refl _ s
  · exact Frame.refl _ s
  · exact Frame.refl _ s
  · exact dropPrincipal_frame p s

end

/-! ### DROP_GROUP (R96) -/

section

variable {g : Nat} {s : State}

theorem dropGroupReq_malformed (h : 1023 < g) : dropGroupReq g s = (s, refusal .malformed) := if_pos h

theorem dropGroupReq_noSuch (h : ¬1023 < g) (hd : (group s g).defined = false) : dropGroupReq g s = (s, refusal .noSuch) := by
  rw [dropGroupReq, if_neg h, if_pos hd]

theorem dropGroupReq_inUse (h : ¬1023 < g) (hd : ¬(group s g).defined = false) (hm : 0 < (group s g).members) :
    dropGroupReq g s = (s, refusal .inUse) := by
  rw [dropGroupReq, if_neg h, if_neg hd, if_pos hm]

/-- The record of group `g` dropped (R96). -/
def dropGroup (g : Nat) (s : State) : State :=
  setGroupRec g Group.undefined (enforceUnblock (.group g) (leaveSoftList (.group g) s))

theorem dropGroupReq_drops (h : ¬1023 < g) (hd : ¬(group s g).defined = false) (hm : ¬0 < (group s g).members) :
    dropGroupReq g s = (dropGroup g s, accept [] .none) := by
  rw [dropGroupReq, if_neg h, if_neg hd, if_neg hm]
  rfl

theorem dropGroup_frame (g : Nat) (s : State) : Frame (.groups :: .softList :: enforceParts) s (dropGroup g s) :=
  (setGroupRec_frame _ _ _).after (by decide) ((enforceUnblock_frame _ _).after (by decide)
    ((leaveSoftList_frame _ s).into (by decide)))

theorem dropGroupReq_frame (g : Nat) (s : State) : Frame (.groups :: .softList :: enforceParts) s (dropGroupReq g s).1 := by
  unfold dropGroupReq
  split_ifs
  · exact Frame.refl _ s
  · exact Frame.refl _ s
  · exact Frame.refl _ s
  · exact dropGroup_frame g s

theorem group_dropGroup (g : Nat) (s : State) (k : Nat) : group (dropGroup g s) k = if g = k then Group.undefined else group s k := by
  rw [dropGroup, group_setGroupRec, (unblockedBooks _ _).2]

theorem dropGroup_softList (g : Nat) (s : State) : .group g ∉ (dropGroup g s).qm.softList := fun hno => by
  have hsoft : (dropGroup g s).qm.softList = _ :=
    (enforceUnblock_frame (.group g) (leaveSoftList (.group g) s)).same .softList (by decide)
  rw [hsoft] at hno
  exact of_decide_eq_true (List.mem_filter.1 hno).2 rfl

theorem dropGroup_allows {ref : State} (hs0 : SameEntry (.group g) ref s)
    (hfree : ∀ x ∈ s.et.backlog, subjectKey x ≠ subjectKey (.group g)) : EntryAllowed (.group g) ref (dropGroup g s) := by
  have hkey : subjectOfKey (subjectKey (.group g)) = .group g := subjectOfKey_subjectKey fun i hi => nomatch hi
  have hentry : SameEntry (.group g) ref (leaveSoftList (.group g) s) := hs0.of_work (leaveSoftList_work _ _) rfl rfl
  exact (keptBy_allowed hkey ref).work _ _ (setGroupRec_work _ _ _) (fun _ _ => rfl) (enforceUnblock_allows hkey hfree hentry)

end

/-- Settles O44: the books of a drop, then the places that the dropped subject loses. -/
theorem dropSubjects : Obligations.DropSubjects := by
  refine ⟨fun h p s ht => ?_, fun h g s ht => ?_⟩
  · have he : exec (.dropPrincipal h p) s = .next (answer h.tag (dropPrincipalReq p.toNat (mgmtHunt s)).2
        (dropPrincipalReq p.toNat (mgmtHunt s)).1) := congrArg Host.Outcome.next (fixedRequest_takes ht _)
    have hframe (r : Reply) := answered_of_frame r ht (dropPrincipalReq_frame p.toNat (mgmtHunt s))
    refine ⟨_, he, ?_, (hframe _).2⟩
    by_cases hle : 32767 < p.toNat
    · rw [if_pos hle, dropPrincipalReq_malformed hle]
      exact refused_takes _ ht
    rw [if_neg hle]
    by_cases hd : (principal s p.toNat).defined = false
    · rw [if_pos hd, dropPrincipalReq_noSuch (s := mgmtHunt s) hle hd]
      exact refused_takes _ ht
    rw [if_neg hd]
    by_cases hp : p.toNat = 0
    · rw [if_pos hp, dropPrincipalReq_ofZero (s := mgmtHunt s) hle hd hp]
      exact refused_takes _ ht
    rw [if_neg hp]
    by_cases hr : chargedByRestore s p.toNat = true
    · rw [if_pos hr, dropPrincipalReq_inUse (s := mgmtHunt s) hle hd hp hr]
      exact refused_takes _ ht
    rw [if_neg hr]
    rw [dropPrincipalReq_drops (s := mgmtHunt s) hle hd hp hr] at hframe ⊢
    rintro r z u _ rfl rfl hu rfl
    obtain ⟨t, heq⟩ : ∃ t, t = answer h.tag (accept [] (.moved (principal s p.toNat).acct.usage)) (dropPrincipal p.toNat (mgmtHunt s)) :=
      ⟨_, rfl⟩
    have hprincipal (k : Nat) : principal t k = if p.toNat = k then Principal.undefined
        else if 0 = k then ((principal s 0).gains (principal s p.toNat).acct.usage).evaluated else principal s k := by
      rw [heq]
      exact (principal_answer _ _ _ _).trans (principal_dropPrincipal hp _ _)
    have hgroup (k : Nat) : group t k = if (principal s 0).group = some k ∨ (principal s p.toNat).group = some k then
        ((group s k).afterDrop k (principal s p.toNat) (principal s 0)).evaluated else group s k := by
      rw [heq]
      exact (group_answer _ _ _ _).trans (group_dropPrincipal hp _ _)
    have hsoft : t.qm.softList = (dropPrincipal p.toNat (mgmtHunt s)).qm.softList := by rw [heq, answer_qm]
    have hbacklog : t.et.backlog = (dropPrincipal p.toNat (mgmtHunt s)).et.backlog := by rw [heq, answer_et]
    have hadded : addedAmount (principal s 0).acct.usage (principal s p.toNat).acct.usage = u - (principal s 0).acct.usage := by
      rw [hu]
      rfl
    refine ⟨(hframe _).1, ?_⟩
    rw [principal_mgmtHunt, ← heq, hsoft, hbacklog]
    refine ⟨(hprincipal _).trans (if_pos rfl), fun hz => ?_, fun k hk h0 => ?_, fun g hg => ?_, ?_, ?_, ?_,
      fun g hg hz => ?_, dropPrincipal_softList hp _, dropPrincipal_leaves hp _, fun hfree _ => ?_⟩
    · rw [hprincipal, if_neg hp, if_pos rfl, gains_evaluated hu hz]
    · rw [hprincipal, if_neg (Ne.symm hk), if_neg (Ne.symm h0)]
    · rw [hgroup, if_pos (.inr hg), Group.afterDrop, if_pos hg, if_pos hg]
      rfl
    · rintro g x hg hz rfl
      rw [hgroup, if_pos (.inr hg), Group.afterDrop, if_pos hg, if_neg hz]
      rfl
    · rintro g x hg hz - rfl
      rw [hgroup, if_pos (.inr hg), Group.afterDrop, if_pos hg, if_pos hz, hadded]
      rfl
    · rintro g x hg hz - rfl
      rw [hgroup, if_pos (.inl hz), Group.afterDrop, if_neg hg, if_pos hz, if_neg hg, hadded]
      rfl
    · rw [hgroup, if_neg (not_or.2 ⟨hz, hg⟩)]
    · rw [heq]
      exact (dropPrincipal_allows (s := mgmtHunt s) hp hle ⟨rfl, fun _ => rfl, rfl⟩ hfree).unblocked.answer _ _
  · have he : exec (.dropGroup h g) s = .next (answer h.tag (dropGroupReq g.toNat (mgmtHunt s)).2
        (dropGroupReq g.toNat (mgmtHunt s)).1) := congrArg Host.Outcome.next (fixedRequest_takes ht _)
    have hframe (r : Reply) := answered_of_frame r ht (dropGroupReq_frame g.toNat (mgmtHunt s))
    refine ⟨_, he, ?_, (hframe _).2⟩
    by_cases hle : 1023 < g.toNat
    · rw [if_pos hle, dropGroupReq_malformed hle]
      exact refused_takes _ ht
    rw [if_neg hle]
    by_cases hd : (group s g.toNat).defined = false
    · rw [if_pos hd, dropGroupReq_noSuch (s := mgmtHunt s) hle hd]
      exact refused_takes _ ht
    rw [if_neg hd]
    by_cases hm : 0 < (group s g.toNat).members
    · rw [if_pos hm, dropGroupReq_inUse (s := mgmtHunt s) hle hd hm]
      exact refused_takes _ ht
    rw [if_neg hm]
    rw [dropGroupReq_drops (s := mgmtHunt s) hle hd hm] at hframe ⊢
    have hgroup (k : Nat) : group (answer h.tag (accept [] .none) (dropGroup g.toNat (mgmtHunt s))) k
        = if g.toNat = k then Group.undefined else group s k := (group_answer _ _ _ _).trans (group_dropGroup _ _ _)
    refine ⟨(hframe _).1, (hgroup _).trans (if_pos rfl), fun k hk => (hgroup k).trans (if_neg (Ne.symm hk)), ?_, ?_, fun hfree _ => ?_⟩
    · rw [answer_qm]
      exact dropGroup_softList _ _
    · rw [answer_et]
      exact enforceUnblock_leaves (.group g.toNat) _
    · exact (dropGroup_allows (s := mgmtHunt s) ⟨rfl, fun _ => rfl, rfl⟩ hfree).unblocked.answer _ _

end Sys2Proof.Machine
end

