-- ==== Sys2Proof/Proofs/GrantsInTurn.lean ====
section
/-! SUPPORT. The grants server by server (R146, R147): what the turns of the other servers leave of one server's credits, candidates and
jobs, the restore limit of its own turn, and which job its credits go to. -/

namespace Sys2Proof.Machine

/-! ### The candidate of a turn (R146) -/

/-- A candidate above all before it and not below any behind it is granted the credit. -/
theorem bestCandidate_first {before after : List (Nat × RestoreJob)} {c : Nat × RestoreJob}
    (hbefore : ∀ e ∈ before, e.2.priority < c.2.priority) (hafter : ∀ e ∈ after, e.2.priority ≤ c.2.priority) :
    bestCandidate (before ++ c :: after) = some c := by
  induction before with
  | nil =>
    rw [List.nil_append, bestCandidate]
    split
    · rfl
    · exact if_pos (hafter _ (bestCandidate_mem ‹_›))
  | cons b r ih =>
    rw [List.cons_append, bestCandidate, ih fun e he => hbefore e (List.mem_cons_of_mem _ he)]
    exact if_neg (Nat.not_le.2 (hbefore b List.mem_cons_self))

/-- A job's place in the candidate list of a server. -/
def candidateAt (s : State) (srv id : Nat) : Option (Nat × RestoreJob) :=
  match restoreJob s id with
  | none => none
  | some j => if isCandidate s srv j then some (id, j) else none

theorem restoreCandidates_eq (s : State) (srv : Nat) :
    restoreCandidates s srv = s.cca.acceptance.filterMap (candidateAt s srv) := rfl

theorem candidateAt_eq_some {s : State} {srv id : Nat} {c : Nat × RestoreJob} :
    candidateAt s srv id = some c ↔ c.1 = id ∧ restoreJob s id = some c.2 ∧ isCandidate s srv c.2 = true := by
  unfold candidateAt
  cases hj : restoreJob s id with
  | none => simp
  | some j =>
    dsimp only
    split
    · rename_i hc
      refine ⟨fun h => by cases h; exact ⟨rfl, rfl, hc⟩, fun ⟨hid, hjob, _⟩ => ?_⟩
      rw [← hid, Option.some.inj hjob]
    · rename_i hc
      refine ⟨fun h => (nomatch h), fun ⟨_, hjob, hcand⟩ => absurd ?_ hc⟩
      rw [Option.some.inj hjob]
      exact hcand

theorem restoreCandidates_down {s : State} {srv : Nat} (h : linkUp s srv = false) : restoreCandidates s srv = [] :=
  List.eq_nil_iff_forall_not_mem.2 fun c hc => by
    have hup := (isCandidate_iff.1 (mem_restoreCandidates hc).2).2.2.2
    rw [h] at hup
    cases hup

/-! ### One turn, grant by grant -/

/-- What each grant of a server's turn keeps, the turn keeps. -/
theorem grantLoop_keepsEach {P : State → Prop} {srv : Nat}
    (hr : ∀ s c, c ∈ restoreCandidates s srv → P s → P (grantRestore srv c.1 c.2 s)) (hd : ∀ s, P s → P (grantDup srv s))
    (n : Nat) {s : State} (h : P s) : P (grantLoop srv n s) := by
  induction n generalizing s with
  | zero => exact h
  | succ n ih =>
    rw [grantLoop]
    split
    · exact h
    · split
      · rename_i c hc
        refine ih (hr _ _ ?_ h)
        split at hc
        · exact bestCandidate_mem hc
        · cases hc
      · split
        · exact ih (hd _ h)
        · exact h

section

variable {srv id : Nat} {j : RestoreJob} {s : State}

/-- A grant with an extent to order is a credit taken, an order handed over and the job rewritten (R146, R154). -/
theorem grantRestore_of_pending {x : Extent} (hx : j.extents.find? (fun x => x.status = .pending) = some x) :
    ∃ s1 b, s1 = setCredit srv { credit s srv with restore := (credit s srv).restore + 1, free := (credit s srv).free - 1 } s
      ∧ b = copyOrder s1 id j x ∧ grantRestore srv id j s =
        setRestoreJob id { j with extents := orderFirst (link s srv).counter j.extents } (issue srv b s1).1 := by
  refine ⟨_, _, rfl, rfl, ?_⟩
  rw [grantRestore, hx]
  rfl

theorem orderFirst_none {num : Nat} {l : List Extent} (h : l.find? (fun x => x.status = .pending) = none) : orderFirst num l = l := by
  induction l with
  | nil => rfl
  | cons x r ih =>
    rw [List.find?_eq_none] at h
    have hx : ¬x.status = .pending := fun hp => h x List.mem_cons_self (decide_eq_true hp)
    rw [orderFirst, if_neg hx, ih (List.find?_eq_none.2 fun y hy => h y (List.mem_cons_of_mem _ hy))]

theorem orderFirst_split {num : Nat} {pre post : List Extent} {x : Extent} (hx : x.status = .pending)
    (hpre : ∀ y ∈ pre, y.status ≠ .pending) :
    orderFirst num (pre ++ x :: post) = pre ++ { x with status := .ordered, order := some num } :: post := by
  induction pre with
  | nil => exact if_pos hx
  | cons y r ih =>
    rw [List.cons_append, orderFirst, if_neg (hpre y List.mem_cons_self), ih fun z hz => hpre z (List.mem_cons_of_mem _ hz)]
    rfl

theorem grantRestore_of_none (hx : j.extents.find? (fun x => x.status = .pending) = none) : grantRestore srv id j s = s := by
  rw [grantRestore, hx]

theorem restoreJob_grantRestore (hj : restoreJob s id = some j) (k : Nat) : restoreJob (grantRestore srv id j s) k =
    if id = k then some { j with extents := orderFirst (link s srv).counter j.extents } else restoreJob s k := by
  cases hx : j.extents.find? (fun x => x.status = .pending) with
  | none =>
    rw [grantRestore_of_none hx, orderFirst_none hx]
    split
    · rename_i hk
      rw [← hk]
      exact hj
    · rfl
  | some x =>
    obtain ⟨s1, b, rfl, -, heq⟩ := grantRestore_of_pending (srv := srv) (id := id) (s := s) hx
    rw [heq, restoreJob_setRestoreJob]
    rfl

theorem credit_grantRestore {x : Extent} (hx : j.extents.find? (fun x => x.status = .pending) = some x) (k : Nat) :
    credit (grantRestore srv id j s) k = if srv = k then
      { credit s srv with restore := (credit s srv).restore + 1, free := (credit s srv).free - 1 } else credit s k := by
  obtain ⟨s1, b, rfl, -, heq⟩ := grantRestore_of_pending (srv := srv) (id := id) (s := s) hx
  rw [heq]
  exact credit_setCredit _ _ _ _

/-- The COPY order is in flight under the number that the extent carries (R153, R154). -/
theorem grantRestore_orders {x : Extent} (hx : j.extents.find? (fun x => x.status = .pending) = some x) :
    ⟨(link s srv).counter, .copy⟩ ∈ (link (grantRestore srv id j s) srv).orders := by
  obtain ⟨s1, b, rfl, rfl, heq⟩ := grantRestore_of_pending (srv := srv) (id := id) (s := s) hx
  rw [heq]
  exact (issue_orders srv _ (setCredit srv _ s)).1

theorem grantRestore_groups (k : Nat) : (credit (grantRestore srv id j s) k).groups = (credit s k).groups := by
  cases hx : j.extents.find? (fun x => x.status = .pending) with
  | none => rw [grantRestore_of_none hx]
  | some x =>
    rw [credit_grantRestore hx]
    split
    · rename_i hk
      rw [hk]
    · rfl

theorem grantRestore_dc (srv id : Nat) (j : RestoreJob) (s : State) : (grantRestore srv id j s).dc = s.dc := by
  unfold grantRestore
  split <;> rfl

end

/-! ### What presenting the candidates leaves -/

theorem presentAll_credit (s : State) (k : Nat) : (credit (presentAll s) k).free = (credit s k).free
    ∧ (credit (presentAll s) k).restore = (credit s k).restore := by
  refine foldl_keeps (f := fun s srv => present srv s)
    (P := fun u => (credit u k).free = (credit s k).free ∧ (credit u k).restore = (credit s k).restore) (fun u i h => ?_) _ ⟨rfl, rfl⟩
  rw [present, credit_setCredit]
  split
  · rename_i hi
    rw [hi]
    exact h
  · exact h

/-- A SHIPPING job's group is open on a server (R144). -/
def ShipsOpen (s : State) (srv : Nat) : Prop :=
  ∃ e ∈ s.dc.jobs, serverOf s e.1 = srv ∧ e.2.state = .shipping ∧ (volume s e.1).dupGroup ∈ s.cca.openGroups

theorem mem_foldl_setAdd (l w : List Nat) (g : Nat) : g ∈ l.foldl (fun l g => setAdd g l) w ↔ g ∈ w ∨ g ∈ l := by
  induction l generalizing w with
  | nil => simp
  | cons a r ih =>
    rw [List.foldl_cons, ih, mem_setAdd, List.mem_cons]
    tauto

theorem mem_shipGroups {s : State} {srv g : Nat} : g ∈ shipGroups s srv ↔
    ∃ e ∈ s.dc.jobs, serverOf s e.1 = srv ∧ e.2.state = .shipping ∧ (volume s e.1).dupGroup = g := by
  unfold shipGroups
  rw [mem_foldl_setAdd, or_iff_right List.not_mem_nil, List.mem_map]
  simp only [List.mem_filter, Bool.and_eq_true, decide_eq_true_eq, and_assoc]

theorem groups_open_iff {s : State} {srv : Nat} {l : List Nat} (h : ∀ g, g ∈ l ↔ g ∈ shipGroups s srv) :
    (l.any fun g => s.cca.openGroups.contains g) = true ↔ ShipsOpen s srv := by
  rw [List.any_eq_true]
  constructor
  · rintro ⟨g, hg, hopen⟩
    obtain ⟨e, he, hserver, hship, rfl⟩ := mem_shipGroups.1 ((h g).1 hg)
    exact ⟨e, he, hserver, hship, List.contains_iff_mem.1 hopen⟩
  · rintro ⟨e, he, hserver, hship, hopen⟩
    exact ⟨_, (h _).2 (mem_shipGroups.2 ⟨e, he, hserver, hship, rfl⟩), List.contains_iff_mem.2 hopen⟩

/-- The CCA's group sets are those of the DC's jobs. -/
theorem presentAll_groups (s : State) {srv : Nat} (h : srv ∈ serverList) : (credit (presentAll s) srv).groups = shipGroups s srv := by
  have hgroups (i : Nat) (u : State) (hu : u.dc = s.dc ∧ u.vt = s.vt) : shipGroups u i = shipGroups s i := by
    unfold shipGroups serverOf volume
    rw [hu.1, hu.2]
  refine (foldl_brings (f := fun s srv => present srv s) (I := fun u => u.dc = s.dc ∧ u.vt = s.vt)
    (P := fun i u => (u.dc = s.dc ∧ u.vt = s.vt) ∧ (credit u i).groups = shipGroups s i) (fun _ _ hu => hu) (fun u i hu => ⟨hu, ?_⟩)
    (fun u i c hu => ⟨hu.1, ?_⟩) ⟨rfl, rfl⟩ h).2
  · rw [present, credit_setCredit, if_pos rfl]
    exact hgroups i u hu
  · rw [present, credit_setCredit]
    split
    · rename_i hi
      rw [hi]
      exact hgroups i u hu.1
    · exact hu.2

/-! ### The restore limit through the grants (R144, R146) -/

/-- The DC's jobs stand in the order of their volumes, and a server is shared when and only when `P` holds. -/
structure Shares (P : Prop) (srv : Nat) (s : State) : Prop where
  sorted : tsorted s.dc.jobs = true
  ships : ShipsOpen s srv ↔ P
  shared : Machine.shared s srv = true ↔ P

theorem Shares.restoreLimit {P : Prop} [Decidable P] {srv : Nat} {s : State} (h : Shares P srv s) :
    restoreLimit s srv = if P then 3 else 4 := if_congr h.shared rfl rfl

theorem presentAll_shares {P : Prop} {srv : Nat} (hsrv : srv ∈ serverList) {s : State} (hs : tsorted s.dc.jobs = true)
    (hP : ShipsOpen s srv ↔ P) : Shares P srv (presentAll s) := by
  have hdc : (presentAll s).dc.jobs = s.dc.jobs := (presentAll_dc s).1
  have hvt : (presentAll s).vt = s.vt := (presentAll_frame s).same .volumes (by decide)
  have hopen : (presentAll s).cca.openGroups = s.cca.openGroups := (presentAll_frame s).same .ccaOpen (by decide)
  have hships : ShipsOpen (presentAll s) srv ↔ P := by
    unfold ShipsOpen serverOf volume
    rw [hdc, hvt, hopen]
    exact hP
  refine ⟨by rw [hdc]; exact hs, hships, Iff.trans ?_ hP⟩
  unfold shared
  rw [hopen, presentAll_groups s hsrv]
  exact groups_open_iff fun _ => Iff.rfl

section

variable {P : Prop} {srv : Nat} {s : State}

theorem grantRestore_shares (h : Shares P srv s) (i id : Nat) (j : RestoreJob) : Shares P srv (grantRestore i id j s) := by
  have hdc := grantRestore_dc i id j s
  have hvt : (grantRestore i id j s).vt = s.vt := (grantRestore_frame i id j s).same .volumes (by decide)
  have hopen : (grantRestore i id j s).cca.openGroups = s.cca.openGroups := (grantRestore_frame i id j s).same .ccaOpen (by decide)
  refine ⟨by rw [hdc]; exact h.sorted, ?_, ?_⟩
  · unfold ShipsOpen serverOf volume
    rw [hdc, hvt, hopen]
    exact h.ships
  · unfold shared
    rw [hopen, grantRestore_groups]
    exact h.shared

/-- A batch formed leaves the states of the DC's jobs. -/
theorem formBatch_ships (h : tsorted s.dc.jobs = true) {v : Nat} {j : DupJob} (hj : dupJob s v = some j) (i : Nat) :
    tsorted (formBatch i v j s).dc.jobs = true ∧ (ShipsOpen (formBatch i v j s) srv ↔ ShipsOpen s srv) := by
  obtain ⟨x, hjobs, hstate⟩ : ∃ x : DupJob, (formBatch i v j s).dc.jobs = tput s.dc.jobs v x ∧ x.state = j.state := ⟨_, rfl, rfl⟩
  have hsorted := tsorted_tput s.dc.jobs v x h
  have hframe := formBatch_frame i v j s
  have hvt : (formBatch i v j s).vt = s.vt := hframe.same .volumes (by decide)
  have hopen : (formBatch i v j s).cca.openGroups = s.cca.openGroups := hframe.same .ccaOpen (by decide)
  refine ⟨by rw [hjobs]; exact hsorted, ?_⟩
  unfold ShipsOpen serverOf volume
  rw [hjobs, hvt, hopen]
  constructor
  · rintro ⟨e, he, hserver, hship, hmem⟩
    rcases mem_tput he with rfl | he
    · exact ⟨(v, j), mem_of_tget hj, hserver, hstate.symm.trans hship, hmem⟩
    · exact ⟨e, he, hserver, hship, hmem⟩
  · rintro ⟨⟨k, y⟩, he, hserver, hship, hmem⟩
    have hget := (tget_eq_some_iff h).2 he
    by_cases hk : v = k
    · subst hk
      obtain rfl : j = y := Option.some.inj (hj.symm.trans hget)
      exact ⟨(v, x), (tget_eq_some_iff hsorted).1 ((tget_tput _ _ _ _).trans (if_pos rfl)), hserver, hstate.trans hship, hmem⟩
    · exact ⟨(k, y), (tget_eq_some_iff hsorted).1 (((tget_tput _ _ _ _).trans (if_neg hk)).trans hget), hserver, hship, hmem⟩

end

/-- A credit for a server's duplication candidate is spent on a batch, or returned; then the candidates are presented afresh. -/
theorem grantDup_eq (i : Nat) (s : State) : ∃ s1 u, grantDup i s = presentAll u
    ∧ s1 = setCredit i { credit s i with ship := (credit s i).ship + 1, free := (credit s i).free - 1 } s
    ∧ (u = returnShip i s1 ∨ ∃ v j, dupJob s1 v = some j ∧ u = formBatch i v j s1) := by
  refine ⟨setCredit i { credit s i with ship := (credit s i).ship + 1, free := (credit s i).free - 1 } s, ?_⟩
  unfold grantDup
  dsimp only
  split
  · exact ⟨_, rfl, rfl, .inl rfl⟩
  · split
    · exact ⟨_, rfl, rfl, .inl rfl⟩
    · exact ⟨_, rfl, rfl, .inr ⟨_, _, ‹_›, rfl⟩⟩

theorem returnShip_restore (i k : Nat) (s : State) : (credit (returnShip i s) k).restore = (credit s k).restore := by
  unfold returnShip
  dsimp only
  split
  · rfl
  · rw [credit_setCredit]
    split
    · rename_i hi
      rw [hi]
    · rfl

theorem grantDup_shares {P : Prop} {srv : Nat} (hsrv : srv ∈ serverList) {s : State} (h : Shares P srv s) (i : Nat) :
    Shares P srv (grantDup i s) := by
  obtain ⟨s1, u, heq, rfl, hu⟩ := grantDup_eq i s
  rw [heq]
  obtain rfl | ⟨v, j, hj, rfl⟩ := hu
  · have hframe := returnShip_frame i (setCredit i { credit s i with ship := (credit s i).ship + 1, free := (credit s i).free - 1 } s)
    have hjobs : (returnShip i (setCredit i _ s)).dc.jobs = s.dc.jobs := hframe.same .dupJobs (by decide)
    have hvt : (returnShip i (setCredit i _ s)).vt = s.vt := hframe.same .volumes (by decide)
    have hopen : (returnShip i (setCredit i _ s)).cca.openGroups = s.cca.openGroups := hframe.same .ccaOpen (by decide)
    refine presentAll_shares hsrv (by rw [hjobs]; exact h.sorted) (Iff.trans ?_ h.ships)
    unfold ShipsOpen serverOf volume
    rw [hjobs, hvt, hopen]
  · obtain ⟨hsorted, hships⟩ := formBatch_ships (srv := srv) h.sorted hj i
    exact presentAll_shares hsrv hsorted (hships.trans h.ships)

theorem grantLoop_shares {P : Prop} {srv : Nat} (hsrv : srv ∈ serverList) {s : State} (h : Shares P srv s) (i n : Nat) :
    Shares P srv (grantLoop i n s) :=
  grantLoop_keepsEach (P := Shares P srv) (fun _ _ _ hu => grantRestore_shares hu _ _ _) (fun _ hu => grantDup_shares hsrv hu i) n h

/-! ### What a credit for the duplication candidate leaves -/

theorem grantDup_jobs (i : Nat) (s : State) : (grantDup i s).rsc.jobs = s.rsc.jobs := by
  obtain ⟨s1, u, heq, rfl, hu⟩ := grantDup_eq i s
  rw [heq, (presentAll_rsc u).1]
  obtain rfl | ⟨v, j, -, rfl⟩ := hu
  · exact (returnShip_frame _ _).same .restoreJobs (by decide)
  · rfl

theorem grantDup_restore (i : Nat) (s : State) (k : Nat) : (credit (grantDup i s) k).restore = (credit s k).restore := by
  have htaken : (credit (setCredit i { credit s i with ship := (credit s i).ship + 1, free := (credit s i).free - 1 } s) k).restore
      = (credit s k).restore := by
    rw [credit_setCredit]
    split
    · rename_i hi
      rw [hi]
    · rfl
  obtain ⟨s1, u, heq, rfl, hu⟩ := grantDup_eq i s
  rw [heq, (presentAll_credit u k).2]
  obtain rfl | ⟨v, j, -, rfl⟩ := hu
  · exact (returnShip_restore _ _ _).trans htaken
  · exact htaken

theorem grantDup_free {i k : Nat} (s : State) (h : i ≠ k) : (credit (grantDup i s) k).free = (credit s k).free := by
  obtain ⟨s1, u, heq, rfl, hu⟩ := grantDup_eq i s
  rw [heq, (presentAll_credit u k).1]
  obtain rfl | ⟨v, j, -, rfl⟩ := hu
  · rw [returnShip_credit _ h, setCredit_of_ne _ _ h]
  · rw [formBatch_credit, setCredit_of_ne _ _ h]

/-! ### The other servers' turns -/

/-- What other servers' turns leave of a server: its credits, its jobs and its candidates. -/
structure Aside (srv : Nat) (s t : State) : Prop where
  work : Work s t
  frame : Frame grantParts s t
  jobs : ∀ id j, jobServer s j = srv → (restoreJob t id = some j ↔ restoreJob s id = some j)
  free : (credit t srv).free = (credit s srv).free
  restore : (credit t srv).restore = (credit s srv).restore

theorem Frame.jobServer {s t : State} (h : Frame grantParts s t) (j : RestoreJob) : Machine.jobServer t j = Machine.jobServer s j := by
  unfold Machine.jobServer
  rw [h.volume]

theorem Aside.trans {srv : Nat} {s t u : State} (h1 : Aside srv s t) (h2 : Aside srv t u) : Aside srv s u :=
  ⟨h1.work.trans h2.work, h1.frame.trans h2.frame,
    fun id j hj => (h2.jobs id j ((h1.frame.jobServer j).trans hj)).trans (h1.jobs id j hj), h2.free.trans h1.free,
    h2.restore.trans h1.restore⟩

theorem Aside.refl (srv : Nat) (s : State) : Aside srv s s :=
  ⟨Work.refl s, Frame.refl _ s, fun _ _ _ => Iff.rfl, rfl, rfl⟩

theorem presentAll_aside (srv : Nat) (s : State) : Aside srv s (presentAll s) := by
  refine ⟨presentAll_work s, (presentAll_frame s).into (by decide), fun id j _ => ?_, (presentAll_credit s srv).1,
    (presentAll_credit s srv).2⟩
  unfold restoreJob
  rw [(presentAll_rsc s).1]

section

variable {i srv : Nat} (h : i ≠ srv)
include h

theorem grantRestore_aside {s : State} {c : Nat × RestoreJob} (hc : c ∈ restoreCandidates s i) :
    Aside srv s (grantRestore i c.1 c.2 s) := by
  obtain ⟨hjob, hcand⟩ := mem_restoreCandidates hc
  obtain ⟨-, -, hserver, hup⟩ := isCandidate_iff.1 hcand
  have hcredit := grantRestore_credit c.1 c.2 s h
  refine ⟨grantRestore_work _ _ hup, grantRestore_frame _ _ _ s, fun id j hj => ?_, by rw [hcredit], by rw [hcredit]⟩
  rw [restoreJob_grantRestore hjob]
  split
  · rename_i hid
    subst hid
    refine ⟨fun hno => ?_, fun hno => ?_⟩
    · cases hno
      exact absurd (hserver.symm.trans hj) h
    · rw [hjob] at hno
      rw [Option.some.inj hno] at hserver
      exact absurd (hserver.symm.trans hj) h
  · rfl

theorem grantDup_aside (s : State) : Aside srv s (grantDup i s) := by
  refine ⟨grantDup_work i s, grantDup_frame i s, fun id j _ => ?_, grantDup_free s h, grantDup_restore i s srv⟩
  unfold restoreJob
  rw [grantDup_jobs]

theorem grantLoop_aside (n : Nat) (s : State) : Aside srv s (grantLoop i n s) :=
  grantLoop_keepsEach (P := Aside srv s) (fun _ _ hc hu => hu.trans (grantRestore_aside h hc))
    (fun _ hu => hu.trans (grantDup_aside h _)) n (.refl srv s)

end

theorem grantLoops_aside {srv : Nat} {l : List Nat} (h : srv ∉ l) (s : State) :
    Aside srv s (l.foldl (fun s i => grantLoop i 4 s) s) := by
  induction l generalizing s with
  | nil => exact .refl srv s
  | cons i r ih =>
    obtain ⟨hi, hr⟩ := not_or.1 (mt List.mem_cons.2 h)
    exact (grantLoop_aside (Ne.symm hi) 4 s).trans (ih hr _)

/-- A server's own turn among the grants. -/
theorem grantAll_turn {srv : Nat} (hsrv : srv ∈ serverList) {P : Prop} {s : State} (hs : tsorted s.dc.jobs = true)
    (hP : ShipsOpen s srv ↔ P) :
    ∃ u, Aside srv s u ∧ Shares P srv u ∧ Aside srv (grantLoop srv 4 u) (grantAll s) := by
  obtain ⟨before, after, hsplit⟩ := List.append_of_mem hsrv
  have hnodup := serverList_nodup
  rw [hsplit, List.nodup_append] at hnodup
  obtain ⟨-, hafter, hapart⟩ := hnodup
  refine ⟨before.foldl (fun s i => grantLoop i 4 s) (presentAll s), (presentAll_aside srv s).trans (grantLoops_aside (fun hno => ?_) _),
    foldl_keeps (f := fun s i => grantLoop i 4 s) (P := Shares P srv) (fun _ _ hu => grantLoop_shares hsrv hu _ _) _
      (presentAll_shares hsrv hs hP), ?_⟩
  · exact hapart srv hno srv List.mem_cons_self rfl
  · rw [grantAll, hsplit, List.foldl_append, List.foldl_cons]
    exact grantLoops_aside (List.nodup_cons.1 hafter).1 _

theorem Aside.restoreCandidates {srv : Nat} {s t : State} (h : Aside srv s t) : restoreCandidates t srv = restoreCandidates s srv := by
  rw [restoreCandidates_eq, restoreCandidates_eq, show t.cca.acceptance = s.cca.acceptance from h.frame.same .acceptance (by decide)]
  congr 1
  funext id
  refine Option.ext fun c => ?_
  rw [candidateAt_eq_some, candidateAt_eq_some, isCandidate_iff, isCandidate_iff, h.frame.jobServer, h.work.linkUp]
  refine and_congr_right fun _ => ⟨fun ⟨hjob, hcand⟩ => ⟨?_, hcand⟩, fun ⟨hjob, hcand⟩ => ⟨?_, hcand⟩⟩
  · exact (h.jobs id c.2 hcand.2.2.1).1 hjob
  · exact (h.jobs id c.2 hcand.2.2.1).2 hjob

/-! ### A server's own turn -/

section

variable {srv : Nat} {P : Prop} [Decidable P] {s : State}

/-- A server at its restore limit, or whose link is down, gives no credit to a restore (R146). -/
theorem grantLoop_withholds (hsrv : srv ∈ serverList) (n : Nat) (h : Shares P srv s)
    (hno : (if P then 3 else 4) ≤ (credit s srv).restore ∨ linkUp s srv = false) : (grantLoop srv n s).rsc.jobs = s.rsc.jobs := by
  induction n generalizing s with
  | zero => rfl
  | succ n ih =>
    have hnone : (if (credit s srv).restore < restoreLimit s srv then bestCandidate (restoreCandidates s srv) else none) = none := by
      rcases hno with hlimit | hdown
      · rw [h.restoreLimit]
        exact if_neg (Nat.not_lt.2 hlimit)
      · rw [restoreCandidates_down hdown]
        exact ite_self _
    rw [grantLoop, hnone]
    dsimp only
    split
    · rfl
    · split
      · rw [ih (grantDup_shares hsrv h srv) (by rwa [grantDup_restore, (grantDup_work srv s).linkUp]), grantDup_jobs]
      · rfl

/-- A server with a credit in reach grants it to its best candidate (R146). -/
theorem grantLoop_grants (n : Nat) (h : Shares P srv s) (hfree : (credit s srv).free ≠ 0)
    (hlimit : (credit s srv).restore < if P then 3 else 4) {c : Nat × RestoreJob}
    (hc : bestCandidate (restoreCandidates s srv) = some c) :
    grantLoop srv (n + 1) s = grantLoop srv n (grantRestore srv c.1 c.2 s) := by
  rw [grantLoop, if_neg hfree, h.restoreLimit, if_pos hlimit, hc]

omit [Decidable P] in
theorem grantLoop_spent (n : Nat) (h : (credit s srv).free = 0) : grantLoop srv n s = s := by
  cases n with
  | zero => rfl
  | succ n => exact if_pos h

end

/-! ### What the grants make of one job -/

/-- A property of jobs that ordering the next extent keeps. -/
def KeptByOrders (Q : RestoreJob → Prop) : Prop := ∀ j num, Q j → Q { j with extents := orderFirst num j.extents }

/-- A job in a slot has a property. -/
def JobIn (id : Nat) (Q : RestoreJob → Prop) (s : State) : Prop := ∃ j, restoreJob s id = some j ∧ Q j

section

variable {Q : RestoreJob → Prop} (hQ : KeptByOrders Q) {id : Nat} {s : State}
include hQ

theorem grantLoop_jobIn (i n : Nat) (h : JobIn id Q s) : JobIn id Q (grantLoop i n s) := by
  refine grantLoop_keepsEach (fun u c hc hu => ?_) (fun u hu => ?_) n h
  · obtain ⟨j, hj, hq⟩ := hu
    obtain ⟨hjob, -⟩ := mem_restoreCandidates hc
    by_cases hid : c.1 = id
    · subst hid
      obtain rfl : j = c.2 := Option.some.inj (hj.symm.trans hjob)
      exact ⟨_, (restoreJob_grantRestore hjob _).trans (if_pos rfl), hQ _ _ hq⟩
    · exact ⟨j, ((restoreJob_grantRestore hjob _).trans (if_neg hid)).trans hj, hq⟩
  · obtain ⟨j, hj, hq⟩ := hu
    refine ⟨j, ?_, hq⟩
    unfold restoreJob
    rw [grantDup_jobs]
    exact hj

theorem grantAll_jobIn (h : JobIn id Q s) : JobIn id Q (grantAll s) :=
  foldl_keeps (f := fun s i => grantLoop i 4 s) (fun _ i hu => grantLoop_jobIn hQ i 4 hu) _ (by
    obtain ⟨j, hj, hq⟩ := h
    refine ⟨j, ?_, hq⟩
    unfold restoreJob
    rw [(presentAll_rsc s).1]
    exact hj)

end

/-- The job's first extent carries an order's number (R154). -/
def HeadOrdered (num : Nat) (j : RestoreJob) : Prop :=
  ∃ e rest, j.extents = e :: rest ∧ e.status = .ordered ∧ e.order = some num

theorem headOrdered_kept (num : Nat) : KeptByOrders (HeadOrdered num) := by
  rintro j n ⟨e, rest, hext, hst, hnum⟩
  refine ⟨e, orderFirst n rest, ?_, hst, hnum⟩
  rw [hext, orderFirst, if_neg (by rw [hst]; decide)]

end Sys2Proof.Machine
end

