-- ==== Sys2Proof/Proofs/RestoreAccepted.lean ====
section
/-! PROOF. A restore job accepted (R152), and the credit that it is granted or waits for (R146, R147). -/

namespace Sys2Proof.Machine

/-! ### The job placed, reserved for, pinned and listed (R152) -/

/-- A job accepted into a slot, before any credit is granted. -/
def accepted (slot : Nat) (j : RestoreJob) (s : State) : State :=
  let s1 := pin j.snapshot (reserve j.principal j.total (setRestoreJob slot j s))
  { s1 with cca := { s1.cca with acceptance := s1.cca.acceptance ++ [slot] } }

theorem acceptRestore_eq (slot : Nat) (j : RestoreJob) (s : State) : acceptRestore slot j s = grantAll (accepted slot j s) := rfl

/-- What an acceptance changes beside the slot and the acceptance list. -/
theorem accepted_after (slot : Nat) (j : RestoreJob) (s : State) :
    Frame (evalParts ++ [.acceptance, .snaps]) (setRestoreJob slot j s) (accepted slot j s) :=
  (acceptanceWrite_frame _ _).after (by decide) ((pin_frame _ _).after (by decide) ((reserve_frame _ _ _).into (by decide)))

theorem accepted_frame (slot : Nat) (j : RestoreJob) (s : State) :
    Frame (evalParts ++ [.acceptance, .snaps, .restoreJobs]) s (accepted slot j s) :=
  (accepted_after slot j s).after (by decide) ((setRestoreJob_frame _ _ s).into (by decide))

theorem accepted_work (slot : Nat) (j : RestoreJob) (s : State) : Work s (accepted slot j s) :=
  (acceptanceWrite_work _ _).after ((pin_work _ _).after ((reserve_work _ _ _).after (setRestoreJob_work _ _ s)))

section

variable {slot : Nat} {j : RestoreJob} {s : State}

theorem restoreJob_accepted (k : Nat) : restoreJob (accepted slot j s) k = if slot = k then some j else restoreJob s k := by
  have hjobs : (accepted slot j s).rsc.jobs = (setRestoreJob slot j s).rsc.jobs :=
    (accepted_after slot j s).same .restoreJobs (by decide)
  unfold restoreJob
  rw [hjobs]
  exact restoreJob_setRestoreJob s slot k j

theorem acceptance_accepted : (accepted slot j s).cca.acceptance = s.cca.acceptance ++ [slot] := by
  have hpinned : Frame (.snaps :: evalParts) (setRestoreJob slot j s)
      (pin j.snapshot (reserve j.principal j.total (setRestoreJob slot j s))) :=
    (pin_frame _ _).after (by decide) ((reserve_frame _ _ _).into (by decide))
  exact congrArg (· ++ [slot]) (hpinned.same .acceptance (by decide))

theorem jobServer_accepted (x : RestoreJob) : jobServer (accepted slot j s) x = jobServer s x := by
  unfold jobServer
  rw [(accepted_frame slot j s).volume]

theorem shipsOpen_accepted (srv : Nat) : ShipsOpen (accepted slot j s) srv ↔ ShipsOpen s srv := by
  have hframe := accepted_frame slot j s
  unfold ShipsOpen serverOf
  simp only [hframe.volume, show (accepted slot j s).dc.jobs = s.dc.jobs from hframe.same .dupJobs (by decide),
    show (accepted slot j s).cca.openGroups = s.cca.openGroups from hframe.same .ccaOpen (by decide)]

theorem isCandidate_accepted (srv : Nat) (x : RestoreJob) : isCandidate (accepted slot j s) srv x = isCandidate s srv x := by
  unfold isCandidate
  rw [jobServer_accepted, (accepted_work slot j s).linkUp]

/-- The new job is the last candidate of its server. -/
theorem restoreCandidates_accepted {srv : Nat} (hout : slot ∉ s.cca.acceptance) (hcand : isCandidate s srv j = true) :
    restoreCandidates (accepted slot j s) srv = restoreCandidates s srv ++ [(slot, j)] := by
  have hat (id : Nat) : candidateAt (accepted slot j s) srv id = if slot = id then some (slot, j) else candidateAt s srv id := by
    unfold candidateAt
    rw [restoreJob_accepted]
    by_cases hid : slot = id
    · subst hid
      rw [if_pos rfl, if_pos rfl]
      exact if_pos ((isCandidate_accepted srv j).trans hcand)
    · rw [if_neg hid, if_neg hid]
      simp only [isCandidate_accepted]
  rw [restoreCandidates_eq, restoreCandidates_eq, acceptance_accepted, List.filterMap_append, List.filterMap_cons, hat slot,
    if_pos rfl]
  refine congrArg (· ++ _) (List.filterMap_congr fun id hid => ?_)
  exact (hat id).trans (if_neg fun (h : slot = id) => hout (by rwa [h]))

theorem mem_acceptance_of_candidate {srv : Nat} {c : Nat × RestoreJob} (h : c ∈ restoreCandidates s srv) : c.1 ∈ s.cca.acceptance := by
  rw [restoreCandidates_eq] at h
  obtain ⟨id, hid, hc⟩ := List.mem_filterMap.1 h
  rw [(candidateAt_eq_some.1 hc).1]
  exact hid

/-! ### The reservation and the pin (R78, R152) -/

end

/-- An account with an amount reserved, and its state the comparator's (R78, R100). -/
def Account.reserved (a : Account) (r : Nat) : Account :=
  { reserveUp r a with state := nextState (reserveUp r a) }

theorem acct_reserve_principal (p r : Nat) (s : State) :
    (principal (reserve p r s) p).acct = (principal s p).acct.reserved r := by
  rw [reserve, (evaluateBoth_evaluated _ _ _).principal_eq, if_pos List.mem_cons_self, principal_changeReservation, if_pos rfl]
  rfl

theorem acct_reserve_group {p : Nat} (r : Nat) {s : State} {g : Nat} (hg : (principal s p).group = some g) :
    (group (reserve p r s) g).acct = (group s g).acct.reserved r := by
  have hgroup : (principal (changeReservation (reserveUp r) p s) p).group = some g := by
    rw [principal_changeReservation, if_pos rfl]
    exact hg
  rw [reserve, (evaluateBoth_evaluated _ _ _).group_eq, hgroup, if_pos (List.mem_cons_of_mem _ (mem_groupSubjects.2 rfl)),
    group_changeReservation, if_pos hg]
  rfl

section

variable {slot : Nat} {j : RestoreJob} {s : State}

theorem acct_accepted (x : Subject) : acct (accepted slot j s) x = acct (reserve j.principal j.total (setRestoreJob slot j s)) x :=
  (pin_frame j.snapshot _).acct x

theorem principal_accepted : (principal (accepted slot j s) j.principal).acct = (principal s j.principal).acct.reserved j.total :=
  (acct_accepted (.principal j.principal)).trans (acct_reserve_principal _ _ (setRestoreJob slot j s))

theorem group_accepted {g : Nat} (hg : (principal s j.principal).group = some g) :
    (group (accepted slot j s) g).acct = (group s g).acct.reserved j.total :=
  (acct_accepted (.group g)).trans (acct_reserve_group j.total (s := setRestoreJob slot j s) hg)

theorem snap_accepted {r : Snap} (h : snap s j.snapshot = some r) :
    snap (accepted slot j s) j.snapshot = some { r with pinCount := r.pinCount + 1 } := by
  have hsnap : snap (reserve j.principal j.total (setRestoreJob slot j s)) j.snapshot = some r :=
    ((reserve_frame _ _ _).snap _).trans h
  change snap (pin j.snapshot _) j.snapshot = _
  rw [pin, hsnap]
  exact (snap_setSnap _ _ _ _).trans (if_pos rfl)

end

/-! ### The credit that the job is granted, or waits for (R146, R147) -/

section

variable {slot srv : Nat} {P : Prop} [Decidable P] {j : RestoreJob} {s : State}

omit [Decidable P] in
/-- The turn of the new job's server, and what it leaves of the server's jobs. -/
theorem acceptRestore_turn (hsrv : srv ∈ serverList) (hs : tsorted s.dc.jobs = true) (hP : ShipsOpen s srv ↔ P) :
    ∃ u, Aside srv (accepted slot j s) u ∧ Shares P srv u ∧ Aside srv (grantLoop srv 4 u) (acceptRestore slot j s)
      ∧ ∀ x, jobServer (grantLoop srv 4 u) x = jobServer s x := by
  have hdc : (accepted slot j s).dc.jobs = s.dc.jobs := (accepted_frame slot j s).same .dupJobs (by decide)
  obtain ⟨u, hu, hshares, hafter⟩ := grantAll_turn (s := accepted slot j s) hsrv (by rw [hdc]; exact hs)
    ((shipsOpen_accepted srv).trans hP)
  exact ⟨u, hu, hshares, hafter, fun x => ((grantLoop_frame srv 4 u).jobServer x).trans ((hu.frame.jobServer x).trans
    (jobServer_accepted x))⟩

/-- Without a credit in reach the new job waits. -/
theorem acceptRestore_waits (hsrv : srv ∈ serverList) (hs : tsorted s.dc.jobs = true) (hP : ShipsOpen s srv ↔ P)
    (hserver : jobServer s j = srv)
    (hno : (credit s srv).free = 0 ∨ (if P then 3 else 4) ≤ (credit s srv).restore ∨ linkUp s srv = false) :
    restoreJob (acceptRestore slot j s) slot = some j := by
  obtain ⟨u, hu, hshares, hafter, hservers⟩ := acceptRestore_turn (slot := slot) (j := j) hsrv hs hP
  have hcredit : credit (accepted slot j s) srv = credit s srv := (accepted_frame slot j s).credit srv
  have hjobs : (grantLoop srv 4 u).rsc.jobs = u.rsc.jobs := by
    rcases hno with hfree | hno
    · rw [grantLoop_spent 4 (hu.free.trans ((congrArg Credit.free hcredit).trans hfree))]
    · refine grantLoop_withholds hsrv 4 hshares (hno.imp (fun hlimit => ?_) fun hdown => ?_)
      · rw [hu.restore, hcredit]
        exact hlimit
      · rw [hu.work.linkUp, (accepted_work slot j s).linkUp]
        exact hdown
  have hplaced : restoreJob u slot = some j := (hu.jobs slot j ((jobServer_accepted j).trans hserver)).2
    ((restoreJob_accepted slot).trans (if_pos rfl))
  refine (hafter.jobs slot j ((hservers j).trans hserver)).2 ?_
  unfold restoreJob at hplaced ⊢
  rw [hjobs]
  exact hplaced

section

variable (hsrv : srv ∈ serverList) (hs : tsorted s.dc.jobs = true) (hP : ShipsOpen s srv ↔ P) (hout : slot ∉ s.cca.acceptance)
  (hcand : isCandidate s srv j = true) (hlimit : (credit s srv).restore < if P then 3 else 4)
include hsrv hs hP hout hcand hlimit

/-- The server's first credit goes to the best candidate, the new job counted last. -/
theorem acceptRestore_firstGrant (hfree : (credit s srv).free ≠ 0) {c : Nat × RestoreJob}
    (hc : bestCandidate (restoreCandidates s srv ++ [(slot, j)]) = some c) :
    ∃ u, Aside srv (accepted slot j s) u ∧ restoreCandidates u srv = restoreCandidates s srv ++ [(slot, j)]
      ∧ (credit u srv).free = (credit s srv).free
      ∧ Aside srv (grantLoop srv 3 (grantRestore srv c.1 c.2 u)) (acceptRestore slot j s)
      ∧ ∀ x, jobServer (grantLoop srv 3 (grantRestore srv c.1 c.2 u)) x = jobServer s x := by
  obtain ⟨u, hu, hshares, hafter, hservers⟩ := acceptRestore_turn (slot := slot) (j := j) hsrv hs hP
  have hcredit : credit (accepted slot j s) srv = credit s srv := (accepted_frame slot j s).credit srv
  have hfreeAt : (credit u srv).free = (credit s srv).free := hu.free.trans (congrArg Credit.free hcredit)
  have hcands : restoreCandidates u srv = restoreCandidates s srv ++ [(slot, j)] :=
    hu.restoreCandidates.trans (restoreCandidates_accepted hout hcand)
  have hturn := grantLoop_grants 3 hshares (by rwa [hfreeAt]) (by rw [hu.restore, hcredit]; exact hlimit) (hcands ▸ hc)
  rw [hturn] at hafter hservers
  exact ⟨u, hu, hcands, hfreeAt, hafter, hservers⟩

/-- Above every other candidate the new job gets the credit, and its first extent is ordered. -/
theorem acceptRestore_granted (hfree : (credit s srv).free ≠ 0)
    (hlower : ∀ e ∈ restoreCandidates s srv, e.2.priority < j.priority) {x : Extent} {xs : List Extent}
    (hext : j.extents = x :: xs) (hx : x.status = .pending) :
    ∃ num, JobIn slot (HeadOrdered num) (acceptRestore slot j s)
      ∧ ⟨num, .copy⟩ ∈ (link (acceptRestore slot j s) srv).orders := by
  obtain ⟨u, hu, hcands, -, hafter, hservers⟩ := acceptRestore_firstGrant hsrv hs hP hout hcand hlimit hfree
    (bestCandidate_first (c := (slot, j)) hlower fun e he => absurd he List.not_mem_nil)
  have hmem : (slot, j) ∈ restoreCandidates u srv := hcands ▸ List.mem_append_right _ List.mem_cons_self
  obtain ⟨hjob, hisCand⟩ := mem_restoreCandidates hmem
  have hfind : j.extents.find? (fun x => x.status = .pending) = some x := by
    rw [hext]
    exact List.find?_cons_of_pos (decide_eq_true hx)
  have hhead : JobIn slot (fun i => jobServer s i = srv ∧ HeadOrdered (link u srv).counter i) (grantRestore srv slot j u) := by
    refine ⟨_, (restoreJob_grantRestore hjob slot).trans (if_pos rfl), (isCandidate_iff.1 hcand).2.2.1,
      { x with status := .ordered, order := some (link u srv).counter }, xs, ?_, rfl, rfl⟩
    rw [hext]
    exact if_pos hx
  have hkept : KeptByOrders fun i => jobServer s i = srv ∧ HeadOrdered (link u srv).counter i :=
    fun i n h => ⟨h.1, headOrdered_kept _ i n h.2⟩
  obtain ⟨i, hi, hiserver, hihead⟩ := grantLoop_jobIn hkept srv 3 hhead
  refine ⟨(link u srv).counter, ⟨i, (hafter.jobs slot i ((hservers i).trans hiserver)).2 hi, hihead⟩, ?_⟩
  exact (hafter.work.links srv).orders (((grantLoop_work srv 3 _).links srv).orders (grantRestore_orders hfind))

/-- Behind a candidate of its own priority or a higher one, the new job leaves the only credit to it. -/
theorem acceptRestore_behind (hfree : (credit s srv).free = 1) {before after : List (Nat × RestoreJob)} {c : Nat × RestoreJob}
    (hsplit : restoreCandidates s srv = before ++ c :: after) (hbefore : ∀ e ∈ before, e.2.priority < c.2.priority)
    (hafter : ∀ e ∈ after, e.2.priority ≤ c.2.priority) (hprio : j.priority ≤ c.2.priority) :
    restoreJob (acceptRestore slot j s) slot = some j
    ∧ ∃ num, restoreJob (acceptRestore slot j s) c.1 = some { c.2 with extents := orderFirst num c.2.extents } := by
  have hbest : bestCandidate (restoreCandidates s srv ++ [(slot, j)]) = some c := by
    rw [hsplit, List.append_assoc, List.cons_append]
    exact bestCandidate_first hbefore fun e he =>
      (List.mem_append.1 he).elim (hafter e) fun he => by rw [List.mem_singleton.1 he]; exact hprio
  obtain ⟨u, hu, hcands, hfreeAt, hrest, hservers⟩ := acceptRestore_firstGrant hsrv hs hP hout hcand hlimit
    (by rw [hfree]; exact Nat.one_ne_zero) hbest
  have hmemS : c ∈ restoreCandidates s srv := hsplit ▸ List.mem_append_right _ List.mem_cons_self
  obtain ⟨hjob, hisCand⟩ := mem_restoreCandidates (hcands ▸ List.mem_append_left _ hmemS : c ∈ restoreCandidates u srv)
  obtain ⟨-, hpending, -, -⟩ := isCandidate_iff.1 hisCand
  have hserverC : jobServer s c.2 = srv := (isCandidate_iff.1 (mem_restoreCandidates hmemS).2).2.2.1
  have hserverJ : jobServer s j = srv := (isCandidate_iff.1 hcand).2.2.1
  have hne : c.1 ≠ slot := fun hno => hout (hno ▸ mem_acceptance_of_candidate hmemS)
  obtain ⟨x, hx⟩ : ∃ x, c.2.extents.find? (fun x => x.status = .pending) = some x := by
    obtain ⟨x, hx, hp⟩ := List.any_eq_true.1 hpending
    exact Option.isSome_iff_exists.1 (List.find?_isSome.2 ⟨x, hx, hp⟩)
  have hspent : (credit (grantRestore srv c.1 c.2 u) srv).free = 0 := by
    rw [credit_grantRestore hx, if_pos rfl, hfreeAt, hfree]
  rw [grantLoop_spent 3 hspent] at hrest hservers
  have hplaced : restoreJob u slot = some j := (hu.jobs slot j ((jobServer_accepted j).trans hserverJ)).2
    ((restoreJob_accepted slot).trans (if_pos rfl))
  refine ⟨(hrest.jobs slot j ((hservers j).trans hserverJ)).2 (((restoreJob_grantRestore hjob slot).trans (if_neg hne)).trans hplaced),
    (link u srv).counter, ?_⟩
  exact (hrest.jobs c.1 { c.2 with extents := orderFirst (link u srv).counter c.2.extents } ((hservers _).trans hserverC)).2
    ((restoreJob_grantRestore hjob c.1).trans (if_pos rfl))

end

end

/-! ### The job through the grants -/

/-- Where an extent is copied from and to. -/
def Extent.place (e : Extent) : Nat × Nat × Nat := (e.source, e.count, e.dest)

/-- A job of which nothing but extents ordered tells it from another, and no extent is settled. -/
def OrdersOnly (j0 j : RestoreJob) : Prop :=
  ∃ l, j = { j0 with extents := l } ∧ l.map Extent.place = j0.extents.map Extent.place
    ∧ ∀ e ∈ l, e.status = .pending ∨ e.status = .ordered

theorem orderFirst_places (num : Nat) (l : List Extent) : (orderFirst num l).map Extent.place = l.map Extent.place := by
  induction l with
  | nil => rfl
  | cons x r ih =>
    rw [orderFirst]
    split
    · rfl
    · rw [List.map_cons, ih, List.map_cons]

theorem orderFirst_unsettled {num : Nat} {l : List Extent} (h : ∀ e ∈ l, e.status = .pending ∨ e.status = .ordered) :
    ∀ e ∈ orderFirst num l, e.status = .pending ∨ e.status = .ordered := by
  induction l with
  | nil => exact h
  | cons x r ih =>
    have hr : ∀ e ∈ r, e.status = .pending ∨ e.status = .ordered := fun e he => h e (List.mem_cons_of_mem _ he)
    rw [orderFirst]
    split
    · intro e he
      rcases List.mem_cons.1 he with rfl | he
      · exact .inr rfl
      · exact hr e he
    · intro e he
      rcases List.mem_cons.1 he with rfl | he
      · exact h e List.mem_cons_self
      · exact ih hr e he

theorem ordersOnly_kept (j0 : RestoreJob) : KeptByOrders (OrdersOnly j0) := by
  rintro j num ⟨l, rfl, hplaces, hst⟩
  exact ⟨orderFirst num l, rfl, (orderFirst_places num l).trans hplaces, orderFirst_unsettled hst⟩

theorem acceptRestore_ordersOnly {slot : Nat} {j : RestoreJob} (h : ∀ e ∈ j.extents, e.status = .pending) (s : State) :
    JobIn slot (OrdersOnly j) (acceptRestore slot j s) :=
  grantAll_jobIn (ordersOnly_kept j) ⟨j, (restoreJob_accepted slot).trans (if_pos rfl), j.extents, rfl, rfl, fun e he => .inl (h e he)⟩

end Sys2Proof.Machine
end

