-- ==== Sys2Proof/Proofs/RestoresStarted.lean ====
section
/-! PROOF. START_RESTORE and CANCEL_RESTORE (O48): the checks in order (R151, R160), and the end of a job with nothing in flight
(R158, R159). -/

namespace Sys2Proof.Machine

/-! ### START_RESTORE's checks (R151) -/

theorem freeSlotOf_eq_none {s : State} : freeSlotOf s = none ↔ ∀ k < 16, restoreJob s k ≠ none := by
  unfold freeSlotOf restoreSlots
  rw [List.find?_eq_none]
  simp [List.mem_range]

theorem freeSlotOf_eq_some {s : State} {slot : Nat} (hlt : slot < 16) (hfree : restoreJob s slot = none)
    (hlower : ∀ k < slot, restoreJob s k ≠ none) : freeSlotOf s = some slot := by
  unfold freeSlotOf restoreSlots
  rw [List.find?_range_eq_some]
  refine ⟨by rw [hfree]; rfl, List.mem_range.2 hlt, fun k hk => ?_⟩
  simpa [Option.isSome_iff_ne_none] using hlower k hk

theorem extentOk_eq_false {size : Nat} {x : ExtentField} : extentOk size x = false ↔
    x.count.toNat = 0 ∨ 65535 < x.count.toNat ∨ size < x.source.toNat + x.count.toNat ∨ size < x.dest.toNat + x.count.toNat := by
  unfold extentOk
  simp only [Bool.and_eq_false_iff, decide_eq_false_iff_not, not_not, Nat.not_le, or_assoc, ne_eq]

theorem restoreFieldsOk_eq_false {size p priority n : Nat} {xs : List ExtentField} : restoreFieldsOk size p priority n xs = false ↔
    p = 0 ∨ 32767 < p ∨ 3 < priority ∨ n = 0 ∨ 32 < n ∨ ∃ x ∈ xs, x.count.toNat = 0 ∨ 65535 < x.count.toNat
      ∨ size < x.source.toNat + x.count.toNat ∨ size < x.dest.toNat + x.count.toNat := by
  unfold restoreFieldsOk
  simp only [Bool.and_eq_false_iff, decide_eq_false_iff_not, not_not, Nat.not_le, or_assoc, ne_eq, List.all_eq_false,
    Bool.not_eq_true, extentOk_eq_false, Nat.lt_one_iff]

/-- The job that START_RESTORE places (R152). -/
def newJob (s : State) (id p : Nat) (r : Snap) (m : RestoreMode) (priority : Nat) (xs : List ExtentField) (amount : Nat) : RestoreJob :=
  { state := .active, snapshot := id, volume := r.volume, principal := p, mode := m, priority := priority,
    accepted := now s, extents := xs.map newExtent, total := amount, remaining := amount }

theorem newJob_mgmtHunt (s : State) (id p : Nat) (r : Snap) (m : RestoreMode) (priority : Nat) (xs : List ExtentField) (amount : Nat) :
    newJob (mgmtHunt s) id p r m priority xs amount = newJob s id p r m priority xs amount := rfl

section

variable {slot id p priority n : Nat} {mode : BitVec 8} {xs : List ExtentField} {r : Snap} {s : State}

theorem startRestore_full (h : freeSlotOf s = none) : startRestore id p mode priority n xs s = (s, refusal .full) := by
  rw [startRestore, h]

theorem startRestore_noSnap (h : freeSlotOf s = some slot) (hid : snap s id = none) :
    startRestore id p mode priority n xs s = (s, refusal .noSuch) := by
  rw [startRestore, h, hid]

theorem startRestore_of_snap (h : freeSlotOf s = some slot) (hid : snap s id = some r) : startRestore id p mode priority n xs s =
    if p ≤ 32767 ∧ (principal s p).defined = false then (s, refusal .noSuch) else startWith slot id r p mode priority n xs s := by
  rw [startRestore, h, hid]

theorem startWith_state (h : r.state ≠ .live ∨ (volume s r.volume).state = .stale) :
    startWith slot id r p mode priority n xs s = (s, refusal .state) := if_pos h

theorem startWith_malformed (h : ¬(r.state ≠ .live ∨ (volume s r.volume).state = .stale))
    (hbad : restoreModeOf mode = none ∨ restoreFieldsOk (volume s r.volume).size p priority n xs = false) :
    startWith slot id r p mode priority n xs s = (s, refusal .malformed) := by
  unfold startWith
  dsimp only
  rw [if_neg h]
  split
  · rfl
  · rename_i m hm
    exact if_pos (hbad.resolve_left fun hno => by rw [hm] at hno; cases hno)

theorem startWith_checked (h : ¬(r.state ≠ .live ∨ (volume s r.volume).state = .stale)) {m : RestoreMode}
    (hm : restoreModeOf mode = some m) (hok : ¬restoreFieldsOk (volume s r.volume).size p priority n xs = false) {amount : Nat}
    (hamount : amount = (xs.map fun x => x.count.toNat).sum * (volume s r.volume).weight) :
    startWith slot id r p mode priority n xs s =
      if m = .charge ∧ quotaRefuses s p amount = true then (s, refusal .quota)
      else (acceptRestore slot (newJob s id p r m priority xs amount) s, accept [] (.restoreStarted slot amount)) := by
  subst hamount
  unfold startWith
  dsimp only
  rw [if_neg h, hm]
  dsimp only
  rw [if_neg hok]
  rfl

end

theorem acceptRestore_frame (slot : Nat) (j : RestoreJob) (s : State) :
    Frame (evalParts ++ [.acceptance, .snaps, .restoreJobs, .credits, .dupJobs, .budget, .turn]) s (acceptRestore slot j s) :=
  (grantAll_frame _).after (by decide) ((accepted_frame slot j s).into (by decide))

theorem startWith_frame (slot id : Nat) (r : Snap) (p : Nat) (mode : BitVec 8) (priority n : Nat) (xs : List ExtentField) (s : State) :
    Frame (evalParts ++ [.acceptance, .snaps, .restoreJobs, .credits, .dupJobs, .budget, .turn]) s
      (startWith slot id r p mode priority n xs s).1 := by
  by_cases hstate : r.state ≠ .live ∨ (volume s r.volume).state = .stale
  · rw [startWith_state hstate]
    exact Frame.refl _ s
  · cases hm : restoreModeOf mode with
    | none =>
      rw [startWith_malformed hstate (.inl hm)]
      exact Frame.refl _ s
    | some m =>
      by_cases hok : restoreFieldsOk (volume s r.volume).size p priority n xs = false
      · rw [startWith_malformed hstate (.inr hok)]
        exact Frame.refl _ s
      · rw [startWith_checked hstate hm hok rfl]
        split
        · exact Frame.refl _ s
        · dsimp only
          exact acceptRestore_frame _ _ s

theorem startRestore_frame (id p : Nat) (mode : BitVec 8) (priority n : Nat) (xs : List ExtentField) (s : State) :
    Frame (evalParts ++ [.acceptance, .snaps, .restoreJobs, .credits, .dupJobs, .budget, .turn]) s
      (startRestore id p mode priority n xs s).1 := by
  unfold startRestore
  split
  · exact Frame.refl _ s
  · split
    · exact Frame.refl _ s
    · split
      · exact Frame.refl _ s
      · exact startWith_frame _ _ _ _ _ _ _ _ s

/-! ### CANCEL_RESTORE (R160) -/

section

variable {id : Nat} {s : State}

theorem cancelRestore_malformed (h : 15 < id) : cancelRestore id s = (s, refusal .malformed) := if_pos h

theorem cancelRestore_noSuch (h : ¬15 < id) (hj : restoreJob s id = none) : cancelRestore id s = (s, refusal .noSuch) := by
  rw [cancelRestore, if_neg h, hj]

theorem cancelRestore_of_job (h : ¬15 < id) {j : RestoreJob} (hj : restoreJob s id = some j) : cancelRestore id s =
    if j.state = .draining then (s, refusal .state)
    else (testRestoreEnd id (setRestoreJob id j.drain s), accept [] (.stillOrdered (j.countStatus .ordered))) := by
  rw [cancelRestore, if_neg h, hj]

theorem cancelRestore_frame (id : Nat) (s : State) : Frame restoreEndParts s (cancelRestore id s).1 := by
  unfold cancelRestore
  split
  · exact Frame.refl _ s
  · split
    · exact Frame.refl _ s
    · split
      · exact Frame.refl _ s
      · exact (testRestoreEnd_frame _ _).after (by decide) ((setRestoreJob_frame _ _ s).into (by decide))

end

/-- What CANCEL_RESTORE does to an extent (R160). -/
def Extent.cancelled (x : Extent) : Extent := if x.status = .pending then x.fail .cancelled else x

theorem drain_extents (j : RestoreJob) : j.drain.extents = j.extents.map Extent.cancelled := rfl

theorem cancelled_status {x : Extent} {st : ExtStatus} (hp : st ≠ .pending) (hf : st ≠ .failed) :
    x.cancelled.status = st ↔ x.status = st := by
  unfold Extent.cancelled
  split
  · rename_i hx
    rw [hx]
    exact ⟨fun h => absurd h.symm hf, fun h => absurd h.symm hp⟩
  · rfl

theorem cancelled_failed {x : Extent} : x.cancelled.status = .failed ↔ x.status = .pending ∨ x.status = .failed := by
  unfold Extent.cancelled
  split
  · rename_i hx
    exact iff_of_true rfl (.inl hx)
  · rename_i hx
    rw [or_iff_right hx]

theorem cancelled_pending {x : Extent} : x.cancelled.status ≠ .pending := by
  unfold Extent.cancelled
  split
  · exact fun h => nomatch h
  · assumption

theorem cancelled_reason {x : Extent} :
    x.cancelled.reason = .cancelled ↔ x.status = .pending ∨ x.reason = .cancelled := by
  unfold Extent.cancelled
  split
  · rename_i hx
    exact iff_of_true rfl (.inl hx)
  · rename_i hx
    rw [or_iff_right hx]

theorem cancelled_count (x : Extent) : x.cancelled.count = x.count := by
  unfold Extent.cancelled
  split <;> rfl

/-- The extents that a drained job counts are those that the job had. -/
theorem filter_drain (j : RestoreJob) {p q : Extent → Bool} (h : ∀ x ∈ j.extents, p x.cancelled = q x) :
    j.drain.extents.filter p = (j.extents.filter q).map Extent.cancelled := by
  rw [drain_extents, List.filter_map]
  exact congrArg _ (List.filter_congr h)

theorem drain_copied (j : RestoreJob) : j.drain.copied = j.copied := by
  unfold RestoreJob.copied
  rw [filter_drain j (q := fun x => x.status = .done) fun x _ => decide_eq_decide.2 (cancelled_status (by decide) (by decide)),
    List.map_map]
  exact congrArg List.sum (List.map_congr_left fun x _ => cancelled_count x)

theorem drain_countDone (j : RestoreJob) : j.drain.countStatus .done = j.countStatus .done := by
  unfold RestoreJob.countStatus
  rw [filter_drain j (q := fun x => x.status = .done) fun x _ => decide_eq_decide.2 (cancelled_status (by decide) (by decide)),
    List.length_map]

theorem drain_countFailed (j : RestoreJob) : j.drain.countStatus .failed =
    (j.extents.filter fun x => decide (x.status = .pending ∨ x.status = .failed)).length := by
  unfold RestoreJob.countStatus
  rw [filter_drain j (q := fun x => decide (x.status = .pending ∨ x.status = .failed))
    fun x _ => decide_eq_decide.2 cancelled_failed, List.length_map]

theorem drain_failedCancelled (j : RestoreJob) : j.drain.failedWith .cancelled =
    ((j.extents.filter fun x => decide (x.status = .pending ∨ x.status = .failed)).filter
      fun x => decide (x.status = .pending ∨ x.reason = .cancelled)).length := by
  unfold RestoreJob.failedWith
  rw [filter_drain j (q := fun x => decide (x.status = .pending ∨ x.reason = .cancelled)
    && decide (x.status = .pending ∨ x.status = .failed)) (fun x _ => ?_), List.length_map, List.filter_filter]
  rw [Bool.and_comm (decide (x.status = .pending ∨ x.reason = .cancelled)), ← Bool.decide_and, ← Bool.decide_and]
  refine decide_eq_decide.2 ?_
  rw [cancelled_failed]
  exact and_congr_right fun _ => cancelled_reason

/-- A drained job is settled when nothing of it was in flight (R158). -/
theorem drain_settled {j : RestoreJob} : j.drain.settled = true ↔ ∀ x ∈ j.extents, x.status ≠ .ordered := by
  have hpending : j.drain.hasStatus .pending = false := List.any_eq_false.2 fun y hy => by
    obtain ⟨x, -, rfl⟩ := List.mem_map.1 hy
    exact fun hno => cancelled_pending (of_decide_eq_true hno)
  rw [RestoreJob.settled, hpending, Bool.not_false, Bool.true_and, Bool.not_eq_true', RestoreJob.hasStatus, List.any_eq_false,
    drain_extents, List.forall_mem_map]
  exact forall₂_congr fun x _ => by
    rw [decide_eq_true_iff, cancelled_status (by decide) (by decide)]

/-! ### The end of a job (R159) -/

/-- The end of a job before its notice: the slot freed, the reservation released and the source unpinned. -/
def restoreEnded (id : Nat) (j : RestoreJob) (s : State) : State :=
  unpin j.snapshot (release j.principal j.remaining (freeSlot id j j.outcome s))

section

variable {id : Nat} {j : RestoreJob} {s : State}

theorem endRestore_eq : endRestore id j s = restoreDone id j j.outcome (now s) (restoreEnded id j s) := rfl

theorem restoreEnded_work : Work s (restoreEnded id j s) :=
  (unpin_work _ _).after ((release_work _ _ _).after (freeSlot_work _ _ _ s))

/-- What the end of a job does behind the freeing of its slot. -/
theorem endRestore_after : Frame (evalParts ++ catalogParts) (freeSlot id j j.outcome s) (endRestore id j s) :=
  (restoreDone_frame _ _ _ _ _).after (by decide) ((unpin_frame _ _).after (by decide) ((release_frame _ _ _).into (by decide)))

theorem restoreJob_endRestore (k : Nat) : restoreJob (endRestore id j s) k = if id = k then none else restoreJob s k := by
  unfold restoreJob
  rw [show (endRestore id j s).rsc.jobs = _ from endRestore_after.same .restoreJobs (by decide)]
  exact tget_tdel _ _ _

theorem endRestore_acceptance : id ∉ (endRestore id j s).cca.acceptance := by
  rw [show (endRestore id j s).cca.acceptance = _ from endRestore_after.same .acceptance (by decide)]
  exact fun hno => of_decide_eq_true (List.mem_filter.1 hno).2 rfl

theorem endRestore_lastEnd : tget (endRestore id j s).rsc.lastEnd id = some (endRecord s j j.outcome) := by
  rw [show (endRestore id j s).rsc.lastEnd = _ from endRestore_after.same .restoreEnds (by decide)]
  exact (tget_tput _ _ _ _).trans (if_pos rfl)

/-- RESTORE_DONE comes behind the notices of the release and the unpin (log 7). -/
theorem endRestore_noticed : ∃ before, Noticed (before ++ [⟨.job id, .restoreDone id j.principal j.volume j.snapshot j.outcome
    j.copied (j.countStatus .done) (j.countStatus .failed) j.failCounts j.remaining (now s)⟩]) s (endRestore id j s) := by
  obtain ⟨before, hbefore⟩ := (restoreEnded_work (id := id) (j := j) (s := s)).speaks
  rw [endRestore_eq]
  exact ⟨before, hbefore.trans (notify_noticed _ _ _)⟩

/-- A job cancelled with nothing in flight ends at once (R158, R160). -/
theorem testRestoreEnd_cancelled (h : ∀ x ∈ j.extents, x.status ≠ .ordered) :
    testRestoreEnd id (setRestoreJob id j.drain s) = endRestore id j.drain (setRestoreJob id j.drain s) := by
  rw [testRestoreEnd, (restoreJob_setRestoreJob s id id j.drain).trans (if_pos rfl)]
  exact if_pos (drain_settled.2 h)

/-- A job cancelled with an order in flight drains (R160). -/
theorem testRestoreEnd_drains (h : ¬∀ x ∈ j.extents, x.status ≠ .ordered) :
    testRestoreEnd id (setRestoreJob id j.drain s) = setRestoreJob id j.drain s := by
  rw [testRestoreEnd, (restoreJob_setRestoreJob s id id j.drain).trans (if_pos rfl)]
  exact if_neg (mt drain_settled.1 h)

end

/-! ### The two requests -/

/-- A job accepted, as the statement has it: granted a credit or not, by what its server has and who else asks (R146, R147). -/
theorem acceptRestore_serves {slot srv : Nat} {j0 : RestoreJob} {s : State} (hserver : jobServer s j0 = srv)
    (hactive : j0.state = .active) (hpending : ∀ e ∈ j0.extents, e.status = .pending) (hsome : j0.extents ≠ [])
    {P : Prop} [Decidable P] {limit : Nat}
    (hlimit : limit = if P then 3 else 4) (hP : ShipsOpen s srv ↔ P) {j : RestoreJob}
    (hj : restoreJob (acceptRestore slot j0 s) slot = some j)
    (hlt : srv < 8) (hout : slot ∉ s.cca.acceptance) (hs : tsorted s.dc.jobs = true) :
    ((credit s srv).free = 0 ∨ limit ≤ (credit s srv).restore ∨ linkUp s srv = false →
      ∀ e ∈ j.extents, e.status = .pending)
    ∧ ((credit s srv).free ≠ 0 → (credit s srv).restore < limit → linkUp s srv = true →
      (∀ e ∈ restoreCandidates s srv, e.2.priority < j0.priority) →
      ∃ num e rest, j.extents = e :: rest ∧ e.status = .ordered ∧ e.order = some num
        ∧ ⟨num, .copy⟩ ∈ (link (acceptRestore slot j0 s) srv).orders)
    ∧ ((credit s srv).free = 1 → (credit s srv).restore < limit → linkUp s srv = true →
      ∀ before c after, restoreCandidates s srv = before ++ c :: after → j0.priority ≤ c.2.priority →
      (∀ e ∈ before, e.2.priority < c.2.priority) → (∀ e ∈ after, e.2.priority ≤ c.2.priority) →
      (∀ e ∈ j.extents, e.status = .pending)
      ∧ ∀ pre x post, c.2.extents = pre ++ x :: post → x.status = .pending → (∀ y ∈ pre, y.status ≠ .pending) →
        ∃ num, restoreJob (acceptRestore slot j0 s) c.1 = some { c.2 with
          extents := pre ++ { x with status := .ordered, order := some num } :: post }) := by
  subst hlimit
  have hsrv : srv ∈ serverList := mem_serverList ⟨srv, hlt⟩
  obtain ⟨x, xs, hext⟩ := List.exists_cons_of_ne_nil hsome
  have hx : x.status = .pending := hpending x (hext ▸ List.mem_cons_self)
  have hcand (hup : linkUp s srv = true) : isCandidate s srv j0 = true :=
    isCandidate_iff.2 ⟨hactive, List.any_eq_true.2 ⟨x, hext ▸ List.mem_cons_self, decide_eq_true hx⟩, hserver, hup⟩
  refine ⟨fun hno => ?_, fun hfree hlimit hup hlower => ?_, fun hfree hlimit hup before c after hsplit hprio hbefore hafter => ?_⟩
  · rw [acceptRestore_waits hsrv hs hP hserver hno] at hj
    cases hj
    exact hpending
  · obtain ⟨num, ⟨i, hi, e, rest, hhead⟩, horder⟩ :=
      acceptRestore_granted hsrv hs hP hout (hcand hup) hlimit hfree hlower hext hx
    obtain rfl : i = j := Option.some.inj (hi.symm.trans hj)
    exact ⟨num, e, rest, hhead.1, hhead.2.1, hhead.2.2, horder⟩
  · obtain ⟨hwaits, num, hgranted⟩ := acceptRestore_behind hsrv hs hP hout (hcand hup) hlimit hfree hsplit hbefore hafter hprio
    rw [hwaits] at hj
    cases hj
    refine ⟨hpending, fun pre x post hc hx hpre => ⟨num, hgranted.trans ?_⟩⟩
    rw [hc, orderFirst_split hx hpre]

/-- START_RESTORE, case by case (R151, R152). -/
theorem startRestore_answers {h : ReqHead} {id p : BitVec 16} {mode prio n : BitVec 8} {xs : List ExtentField} {s : State}
    (ht : Takes h (7 + 20 * n.toNat) s) {t : State}
    (heq : t = answer h.tag (startRestore id.toNat p.toNat mode prio.toNat n.toNat xs (mgmtHunt s)).2
      (startRestore id.toNat p.toNat mode prio.toNat n.toNat xs (mgmtHunt s)).1) {slot : Nat}
    (hslot : freeSlotOf s = some slot) {r : Snap} (hid : snap s id.toNat = some r) {v : Volume} {a : Principal}
    {m : Option RestoreMode} {amount : Nat} (hv : v = volume s r.volume) (ha : a = principal s p.toNat) (hm : m = restoreModeOf mode)
    (hamount : amount = (xs.map fun x => x.count.toNat).sum * v.weight) :
    if p.toNat ≤ 32767 ∧ a.defined = false then Refused h .noSuch s t
    else if r.state ≠ .live ∨ v.state = .stale then Refused h .state s t
    else if m = none ∨ p.toNat = 0 ∨ 32767 < p.toNat ∨ 3 < prio.toNat ∨ n.toNat = 0 ∨ 32 < n.toNat
        ∨ (∃ x ∈ xs, x.count.toNat = 0 ∨ 65535 < x.count.toNat
            ∨ v.size < x.source.toNat + x.count.toNat ∨ v.size < x.dest.toNat + x.count.toNat) then Refused h .malformed s t
    else if m = some .charge ∧ quotaRefuses s p.toNat amount = true then Refused h .quota s t
    else n.toNat ≠ 0 ∧ ∃ mo, m = some mo ∧ t = answer h.tag (accept [] (.restoreStarted slot amount))
      (acceptRestore slot (newJob s id.toNat p.toNat r mo prio.toNat xs amount) (mgmtHunt s)) := by
  subst hv ha hm
  rw [startRestore_of_snap (s := mgmtHunt s) hslot hid, principal_mgmtHunt] at heq
  split
  · rename_i hno
    rw [heq, if_pos hno]
    exact refused_takes _ ht
  rename_i hdefined
  rw [if_neg hdefined] at heq
  split
  · rename_i hno
    rw [heq, startWith_state (s := mgmtHunt s) hno]
    exact refused_takes _ ht
  rename_i hstate
  have hbad : restoreModeOf mode = none
      ∨ restoreFieldsOk (volume (mgmtHunt s) r.volume).size p.toNat prio.toNat n.toNat xs = false ↔ _ :=
    or_congr_right restoreFieldsOk_eq_false
  split
  · rename_i hno
    rw [heq, startWith_malformed (s := mgmtHunt s) hstate (hbad.2 hno)]
    exact refused_takes _ ht
  rename_i hok
  obtain ⟨hmode, hfields⟩ := not_or.1 (mt hbad.1 hok)
  obtain ⟨mo, hmo⟩ := Option.ne_none_iff_exists'.1 hmode
  rw [startWith_checked (s := mgmtHunt s) hstate hmo hfields hamount] at heq
  have hquota : restoreModeOf mode = some .charge ∧ quotaRefuses s p.toNat amount = true
      ↔ mo = .charge ∧ quotaRefuses (mgmtHunt s) p.toNat amount = true := by
    rw [hmo, Option.some.injEq]
    rfl
  split
  · rename_i hno
    rw [heq, if_pos (hquota.1 hno)]
    exact refused_takes _ ht
  · rename_i hno
    rw [if_neg (mt hquota.2 hno), newJob_mgmtHunt] at heq
    dsimp only at heq
    exact ⟨fun h0 => hok (.inr (.inr (.inr (.inr (.inl h0))))), mo, hmo, heq⟩

/-- The job in its slot behind the grants of its acceptance (R152). -/
theorem acceptRestore_newJob (slot : Nat) {s u : State} {id p : Nat} {r : Snap} {m : RestoreMode} {priority : Nat}
    {xs : List ExtentField} {amount : Nat} :
    ∃ j, restoreJob (acceptRestore slot (newJob s id p r m priority xs amount) u) slot = some j
      ∧ j.state = .active ∧ j.snapshot = id ∧ j.volume = r.volume ∧ j.principal = p ∧ some j.mode = some m ∧ j.priority = priority
      ∧ j.accepted = now s ∧ j.total = amount ∧ j.remaining = amount
      ∧ j.extents.map (fun e => (e.source, e.count, e.dest)) = xs.map (fun x => (x.source.toNat, x.count.toNat, x.dest.toNat))
      ∧ ∀ e ∈ j.extents, e.status = .pending ∨ e.status = .ordered := by
  have hpending : ∀ e ∈ (newJob s id p r m priority xs amount).extents, e.status = .pending := fun e he => by
    obtain ⟨x, -, rfl⟩ := List.mem_map.1 he
    rfl
  obtain ⟨j, hj, l, rfl, hplaces, hst⟩ := acceptRestore_ordersOnly (slot := slot) hpending u
  refine ⟨_, hj, rfl, rfl, rfl, rfl, rfl, rfl, rfl, rfl, rfl, hplaces.trans ?_, hst⟩
  exact List.map_map

/-- The books, the pin and the acceptance list stand through the grants (R78, R152). -/
theorem acceptRestore_steady (slot : Nat) (j : RestoreJob) (s : State) :
    (∀ x, acct (acceptRestore slot j s) x = acct (accepted slot j s) x)
    ∧ (∀ k, snap (acceptRestore slot j s) k = snap (accepted slot j s) k)
    ∧ (acceptRestore slot j s).cca.acceptance = s.cca.acceptance ++ [slot] := by
  have hframe := grantAll_frame (accepted slot j s)
  rw [acceptRestore_eq]
  exact ⟨fun x => hframe.acct x, fun k => hframe.snap k, (hframe.same .acceptance (by decide)).trans acceptance_accepted⟩

/-- CANCEL_RESTORE of a job that is not draining yet (R158 to R160). -/
theorem cancelRestore_cancels {tag : BitVec 16} {id : Nat} {j : RestoreJob} {s t : State} {r : Reply}
    (heq : t = answer tag r (testRestoreEnd id (setRestoreJob id j.drain (mgmtHunt s)))) :
    (if (∀ x ∈ j.extents, x.status ≠ .ordered) then
      restoreJob t id = none ∧ id ∉ t.cca.acceptance
      ∧ ∃ e, tget t.rsc.lastEnd id = some e ∧ e.outcome = .cancelled ∧ e.released = j.remaining
      ∧ (∃ before failed n by_, Raises (before ++ [⟨.job id, .restoreDone id j.principal j.volume j.snapshot
          .cancelled j.copied (j.countStatus .done) n by_ j.remaining (now s)⟩]) s t
        ∧ n = failed.length ∧ failed = j.extents.filter (fun x => decide (x.status = .pending ∨ x.status = .failed))
        ∧ by_.cancelled = (failed.filter fun x => decide (x.status = .pending ∨ x.reason = .cancelled)).length)
    else restoreJob t id = some { j with
      state := .draining
      extents := j.extents.map fun x => if x.status = .pending then
        { x with status := .failed, reason := .cancelled, order := none } else x })
    ∧ ∀ k, k ≠ id → restoreJob t k = restoreJob s k := by
  have hset (k : Nat) : restoreJob (setRestoreJob id j.drain (mgmtHunt s)) k = if id = k then some j.drain else restoreJob s k :=
    restoreJob_setRestoreJob _ _ _ _
  have hjob (k : Nat) : restoreJob t k = _ := heq ▸ restoreJob_answer _ _ _ k
  by_cases hnone : ∀ x ∈ j.extents, x.status ≠ .ordered
  · rw [testRestoreEnd_cancelled hnone] at heq hjob
    rw [if_pos hnone]
    refine ⟨⟨?_, ?_, endRecord (setRestoreJob id j.drain (mgmtHunt s)) j.drain j.drain.outcome, ?_, rfl, rfl, ?_⟩,
      fun k hk => ?_⟩
    · rw [hjob, restoreJob_endRestore, if_pos rfl]
    · rw [heq, answer_cca]
      exact endRestore_acceptance
    · rw [heq, answer_rsc]
      exact endRestore_lastEnd
    · obtain ⟨before, hbefore⟩ := endRestore_noticed (id := id) (j := j.drain) (s := setRestoreJob id j.drain (mgmtHunt s))
      rw [drain_copied, drain_countDone, drain_countFailed] at hbefore
      have hsilent : Noticed [] s (setRestoreJob id j.drain (mgmtHunt s)) := Noticed.nil rfl
      refine ⟨before, _, _, j.drain.failCounts, ?_, rfl, rfl, drain_failedCancelled j⟩
      rw [heq]
      exact (hsilent.silent_trans hbefore).raises_answer tag r
    · rw [hjob, restoreJob_endRestore, if_neg (Ne.symm hk), hset, if_neg (Ne.symm hk)]
  · rw [testRestoreEnd_drains hnone] at hjob
    rw [if_neg hnone]
    refine ⟨?_, fun k hk => ?_⟩
    · rw [hjob, hset, if_pos rfl]
      rfl
    · rw [hjob, hset, if_neg (Ne.symm hk)]

/-- Settles O48: the checks of the two requests, the job that is accepted and whom the credits go to, and the job that is cancelled. -/
theorem startAndCancelRestore : Obligations.StartAndCancelRestore := by
  refine ⟨fun h id p mode prio n xs s ht hlen => ?_, fun h id s ht => ?_⟩
  · have he : exec (.startRestore h id p mode prio n xs) s = .next (answer h.tag
        (startRestore id.toNat p.toNat mode prio.toNat n.toNat xs (mgmtHunt s)).2
        (startRestore id.toNat p.toNat mode prio.toNat n.toNat xs (mgmtHunt s)).1) := by
      refine congrArg Host.Outcome.next ((request_takes ht _ _).trans (if_pos ?_))
      rw [ht.2.2.2.2, hlen, decide_eq_true rfl, decide_eq_true rfl]
      rfl
    have hframe (r : Reply) := answered_of_frame r ht
      (startRestore_frame id.toNat p.toNat mode prio.toNat n.toNat xs (mgmtHunt s))
    refine ⟨_, he, fun hfull => ?_, fun slot hlt hfree hlower => ?_, (hframe _).2⟩
    · rw [startRestore_full (s := mgmtHunt s) (freeSlotOf_eq_none.2 hfull)]
      exact refused_takes _ ht
    have hslot := freeSlotOf_eq_some hlt hfree hlower
    refine ⟨fun hno => ?_, fun r v a m amount hid hv ha hm hamount => ?_⟩
    · rw [startRestore_noSnap (s := mgmtHunt s) hslot hno]
      exact refused_takes _ ht
    obtain ⟨t, heq⟩ : ∃ t, t = answer h.tag (startRestore id.toNat p.toNat mode prio.toNat n.toNat xs (mgmtHunt s)).2
        (startRestore id.toNat p.toNat mode prio.toNat n.toNat xs (mgmtHunt s)).1 := ⟨_, rfl⟩
    rw [← heq]
    have hall := startRestore_answers ht heq hslot hid hv ha hm hamount
    split
    · rwa [if_pos ‹_›] at hall
    rw [if_neg ‹_›] at hall
    split
    · rwa [if_pos ‹_›] at hall
    rw [if_neg ‹_›] at hall
    split
    · rwa [if_pos ‹_›] at hall
    rw [if_neg ‹_›] at hall
    split
    · rwa [if_pos ‹_›] at hall
    rw [if_neg ‹_›] at hall
    obtain ⟨hn, mo, hmo, hstarted⟩ := hall
    obtain ⟨j0, hj0⟩ : ∃ j0, j0 = newJob s id.toNat p.toNat r mo prio.toNat xs amount := ⟨_, rfl⟩
    rw [← hj0] at hstarted
    have hextents : j0.extents = xs.map newExtent := by rw [hj0]; rfl
    have hpending : ∀ e ∈ j0.extents, e.status = .pending := fun e he => by
      rw [hextents] at he
      obtain ⟨x, -, rfl⟩ := List.mem_map.1 he
      rfl
    have hsome : j0.extents ≠ [] := fun hno => hn (by
      rw [hextents, List.map_eq_nil_iff] at hno
      rw [← hlen, hno]
      rfl)
    obtain ⟨haccts, hsnaps, hacceptance⟩ := acceptRestore_steady slot j0 (mgmtHunt s)
    have hjob (k : Nat) : restoreJob t k = restoreJob (acceptRestore slot j0 (mgmtHunt s)) k := hstarted ▸ restoreJob_answer _ _ _ k
    have hlink (k : Nat) : link t k = link (acceptRestore slot j0 (mgmtHunt s)) k := hstarted ▸ link_answer _ _ _ k
    have hacct (x : Subject) : acct t x = acct (accepted slot j0 (mgmtHunt s)) x :=
      (hstarted ▸ acct_answer _ _ _ x : acct t x = _).trans (haccts x)
    refine ⟨?_, ?_, ?_, ?_, ?_, ?_, ?_⟩
    · rw [hstarted]
      exact (answered_of_frame _ ht (acceptRestore_frame slot j0 (mgmtHunt s))).1
    · rw [hmo, hjob, hj0]
      exact acceptRestore_newJob slot
    · rw [hstarted, answer_cca]
      exact hacceptance
    · rintro b rfl
      rw [ha]
      refine (hacct (.principal p.toNat)).trans ?_
      rw [hj0]
      exact principal_accepted
    · rintro g b hg rfl
      rw [ha] at hg
      refine (hacct (.group g)).trans ?_
      rw [hj0]
      exact group_accepted hg
    · rw [hstarted, snap_answer, hsnaps, hj0]
      exact snap_accepted hid
    · rintro _ limit j rfl hj hlimit hlt hout hs
      rw [hjob] at hj
      have hprio : j0.priority = prio.toNat := by rw [hj0]; rfl
      obtain ⟨hwaits, hgranted, hbehind⟩ := acceptRestore_serves (s := mgmtHunt s) (srv := v.server) (by rw [hj0, hv]; rfl)
        (by rw [hj0]; rfl) hpending hsome hlimit Iff.rfl hj hlt hout hs.dupJobs.1
      rw [hprio, ← hlink] at hgranted
      simp only [hprio, ← hjob] at hbehind
      exact ⟨hwaits, hgranted, fun h1 h2 h3 before c after hsplit hle hbefore hafter _ _ =>
        hbehind h1 h2 h3 before c after hsplit hle hbefore hafter⟩
  · have he : exec (.cancelRestore h id) s = .next (answer h.tag (cancelRestore id.toNat (mgmtHunt s)).2
        (cancelRestore id.toNat (mgmtHunt s)).1) := congrArg Host.Outcome.next (fixedRequest_takes ht _)
    have hframe (r : Reply) := answered_of_frame r ht (cancelRestore_frame id.toNat (mgmtHunt s))
    refine ⟨_, he, fun hbad => ?_, fun hok hnone => ?_, fun j hok hj => ?_, (hframe _).2⟩
    · rw [cancelRestore_malformed hbad]
      exact refused_takes _ ht
    · rw [cancelRestore_noSuch (s := mgmtHunt s) (Nat.not_lt.2 hok) hnone]
      exact refused_takes _ ht
    · rw [cancelRestore_of_job (s := mgmtHunt s) (Nat.not_lt.2 hok) hj] at hframe ⊢
      by_cases hdraining : j.state = .draining
      · rw [if_pos hdraining, if_pos hdraining]
        exact refused_takes _ ht
      · rw [if_neg hdraining] at hframe ⊢
        rw [if_neg hdraining]
        exact ⟨(hframe _).1, cancelRestore_cancels rfl⟩

end Sys2Proof.Machine
end
